-- ==== Sys2Proof/Word.lean ====
section
/-! DEFINITION. The unit the host line and the segment links carry: one byte. -/

namespace Sys2Proof

/-- One byte of a frame (R187, R200). -/
abbrev Byte := BitVec 8

/-- The byte of value `n mod 256`. -/
abbrev byteOf (n : Nat) : Byte := BitVec.ofNat 8 n

end Sys2Proof
end

