-- ==== Sys2Proof/Config.lean ====
section
/-! DEFINITION. The figures the manual fixes for every LB-7240 and the free values it leaves open. -/

namespace Sys2Proof.Config

/-- Ticks of one civic day, one tick being 10 ms (TABLE 0-3, TABLE 1-1). -/
abbrev ticksPerDay : Nat := 8640000

/-- The staging horizon (TABLE 0-3): how far ahead of its due tick a group is handed on. -/
abbrev horizon : Nat := 150

/-- The arm lead of a booking (TABLE 0-3, R37). -/
abbrev armLead : Nat := 6000

/-- A group's expiry point lies this many ticks after its due tick (R116): the late limit of 50 and one more. -/
abbrev expirySpan : Nat := 51

/-- The dark guard (section 9.2): the span free of arm points that DARK asks for. -/
abbrev darkGuard : Nat := 60000

/-- The periodic dark test (R178). -/
abbrev darkGuardPeriod : Nat := 6000

/-- Capacity of a link's stage list (section 6.1). -/
abbrev stageCap : Nat := 48

/-- Where a 16-bit counter of the part holds (R86, R141, R188 and others). -/
abbrev counterMax : Nat := 65535

/-- Where the arm-sequence count holds (R50). -/
abbrev armSeqMax : Nat := 4294967295

/-- FREE VALUE (log entry 3). What the pins AIN0-AIN3 and CIN0-CIN3 hold at the `n`-th sample that a
scan takes without a command of its own carrying it. It has no body: nothing is known of it but its
width, 0-4095 (R162). -/
opaque freeReading : Nat → BitVec 12

/-- FREE VALUE (log entry 4). The byte that GET_STATE's reply carries for the result of the last dark
test: R184 asks for it and TABLE 11-2 gives it no code. -/
opaque darkResultCode : Nat → Byte

/-- FREE VALUE (log entry 4). The byte that GET_STATE's reply carries for the cause of the last change
of operating state: R184 asks for it and TABLE 11-2 gives it no code. -/
opaque changeCauseCode : Nat → Byte

end Sys2Proof.Config
end

