-- ==== Sys2Proof/Syntax.lean ====
section
/-! DEFINITION. The commands of the LB-7240: one constructor of `Instr` for each row of
spec/opcode_table.json. A row that is a host request carries the request's tag and its fields as
the wire gives them (Chapter 11); a row that is an event of the part carries what the event brings
from outside (a link, a player, the bytes of a reply, a reading). -/

namespace Sys2Proof

/-- One byte from the host's receive line, with its stop bit (R188: a byte that arrives with no stop
bit fails the frame it stands in). -/
structure RxByte where
  byte : Byte
  stop : Bool
deriving DecidableEq, Repr

/-- An edge on the PULSE input (R4). -/
inductive Edge where
  | rising
  | falling
deriving DecidableEq, Repr

/-- A cue as ADD_CUES carries it (TABLE 11-4): offset, show part, look number. -/
structure CueField where
  offset : Nat
  part : Nat
  look : Nat
deriving DecidableEq, Repr

/-- A part entry of a booking's zone map as ADD_BOOKING carries it (TABLE 11-5). -/
structure PartField where
  part : Nat
  zones : List Nat
deriving DecidableEq, Repr

/-- A booking as ADD_BOOKING carries it, field by field in the order of TABLE 11-5; a field said to be
absent holds its mark of absence (FFh in every byte). -/
structure BookingField where
  id : Nat
  showNo : Nat
  start : Nat
  mode : Nat
  startCond : Nat
  window : Nat
  endTime : Nat
  nextDay : Nat
  stopCond : Nat
  cls : Nat
  sub : Nat
  policy : Nat
  zmap : List PartField
deriving DecidableEq, Repr

/-- The settings PUT_CONDITION carries after its channel number (section 11.3). -/
structure ConditionField where
  enabled : Nat
  source : Nat
  mode : Nat
  low : Nat
  high : Nat
  persist : Nat
  record : Nat
  attrs : Nat
deriving DecidableEq, Repr

/-- The 44 request kinds of the part (TABLE 11-3), each with the fields of its body. -/
inductive Request where
  | setTime (year month day tod : Nat)
  | getTime
  | setPulse (enable polarity : Nat)
  | putLook (look l0 l1 l2 l3 fade : Nat)
  | getLook (look : Nat)
  | openShow (showNo : Nat) (name : List Byte)
  | addSection (showNo kind length passes : Nat)
  | addCues (showNo : Nat) (cues : List CueField)
  | closeShow (showNo : Nat)
  | dropShow (showNo : Nat)
  | getShow (showNo firstCue : Nat)
  | getPool
  | openPlan (bank year month day : Nat)
  | addBooking (bank : Nat) (booking : BookingField)
  | sealPlan (bank : Nat)
  | activatePlan (bank : Nat)
  | clearPlan (bank : Nat)
  | cancelBooking (bank id abrupt : Nat)
  | amendEnd (bank id endTime nextDay : Nat)
  | getBooking (bank id : Nat)
  | getPlan (bank : Nat) (page : Option Nat)
  | getPlayer (player : Nat)
  | hold (player : Nat)
  | resume (player : Nat)
  | setPasses (player passes : Nat)
  | putZone (zone configured fallback lead : Nat)
  | getZone (zone : Nat)
  | setLead (zone lead : Nat)
  | enableLink (link : Nat)
  | disableLink (link : Nat)
  | scanLink (link : Nat)
  | calibrateLink (link : Nat)
  | getLink (link : Nat) (page : Option Nat)
  | putCondition (channel : Nat) (settings : ConditionField)
  | getCondition (channel : Nat)
  | setReading (channel reading : Nat)
  | getNotices
  | clearNotices (mask : Nat)
  | subscribe (mask : Nat)
  | setState (op auto : Nat)
  | getState
  | restart
  | ident
  | loopback (body : List Byte)
deriving DecidableEq, Repr

/-- The commands. The order is the table's. -/
inductive Instr where
  /-- TICK_EVENT (R1) -/
  | tickEvent
  /-- PULSE (R4): an edge on the PULSE input -/
  | pulse (edge : Edge)
  /-- PULSE_SILENCE_HOLDOVER (R6) -/
  | pulseSilenceHoldover
  /-- ARM_POINT (R50): the first due arm point, in the order of R51 -/
  | armPoint
  /-- CLAIM_POINT (R63, R64) -/
  | claimPoint (player : Fin 8)
  /-- START_POINT (R64) -/
  | startPoint (player : Fin 8)
  /-- WINDOW_END (R66) -/
  | windowEnd (player : Fin 8)
  /-- END_CUT (R66, R75, R84) -/
  | endCut (player : Fin 8)
  /-- HAND_POINT (R69) -/
  | handPoint (player : Fin 8)
  /-- DUE_POINT (R71) -/
  | duePoint (player : Fin 8)
  /-- RELEASE_POINT (R85) -/
  | releasePoint (player : Fin 8)
  /-- SEND_TICK (R123) -/
  | sendTick (link : Fin 4)
  /-- EXPIRY_POINT (R126): of the player's oldest group past its expiry -/
  | expiryPoint (player : Fin 8)
  /-- LINK_FRAME_SENT (R143) -/
  | linkFrameSent (link : Fin 4)
  /-- DRIVER_REPLY (R140): a run of bytes from the wire, and the time in hundredths of a tick from the
  end of the sending of the frame in flight to its receipt (R152) -/
  | driverReply (link : Fin 4) (bytes : List Byte) (roundTrip : Nat)
  /-- TRANSFER_TIMEOUT (R140) -/
  | transferTimeout (link : Fin 4)
  /-- BACKOFF_EXPIRY (R146) of the driver at address `addr` + 1 -/
  | backoffExpiry (link : Fin 4) (addr : Fin 16)
  /-- ERROR_AGE_EXPIRY (R141) -/
  | errorAgeExpiry (link : Fin 4)
  /-- WARM_UP_END (R149) -/
  | warmUpEnd (link : Fin 4)
  /-- LOST_DRIVER_POLL_DUE (R150) of the driver at address `addr` + 1 -/
  | lostDriverPollDue (link : Fin 4) (addr : Fin 16)
  /-- REFRESH_DUE (R148) of the driver at address `addr` + 1 -/
  | refreshDue (link : Fin 4) (addr : Fin 16)
  /-- FAULT_REST_END (R154) -/
  | faultRestEnd (link : Fin 4)
  /-- QUIESCE_WAIT_END (R155) -/
  | quiesceWaitEnd (link : Fin 4)
  /-- SCAN_START (R164): with the four contacts, true for closed -/
  | scanStart (c0 c1 c2 c3 : Bool)
  /-- CONVERSION_END (R164): with the reading converted -/
  | conversionEnd (reading : Nat)
  /-- DARK_GUARD_EXPIRY (R178) -/
  | darkGuardExpiry
  /-- COLD_START (R185): the release of RESET, with the level of the RATE pin (R196) -/
  | coldStart (rateHigh : Bool)
  /-- HOST_FRAME_RECEIVED (R188): the bytes that arrive, up to the end of a frame -/
  | hostFrameReceived (bytes : List RxByte)
  /-- BAD_KIND_REQUEST (R190): a whole frame of a kind the part does not take -/
  | badKindRequest (kind tag : Nat) (body : List Byte)
  /-- HOST_FRAME_SENT (R191) -/
  | hostFrameSent
  /-- HOST_BREAK (R192) -/
  | hostBreak
  /-- SET_TIME (R10) -/
  | setTime (tag year month day tod : Nat)
  /-- GET_TIME (R13) -/
  | getTime (tag : Nat)
  /-- SET_PULSE (R7) -/
  | setPulse (tag enable polarity : Nat)
  /-- PUT_LOOK (R17) -/
  | putLook (tag look l0 l1 l2 l3 fade : Nat)
  /-- GET_LOOK (R18) -/
  | getLook (tag look : Nat)
  /-- OPEN_SHOW (R21) -/
  | openShow (tag showNo : Nat) (name : List Byte)
  /-- ADD_SECTION (R22) -/
  | addSection (tag showNo kind length passes : Nat)
  /-- ADD_CUES (R24) -/
  | addCues (tag showNo : Nat) (cues : List CueField)
  /-- CLOSE_SHOW (R26) -/
  | closeShow (tag showNo : Nat)
  /-- DROP_SHOW (R28) -/
  | dropShow (tag showNo : Nat)
  /-- GET_SHOW (R33) -/
  | getShow (tag showNo firstCue : Nat)
  /-- GET_POOL (R34) -/
  | getPool (tag : Nat)
  /-- OPEN_PLAN (R40) -/
  | openPlan (tag bank year month day : Nat)
  /-- ADD_BOOKING (R41) -/
  | addBooking (tag bank : Nat) (booking : BookingField)
  /-- SEAL_PLAN (R43) -/
  | sealPlan (tag bank : Nat)
  /-- ACTIVATE_PLAN (R45) -/
  | activatePlan (tag bank : Nat)
  /-- CLEAR_PLAN (R49) -/
  | clearPlan (tag bank : Nat)
  /-- CANCEL_BOOKING (R54) -/
  | cancelBooking (tag bank id abrupt : Nat)
  /-- AMEND_END (R55) -/
  | amendEnd (tag bank id endTime nextDay : Nat)
  /-- GET_BOOKING (R56) -/
  | getBooking (tag bank id : Nat)
  /-- GET_PLAN (R57) -/
  | getPlan (tag bank : Nat) (page : Option Nat)
  /-- GET_PLAYER (R88) -/
  | getPlayer (tag player : Nat)
  /-- HOLD (R82) -/
  | hold (tag player : Nat)
  /-- RESUME (R83) -/
  | resume (tag player : Nat)
  /-- SET_PASSES (R73) -/
  | setPasses (tag player passes : Nat)
  /-- PUT_ZONE (R108) -/
  | putZone (tag zone configured fallback lead : Nat)
  /-- GET_ZONE (R111) -/
  | getZone (tag zone : Nat)
  /-- SET_LEAD (R110) -/
  | setLead (tag zone lead : Nat)
  /-- ENABLE_LINK (R157) -/
  | enableLink (tag link : Nat)
  /-- DISABLE_LINK (R157) -/
  | disableLink (tag link : Nat)
  /-- SCAN_LINK (R151) -/
  | scanLink (tag link : Nat)
  /-- CALIBRATE_LINK (R152) -/
  | calibrateLink (tag link : Nat)
  /-- GET_LINK (R158) -/
  | getLink (tag link : Nat) (page : Option Nat)
  /-- PUT_CONDITION (R170) -/
  | putCondition (tag channel : Nat) (settings : ConditionField)
  /-- GET_CONDITION (R172) -/
  | getCondition (tag channel : Nat)
  /-- SET_READING (R171) -/
  | setReading (tag channel reading : Nat)
  /-- SET_STATE (R181) -/
  | setState (tag op auto : Nat)
  /-- GET_STATE (R184) -/
  | getState (tag : Nat)
  /-- RESTART (R186) -/
  | restart (tag : Nat)
  /-- GET_NOTICES (R195) -/
  | getNotices (tag : Nat)
  /-- CLEAR_NOTICES (R195) -/
  | clearNotices (tag mask : Nat)
  /-- SUBSCRIBE (R194) -/
  | subscribe (tag mask : Nat)
  /-- IDENT (R196) -/
  | ident (tag : Nat)
  /-- LOOPBACK (R199) -/
  | loopback (tag : Nat) (body : List Byte)
  /-- RESET_ASSERTED (R185) -/
  | resetAsserted
  /-- BREAK_END (R192) -/
  | breakEnd
deriving DecidableEq, Repr

end Sys2Proof
end

