-- ==== Sys2Proof/Decode.lean ====
section
/-! DEFINITION. The bytes of a request (Chapter 11): the number encodings of R198, the 44 kind codes
and body lengths of TABLE 11-3, and reading a request from a whole frame as steps 1 and 2 of R190
judge it. No row of spec/opcode_table.json gives bits, so no word spells a command. -/

namespace Sys2Proof

/-- `n` in `k` bytes, high byte first (R198). -/
def bigEndian : Nat → Nat → List Byte
  | 0, _ => []
  | k + 1, n => byteOf (n / 256 ^ k) :: bigEndian k n

/-- The number two bytes hold, high byte first (R198). -/
def be2 (a b : Nat) : Nat := a * 256 + b

/-- The number three bytes hold, high byte first (R198). -/
def be3 (a b c : Nat) : Nat := (a * 256 + b) * 256 + c

/-- What the port makes of a whole frame's kind and length before any block sees it (R190). -/
inductive Judged where
  /-- step 3: handed to its block -/
  | ok (r : Request)
  /-- step 1 -/
  | badKind
  /-- step 2 -/
  | badLength
deriving DecidableEq, Repr

/-- The cues of an ADD_CUES body after its count byte, four bytes each (TABLE 11-4). -/
def parseCues : List Nat → Option (List CueField)
  | [] => some []
  | a :: b :: p :: k :: rest => (parseCues rest).map (⟨be2 a b, p, k⟩ :: ·)
  | _ => none

/-- `n` part entries of a booking and nothing over (TABLE 11-5, R199). -/
def parseParts : Nat → List Nat → Option (List PartField)
  | 0, [] => some []
  | 0, _ :: _ => none
  | n + 1, p :: c :: rest =>
    if c ≤ rest.length then (parseParts n (rest.drop c)).map (⟨p, rest.take c⟩ :: ·) else none
  | _ + 1, _ => none

/-- A booking record (TABLE 11-5). -/
def parseBooking : List Nat → Option BookingField
  | id :: sh :: s2 :: s1 :: s0 :: m :: sc :: w2 :: w1 :: w0 :: e2 :: e1 :: e0 :: nd :: st :: c :: su
      :: lp :: n :: rest =>
    (parseParts n rest).map fun z =>
      ⟨id, sh, be3 s2 s1 s0, m, sc, be3 w2 w1 w0, be3 e2 e1 e0, nd, st, c, su, lp, z⟩
  | _ => none

/-- A request when its body parsed, BAD_LENGTH when it did not (R190 step 2, R199). -/
def judgedOf : Option Request → Judged
  | some r => .ok r
  | none => .badLength

/-- The body of each kind, by the lengths of TABLE 11-3 and R199; `none` is a length not allowed. -/
def parseBody (kind : Nat) (ns : List Nat) : Option Request :=
  match kind, ns with
  | 0x01, [y1, y0, m, d, t2, t1, t0] => some (.setTime (be2 y1 y0) m d (be3 t2 t1 t0))
  | 0x02, [] => some .getTime
  | 0x03, [e, p] => some (.setPulse e p)
  | 0x10, [n, a, b, c, d, f1, f0] => some (.putLook n a b c d (be2 f1 f0))
  | 0x11, [n] => some (.getLook n)
  | 0x12, n :: name => if name.length = 8 then some (.openShow n (name.map byteOf)) else none
  | 0x13, [n, k, l1, l0, p] => some (.addSection n k (be2 l1 l0) p)
  | 0x14, n :: c :: rest =>
    if rest.length = 4 * c then (parseCues rest).map (.addCues n ·) else none
  | 0x15, [n] => some (.closeShow n)
  | 0x16, [n] => some (.dropShow n)
  | 0x17, [n, i1, i0] => some (.getShow n (be2 i1 i0))
  | 0x18, [] => some .getPool
  | 0x20, [b, y1, y0, m, d] => some (.openPlan b (be2 y1 y0) m d)
  | 0x21, b :: rest => (parseBooking rest).map (.addBooking b ·)
  | 0x22, [b] => some (.sealPlan b)
  | 0x23, [b] => some (.activatePlan b)
  | 0x24, [b] => some (.clearPlan b)
  | 0x25, [b, i, a] => some (.cancelBooking b i a)
  | 0x26, [b, i, e2, e1, e0, n] => some (.amendEnd b i (be3 e2 e1 e0) n)
  | 0x27, [b, i] => some (.getBooking b i)
  | 0x28, [b] => some (.getPlan b none)
  | 0x28, [b, p] => some (.getPlan b (some p))
  | 0x30, [p] => some (.getPlayer p)
  | 0x31, [p] => some (.hold p)
  | 0x32, [p] => some (.resume p)
  | 0x33, [p, n] => some (.setPasses p n)
  | 0x38, [z, c, f, l] => some (.putZone z c f l)
  | 0x39, [z] => some (.getZone z)
  | 0x3A, [z, l] => some (.setLead z l)
  | 0x40, [l] => some (.enableLink l)
  | 0x41, [l] => some (.disableLink l)
  | 0x42, [l] => some (.scanLink l)
  | 0x43, [l] => some (.calibrateLink l)
  | 0x44, [l] => some (.getLink l none)
  | 0x44, [l, p] => some (.getLink l (some p))
  | 0x48, [n, e, s, m, l1, l0, h1, h0, p, r, a] =>
    some (.putCondition n ⟨e, s, m, be2 l1 l0, be2 h1 h0, p, r, a⟩)
  | 0x49, [n] => some (.getCondition n)
  | 0x4A, [n, r1, r0] => some (.setReading n (be2 r1 r0))
  | 0x50, [] => some .getNotices
  | 0x51, [m1, m0] => some (.clearNotices (be2 m1 m0))
  | 0x52, [m1, m0] => some (.subscribe (be2 m1 m0))
  | 0x53, [o, a] => some (.setState o a)
  | 0x54, [] => some .getState
  | 0x55, [] => some .restart
  | 0x56, [] => some .ident
  | 0x57, ns => if ns.length ≤ 239 then some (.loopback (ns.map byteOf)) else none
  | _, _ => none

/-- The 44 request kind codes (TABLE 11-3). -/
def requestKinds : List Nat :=
  [0x01, 0x02, 0x03, 0x10, 0x11, 0x12, 0x13, 0x14, 0x15, 0x16, 0x17, 0x18] ++
  [0x20, 0x21, 0x22, 0x23, 0x24, 0x25, 0x26, 0x27, 0x28, 0x30, 0x31, 0x32, 0x33] ++
  [0x38, 0x39, 0x3A, 0x40, 0x41, 0x42, 0x43, 0x44, 0x48, 0x49, 0x4A] ++
  [0x50, 0x51, 0x52, 0x53, 0x54, 0x55, 0x56, 0x57]

/-- Steps 1 and 2 of R190 on a whole frame. -/
def parseRequest (kind : Nat) (body : List Byte) : Judged :=
  if kind ∈ requestKinds then judgedOf (parseBody kind (body.map (·.toNat))) else .badKind

/-- The kind code of a request (TABLE 11-3). -/
def Request.kind : Request → Nat
  | .setTime .. => 0x01
  | .getTime => 0x02
  | .setPulse .. => 0x03
  | .putLook .. => 0x10
  | .getLook .. => 0x11
  | .openShow .. => 0x12
  | .addSection .. => 0x13
  | .addCues .. => 0x14
  | .closeShow .. => 0x15
  | .dropShow .. => 0x16
  | .getShow .. => 0x17
  | .getPool => 0x18
  | .openPlan .. => 0x20
  | .addBooking .. => 0x21
  | .sealPlan .. => 0x22
  | .activatePlan .. => 0x23
  | .clearPlan .. => 0x24
  | .cancelBooking .. => 0x25
  | .amendEnd .. => 0x26
  | .getBooking .. => 0x27
  | .getPlan .. => 0x28
  | .getPlayer .. => 0x30
  | .hold .. => 0x31
  | .resume .. => 0x32
  | .setPasses .. => 0x33
  | .putZone .. => 0x38
  | .getZone .. => 0x39
  | .setLead .. => 0x3A
  | .enableLink .. => 0x40
  | .disableLink .. => 0x41
  | .scanLink .. => 0x42
  | .calibrateLink .. => 0x43
  | .getLink .. => 0x44
  | .putCondition .. => 0x48
  | .getCondition .. => 0x49
  | .setReading .. => 0x4A
  | .getNotices => 0x50
  | .clearNotices .. => 0x51
  | .subscribe .. => 0x52
  | .setState .. => 0x53
  | .getState => 0x54
  | .restart => 0x55
  | .ident => 0x56
  | .loopback .. => 0x57

/-- A cue's four bytes (TABLE 11-4). -/
def CueField.bytes (c : CueField) : List Byte := bigEndian 2 c.offset ++ [byteOf c.part, byteOf c.look]

/-- A part entry's bytes (TABLE 11-5). -/
def PartField.bytes (p : PartField) : List Byte :=
  byteOf p.part :: byteOf p.zones.length :: p.zones.map byteOf

/-- A booking's bytes (TABLE 11-5). -/
def BookingField.bytes (b : BookingField) : List Byte :=
  [byteOf b.id, byteOf b.showNo] ++ bigEndian 3 b.start ++ [byteOf b.mode, byteOf b.startCond]
    ++ bigEndian 3 b.window ++ bigEndian 3 b.endTime
    ++ [byteOf b.nextDay, byteOf b.stopCond, byteOf b.cls, byteOf b.sub, byteOf b.policy]
    ++ byteOf b.zmap.length :: b.zmap.flatMap PartField.bytes

/-- The settings of PUT_CONDITION (section 11.3). -/
def ConditionField.bytes (c : ConditionField) : List Byte :=
  [byteOf c.enabled, byteOf c.source, byteOf c.mode] ++ bigEndian 2 c.low ++ bigEndian 2 c.high
    ++ [byteOf c.persist, byteOf c.record, byteOf c.attrs]

/-- A date's four bytes (R198). -/
def dateBytes (year month day : Nat) : List Byte := bigEndian 2 year ++ [byteOf month, byteOf day]

/-- The body of a request: its fields in the order their rules list them (section 11.2). -/
def Request.body : Request → List Byte
  | .setTime y m d t => dateBytes y m d ++ bigEndian 3 t
  | .getTime => []
  | .setPulse e p => [byteOf e, byteOf p]
  | .putLook n a b c d f => [byteOf n, byteOf a, byteOf b, byteOf c, byteOf d] ++ bigEndian 2 f
  | .getLook n => [byteOf n]
  | .openShow n name => byteOf n :: name
  | .addSection n k l p => [byteOf n, byteOf k] ++ bigEndian 2 l ++ [byteOf p]
  | .addCues n cs => byteOf n :: byteOf cs.length :: cs.flatMap CueField.bytes
  | .closeShow n => [byteOf n]
  | .dropShow n => [byteOf n]
  | .getShow n i => byteOf n :: bigEndian 2 i
  | .getPool => []
  | .openPlan b y m d => byteOf b :: dateBytes y m d
  | .addBooking b k => byteOf b :: k.bytes
  | .sealPlan b => [byteOf b]
  | .activatePlan b => [byteOf b]
  | .clearPlan b => [byteOf b]
  | .cancelBooking b i a => [byteOf b, byteOf i, byteOf a]
  | .amendEnd b i e n => [byteOf b, byteOf i] ++ bigEndian 3 e ++ [byteOf n]
  | .getBooking b i => [byteOf b, byteOf i]
  | .getPlan b none => [byteOf b]
  | .getPlan b (some p) => [byteOf b, byteOf p]
  | .getPlayer p => [byteOf p]
  | .hold p => [byteOf p]
  | .resume p => [byteOf p]
  | .setPasses p n => [byteOf p, byteOf n]
  | .putZone z c f l => [byteOf z, byteOf c, byteOf f, byteOf l]
  | .getZone z => [byteOf z]
  | .setLead z l => [byteOf z, byteOf l]
  | .enableLink l => [byteOf l]
  | .disableLink l => [byteOf l]
  | .scanLink l => [byteOf l]
  | .calibrateLink l => [byteOf l]
  | .getLink l none => [byteOf l]
  | .getLink l (some p) => [byteOf l, byteOf p]
  | .putCondition n c => byteOf n :: c.bytes
  | .getCondition n => [byteOf n]
  | .setReading n r => byteOf n :: bigEndian 2 r
  | .getNotices => []
  | .clearNotices m => bigEndian 2 m
  | .subscribe m => bigEndian 2 m
  | .setState o a => [byteOf o, byteOf a]
  | .getState => []
  | .restart => []
  | .ident => []
  | .loopback b => b

/-- The command a word spells by the table's bits: none, since no row of the table gives bits. -/
def decodeTableWord (_nbits _w : Nat) : Option Instr := none

end Sys2Proof
end

