-- ==== Sys2Proof/Machine/Tab.lean ====
section
/-! DEFINITION. Tables of a fixed number of records, as plain data: the list of the records with the
proof that there are `n` of them. -/

namespace Sys2Proof.Machine

/-- A table of `n` records, numbered from 0. -/
structure Tab (α : Type) (n : Nat) where
  list : List α
  len : list.length = n
deriving DecidableEq, Repr

namespace Tab

variable {α β : Type} {n : Nat}

/-- Record `i`. -/
def get (t : Tab α n) (i : Fin n) : α := t.list[i.val]'(by rw [t.len]; exact i.isLt)

/-- The table with record `i` replaced. -/
def set (t : Tab α n) (i : Fin n) (a : α) : Tab α n :=
  ⟨t.list.set i.val a, by rw [List.length_set, t.len]⟩

/-- The table with `f` applied to record `i`. -/
def upd (t : Tab α n) (i : Fin n) (f : α → α) : Tab α n := t.set i (f (t.get i))

/-- The table whose records are all `a`. -/
def fill (n : Nat) (a : α) : Tab α n := ⟨List.replicate n a, List.length_replicate⟩

/-- The table with `f` applied to every record. -/
def map (f : α → β) (t : Tab α n) : Tab β n := ⟨t.list.map f, by rw [List.length_map, t.len]⟩

/-- The table whose record `i` is `f i`. -/
def ofFn (n : Nat) (f : Fin n → α) : Tab α n :=
  ⟨(List.finRange n).map f, by rw [List.length_map, List.length_finRange]⟩

/-- Does some record pass `p`? -/
def any (t : Tab α n) (p : α → Bool) : Bool := t.list.any p

/-- The record of that number, for a number that may be out of range. -/
def get? (t : Tab α n) (i : Nat) : Option α := t.list[i]?

end Tab

/-- The numbers below `n` in ascending order. -/
abbrev upTo (n : Nat) : List (Fin n) := List.finRange n

/-- A number as an index below `n`, when it is one. -/
def index? (n i : Nat) : Option (Fin n) := if h : i < n then some ⟨i, h⟩ else none

end Sys2Proof.Machine
end

