-- ==== Sys2Proof/Machine/State.lean ====
section
/-! DEFINITION. Everything the manual gives the part, as plain data, its values after a cold start,
and the reasons a step could stop. Civic ticks and durations are natural numbers. Show `n` stands at
place `n - 1` of its table, tag `t` at place `t - 1`, and the driver at address `a` of a link at place
`a - 1`. -/

namespace Sys2Proof.Machine

/-! ## Time Base (TABLE 1-1) -/

structure Date where
  year : Nat
  month : Nat
  day : Nat
deriving DecidableEq, Repr

/-- TABLE 1-2 -/
inductive TimeState where
  | unset | free | locked | holdover
deriving DecidableEq, Repr

structure TimeBase where
  date : Date
  tod : Nat
  state : TimeState
  faults : Nat
  enabled : Bool
  polarity : Edge
  silence : Nat
  lastError : Option Int
deriving DecidableEq, Repr

/-! ## Show Library (TABLES 2-1 to 2-6) -/

/-- A look's levels and fade. -/
structure LookVal where
  l0 : Nat
  l1 : Nat
  l2 : Nat
  l3 : Nat
  fade : Nat
deriving DecidableEq, Repr

/-- A look number with its copied levels and fade (R19). -/
structure LookCopy where
  num : Fin 256
  val : LookVal
deriving DecidableEq, Repr

inductive ShowState where
  | empty | building | closed
deriving DecidableEq, Repr

inductive SectionKind where
  | preroll | main | coda
deriving DecidableEq, Repr

structure SectionRec where
  kind : SectionKind
  length : Nat
  passes : Nat
  first : Nat
  count : Nat
deriving DecidableEq, Repr

/-- A finite length, or ENDLESS (R32). -/
inductive ShowLength where
  | endless
  | ticks (n : Nat)
deriving DecidableEq, Repr

structure ShowRec where
  state : ShowState
  name : List Byte
  parts : List SectionRec
  blocks : List Nat
  cues : Nat
  length : Option ShowLength
deriving DecidableEq, Repr

structure Cue where
  offset : Nat
  part : Fin 16
  look : Fin 256
deriving DecidableEq, Repr

structure Library where
  looks : Tab LookVal 256
  shows : Tab ShowRec 32
  /-- the written slots of the cue pool: slot number block × 64 + slot, strictly rising -/
  pool : List (Nat × Cue)
  free : List Nat
  openShow : Option (Fin 32)
deriving DecidableEq, Repr

/-! ## Plan Banks (TABLES 3-1 to 3-5) -/

inductive Bank where
  | a | b
deriving DecidableEq, Repr

inductive BankState where
  | empty | loading | ready | active | lapsed | spent
deriving DecidableEq, Repr

inductive StartMode where
  | atTime
  /-- with its start condition and its wait window -/
  | onCondition (channel : Fin 8) (window : Nat)
deriving DecidableEq, Repr

structure EndTime where
  tod : Nat
  nextDay : Bool
deriving DecidableEq, Repr

inductive LatePolicy where
  | skip | join | restart
deriving DecidableEq, Repr

structure PartEntry where
  part : Fin 16
  zones : List (Fin 64)
deriving DecidableEq, Repr

structure Booking where
  id : Nat
  showNo : Fin 32
  start : Nat
  mode : StartMode
  endTime : Option EndTime
  stopCond : Option (Fin 8)
  cls : Nat
  sub : Nat
  policy : LatePolicy
  zmap : List PartEntry
deriving DecidableEq, Repr

/-- TABLE 3-4 -/
inductive Progress where
  | pending | waitlisted | armed | waiting | running | held | ending
  | completed | endedAtTime | stopped | allStopped | cancelled | notStarted | skippedLate | aborted
deriving DecidableEq, Repr

structure Counters where
  late : Nat
  discarded : Nat
  preempted : Nat
  undeliverable : Nat
deriving DecidableEq, Repr

structure Report where
  progress : Progress
  abrupt : Bool
  startTick : Option Nat
  endTick : Option Nat
  counters : Counters
deriving DecidableEq, Repr

/-- A booking of a bank, its outcome, and whether its arm point is still to be acted on (R3, R50). -/
structure BankEntry where
  booking : Booking
  outcome : Report
  armHeld : Bool
deriving DecidableEq, Repr

structure BankRec where
  state : BankState
  date : Date
  list : List BankEntry
deriving DecidableEq, Repr

structure Plans where
  bankA : BankRec
  bankB : BankRec
  wait : List Nat
  armSeq : Nat
deriving DecidableEq, Repr

/-! ## Player Engine (TABLES 4-1 to 4-3) -/

inductive PlayerState where
  | free | armed | waiting | running | held | ending
deriving DecidableEq, Repr

inductive LateMark where
  | none | join | restart
deriving DecidableEq, Repr

/-- A group's identity, and a walk position: section index, pass number, show-wide cue index. -/
structure GroupId where
  sec : Nat
  pass : Nat
  cue : Nat
deriving DecidableEq, Repr

inductive Walk where
  | stands (g : GroupId)
  /-- END -/
  | past
deriving DecidableEq, Repr

inductive Passes where
  | endless
  | left (n : Nat)
deriving DecidableEq, Repr

/-- The booking copy with its points (R50): the claim point and the window end follow from the start
point. -/
structure BookingCopy where
  booking : Booking
  startPoint : Nat
  endPoint : Option Nat
deriving DecidableEq, Repr

structure HandCue where
  part : Fin 16
  look : LookCopy
deriving DecidableEq, Repr

structure Snapshot where
  walk : GroupId
  epoch : Nat
  passes : Passes
  latch : Option Nat
deriving DecidableEq, Repr

/-- TABLE 4-2 -/
structure HandRec where
  id : GroupId
  due : Nat
  cues : List HandCue
  snap : Snapshot
deriving DecidableEq, Repr

structure PlayPos where
  id : GroupId
  due : Nat
deriving DecidableEq, Repr

inductive EndCause where
  | completed | endedAtTime | stopped | cancelled
deriving DecidableEq, Repr

structure Player where
  state : PlayerState
  ref : Option (Bank × Nat)
  copy : Option BookingCopy
  length : Option ShowLength
  armSeq : Nat
  mark : LateMark
  epoch : Option Nat
  walk : Option Walk
  passes : Option Passes
  latch : Option Nat
  play : Option PlayPos
  hands : List HandRec
  looks : Tab (Option LookCopy) 16
  holdTick : Option Nat
  cause : Option EndCause
  release : Option Nat
  startTick : Option Nat
  counters : Counters
  /-- its end cut was amended to a tick already passed: it waits for the next reach (R3, R78) -/
  cutFresh : Bool
deriving DecidableEq, Repr

/-! ## Zone Arbiter (TABLES 5-1, 5-2) -/

structure Claim where
  player : Fin 8
  cls : Nat
  sub : Nat
  seq : Nat
  part : Fin 16
deriving DecidableEq, Repr

inductive TakeKind where
  | catchUp | fallback
deriving DecidableEq, Repr

structure Zone where
  configured : Bool
  claims : List Claim
  committed : Option LookCopy
  fallback : Fin 256
  lead : Nat
  /-- the individual take in flight: the reference of its entry or deferred item, and its kind -/
  take : Option (Nat × TakeKind)
deriving DecidableEq, Repr

/-! ## Take Dispatcher (TABLES 6-1 to 6-4) -/

structure CueItem where
  part : Fin 16
  zones : List (Fin 64)
  look : LookCopy
deriving DecidableEq, Repr

inductive Portion where
  /-- NONE -/
  | vacant
  | deferred
  | held (tag : Fin 15)
  | done
deriving DecidableEq, Repr

structure GroupRec where
  player : Fin 8
  id : GroupId
  due : Nat
  cues : List CueItem
  /-- per link, oldest portion first -/
  portions : Tab (List Portion) 4
deriving DecidableEq, Repr

inductive DropEnd where
  | withdrawn | discarded
deriving DecidableEq, Repr

inductive DropStage where
  | awaitingReply | dropPending | dropSent
deriving DecidableEq, Repr

inductive EntryState where
  | queued | sent | staged | late | lateSent | lateStaged
  | dropping (stop : DropEnd) (stage : DropStage)
deriving DecidableEq, Repr

/-- A back-off: clear, set by a RETRY, or set and met by the tick event that clears it (log entry 2). -/
inductive BackOff where
  | clear | raised | lapsing
deriving DecidableEq, Repr

/-- TABLE 6-2; `group` is absent and `tag` is 0 for an INDIVIDUAL entry. -/
structure Entry where
  ref : Nat
  addr : Fin 16
  player : Option (Fin 8)
  group : Option GroupId
  tag : Nat
  look : LookCopy
  hold : Nat
  due : Nat
  state : EntryState
  backoff : BackOff
deriving DecidableEq, Repr

structure GoEntry where
  tag : Fin 15
  player : Fin 8
  id : GroupId
  due : Nat
  lead : Nat
  /-- send tick -/
  send : Nat
  ready : Bool
  sent : Bool
deriving DecidableEq, Repr

inductive GoState where
  | pending | sent | removed
deriving DecidableEq, Repr

structure TagHold where
  player : Fin 8
  id : GroupId
  go : GoState
deriving DecidableEq, Repr

structure Member where
  addr : Fin 16
  look : LookCopy
deriving DecidableEq, Repr

/-- A deferred item: a group's link portion, or an individual take. -/
inductive Item where
  | group (player : Fin 8) (id : GroupId) (due : Nat) (members : List Member)
  | single (ref : Nat) (addr : Fin 16) (player : Option (Fin 8)) (look : LookCopy) (due : Nat)
deriving DecidableEq, Repr

/-! ## Segment Link Controllers (TABLES 7-1 to 7-3, 7-5) -/

inductive DriverState where
  | absent | ready | busy | unresponsive | asleep
deriving DecidableEq, Repr

structure Driver where
  state : DriverState
  credits : Nat
  occupied : Nat
  slotsFree : Option Nat
  /-- the flags byte of the latest reply (R200) -/
  flags : Option Nat
  silence : Option Nat
  latency : Option Nat
  refresh : Option Nat
  quiet : Nat
  backoff : BackOff
  poll : Nat
  /-- its one SLEEP of this quiesce has been tried (R155, log entry 10) -/
  sleepTried : Bool
deriving DecidableEq, Repr

inductive LinkState where
  | off | warming | scanning | up | calibrating | quiescing | asleep | faulted
deriving DecidableEq, Repr

/-- An addressed frame (TABLE 7-5), with the reference of the entry it carries. -/
inductive TxFrame where
  | stage (ref tag : Nat) (look : LookVal) (hold : Nat)
  | take (ref tag : Nat)
  | drop (ref tag : Nat)
  | refresh (look : LookVal)
  /-- of a scan, or of a lost driver -/
  | poll (flush scan : Bool)
  | probe (exchange : Nat)
  | sleep
deriving DecidableEq, Repr

/-- The addressed transfer in flight. `onWire`: its attempt is still being sent; `reported`: its first
sending has been reported to the dispatcher (log entry 6). -/
structure Transfer where
  frame : TxFrame
  addr : Fin 16
  attempt : Nat
  ticks : Nat
  onWire : Bool
  reported : Bool
deriving DecidableEq, Repr

inductive Broadcast where
  | go (tag : Fin 15)
  | wake
  | force
deriving DecidableEq, Repr

structure PendingItem where
  isTake : Bool
  addr : Fin 16
  tag : Nat
  ref : Nat
deriving DecidableEq, Repr

/-- Where a calibration stands: the address at its turn, the echoes taken, the sum of their round
trips, the drivers measured, and whether the PROBE in flight is this calibration's (R153). -/
structure CalPos where
  addr : Nat
  count : Nat
  sum : Nat
  measured : Nat
  probing : Bool
deriving DecidableEq, Repr

inductive OpResult where
  | complete | aborted | abandoned
deriving DecidableEq, Repr

structure LongOp where
  /-- SCAN, or else CALIBRATE -/
  isScan : Bool
  result : OpResult
  count : Nat
deriving DecidableEq, Repr

structure Link where
  enabled : Bool
  power : Bool
  state : LinkState
  timer : Nat
  transfer : Option Transfer
  bcast : Option Broadcast
  pending : List PendingItem
  errors : List Nat
  errorTotal : Nat
  scanPos : Option Nat
  cal : Option CalPos
  lastOp : Option LongOp
  wakeOwed : Bool
  forceOwed : Bool
  /-- the receive side discards bytes until the next C3h (R200) -/
  hunting : Bool
  drivers : Tab Driver 16
  stage : List Entry
  gos : List GoEntry
  tags : Tab (Option TagHold) 15
  deferred : List Item
  /-- an entry has left or a tag has freed since the deferred list was last retried (R134) -/
  retry : Bool
deriving DecidableEq, Repr

/-! ## Condition Monitor (TABLES 8-1, 8-2) -/

inductive Source where
  | ain (i : Fin 4)
  | cin (i : Fin 4)
  | supplied
deriving DecidableEq, Repr

inductive WindowMode where
  | above | below | inside | outside
deriving DecidableEq, Repr

inductive Verdict where
  | unknown | no | yes
deriving DecidableEq, Repr

structure Trip where
  tick : Nat
  value : Verdict
  reading : Nat
deriving DecidableEq, Repr

structure Channel where
  enabled : Bool
  source : Source
  mode : WindowMode
  low : Nat
  high : Nat
  persist : Nat
  /-- JUDGE_AND_RECORD -/
  record : Bool
  wake : Bool
  allStop : Bool
  value : Verdict
  streak : Nat
  /-- MATCH as true -/
  sense : Option Bool
  count : Nat
  trip : Option Trip
deriving DecidableEq, Repr

structure Scan where
  todo : List (Fin 4)
  converted : List (Fin 4)
deriving DecidableEq, Repr

structure Monitor where
  channels : Tab Channel 8
  ain : Tab (Option Nat) 4
  cin : Tab (Option Nat) 4
  supplied : Tab (Option Nat) 8
  timer : Nat
  scan : Option Scan
  /-- the last tick event has made a scan due (log entry 2) -/
  scanDue : Bool
deriving DecidableEq, Repr

/-! ## State Controller (TABLE 9-1) -/

inductive OpState where
  | active | dark | parked
deriving DecidableEq, Repr

inductive DarkResult where
  | entered | autoOff | players | waitList | bookingSoon
deriving DecidableEq, Repr

inductive ChangeCause where
  | auto | request | arming | condition | restart
deriving DecidableEq, Repr

structure LastTest where
  tick : Nat
  result : DarkResult
deriving DecidableEq, Repr

structure LastChange where
  tick : Nat
  state : OpState
  cause : ChangeCause
deriving DecidableEq, Repr

structure Controller where
  state : OpState
  auto : Bool
  guard : Nat
  lastTest : Option LastTest
  asleep : Tab Bool 4
  restartWake : Tab Bool 4
  lastChange : Option LastChange
deriving DecidableEq, Repr

/-! ## Host Line Port (TABLE 10-2) -/

/-- TABLE 10-4, numbered in that order. -/
inductive NoticeKind where
  | coldStart | warmRestart | timeState | timeStepped | dayRoll | planMissing | bookingEnded
  | bookingNotStarted | playerWait | lateTake | driverFault | linkState | queueFull
  | conditionChange | operatingState | longOpDone
deriving DecidableEq, Repr

structure Notice where
  pending : Bool
  sent : Bool
  count : Nat
  first : Option Nat
  last : Option Nat
deriving DecidableEq, Repr

/-- A whole request frame in the input queue. -/
structure HostFrame where
  kind : Nat
  tag : Nat
  judged : Judged
deriving DecidableEq, Repr

/-- TABLE 10-3, numbered in that order. -/
inductive Code where
  | ok | started | badKind | badLength | badField | notFound | noRoom | inUse | wrongState
  | timeUnset | showsActive | linkBusy | overrun
deriving DecidableEq, Repr

/-- A reply frame: the kind byte of its request (to which 80h is added), tag, result code, body. -/
structure Reply where
  kind : Nat
  tag : Nat
  code : Code
  body : List Byte
deriving DecidableEq, Repr

inductive OutFrame where
  | overrun (kind tag : Nat)
  | reply (r : Reply)
  /-- `live`: no CLEAR_NOTICES has cleared the kind since the frame began (R195) -/
  | notice (kind : Fin 16) (count first last : Nat) (live : Bool)
deriving DecidableEq, Repr

/-- The receive side (R188): hunting, or within a frame, with the content unstuffed so far and whether
a C4h awaits the byte after it. -/
inductive Rx where
  | hunt
  | frame (got : List Byte) (esc : Bool)
deriving DecidableEq, Repr

structure Port where
  rx : Rx
  queue : List HostFrame
  slot : Option Reply
  overruns : List (Nat × Nat)
  out : Option OutFrame
  checkErrors : Nat
  overrunCount : Nat
  mask : BitVec 16
  rateHigh : Bool
  breakHeld : Bool
deriving DecidableEq, Repr

/-! ## The part -/

/-- The blocks that act on one another within one event. -/
structure World where
  plans : Plans
  players : Tab Player 8
  zones : Tab Zone 64
  groups : List GroupRec
  links : Tab Link 4
  monitor : Monitor
  ctl : Controller
  notices : Tab Notice 16
  /-- the reference the next entry or item is given -/
  nextRef : Nat
deriving DecidableEq, Repr

structure State where
  time : TimeBase
  lib : Library
  world : World
  port : Port
  /-- the last tick event's reach is still open (log entry 2) -/
  reachOpen : Bool
  /-- RESET is held asserted (R185) -/
  held : Bool
  /-- free readings drawn so far (log entry 3) -/
  freeCount : Nat
  /-- the commands that wait, first in, first out -/
  pending : List Instr
deriving DecidableEq, Repr

/-- Why a command would stop the part with a fault. The manual gives every event of the part an
effect, so no meaning answers with one. -/
inductive Fault where
  /-- raised by no meaning; safe -/
  | impossible
deriving DecidableEq, Repr

/-- Why a command would have no meaning. -/
inductive Refusal where
  /-- raised by exec for a command whose meaning has not been written; safe -/
  | notModelled (mnemonic : String)
deriving DecidableEq, Repr

/-! ## Values after a cold start (TABLES 1-7, 2-7, 3-9, 4-7, 5-4, 7-9, 8-5, 9-3, 10-6, R138) -/

/-- 2000-01-01 (R15). -/
def firstDate : Date := ⟨2000, 1, 1⟩

/-- TABLE 1-7 -/
def TimeBase.cold : TimeBase := ⟨firstDate, 0, .unset, 0, false, .rising, 0, none⟩

/-- Levels and fade 0 (LOOK 0, R35). -/
def LookVal.dark : LookVal := ⟨0, 0, 0, 0, 0⟩

/-- An EMPTY show (TABLE 2-2). -/
def ShowRec.blank : ShowRec := ⟨.empty, List.replicate 8 0#8, [], [], 0, none⟩

/-- TABLE 2-7 -/
def Library.cold : Library :=
  ⟨Tab.fill 256 LookVal.dark, Tab.fill 32 ShowRec.blank, [], List.range 128, none⟩

def BankRec.blank : BankRec := ⟨.empty, firstDate, []⟩

/-- TABLE 3-9 -/
def Plans.cold : Plans := ⟨BankRec.blank, BankRec.blank, [], 0⟩

def Counters.zero : Counters := ⟨0, 0, 0, 0⟩

/-- TABLE 4-7 -/
def Player.free : Player where
  state := .free
  ref := none
  copy := none
  length := none
  armSeq := 0
  mark := .none
  epoch := none
  walk := none
  passes := none
  latch := none
  play := none
  hands := []
  looks := Tab.fill 16 none
  holdTick := none
  cause := none
  release := none
  startTick := none
  counters := Counters.zero
  cutFresh := false

/-- TABLE 5-4 -/
def Zone.cold : Zone := ⟨false, [], none, 0, 0, none⟩

/-- TABLE 7-9 -/
def Driver.cold : Driver where
  state := .absent
  credits := 4
  occupied := 0
  slotsFree := none
  flags := none
  silence := none
  latency := none
  refresh := none
  quiet := 0
  backoff := .clear
  poll := 0
  sleepTried := false

/-- TABLE 7-9, R138; the state timer, which the table does not list, is 0 (log entry 31). -/
def Link.cold : Link where
  enabled := false
  power := false
  state := .off
  timer := 0
  transfer := none
  bcast := none
  pending := []
  errors := []
  errorTotal := 0
  scanPos := none
  cal := none
  lastOp := none
  wakeOwed := false
  forceOwed := false
  hunting := false
  drivers := Tab.fill 16 Driver.cold
  stage := []
  gos := []
  tags := Tab.fill 15 none
  deferred := []
  retry := false

/-- TABLE 8-5 -/
def Channel.cold : Channel where
  enabled := false
  source := .ain 0
  mode := .above
  low := 0
  high := 4095
  persist := 1
  record := false
  wake := false
  allStop := false
  value := .unknown
  streak := 0
  sense := none
  count := 0
  trip := none

/-- TABLE 8-5 -/
def Monitor.cold : Monitor where
  channels := Tab.fill 8 Channel.cold
  ain := Tab.fill 4 none
  cin := Tab.fill 4 none
  supplied := Tab.fill 8 none
  timer := 0
  scan := none
  scanDue := false

/-- TABLE 9-3 -/
def Controller.cold : Controller :=
  ⟨.active, false, 0, none, Tab.fill 4 false, Tab.fill 4 false, none⟩

def Notice.clear : Notice := ⟨false, false, 0, none, none⟩

/-- A kind just raised at a tick (R193). -/
def Notice.fresh (tick : Nat) : Notice := ⟨true, false, 0, some tick, some tick⟩

/-- COLD_START alone is pending, with count 0 and raise ticks 0 (TABLE 10-6). -/
def coldNotices : Tab Notice 16 := (Tab.fill 16 Notice.clear).set 0 (Notice.fresh 0)

/-- TABLE 10-6, with the line rate the RATE pin gives (R196). -/
def Port.cold (rateHigh : Bool) : Port :=
  ⟨.hunt, [], none, [], none, 0, 0, 0#16, rateHigh, false⟩

/-- Every block but the Time Base, the library and the port after a cold start. -/
def World.cold : World where
  plans := Plans.cold
  players := Tab.fill 8 Player.free
  zones := Tab.fill 64 Zone.cold
  groups := []
  links := Tab.fill 4 Link.cold
  monitor := Monitor.cold
  ctl := Controller.cold
  notices := coldNotices
  nextRef := 0

/-- R185: every block at its cold-start values, nothing reported, withdrawn or counted. -/
def State.cold (rateHigh : Bool) : State :=
  ⟨TimeBase.cold, Library.cold, World.cold, Port.cold rateHigh, false, false, 0, []⟩

/-- The part right after reset. The RATE pin is taken as low (log entry 7). -/
def State.reset : State := State.cold false

end Sys2Proof.Machine
end

