-- ==== Sys2Proof/Machine/Flags.lean ====
section
/-! DEFINITION. The marks and counts that events leave behind: counts that hold at their greatest
value, the notice records, the level of a stage list, the phase error of a pulse. -/

namespace Sys2Proof.Machine

/-- A count raised by one, held at `top` once it is there. -/
def satUp (top n : Nat) : Nat := if n < top then n + 1 else n

/-- The number of a notice kind (TABLE 10-4). -/
def NoticeKind.no : NoticeKind → Fin 16
  | .coldStart => 0
  | .warmRestart => 1
  | .timeState => 2
  | .timeStepped => 3
  | .dayRoll => 4
  | .planMissing => 5
  | .bookingEnded => 6
  | .bookingNotStarted => 7
  | .playerWait => 8
  | .lateTake => 9
  | .driverFault => 10
  | .linkState => 11
  | .queueFull => 12
  | .conditionChange => 13
  | .operatingState => 14
  | .longOpDone => 15

/-- A raise taken into its kind's record (R193). -/
def Notice.raise (now : Nat) (r : Notice) : Notice :=
  if r.pending then { r with count := satUp 255 r.count, last := some now } else Notice.fresh now

/-- One more late take (R86). -/
def Counters.addLate (c : Counters) : Counters := { c with late := satUp Config.counterMax c.late }

/-- One more discarded take (R86). -/
def Counters.addDiscarded (c : Counters) : Counters :=
  { c with discarded := satUp Config.counterMax c.discarded }

/-- One more preemption suffered (R86). -/
def Counters.addPreempted (c : Counters) : Counters :=
  { c with preempted := satUp Config.counterMax c.preempted }

/-- One more undeliverable take (R86). -/
def Counters.addUndeliverable (c : Counters) : Counters :=
  { c with undeliverable := satUp Config.counterMax c.undeliverable }

/-- The level of a stage list of `n` entries: EMPTY, LOW, HALF, FULL by their codes (R136). -/
def stageLevel (n : Nat) : Nat :=
  if n = 0 then 0 else if n < 24 then 1 else if n < Config.stageCap then 2 else 3

/-- The phase error of a pulse taken at a time of day (R4). -/
def phaseError (tod : Nat) : Int :=
  let m := tod % 100
  if m < 50 then (m : Int) else (m : Int) - 100

/-- Is a phase error within the lock window, 20 or less (R4, R14)? Section 1.4.2 and TABLE 1-5 take −38 for one
that is within it (log entry 39). -/
def inLockWindow (e : Int) : Bool := e.natAbs ≤ 20

end Sys2Proof.Machine
end

