-- ==== Sys2Proof/Machine/Ops.lean ====
section
/-! DEFINITION. The shared operations over the part's records: the calendar and civic ticks (Chapter 1),
zones and their drivers (section 0.6), raising a notice (R193), the output's choice (R191), and reading and
changing one record of a block. -/

namespace Sys2Proof.Machine

/-! ## The calendar (R2) and civic ticks (section 1.1) -/

/-- The days of a month. -/
def monthDays (year month : Nat) : Nat :=
  if month = 2 then (if year % 4 = 0 then 29 else 28)
  else if month = 4 ∨ month = 6 ∨ month = 9 ∨ month = 11 then 30 else 31

/-- A date of the calendar of R2. -/
def Date.valid (d : Date) : Bool :=
  2000 ≤ d.year && d.year ≤ 2099 && 1 ≤ d.month && d.month ≤ 12
    && 1 ≤ d.day && d.day ≤ monthDays d.year d.month

/-- The days of the months of a year before month `m`. -/
def daysBefore (year : Nat) : Nat → Nat
  | 0 => 0
  | 1 => 0
  | m + 1 => daysBefore year m + monthDays year m

/-- Whole days from 2000-01-01 to a date. -/
def Date.number (d : Date) : Nat :=
  (d.year - 2000) * 365 + (d.year - 2000 + 3) / 4 + daysBefore d.year d.month + (d.day - 1)

/-- A civic tick. -/
def civic (d : Date) (tod : Nat) : Nat := d.number * Config.ticksPerDay + tod

/-- The last date of the range. -/
def lastDate : Date := ⟨2099, 12, 31⟩

/-- The next date of the calendar. -/
def Date.next (d : Date) : Date :=
  if d.day < monthDays d.year d.month then { d with day := d.day + 1 }
  else if d.month < 12 then ⟨d.year, d.month + 1, 1⟩
  else ⟨d.year + 1, 1, 1⟩

/-- The civic tick of the part. -/
def TimeBase.civic (t : TimeBase) : Nat := Machine.civic t.date t.tod

/-! ## What a block may ask of the blocks that an event does not change -/

/-- NOW, and the library as it stands. -/
structure Env where
  now : Nat
  lib : Library
deriving DecidableEq, Repr

/-- `f` on each of a list in turn. -/
def World.each {α : Type} (xs : List α) (f : α → World → World) (w : World) : World :=
  xs.foldl (fun w x => f x w) w

/-- A notice kind raised (R193). -/
def World.raise (e : Env) (k : NoticeKind) (w : World) : World :=
  { w with notices := w.notices.upd k.no (Notice.raise e.now) }

/-! ## Players -/

def World.player (w : World) (p : Fin 8) : Player := w.players.get p

def World.onPlayer (p : Fin 8) (f : Player → Player) (w : World) : World :=
  { w with players := w.players.upd p f }

/-- LIVE (TABLE 0-3) -/
def Player.live (p : Player) : Bool :=
  p.state == .waiting || p.state == .running || p.state == .held || p.state == .ending

def World.anyLive (w : World) : Bool := w.players.any Player.live

def World.allFree (w : World) : Bool := !w.players.any (·.state != .free)

/-- Does a player hold a booking of the bank (section 3.1)? -/
def World.refersTo (w : World) (bk : Bank) : Bool :=
  w.players.any fun p => p.state != .free && p.ref.any (·.1 == bk)

/-- An event raises a counter of a player that is not FREE (R86). -/
def World.count (p : Fin 8) (f : Counters → Counters) (w : World) : World :=
  if (w.player p).state = .free then w
  else w.onPlayer p fun c => { c with counters := f c.counters }

/-- A take counted late or discarded, with LATE_TAKE (R135); nobody's take counts nowhere. -/
def World.countTake (e : Env) (p : Option (Fin 8)) (f : Counters → Counters) (w : World) : World :=
  match p with
  | none => w
  | some p => if (w.player p).state = .free then w else (w.count p f).raise e .lateTake

/-! ## Zones, links and drivers (section 0.6) -/

/-- Zone z lies on link z div 16. -/
def zoneLink (z : Fin 64) : Fin 4 := ⟨z.val / 16, by omega⟩

/-- Zone z stands at driver address (z mod 16) + 1. -/
def zoneAddr (z : Fin 64) : Fin 16 := ⟨z.val % 16, by omega⟩

/-- The zone of a link's driver address. -/
def zoneAt (l : Fin 4) (a : Fin 16) : Fin 64 := ⟨l.val * 16 + a.val, by omega⟩

def World.zone (w : World) (z : Fin 64) : Zone := w.zones.get z

def World.onZone (z : Fin 64) (f : Zone → Zone) (w : World) : World :=
  { w with zones := w.zones.upd z f }

def World.link (w : World) (l : Fin 4) : Link := w.links.get l

def World.onLink (l : Fin 4) (f : Link → Link) (w : World) : World :=
  { w with links := w.links.upd l f }

def World.driver (w : World) (l : Fin 4) (a : Fin 16) : Driver := (w.link l).drivers.get a

def World.onDriver (l : Fin 4) (a : Fin 16) (f : Driver → Driver) (w : World) : World :=
  w.onLink l fun k => { k with drivers := k.drivers.upd a f }

/-- The owner: the player of the first claim (R92). -/
def Zone.owner (z : Zone) : Option (Fin 8) := z.claims.head?.map (·.player)

def World.owner (w : World) (z : Fin 64) : Option (Fin 8) := (w.zone z).owner

def Driver.deliverable (d : Driver) : Bool := d.state == .ready || d.state == .busy

/-- LOST is UNRESPONSIVE, ABSENT or ASLEEP (section 5.6). -/
def Driver.lost (d : Driver) : Bool := !d.deliverable

/-- DELIVERABLE (section 5.1) -/
def World.deliverable (w : World) (z : Fin 64) : Bool :=
  (w.zone z).configured && (w.driver (zoneLink z) (zoneAddr z)).deliverable

/-- Is the driver's zone configured? -/
def World.configured (w : World) (l : Fin 4) (a : Fin 16) : Bool := (w.zone (zoneAt l a)).configured

/-- Has any zone of the link a claim (R112)? -/
def World.linkClaimed (w : World) (l : Fin 4) : Bool :=
  (upTo 16).any fun a => !(w.zone (zoneAt l a)).claims.isEmpty

/-! ## Plan Banks -/

def Plans.bank (p : Plans) : Bank → BankRec
  | .a => p.bankA
  | .b => p.bankB

def Bank.other : Bank → Bank
  | .a => .b
  | .b => .a

def Plans.onBank (bk : Bank) (f : BankRec → BankRec) (p : Plans) : Plans :=
  match bk with
  | .a => { p with bankA := f p.bankA }
  | .b => { p with bankB := f p.bankB }

def World.bank (w : World) (bk : Bank) : BankRec := w.plans.bank bk

def World.onBank (bk : Bank) (f : BankRec → BankRec) (w : World) : World :=
  { w with plans := w.plans.onBank bk f }

/-- The bank that is ACTIVE; at most one is (R45). -/
def World.activeBank (w : World) : Option Bank :=
  if w.plans.bankA.state = .active then some .a
  else if w.plans.bankB.state = .active then some .b else none

def BankRec.find (r : BankRec) (id : Nat) : Option BankEntry := r.list.find? (·.booking.id == id)

/-- The booking of that id changed. -/
def BankRec.onEntry (id : Nat) (f : BankEntry → BankEntry) (r : BankRec) : BankRec :=
  { r with list := r.list.map fun k => if k.booking.id = id then f k else k }

def World.onEntry (bk : Bank) (id : Nat) (f : BankEntry → BankEntry) (w : World) : World :=
  w.onBank bk (BankRec.onEntry id f)

/-- Only the outcome of that booking changed. -/
def World.onOutcome (bk : Bank) (id : Nat) (f : Report → Report) (w : World) : World :=
  w.onEntry bk id fun k => { k with outcome := f k.outcome }

/-- The start point of a booking in a bank of that date (R37). -/
def Booking.startPoint (k : Booking) (d : Date) : Nat := civic d k.start

/-- The end point of a booking, when it has one (R37). -/
def Booking.endPoint (k : Booking) (d : Date) : Option Nat :=
  k.endTime.map fun t =>
    if t.nextDay then civic d t.tod + Config.ticksPerDay else civic d t.tod

/-- Is the window end of an ON_CONDITION booking at or before NOW (R37, R53, R66)? -/
def windowOver (k : Booking) (start now : Nat) : Bool :=
  match k.mode with
  | .atTime => false
  | .onCondition _ window => start + window ≤ now

/-! ## The output (R191) -/

/-- The lowest-numbered kind that is pending, subscribed and not marked sent (R191, R193). -/
def nextNotice (mask : BitVec 16) (t : Tab Notice 16) : Option (Fin 16) :=
  (upTo 16).find? fun k => (t.get k).pending && !(t.get k).sent && mask.getLsbD k.val

/-- The notice of a kind, as its record stands when the frame begins (R193). -/
def noticeFrame (t : Tab Notice 16) (k : Fin 16) : OutFrame :=
  .notice k (t.get k).count ((t.get k).first.getD 0) ((t.get k).last.getD 0) true

/-- A FREE output chooses a frame and begins to send it (R191). -/
def Port.choose (t : Tab Notice 16) (p : Port) : Port :=
  match p.out, p.overruns, p.slot with
  | some _, _, _ => p
  | none, x :: rest, _ => { p with overruns := rest, out := some (.overrun x.1 x.2) }
  | none, [], some r => { p with out := some (.reply r) }
  | none, [], none => { p with out := (nextNotice p.mask t).map (noticeFrame t) }

def State.choose (s : State) : State := { s with port := s.port.choose s.world.notices }

end Sys2Proof.Machine
end

