-- ==== Sys2Proof/Machine/Wire.lean ====
section
/-! DEFINITION. The bytes on the host line and the segment links: the check and the stuffing (R187),
the receive side of the host line (R188), the frames the part sends (TABLES 11-1, 11-8), and reading a
driver's reply (R200). -/

namespace Sys2Proof.Machine

/-! ## Check and stuffing (R187) -/

/-- One bit of the CRC with polynomial x^16 + x^12 + x^5 + 1. -/
def crcBit (c : BitVec 16) : BitVec 16 :=
  if c.msb then (c <<< 1) ^^^ 0x1021#16 else c <<< 1

/-- One byte, most significant bit first. -/
def crcByte (c : BitVec 16) (x : Byte) : BitVec 16 :=
  crcBit <| crcBit <| crcBit <| crcBit <| crcBit <| crcBit <| crcBit <| crcBit <|
    c ^^^ (x.setWidth 16 <<< 8)

/-- The check of a run of bytes, from FFFFh. -/
def crc (bytes : List Byte) : BitVec 16 := bytes.foldl crcByte 0xFFFF#16

/-- The check, high byte first. -/
def checkBytes (content : List Byte) : List Byte := bigEndian 2 (crc content).toNat

/-- A byte as it is stuffed. -/
def stuffByte (x : Byte) : List Byte :=
  if x = 0xC3#8 then [0xC4#8, 0xE3#8] else if x = 0xC4#8 then [0xC4#8, 0xE4#8] else [x]

/-- A frame on the wire: C3h, then content and check stuffed. -/
def wireFrame (content : List Byte) : List Byte :=
  0xC3#8 :: (content ++ checkBytes content).flatMap stuffByte

/-! ## Receiving on the host line (R188) -/

/-- What the port makes of one byte. -/
inductive RxEvent where
  | nothing
  | failed
  | whole (kind tag : Nat) (body : List Byte)
deriving DecidableEq, Repr

/-- A frame all of whose bytes have been unstuffed: content and check. -/
def judgeFrame (got : List Byte) : RxEvent :=
  let content := got.take (got.length - 2)
  if got.drop (got.length - 2) = checkBytes content then
    match content with
    | _ :: kind :: tag :: body => .whole kind.toNat tag.toNat body
    | _ => .failed
  else .failed

/-- An unstuffed byte joins the frame: the length byte is judged at once, and the last check byte ends
the frame. -/
def rxPut (got : List Byte) (x : Byte) : Rx × RxEvent :=
  let got := got ++ [x]
  match got with
  | [] => (.hunt, .failed)
  | n :: _ =>
    if 240 < n.toNat then (.hunt, .failed)
    else if got.length = n.toNat + 5 then (.hunt, judgeFrame got)
    else (.frame got false, .nothing)

/-- One byte from the host. -/
def rxByte (r : Rx) (x : RxByte) : Rx × RxEvent :=
  match r with
  | .hunt => if x.stop && x.byte == 0xC3#8 then (.frame [] false, .nothing) else (.hunt, .nothing)
  | .frame got esc =>
    if !x.stop then (.hunt, .failed)
    else if x.byte = 0xC3#8 then (.frame [] false, .failed)
    else if esc then
      if x.byte = 0xE3#8 then rxPut got 0xC3#8
      else if x.byte = 0xE4#8 then rxPut got 0xC4#8
      else (.hunt, .failed)
    else if x.byte = 0xC4#8 then (.frame got true, .nothing)
    else rxPut got x.byte

/-! ## What the part sends on the host line (TABLE 11-1) -/

/-- The number of a result code (TABLE 10-3). -/
def Code.no : Code → Nat
  | .ok => 0
  | .started => 1
  | .badKind => 2
  | .badLength => 3
  | .badField => 4
  | .notFound => 5
  | .noRoom => 6
  | .inUse => 7
  | .wrongState => 8
  | .timeUnset => 9
  | .showsActive => 10
  | .linkBusy => 11
  | .overrun => 12

/-- The unstuffed content of a reply. -/
def Reply.content (r : Reply) : List Byte :=
  [byteOf (1 + r.body.length), byteOf (r.kind + 0x80), byteOf r.tag, byteOf r.code.no] ++ r.body

/-- The unstuffed content of a frame being sent. -/
def OutFrame.content : OutFrame → List Byte
  | .overrun kind tag => Reply.content ⟨kind, tag, .overrun, []⟩
  | .reply r => r.content
  | .notice kind count first last _ =>
    [byteOf 12, 0xF0#8, 0#8, byteOf kind.val, byteOf count] ++ bigEndian 5 first ++ bigEndian 5 last

/-- The bytes of a frame being sent. -/
def OutFrame.wire (f : OutFrame) : List Byte := wireFrame f.content

/-! ## Segment-link frames (TABLE 11-8) -/

def TxFrame.kind : TxFrame → Nat
  | .stage .. => 0x01
  | .take .. => 0x03
  | .drop .. => 0x04
  | .refresh _ => 0x05
  | .poll .. => 0x06
  | .probe _ => 0x07
  | .sleep => 0x08

def TxFrame.tag : TxFrame → Nat
  | .stage _ t _ _ => t
  | .take _ t => t
  | .drop _ t => t
  | _ => 0

/-- The entry a STAGE, TAKE or DROP carries. -/
def TxFrame.ref? : TxFrame → Option Nat
  | .stage r _ _ _ => some r
  | .take r _ => some r
  | .drop r _ => some r
  | _ => none

def levelBytes (v : LookVal) : List Byte :=
  [byteOf v.l0, byteOf v.l1, byteOf v.l2, byteOf v.l3] ++ bigEndian 2 v.fade

def TxFrame.body : TxFrame → List Byte
  | .stage _ _ v h => levelBytes v ++ [byteOf h]
  | .refresh v => levelBytes v
  | .poll flush _ => [byteOf (if flush then 1 else 0)]
  | .probe n => [byteOf n]
  | _ => []

/-- The bytes of the addressed frame in flight. -/
def Transfer.wire (t : Transfer) : List Byte :=
  wireFrame ([byteOf (t.addr.val + 1), byteOf t.frame.kind, byteOf t.frame.tag] ++ t.frame.body)

/-- The bytes of a broadcast. -/
def Broadcast.wire : Broadcast → List Byte
  | .go t => wireFrame [0#8, 0x02#8, byteOf (t.val + 1)]
  | .wake => wireFrame [0#8, 0x09#8, 0#8]
  | .force => wireFrame [0#8, 0x0A#8, 0#8]

/-! ## Driver replies (TABLE 7-6, R200) -/

inductive ReplyKind where
  | ack | retry | nak | echo
deriving DecidableEq, Repr

/-- A driver's reply taken as a frame. `addr` counts from 0 as everywhere in the model. -/
structure DriverReply where
  kind : ReplyKind
  addr : Fin 16
  tag : Nat
  exchange : Nat
  slotsFree : Nat
  flags : Nat
  silence : Nat
  latency : Nat
deriving DecidableEq, Repr

/-- The bytes with the stuffing undone; none where it is broken. -/
def unstuff : List Byte → Option (List Byte)
  | [] => some []
  | [x] => if x = 0xC3#8 ∨ x = 0xC4#8 then none else some [x]
  | x :: y :: rest =>
    if x = 0xC3#8 then none
    else if x = 0xC4#8 then
      if y = 0xE3#8 then (unstuff rest).map (0xC3#8 :: ·)
      else if y = 0xE4#8 then (unstuff rest).map (0xC4#8 :: ·)
      else none
    else (unstuff (y :: rest)).map (x :: ·)

/-- The unstuffed bytes of a reply of a kind, from its address to its check (TABLE 11-8, R200). -/
def replySize (poll : Bool) (kind : Byte) : Option Nat :=
  if kind = 0x81#8 then some (if poll then 11 else 7)
  else if kind = 0x82#8 ∨ kind = 0x83#8 then some 7
  else if kind = 0x84#8 then some 10 else none

/-- The bytes after a start byte cut where the frame ends, and what follows: at the length its kind gives,
before a C3h, or where the stuffing or the kind is broken (R200). `got` bytes have been unstuffed, of
`size`. -/
def cutReply (poll : Bool) (got size : Nat) : List Byte → List Byte × List Byte
  | [] => ([], [])
  | x :: rest =>
    if got = size ∨ x = 0xC3#8 then ([], x :: rest)
    else if x = 0xC4#8 then
      match rest with
      | [] => ([x], [])
      | y :: rest =>
        if y = 0xE3#8 ∨ y = 0xE4#8 then
          if got = 1 then ([x, y], rest)
          else
            let cut := cutReply poll (got + 1) size rest
            (x :: y :: cut.1, cut.2)
        else ([x], y :: rest)
    else
      match if got = 1 then replySize poll x else some size with
      | none => ([x], rest)
      | some size =>
        let cut := cutReply poll (got + 1) size rest
        (x :: cut.1, cut.2)

/-- Address byte, kind, tag and body of a reply, by the lengths of TABLE 11-8. -/
def replyFields (poll : Bool) : List Nat → Option (Nat × DriverReply)
  | [a, 0x81, t, s, f] => if poll then none else some (a, ⟨.ack, 0, t, 0, s, f, 0, 0⟩)
  | [a, 0x81, t, s, f, i1, i0, l1, l0] =>
    if poll then some (a, ⟨.ack, 0, t, 0, s, f, be2 i1 i0, be2 l1 l0⟩) else none
  | [a, 0x82, t, s, f] => some (a, ⟨.retry, 0, t, 0, s, f, 0, 0⟩)
  | [a, 0x83, t, s, f] => some (a, ⟨.nak, 0, t, 0, s, f, 0, 0⟩)
  | [a, 0x84, t, x, s, f, l1, l0] => some (a, ⟨.echo, 0, t, x, s, f, 0, be2 l1 l0⟩)
  | _ => none

/-- A run of bytes from the wire as a reply frame; none where it does not form one (R200). -/
def parseReply (poll : Bool) (bytes : List Byte) : Option DriverReply :=
  match bytes with
  | [] => none
  | x :: rest =>
    if x ≠ 0xC3#8 then none else
    (unstuff rest).bind fun got =>
      let content := got.take (got.length - 2)
      if got.drop (got.length - 2) ≠ checkBytes content then none else
      (replyFields poll (content.map (·.toNat))).bind fun (a, r) =>
        if a = 0 then none else (index? 16 (a - 1)).map fun i => { r with addr := i }

/-- The bytes of a reply, as a driver sends them. -/
def DriverReply.wire (poll : Bool) (r : DriverReply) : List Byte :=
  let head (k : Nat) := [byteOf (r.addr.val + 1), byteOf k, byteOf r.tag]
  let state := [byteOf r.slotsFree, byteOf r.flags]
  wireFrame <| match r.kind with
    | .ack =>
      head 0x81 ++ state ++ if poll then bigEndian 2 r.silence ++ bigEndian 2 r.latency else []
    | .retry => head 0x82 ++ state
    | .nak => head 0x83 ++ state
    | .echo => head 0x84 ++ byteOf r.exchange :: state ++ bigEndian 2 r.latency

end Sys2Proof.Machine
end

