-- ==== Sys2Proof/Machine/Operands.lean ====
section
/-! DEFINITION. The fields of host frames (Chapter 11): the encodings of R198 for replies, the codes of
TABLE 11-2, and the range checks that turn a request's fields into records, answering the body offset
of the first field that fails (log entry 17). -/

namespace Sys2Proof.Machine

/-! ## Answers -/

/-- What a block returns for a request: a result code and a reply body. -/
structure Answer where
  code : Code
  body : List Byte
deriving DecidableEq, Repr

/-- OK with a body. -/
def Answer.ok (body : List Byte) : Answer := ⟨.ok, body⟩

/-- A refusal other than BAD_FIELD, with its empty body (R198). -/
def Answer.no (c : Code) : Answer := ⟨c, []⟩

/-- A number of `k` bytes, FFh in every byte when absent (R198). -/
def optBytes (k : Nat) : Option Nat → List Byte
  | some n => bigEndian k n
  | none => List.replicate k 0xFF#8

/-- The reasons of a BAD_FIELD reply that a validation gives (R198). -/
inductive Reason where
  | sectionOrder | sectionPasses | emptySection | cueOrder | partTwice | noMain
  | showNotClosed | conditionOff | zoneUnconfigured | noEnd
deriving DecidableEq, Repr

def Reason.no : Reason → Nat
  | .sectionOrder => 1
  | .sectionPasses => 2
  | .emptySection => 3
  | .cueOrder => 4
  | .partTwice => 5
  | .noMain => 6
  | .showNotClosed => 7
  | .conditionOff => 8
  | .zoneUnconfigured => 9
  | .noEnd => 10

/-- BAD_FIELD for the field at a body offset, with index a when the rule gives one. -/
def Answer.badField (offset : Nat) (a : Option Nat := none) : Answer :=
  ⟨.badField, [byteOf offset, 0#8] ++ optBytes 2 a ++ optBytes 2 none⟩

/-- BAD_FIELD for a failed validation: no one field fails, and the reason and indexes are given. -/
def Answer.invalid (r : Reason) (a i : Option Nat) : Answer :=
  ⟨.badField, [0xFF#8, byteOf r.no] ++ optBytes 2 a ++ optBytes 2 i⟩

/-! ## Codes (TABLE 11-2, R198) -/

def flagByte (f : Bool) : Byte := if f then 1#8 else 0#8

def TimeState.code : TimeState → Byte
  | .unset => 0
  | .free => 1
  | .locked => 2
  | .holdover => 3

def ShowState.code : ShowState → Byte
  | .empty => 0
  | .building => 1
  | .closed => 2

def SectionKind.code : SectionKind → Byte
  | .preroll => 0
  | .main => 1
  | .coda => 2

def BankState.code : BankState → Byte
  | .empty => 0
  | .loading => 1
  | .ready => 2
  | .active => 3
  | .lapsed => 4
  | .spent => 5

def StartMode.code : StartMode → Byte
  | .atTime => 0
  | .onCondition .. => 1

def LatePolicy.code : LatePolicy → Byte
  | .skip => 0
  | .join => 1
  | .restart => 2

def LateMark.code : LateMark → Byte
  | .none => 0
  | .join => 1
  | .restart => 2

def Progress.code : Progress → Byte
  | .pending => 0
  | .waitlisted => 1
  | .armed => 2
  | .waiting => 3
  | .running => 4
  | .held => 5
  | .ending => 6
  | .completed => 7
  | .endedAtTime => 8
  | .stopped => 9
  | .allStopped => 10
  | .cancelled => 11
  | .notStarted => 12
  | .skippedLate => 13
  | .aborted => 14

def PlayerState.code : PlayerState → Byte
  | .free => 0
  | .armed => 1
  | .waiting => 2
  | .running => 3
  | .held => 4
  | .ending => 5

def EndCause.code : EndCause → Byte
  | .completed => 0
  | .endedAtTime => 1
  | .stopped => 2
  | .cancelled => 3

def DriverState.code : DriverState → Byte
  | .absent => 0
  | .ready => 1
  | .busy => 2
  | .unresponsive => 3
  | .asleep => 4

def LinkState.code : LinkState → Byte
  | .off => 0
  | .warming => 1
  | .scanning => 2
  | .up => 3
  | .calibrating => 4
  | .quiescing => 5
  | .asleep => 6
  | .faulted => 7

def EntryState.code : EntryState → Byte
  | .queued => 0
  | .sent => 1
  | .staged => 2
  | .late => 3
  | .lateSent => 4
  | .lateStaged => 5
  | .dropping .. => 6

def GoState.code : GoState → Byte
  | .pending => 1
  | .sent => 2
  | .removed => 3

def Source.code : Source → Byte
  | .ain i => byteOf i.val
  | .cin i => byteOf (4 + i.val)
  | .supplied => 8

def WindowMode.code : WindowMode → Byte
  | .above => 0
  | .below => 1
  | .inside => 2
  | .outside => 3

def Verdict.code : Verdict → Byte
  | .unknown => 0
  | .no => 1
  | .yes => 2

def OpState.code : OpState → Byte
  | .active => 0
  | .dark => 1
  | .parked => 2

def OpResult.code : OpResult → Byte
  | .complete => 0
  | .aborted => 1
  | .abandoned => 2

def TakeKind.code : TakeKind → Byte
  | .catchUp => 0
  | .fallback => 1

def Bank.code : Bank → Byte
  | .a => 0
  | .b => 1

/-- A player or NONE. -/
def playerByte : Option (Fin 8) → Byte
  | some p => byteOf p.val
  | none => 0xFF

/-! ## Records in replies -/

def Date.bytes (d : Date) : List Byte := dateBytes d.year d.month d.day

/-- A look, 7 bytes (TABLE 11-4). -/
def LookCopy.bytes (l : LookCopy) : List Byte := byteOf l.num.val :: levelBytes l.val

/-- A look held in a record: a presence byte and the look (R198). -/
def heldLookBytes : Option LookCopy → List Byte
  | some l => 1#8 :: l.bytes
  | none => List.replicate 8 0#8

def SectionRec.bytes (s : SectionRec) : List Byte :=
  s.kind.code :: bigEndian 2 s.length ++ byteOf s.passes :: bigEndian 2 s.first ++ bigEndian 2 s.count

def Cue.bytes (c : Cue) : List Byte :=
  bigEndian 2 c.offset ++ [byteOf c.part.val, byteOf c.look.val]

/-- A finite length in 4 bytes, 0 for ENDLESS, FFh in every byte when absent. -/
def lengthBytes : Option ShowLength → List Byte
  | some (.ticks n) => bigEndian 4 n
  | some .endless => bigEndian 4 0
  | none => optBytes 4 none

/-- A counted list (R198). -/
def listBytes {α : Type} (f : α → List Byte) (xs : List α) : List Byte :=
  byteOf xs.length :: xs.flatMap f

def PartEntry.bytes (p : PartEntry) : List Byte :=
  byteOf p.part.val :: listBytes (fun z => [byteOf z.val]) p.zones

/-- A booking of TABLE 11-5; the next-day flag beside an absent end time is 0 (log entry 17). -/
def Booking.bytes (k : Booking) : List Byte :=
  let cond := match k.mode with
    | .atTime => 0xFF#8 :: optBytes 3 none
    | .onCondition c w => byteOf c.val :: bigEndian 3 w
  let stop := match k.endTime with
    | none => optBytes 3 none ++ [0#8]
    | some t => bigEndian 3 t.tod ++ [flagByte t.nextDay]
  [byteOf k.id, byteOf (k.showNo.val + 1)] ++ bigEndian 3 k.start ++ k.mode.code :: cond ++ stop
    ++ optBytes 1 (k.stopCond.map (·.val)) ++ [byteOf k.cls, byteOf k.sub, k.policy.code]
    ++ listBytes PartEntry.bytes k.zmap

def Counters.bytes (c : Counters) : List Byte :=
  bigEndian 2 c.late ++ bigEndian 2 c.discarded ++ bigEndian 2 c.preempted
    ++ bigEndian 2 c.undeliverable

/-- The OUTCOME record, 20 bytes (section 11.3). -/
def Report.bytes (r : Report) : List Byte :=
  [r.progress.code, flagByte r.abrupt] ++ optBytes 5 r.startTick ++ optBytes 5 r.endTick
    ++ r.counters.bytes

def GroupId.bytes (g : GroupId) : List Byte :=
  byteOf g.sec :: bigEndian 2 g.pass ++ bigEndian 2 g.cue

/-! ## Request fields -/

def bank? : Nat → Option Bank
  | 0 => some .a
  | 1 => some .b
  | _ => none

def flag? : Nat → Option Bool
  | 0 => some false
  | 1 => some true
  | _ => none

/-- A show number 1-32 as its place. -/
def show? (n : Nat) : Option (Fin 32) := if n = 0 then none else index? 32 (n - 1)

def kind? : Nat → Option SectionKind
  | 0 => some .preroll
  | 1 => some .main
  | 2 => some .coda
  | _ => none

def policy? : Nat → Option LatePolicy
  | 0 => some .skip
  | 1 => some .join
  | 2 => some .restart
  | _ => none

def mode? : Nat → Option WindowMode
  | 0 => some .above
  | 1 => some .below
  | 2 => some .inside
  | 3 => some .outside
  | _ => none

def source? (n : Nat) : Option Source :=
  if n < 4 then (index? 4 n).map .ain
  else if n < 8 then (index? 4 (n - 4)).map .cin
  else if n = 8 then some .supplied else none

def opState? : Nat → Option OpState
  | 0 => some .active
  | 1 => some .dark
  | 2 => some .parked
  | _ => none

/-- The mark of an absent tick of day. -/
abbrev noTime : Nat := 0xFFFFFF

/-- A field's value, or the offset of the field that failed. -/
def field {α : Type} (offset : Nat) : Option α → Except Nat α
  | some a => .ok a
  | none => .error offset

/-- A test that a field passes, or the offset of the field that failed. -/
def demand (ok : Bool) (offset : Nat) : Except Nat Unit := if ok then .ok () else .error offset

/-- An optional channel, FFh absent. -/
def channel? (n : Nat) : Option (Option (Fin 8)) :=
  if n = 0xFF then some none else (index? 8 n).map some

/-- The start mode with its condition and window, at the offsets of ADD_BOOKING (TABLE 11-5). -/
def startMode? (k : BookingField) : Except Nat StartMode :=
  match k.mode with
  | 0 => do
    demand (k.startCond == 0xFF) 7
    demand (k.window == noTime) 8
    pure .atTime
  | 1 => do
    let c ← field 7 (index? 8 k.startCond)
    demand (1 ≤ k.window && k.window ≤ 360000) 8
    pure (.onCondition c k.window)
  | _ => .error 6

/-- An end time with its next-day flag, for a start time (R37, R41 test 2, R55); the end time stands
at `off` of the body and the flag at `off` + 3. The flag of an absent end time is not kept (log entry 17). -/
def endTime? (off tod nextDay start : Nat) : Except Nat (Option EndTime) :=
  if tod = noTime then do
    let _ ← field (off + 3) (flag? nextDay)
    pure none
  else do
    demand (tod < Config.ticksPerDay) off
    let next ← field (off + 3) (flag? nextDay)
    demand (!next || tod ≤ 2160000) off
    demand (start < tod + (if next then Config.ticksPerDay else 0)) off
    pure (some ⟨tod, next⟩)

/-- The zones of a part entry, none of them seen before. -/
def zones? (off : Nat) (seen : List (Fin 64)) : List Nat → Except Nat (List (Fin 64))
  | [] => .ok []
  | z :: rest => do
    let z ← field off (index? 64 z)
    demand (!seen.contains z) off
    let zs ← zones? (off + 1) (z :: seen) rest
    pure (z :: zs)

/-- A zone map from the body offset of its first part entry. -/
def zmap? (off : Nat) (parts : List (Fin 16)) (seen : List (Fin 64)) :
    List PartField → Except Nat (List PartEntry)
  | [] => .ok []
  | p :: rest => do
    let part ← field off (index? 16 p.part)
    demand (!parts.contains part) off
    demand (1 ≤ p.zones.length && p.zones.length ≤ 64) (off + 1)
    let zs ← zones? (off + 2) seen p.zones
    let more ← zmap? (off + 2 + p.zones.length) (part :: parts) (zs ++ seen) rest
    pure (⟨part, zs⟩ :: more)

/-- Test 2 of R41: the booking, or the body offset of the first failing field of ADD_BOOKING. -/
def booking? (k : BookingField) : Except Nat Booking := do
  demand (1 ≤ k.id) 1
  let showNo ← field 2 (show? k.showNo)
  demand (k.start < Config.ticksPerDay) 3
  let mode ← startMode? k
  let stop ← endTime? 11 k.endTime k.nextDay k.start
  let stopCond ← field 15 (channel? k.stopCond)
  demand (k.cls ≤ 7) 16
  demand (k.sub ≤ 3) 17
  let policy ← field 18 (policy? k.policy)
  demand (1 ≤ k.zmap.length && k.zmap.length ≤ 16) 19
  let zmap ← zmap? 20 [] [] k.zmap
  pure ⟨k.id, showNo, k.start, mode, stop, stopCond, k.cls, k.sub, policy, zmap⟩

/-- The settings of PUT_CONDITION on a channel, or the body offset of the first failing field (R170);
value, streak and sense as after an accepted request. -/
def settings? (c : ConditionField) (old : Channel) : Except Nat Channel := do
  let enabled ← field 1 (flag? c.enabled)
  let source ← field 2 (source? c.source)
  let mode ← field 3 (mode? c.mode)
  demand (c.low ≤ 4095 && (c.low ≤ c.high || 4095 < c.high)) 4
  demand (c.high ≤ 4095) 6
  demand (1 ≤ c.persist && c.persist ≤ 15) 8
  let record ← field 9 (flag? c.record)
  demand (c.attrs ≤ 3) 10
  pure { enabled := enabled, source := source, mode := mode, low := c.low, high := c.high
         persist := c.persist, record := record, wake := c.attrs % 2 == 1, allStop := 2 ≤ c.attrs
         value := .unknown, streak := 0, sense := none, count := old.count
         trip := if record then old.trip else none }

end Sys2Proof.Machine
end

