-- ==== Sys2Proof/Machine/Library.lean ====
section
/-! DEFINITION. The Show Library (Chapter 2): looks, the cue pool, building, validating and dropping a
show, and the timeline reads. Each operation of a request answers the library after it and the answer. -/

namespace Sys2Proof.Machine

/-! ## The cue pool (R20) -/

/-- Slot numbers strictly rising from `lo` and below 8,192. -/
def poolWf : Nat → List (Nat × Cue) → Bool
  | _, [] => true
  | lo, (s, _) :: rest => lo ≤ s && s < 8192 && poolWf (s + 1) rest

/-- A slot written. -/
def poolPut (s : Nat) (c : Cue) : List (Nat × Cue) → List (Nat × Cue)
  | [] => [(s, c)]
  | (t, d) :: rest =>
    if s < t then (s, c) :: (t, d) :: rest
    else if s = t then (s, c) :: rest
    else (t, d) :: poolPut s c rest

/-- What a slot holds. -/
def poolGet (s : Nat) : List (Nat × Cue) → Option Cue
  | [] => none
  | (t, d) :: rest => if s = t then some d else poolGet s rest

/-- The slots of some blocks made unwritten. -/
def poolErase (blocks : List Nat) (pool : List (Nat × Cue)) : List (Nat × Cue) :=
  pool.filter fun e => !blocks.contains (e.1 / 64)

/-- The slot of the cue of show-wide index `i`. -/
def slotOf (blocks : List Nat) (i : Nat) : Option Nat := blocks[i / 64]?.map (· * 64 + i % 64)

/-- The cue of show-wide index `i`. -/
def Library.cueAt (lib : Library) (s : ShowRec) (i : Nat) : Option Cue :=
  (slotOf s.blocks i).bind fun t => poolGet t lib.pool

/-- Up to `n` cues from index `i` onward. -/
def Library.cuesFrom (lib : Library) (s : ShowRec) : Nat → Nat → List Cue
  | 0, _ => []
  | n + 1, i =>
    match lib.cueAt s i with
    | none => []
    | some c => c :: lib.cuesFrom s n (i + 1)

def Library.showRec (lib : Library) (n : Fin 32) : ShowRec := lib.shows.get n

def Library.onShow (n : Fin 32) (f : ShowRec → ShowRec) (lib : Library) : Library :=
  { lib with shows := lib.shows.upd n f }

/-! ## The timeline (R30) -/

/-- Cues from index `i`, `n` at most, while they share the offset `off`. -/
def Library.runOf (lib : Library) (s : ShowRec) (off : Nat) : Nat → Nat → List Cue
  | 0, _ => []
  | n + 1, i =>
    match lib.cueAt s i with
    | none => []
    | some c => if c.offset = off then c :: lib.runOf s off n (i + 1) else []

/-- A group read: the take group that begins at index `i` of a section. -/
def Library.group (lib : Library) (s : ShowRec) (sec : SectionRec) (i : Nat) : List Cue :=
  match lib.cueAt s i with
  | none => []
  | some c => lib.runOf s c.offset (sec.first + sec.count - i) i

/-- The offset of the group that begins at index `i`. -/
def Library.offsetAt (lib : Library) (s : ShowRec) (i : Nat) : Nat :=
  ((lib.cueAt s i).map (·.offset)).getD 0

/-- The copy of a look (R19). -/
def Library.copyLook (lib : Library) (n : Fin 256) : LookCopy := ⟨n, lib.looks.get n⟩

/-! ## Looks (R17, R18) -/

def Library.putLook (lib : Library) (n : Nat) (v : LookVal) : Library × Answer :=
  match index? 256 n with
  | none => (lib, .badField 0)
  | some i =>
    if n = 0 then (lib, .badField 0)
    else if 3000 < v.fade then (lib, .badField 5)
    else ({ lib with looks := lib.looks.set i v }, .ok [])

def Library.getLook (lib : Library) (n : Nat) : Answer :=
  match index? 256 n with
  | none => .badField 0
  | some i => .ok (lib.copyLook i).bytes

/-! ## Building a show (R21 to R25) -/

/-- The first test of every show request (section 2.4). -/
def Library.forShow (lib : Library) (n : Nat) (k : Fin 32 → ShowRec → Library × Answer) :
    Library × Answer :=
  match show? n with
  | none => (lib, .badField 0)
  | some i => k i (lib.showRec i)

/-- R21 -/
def Library.openShowAs (lib : Library) (n : Nat) (name : List Byte) : Library × Answer :=
  lib.forShow n fun i s =>
    if s.state ≠ .empty then (lib, .no .wrongState)
    else if lib.openShow.any (· != i) then (lib, .no .inUse)
    else
      ({ lib.onShow i fun _ => { ShowRec.blank with state := .building, name := name } with
          openShow := some i }, .ok [])

/-- R22, R23 -/
def Library.addSection (lib : Library) (n kind length passes : Nat) : Library × Answer :=
  lib.forShow n fun i s =>
    if s.state ≠ .building then (lib, .no .wrongState)
    else match kind? kind with
      | none => (lib, .badField 1)
      | some k =>
        if length = 0 then (lib, .badField 2)
        else if 16 ≤ s.parts.length then (lib, .no .noRoom)
        else
          (lib.onShow i fun s => { s with parts := s.parts ++ [⟨k, length, passes, s.cues, 0⟩] },
            .ok [byteOf s.parts.length])

/-- Test 4 of R24: the cues of a batch within a last section of that length, or the position and the
body offset of the first that fails. -/
def batch? (length : Nat) : Nat → List CueField → Except (Nat × Nat) (List Cue)
  | _, [] => .ok []
  | pos, c :: rest =>
    if length ≤ c.offset then .error (pos, 2 + 4 * pos)
    else match index? 16 c.part, index? 256 c.look with
      | some p, some l =>
        match batch? length (pos + 1) rest with
        | .ok cs => .ok (⟨c.offset, p, l⟩ :: cs)
        | .error e => .error e
      | none, _ => .error (pos, 2 + 4 * pos + 2)
      | _, none => .error (pos, 2 + 4 * pos + 3)

/-- The pool with a batch written at show-wide indexes from `i` onward (R25). -/
def writeCues (blocks : List Nat) : Nat → List Cue → List (Nat × Cue) → List (Nat × Cue)
  | _, [], pool => pool
  | i, c :: rest, pool =>
    writeCues blocks (i + 1) rest
      (match slotOf blocks i with
       | none => pool
       | some s => poolPut s c pool)

/-- The last section's cue count raised (R25). -/
def growLast (n : Nat) : List SectionRec → List SectionRec
  | [] => []
  | [s] => [{ s with count := s.count + n }]
  | s :: rest => s :: growLast n rest

/-- R24, R25 -/
def Library.addCues (lib : Library) (n : Nat) (cues : List CueField) : Library × Answer :=
  lib.forShow n fun i s =>
    if s.state ≠ .building then (lib, .no .wrongState)
    else match s.parts.getLast? with
      | none => (lib, .no .wrongState)
      | some last =>
        if cues.length = 0 ∨ 16 < cues.length then (lib, .badField 1)
        else match batch? last.length 0 cues with
          | .error (pos, off) => (lib, .badField off (some pos))
          | .ok batch =>
            let total := s.cues + batch.length
            let need := (total + 63) / 64 - s.blocks.length
            if 1024 < total then (lib, .no .noRoom)
            else if lib.free.length < need then (lib, .no .noRoom)
            else
              let blocks := s.blocks ++ lib.free.take need
              let lib' := lib.onShow i fun s =>
                { s with blocks := blocks, cues := total, parts := growLast batch.length s.parts }
              ({ lib' with
                  free := lib.free.drop need
                  pool := writeCues blocks s.cues batch lib.pool },
                .ok (bigEndian 2 total ++ bigEndian 2 s.cues ++ [byteOf (lib.free.length - need)]))

/-! ## Closing a show (R26, R27, R32) -/

/-- The index of the first cue whose offset is less than that of the cue before it. -/
def orderFault : Nat → List Cue → Option Nat
  | i, a :: b :: rest => if b.offset < a.offset then some (i + 1) else orderFault (i + 1) (b :: rest)
  | _, _ => none

/-- The index of the first cue with the offset and the part of an earlier one. -/
def twiceFault (seen : List (Nat × Fin 16)) : Nat → List Cue → Option Nat
  | _, [] => none
  | i, c :: rest =>
    if seen.contains (c.offset, c.part) then some i
    else twiceFault ((c.offset, c.part) :: seen) (i + 1) rest

/-- A validation's failure: the reason, the failing section and the failing cue. -/
abbrev ShowFault := Reason × Option Nat × Option Nat

/-- The tests of section `k` of `n`, in the order of R26's table (log entry 16). -/
def sectionFault (lib : Library) (s : ShowRec) (n k : Nat) (sec : SectionRec) : Option ShowFault :=
  let cues := lib.cuesFrom s sec.count sec.first
  if (sec.kind = .preroll ∧ k ≠ 0) ∨ (sec.kind = .coda ∧ k + 1 ≠ n) then
    some (.sectionOrder, some k, none)
  else if (sec.kind = .preroll ∧ sec.passes ≠ 0) ∨ (sec.kind = .coda ∧ sec.passes ≠ 1) then
    some (.sectionPasses, some k, none)
  else if sec.count = 0 then some (.emptySection, some k, none)
  else match orderFault sec.first cues with
    | some i => some (.cueOrder, some k, some i)
    | none =>
      match twiceFault [] sec.first cues with
      | some i => some (.partTwice, some k, some i)
      | none => none

/-- The sections from the `k`-th onward, in index order. -/
def sectionsFault (lib : Library) (s : ShowRec) (n : Nat) : Nat → List SectionRec → Option ShowFault
  | _, [] => none
  | k, sec :: rest =>
    match sectionFault lib s n k sec with
    | some f => some f
    | none => sectionsFault lib s n (k + 1) rest

/-- The whole validation. -/
def showFault (lib : Library) (s : ShowRec) : Option ShowFault :=
  match sectionsFault lib s s.parts.length 0 s.parts with
  | some f => some f
  | none => if s.parts.any (·.kind == .main) then none else some (.noMain, none, none)

/-- The finite length of a show (R32). -/
def finiteLength (parts : List SectionRec) : ShowLength :=
  if parts.any fun s => s.kind == .main && s.passes == 0 then .endless
  else .ticks <| (parts.map fun s =>
    match s.kind with
    | .preroll => 0
    | .main => s.passes * s.length
    | .coda => s.length).sum

/-- R26, R27 -/
def Library.closeShow (lib : Library) (n : Nat) : Library × Answer :=
  lib.forShow n fun i s =>
    if s.state ≠ .building then (lib, .no .wrongState)
    else match showFault lib s with
      | some (r, a, c) => (lib, .invalid r a c)
      | none =>
        let len := finiteLength s.parts
        ({ lib.onShow i fun s => { s with state := .closed, length := some len } with
            openShow := none }, .ok (bigEndian 2 s.cues ++ lengthBytes (some len)))

/-! ## Dropping a show (R29, R36) -/

/-- The show EMPTY, its blocks at the tail of the free-block list. -/
def Library.clearShow (lib : Library) (i : Fin 32) : Library :=
  let s := lib.showRec i
  { lib.onShow i fun _ => ShowRec.blank with
    free := lib.free ++ s.blocks
    pool := poolErase s.blocks lib.pool
    openShow := if lib.openShow = some i ∨ s.state = .building then none else lib.openShow }

/-- R28, R29, with whether a bank or a player refers to the show. -/
def Library.dropShow (lib : Library) (n : Nat) (inUse : Fin 32 → Bool) : Library × Answer :=
  lib.forShow n fun i s =>
    if s.state = .empty then (lib, .no .notFound)
    else if inUse i then (lib, .no .inUse)
    else
      let lib' := lib.clearShow i
      (lib', .ok [byteOf lib'.free.length])

/-- Does a bank's booking or a player's copy refer to the show (R28)? -/
def World.usesShow (w : World) (i : Fin 32) : Bool :=
  [w.plans.bankA, w.plans.bankB].any (fun r =>
      (r.state == .loading || r.state == .ready || r.state == .active || r.state == .lapsed)
        && r.list.any (·.booking.showNo == i))
    || w.players.any fun p => p.state != .free && p.copy.any (·.booking.showNo == i)

/-! ## Reading the library (R33, R34) -/

def Library.getShow (lib : Library) (n first : Nat) : Answer :=
  match show? n with
  | none => .badField 0
  | some i =>
    if 1023 < first then .badField 1
    else
      let s := lib.showRec i
      .ok (s.state.code :: s.name ++ listBytes SectionRec.bytes s.parts
        ++ listBytes (fun x => [byteOf x]) s.blocks ++ bigEndian 2 s.cues ++ lengthBytes s.length
        ++ listBytes Cue.bytes (lib.cuesFrom s (min 16 (s.cues - first)) first))

def Library.getPool (lib : Library) : Answer :=
  .ok (listBytes (fun x => [byteOf x]) lib.free ++ optBytes 1 (lib.openShow.map (·.val + 1)))

/-- R36 -/
def Library.warm (lib : Library) : Library :=
  match lib.openShow with
  | none => lib
  | some i => lib.clearShow i

end Sys2Proof.Machine
end

