-- ==== Sys2Proof/Machine/Dispatcher.lean ====
section
/-! DEFINITION. The Take Dispatcher (Chapter 6): stage entries, GO entries and tags, expansion,
withdrawal, expiry, rejoin, and what it does on each report of a link. Each operation that a rule
takes as one event ends with `World.tidy`, which removes the GOs, frees the tags and retries the
deferred items that its effects call for (R119, R130, R134). -/

namespace Sys2Proof.Machine

/-! ## List orders (R115) -/

/-- `x` put into a list before the first element it stands strictly before. -/
def insertBy {α : Type} (before : α → α → Bool) (x : α) : List α → List α
  | [] => [x]
  | y :: rest => if before x y then x :: y :: rest else y :: insertBy before x rest

def Entry.before (x y : Entry) : Bool := x.due < y.due || (x.due == y.due && x.addr < y.addr)

def GoEntry.before (x y : GoEntry) : Bool := x.send < y.send || (x.send == y.send && x.due < y.due)

def Item.due : Item → Nat
  | .group _ _ d _ => d
  | .single _ _ _ _ d => d

def Item.before (x y : Item) : Bool := x.due < y.due

/-! ## Entries -/

/-- The number of the tag at a place of the tag table. -/
abbrev tagNo (t : Fin 15) : Nat := t.val + 1

/-- How an entry ends (section 6.1). -/
inductive EntryEnd where
  | taken | discarded | withdrawn
deriving DecidableEq, Repr

def DropEnd.toEnd : DropEnd → EntryEnd
  | .withdrawn => .withdrawn
  | .discarded => .discarded

def World.onEntryOf (l : Fin 4) (ref : Nat) (f : Entry → Entry) (w : World) : World :=
  w.onLink l fun k => { k with stage := k.stage.map fun x => if x.ref = ref then f x else x }

def World.entryOf (w : World) (l : Fin 4) (ref : Nat) : Option Entry :=
  (w.link l).stage.find? (·.ref == ref)

def World.setEntry (l : Fin 4) (ref : Nat) (s : EntryState) (w : World) : World :=
  w.onEntryOf l ref fun x => { x with state := s }

/-- The arbiter takes the report of an end (R102). -/
def World.report (z : Fin 64) (ref : Nat) (fin : EntryEnd) (look : LookCopy) (w : World) : World :=
  w.onZone z fun r =>
    { r with
      committed := if fin = .taken then some look else r.committed
      take := if r.take.any (·.1 == ref) then none else r.take }

/-- The frame that carries an entry is stopped while its sending has not been reported (log entry 6). -/
def Link.stopFrame (ref : Nat) (k : Link) : Link :=
  { k with
    pending := k.pending.filter (·.ref != ref)
    transfer := k.transfer.filter fun t => t.reported || t.frame.ref? != some ref }

/-- A broadcast of a GO stopped part-way (log entry 6). -/
def Link.stopGo (t : Fin 15) (k : Link) : Link :=
  { k with bcast := if k.bcast = some (.go t) then none else k.bcast }

/-- An entry ends: it leaves the list and the arbiter is told. -/
def World.endEntry (l : Fin 4) (x : Entry) (fin : EntryEnd) (w : World) : World :=
  (w.onLink l fun k =>
      { k.stopFrame x.ref with stage := k.stage.filter (·.ref != x.ref), retry := true }).report
    (zoneAt l x.addr) x.ref fin x.look

/-- An entry joins the stage list in its place; QUEUE_FULL at the 48th (R136). -/
def World.addEntry (e : Env) (l : Fin 4) (x : Entry) (w : World) : World :=
  let w := w.onLink l fun k => { k with stage := insertBy Entry.before x k.stage }
  if (w.link l).stage.length = Config.stageCap then w.raise e .queueFull else w

/-- A new reference. -/
def World.withRef (w : World) (k : Nat → World → World) : World :=
  k w.nextRef { w with nextRef := w.nextRef + 1 }

/-- An entry goes DROPPING: its TAKE is withdrawn, and its DROP pends when the driver holds its look. -/
def World.startDrop (l : Fin 4) (x : Entry) (stop : DropEnd) (stage : DropStage) (w : World) : World :=
  (w.onLink l fun k =>
      let k := k.stopFrame x.ref
      if stage = .dropPending then
        { k with pending := k.pending ++ [⟨false, x.addr, x.tag, x.ref⟩] } else k).setEntry
    l x.ref (.dropping stop stage)

/-- An entry leaves by its state, with the end given (R129, and the rows of R126). -/
def World.removeEntry (l : Fin 4) (x : Entry) (stop : DropEnd) (w : World) : World :=
  match x.state with
  | .queued => w.endEntry l x stop.toEnd
  | .late => w.endEntry l x stop.toEnd
  | .sent => w.startDrop l x stop .awaitingReply
  | .lateSent => w.startDrop l x stop .awaitingReply
  | .staged => w.startDrop l x stop .dropPending
  | .lateStaged => w.startDrop l x stop .dropPending
  | .dropping .. => w

/-- Withdrawal of an entry (R129). -/
def World.withdrawEntry (l : Fin 4) (x : Entry) (w : World) : World := w.removeEntry l x .withdrawn

def Entry.dropping (x : Entry) : Bool :=
  match x.state with
  | .dropping .. => true
  | _ => false

/-- An entry discarded with its player's count (R126, R127); a DROPPING one is unchanged. -/
def World.discardEntry (e : Env) (l : Fin 4) (x : Entry) (w : World) : World :=
  if x.dropping then w
  else (w.removeEntry l x .discarded).countTake e x.player Counters.addDiscarded

/-- The entries of a link that pass a test, each put through `f` in list order; so the DROPs that one event
makes pending join the pending list in that order (R129, R130; log entry 40). -/
def World.eachEntry (l : Fin 4) (p : Entry → Bool) (f : Entry → World → World) (w : World) : World :=
  w.each ((w.link l).stage.filter p) f

/-! ## Tags and GOs (R130, R134) -/

/-- The group of the deferred or held portions on a link changed. -/
def World.onPortions (l : Fin 4) (p : Fin 8) (id : GroupId) (f : List Portion → List Portion)
    (w : World) : World :=
  { w with groups := w.groups.map fun g =>
      if g.player = p ∧ g.id = id then { g with portions := g.portions.upd l f } else g }

/-- The newest portion: a new one takes the place of one that is not HELD, and stands after one that is
(R133). -/
def putPortion (p : Portion) (ps : List Portion) : List Portion :=
  match ps.getLast? with
  | some (.held _) => ps ++ [p]
  | _ => ps.dropLast ++ [p]

/-- Does an entry keep a GO on its list (R130)? -/
def Entry.keepsGo (x : Entry) : Bool :=
  match x.state with
  | .dropping _ .awaitingReply => false
  | .dropping _ .dropSent => false
  | _ => true

/-- The GO of a tag leaves the GO list, its GO state REMOVED (R126, R130). -/
def Link.removeGo (t : Fin 15) (k : Link) : Link :=
  { k.stopGo t with
    gos := k.gos.filter (·.tag != t)
    tags := k.tags.upd t (Option.map fun h => { h with go := .removed }) }

/-- The tests of one tag after an event: is its GO to be removed, and is it to be freed? -/
def World.closeTag (l : Fin 4) (t : Fin 15) (w : World) : World :=
  match (w.link l).tags.get t with
  | none => w
  | some h =>
    let carried := (w.link l).stage.filter (·.tag == tagNo t)
    let gone := h.go == .pending && !carried.any Entry.keepsGo
    let w := if gone then w.onLink l (Link.removeGo t) else w
    if carried.isEmpty && (gone || h.go != .pending) then
      (w.onLink l fun k =>
          { k with
            tags := k.tags.set t none
            gos := k.gos.filter (·.tag != t)
            retry := true }).onPortions l h.player h.id
        (List.map fun q => if q = .held t then .done else q)
    else w

/-- The lowest-numbered free tag (R118). -/
def Link.freeTag (k : Link) : Option (Fin 15) := (upTo 15).find? fun t => (k.tags.get t).isNone

/-! ## Making entries (R117, R118, R127) -/

/-- What a zone is to a group of a player (R117). -/
inductive Membership where
  | member | undeliverable | shadowed
deriving DecidableEq, Repr

def World.judge (w : World) (p : Fin 8) (z : Fin 64) : Membership :=
  if w.owner z ≠ some p then .shadowed
  else if w.deliverable z then .member else .undeliverable

/-- A newer member supersedes the player's late entries for the zone (R127). -/
def World.supersede (e : Env) (l : Fin 4) (p : Fin 8) (a : Fin 16) (ref : Nat) (w : World) : World :=
  w.eachEntry l
    (fun x => x.player == some p && x.addr == a && x.ref != ref && x.group.isSome
      && (x.state == .late || x.state == .lateSent || x.state == .lateStaged))
    (World.discardEntry e l)

/-- A GROUP entry placed; it joins the list before the older late ones that it supersedes leave (R127; log
entry 30). -/
def World.addMember (e : Env) (l : Fin 4) (p : Fin 8) (id : GroupId) (due : Nat) (t : Fin 15)
    (lead : Nat) (s : EntryState) (m : Member) (w : World) : World :=
  w.withRef fun ref w =>
    (w.addEntry e l
        { ref := ref, addr := m.addr, player := some p, group := some id, tag := tagNo t, look := m.look
          hold := lead - (w.zone (zoneAt l m.addr)).lead, due := due, state := s
          backoff := .clear }).supersede e l p m.addr ref

/-- The portion lead: the greatest lead trim among the members. -/
def World.portionLead (w : World) (l : Fin 4) (ms : List Member) : Nat :=
  ms.foldl (fun n m => max n (w.zone (zoneAt l m.addr)).lead) 0

/-- A link portion made under a free tag (R118). -/
def World.makePortion (e : Env) (l : Fin 4) (p : Fin 8) (id : GroupId) (due : Nat)
    (ms : List Member) (t : Fin 15) (w : World) : World :=
  let lead := w.portionLead l ms
  let w := w.each ms (World.addMember e l p id due t lead .queued)
  (w.onLink l fun k =>
      { k with
        gos := insertBy GoEntry.before
          ⟨t, p, id, due, lead, due - lead, due ≤ e.now + lead, false⟩ k.gos
        tags := k.tags.set t (some ⟨p, id, .pending⟩) }).onPortions l p id (putPortion (.held t))

/-- A link portion made, or deferred where it cannot be (R118, R119). -/
def World.placePortion (e : Env) (l : Fin 4) (p : Fin 8) (id : GroupId) (due : Nat)
    (ms : List Member) (w : World) : World :=
  if ms.isEmpty then w else
  let k := w.link l
  match k.freeTag with
  | some t =>
    if k.deferred.isEmpty && k.stage.length + ms.length ≤ Config.stageCap then
      w.makePortion e l p id due ms t
    else defer w
  | none => defer w
where
  defer (w : World) : World :=
    (w.onLink l fun k =>
        { k with deferred := insertBy Item.before (.group p id due ms) k.deferred }).onPortions
      l p id (putPortion .deferred)

/-- Does the link hold room for `n` more entries? -/
def Link.room (k : Link) (n : Nat) : Bool := k.stage.length + n ≤ Config.stageCap

/-- An INDIVIDUAL entry placed (R128). -/
def World.addSingle (e : Env) (l : Fin 4) (ref : Nat) (a : Fin 16) (p : Option (Fin 8))
    (look : LookCopy) (due : Nat) (w : World) : World :=
  w.addEntry e l
    { ref := ref, addr := a, player := p, group := none, tag := 0, look := look, hold := 0
      due := due, state := .queued, backoff := .clear }

/-- The members of a deferred group item judged again; those no longer deliverable are counted (R119). -/
def World.rejudge (l : Fin 4) (p : Fin 8) (ms : List Member) (w : World) : List Member × World :=
  (ms.filter fun m => w.judge p (zoneAt l m.addr) == .member,
    w.each (ms.filter fun m => w.judge p (zoneAt l m.addr) == .undeliverable)
      fun _ w => w.count p Counters.addUndeliverable)

/-- The portion of a dropped deferred item becomes DONE. -/
def World.dropDeferred (l : Fin 4) (p : Fin 8) (id : GroupId) (w : World) : World :=
  w.onPortions l p id (List.map fun q => if q = .deferred then .done else q)

/-- The head of a deferred list made, when it fits (R119). -/
def World.makeHead (e : Env) (l : Fin 4) (w : World) : Option World :=
  let k := w.link l
  match k.deferred with
  | [] => none
  | .single ref a p look due :: rest =>
    if k.room 1 then
      some ((w.onLink l fun k => { k with deferred := rest }).addSingle e l ref a p look due)
    else none
  | .group p id due ms :: rest =>
    match k.freeTag with
    | none => none
    | some t =>
      if k.room ms.length then
        let w := w.onLink l fun k => { k with deferred := rest }
        let (ms, w) := w.rejudge l p ms
        some (if ms.isEmpty then w.dropDeferred l p id else w.makePortion e l p id due ms t)
      else none

/-- The tests of every tag of a link. -/
def World.closeTags (l : Fin 4) (w : World) : World := w.each (upTo 15) (World.closeTag l)

/-- A retry of the deferred list when one is owed: with whether an item was made. -/
def World.retryHead (e : Env) (l : Fin 4) (w : World) : World × Bool :=
  if (w.link l).retry then
    match w.makeHead e l with
    | some v => (v, true)
    | none => (w.onLink l fun k => { k with retry := false }, false)
  else (w, false)

/-- The tests of the tags and the retries that they call for, in turn; `n` bounds the items made. -/
def World.retryLink (e : Env) (l : Fin 4) : Nat → World → World
  | 0, w => w.closeTags l
  | n + 1, w =>
    let r := (w.closeTags l).retryHead e l
    if r.2 then retryLink e l n r.1 else r.1

/-- What follows every dispatcher event on a link: GOs removed, tags freed, deferred items retried. -/
def World.tidyLink (e : Env) (l : Fin 4) (w : World) : World :=
  w.retryLink e l ((w.link l).deferred.length + 1)

def World.tidy (e : Env) (w : World) : World := w.each (upTo 4) (World.tidyLink e)

/-! ## Expansion (R116, R117, R120) -/

/-- The zones of a group with their looks, in the order of its cue items. -/
def groupZones (cues : List CueItem) : List (Fin 64 × LookCopy) :=
  cues.flatMap fun c => c.zones.map fun z => (z, c.look)

/-- The members of a group on a link (R117). -/
def World.membersOn (w : World) (l : Fin 4) (p : Fin 8) (cues : List CueItem) : List Member :=
  ((groupZones cues).filter fun z => zoneLink z.1 == l && w.judge p z.1 == .member).map fun z =>
    Member.mk (zoneAddr z.1) z.2

/-- A take group handed on (R116, R120). -/
def World.takeGroup (e : Env) (p : Fin 8) (id : GroupId) (due : Nat) (cues : List CueItem)
    (w : World) : World :=
  let judged (m : Membership) := (groupZones cues).filter fun z => w.judge p z.1 == m
  let w' := w.each (judged .undeliverable) fun _ w => w.count p Counters.addUndeliverable
  if due + Config.expirySpan ≤ e.now then
    w'.each (judged .member) fun _ w => w.countTake e (some p) Counters.addDiscarded
  else
    let w' := { w' with groups := w'.groups ++ [GroupRec.mk p id due cues (Tab.fill 4 [.vacant])] }
    (w'.each (upTo 4) fun l w => w.placePortion e l p id due (w.membersOn l p cues)).tidy e

/-! ## Withdrawal (R130) -/

/-- The deferred items of a link that pass a test leave it; an individual one is reported WITHDRAWN. -/
def World.dropItems (l : Fin 4) (p : Item → Bool) (w : World) : World :=
  let gone := (w.link l).deferred.filter p
  let w := w.onLink l fun k => { k with deferred := k.deferred.filter fun i => !p i }
  w.each gone fun i w =>
    match i with
    | .group q id _ _ => w.dropDeferred l q id
    | .single ref a _ look _ => w.report (zoneAt l a) ref .withdrawn look

/-- The members for a driver leave the player's deferred group items; an item left with none leaves the list. -/
def World.dropMembers (l : Fin 4) (p : Fin 8) (a : Fin 16) (w : World) : World :=
  (w.onLink l fun k =>
      { k with deferred := k.deferred.map fun i =>
          match i with
          | .group q id due ms => if q = p then .group q id due (ms.filter (·.addr != a)) else i
          | .single .. => i }).dropItems l fun i =>
    match i with
    | .group q _ _ ms => q == p && ms.isEmpty
    | .single .. => false

/-- Zone withdrawal: every entry and deferred member of a player for a zone. -/
def World.withdrawZone (e : Env) (p : Fin 8) (z : Fin 64) (w : World) : World :=
  let l := zoneLink z
  let a := zoneAddr z
  let w := w.eachEntry l (fun x => x.player == some p && x.addr == a) (World.withdrawEntry l)
  let w := w.dropMembers l p a
  (w.dropItems l fun i =>
    match i with
    | .group .. => false
    | .single _ b q _ _ => q == some p && b == a).tidy e

/-- Player withdrawal: every entry, deferred item and group record of a player. -/
def World.withdrawPlayer (e : Env) (p : Fin 8) (w : World) : World :=
  let w := w.each (upTo 4) fun l w =>
    (w.eachEntry l (fun x => x.player == some p) (World.withdrawEntry l)).dropItems l fun i =>
      match i with
      | .group q _ _ _ => q == p
      | .single _ _ q _ _ => q == some p
  { w with groups := w.groups.filter (·.player != p) }.tidy e

/-- Group withdrawal: every entry, deferred item and the record of one group. -/
def World.withdrawGroup (e : Env) (p : Fin 8) (id : GroupId) (w : World) : World :=
  let w := w.each (upTo 4) fun l w =>
    (w.eachEntry l (fun x => x.player == some p && x.group == some id)
        (World.withdrawEntry l)).dropItems l fun i =>
      match i with
      | .group q j _ _ => q == p && j == id
      | .single .. => false
  { w with groups := w.groups.filter fun g => !(g.player == p && g.id == id) }.tidy e

/-- Entry withdrawal: the individual take in flight of a zone, when there is one (R101). -/
def World.withdrawTake (e : Env) (z : Fin 64) (w : World) : World :=
  match (w.zone z).take with
  | none => w
  | some (ref, _) =>
    let l := zoneLink z
    ((w.eachEntry l (·.ref == ref) (World.withdrawEntry l)).dropItems l fun i =>
      match i with
      | .group .. => false
      | .single r _ _ _ _ => r == ref).tidy e

/-! ## Individual takes (R128) -/

/-- A catch-up or fallback take handed on by the arbiter, which then names it. -/
def World.placeSingle (e : Env) (z : Fin 64) (p : Option (Fin 8)) (look : LookCopy) (k : TakeKind)
    (w : World) : World :=
  let l := zoneLink z
  w.withRef fun ref w =>
    let w := w.onZone z fun r => { r with take := some (ref, k) }
    if (w.link l).room 1 && (w.link l).deferred.isEmpty then
      w.addSingle e l ref (zoneAddr z) p look e.now
    else w.onLink l fun k =>
      { k with deferred := insertBy Item.before (.single ref (zoneAddr z) p look e.now) k.deferred }

/-! ## Rejoin (R133) -/

/-- A zone added to one group of its new owner. -/
def World.rejoinGroup (e : Env) (z : Fin 64) (p : Fin 8) (g : GroupRec) (look : LookCopy)
    (w : World) : World :=
  let l := zoneLink z
  let a := zoneAddr z
  let m : Member := ⟨a, look⟩
  match (g.portions.get l).getLast? with
  | some .deferred =>
    w.onLink l fun k =>
      { k with deferred := k.deferred.map fun i =>
          match i with
          | .group q id due ms =>
            if q = p ∧ id = g.id ∧ !ms.any (·.addr == a) then .group q id due (ms ++ [m]) else i
          | .single .. => i }
  | some (.held t) =>
    match (w.link l).tags.get t, (w.link l).gos.find? (·.tag == t) with
    | some h, some o =>
      if h.go = .removed then w.placePortion e l p g.id g.due [m]
      else if (w.link l).room 1 then
        w.addMember e l p g.id g.due t o.lead (if h.go = .pending then .queued else .late) m
      else w.countTake e (some p) Counters.addDiscarded
    | _, _ => w.placePortion e l p g.id g.due [m]
  | _ => w.placePortion e l p g.id g.due [m]

/-- A REJOIN of a zone to the groups of a player that set a part and are due later than NOW. Tags that its
members free are freed at its end, after its last group (R134; DESIGN CHOICE, unsafe: log entry 43). -/
def World.rejoin (e : Env) (z : Fin 64) (p : Fin 8) (part : Fin 16) (w : World) : World :=
  (w.each (w.groups.filter fun g => g.player == p && e.now < g.due) fun g w =>
    match g.cues.find? (·.part == part) with
    | none => w
    | some c => w.rejoinGroup e z p g c.look).tidy e

/-! ## What a link reports (R121, R122, R124, R125, R131, R132) -/

/-- A driver's credits and occupied slots moved together (R145). -/
def Driver.slotFreed (d : Driver) : Driver := { d with credits := d.credits + 1, occupied := d.occupied - 1 }

/-- A GO sent (R124), with the slots of its entries (R145). -/
def World.goSent (e : Env) (l : Fin 4) (t : Fin 15) (w : World) : World :=
  let w := w.onLink l fun k =>
    { k with
      gos := k.gos.map fun g => if g.tag = t then { g with sent := true } else g
      tags := k.tags.upd t (Option.map fun h => { h with go := .sent }) }
  (w.eachEntry l (·.tag == tagNo t) fun x w =>
    let taken := (w.endEntry l x .taken).onDriver l x.addr Driver.slotFreed
    match x.state with
    | .staged => taken
    | .queued => w.setEntry l x.ref .late
    | .sent => w.setEntry l x.ref .lateSent
    | .dropping _ .dropPending => taken
    | _ => w).tidy e

/-- A STAGE sent for the first time (R121), taking a credit (R145). -/
def World.stageSent (l : Fin 4) (ref : Nat) (w : World) : World :=
  match w.entryOf l ref with
  | none => w
  | some x =>
    (w.setEntry l ref (if x.state = .late then .lateSent else .sent)).onDriver l x.addr fun d =>
      { d with credits := d.credits - 1 }

/-- A TAKE sent (R125, R128). -/
def World.takeSent (e : Env) (l : Fin 4) (ref : Nat) (w : World) : World :=
  match w.entryOf l ref with
  | none => w
  | some x =>
    let w := w.endEntry l x .taken
    (if x.group.isSome then w.countTake e x.player Counters.addLate else w).tidy e

/-- A DROP sent (R131). -/
def World.dropSent (e : Env) (l : Fin 4) (ref : Nat) (w : World) : World :=
  match w.entryOf l ref with
  | none => w
  | some x =>
    match x.state with
    | .dropping stop _ => (w.setEntry l ref (.dropping stop .dropSent)).tidy e
    | _ => w

/-- A DROP transfer ended (R131). -/
def World.dropEnded (e : Env) (l : Fin 4) (ref : Nat) (w : World) : World :=
  match w.entryOf l ref with
  | none => w
  | some x =>
    match x.state with
    | .dropping stop _ => (w.endEntry l x stop.toEnd).tidy e
    | _ => w

/-- An entry staged, its TAKE or its DROP then pending (R122, R125). -/
def World.entryStaged (l : Fin 4) (x : Entry) (w : World) : World :=
  let pendTake (w : World) := w.onLink l fun k =>
    { k with pending := k.pending ++ [⟨true, x.addr, x.tag, x.ref⟩] }
  match x.state with
  | .sent =>
    let w := w.setEntry l x.ref .staged
    if x.group.isNone then pendTake w else w
  | .lateSent =>
    let w := w.setEntry l x.ref .lateStaged
    if w.owner (zoneAt l x.addr) = x.player then pendTake w
    else w.startDrop l x .withdrawn .dropPending
  | .dropping stop _ => w.startDrop l x stop .dropPending
  | _ => w

/-- An entry put back by a RETRY (R122). -/
def World.entryRetried (l : Fin 4) (x : Entry) (w : World) : World :=
  match x.state with
  | .sent => w.onEntryOf l x.ref fun x => { x with state := .queued, backoff := .raised }
  | .lateSent => w.onEntryOf l x.ref fun x => { x with state := .late, backoff := .raised }
  | .dropping stop _ => w.endEntry l x stop.toEnd
  | _ => w

/-- An entry ends by the NAK to its STAGE (R122) or by its driver's loss (R132): a DROPPING one ends as its
drop would, any other is discarded and counted. -/
def World.loseEntry (e : Env) (l : Fin 4) (x : Entry) (w : World) : World :=
  match x.state with
  | .dropping stop _ => w.endEntry l x stop.toEnd
  | _ => (w.endEntry l x .discarded).countTake e x.player Counters.addDiscarded

/-- The reply to an entry's STAGE (R122). -/
def World.stageReply (e : Env) (l : Fin 4) (ref : Nat) (k : ReplyKind) (w : World) : World :=
  match w.entryOf l ref with
  | none => w
  | some x =>
    (match k with
     | .ack => w.entryStaged l x
     | .retry => w.entryRetried l x
     | .nak => w.loseEntry e l x
     | .echo => w).tidy e

/-- Every entry of a driver ends, in list order (R132). -/
def World.loseEntries (e : Env) (l : Fin 4) (a : Fin 16) (w : World) : World :=
  w.eachEntry l (·.addr == a) (World.loseEntry e l)

/-- Every entry of a lost driver ends (R132). -/
def World.driverEntriesEnd (e : Env) (l : Fin 4) (a : Fin 16) (w : World) : World :=
  (w.loseEntries e l a).tidy e

/-! ## Points of the dispatcher (R123, R126) -/

/-- Is a GO entry not ready whose send tick is at or before NOW (R123)? -/
def Link.sendTickDue (now : Nat) (g : GoEntry) : Bool := !g.ready && g.send ≤ now

/-- Every GO entry of a link whose send tick has come becomes ready (R123). -/
def World.sendTicks (now : Nat) (l : Fin 4) (w : World) : World :=
  w.onLink l fun k =>
    { k with gos := k.gos.map fun g => if Link.sendTickDue now g then { g with ready := true } else g }

/-- A group's expiry on one link (R126). -/
def World.expireOn (e : Env) (g : GroupRec) (l : Fin 4) (w : World) : World :=
  let mine (x : GoEntry) := x.player == g.player && x.id == g.id && !x.sent
  let w := w.each ((w.link l).gos.filter mine) fun x w => w.onLink l (Link.removeGo x.tag)
  let w := w.eachEntry l (fun x => x.player == some g.player && x.group == some g.id)
    (World.discardEntry e l)
  let isItem (i : Item) :=
    match i with
    | .group p id _ _ => p == g.player && id == g.id
    | .single .. => false
  let lost := ((w.link l).deferred.filter isItem).flatMap fun i =>
    match i with
    | .group _ _ _ ms => ms
    | .single .. => []
  (w.dropItems l isItem).each lost fun _ w => w.countTake e (some g.player) Counters.addDiscarded

/-- A group's expiry point (R126). -/
def World.expire (e : Env) (g : GroupRec) (w : World) : World :=
  let w := w.each (upTo 4) (World.expireOn e g)
  { w with groups := w.groups.filter fun r => !(r.player == g.player && r.id == g.id) }.tidy e

/-- Is a group's expiry point at or before NOW? -/
def GroupRec.expired (now : Nat) (g : GroupRec) : Bool := g.due + Config.expirySpan ≤ now

end Sys2Proof.Machine
end

