-- ==== Sys2Proof/Machine/LinkCore.lean ====
section
/-! DEFINITION. The changes of a link's state and of its drivers' that other blocks bring about
(Chapter 7): entering a state, the loss of a driver, line errors and faults, going OFF, the quiesce and
wake orders, and the early end of a calibration. -/

namespace Sys2Proof.Machine

/-- The power output in a state (R139). -/
def LinkState.powered : LinkState → Bool
  | .off => false
  | .faulted => false
  | _ => true

/-- Does a state count its timer (R139)? -/
def LinkState.timed : LinkState → Bool
  | .warming => true
  | .quiescing => true
  | .faulted => true
  | _ => false

/-- A change of a link's state (R139). -/
def World.enterLink (e : Env) (l : Fin 4) (s : LinkState) (w : World) : World :=
  (w.onLink l fun k =>
    { k with state := s, power := s.powered, timer := if s.timed then 0 else k.timer }).raise e
      .linkState

/-- The link enters QUIESCING; no SLEEP has been tried yet (R155). -/
def World.enterQuiescing (e : Env) (l : Fin 4) (w : World) : World :=
  (w.enterLink e l .quiescing).onLink l fun k =>
    { k with drivers := k.drivers.map fun d => { d with sleepTried := false } }

/-- The link becomes UP, or QUIESCING when the part is DARK (R149, R153). -/
def World.comeUp (e : Env) (l : Fin 4) (w : World) : World :=
  if w.ctl.state = .dark then w.enterQuiescing e l else w.enterLink e l .up

/-- The driver LOST to a state (R139): its credits and slots reset, its transfer abandoned, its pending
TAKEs and DROPs gone, its entries ended. -/
def World.loseDriver (e : Env) (l : Fin 4) (a : Fin 16) (s : DriverState) (w : World) : World :=
  let w := w.onDriver l a fun d =>
    { d with state := s, credits := 4, occupied := 0, backoff := .clear, poll := 0 }
  (w.onLink l fun k =>
    { k with
      transfer := k.transfer.filter (·.addr != a)
      pending := k.pending.filter (·.addr != a) }).driverEntriesEnd e l a

/-- A driver moved to a lost state: a loss when it was READY or BUSY, else a change that is not
reported (R139). -/
def World.dropDriver (e : Env) (l : Fin 4) (s : DriverState) (a : Fin 16) (w : World) : World :=
  if (w.driver l a).deliverable then w.loseDriver e l a s
  else w.onDriver l a fun d => { d with state := s }

/-- Every configured driver that is not ABSENT moved to a lost state, one by one by address, the deferred
list retried after each loss (R154, R155, R157; log entry 35). -/
def World.dropDrivers (e : Env) (l : Fin 4) (s : DriverState) (w : World) : World :=
  w.each ((upTo 16).filter fun a => w.configured l a && (w.driver l a).state != .absent)
    (World.dropDriver e l s)

/-- How many drivers of a link are READY or BUSY. -/
def Link.answering (k : Link) : Nat := k.drivers.list.countP Driver.deliverable

/-- A scan or calibration ends: the last long operation is recorded and LONG_OP_DONE raised. -/
def World.endLongOp (e : Env) (l : Fin 4) (op : LongOp) (w : World) : World :=
  (w.onLink l fun k => { k with lastOp := some op, scanPos := none, cal := none }).raise e .longOpDone

/-- A scan or calibration in progress ends ABANDONED (R154, R157; log entry 15). -/
def World.abandonLongOp (e : Env) (l : Fin 4) (w : World) : World :=
  let k := w.link l
  match k.state, k.cal with
  | .scanning, _ => w.endLongOp e l ⟨true, .abandoned, k.answering⟩
  | .calibrating, some c => w.endLongOp e l ⟨false, .abandoned, c.measured⟩
  | _, _ => w

/-- The wire left silent: nothing in flight, nothing partly received, and a WAKE or FORCE still owed
forgotten (log entry 32). -/
def Link.silent (k : Link) : Link :=
  { k with transfer := none, bcast := none, wakeOwed := false, forceOwed := false, hunting := false }

/-- A link not already OFF enters OFF (R157, R176, R182, R186). -/
def World.linkOff (e : Env) (l : Fin 4) (w : World) : World :=
  if (w.link l).state = .off then w else
  let w := w.abandonLongOp e l
  let w := w.onLink l fun k => { k.silent with pending := [], errors := [] }
  let w := (w.dropDrivers e l .absent).enterLink e l .off
  { w with ctl :=
      { w.ctl with
        asleep := w.ctl.asleep.set l false
        restartWake := w.ctl.restartWake.set l false } }

/-- The link enters FAULTED (R154). -/
def World.linkFault (e : Env) (l : Fin 4) (w : World) : World :=
  let op := w.abandonLongOp e l
  let w := op.onLink l fun k => { k.silent with errors := [] }
  ((w.dropDrivers e l .unresponsive).raise e .driverFault).enterLink e l .faulted

/-- Does a link in this state receive (R141)? -/
def LinkState.receives : LinkState → Bool
  | .off => false
  | .asleep => false
  | .faulted => false
  | _ => true

/-- A line error (R141). -/
def World.lineError (e : Env) (l : Fin 4) (w : World) : World :=
  let w := w.onLink l fun k =>
    { k with errorTotal := satUp Config.counterMax k.errorTotal, errors := k.errors.filter (· < 100) ++ [0] }
  if (w.link l).errors.length = 16 then w.linkFault e l else w

/-- The link enters ASLEEP and reports itself (R155, R176). -/
def World.linkAsleep (e : Env) (l : Fin 4) (w : World) : World :=
  let w := w.enterLink e l .asleep
  { w with ctl := { w.ctl with asleep := w.ctl.asleep.set l true } }

/-- The quiesce order (R155). -/
def World.quiesceOrder (e : Env) (l : Fin 4) (w : World) : World :=
  if (w.link l).state = .up then w.enterQuiescing e l else w

/-- The wake order (R156): the WAKE is owed, and the link sends it when its wire is idle. -/
def World.wakeOrder (l : Fin 4) (w : World) : World :=
  if (w.link l).state = .asleep ∨ (w.link l).state = .quiescing then
    w.onLink l fun k => { k with wakeOwed := true }
  else w

/-- A claim has reached a zone of the link (R96): a calibration is aborted (R153). -/
def World.claimReaches (e : Env) (l : Fin 4) (w : World) : World :=
  match (w.link l).state, (w.link l).cal with
  | .calibrating, some c => (w.endLongOp e l ⟨false, .aborted, c.measured⟩).comeUp e l
  | _, _ => w

end Sys2Proof.Machine
end

