-- ==== Sys2Proof/Machine/Controller.lean ====
section
/-! DEFINITION. The State Controller (Chapter 9): the changes of operating state and their orders, the
dark test, and the wake causes. -/

namespace Sys2Proof.Machine

/-- A change of operating state recorded and raised (R176). -/
def World.changeState (e : Env) (s : OpState) (c : ChangeCause) (w : World) : World :=
  { w with ctl :=
      { w.ctl with state := s, guard := 0, lastChange := some ⟨e.now, s, c⟩ } }.raise e
    .operatingState

/-- Entering DARK (R179). -/
def World.enterDark (e : Env) (c : ChangeCause) (w : World) : World :=
  (w.changeState e .dark c).each (upTo 4) (World.quiesceOrder e)

/-- Every asleep mark clear (R180, R182). -/
def World.clearAsleep (w : World) : World := { w with ctl := { w.ctl with asleep := Tab.fill 4 false } }

/-- A wake order to every link (R180). -/
def World.wakeLinks (w : World) : World := w.each (upTo 4) World.wakeOrder

/-- A wake cause: in DARK it makes the part ACTIVE, elsewhere it changes nothing (R180). -/
def World.wakeCause (e : Env) (c : ChangeCause) (w : World) : World :=
  if w.ctl.state = .dark then
    (w.changeState e .active c).clearAsleep.wakeLinks
  else w

/-- A channel whose value is not judged: UNKNOWN with streak 0 (R170, R173, R175). -/
def Channel.unjudged (c : Channel) : Channel := { c with value := .unknown, streak := 0, sense := none }

/-- The monitor at a park or a warm restart: the scan abandoned, every value UNKNOWN (R173, R175). A scan that
is due and has not been started is dropped with it, no contact read (DESIGN CHOICE at a park: log entry 2). -/
def Monitor.stop (m : Monitor) : Monitor :=
  { m with channels := m.channels.map Channel.unjudged, timer := 0, scan := none, scanDue := false }

/-- Parking (R182). -/
def World.park (e : Env) (w : World) : World :=
  let w := (w.changeState e .parked .request).clearAsleep
  { w with monitor := w.monitor.stop }.each (upTo 4) (World.linkOff e)

/-- An enabled link enters WARMING at the unpark or at its enabling (R157, R183). -/
def World.warmUp (e : Env) (l : Fin 4) (w : World) : World :=
  if (w.link l).enabled ∧ (w.link l).state = .off then w.enterLink e l .warming else w

/-- Unparking, but for the arming that follows it (R183). -/
def World.unpark (e : Env) (w : World) : World :=
  (w.changeState e .active .request).each (upTo 4) (World.warmUp e)

/-- Has the ACTIVE bank a PENDING booking whose arm point is at or before a tick? The arm point is the
start point less 6,000 (R37; log entry 9). -/
def World.pendingBy (tick : Nat) (w : World) : Bool :=
  match w.activeBank with
  | none => false
  | some bk =>
    (w.bank bk).list.any fun k => k.outcome.progress == .pending
      && k.booking.startPoint (w.bank bk).date ≤ tick + Config.armLead

/-- Conditions 2 to 4 of the dark test (R177). -/
def World.darkTest (e : Env) (w : World) : DarkResult :=
  if !w.allFree then .players
  else if !w.plans.wait.isEmpty then .waitList
  else if w.pendingBy (e.now + Config.darkGuard) then .bookingSoon
  else .entered

/-- A dark test recorded (R177). -/
def World.recordTest (e : Env) (r : DarkResult) (w : World) : World :=
  { w with ctl := { w.ctl with lastTest := some ⟨e.now, r⟩ } }

/-- The automatic dark test at one of its moments (R178; log entry 13). -/
def World.autoDark (e : Env) (w : World) : World :=
  if w.ctl.auto ∧ w.ctl.state = .active then
    let r := w.darkTest e
    let w := w.recordTest e r
    if r = .entered then w.enterDark e .auto else w
  else w

/-- The dark-guard timer's expiry (R178). -/
def World.guardExpiry (e : Env) (w : World) : World :=
  if w.ctl.state = .active ∧ Config.darkGuardPeriod ≤ w.ctl.guard then
    { w with ctl := { w.ctl with guard := 0 } }.autoDark e
  else w

end Sys2Proof.Machine
end

