-- ==== Sys2Proof/Machine/Arbiter.lean ====
section
/-! DEFINITION. The Zone Arbiter (Chapter 5): claims by rank, preemption, release and hand-back, and the
individual takes it makes. -/

namespace Sys2Proof.Machine

/-- RANK (R91): does claim `x` rank above claim `y`? -/
def Claim.above (x y : Claim) : Bool :=
  y.cls < x.cls || (x.cls == y.cls && (y.sub < x.sub || (x.sub == y.sub &&
    (x.seq < y.seq || (x.seq == y.seq && x.player < y.player)))))

/-- A claim list with a claim entered, the player's earlier entry removed first (R93). -/
def enterClaim (c : Claim) (cs : List Claim) : List Claim :=
  insertBy Claim.above c (cs.filter (·.player != c.player))

/-- The show part a zone map assigns to a zone. -/
def partOf (zmap : List PartEntry) (z : Fin 64) : Option (Fin 16) :=
  (zmap.find? fun p => p.zones.contains z).map (·.part)

/-! ## Individual takes -/

/-- A newer individual take supersedes the older one (R101). -/
def World.makeTake (e : Env) (z : Fin 64) (p : Option (Fin 8)) (look : LookCopy) (k : TakeKind)
    (w : World) : World :=
  (w.withdrawTake e z).placeSingle e z p look k

/-- A fallback take, when the zone is deliverable (R100). -/
def World.fallbackTake (e : Env) (z : Fin 64) (w : World) : World :=
  if w.deliverable z then
    w.makeTake e z none (e.lib.copyLook (w.zone z).fallback) .fallback
  else w

/-- The owner's part-look entry for the part its claim on the zone names. -/
def World.ownerLook (w : World) (z : Fin 64) : Option LookCopy :=
  (w.zone z).claims.head?.bind fun c => (w.player c.player).looks.get c.part

/-- The rejoin of a zone to its owner's groups (R98, R106). -/
def World.rejoinOwner (e : Env) (z : Fin 64) (w : World) : World :=
  match (w.zone z).claims.head? with
  | none => w
  | some c => w.rejoin e z c.player c.part

/-- A player gains a zone (R98). -/
def World.gain (e : Env) (z : Fin 64) (w : World) : World :=
  if w.deliverable z then
    (match w.ownerLook z with
      | some look => w.makeTake e z (w.owner z) look .catchUp
      | none => w).rejoinOwner e z
  else w

/-- The take of a return, by the table of R106. -/
def World.returnLook (e : Env) (z : Fin 64) (w : World) : World :=
  match w.owner z, w.ownerLook z, (w.zone z).committed with
  | some p, some look, _ => w.makeTake e z (some p) look .catchUp
  | some p, none, some look => w.makeTake e z (some p) look .catchUp
  | _, _, _ => w.fallbackTake e z

/-- The return take (R106); an owned zone then rejoins its owner's groups. -/
def World.returnTake (e : Env) (z : Fin 64) (w : World) : World := (w.returnLook e z).rejoinOwner e z

/-- The restore take on a fell-back report of a driver that is not lost (R105, R107); it makes no
rejoin, not even where it makes the take of R106 (log entry 12). -/
def World.restoreTake (e : Env) (z : Fin 64) (w : World) : World :=
  if w.deliverable z then
    match w.owner z, (w.zone z).committed with
    | some p, some look => w.makeTake e z (some p) look .catchUp
    | none, some look => w.makeTake e z none look .fallback
    | _, none => w.returnLook e z
  else w

/-! ## Claims and releases -/

/-- A claim taken (R93 to R96). -/
def World.claim (e : Env) (z : Fin 64) (c : Claim) (w : World) : World :=
  let before := w.owner z
  let first := (enterClaim c (w.zone z).claims).head?.map (·.player)
  let w :=
    if first = before then w.onZone z fun r => { r with claims := enterClaim c r.claims }
    else match before with
      | none => (w.onZone z fun r => { r with claims := enterClaim c r.claims }).gain e z
      | some old =>
        (((w.withdrawZone e old z).count old Counters.addPreempted).onZone z fun r =>
          { r with claims := enterClaim c r.claims }).gain e z
  w.claimReaches e (zoneLink z)

/-- A release taken (R97). -/
def World.releaseZone (e : Env) (p : Fin 8) (z : Fin 64) (w : World) : World :=
  if !(w.zone z).claims.any (·.player == p) then w else
  let before := w.owner z
  let w := w.onZone z fun r => { r with claims := r.claims.filter (·.player != p) }
  if before ≠ some p then w
  else if (w.zone z).claims.isEmpty then w.fallbackTake e z else w.gain e z

end Sys2Proof.Machine
end

