-- ==== Sys2Proof/Machine/Links.lean ====
section
/-! DEFINITION. The wires (Chapter 7): the choice of the next frame in every link state, the end of a
frame's sending, replies, timeouts and failures, scans, calibration, sleep and wake. -/

namespace Sys2Proof.Machine

/-! ## Starting a frame -/

/-- An addressed frame begins: a new transfer with attempt number 0 (R140). -/
def World.startTransfer (l : Fin 4) (f : TxFrame) (a : Fin 16) (w : World) : World :=
  w.onLink l fun k => { k with transfer := some ⟨f, a, 0, 0, true, false⟩ }

def World.startBroadcast (l : Fin 4) (x : Broadcast) (w : World) : World :=
  w.onLink l fun k => { k with bcast := some x }

/-- Is an entry eligible (R121)? -/
def Link.eligible (k : Link) (x : Entry) : Bool :=
  (x.state == .queued || x.state == .late) && x.backoff == .clear
    && (x.tag != 0 || !k.stage.any fun y =>
      y.tag == 0 && y.addr == x.addr && y.ref != x.ref
        && (y.state == .sent || y.state == .staged || y.dropping))

/-- The entry whose STAGE goes next (order 3 of R143). -/
def Link.nextStage (k : Link) : Option Entry :=
  k.stage.find? fun x =>
    k.eligible x && (k.drivers.get x.addr).state == .ready && 0 < (k.drivers.get x.addr).credits

/-- Orders 1 and 2 of R143: a ready GO, else the first pending TAKE or DROP. -/
def World.sendGoOrPending (l : Fin 4) (w : World) : Option World :=
  let k := w.link l
  match k.gos.find? (fun g => g.ready && !g.sent), k.pending with
  | some g, _ => some (w.startBroadcast l (.go g.tag))
  | none, i :: rest =>
    some ((w.onLink l fun k => { k with pending := rest }).startTransfer l
      (if i.isTake then .take i.ref i.tag else .drop i.ref i.tag) i.addr)
  | none, [] => none

/-- Order 3 of R143. -/
def World.sendStage (l : Fin 4) (w : World) : Option World :=
  (w.link l).nextStage.map fun x =>
    w.startTransfer l (.stage x.ref x.tag x.look.val x.hold) x.addr

/-- Is a refresh due (R148)? -/
def Driver.refreshDue (d : Driver) : Bool :=
  d.state == .ready && d.refresh.any fun r => r ≤ d.quiet

/-- Order 4 of R143; a driver whose zone has no committed look is passed over (R148). -/
def World.sendRefresh (l : Fin 4) (w : World) : Option World :=
  (upTo 16).findSome? fun a =>
    if (w.driver l a).refreshDue then
      (w.zone (zoneAt l a)).committed.map fun look => w.startTransfer l (.refresh look.val) a
    else none

/-- Is the poll of a lost driver due (R150)? -/
def World.lostPollDue (w : World) (l : Fin 4) (a : Fin 16) : Bool :=
  w.configured l a && ((w.driver l a).state == .unresponsive || (w.driver l a).state == .absent)
    && 100 ≤ (w.driver l a).poll

/-- Order 5 of R143. -/
def World.sendPoll (l : Fin 4) (w : World) : Option World :=
  ((upTo 16).find? (w.lostPollDue l)).map fun a => w.startTransfer l (.poll true false) a

/-- The address of a scan's turn: the first configured one at or after its position (R149). -/
def World.scanAddr (w : World) (l : Fin 4) : Option (Fin 16) :=
  (upTo 16).find? fun a => (w.link l).scanPos.getD 0 ≤ a.val && w.configured l a

/-- Has a calibration a READY or BUSY driver left, at or after its address (R152, R153)? -/
def Link.calLeft (k : Link) (c : CalPos) : Bool :=
  (upTo 16).any fun a => c.addr ≤ a.val && (k.drivers.get a).deliverable

/-- The outcome of a scan or calibration whose every address has had its turn (R149, R153). -/
def World.longOpOver (w : World) (l : Fin 4) : Option LongOp :=
  let k := w.link l
  match k.state, k.cal with
  | .scanning, _ => if (w.scanAddr l).isNone then some ⟨true, .complete, k.answering⟩ else none
  | .calibrating, some c => if k.calLeft c then none else some ⟨false, .complete, c.measured⟩
  | _, _ => none

/-- A scan's next step (R149): the poll at its turn. -/
def World.scanTurn (l : Fin 4) (w : World) : Option World :=
  match w.scanAddr l with
  | none => none
  | some a =>
    if (w.link l).scanPos ≠ some a.val then
      some (w.onLink l fun k => { k with scanPos := some a.val })
    else if (w.driver l a).state = .busy then none
    else some (w.startTransfer l (.poll (w.driver l a).lost true) a)

/-- A calibration's next step (R152, R153): the next PROBE or the next address. -/
def World.calTurn (l : Fin 4) (w : World) : Option World :=
  match (w.link l).cal with
  | none => none
  | some c =>
    match index? 16 c.addr with
    | none => none
    | some a =>
      match (w.driver l a).state with
      | .ready =>
        some ((w.onLink l fun k => { k with cal := some { c with probing := true } }).startTransfer l
          (.probe c.count) a)
      | .busy => none
      | _ => some (w.onLink l fun k => { k with cal := some ⟨c.addr + 1, 0, 0, c.measured, false⟩ })

/-- Has a quiescing link no driver awake, with no FORCE due and no wake order taken (R155, R156)? -/
def Link.quiesced (k : Link) : Bool :=
  k.state == .quiescing && k.answering == 0 && !k.forceOwed && !k.wakeOwed

/-- A quiescing link's next SLEEP (R155). -/
def World.quiesceTurn (l : Fin 4) (w : World) : Option World :=
  let k := w.link l
  ((upTo 16).find? fun a =>
    let d := k.drivers.get a
    d.deliverable && !d.sleepTried && !k.stage.any (·.addr == a)).map fun a =>
      (w.onDriver l a fun d => { d with sleepTried := true }).startTransfer l .sleep a

/-- The FORCE broadcast at the end of the quiesce wait (R155; log entry 18). -/
def World.sendForce (e : Env) (l : Fin 4) (w : World) : World :=
  let w := (w.onLink l fun k => { k with forceOwed := false }).startBroadcast l .force
  (w.dropDrivers e l .asleep).linkAsleep e l

/-- The WAKE broadcast of a wake order (R156; log entry 18). -/
def World.sendWake (e : Env) (l : Fin 4) (w : World) : World :=
  ((w.onLink l fun k => { k with wakeOwed := false }).startBroadcast l .wake).enterLink e l .warming

/-- The WAKE a link owes after a restart in DARK (R186). -/
def World.restartWake (l : Fin 4) (w : World) : Option World :=
  if w.ctl.restartWake.get l then some (w.startBroadcast l .wake) else none

/-- A WAKE broadcast sent: one that no wake order has asked for, whose link warms up, clears the link's
restart-wake mark (R186; log entry 18). -/
def World.wakeSent (l : Fin 4) (w : World) : World :=
  if (w.link l).state = .warming then w
  else { w with ctl := { w.ctl with restartWake := w.ctl.restartWake.set l false } }

/-- The first of several choices that exists. -/
def firstOf (cs : List (Option World)) : Option World := cs.findSome? id

/-- What the link does on an idle wire, once (R143, R144). -/
def World.chooseFrame (e : Env) (l : Fin 4) (w : World) : Option World :=
  let k := w.link l
  if k.transfer.isSome || k.bcast.isSome then none
  else if k.forceOwed then some (w.sendForce e l)
  else if k.wakeOwed then some (w.sendWake e l)
  else match k.state with
    | .up =>
      firstOf [w.restartWake l, w.sendGoOrPending l, w.sendStage l, w.sendRefresh l, w.sendPoll l]
    | .scanning => firstOf [w.sendGoOrPending l, w.scanTurn l]
    | .calibrating => firstOf [w.sendGoOrPending l, w.sendStage l, w.calTurn l]
    | .quiescing => firstOf [w.sendGoOrPending l, w.sendStage l, w.quiesceTurn l]
    | _ => none

/-- What the link does, once: whatever the wire carries, a scan or calibration at its end ends (R149, R153)
and a quiescing link with no driver awake enters ASLEEP (R155); else an idle wire is given a
frame (R143, R144); none when there is nothing to do. -/
def World.choose (e : Env) (l : Fin 4) (w : World) : Option World :=
  match w.longOpOver l with
  | some op => some ((w.endLongOp e l op).comeUp e l)
  | none => if (w.link l).quiesced then some (w.linkAsleep e l) else w.chooseFrame e l

/-- The link acts until its wire carries a frame or it has nothing to do. -/
def World.pumpFor (e : Env) (l : Fin 4) : Nat → World → World
  | 0, w => w
  | n + 1, w =>
    match w.choose e l with
    | none => w
    | some w' => pumpFor e l n w'

/-- A scan takes at most two steps for each address, a calibration one, before a frame goes out. -/
def World.pump (e : Env) (l : Fin 4) (w : World) : World := w.pumpFor e l 64

def World.pumpAll (e : Env) (w : World) : World := w.each (upTo 4) (World.pump e)

/-! ## The end of a frame's sending (R143) -/

/-- The first sending of an addressed frame reported to the dispatcher (R121, R125, R128, R131). -/
def World.reportSent (e : Env) (l : Fin 4) (f : TxFrame) (w : World) : World :=
  match f with
  | .stage r _ _ _ => w.stageSent l r
  | .take r _ => w.takeSent e l r
  | .drop r _ => w.dropSent e l r
  | _ => w

/-- LINK_FRAME_SENT -/
def World.frameSent (e : Env) (l : Fin 4) (w : World) : World :=
  match (w.link l).bcast, (w.link l).transfer with
  | some x, _ =>
    let w := w.onLink l fun k => { k with bcast := none }
    match x with
    | .go t => w.goSent e l t
    | .wake => w.wakeSent l
    | .force => w
  | none, some t =>
    if t.onWire then
      let w := (w.onLink l fun k =>
          { k with transfer := some { t with onWire := false, ticks := 0, reported := true } }).onDriver
        l t.addr fun d => { d with quiet := 0 }
      if t.reported then w else w.reportSent e l t.frame
    else w
  | none, none => w

/-! ## Timeouts and failures (R140, R142) -/

/-- How many repeats a transfer is allowed (R140). -/
def TxFrame.limit : TxFrame → Nat
  | .poll _ scan => if scan then 1 else 0
  | .sleep => 0
  | _ => 3

/-- The scan moves past the address of its poll. -/
def World.scanOn (l : Fin 4) (a : Fin 16) (w : World) : World :=
  w.onLink l fun k => { k with scanPos := k.scanPos.map fun _ => a.val + 1 }

/-- A driver that fails an ordinary transfer (R142). -/
def World.driverFails (e : Env) (l : Fin 4) (a : Fin 16) (w : World) : World :=
  (w.dropDriver e l .unresponsive a).raise e .driverFault

/-- A transfer fails (R142, R149, R150, R155). -/
def World.transferFails (e : Env) (l : Fin 4) (t : Transfer) (w : World) : World :=
  let w := w.onLink l fun k => { k with transfer := none }
  match t.frame with
  | .poll flush true =>
    (if flush then w.dropDriver e l .absent t.addr else w.driverFails e l t.addr).scanOn l t.addr
  | .poll _ false => w.onDriver l t.addr fun d => { d with poll := 0 }
  | .sleep => w
  | _ => w.driverFails e l t.addr

/-- An attempt times out or fails: it is repeated, or the transfer fails (R140). -/
def World.attemptFails (e : Env) (l : Fin 4) (t : Transfer) (w : World) : World :=
  if t.attempt < t.frame.limit then
    w.onLink l fun k =>
      { k with transfer := some { t with attempt := t.attempt + 1, ticks := 0, onWire := true } }
  else w.transferFails e l t

/-- Has the transfer in flight seen its second tick event (R140)? -/
def Transfer.timedOut (t : Transfer) : Bool := !t.onWire && 2 ≤ t.ticks

def World.timeout (e : Env) (l : Fin 4) (w : World) : World :=
  match (w.link l).transfer with
  | some t => if t.timedOut then w.attemptFails e l t else w
  | none => w

/-! ## Replies (R140, R145 to R152) -/

/-- The replies a frame allows (TABLE 7-5). -/
def TxFrame.allows (f : TxFrame) (k : ReplyKind) : Bool :=
  match f, k with
  | .stage .., .ack => true
  | .stage .., .retry => true
  | .stage .., .nak => true
  | .take .., .ack => true
  | .take .., .nak => true
  | .drop .., .ack => true
  | .drop .., .nak => true
  | .refresh _, .ack => true
  | .poll .., .ack => true
  | .sleep, .ack => true
  | .probe _, .echo => true
  | _, _ => false

/-- Is a reply matched to the transfer in flight (R140)? -/
def Transfer.matched (t : Transfer) (r : DriverReply) : Bool :=
  t.reported && t.addr == r.addr && t.frame.allows r.kind
    && match t.frame with
      | .probe n => r.tag == 0 && r.exchange == n
      | f => r.tag == f.tag

/-- The lead a driver's measurement gives (R152). -/
def measuredLead (sum latency : Nat) : Nat := min 20 ((sum + 16 * latency + 1599) / 1600)

/-- An ECHO taken by the calibration it belongs to (R152). -/
def World.echoTaken (l : Fin 4) (a : Fin 16) (latency roundTrip : Nat) (w : World) : World :=
  let w := w.onDriver l a fun d => { d with latency := some latency }
  match (w.link l).state, (w.link l).cal with
  | .calibrating, some c =>
    if !c.probing then w
    else if c.count < 7 then
      w.onLink l fun k =>
        { k with cal := some ⟨c.addr, c.count + 1, c.sum + roundTrip, c.measured, false⟩ }
    else
      (w.onZone (zoneAt l a) fun z => { z with lead := measuredLead (c.sum + roundTrip) latency }).onLink
        l fun k => { k with cal := some ⟨c.addr + 1, 0, 0, c.measured + 1, false⟩ }
  | _, _ => w

/-- The status of a POLL reply recorded as it stands, an apply latency above 2,000 too (log entry 33); the
refresh interval is half the silence time within 50-400 (R148, R149). -/
def Driver.status (r : DriverReply) (d : Driver) : Driver :=
  { d with
    silence := some r.silence
    latency := some r.latency
    refresh := some (max 50 (min 400 (r.silence / 2))) }

/-- A POLL's ACK (R149, R150): a flushed driver has its credits set, and returns. -/
def World.pollTaken (e : Env) (l : Fin 4) (t : Transfer) (flush scan : Bool) (r : DriverReply)
    (w : World) : World :=
  let a := t.addr
  let back := flush && (w.driver l a).lost
  let w := w.onDriver l a (Driver.status r)
  let w := if scan then w.scanOn l a else w
  let w := if flush then w.onDriver l a fun d =>
      { d with credits := 4, occupied := 0, backoff := .clear
               state := if back then .ready else d.state } else w
  if back then w.returnTake e (zoneAt l a) else w

/-- A STAGE's reply: the driver's credits (R145, R146), then the entry (R122). -/
def World.stageTaken (e : Env) (l : Fin 4) (a : Fin 16) (ref : Nat) (k : ReplyKind) (w : World) :
    World :=
  (w.onDriver l a fun d =>
    match k with
    | .ack => { d with occupied := d.occupied + 1 }
    | .retry => { d with credits := d.credits + 1, state := .busy, backoff := .raised }
    | _ => { d with credits := d.credits + 1 }).stageReply e l ref k

/-- What a matched reply does by its frame's rule. -/
def World.takeReply (e : Env) (l : Fin 4) (t : Transfer) (r : DriverReply) (roundTrip : Nat)
    (w : World) : World :=
  match t.frame with
  | .stage ref _ _ _ => w.stageTaken e l t.addr ref r.kind
  | .take .. => w.onDriver l t.addr Driver.slotFreed
  | .drop ref _ => (w.onDriver l t.addr Driver.slotFreed).dropEnded e l ref
  | .refresh _ => w
  | .poll flush scan => w.pollTaken e l t flush scan r
  | .probe _ => w.echoTaken l t.addr r.latency roundTrip
  | .sleep => w.dropDriver e l .asleep t.addr

/-- Is a fell-back flag in the reply to this frame reported (R147)? -/
def TxFrame.reportsFellBack : TxFrame → Bool
  | .poll flush _ => !flush
  | _ => true

/-- A matched reply ends the transfer (R140, R147): the effect of its frame comes first and its fell-back
report after it (log entry 34); the fell-back flag is bit 0 (log entry 24). -/
def World.replyTaken (e : Env) (l : Fin 4) (t : Transfer) (r : DriverReply) (roundTrip : Nat)
    (w : World) : World :=
  let w := w.onLink l fun k => { k with transfer := none }
  let w := w.onDriver l t.addr fun d =>
    { d with slotsFree := some r.slotsFree, flags := some r.flags }
  let w := w.takeReply e l t r roundTrip
  if r.flags % 2 = 1 && t.frame.reportsFellBack then
    (w.restoreTake e (zoneAt l t.addr)).raise e .driverFault
  else w

/-- A reply that is bad or cannot be matched: a line error, and the attempt in flight fails (R140,
R141). -/
def World.badReply (e : Env) (l : Fin 4) (w : World) : World :=
  let w := w.lineError e l
  match (w.link l).transfer with
  | some t => w.attemptFails e l t
  | none => w

/-- The receive side takes a frame: it hunts no longer (R200). -/
def World.frames (l : Fin 4) (w : World) : World := w.onLink l fun k => { k with hunting := false }

/-- Bytes that form no frame: a line error, and while the link receives bytes are discarded until the next
C3h (R141, R200). -/
def World.noFrame (e : Env) (l : Fin 4) (w : World) : World :=
  (w.badReply e l).onLink l fun k => { k with hunting := k.state.receives }

/-- Is a POLL in flight (R200)? -/
def Link.polling (k : Link) : Bool :=
  k.transfer.any fun t => match t.frame with
    | .poll .. => true
    | _ => false

/-- A frame off the wire, from its C3h (R140, R141, R200). -/
def World.hearFrame (e : Env) (l : Fin 4) (bytes : List Byte) (roundTrip : Nat) (w : World) : World :=
  match parseReply (w.link l).polling bytes, (w.link l).transfer with
  | none, _ => w.noFrame e l
  | some r, some t =>
    let w := w.frames l
    if t.matched r then w.replyTaken e l t r roundTrip else w.badReply e l
  | some _, none => (w.frames l).badReply e l

/-- A run of bytes off the wire, `n` its length or more: a C3h starts a frame, which its length ends; any
other byte between frames is discarded, after a line error where the link was not hunting (R200). -/
def World.hearFor (e : Env) (l : Fin 4) (roundTrip : Nat) : Nat → List Byte → World → World
  | n + 1, x :: rest, w =>
    if !(w.link l).state.receives then w
    else if x = 0xC3#8 then
      let cut := cutReply (w.link l).polling 0 11 rest
      hearFor e l roundTrip n cut.2 (w.hearFrame e l (x :: cut.1) roundTrip)
    else hearFor e l roundTrip n rest (if (w.link l).hunting then w else w.noFrame e l)
  | _, _, w => w

/-- DRIVER_REPLY: a run of bytes from the wire; its end ends a frame partly received (log entry 26). -/
def World.driverReply (e : Env) (l : Fin 4) (bytes : List Byte) (roundTrip : Nat) (w : World) :
    World := w.hearFor e l roundTrip bytes.length bytes

/-! ## What a tick event brings due on a link -/

/-- A back-off that a tick event has met is cleared: the driver is READY again (R146, R122). -/
def World.backoffExpiry (l : Fin 4) (a : Fin 16) (w : World) : World :=
  let w := w.onLink l fun k =>
    { k with stage := k.stage.map fun x =>
        if x.addr = a ∧ x.backoff = .lapsing then { x with backoff := .clear } else x }
  w.onDriver l a fun d =>
    if d.backoff = .lapsing then
      { d with backoff := .clear, state := if d.state = .busy then .ready else d.state }
    else d

/-- Line errors of age 100 leave the recent-error list (R141). -/
def World.errorsAge (l : Fin 4) (w : World) : World :=
  w.onLink l fun k => { k with errors := k.errors.filter (· < 100) }

/-- The link enters SCANNING, its scan at the first address (R149, R151). -/
def World.enterScan (e : Env) (l : Fin 4) (w : World) : World :=
  (w.enterLink e l .scanning).onLink l fun k => { k with scanPos := some 0 }

/-- The warm-up's 200 tick events are over (R139, R149). -/
def World.warmUpEnd (e : Env) (l : Fin 4) (w : World) : World :=
  if (w.link l).state = .warming ∧ 200 ≤ (w.link l).timer then w.enterScan e l else w

/-- The rest of a FAULTED link is over (R154). -/
def World.restEnd (e : Env) (l : Fin 4) (w : World) : World :=
  if (w.link l).state = .faulted ∧ 500 ≤ (w.link l).timer then w.enterLink e l .warming else w

/-- The quiesce wait is over: FORCE is owed, unless a wake is (R155, R156). -/
def World.quiesceEnd (l : Fin 4) (w : World) : World :=
  let k := w.link l
  if k.state = .quiescing ∧ 100 ≤ k.timer ∧ !k.wakeOwed then
    w.onLink l fun k => { k with forceOwed := true }
  else w

/-- One tick event on an entry's back-off. -/
def BackOff.tick : BackOff → BackOff
  | .raised => .lapsing
  | x => x

/-- One tick event on a driver's durations; the poll count of a configured lost driver rises to 100
(R146, R148, R150). -/
def Driver.tick (configured : Bool) (d : Driver) : Driver :=
  { d with
    quiet := satUp Config.counterMax d.quiet
    backoff := d.backoff.tick
    poll := if configured && d.lost then satUp 100 d.poll else d.poll }

/-- One tick event on a link's durations (R139 to R141). -/
def Link.tick (configured : Fin 16 → Bool) (k : Link) : Link :=
  { k with
    timer := if k.state.timed then satUp 500 k.timer else k.timer
    transfer := k.transfer.map fun t => if t.onWire then t else { t with ticks := t.ticks + 1 }
    errors := k.errors.map (· + 1)
    stage := k.stage.map fun x => { x with backoff := x.backoff.tick }
    drivers := Tab.ofFn 16 fun a => (k.drivers.get a).tick (configured a) }

/-! ## Requests (R151, R152, R157) and the zone's configuring (R109) -/

/-- The first test of a link request. -/
def forLink (w : World) (n : Nat) (k : Fin 4 → World × Answer) : World × Answer :=
  match index? 4 n with
  | none => (w, .badField 0)
  | some l => k l

def World.enableLink (e : Env) (n : Nat) (w : World) : World × Answer :=
  forLink w n fun l =>
    let w := w.onLink l fun k => { k with enabled := true }
    (if w.ctl.state = .parked then w else w.warmUp e l, .ok [])

def World.disableLink (e : Env) (n : Nat) (w : World) : World × Answer :=
  forLink w n fun l =>
    if w.linkClaimed l then (w, .no .inUse)
    else ((w.onLink l fun k => { k with enabled := false }).linkOff e l, .ok [])

def World.scanLink (e : Env) (n : Nat) (w : World) : World × Answer :=
  forLink w n fun l =>
    if (w.link l).state ≠ .up then (w, .no .linkBusy) else (w.enterScan e l, .no .started)

def World.calibrateLink (e : Env) (n : Nat) (w : World) : World × Answer :=
  forLink w n fun l =>
    let k := w.link l
    if k.state ≠ .up ∨ w.linkClaimed l ∨ !k.stage.isEmpty ∨ !k.gos.isEmpty ∨ !k.deferred.isEmpty
        ∨ !k.pending.isEmpty then (w, .no .linkBusy)
    else
      let w := (w.enterLink e l .calibrating).onLink l fun k => { k with cal := some ⟨0, 0, 0, 0, false⟩ }
      (if k.answering = 0 then (w.endLongOp e l ⟨false, .complete, 0⟩).comeUp e l else w, .no .started)

/-- The driver of a zone just configured enters the polling with its poll count at 100 (R109, R150). -/
def World.pollNewDriver (z : Fin 64) (w : World) : World :=
  w.onDriver (zoneLink z) (zoneAddr z) fun d => { d with poll := 100 }

/-- The driver of a zone just unconfigured becomes ABSENT (R109). -/
def World.forgetDriver (e : Env) (z : Fin 64) (w : World) : World :=
  (w.onLink (zoneLink z) fun k =>
    { k with transfer := k.transfer.filter (·.addr != zoneAddr z) }).dropDriver e (zoneLink z) .absent
    (zoneAddr z)

end Sys2Proof.Machine
end

