-- ==== Sys2Proof/Machine/Players.lean ====
section
/-! DEFINITION. The Player Engine (Chapter 4): claiming, starting, walking and playing a show, ending it,
and the player's points. Where one event both sets a walk position and reads a condition, the condition
is read first and the hand points that have passed are taken last (log entry 11). -/

namespace Sys2Proof.Machine

/-! ## Reports to the Plan Banks (R39, R87) -/

/-- The outcome of a player's booking, in the bank that holds it. -/
def World.reportOn (p : Fin 8) (f : Report → Report) (w : World) : World :=
  match (w.player p).ref with
  | none => w
  | some (bk, id) => w.onOutcome bk id f

/-- The progress value of a live state (R87). -/
def PlayerState.progress : PlayerState → Progress
  | .free => .pending
  | .armed => .armed
  | .waiting => .waiting
  | .running => .running
  | .held => .held
  | .ending => .ending

/-- A change of a player's state, reported (R87). -/
def World.enterState (p : Fin 8) (s : PlayerState) (w : World) : World :=
  (w.onPlayer p fun c => { c with state := s }).reportOn p fun r => { r with progress := s.progress }

/-- The actual start tick set and reported (R39, R87). -/
def World.setStart (p : Fin 8) (tick : Nat) (w : World) : World :=
  (w.onPlayer p fun c => { c with startTick := some tick }).reportOn p fun r =>
    { r with startTick := some tick }

/-! ## The show a player reads (R30, R31) -/

def Player.booking? (c : Player) : Option Booking := c.copy.map (·.booking)

/-- The start mode of a player's booking. -/
def Player.mode? (c : Player) : Option StartMode := c.booking?.map Booking.mode

/-- The zone map of a player's booking. -/
def Player.zmap (c : Player) : List PartEntry := (c.booking?.map Booking.zmap).getD []

/-- DRY: of class 0 (R38). -/
def Player.dry (c : Player) : Bool := c.booking?.any fun k => k.cls == 0

/-- The show of a player's booking copy. -/
def Env.showOf (e : Env) (c : Player) : ShowRec :=
  match c.booking? with
  | none => ShowRec.blank
  | some k => e.lib.showRec k.showNo

/-- The start point of a player's copy. -/
def Player.startPoint (c : Player) : Nat := (c.copy.map (·.startPoint)).getD 0

def hasPreroll (s : ShowRec) : Bool := s.parts.head?.any (·.kind == .preroll)

/-- The index of the first MAIN section of a CLOSED show. -/
def firstMain (s : ShowRec) : Nat := if hasPreroll s then 1 else 0

def codaOf (s : ShowRec) : Option (Nat × SectionRec) :=
  match s.parts.getLast? with
  | some sec => if sec.kind = .coda then some (s.parts.length - 1, sec) else none
  | none => none

/-- Passes remaining on entering a section (R63). -/
def passesOf (sec : SectionRec) : Passes := if sec.passes = 0 then .endless else .left sec.passes

/-- The walk at pass 0 of a section, at its first cue, with its epoch (R63). -/
def Player.walkFrom (s : ShowRec) (i epoch : Nat) (c : Player) : Player :=
  match s.parts[i]? with
  | none => c
  | some sec =>
    { c with
      walk := some (.stands ⟨i, 0, sec.first⟩)
      epoch := some epoch
      passes := some (passesOf sec) }

/-- The zones of a zone map in ascending order (R62). -/
def mapZones (zmap : List PartEntry) : List (Fin 64) := (upTo 64).filter fun z => (partOf zmap z).isSome

/-- The claims of a player that is not DRY, in ascending zone order (R62). -/
def World.sendClaims (e : Env) (p : Fin 8) (w : World) : World :=
  let c := w.player p
  match c.booking? with
  | none => w
  | some k =>
    if c.dry then w
    else w.each (mapZones k.zmap) fun z w =>
      match partOf k.zmap z with
      | none => w
      | some part => w.claim e z ⟨p, k.cls, k.sub, c.armSeq, part⟩

/-! ## The walk (R69, R70, R77) -/

/-- A pass turn (R70), with the end it may bring (R77). -/
def Player.passTurn (s : ShowRec) (sec : SectionRec) (g : GroupId) (c : Player) : Player :=
  let epoch := c.epoch.getD 0 + sec.length
  let again : Player :=
    { c with epoch := some epoch, walk := some (.stands ⟨g.sec, (g.pass + 1) % 65536, sec.first⟩) }
  match c.passes with
  | some (.left n) =>
    if 2 ≤ n then { again with passes := some (.left (n - 1)) }
    else match c.latch with
      | some m => { again with passes := some (.left m), latch := none }
      | none =>
        match s.parts[g.sec + 1]? with
        | some next =>
          let c := c.walkFrom s (g.sec + 1) epoch
          if next.kind = .coda then
            { c with cause := some .completed, release := some (epoch + next.length) }
          else c
        | none =>
          let c := { c with epoch := some epoch, walk := some .past }
          if sec.kind = .coda then c
          else { c with cause := some .completed, release := some epoch }
  | _ => again

/-- The walk past a group of `n` cues. -/
def Player.advance (s : ShowRec) (sec : SectionRec) (g : GroupId) (n : Nat) (c : Player) : Player :=
  if g.cue + n < sec.first + sec.count then
    { c with walk := some (.stands { g with cue := g.cue + n }) }
  else c.passTurn s sec g

/-- A walking player: in WAITING with a walk position, RUNNING or ENDING (TABLE 4-4). -/
def Player.walking (c : Player) : Bool :=
  c.state == .waiting || c.state == .running || c.state == .ending

/-- Where a walk stands, with the section and the due tick of the group there. -/
def Env.walkAt (e : Env) (c : Player) : Option (GroupId × SectionRec × Nat) :=
  match c.walk with
  | some (.stands g) =>
    ((e.showOf c).parts[g.sec]?).map fun sec =>
      (g, sec, c.epoch.getD 0 + e.lib.offsetAt (e.showOf c) g.cue)
  | _ => none

/-- The cues of a group with their looks copied (R19). -/
def Env.copyCues (e : Env) (cues : List Cue) : List HandCue :=
  cues.map fun q => ⟨q.part, e.lib.copyLook q.look⟩

/-- What a player hands the dispatcher: its mapped cues with their zones (R69). -/
def cueItems (zmap : List PartEntry) (cues : List HandCue) : List CueItem :=
  cues.filterMap fun q =>
    (zmap.find? (·.part == q.part)).map fun m => ⟨q.part, m.zones, q.look⟩

/-- Has a walk entered the CODA: does it stand there, or has it passed the end of a show that has one? -/
def Walk.inCoda (s : ShowRec) : Walk → Bool
  | .stands g => (codaOf s).any (·.1 == g.sec)
  | .past => (codaOf s).isSome

/-- A state entered by the walk: ENDING when the CODA has been entered by natural completion (R77), though
a replay may have walked past its last group too (R67). -/
def World.walkEnds (s : ShowRec) (p : Fin 8) (w : World) : World :=
  let c := w.player p
  if c.state = .running ∧ c.walk.any (Walk.inCoda s) then w.enterState p .ending else w

/-- The group at the walk position handed on, and the walk moved on (R69). -/
def World.handOn (e : Env) (p : Fin 8) (w : World) : World :=
  let c := w.player p
  let s := e.showOf c
  match e.walkAt c with
  | none => w
  | some (g, sec, due) =>
    let group := e.lib.group s sec g.cue
    let cues := e.copyCues group
    let made : HandRec :=
      ⟨g, due, cues, ⟨g, c.epoch.getD 0, c.passes.getD .endless, c.latch⟩⟩
    let w := w.onPlayer p fun c => { c with hands := c.hands ++ [made] }
    let w := if c.dry then w
      else w.takeGroup e p g due (cueItems c.zmap cues)
    (w.onPlayer p (Player.advance s sec g group.length)).walkEnds s p

/-- Is the hand point of a player's walk position at or before NOW? -/
def Env.handDue (e : Env) (c : Player) : Bool :=
  c.walking && (e.walkAt c).any fun a => a.2.2 ≤ e.now + Config.horizon

/-- Every group whose hand point is at or before NOW handed on, in an event that is not a reach (R61). -/
def World.handFor (e : Env) (p : Fin 8) : Nat → World → World
  | 0, w => w
  | n + 1, w => if e.handDue (w.player p) then handFor e p n (w.handOn e p) else w

/-- Due ticks rise strictly (R72), so at most NOW + 151 groups are due by NOW + 150. -/
def World.handAll (e : Env) (p : Fin 8) (w : World) : World := w.handFor e p (e.now + 151)

/-! ## The play (R71) -/

/-- The cues of a group set their parts' entries. -/
def playCues (cues : List HandCue) (t : Tab (Option LookCopy) 16) : Tab (Option LookCopy) 16 :=
  cues.foldl (fun t q => t.set q.part (some q.look)) t

/-- A group plays. -/
def Player.playGroup (g : GroupId) (due : Nat) (cues : List HandCue) (c : Player) : Player :=
  { c with looks := playCues cues c.looks, play := some ⟨g, due⟩ }

/-- The group at the head of the hand-on list plays (R71). -/
def Player.playHead (c : Player) : Player :=
  match c.hands with
  | [] => c
  | h :: rest => { c.playGroup h.id h.due h.cues with hands := rest }

/-- One group replayed without frames (R67). -/
def Env.replayOne (e : Env) (c : Player) : Player :=
  let s := e.showOf c
  match e.walkAt c with
  | none => c
  | some (g, sec, due) =>
    let group := e.lib.group s sec g.cue
    (c.playGroup g due (e.copyCues group)).advance s sec g group.length

/-- The replay up to the first group due at or after NOW + 150 (R67). -/
def Env.replayFor (e : Env) : Nat → Player → Player
  | 0, c => c
  | n + 1, c =>
    if (e.walkAt c).any fun a => a.2.2 < e.now + Config.horizon then e.replayFor n (e.replayOne c)
    else c

def Env.replay (e : Env) (c : Player) : Player := e.replayFor (e.now + 151) c

/-! ## Ending (R75, R76, R85) -/

/-- The hand-on records due at or after a tick removed, their groups withdrawn (R65, R75). -/
def World.cutHands (e : Env) (p : Fin 8) (t : Nat) (w : World) : World :=
  let gone := (w.player p).hands.filter fun h => t ≤ h.due
  (w.onPlayer p fun c => { c with hands := c.hands.filter fun h => h.due < t }).each gone fun h w =>
    w.withdrawGroup e p h.id

/-- The walk and the release point at a cut T with a cause (R75, R79). `fresh`: a release point already
held is not kept. -/
def Player.cutAt (s : ShowRec) (t : Nat) (cause : EndCause) (fresh : Bool) (c : Player) : Player :=
  match codaOf s with
  | some (i, sec) =>
    { c.walkFrom s i t with latch := none, cause := some cause, release := some (t + sec.length) }
  | none =>
    let kept := if fresh ∨ c.walk ≠ some .past then none else c.release.filter (· ≤ t)
    match kept with
    | some r => { c with latch := none, cause := some .completed, release := some r }
    | none => { c with latch := none, walk := some .past, cause := some cause, release := some t }

/-- A graceful end with a cut tick and a cause (R75, R76, R79). -/
def World.endGracefully (e : Env) (p : Fin 8) (t : Nat) (cause : EndCause) (fresh : Bool) (w : World) :
    World :=
  let s := e.showOf (w.player p)
  (((w.cutHands e p t).onPlayer p (Player.cutAt s t cause fresh)).enterState p .ending)

/-- Is a channel's value TRUE (R169)? -/
def World.holds (w : World) (ch : Fin 8) : Bool := (w.monitor.channels.get ch).value == .yes

/-- A stop condition found TRUE ends the show gracefully (R76). -/
def World.checkStop (e : Env) (p : Fin 8) (w : World) : World :=
  match (w.player p).booking?.bind (·.stopCond) with
  | some ch =>
    if w.holds ch ∧ (w.player p).state = .running then
      w.endGracefully e p (e.now + Config.horizon) .stopped false
    else w
  | none => w

/-- The final value an ending cause writes. -/
def EndCause.progress : EndCause → Progress
  | .completed => .completed
  | .endedAtTime => .endedAtTime
  | .stopped => .stopped
  | .cancelled => .cancelled

/-- The notice a final value raises (R85 step 4). -/
def endNotice : Progress → NoticeKind
  | .notStarted => .bookingNotStarted
  | .skippedLate => .bookingNotStarted
  | _ => .bookingEnded

/-- A RELEASE up to the player's becoming FREE (R85). -/
def World.endBooking (e : Env) (p : Fin 8) (final : Progress) (abrupt : Bool) (w : World) : World :=
  let c := w.player p
  let w := if c.dry then w else
    (w.withdrawPlayer e p).each (mapZones c.zmap) (World.releaseZone e p)
  let c := w.player p
  let w := w.reportOn p fun _ =>
    { progress := final, abrupt := abrupt, startTick := c.startTick
      endTick := c.startTick.map fun _ => e.now, counters := c.counters }
  (w.raise e (endNotice final)).onPlayer p fun _ => Player.free

/-! ## Starting (R63 to R65) -/

/-- The main show starts (R65). -/
def World.mainStart (e : Env) (p : Fin 8) (w : World) : World :=
  let s := e.showOf (w.player p)
  let epoch := e.now + Config.horizon
  let w := if hasPreroll s then w.cutHands e p epoch else w.sendClaims e p
  let w := w.onPlayer p (Player.walkFrom s (firstMain s) epoch)
  ((w.setStart p epoch).enterState p .running).checkStop e p

/-- In WAITING, the start condition is read (R64). -/
def World.readStart (e : Env) (p : Fin 8) (w : World) : World :=
  match (w.player p).mode? with
  | some (.onCondition ch _) => if w.holds ch then w.mainStart e p else w
  | _ => w

/-- Entering WAITING, the PREROLL walked from an epoch when the show has one (R64, R68). -/
def World.enterWaiting (e : Env) (p : Fin 8) (epoch : Nat) (w : World) : World :=
  let s := e.showOf (w.player p)
  if hasPreroll s then
    ((w.sendClaims e p).onPlayer p (Player.walkFrom s 0 epoch)).enterState p .waiting
  else w.enterState p .waiting

/-- RUNNING from an epoch, which is the actual start tick (R63, R68). -/
def World.runFrom (e : Env) (p : Fin 8) (epoch : Nat) (w : World) : World :=
  let s := e.showOf (w.player p)
  let w := (w.sendClaims e p).onPlayer p (Player.walkFrom s (firstMain s) epoch)
  (w.setStart p epoch).enterState p .running

/-- The claim point or the start point reached in ARMED (R63, R64). -/
def World.beginShow (e : Env) (p : Fin 8) (w : World) : World :=
  let c := w.player p
  match c.mode? with
  | some .atTime => (w.runFrom e p c.startPoint).checkStop e p
  | some (.onCondition ..) => (w.enterWaiting e p c.startPoint).readStart e p
  | none => w

/-! ## Late starts (R67, R68) -/

/-- Would the replay of a JOIN reach the end of the show (R67)? -/
def Player.overLong (now : Nat) (c : Player) : Bool :=
  match c.length with
  | some (.ticks n) => c.startPoint + n ≤ now + Config.horizon
  | _ => false

/-- A JOIN of an AT_TIME booking (R67). -/
def World.joinShow (e : Env) (p : Fin 8) (w : World) : World :=
  let c := w.player p
  let s := e.showOf c
  if c.overLong e.now then w.endBooking e p .skippedLate false
  else
    let w := w.onPlayer p fun c => e.replay (c.walkFrom s (firstMain s) c.startPoint)
    let w := (w.setStart p c.startPoint).sendClaims e p
    (((w.enterState p .running).walkEnds s p).checkStop e p).handAll e p

/-- A RESTART of an AT_TIME booking (R68). -/
def World.restartShow (e : Env) (p : Fin 8) (w : World) : World :=
  (w.runFrom e p (e.now + Config.horizon)).handAll e p

/-- An ON_CONDITION booking armed late (R68; log entry 12). -/
def World.waitLate (e : Env) (p : Fin 8) (w : World) : World :=
  let c := w.player p
  let s := e.showOf c
  if hasPreroll s then
    match c.mark with
    | .join =>
      let w := w.onPlayer p fun c => e.replay (c.walkFrom s 0 c.startPoint)
      (((w.sendClaims e p).enterState p .waiting).readStart e p).handAll e p
    | _ => ((w.enterWaiting e p (e.now + Config.horizon)).readStart e p).handAll e p
  else if c.startPoint ≤ e.now then ((w.enterWaiting e p c.startPoint).readStart e p).handAll e p
  else w

/-- What a late mark brings in the event of the arming (R60). -/
def World.lateStart (e : Env) (p : Fin 8) (w : World) : World :=
  let c := w.player p
  match c.mark, c.mode? with
  | .none, _ => w
  | .join, some .atTime => w.joinShow e p
  | .restart, some .atTime => w.restartShow e p
  | _, _ => w.waitLate e p

/-! ## Points (R61, TABLE 4-4) -/

inductive PointKind where
  | start | windowEnd | endCut | due | hand | release
deriving DecidableEq, Repr

/-- The rank of points of one civic tick (R61). -/
def PointKind.rank : PointKind → Nat
  | .start => 0
  | .windowEnd => 1
  | .endCut => 2
  | .due => 3
  | .hand => 4
  | .release => 5

/-- Does an ARMED player begin at its claim point, not at its start point (TABLE 4-4)? -/
def Env.claimsFirst (e : Env) (c : Player) : Bool :=
  match c.mode? with
  | some .atTime => true
  | _ => hasPreroll (e.showOf c)

/-- The points a player holds, each with its civic tick + 150 (log entry 9); an end cut amended to a
tick already passed is not yet among them (R78). -/
def Env.points (e : Env) (c : Player) : List (Nat × PointKind) :=
  let start := match c.state with
    | .armed => [(c.startPoint + (if e.claimsFirst c then 0 else Config.horizon), PointKind.start)]
    | _ => []
  let window := match c.state, c.mode? with
    | .waiting, some (.onCondition _ n) => [(c.startPoint + n + Config.horizon, PointKind.windowEnd)]
    | _, _ => []
  let cut := match c.state, c.copy.bind (·.endPoint) with
    | .free, _ => []
    | .ending, _ => []
    | _, some t => if c.cutFresh then [] else [(t, PointKind.endCut)]
    | _, none => []
  let due := match c.walking, c.hands with
    | true, h :: _ => [(h.due + Config.horizon, PointKind.due)]
    | _, _ => []
  let hand := match c.walking, e.walkAt c with
    | true, some (_, _, t) => [(t, PointKind.hand)]
    | _, _ => []
  let release := match c.state, c.release with
    | .running, some t => [(t + Config.horizon, PointKind.release)]
    | .ending, some t => [(t + Config.horizon, PointKind.release)]
    | _, _ => []
  start ++ window ++ cut ++ due ++ hand ++ release

/-- Of two points the one that is taken first (R61). -/
def earlier (x y : Nat × PointKind) : Nat × PointKind :=
  if y.1 < x.1 ∨ (y.1 = x.1 ∧ y.2.rank < x.2.rank) then y else x

/-- The first point of a player that a reach at NOW makes due. -/
def Env.firstPoint (e : Env) (c : Player) : Option PointKind :=
  match (e.points c).filter fun x => x.1 ≤ e.now + Config.horizon with
  | [] => none
  | x :: rest => some (rest.foldl earlier x).2

/-- Is a point of that kind due? -/
def Env.pointDue (e : Env) (c : Player) (k : PointKind) : Bool :=
  (e.points c).any fun x => x.2 == k && x.1 ≤ e.now + Config.horizon

/-- On a reach: the groups handed on one by one while the player's first due point is a hand point, so
that a point of an earlier civic tick comes before the next group (R61, R72; log entry 11). -/
def World.handReachFor (e : Env) (p : Fin 8) : Nat → World → World
  | 0, w => w
  | n + 1, w =>
    if e.firstPoint (w.player p) = some .hand then handReachFor e p n (w.handOn e p) else w

/-- Due ticks rise strictly (R72), so at most NOW + 151 groups are due by NOW + 150. -/
def World.handReached (e : Env) (p : Fin 8) (w : World) : World := w.handReachFor e p (e.now + 151)

/-- The end cut reached in RUNNING (R75). -/
def World.cutRunning (e : Env) (p : Fin 8) (w : World) : World :=
  let stop := ((w.player p).copy.bind (·.endPoint)).getD 0
  w.endGracefully e p (max stop (e.now + Config.horizon)) .endedAtTime false

/-! ## Requests (R73, R82, R83) -/

/-- The first test of a player request. -/
def forPlayer (w : World) (n : Nat) (k : Fin 8 → World × Answer) : World × Answer :=
  match index? 8 n with
  | none => (w, .badField 0)
  | some p => k p

/-- The walk rolled back to its oldest record, if any (R82), a record of the PREROLL among them, which puts a
main show back into the PREROLL (DESIGN CHOICE, unsafe: log entry 42). -/
def Player.rollBack (c : Player) : Player :=
  match c.hands with
  | [] => c
  | h :: _ =>
    { c with
      walk := some (.stands h.snap.walk)
      epoch := some h.snap.epoch
      passes := some h.snap.passes
      latch := h.snap.latch
      hands := []
      release := none }

/-- HOLD (R82) -/
def World.hold (e : Env) (n : Nat) (w : World) : World × Answer :=
  forPlayer w n fun p =>
    if (w.player p).state ≠ .running then (w, .no .wrongState)
    else
      let w := (w.withdrawPlayer e p).onPlayer p fun c =>
        { c.rollBack with holdTick := some e.now }
      (w.enterState p .held, .ok [])

/-- RESUME (R83). A shift below civic tick 0 stops there (DESIGN CHOICE, unsafe: log entry 44). -/
def World.resume (e : Env) (n : Nat) (w : World) : World × Answer :=
  forPlayer w n fun p =>
    if (w.player p).state ≠ .held then (w, .no .wrongState)
    else
      let shift (c : Player) (t : Nat) := t + (e.now + Config.horizon) - c.holdTick.getD e.now
      let w := w.onPlayer p fun c =>
        { c with
          epoch := c.epoch.map (shift c)
          release := c.release.map (shift c)
          holdTick := none }
      ((w.enterState p .running).handAll e p, .ok [])

/-- May a player take a SET_PASSES (R73)? -/
def Env.takesPasses (e : Env) (c : Player) : Bool :=
  (c.state == .running || c.state == .held) &&
    match c.play, c.walk with
    | some q, some (.stands g) =>
      q.id.sec == g.sec && ((e.showOf c).parts[g.sec]?).any fun s => s.kind == .main && s.passes != 0
    | _, _ => false

/-- SET_PASSES (R73) -/
def World.setPasses (e : Env) (n passes : Nat) (w : World) : World × Answer :=
  forPlayer w n fun p =>
    if passes = 0 then (w, .badField 1)
    else if !e.takesPasses (w.player p) then (w, .no .wrongState)
    else
      (w.onPlayer p fun c =>
        { c with
          latch := some passes
          hands := c.hands.map fun h => { h with snap := { h.snap with latch := some passes } } },
        .ok [])

end Sys2Proof.Machine
end

