-- ==== Sys2Proof/Machine/Plans.lean ====
section
/-! DEFINITION. The Plan Banks (Chapter 3) and what they do with the players: judging and arming
bookings, the wait list, a player's end and what its freeing brings, the plan in force, and the points,
conditions and requests that end a player. -/

namespace Sys2Proof.Machine

/-! ## Judging and arming (R50 to R53, R60) -/

/-- The order of the wait list (R51). -/
def Booking.before (x y : Booking) : Bool :=
  y.cls < x.cls || (x.cls == y.cls && (y.sub < x.sub || (x.sub == y.sub &&
    (x.start < y.start || (x.start == y.start && x.id < y.id)))))

/-- The late judgement (R53): the late mark, or none where the booking is skipped. -/
def lateMark (now start : Nat) (k : Booking) (endPoint : Option Nat) (len : Option ShowLength) :
    Option LateMark :=
  let ended := endPoint.any (· ≤ now + Config.horizon)
  let played := endPoint.isNone && match len with
    | some (.ticks n) => start + n ≤ now + Config.horizon
    | _ => false
  if now + Config.horizon ≤ start then some .none
  else match k.policy with
    | .skip => none
    | .join => if ended || played || windowOver k start now then none else some .join
    | .restart => if ended || windowOver k start now then none else some .restart

/-- The show's finite length as the library holds it. -/
def Env.lengthOf (e : Env) (k : Booking) : Option ShowLength := (e.lib.showRec k.showNo).length

/-- The judgement of a booking of a bank at its arming. -/
def World.judgeLate (e : Env) (bk : Bank) (k : Booking) (w : World) : Option LateMark :=
  let d := (w.bank bk).date
  lateMark e.now (k.startPoint d) k (k.endPoint d) (e.lengthOf k)

/-- A booking skipped (R53). -/
def World.skipLate (e : Env) (bk : Bank) (id : Nat) (w : World) : World :=
  (w.onOutcome bk id fun r => { r with progress := .skippedLate }).raise e .bookingNotStarted

/-- A player's context from an arming (R60). -/
def armedPlayer (bk : Bank) (copy : BookingCopy) (len : Option ShowLength) (seq : Nat) (m : LateMark) :
    Player :=
  { Player.free with
    state := .armed
    ref := some (bk, copy.booking.id)
    copy := some copy
    length := len
    armSeq := seq
    mark := m }

/-- A booking armed into a FREE player (R50, R60), a wake cause (R180), with its late start. In DARK the wake
is taken before the late start's claims, so that a claim that reaches a CALIBRATING link finds the part ACTIVE
and the link comes to UP (R153; DESIGN CHOICE, unsafe: log entry 45). -/
def World.armInto (e : Env) (p : Fin 8) (bk : Bank) (k : Booking) (m : LateMark) (w : World) : World :=
  let d := (w.bank bk).date
  let seq := satUp Config.armSeqMax w.plans.armSeq
  let w := { w with plans := { w.plans with armSeq := seq } }
  let w := w.onOutcome bk k.id fun r => { r with progress := .armed }
  let w := w.onPlayer p fun _ =>
    armedPlayer bk ⟨k, k.startPoint d, k.endPoint d⟩ (e.lengthOf k) seq m
  (w.wakeCause e .arming).lateStart e p

/-- A booking from the wait list, as it was judged: skipped, or armed into the freed player (R52). -/
def World.fillJudged (e : Env) (p : Fin 8) (bk : Bank) (k : Booking) (w : World) :
    Option LateMark → World
  | none => w.skipLate e bk k.id
  | some m => w.armInto e p bk k m

/-- A booking taken from the wait list for a freed player (R52). -/
def World.fillWith (e : Env) (p : Fin 8) (bk : Bank) (id : Nat) (w : World) : World :=
  match (w.bank bk).find id with
  | none => w
  | some k => w.fillJudged e p bk k.booking (w.judgeLate e bk k.booking)

/-- The head of the wait list taken for a player that is FREE, but while PARKED (R52). -/
def World.fillHead (e : Env) (p : Fin 8) (w : World) : Option World :=
  if (w.player p).state ≠ .free ∨ w.ctl.state = .parked then none
  else match w.plans.wait, w.activeBank with
    | id :: rest, some bk =>
      some ({ w with plans := { w.plans with wait := rest } }.fillWith e p bk id)
    | _, _ => none

/-- The wait list armed into a freed player until a booking takes it or the list is empty (R52). -/
def World.fillFor (e : Env) (p : Fin 8) : Nat → World → World
  | 0, w => w
  | n + 1, w =>
    match w.fillHead e p with
    | none => w
    | some v => fillFor e p n v

/-- A player reported FREE: the wait list (R52), then the dark test (R178). -/
def World.freed (e : Env) (p : Fin 8) (w : World) : World :=
  (w.fillFor e p w.plans.wait.length).autoDark e

/-- A RELEASE with all that follows it (R85). -/
def World.finish (e : Env) (p : Fin 8) (final : Progress) (abrupt : Bool) (w : World) : World :=
  (w.endBooking e p final abrupt).freed e p

/-- The lowest-numbered FREE player. -/
def World.freePlayer (w : World) : Option (Fin 8) :=
  (upTo 8).find? fun p => (w.player p).state == .free

/-- A booking joins the wait list in its place (R51). -/
def World.joinWait (e : Env) (bk : Bank) (k : Booking) (w : World) : World :=
  let before (x y : Nat) :=
    match (w.bank bk).find x, (w.bank bk).find y with
    | some a, some c => a.booking.before c.booking
    | _, _ => false
  let w := { w with plans := { w.plans with wait := insertBy before k.id w.plans.wait } }
  (w.onOutcome bk k.id fun r => { r with progress := .waitlisted }).raise e .playerWait

/-- A player armed and freed at once is reported FREE (R52, R67). -/
def World.freedAtOnce (e : Env) (p : Fin 8) (w : World) : World :=
  if (w.player p).state = .free then w.freed e p else w

/-- A booking judged and not skipped: armed into the lowest-numbered FREE player, or waitlisted (R50,
R51). -/
def World.armOrWait (e : Env) (bk : Bank) (k : Booking) (m : LateMark) (w : World) : World :=
  match w.freePlayer with
  | none => w.joinWait e bk k
  | some p => (w.armInto e p bk k m).freedAtOnce e p

/-- A booking of an arming event, as it was judged (R50, R53). -/
def World.armJudged (e : Env) (bk : Bank) (k : Booking) (w : World) : Option LateMark → World
  | none => w.skipLate e bk k.id
  | some m => w.armOrWait e bk k m

/-- One booking of an arming event (R50): its arm point is acted on; PARKED it is left PENDING. -/
def World.armOne (e : Env) (bk : Bank) (k : Booking) (w : World) : World :=
  let w := w.onEntry bk k.id fun x => { x with armHeld := false }
  if w.ctl.state = .parked then w
  else w.armJudged e bk k (w.judgeLate e bk k)

/-- Is a booking's arm point, 6,000 ticks before its start, at or before NOW (R37; log entry 9)? -/
def armPassed (now : Nat) (d : Date) (k : Booking) : Bool := k.startPoint d ≤ now + Config.armLead

/-- The PENDING bookings of a bank whose arm points have passed, in the order of R51; `all` takes those
too whose points have been acted on (R50). -/
def BankRec.armable (now : Nat) (all : Bool) (r : BankRec) : List Booking :=
  ((r.list.filter fun k => k.outcome.progress == .pending && (all || k.armHeld)
      && armPassed now r.date k.booking).map (·.booking)).foldr (insertBy Booking.before) []

/-- The bookings of one arming event, in the order of R51. -/
def World.armBatch (e : Env) (all : Bool) (w : World) : World :=
  match w.activeBank with
  | none => w
  | some bk => w.each ((w.bank bk).armable e.now all) (World.armOne e bk)

/-- Is an arm point due? -/
def World.armDue (now : Nat) (w : World) : Bool :=
  w.activeBank.any fun bk => !((w.bank bk).armable now false).isEmpty

/-! ## The plan in force (R45 to R48) -/

/-- The wait list emptied when its bank stops being ACTIVE (R48). -/
def World.flushWait (e : Env) (bk : Bank) (w : World) : World :=
  if w.plans.wait.isEmpty then w
  else
    let w := w.each w.plans.wait fun id w =>
      w.onOutcome bk id fun r => { r with progress := .skippedLate }
    { w with plans := { w.plans with wait := [] } }.raise e .bookingNotStarted

/-- A bank leaves ACTIVE or LAPSED for a state (R45, R46, R48). -/
def World.leaveForce (e : Env) (bk : Bank) (s : BankState) (w : World) : World :=
  let was := (w.bank bk).state
  if was = .active then (w.onBank bk fun r => { r with state := s }).flushWait e bk
  else if was = .lapsed then w.onBank bk fun r => { r with state := s }
  else w

/-- A READY bank becomes ACTIVE, its passed arm points armed at once (R45). -/
def World.comeIntoForce (e : Env) (bk : Bank) (w : World) : World :=
  ((w.leaveForce e bk.other .spent).onBank bk fun r =>
    { r with state := .active, list := r.list.map fun k => { k with armHeld := true } }).armBatch e true

/-- The bank that is READY with a date. -/
def World.readyFor (d : Date) (w : World) : Option Bank :=
  if w.plans.bankA.state = .ready ∧ w.plans.bankA.date = d then some .a
  else if w.plans.bankB.state = .ready ∧ w.plans.bankB.date = d then some .b else none

/-- PLAN_MISSING when no bank is ACTIVE (R46). -/
def World.noteMissing (e : Env) (w : World) : World :=
  if w.activeBank.isNone then w.raise e .planMissing else w

/-- The plan of a date comes into force, or the plan in force lapses. -/
def World.forDate (e : Env) (d : Date) (w : World) : World :=
  match w.readyFor d, w.activeBank with
  | some bk, _ => w.comeIntoForce e bk
  | none, some bk => w.leaveForce e bk .lapsed
  | none, none => w

/-- The swap or lapse of a new date (R46, R47). -/
def World.swapBanks (e : Env) (d : Date) (w : World) : World := (w.forDate e d).noteMissing e

/-- The DAY ROLL event (R46), then the dark test (R178). -/
def World.dayRoll (e : Env) (d : Date) (w : World) : World :=
  ((w.swapBanks e d).raise e .dayRoll).autoDark e

/-- The DATE SET event (R47), then the dark test (R178). -/
def World.dateSet (e : Env) (d : Date) (w : World) : World :=
  (match w.activeBank with
   | some bk => if (w.bank bk).date = d then w else w.swapBanks e d
   | none => w.swapBanks e d).autoDark e

/-! ## A player's points (R61, R66, R75, R84, R85) -/

/-- A point of a player acted on, in the state in which it is reached (TABLE 4-4); where it sets the walk
position, the groups whose hand points then come first are handed on (R61). -/
def World.act (e : Env) (p : Fin 8) (k : PointKind) (w : World) : World :=
  match k with
  | .start => (w.beginShow e p).handReached e p
  | .windowEnd => w.finish e p .notStarted false
  | .endCut =>
    match (w.player p).state with
    | .running => (w.cutRunning e p).handReached e p
    | .held => w.finish e p .endedAtTime true
    | _ => w.finish e p .notStarted false
  | .due => w.onPlayer p Player.playHead
  | .hand => w.handReached e p
  | .release => w.finish e p (((w.player p).cause.map EndCause.progress).getD .completed) false

/-- A point acted on when it is the first that the reach makes due (R61). -/
def World.actFirst (e : Env) (p : Fin 8) (k : PointKind) (w : World) : World :=
  if e.firstPoint (w.player p) = some k then w.act e p k else w

/-- Every point of a player that a reach makes due, in the order of R61. -/
def World.pointsFor (e : Env) (p : Fin 8) : Nat → World → World
  | 0, w => w
  | n + 1, w =>
    match e.firstPoint (w.player p) with
    | none => w
    | some k => pointsFor e p n (w.act e p k)

/-- A booking has fewer points than this up to NOW (R72), and a player takes one for each freeing. -/
def World.playerPoints (e : Env) (p : Fin 8) (w : World) : World :=
  w.pointsFor e p (64 * (2 * e.now + 400))

/-- A reach is handed: an end cut amended to a tick already passed waits no longer (R3, R78). -/
def World.openReach (w : World) : World :=
  { w with players := w.players.map fun c => { c with cutFresh := false } }

/-- A reach acted on by every block that holds points (R3; log entry 2). -/
def World.reach (e : Env) (w : World) : World :=
  let w := w.armBatch e false
  let w := w.each (upTo 8) (World.playerPoints e)
  let w := w.each (upTo 4) (World.sendTicks e.now)
  w.each (w.groups.filter (GroupRec.expired e.now)) (World.expire e)

/-! ## Condition transitions (R169, R65, R76, R81, R84) -/

/-- Is a channel the start condition of a player's booking? -/
def Player.startsOn (ch : Fin 8) (c : Player) : Bool :=
  match c.mode? with
  | some (.onCondition n _) => n == ch
  | _ => false

/-- Is a channel the stop condition of a player's booking? -/
def Player.stopsOn (ch : Fin 8) (c : Player) : Bool := c.booking?.any fun k => k.stopCond == some ch

/-- Has a hand point of this tick brought a player into its CODA: is its newest hand-on record, of the section
before the CODA, due at NOW + 150 (R202; log entry 37)? -/
def Env.codaJustEntered (e : Env) (c : Player) : Bool :=
  c.cause == some .completed && c.hands.getLast?.any fun h =>
    h.due == e.now + Config.horizon && (codaOf (e.showOf c)).any (·.1 == h.id.sec + 1)

/-- A transition to TRUE taken by one player by its state and the channel's role (R169). In ENDING a stop acts
only where a hand point of the same tick has just brought the CODA (R76, R202; log entry 37). -/
def World.roleOf (e : Env) (ch : Fin 8) (p : Fin 8) (w : World) : World :=
  match (w.player p).state with
  | .waiting => if (w.player p).startsOn ch then (w.mainStart e p).handAll e p else w
  | .running => if (w.player p).stopsOn ch then (w.checkStop e p).handAll e p else w
  | .held => if (w.player p).stopsOn ch then w.finish e p .stopped true else w
  | .ending =>
    if (w.player p).stopsOn ch ∧ e.codaJustEntered (w.player p) then
      (w.endGracefully e p (e.now + Config.horizon) .stopped false).handAll e p
    else w
  | _ => w

/-- ALL_STOP ends the player when it still plays the booking it held at the transition (R81). -/
def World.allStop (e : Env) (was : Fin 8 × Option (Bank × Nat)) (w : World) : World :=
  if (w.player was.1).state ≠ .free ∧ (w.player was.1).ref = was.2 then
    w.finish e was.1 .allStopped true
  else w

/-- A transition to TRUE handed on (R168 step 5). ALL_STOP ends every player that is not FREE, whatever
role the channel has for it (R81), so no role is delivered beside it (log entry 23). -/
def World.turnTrue (e : Env) (ch : Fin 8) (stopAll wake : Bool) (w : World) : World :=
  let playing := ((upTo 8).filter fun p => (w.player p).state != .free).map fun p =>
    (p, (w.player p).ref)
  let w := if stopAll then w.each playing (World.allStop e) else w.each (upTo 8) (World.roleOf e ch)
  if wake then w.wakeCause e .condition else w

/-! ## Requests on banks (R40 to R45, R49) -/

/-- The first test of a plan request (section 3.1). -/
def forBank (w : World) (n : Nat) (k : Bank → World × Answer) : World × Answer :=
  match bank? n with
  | none => (w, .badField 0)
  | some bk => k bk

/-- OPEN_PLAN (R40) -/
def World.openPlan (n : Nat) (d : Date) (w : World) : World × Answer :=
  forBank w n fun bk =>
    let s := (w.bank bk).state
    if !d.valid then
      (w, .badField (if d.year < 2000 ∨ 2099 < d.year then 1
        else if d.month = 0 ∨ 12 < d.month then 3 else 4))
    else if s = .loading ∨ s = .ready ∨ s = .active then (w, .no .wrongState)
    else if w.refersTo bk then (w, .no .inUse)
    else (w.onBank bk fun _ => ⟨.loading, d, []⟩, .ok [])

/-- The tests of R43 on one booking. -/
def World.sealFault (lib : Library) (k : Booking) (w : World) : Option Reason :=
  let s := lib.showRec k.showNo
  let off (ch : Fin 8) := !(w.monitor.channels.get ch).enabled
  let startOff := match k.mode with
    | .atTime => false
    | .onCondition ch _ => off ch
  if s.state ≠ .closed then some .showNotClosed
  else if startOff || k.stopCond.any off then some .conditionOff
  else if k.zmap.any fun m => m.zones.any fun z => !(w.zone z).configured then some .zoneUnconfigured
  else if s.length = some .endless ∧ k.endTime = none ∧ k.stopCond = none then some .noEnd
  else none

/-- The outcome of a booking just added (R39). -/
def Report.fresh : Report := ⟨.pending, false, none, none, Counters.zero⟩

/-- ADD_BOOKING (R41, R42). An amendment whose arm point has passed is armed at once in every time state,
UNSET too (log entry 29). -/
def World.addBooking (e : Env) (n : Nat) (f : BookingField) (w : World) : World × Answer :=
  forBank w n fun bk =>
    let r := w.bank bk
    if r.state ≠ .loading ∧ r.state ≠ .active then (w, .no .wrongState)
    else match booking? f with
      | .error off => (w, .badField off)
      | .ok k =>
        if (r.find k.id).isSome then (w, .no .inUse)
        else if 48 ≤ r.list.length then (w, .no .noRoom)
        else
          let done (w : World) := (w, Answer.ok [byteOf (r.list.length + 1)])
          let added := w.onBank bk fun r => { r with list := r.list ++ [⟨k, Report.fresh, true⟩] }
          if r.state = .loading then done added
          else match w.sealFault e.lib k with
            | some why => (w, .invalid why none none)
            | none => done (if armPassed e.now r.date k then added.armOne e bk k else added)

/-- The first booking that fails the seal, with its position (R43). -/
def World.sealFrom (lib : Library) (w : World) : Nat → List BankEntry → Option (Reason × Nat × Nat)
  | _, [] => none
  | i, k :: rest =>
    if k.outcome.progress = .cancelled then sealFrom lib w (i + 1) rest
    else match w.sealFault lib k.booking with
      | some why => some (why, k.booking.id, i)
      | none => sealFrom lib w (i + 1) rest

/-- SEAL_PLAN (R43, R44) -/
def World.sealPlan (e : Env) (n : Nat) (w : World) : World × Answer :=
  forBank w n fun bk =>
    let r := w.bank bk
    let other := w.bank bk.other
    if r.state ≠ .loading then (w, .no .wrongState)
    else if other.state = .ready ∧ other.date = r.date then (w, .no .inUse)
    else match w.sealFrom e.lib 0 r.list with
      | some (why, id, i) => (w, .invalid why (some id) (some i))
      | none =>
        (w.onBank bk fun r => { r with state := .ready }, .ok [byteOf r.list.length])

/-- ACTIVATE_PLAN (R45), then the dark test (R178): the passed arm points are armed before it (log entry
41). -/
def World.activatePlan (e : Env) (unset : Bool) (today : Date) (n : Nat) (w : World) :
    World × Answer :=
  forBank w n fun bk =>
    if unset then (w, .no .timeUnset)
    else if (w.bank bk).state ≠ .ready then (w, .no .wrongState)
    else if (w.bank bk).date ≠ today then (w, .no .wrongState)
    else ((w.comeIntoForce e bk).autoDark e, .ok [])

/-- CLEAR_PLAN (R49) -/
def World.clearPlan (n : Nat) (w : World) : World × Answer :=
  forBank w n fun bk =>
    if (w.bank bk).state = .active then (w, .no .wrongState)
    else if w.refersTo bk then (w, .no .inUse)
    else (w.onBank bk fun r => { r with state := .empty, list := [] }, .ok [])

/-! ## Cancelling and amending (R54, R55, R78 to R80) -/

/-- Is a progress value final (TABLE 3-4)? -/
def Progress.final : Progress → Bool
  | .pending => false
  | .waitlisted => false
  | .armed => false
  | .waiting => false
  | .running => false
  | .held => false
  | .ending => false
  | _ => true

/-- Is a booking in a player: ARMED or live? -/
def Progress.inPlayer : Progress → Bool
  | .armed => true
  | .waiting => true
  | .running => true
  | .held => true
  | .ending => true
  | _ => false

/-- The player that holds a booking. -/
def World.playerOf (w : World) (bk : Bank) (id : Nat) : Option (Fin 8) :=
  (upTo 8).find? fun p => (w.player p).ref == some (bk, id)

/-- A graceful cancel taken by a player (R79). -/
def World.cancelGracefully (e : Env) (p : Fin 8) (w : World) : World :=
  match (w.player p).state with
  | .running => (w.endGracefully e p (e.now + Config.horizon) .cancelled false).handAll e p
  | .held =>
    ((w.endGracefully e p (e.now + Config.horizon) .cancelled true).onPlayer p fun c =>
      { c with holdTick := none }).handAll e p
  | .ending => w
  | .free => w
  | _ => w.finish e p .cancelled false

/-- The tests that CANCEL_BOOKING and AMEND_END share (R54, R55). -/
def World.forBooking (w : World) (bk : Bank) (id : Nat) (k : BankEntry → World × Answer) :
    World × Answer :=
  match (w.bank bk).find id with
  | none => (w, .no .notFound)
  | some x =>
    if x.outcome.progress.final ∨ ((w.bank bk).state = .spent ∧ !x.outcome.progress.inPlayer) then
      (w, .no .wrongState)
    else k x

/-- A cancel taken by the player that holds the booking (R79, R80). -/
def World.cancelIn (e : Env) (hard : Bool) (p : Option (Fin 8)) (w : World) : World :=
  match p with
  | none => w
  | some p => if hard then w.finish e p .cancelled true else w.cancelGracefully e p

/-- A cancel by the booking's progress (R54). -/
def World.cancelTaken (e : Env) (bk : Bank) (id : Nat) (hard : Bool) (x : BankEntry) (w : World) :
    World :=
  let drop (w : World) := w.onOutcome bk id fun r => { r with progress := .cancelled }
  match x.outcome.progress with
  | .pending => drop w
  | .waitlisted => drop { w with plans := { w.plans with wait := w.plans.wait.filter (· != id) } }
  | _ => w.cancelIn e hard (w.playerOf bk id)

/-- CANCEL_BOOKING (R54, R79, R80) -/
def World.cancelBooking (e : Env) (n id abrupt : Nat) (w : World) : World × Answer :=
  forBank w n fun bk =>
    match flag? abrupt with
    | none => (w, .badField 2)
    | some hard => w.forBooking bk id fun x => (w.cancelTaken e bk id hard x, .ok [])

/-- Would NONE leave an endless show with nothing to end it (R55)? -/
def needsEnd (lib : Library) (k : Booking) : Bool :=
  let s := lib.showRec k.showNo
  s.state == .closed && s.length == some .endless && k.stopCond.isNone

/-- AMEND_END (R55, R78). The offset 2 and the reason 0, not NO_END, of a NONE that leaves an endless show with
nothing to end it are DESIGN CHOICE, unsafe (R198; log entry 17). -/
def World.amendEnd (e : Env) (n id endTime nextDay : Nat) (w : World) : World × Answer :=
  forBank w n fun bk => w.forBooking bk id fun x =>
    match endTime? 2 endTime nextDay x.booking.start with
    | .error off => (w, .badField off)
    | .ok stop =>
      if stop.isNone && nextDay != 0 then (w, .badField 5)
      else if stop.isNone && needsEnd e.lib x.booking then (w, .badField 2)
      else
        let k := { x.booking with endTime := stop }
        let w' := w.onEntry bk id fun x => { x with booking := { x.booking with endTime := stop } }
        (match w.playerOf bk id with
          | none => w'
          | some p => w'.onPlayer p fun c =>
            let stopAt := k.endPoint (w.bank bk).date
            { c with
              cutFresh := stopAt.any (· ≤ e.now + Config.horizon)
              copy := c.copy.map fun y =>
                { y with booking := { y.booking with endTime := stop }, endPoint := stopAt } }, .ok [])

/-! ## Reading the plans (R56, R57) -/

def World.getBooking (w : World) (n id : Nat) : Answer :=
  match bank? n with
  | none => .badField 0
  | some bk =>
    match (w.bank bk).find id with
    | none => .no .notFound
    | some x => .ok (x.booking.bytes ++ x.outcome.bytes)

/-- One booking of a page of GET_PLAN. -/
def BankEntry.brief (k : BankEntry) : List Byte :=
  [byteOf k.booking.id, byteOf (k.booking.showNo.val + 1)] ++ bigEndian 3 k.booking.start
    ++ [k.outcome.progress.code]

def World.getPlan (w : World) (n : Nat) (page : Option Nat) : Answer :=
  match bank? n with
  | none => .badField 0
  | some bk =>
    let r := w.bank bk
    let head := r.state.code :: r.date.bytes ++ [byteOf r.list.length]
    match page.getD 0 with
    | 0 => .ok (head ++ listBytes (fun id => [byteOf id]) w.plans.wait ++ bigEndian 4 w.plans.armSeq)
    | 1 => .ok (head ++ listBytes BankEntry.brief (r.list.take 24))
    | 2 => .ok (head ++ listBytes BankEntry.brief ((r.list.drop 24).take 24))
    | _ => .badField 1

end Sys2Proof.Machine
end

