-- ==== Sys2Proof/Machine/Monitor.lean ====
section
/-! DEFINITION. The Condition Monitor (Chapter 8): the scan, the judgement of the channels and their
transitions, and its requests. -/

namespace Sys2Proof.Machine

/-- The reading of a contact (R162). -/
def contactReading (closed : Bool) : Nat := if closed then 4095 else 0

/-- The current reading of a channel (R162). -/
def Monitor.reading (m : Monitor) (ch : Fin 8) : Option Nat :=
  match (m.channels.get ch).source with
  | .ain i => m.ain.get i
  | .cin i => m.cin.get i
  | .supplied => m.supplied.get ch

/-- Does a reading match a channel's window (R165)? -/
def Channel.matches (c : Channel) (r : Nat) : Bool :=
  match c.mode with
  | .above => c.high < r
  | .below => r < c.low
  | .inside => c.low ≤ r && r ≤ c.high
  | .outside => r < c.low || c.high < r

/-- The value a sense stands for. -/
def senseValue (sense : Bool) : Verdict := if sense then .yes else .no

/-- A judgement (R166, R167): the channel after it, and whether its value has changed. -/
def Channel.judge (c : Channel) (r : Nat) : Channel × Bool :=
  let sense := c.matches r
  let turned : Channel × Bool :=
    ({ c with value := senseValue sense, streak := 0, sense := none }, true)
  match c.value with
  | .unknown =>
    let streak := if c.streak ≠ 0 ∧ c.sense = some sense then c.streak + 1 else 1
    if c.persist ≤ streak then turned
    else ({ c with streak := streak, sense := some sense }, false)
  | v =>
    if v = senseValue sense then ({ c with streak := 0 }, false)
    else if c.persist ≤ c.streak + 1 then turned
    else ({ c with streak := c.streak + 1 }, false)

/-- The count and the trip record of a transition (R168 steps 2 and 3). -/
def Channel.transited (now r : Nat) (c : Channel) : Channel :=
  { c with
    count := satUp Config.counterMax c.count
    trip := if c.record then some ⟨now, c.value, r⟩ else none }

def World.setChannel (ch : Fin 8) (c : Channel) (w : World) : World :=
  { w with monitor := { w.monitor with channels := w.monitor.channels.set ch c } }

/-- Has a channel a new reading at a scan end: its input converted in the scan, a contact, or a supplied
reading (R164)? -/
def Channel.fresh (converted : List (Fin 4)) (c : Channel) : Bool :=
  match c.source with
  | .ain i => converted.contains i
  | _ => true

/-- A transition taken: counted and recorded, raised, and handed on when it is to TRUE (R168). -/
def World.takeTurn (e : Env) (ch : Fin 8) (c : Channel) (r : Nat) (w : World) : World :=
  let v := (w.setChannel ch (c.transited e.now r)).raise e .conditionChange
  if c.value = .yes then v.turnTrue e ch c.allStop c.wake else v

/-- A judgement's outcome taken. -/
def World.takeJudged (e : Env) (ch : Fin 8) (r : Nat) (j : Channel × Bool) (w : World) : World :=
  if j.2 then w.takeTurn e ch j.1 r else w.setChannel ch j.1

/-- One channel judged at a scan end (R164 to R168). -/
def World.judgeChannel (e : Env) (converted : List (Fin 4)) (ch : Fin 8) (w : World) : World :=
  let c := w.monitor.channels.get ch
  match w.monitor.reading ch with
  | none => w
  | some r => if c.enabled && c.fresh converted then w.takeJudged e ch r (c.judge r) else w

/-- The scan end (R164). -/
def World.scanEnd (e : Env) (converted : List (Fin 4)) (w : World) : World :=
  { w with monitor := { w.monitor with scan := none } }.each (upTo 8) (World.judgeChannel e converted)

/-- The analog inputs that enabled channels use, in ascending order (R164). -/
def Monitor.toConvert (m : Monitor) : List (Fin 4) :=
  (upTo 4).filter fun i => m.channels.any fun c => c.enabled && c.source == .ain i

/-- The scan start, when a tick event has made one due (R163, R164). -/
def World.scanStart (e : Env) (closed : Fin 4 → Bool) (w : World) : World :=
  if !w.monitor.scanDue then w
  else
    let w := { w with monitor :=
      { w.monitor with
        scanDue := false
        cin := Tab.ofFn 4 fun i => some (contactReading (closed i)) } }
    match w.monitor.toConvert with
    | [] => w.scanEnd e []
    | todo => { w with monitor := { w.monitor with scan := some ⟨todo, []⟩ } }

/-- A conversion's end (R164). -/
def World.conversionEnd (e : Env) (reading : Nat) (w : World) : World :=
  match w.monitor.scan with
  | some ⟨i :: rest, did⟩ =>
    let w := { w with monitor :=
      { w.monitor with
        ain := w.monitor.ain.set i (some (min 4095 reading))
        scan := some ⟨rest, did ++ [i]⟩ } }
    if rest.isEmpty then w.scanEnd e (did ++ [i]) else w
  | _ => w

/-- The scan period (R163). -/
def OpState.period : OpState → Nat
  | .dark => 100
  | _ => 10

/-- One tick event on the scan timer (R163). -/
def Monitor.tick (s : OpState) (m : Monitor) : Monitor :=
  if s = .parked then m
  else if s.period ≤ m.timer + 1 then { m with timer := 0, scanDue := true }
  else { m with timer := m.timer + 1 }

/-! ## Requests (R170 to R172) -/

/-- The first test of a condition request. -/
def forChannel (w : World) (n : Nat) (k : Fin 8 → World × Answer) : World × Answer :=
  match index? 8 n with
  | none => (w, .badField 0)
  | some ch => k ch

/-- Does a player that is not FREE name the channel (R170)? -/
def World.channelInUse (w : World) (ch : Fin 8) : Bool :=
  w.players.any fun p => p.state != .free && p.copy.any fun k =>
    k.booking.stopCond == some ch || match k.booking.mode with
      | .onCondition n _ => n == ch
      | .atTime => false

/-- PUT_CONDITION (R170) -/
def World.putCondition (n : Nat) (f : ConditionField) (w : World) : World × Answer :=
  forChannel w n fun ch =>
    match settings? f (w.monitor.channels.get ch) with
    | .error off => (w, .badField off)
    | .ok c =>
      if !c.enabled && w.channelInUse ch then (w, .no .inUse) else (w.setChannel ch c, .ok [])

/-- SET_READING (R171) -/
def World.setReading (n reading : Nat) (w : World) : World × Answer :=
  forChannel w n fun ch =>
    if 4095 < reading then (w, .badField 1)
    else if (w.monitor.channels.get ch).source ≠ .supplied then (w, .no .wrongState)
    else
      ({ w with monitor :=
          { w.monitor with supplied := w.monitor.supplied.set ch (some reading) } }, .ok [])

/-- Condition settings, 10 bytes (section 11.3). -/
def Channel.settingBytes (c : Channel) : List Byte :=
  [flagByte c.enabled, c.source.code, c.mode.code] ++ bigEndian 2 c.low ++ bigEndian 2 c.high
    ++ [byteOf c.persist, flagByte c.record,
      byteOf ((if c.wake then 1 else 0) + (if c.allStop then 2 else 0))]

/-- A trip record, 8 bytes, FFh in each when absent (log entry 14). -/
def tripBytes : Option Trip → List Byte
  | none => List.replicate 8 0xFF#8
  | some t => bigEndian 5 t.tick ++ t.value.code :: bigEndian 2 t.reading

/-- A streak sense: MATCH 0, NO MATCH 1 (TABLE 11-2). -/
def senseByte : Option Bool → Byte
  | none => 0xFF
  | some true => 0
  | some false => 1

/-- GET_CONDITION (R172) -/
def World.getCondition (w : World) (n : Nat) : Answer :=
  match index? 8 n with
  | none => .badField 0
  | some ch =>
    let c := w.monitor.channels.get ch
    .ok (byteOf ch.val :: c.settingBytes ++ [c.value.code, byteOf c.streak, senseByte c.sense]
      ++ bigEndian 2 c.count ++ tripBytes c.trip ++ optBytes 2 (w.monitor.reading ch)
      ++ optBytes 2 (w.monitor.supplied.get ch))

end Sys2Proof.Machine
end

