-- ==== Sys2Proof/Machine/TimeBase.lean ====
section
/-! DEFINITION. The Time Base (Chapter 1): the tick event, the PULSE input, steps and settings of the
time; and what becomes, at the next of these, of points and durations that a tick event has made due
and no command has taken (log entry 2). -/

namespace Sys2Proof.Machine

/-- NOW and the library, as the blocks find them. -/
def State.env (s : State) : Env := ⟨s.time.civic, s.lib⟩

/-- An event of the blocks other than the Time Base, the library and the port. -/
def State.onWorld (f : Env → World → World) (s : State) : State :=
  { s with world := f s.env s.world }

def State.raise (k : NoticeKind) (s : State) : State := s.onWorld fun e => World.raise e k

/-- A new time state, raised when it is a change (R14). -/
def State.enterTime (t : TimeState) (s : State) : State :=
  if s.time.state = t then s
  else { s with time := { s.time with state := t } }.raise .timeState

/-! ## What a tick event left due (log entry 2) -/

/-- The pulse silence has reached 300 while LOCKED (R6). -/
def State.silenceHoldover (s : State) : State :=
  if s.time.state = .locked ∧ 300 ≤ s.time.silence then s.enterTime .holdover else s

/-- Everything due on a link. -/
def World.settleLink (e : Env) (l : Fin 4) (w : World) : World :=
  let w := (w.errorsAge l).each (upTo 16) (World.backoffExpiry l)
  let w := ((w.timeout e l).warmUpEnd e l).restEnd e l
  (w.quiesceEnd l).pump e l

/-- The next free reading (log entry 3). -/
def State.freeReading (s : State) : Nat := (Config.freeReading s.freeCount).toNat

/-- A conversion that no command carried. -/
def State.convertFreely (s : State) : State :=
  match s.world.monitor.scan with
  | none => s
  | some _ =>
    { s.onWorld fun e => World.conversionEnd e s.freeReading with freeCount := s.freeCount + 1 }

/-- A scan start that no command carried. -/
def State.scanFreely (s : State) : State :=
  if s.world.monitor.scanDue then
    { s.onWorld fun e => World.scanStart e fun i =>
        (Config.freeReading (s.freeCount + i.val)).getLsbD 0 with freeCount := s.freeCount + 4 }
  else s

/-- The reach that a tick event left open, acted on by every block (R3). -/
def State.closeReach (s : State) : State :=
  if s.reachOpen then
    { s.onWorld fun e w => (w.reach e).pumpAll e with reachOpen := false }
  else s

/-- A HOLDOVER that is due, entered as an event of its own: a FREE output may begin a frame (R6, R191). -/
def State.meetHoldover (s : State) : State := s.silenceHoldover.choose

/-- What the last tick event made due on the Time Base and in civic time, acted on before the time changes
by a pulse or a request, each an event of its own (R191; log entry 2). -/
def State.meet (s : State) : State := s.meetHoldover.closeReach.choose

/-- Everything the last tick event made due and no command has taken, in one order, each an event of its
own (R191; log entry 2). -/
def State.settle (s : State) : State :=
  let s := (upTo 4).foldl (fun s l => (s.onWorld fun e => World.settleLink e l).choose) s.meetHoldover
  let s := (upTo 4).foldl (fun s _ => s.convertFreely.choose) s.scanFreely.choose
  (s.onWorld fun e w => (w.guardExpiry e).pumpAll e).choose.closeReach.choose

/-! ## The tick event (R1, R2) -/

/-- One tick of the dark-guard timer (R178). -/
def Controller.tick (c : Controller) : Controller :=
  { c with guard := if c.state = .active then satUp Config.darkGuardPeriod c.guard else c.guard }

/-- One tick of every duration (R1). -/
def World.tick (w : World) : World :=
  { w with
    links := Tab.ofFn 4 fun l => (w.link l).tick (w.configured l)
    monitor := w.monitor.tick w.ctl.state
    ctl := w.ctl.tick }

/-- The advance of the time of day (R1, R2). -/
def State.advance (s : State) : State :=
  if s.time.state = .unset then s
  else if s.time.tod + 1 < Config.ticksPerDay then
    { s with
      time := { s.time with tod := s.time.tod + 1 }
      world := s.world.openReach
      reachOpen := true }
  else if s.time.date = lastDate then s.enterTime .unset
  else
    let d := s.time.date.next
    { { s with time := { s.time with date := d, tod := 0 } }.onWorld fun e w =>
        ((w.dayRoll e d).pumpAll e).openReach with reachOpen := true }

/-- TICK_EVENT (R1, R2). A last tick of the range that also brings the silence to 300 goes from LOCKED straight
to UNSET (log entry 38). -/
def State.tick (s : State) : State :=
  let s := s.settle
  { s with
    time := { s.time with silence := satUp Config.counterMax s.time.silence }
    world := s.world.tick }.advance

/-! ## Steps (R8, R9) -/

/-- A reach at the part's civic tick. -/
def State.reach (s : State) : State := s.onWorld fun e w => (w.openReach.reach e).pumpAll e

/-- A forward step of `n` ticks (R8). In a step across midnight NOW is the step's last tick from the day roll
on (log entry 36). -/
def State.stepForward (n : Nat) (s : State) : State :=
  if n = 0 then s
  else if s.time.tod + n < Config.ticksPerDay then
    { s with time := { s.time with tod := s.time.tod + n } }.reach
  else
    let old := { s with time := { s.time with tod := Config.ticksPerDay - 1 } }.reach
    if s.time.date = lastDate then old
    else
      let d := s.time.date.next
      ({ old with time := { old.time with date := d, tod := s.time.tod + n - Config.ticksPerDay } }.onWorld
        fun e => World.dayRoll e d).reach

/-- A backward step of `n` ticks, clamped at midnight (R9). -/
def State.stepBack (n : Nat) (s : State) : State :=
  { s with time := { s.time with tod := s.time.tod - n } }

/-- A step of `d` ticks forward, or backward where `d` is negative. -/
def State.stepBy (d : Int) (s : State) : State :=
  if 0 ≤ d then s.stepForward d.toNat else s.stepBack (-d).toNat

/-- How many ticks the time moved between two states (R9, R14). -/
def movedBy (old new : TimeBase) : Nat := ((new.civic : Int) - old.civic).natAbs

/-! ## PULSE (R4, R5) -/

/-- Is an edge taken as a pulse (R4)? -/
def TimeBase.takes (t : TimeBase) (edge : Edge) : Bool :=
  t.enabled && t.polarity == edge && t.state != .unset

/-- A pulse taken. -/
def State.pulse (s : State) : State :=
  let e := phaseError s.time.tod
  let s := { s with time := { s.time with lastError := some e, silence := 0 } }
  let lock (s : State) :=
    let t := s.stepBy (-e)
    { t with time := { t.time with faults := 0 } }.enterTime .locked
  if inLockWindow e then
    let t := lock s
    if 2 < movedBy s.time t.time then t.raise .timeStepped else t
  else if s.time.faults < 2 then { s with time := { s.time with faults := s.time.faults + 1 } }
  else (lock s).raise .timeStepped

/-! ## Requests (R7, R10 to R13) -/

/-- SET_PULSE (R7), after a HOLDOVER that the last tick event has made due (R6, log entry 2). -/
def State.putPulse (enable polarity : Nat) (s : State) : State × Answer :=
  match flag? enable, flag? polarity with
  | none, _ => (s, .badField 0)
  | _, none => (s, .badField 1)
  | some on, some falling =>
    let s := s.meetHoldover
    let s' := { s with time := { s.time with
      enabled := on, polarity := if falling then .falling else .rising, faults := 0, silence := 0 } }
    (if !on && (s.time.state == .locked || s.time.state == .holdover) then s'.enterTime .free else s',
      .ok [])

/-- A trim of `d` ticks (R11). -/
def State.trim (d : Int) (s : State) : State :=
  let s' := s.stepBy d
  let s'' := { s' with time := { s'.time with faults := 0 } }.enterTime .free
  if 2 < movedBy s.time s'.time then s''.raise .timeStepped else s''

/-- A jump to a date and time (R12). -/
def State.jump (d : Date) (tod : Nat) (s : State) : State :=
  let s' := { s with
    time := { s.time with date := d, tod := tod, faults := 0, silence := 0 } }.enterTime .free
  let s' := if s.time.date = d ∧ s.time.tod = tod then s' else s'.raise .timeStepped
  if s.time.date = d then s' else s'.onWorld fun e w => (w.dateSet e d).pumpAll e

/-- The resulting date, time of day and time state. -/
def TimeBase.settingBytes (t : TimeBase) : List Byte :=
  t.date.bytes ++ bigEndian 3 t.tod ++ [t.state.code]

/-- A valid SET_TIME judged and carried out on the part as it stands (R10). -/
def State.setTo (d : Date) (tod : Nat) (s : State) : State × Answer :=
  let diff : Int := (civic d tod : Int) - s.time.civic
  if s.time.state ≠ .unset ∧ 100 < diff.natAbs ∧ s.world.anyLive then (s, .no .showsActive)
  else
    let s' := if s.time.state ≠ .unset ∧ diff.natAbs ≤ 100 then s.trim diff else s.jump d tod
    (s', .ok s'.time.settingBytes)

/-- SET_TIME (R10): what is due in civic time is acted on first, and the request is judged on what that
leaves (log entry 25). -/
def State.putTime (year month day tod : Nat) (s : State) : State × Answer :=
  let d : Date := ⟨year, month, day⟩
  if year < 2000 ∨ 2099 < year then (s, .badField 0)
  else if month = 0 ∨ 12 < month then (s, .badField 2)
  else if !d.valid then (s, .badField 3)
  else if Config.ticksPerDay ≤ tod then (s, .badField 4)
  else s.meet.setTo d tod

/-- A last phase error, 80h when absent (R198). -/
def errorByte : Option Int → Byte
  | none => 0x80
  | some e => BitVec.ofInt 8 e

/-- GET_TIME (R13) -/
def TimeBase.report (t : TimeBase) : Answer :=
  .ok (t.settingBytes ++ [byteOf t.faults, flagByte t.enabled,
    (match t.polarity with | .rising => 0 | .falling => 1)] ++ bigEndian 2 t.silence
    ++ [errorByte t.lastError])

end Sys2Proof.Machine
end

