-- ==== Sys2Proof/Machine/Requests.lean ====
section
/-! DEFINITION. The requests on zones (Chapter 5), the part's operating state (Chapter 9) and the
notices (Chapter 10), the reading of players and links (Chapters 4, 7), and the one table that hands
each request to its block (R190). -/

namespace Sys2Proof.Machine

/-! ## Zones (R108 to R111) -/

/-- A change of a zone's configured value (R109). -/
def World.configureZone (e : Env) (z : Fin 64) (on : Bool) (w : World) : World :=
  if (w.zone z).configured = on then w
  else if on then (w.onZone z fun r => { r with configured := true }).pollNewDriver z
  else ((w.withdrawTake e z).forgetDriver e z).onZone z fun r =>
    { r with configured := false, committed := none }

/-- The first test of a zone request (section 5.7). -/
def forZone (w : World) (n : Nat) (k : Fin 64 → World × Answer) : World × Answer :=
  match index? 64 n with
  | none => (w, .badField 0)
  | some z => k z

/-- PUT_ZONE (R108) -/
def World.putZone (e : Env) (n configured fallback lead : Nat) (w : World) : World × Answer :=
  forZone w n fun z =>
    match flag? configured, index? 256 fallback with
    | none, _ => (w, .badField 1)
    | some _, none => (w, .badField 2)
    | some on, some look =>
      if 20 < lead then (w, .badField 3)
      else if !on && (w.zone z).configured && !(w.zone z).claims.isEmpty then (w, .no .inUse)
      else
        ((w.onZone z fun r => { r with fallback := look, lead := lead }).configureZone e z on, .ok [])

/-- SET_LEAD (R110) -/
def World.setLead (n lead : Nat) (w : World) : World × Answer :=
  forZone w n fun z =>
    if 20 < lead then (w, .badField 1)
    else (w.onZone z fun r => { r with lead := lead }, .ok [])

/-- A claim of a zone snapshot, 8 bytes (section 11.3). -/
def Claim.bytes (c : Claim) : List Byte :=
  [byteOf c.player.val, byteOf c.cls, byteOf c.sub] ++ bigEndian 4 c.seq ++ [byteOf c.part.val]

/-- The zone snapshot (section 11.3). -/
def World.zoneBytes (w : World) (z : Fin 64) : List Byte :=
  let r := w.zone z
  [byteOf z.val, byteOf (zoneLink z).val, byteOf ((zoneAddr z).val + 1), flagByte r.configured,
    (w.driver (zoneLink z) (zoneAddr z)).state.code, playerByte r.owner]
    ++ heldLookBytes r.committed
    ++ [byteOf r.fallback.val, byteOf r.lead,
      match r.take with
      | none => 0xFF
      | some (_, k) => k.code]
    ++ listBytes Claim.bytes r.claims

/-- GET_ZONE (R111) -/
def World.getZone (w : World) (n : Nat) : Answer :=
  match index? 64 n with
  | none => .badField 0
  | some z => .ok (w.zoneBytes z)

/-! ## Reading a player (R88, TABLE 11-6) -/

/-- A walk position: FFh in every byte when absent, section FEh at END (log entry 14). -/
def walkBytes : Option Walk → List Byte
  | none => optBytes 5 none
  | some .past => 0xFE#8 :: List.replicate 4 0#8
  | some (.stands g) => g.bytes

def playBytes : Option PlayPos → List Byte
  | none => optBytes 10 none
  | some q => q.id.bytes ++ bigEndian 5 q.due

def passesByte : Option Passes → Byte
  | some (.left n) => byteOf n
  | _ => 0#8

/-- What is reported of the booking copy, FFh in every byte for a FREE player (log entry 14). -/
def Player.copyBytes (c : Player) : List Byte :=
  match c.booking? with
  | none => optBytes 5 none
  | some k => [byteOf (k.showNo.val + 1), byteOf k.cls, byteOf k.sub, k.mode.code, c.mark.code]

def Player.bytes (p : Fin 8) (c : Player) : List Byte :=
  let refBytes := match c.ref with
    | none => [0xFF#8, 0#8]
    | some (bk, id) => [bk.code, byteOf id]
  [byteOf p.val, c.state.code] ++ refBytes ++ c.copyBytes ++ bigEndian 4 c.armSeq
    ++ optBytes 5 (c.copy.bind (·.endPoint)) ++ optBytes 5 c.epoch ++ walkBytes c.walk
    ++ [passesByte c.passes, byteOf (c.latch.getD 0)] ++ playBytes c.play
    ++ byteOf c.hands.length :: optBytes 5 (c.hands.head?.map (·.due))
    ++ c.looks.list.flatMap heldLookBytes ++ optBytes 5 c.holdTick
    ++ [((c.cause.map EndCause.code).getD 0xFF)] ++ optBytes 5 c.release ++ optBytes 5 c.startTick
    ++ c.counters.bytes

/-- GET_PLAYER (R88) -/
def World.getPlayer (w : World) (n : Nat) : Answer :=
  match index? 8 n with
  | none => .badField 0
  | some p => .ok ((w.player p).bytes p)

/-! ## Reading a link (R158, R137, TABLE 11-7) -/

def tagBytes : Option TagHold → List Byte
  | none => 0xFF#8 :: List.replicate 6 0#8
  | some h => byteOf h.player.val :: h.go.code :: h.id.bytes

def Item.isGroup : Item → Bool
  | .group .. => true
  | .single .. => false

def Link.page0 (k : Link) : List Byte :=
  let transfer := match k.transfer with
    | none => optBytes 4 none
    | some t => [byteOf t.frame.kind, byteOf (t.addr.val + 1), byteOf t.attempt, byteOf t.ticks]
  let op := match k.lastOp with
    | none => optBytes 3 none
    | some o => [if o.isScan then 0#8 else 1#8, o.result.code, byteOf o.count]
  [flagByte k.enabled, k.state.code, flagByte k.power] ++ bigEndian 2 k.timer ++ transfer
    ++ [byteOf k.pending.length, byteOf k.errors.length] ++ bigEndian 2 k.errorTotal ++ op
    ++ [byteOf k.stage.length, byteOf (stageLevel k.stage.length)]
    ++ bigEndian 2 (k.deferred.countP Item.isGroup)
    ++ [byteOf (k.deferred.countP fun i => !i.isGroup)] ++ k.tags.list.flatMap tagBytes

/-- A driver record, 15 bytes. -/
def Driver.bytes (configured : Bool) (d : Driver) : List Byte :=
  let timing := match d.refresh with
    | none => List.replicate 6 0#8
    | some r => bigEndian 2 (d.silence.getD 0) ++ bigEndian 2 (d.latency.getD 0) ++ bigEndian 2 r
  [flagByte configured, d.state.code, byteOf d.credits, byteOf d.occupied] ++ optBytes 1 d.slotsFree
    ++ timing ++ bigEndian 2 d.quiet ++ [flagByte (d.backoff != .clear), byteOf d.poll]

def GoEntry.bytes (g : GoEntry) : List Byte :=
  byteOf (tagNo g.tag) :: bigEndian 5 g.due ++ bigEndian 5 g.send
    ++ [byteOf ((if g.ready then 1 else 0) + (if g.sent then 2 else 0))]

/-- A stage entry, 11 bytes. -/
def Entry.bytes (l : Fin 4) (x : Entry) : List Byte :=
  [byteOf (zoneAt l x.addr).val, if x.group.isSome then 0#8 else 1#8, playerByte x.player, byteOf x.tag,
    x.state.code] ++ bigEndian 5 x.due ++ [byteOf x.hold]

/-- The contents of a page. -/
def World.linkPage (w : World) (l : Fin 4) (page : Nat) : List Byte :=
  let k := w.link l
  let drivers (from0 : Nat) := ((upTo 16).filter fun a => from0 ≤ a.val && a.val < from0 + 8).flatMap
    fun a => (k.drivers.get a).bytes (w.configured l a)
  let entries (i n : Nat) := byteOf k.stage.length :: ((k.stage.drop i).take n).flatMap (Entry.bytes l)
  match page with
  | 0 => k.page0
  | 1 => drivers 0
  | 2 => drivers 8
  | 3 => listBytes GoEntry.bytes k.gos
  | 4 => entries 0 20
  | 5 => entries 20 20
  | _ => entries 40 8

/-- GET_LINK (R158) -/
def World.getLink (w : World) (n : Nat) (page : Option Nat) : Answer :=
  match index? 4 n with
  | none => .badField 0
  | some l =>
    if 6 < page.getD 0 then .badField 1
    else .ok (byteOf l.val :: byteOf (page.getD 0) :: w.linkPage l (page.getD 0))

/-! ## Operating state (R181, R184) -/

def World.setAuto (on : Bool) (w : World) : World := { w with ctl := { w.ctl with auto := on } }

/-- DARK asked for in ACTIVE (R181): entered when the dark test passes. -/
def World.askDark (e : Env) (on : Bool) (w : World) : Except Code World :=
  if w.darkTest e = .entered then .ok (((w.setAuto on).recordTest e .entered).enterDark e .request)
  else .error .showsActive

/-- PARKED asked for in ACTIVE (R181): entered when every player is FREE. -/
def World.askParked (e : Env) (on : Bool) (w : World) : Except Code World :=
  if w.allFree then .ok ((w.setAuto on).park e) else .error .showsActive

/-- A state asked for, in the state the part is in (R181). -/
def World.askState (e : Env) (on : Bool) (w : World) : OpState → OpState → Except Code World
  | .active, .active => .ok ((w.setAuto on).autoDark e)
  | .active, .dark => .ok ((w.setAuto on).wakeCause e .request)
  | .active, .parked => .ok (((w.setAuto on).unpark e).armBatch e true)
  | .dark, .active => w.askDark e on
  | .dark, .dark => .ok (w.setAuto on)
  | .dark, .parked => .error .wrongState
  | .parked, .active => w.askParked e on
  | .parked, .dark => .ok ((w.setAuto on).park e)
  | .parked, .parked => .ok (w.setAuto on)

/-- The answer to SET_STATE: the operating state and the auto-dark setting (section 9.5). -/
def World.stateAnswer (w : World) : Except Code World → World × Answer
  | .ok v => (v, .ok [v.ctl.state.code, flagByte v.ctl.auto])
  | .error c => (w, .no c)

/-- SET_STATE (R181) -/
def World.setState (e : Env) (op auto : Nat) (w : World) : World × Answer :=
  match opState? op, flag? auto with
  | none, _ => (w, .badField 0)
  | _, none => (w, .badField 1)
  | some s, some on => w.stateAnswer (w.askState e on s w.ctl.state)

/-- The place of a dark test's result in TABLE 9-1's order, ENTERED first. -/
def DarkResult.no : DarkResult → Nat
  | .entered => 0
  | .autoOff => 1
  | .players => 2
  | .waitList => 3
  | .bookingSoon => 4

/-- The place of a cause in TABLE 9-1's order. -/
def ChangeCause.no : ChangeCause → Nat
  | .auto => 0
  | .request => 1
  | .arming => 2
  | .condition => 3
  | .restart => 4

/-- The arm points of the PENDING bookings of the ACTIVE bank. -/
def World.armPoints (w : World) : List Nat :=
  match w.activeBank with
  | none => []
  | some bk =>
    ((w.bank bk).list.filter fun k => k.outcome.progress == .pending).map fun k =>
      k.booking.startPoint (w.bank bk).date - Config.armLead

def least : List Nat → Option Nat
  | [] => none
  | x :: rest => some (rest.foldl min x)

/-- GET_STATE (R184); the codes of the result and of the cause are free values (log entry 4). -/
def World.getState (w : World) : Answer :=
  let c := w.ctl
  let test := match c.lastTest with
    | none => optBytes 6 none
    | some t => bigEndian 5 t.tick ++ [Config.darkResultCode t.result.no]
  let change := match c.lastChange with
    | none => optBytes 7 none
    | some t => bigEndian 5 t.tick ++ [t.state.code, Config.changeCauseCode t.cause.no]
  .ok ([c.state.code, flagByte c.auto] ++ bigEndian 2 c.guard ++ test
    ++ c.asleep.list.map flagByte ++ c.restartWake.list.map flagByte ++ change
    ++ [byteOf (w.players.list.countP fun p => p.state != .free), byteOf w.plans.wait.length]
    ++ optBytes 5 (least w.armPoints))

/-! ## Notices and identification (R194 to R196) -/

/-- A notice record in GET_NOTICES. -/
def Notice.bytes (n : Notice) : List Byte :=
  [flagByte n.pending, flagByte n.sent, byteOf n.count] ++ optBytes 5 n.first ++ optBytes 5 n.last

/-- GET_NOTICES (R195) -/
def State.getNotices (s : State) : Answer :=
  .ok (bigEndian 2 s.port.mask.toNat ++ s.world.notices.list.flatMap Notice.bytes
    ++ bigEndian 2 s.port.checkErrors ++ bigEndian 2 s.port.overrunCount)

/-- The pending marks as a mask (R198). -/
def pendingMask (t : Tab Notice 16) : Nat :=
  ((upTo 16).map fun k => if (t.get k).pending then 2 ^ k.val else 0).sum

/-- CLEAR_NOTICES (R195): a notice frame in progress for a cleared kind will not set its sent mark. -/
def State.clearNotices (mask : Nat) (s : State) : State × Answer :=
  let notices := Tab.ofFn 16 fun k =>
    if mask.testBit k.val then Notice.clear else s.world.notices.get k
  let out := s.port.out.map fun f =>
    match f with
    | .notice k c a z live => .notice k c a z (live && !mask.testBit k.val)
    | f => f
  ({ s with
      world := { s.world with notices := notices }
      port := { s.port with out := out } }, .ok (bigEndian 2 (pendingMask notices)))

/-- SUBSCRIBE (R194) -/
def State.subscribe (mask : Nat) (s : State) : State × Answer :=
  ({ s with port := { s.port with mask := BitVec.ofNat 16 mask } },
    .ok (bigEndian 2 (BitVec.ofNat 16 mask).toNat))

/-- A text of IDENT: eight bytes (R198). -/
def textBytes (t : List Nat) : List Byte := (t ++ List.replicate (8 - t.length) 0).map byteOf

/-- The bits a second that RATE selects (TABLE 10-5). -/
def lineRate (high : Bool) : Nat := if high then 460800 else 115200

/-- IDENT (R196): "Vorneka", "LB-7240", and the figures. The line rate takes four bytes (log entry 14). -/
def identBytes (rateHigh : Bool) : List Byte :=
  textBytes [0x56, 0x6F, 0x72, 0x6E, 0x65, 0x6B, 0x61]
    ++ textBytes [0x4C, 0x42, 0x2D, 0x37, 0x32, 0x34, 0x30]
    ++ [1#8] ++ bigEndian 4 (lineRate rateHigh) ++ [4#8, 240#8, 8#8, 64#8, 4#8, 8#8, 32#8]
    ++ bigEndian 2 256 ++ [128#8]

/-! ## The table (TABLE 0-6) -/

/-- A request that changes the blocks: when it is carried out, the links may have a frame to send. -/
def State.change (f : Env → World → World × Answer) (s : State) : State × Answer :=
  let (w, a) := f s.env s.world
  ({ s with world := if a.code = .ok ∨ a.code = .started then w.pumpAll s.env else w }, a)

/-- A request on the library alone. -/
def State.onLib (f : Library → Library × Answer) (s : State) : State × Answer :=
  let (lib, a) := f s.lib
  ({ s with lib := lib }, a)

/-- Each request at its block (R190 step 3). -/
def serveRequest (r : Request) (s : State) : State × Answer :=
  match r with
  | .setTime y m d t => s.putTime y m d t
  | .getTime => (s, s.time.report)
  | .setPulse e p => s.putPulse e p
  | .putLook n a b c d f => s.onLib fun lib => lib.putLook n ⟨a, b, c, d, f⟩
  | .getLook n => (s, s.lib.getLook n)
  | .openShow n name => s.onLib fun lib => lib.openShowAs n name
  | .addSection n k l p => s.onLib fun lib => lib.addSection n k l p
  | .addCues n cs => s.onLib fun lib => lib.addCues n cs
  | .closeShow n => s.onLib fun lib => lib.closeShow n
  | .dropShow n => s.onLib fun lib => lib.dropShow n s.world.usesShow
  | .getShow n i => (s, s.lib.getShow n i)
  | .getPool => (s, s.lib.getPool)
  | .openPlan b y m d => s.change fun _ => World.openPlan b ⟨y, m, d⟩
  | .addBooking b k => s.change fun e => World.addBooking e b k
  | .sealPlan b => s.change fun e => World.sealPlan e b
  | .activatePlan b =>
    s.change fun e => World.activatePlan e (s.time.state == .unset) s.time.date b
  | .clearPlan b => s.change fun _ => World.clearPlan b
  | .cancelBooking b i a => s.change fun e => World.cancelBooking e b i a
  | .amendEnd b i t n => s.change fun e => World.amendEnd e b i t n
  | .getBooking b i => (s, s.world.getBooking b i)
  | .getPlan b p => (s, s.world.getPlan b p)
  | .getPlayer p => (s, s.world.getPlayer p)
  | .hold p => s.change fun e => World.hold e p
  | .resume p => s.change fun e => World.resume e p
  | .setPasses p n => s.change fun e => World.setPasses e p n
  | .putZone z c f l => s.change fun e => World.putZone e z c f l
  | .getZone z => (s, s.world.getZone z)
  | .setLead z l => s.change fun _ => World.setLead z l
  | .enableLink l => s.change fun e => World.enableLink e l
  | .disableLink l => s.change fun e => World.disableLink e l
  | .scanLink l => s.change fun e => World.scanLink e l
  | .calibrateLink l => s.change fun e => World.calibrateLink e l
  | .getLink l p => (s, s.world.getLink l p)
  | .putCondition n c => s.change fun _ => World.putCondition n c
  | .getCondition n => (s, s.world.getCondition n)
  | .setReading n r => s.change fun _ => World.setReading n r
  | .getNotices => (s, s.getNotices)
  | .clearNotices m => s.clearNotices m
  | .subscribe m => s.subscribe m
  | .setState o a => s.change fun e => World.setState e o a
  | .getState => (s, s.world.getState)
  | .restart => (s, .ok [])
  | .ident => (s, .ok (identBytes s.port.rateHigh))
  | .loopback b => (s, .ok b)

end Sys2Proof.Machine
end

