-- ==== Sys2Proof/Machine/Restart.lean ====
section
/-! DEFINITION. The warm restart as one event at every block (R186), and the part while RESET is held
(R185). -/

namespace Sys2Proof.Machine

/-- TABLE 1-7 -/
def TimeBase.warm (t : TimeBase) : TimeBase :=
  { t with
    state := if t.state = .unset then .unset else .free
    faults := 0
    silence := 0 }

/-- Is a progress value live (TABLE 3-4)? -/
def Progress.live : Progress → Bool
  | .waiting => true
  | .running => true
  | .held => true
  | .ending => true
  | _ => false

/-- A booking's outcome after a warm restart (R59). -/
def World.warmEntry (w : World) (now : Nat) (bk : Bank) (k : BankEntry) : BankEntry :=
  let r := k.outcome
  let counters := match w.playerOf bk k.booking.id with
    | some p => (w.player p).counters
    | none => r.counters
  let r := if r.progress = .waitlisted ∨ r.progress = .armed then { r with progress := .pending }
    else if r.progress.live then
      { r with progress := .aborted, abrupt := true, endTick := some now, counters := counters }
    else r
  { k with outcome := r, armHeld := true }

def World.warmBank (w : World) (now : Nat) (bk : Bank) : BankRec :=
  { w.bank bk with list := (w.bank bk).list.map (w.warmEntry now bk) }

/-- TABLE 5-4 -/
def Zone.warm (z : Zone) : Zone := { z with claims := [], committed := none, take := none }

/-- TABLE 7-9, R138, R161; a WAKE or FORCE owed and a broadcast on the wire are forgotten (log entry 32). -/
def Link.warm (k : Link) : Link :=
  { Link.cold with
    enabled := k.enabled
    power := k.enabled
    state := if k.enabled then .warming else .off
    errorTotal := k.errorTotal
    lastOp := k.lastOp }

/-- TABLE 9-3, R186 -/
def World.warmCtl (w : World) (now : Nat) : Controller :=
  { Controller.cold with
    auto := w.ctl.auto
    restartWake := w.links.map fun k => k.enabled && w.ctl.state == .dark
    lastChange := some ⟨now, .active, .restart⟩ }

/-- WARM_RESTART alone pending (TABLE 10-6). -/
def warmNotices (now : Nat) : Tab Notice 16 := (Tab.fill 16 Notice.clear).set 1 (Notice.fresh now)

def World.warm (now : Nat) (w : World) : World :=
  { plans := ⟨w.warmBank now .a, w.warmBank now .b, [], w.plans.armSeq⟩
    players := Tab.fill 8 Player.free
    zones := w.zones.map Zone.warm
    groups := []
    links := w.links.map Link.warm
    monitor := w.monitor.stop
    ctl := w.warmCtl now
    notices := warmNotices now
    nextRef := w.nextRef }

/-- TABLE 10-6 -/
def Port.warm (p : Port) : Port :=
  { p with rx := .hunt, queue := [], slot := none, overruns := [], out := none }

/-- The warm restart (R186). A reach that a tick event has handed is acted on before it by the blocks as
they stood (R16, log entry 2); a scan due or in progress is abandoned (R164, R175). -/
def State.warmRestart (s : State) : State :=
  let s := s.closeReach
  { s with
    time := s.time.warm
    lib := s.lib.warm
    world := s.world.warm s.time.civic
    port := s.port.warm }

/-- RESET asserted (R185): the link power outputs OFF, nothing sent on any line. -/
def State.holdReset (s : State) : State :=
  { s with
    held := true
    world := { s.world with links := s.world.links.map fun k => { k.silent with power := false } }
    port := { s.port with out := none } }

end Sys2Proof.Machine
end

