-- ==== Sys2Proof/Machine/Port.lean ====
section
/-! DEFINITION. The Host Line Port (Chapter 10): queueing and taking requests, the end of a frame, breaks. -/

namespace Sys2Proof.Machine

/-! ## The input queue (R189, R190) -/

/-- The reply to a request, judged and served (R190). -/
def HostFrame.serve (f : HostFrame) (s : State) : State × Reply :=
  match f.judged with
  | .badKind => (s, ⟨f.kind, f.tag, .badKind, []⟩)
  | .badLength => (s, ⟨f.kind, f.tag, .badLength, []⟩)
  | .ok r =>
    let (s, a) := serveRequest r s
    (s, ⟨f.kind, f.tag, a.code, a.body⟩)

/-- The port takes the head of the queue when the reply slot is empty (R190). -/
def State.takeNext (s : State) : State :=
  match s.port.slot, s.port.queue with
  | none, f :: rest =>
    let (s', r) := f.serve { s with port := { s.port with queue := rest } }
    { s' with port := { s'.port with slot := some r } }
  | _, _ => s

/-- A whole frame arrives: it is queued, or overrun (R189). -/
def State.whole (f : HostFrame) (s : State) : State :=
  let p := s.port
  if p.queue.length < 4 then
    { s with port := { p with queue := p.queue ++ [f] } }.takeNext.choose
  else
    { s with port :=
      { p with
        overrunCount := satUp Config.counterMax p.overrunCount
        overruns := if p.overruns.length < 4 then p.overruns ++ [(f.kind, f.tag)] else p.overruns }
      }.choose

/-- A failed frame counted (R188). -/
def Port.failed (p : Port) : Port := { p with checkErrors := satUp Config.counterMax p.checkErrors }

/-- Does the port receive (R185, R192)? -/
def State.receives (s : State) : Bool := !s.held && !s.port.breakHeld

/-- A whole frame of the host, from its start byte, which fails a frame partly received (R188; log
entry 5). -/
def State.arrive (f : HostFrame) (s : State) : State :=
  if !s.receives then s
  else
    (if s.port.rx = .hunt then s else { s with port := { s.port.failed with rx := .hunt } }).whole f

/-- One byte of the host (R188). -/
def State.hostByte (s : State) (x : RxByte) : State :=
  let (rx, ev) := rxByte s.port.rx x
  let s := { s with port := { s.port with rx := rx } }
  match ev with
  | .nothing => s
  | .failed => { s with port := s.port.failed }
  | .whole kind tag body => s.whole ⟨kind, tag, parseRequest kind body⟩

/-- A run of bytes of the host. -/
def State.hostBytes (bytes : List RxByte) (s : State) : State :=
  if !s.receives then s else bytes.foldl State.hostByte s

/-- The request a command carries, as a whole frame. -/
def State.request (tag : Nat) (r : Request) (s : State) : State := s.arrive ⟨r.kind, tag, .ok r⟩

/-! ## The end of a frame, and breaks (R191, R192) -/

/-- Is a reply the OK of RESTART (R186)? -/
def Reply.restarts (r : Reply) : Bool := r.kind == Request.restart.kind && r.code == .ok

/-- A notice's last byte sent: the kind is marked SENT, unless it was cleared meanwhile (R193, R195). -/
def State.noticeSent (k : Fin 16) (live : Bool) (s : State) : State :=
  if live then
    { s with world := { s.world with notices := s.world.notices.upd k fun n => { n with sent := true } } }
  else s

/-- HOST_FRAME_SENT (R191): the next request is taken before the output is FREE to choose, so what that
request finds due begins no frame ahead of its reply. -/
def State.hostFrameSent (s : State) : State :=
  let free := { s with port := { s.port with out := none } }
  match s.port.out with
  | none => s
  | some (.overrun ..) => free.choose
  | some (.notice k _ _ _ live) => (free.noticeSent k live).choose
  | some (.reply r) =>
    if r.restarts then { free with port := { free.port with slot := none } }.warmRestart.choose
    else
      let t := { s with port := { s.port with slot := none } }.takeNext
      { t with port := { t.port with out := none } }.choose

/-- HOST_BREAK (R192) -/
def State.hostBreak (s : State) : State :=
  if s.port.breakHeld then s
  else
    let p := s.port
    let cut := { s with port :=
      { p with rx := .hunt, queue := [], overruns := [], slot := none, out := none, breakHeld := true } }
    (if p.slot.any Reply.restarts then cut.warmRestart else cut).choose

/-- BREAK_END (R192) -/
def State.breakEnd (s : State) : State := { s with port := { s.port with breakHeld := false } }

end Sys2Proof.Machine
end

