-- ==== Sys2Proof/Machine/Commands.lean ====
section
/-! DEFINITION. The meanings of the commands: one definition for each row of spec/opcode_table.json. A
command that stands for a point or a duration acts when that point or duration is due, and otherwise
leaves the part as it is (log entry 2). -/

namespace Sys2Proof.Machine

abbrev Result := Host.Outcome State Fault Refusal

/-- An event of the part: none is taken while RESET is held (R185), and at its end a FREE output may
begin a frame (R191). -/
def State.event (f : State → State) (s : State) : Result :=
  .next (if s.held then s else (f s).choose)

/-- An event of the blocks, taken when it is due; the links then choose their frames (R143). -/
def State.dueEvent (due : State → Bool) (f : Env → World → World) (s : State) : Result :=
  s.event fun s => if due s then s.onWorld fun e w => (f e w).pumpAll e else s

/-- An event of one link, taken when it is due; the link then chooses its frame (R143). -/
def State.linkEvent (l : Fin 4) (due : World → Bool) (f : Env → World → World) (s : State) : Result :=
  s.event fun s => if due s.world then s.onWorld fun e w => (f e w).pump e l else s

/-- A point of a player, taken when the reach is open and it is the player's first (R61). -/
def State.pointEvent (p : Fin 8) (k : PointKind) (ok : Env → Player → Bool) (s : State) : Result :=
  s.dueEvent
    (fun s => s.reachOpen && s.env.firstPoint (s.world.player p) == some k
      && ok s.env (s.world.player p))
    fun e w => w.act e p k

/-! ## Events of timekeeping -/

/-- TICK_EVENT (R1 to R3) -/
def execTickEvent (s : State) : Result := s.event State.tick

/-- PULSE (R4, R5, R8, R9) -/
def execPulse (edge : Edge) (s : State) : Result :=
  s.event fun s => if s.time.takes edge then s.meet.pulse else s

/-- PULSE_SILENCE_HOLDOVER (R6) -/
def execPulseSilenceHoldover (s : State) : Result := s.event State.silenceHoldover

/-! ## Points of a reach -/

/-- The first due arm point acted on, in the order of R51. -/
def World.armFirst (e : Env) (w : World) : World :=
  match w.activeBank with
  | none => w
  | some bk =>
    match (w.bank bk).armable e.now false with
    | [] => w
    | k :: _ => w.armOne e bk k

/-- ARM_POINT (R50 to R53) -/
def execArmPoint (s : State) : Result :=
  s.dueEvent (fun s => s.reachOpen && s.world.armDue s.env.now) World.armFirst

/-- CLAIM_POINT (R63, R64) -/
def execClaimPoint (p : Fin 8) (s : State) : Result := s.pointEvent p .start Env.claimsFirst

/-- START_POINT (R64) -/
def execStartPoint (p : Fin 8) (s : State) : Result :=
  s.pointEvent p .start fun e c => !e.claimsFirst c

/-- WINDOW_END (R66) -/
def execWindowEnd (p : Fin 8) (s : State) : Result := s.pointEvent p .windowEnd fun _ _ => true

/-- END_CUT (R66, R75, R84) -/
def execEndCut (p : Fin 8) (s : State) : Result := s.pointEvent p .endCut fun _ _ => true

/-- HAND_POINT (R69) -/
def execHandPoint (p : Fin 8) (s : State) : Result := s.pointEvent p .hand fun _ _ => true

/-- DUE_POINT (R71) -/
def execDuePoint (p : Fin 8) (s : State) : Result := s.pointEvent p .due fun _ _ => true

/-- RELEASE_POINT (R85) -/
def execReleasePoint (p : Fin 8) (s : State) : Result := s.pointEvent p .release fun _ _ => true

/-- SEND_TICK (R123) -/
def execSendTick (l : Fin 4) (s : State) : Result :=
  s.dueEvent
    (fun s => s.reachOpen && (s.world.link l).gos.any (Link.sendTickDue s.env.now))
    fun e w => w.sendTicks e.now l

/-- The player's oldest group past its expiry point. -/
def World.oldestExpired (now : Nat) (p : Fin 8) (w : World) : Option GroupRec :=
  w.groups.find? fun g => g.player == p && g.expired now

/-- EXPIRY_POINT (R126) -/
def execExpiryPoint (p : Fin 8) (s : State) : Result :=
  s.dueEvent (fun s => s.reachOpen && (s.world.oldestExpired s.env.now p).isSome) fun e w =>
    match w.oldestExpired e.now p with
    | none => w
    | some g => w.expire e g

/-! ## Events of a link -/

/-- Is the link sending a frame? -/
def Link.sending (k : Link) : Bool := k.bcast.isSome || k.transfer.any (·.onWire)

/-- LINK_FRAME_SENT (R143, R121, R124, R125, R131) -/
def execLinkFrameSent (l : Fin 4) (s : State) : Result :=
  s.linkEvent l (fun w => (w.link l).sending) fun e w => w.frameSent e l

/-- DRIVER_REPLY (R140, R141, R200) -/
def execDriverReply (l : Fin 4) (bytes : List Byte) (roundTrip : Nat) (s : State) : Result :=
  s.linkEvent l (fun w => (w.link l).state.receives) fun e w => w.driverReply e l bytes roundTrip

/-- TRANSFER_TIMEOUT (R140, R142) -/
def execTransferTimeout (l : Fin 4) (s : State) : Result :=
  s.linkEvent l (fun w => (w.link l).transfer.any Transfer.timedOut) fun e w => w.timeout e l

/-- BACKOFF_EXPIRY (R146) -/
def execBackoffExpiry (l : Fin 4) (a : Fin 16) (s : State) : Result :=
  s.linkEvent l
    (fun w => (w.driver l a).backoff == .lapsing
      || (w.link l).stage.any fun x => x.addr == a && x.backoff == .lapsing)
    fun _ w => w.backoffExpiry l a

/-- ERROR_AGE_EXPIRY (R141) -/
def execErrorAgeExpiry (l : Fin 4) (s : State) : Result :=
  s.linkEvent l (fun w => (w.link l).errors.any (100 ≤ ·)) fun _ w => w.errorsAge l

/-- WARM_UP_END (R149) -/
def execWarmUpEnd (l : Fin 4) (s : State) : Result :=
  s.linkEvent l (fun w => (w.link l).state == .warming && 200 ≤ (w.link l).timer) fun e w =>
    w.warmUpEnd e l

/-- LOST_DRIVER_POLL_DUE (R150): the poll becomes one of the frames the link may choose. -/
def execLostDriverPollDue (l : Fin 4) (a : Fin 16) (s : State) : Result :=
  s.linkEvent l (fun w => (w.link l).state == .up && w.lostPollDue l a) fun _ w => w

/-- REFRESH_DUE (R148): the REFRESH becomes one of the frames the link may choose. -/
def execRefreshDue (l : Fin 4) (a : Fin 16) (s : State) : Result :=
  s.linkEvent l (fun w => (w.link l).state == .up && (w.driver l a).refreshDue) fun _ w => w

/-- FAULT_REST_END (R154) -/
def execFaultRestEnd (l : Fin 4) (s : State) : Result :=
  s.linkEvent l (fun w => (w.link l).state == .faulted && 500 ≤ (w.link l).timer) fun e w =>
    w.restEnd e l

/-- QUIESCE_WAIT_END (R155) -/
def execQuiesceWaitEnd (l : Fin 4) (s : State) : Result :=
  s.linkEvent l
    (fun w => (w.link l).state == .quiescing && 100 ≤ (w.link l).timer && !(w.link l).wakeOwed)
    fun _ w => w.quiesceEnd l

/-! ## Events of the monitor and of the controller -/

/-- The contact of an input. -/
def contact (c0 c1 c2 c3 : Bool) (i : Fin 4) : Bool :=
  if i = 0 then c0 else if i = 1 then c1 else if i = 2 then c2 else c3

/-- SCAN_START (R164) -/
def execScanStart (c0 c1 c2 c3 : Bool) (s : State) : Result :=
  s.dueEvent (fun s => s.world.monitor.scanDue) fun e w => w.scanStart e (contact c0 c1 c2 c3)

/-- CONVERSION_END (R164 to R168) -/
def execConversionEnd (reading : Nat) (s : State) : Result :=
  s.dueEvent (fun s => s.world.monitor.scan.isSome) fun e w => w.conversionEnd e reading

/-- DARK_GUARD_EXPIRY (R178) -/
def execDarkGuardExpiry (s : State) : Result :=
  s.dueEvent
    (fun s => s.world.ctl.state == .active && Config.darkGuardPeriod ≤ s.world.ctl.guard)
    World.guardExpiry

/-- COLD_START (R185): the one event taken while RESET is held. The commands that wait stay, and so does
the count of free values drawn (log entries 1, 3). -/
def execColdStart (rateHigh : Bool) (s : State) : Result :=
  .next { State.cold rateHigh with pending := s.pending, freeCount := s.freeCount }

/-- RESET_ASSERTED (R185) -/
def execResetAsserted (s : State) : Result := .next s.holdReset

/-! ## Events of the host line -/

/-- HOST_FRAME_RECEIVED (R188, R189) -/
def execHostFrameReceived (bytes : List RxByte) (s : State) : Result := s.event (State.hostBytes bytes)

/-- BAD_KIND_REQUEST (R190): a whole frame, judged by its kind. -/
def execBadKindRequest (kind tag : Nat) (body : List Byte) (s : State) : Result :=
  s.event (State.arrive ⟨kind, tag, parseRequest kind body⟩)

/-- HOST_FRAME_SENT (R191) -/
def execHostFrameSent (s : State) : Result := s.event State.hostFrameSent

/-- HOST_BREAK (R192) -/
def execHostBreak (s : State) : Result := s.event State.hostBreak

/-- BREAK_END (R192) -/
def execBreakEnd (s : State) : Result := s.event State.breakEnd

/-! ## Requests (TABLE 11-3) -/

/-- SET_TIME (R10 to R12) -/
def execSetTime (tag year month day tod : Nat) (s : State) : Result :=
  s.event (State.request tag (.setTime year month day tod))

/-- GET_TIME (R13) -/
def execGetTime (tag : Nat) (s : State) : Result := s.event (State.request tag .getTime)

/-- SET_PULSE (R7) -/
def execSetPulse (tag enable polarity : Nat) (s : State) : Result :=
  s.event (State.request tag (.setPulse enable polarity))

/-- PUT_LOOK (R17) -/
def execPutLook (tag look l0 l1 l2 l3 fade : Nat) (s : State) : Result :=
  s.event (State.request tag (.putLook look l0 l1 l2 l3 fade))

/-- GET_LOOK (R18) -/
def execGetLook (tag look : Nat) (s : State) : Result := s.event (State.request tag (.getLook look))

/-- OPEN_SHOW (R21) -/
def execOpenShow (tag showNo : Nat) (name : List Byte) (s : State) : Result :=
  s.event (State.request tag (.openShow showNo name))

/-- ADD_SECTION (R22, R23) -/
def execAddSection (tag showNo kind length passes : Nat) (s : State) : Result :=
  s.event (State.request tag (.addSection showNo kind length passes))

/-- ADD_CUES (R24, R25) -/
def execAddCues (tag showNo : Nat) (cues : List CueField) (s : State) : Result :=
  s.event (State.request tag (.addCues showNo cues))

/-- CLOSE_SHOW (R26, R27) -/
def execCloseShow (tag showNo : Nat) (s : State) : Result :=
  s.event (State.request tag (.closeShow showNo))

/-- DROP_SHOW (R28, R29) -/
def execDropShow (tag showNo : Nat) (s : State) : Result :=
  s.event (State.request tag (.dropShow showNo))

/-- GET_SHOW (R33) -/
def execGetShow (tag showNo firstCue : Nat) (s : State) : Result :=
  s.event (State.request tag (.getShow showNo firstCue))

/-- GET_POOL (R34) -/
def execGetPool (tag : Nat) (s : State) : Result := s.event (State.request tag .getPool)

/-- OPEN_PLAN (R40) -/
def execOpenPlan (tag bank year month day : Nat) (s : State) : Result :=
  s.event (State.request tag (.openPlan bank year month day))

/-- ADD_BOOKING (R41, R42) -/
def execAddBooking (tag bank : Nat) (booking : BookingField) (s : State) : Result :=
  s.event (State.request tag (.addBooking bank booking))

/-- SEAL_PLAN (R43, R44) -/
def execSealPlan (tag bank : Nat) (s : State) : Result :=
  s.event (State.request tag (.sealPlan bank))

/-- ACTIVATE_PLAN (R45) -/
def execActivatePlan (tag bank : Nat) (s : State) : Result :=
  s.event (State.request tag (.activatePlan bank))

/-- CLEAR_PLAN (R49) -/
def execClearPlan (tag bank : Nat) (s : State) : Result :=
  s.event (State.request tag (.clearPlan bank))

/-- CANCEL_BOOKING (R54, R79, R80) -/
def execCancelBooking (tag bank id abrupt : Nat) (s : State) : Result :=
  s.event (State.request tag (.cancelBooking bank id abrupt))

/-- AMEND_END (R55, R78) -/
def execAmendEnd (tag bank id endTime nextDay : Nat) (s : State) : Result :=
  s.event (State.request tag (.amendEnd bank id endTime nextDay))

/-- GET_BOOKING (R56) -/
def execGetBooking (tag bank id : Nat) (s : State) : Result :=
  s.event (State.request tag (.getBooking bank id))

/-- GET_PLAN (R57) -/
def execGetPlan (tag bank : Nat) (page : Option Nat) (s : State) : Result :=
  s.event (State.request tag (.getPlan bank page))

/-- GET_PLAYER (R88) -/
def execGetPlayer (tag player : Nat) (s : State) : Result :=
  s.event (State.request tag (.getPlayer player))

/-- HOLD (R82) -/
def execHold (tag player : Nat) (s : State) : Result := s.event (State.request tag (.hold player))

/-- RESUME (R83) -/
def execResume (tag player : Nat) (s : State) : Result :=
  s.event (State.request tag (.resume player))

/-- SET_PASSES (R73) -/
def execSetPasses (tag player passes : Nat) (s : State) : Result :=
  s.event (State.request tag (.setPasses player passes))

/-- PUT_ZONE (R108, R109) -/
def execPutZone (tag zone configured fallback lead : Nat) (s : State) : Result :=
  s.event (State.request tag (.putZone zone configured fallback lead))

/-- GET_ZONE (R111) -/
def execGetZone (tag zone : Nat) (s : State) : Result := s.event (State.request tag (.getZone zone))

/-- SET_LEAD (R110) -/
def execSetLead (tag zone lead : Nat) (s : State) : Result :=
  s.event (State.request tag (.setLead zone lead))

/-- ENABLE_LINK (R157) -/
def execEnableLink (tag link : Nat) (s : State) : Result :=
  s.event (State.request tag (.enableLink link))

/-- DISABLE_LINK (R157) -/
def execDisableLink (tag link : Nat) (s : State) : Result :=
  s.event (State.request tag (.disableLink link))

/-- SCAN_LINK (R151) -/
def execScanLink (tag link : Nat) (s : State) : Result :=
  s.event (State.request tag (.scanLink link))

/-- CALIBRATE_LINK (R152) -/
def execCalibrateLink (tag link : Nat) (s : State) : Result :=
  s.event (State.request tag (.calibrateLink link))

/-- GET_LINK (R158) -/
def execGetLink (tag link : Nat) (page : Option Nat) (s : State) : Result :=
  s.event (State.request tag (.getLink link page))

/-- PUT_CONDITION (R170) -/
def execPutCondition (tag channel : Nat) (settings : ConditionField) (s : State) : Result :=
  s.event (State.request tag (.putCondition channel settings))

/-- GET_CONDITION (R172) -/
def execGetCondition (tag channel : Nat) (s : State) : Result :=
  s.event (State.request tag (.getCondition channel))

/-- SET_READING (R171) -/
def execSetReading (tag channel reading : Nat) (s : State) : Result :=
  s.event (State.request tag (.setReading channel reading))

/-- SET_STATE (R181) -/
def execSetState (tag op auto : Nat) (s : State) : Result :=
  s.event (State.request tag (.setState op auto))

/-- GET_STATE (R184) -/
def execGetState (tag : Nat) (s : State) : Result := s.event (State.request tag .getState)

/-- RESTART (R186) -/
def execRestart (tag : Nat) (s : State) : Result := s.event (State.request tag .restart)

/-- GET_NOTICES (R195) -/
def execGetNotices (tag : Nat) (s : State) : Result := s.event (State.request tag .getNotices)

/-- CLEAR_NOTICES (R195) -/
def execClearNotices (tag mask : Nat) (s : State) : Result :=
  s.event (State.request tag (.clearNotices mask))

/-- SUBSCRIBE (R194) -/
def execSubscribe (tag mask : Nat) (s : State) : Result :=
  s.event (State.request tag (.subscribe mask))

/-- IDENT (R196) -/
def execIdent (tag : Nat) (s : State) : Result := s.event (State.request tag .ident)

/-- LOOPBACK (R199) -/
def execLoopback (tag : Nat) (body : List Byte) (s : State) : Result :=
  s.event (State.request tag (.loopback body))

end Sys2Proof.Machine
end

