-- ==== Sys2Proof/Machine/Dispatch.lean ====
section
/-! DEFINITION. One arm for each command: a direct call of its meaning. -/

namespace Sys2Proof.Machine

def exec (i : Instr) (s : State) : Host.Outcome State Fault Refusal :=
  match i with
  | .tickEvent => Sys2Proof.Machine.execTickEvent s
  | .pulse edge => Sys2Proof.Machine.execPulse edge s
  | .pulseSilenceHoldover => Sys2Proof.Machine.execPulseSilenceHoldover s
  | .armPoint => Sys2Proof.Machine.execArmPoint s
  | .claimPoint p => Sys2Proof.Machine.execClaimPoint p s
  | .startPoint p => Sys2Proof.Machine.execStartPoint p s
  | .windowEnd p => Sys2Proof.Machine.execWindowEnd p s
  | .endCut p => Sys2Proof.Machine.execEndCut p s
  | .handPoint p => Sys2Proof.Machine.execHandPoint p s
  | .duePoint p => Sys2Proof.Machine.execDuePoint p s
  | .releasePoint p => Sys2Proof.Machine.execReleasePoint p s
  | .sendTick l => Sys2Proof.Machine.execSendTick l s
  | .expiryPoint p => Sys2Proof.Machine.execExpiryPoint p s
  | .linkFrameSent l => Sys2Proof.Machine.execLinkFrameSent l s
  | .driverReply l bytes roundTrip => Sys2Proof.Machine.execDriverReply l bytes roundTrip s
  | .transferTimeout l => Sys2Proof.Machine.execTransferTimeout l s
  | .backoffExpiry l a => Sys2Proof.Machine.execBackoffExpiry l a s
  | .errorAgeExpiry l => Sys2Proof.Machine.execErrorAgeExpiry l s
  | .warmUpEnd l => Sys2Proof.Machine.execWarmUpEnd l s
  | .lostDriverPollDue l a => Sys2Proof.Machine.execLostDriverPollDue l a s
  | .refreshDue l a => Sys2Proof.Machine.execRefreshDue l a s
  | .faultRestEnd l => Sys2Proof.Machine.execFaultRestEnd l s
  | .quiesceWaitEnd l => Sys2Proof.Machine.execQuiesceWaitEnd l s
  | .scanStart c0 c1 c2 c3 => Sys2Proof.Machine.execScanStart c0 c1 c2 c3 s
  | .conversionEnd reading => Sys2Proof.Machine.execConversionEnd reading s
  | .darkGuardExpiry => Sys2Proof.Machine.execDarkGuardExpiry s
  | .coldStart rateHigh => Sys2Proof.Machine.execColdStart rateHigh s
  | .hostFrameReceived bytes => Sys2Proof.Machine.execHostFrameReceived bytes s
  | .badKindRequest kind tag body => Sys2Proof.Machine.execBadKindRequest kind tag body s
  | .hostFrameSent => Sys2Proof.Machine.execHostFrameSent s
  | .hostBreak => Sys2Proof.Machine.execHostBreak s
  | .setTime tag year month day tod => Sys2Proof.Machine.execSetTime tag year month day tod s
  | .getTime tag => Sys2Proof.Machine.execGetTime tag s
  | .setPulse tag enable polarity => Sys2Proof.Machine.execSetPulse tag enable polarity s
  | .putLook tag look l0 l1 l2 l3 fade => Sys2Proof.Machine.execPutLook tag look l0 l1 l2 l3 fade s
  | .getLook tag look => Sys2Proof.Machine.execGetLook tag look s
  | .openShow tag showNo name => Sys2Proof.Machine.execOpenShow tag showNo name s
  | .addSection tag showNo kind length passes => Sys2Proof.Machine.execAddSection tag showNo kind length passes s
  | .addCues tag showNo cues => Sys2Proof.Machine.execAddCues tag showNo cues s
  | .closeShow tag showNo => Sys2Proof.Machine.execCloseShow tag showNo s
  | .dropShow tag showNo => Sys2Proof.Machine.execDropShow tag showNo s
  | .getShow tag showNo firstCue => Sys2Proof.Machine.execGetShow tag showNo firstCue s
  | .getPool tag => Sys2Proof.Machine.execGetPool tag s
  | .openPlan tag bank year month day => Sys2Proof.Machine.execOpenPlan tag bank year month day s
  | .addBooking tag bank booking => Sys2Proof.Machine.execAddBooking tag bank booking s
  | .sealPlan tag bank => Sys2Proof.Machine.execSealPlan tag bank s
  | .activatePlan tag bank => Sys2Proof.Machine.execActivatePlan tag bank s
  | .clearPlan tag bank => Sys2Proof.Machine.execClearPlan tag bank s
  | .cancelBooking tag bank id abrupt => Sys2Proof.Machine.execCancelBooking tag bank id abrupt s
  | .amendEnd tag bank id endTime nextDay => Sys2Proof.Machine.execAmendEnd tag bank id endTime nextDay s
  | .getBooking tag bank id => Sys2Proof.Machine.execGetBooking tag bank id s
  | .getPlan tag bank page => Sys2Proof.Machine.execGetPlan tag bank page s
  | .getPlayer tag player => Sys2Proof.Machine.execGetPlayer tag player s
  | .hold tag player => Sys2Proof.Machine.execHold tag player s
  | .resume tag player => Sys2Proof.Machine.execResume tag player s
  | .setPasses tag player passes => Sys2Proof.Machine.execSetPasses tag player passes s
  | .putZone tag zone configured fallback lead => Sys2Proof.Machine.execPutZone tag zone configured fallback lead s
  | .getZone tag zone => Sys2Proof.Machine.execGetZone tag zone s
  | .setLead tag zone lead => Sys2Proof.Machine.execSetLead tag zone lead s
  | .enableLink tag link => Sys2Proof.Machine.execEnableLink tag link s
  | .disableLink tag link => Sys2Proof.Machine.execDisableLink tag link s
  | .scanLink tag link => Sys2Proof.Machine.execScanLink tag link s
  | .calibrateLink tag link => Sys2Proof.Machine.execCalibrateLink tag link s
  | .getLink tag link page => Sys2Proof.Machine.execGetLink tag link page s
  | .putCondition tag channel settings => Sys2Proof.Machine.execPutCondition tag channel settings s
  | .getCondition tag channel => Sys2Proof.Machine.execGetCondition tag channel s
  | .setReading tag channel reading => Sys2Proof.Machine.execSetReading tag channel reading s
  | .setState tag op auto => Sys2Proof.Machine.execSetState tag op auto s
  | .getState tag => Sys2Proof.Machine.execGetState tag s
  | .restart tag => Sys2Proof.Machine.execRestart tag s
  | .getNotices tag => Sys2Proof.Machine.execGetNotices tag s
  | .clearNotices tag mask => Sys2Proof.Machine.execClearNotices tag mask s
  | .subscribe tag mask => Sys2Proof.Machine.execSubscribe tag mask s
  | .ident tag => Sys2Proof.Machine.execIdent tag s
  | .loopback tag body => Sys2Proof.Machine.execLoopback tag body s
  | .resetAsserted => Sys2Proof.Machine.execResetAsserted s
  | .breakEnd => Sys2Proof.Machine.execBreakEnd s

end Sys2Proof.Machine
end

