-- ==== Sys2Proof/Safety.lean ====
section
/-! DEFINITION. The vocabulary of the statements: the part ready to answer a request at once, the state
after a request's reply, what the wires and the dispatcher leave alone, and the invariants of the Time
Base, the Show Library, the Host Line Port and the claim lists. -/

namespace Sys2Proof.Machine

/-! ## Requests -/

/-- The part receives, no frame is partly received, no request waits and the reply slot is empty, so a
request is answered in the event that brings it (R190). The output may be sending. -/
def State.idle (s : State) : Bool :=
  s.receives && s.port.rx == .hunt && s.port.queue.isEmpty && s.port.slot.isNone

/-- The state once a request of a kind and tag has been carried out with an answer: the reply stands in
the reply slot, and a FREE output chooses its frame (R190, R191). -/
def State.replied (kind tag : Nat) (x : State × Answer) : State :=
  { x.1 with port := { x.1.port with slot := some ⟨kind, tag, x.2.code, x.2.body⟩ } }.choose

/-- The Time Base, the library and the part's own marks agree. -/
def State.sameBase (s t : State) : Prop :=
  t.time = s.time ∧ t.lib = s.lib ∧ t.reachOpen = s.reachOpen ∧ t.held = s.held
    ∧ t.freeCount = s.freeCount ∧ t.pending = s.pending

/-! ## What wires and dispatcher leave alone -/

/-- The power output of a link is as its state has it: ON but in OFF and FAULTED (R139). -/
def Link.powerFits (k : Link) : Prop := k.power = k.state.powered

/-- What the wires, the dispatcher and an individual take leave as it was: the plans, the monitor, every
player but for its counters (a FREE player whole), each zone's configuring, claims, fallback look and
lead trim, each link's enabling, a power output that fits its link's state, a notice once pending, and the operating
state with its record. -/
structure World.Kept (w v : World) : Prop where
  plans : v.plans = w.plans
  monitor : v.monitor = w.monitor
  players : ∀ p, { v.player p with counters := (w.player p).counters } = w.player p
  free : ∀ p, (w.player p).state = .free → v.player p = w.player p
  claims : ∀ z, (v.zone z).claims = (w.zone z).claims
  configured : ∀ z, (v.zone z).configured = (w.zone z).configured
  fallback : ∀ z, (v.zone z).fallback = (w.zone z).fallback
  lead : ∀ z, (v.zone z).lead = (w.zone z).lead
  enabled : ∀ l, (v.link l).enabled = (w.link l).enabled
  power : ∀ l, (w.link l).powerFits → (v.link l).powerFits
  raised : ∀ k, (w.notices.get k).pending = true → (v.notices.get k).pending = true
  ctl : { v.ctl with asleep := w.ctl.asleep, restartWake := w.ctl.restartWake } = w.ctl

/-- `v` is `w` once the entries of the drivers `gone` of a link have ended with their drivers' loss (R132): they
have left the stage list, none of them taken, and each that was not dropping is counted once in its player's
discarded takes, with LATE_TAKE (R135). -/
structure World.Lost (l : Fin 4) (gone : Fin 16 → Bool) (w v : World) : Prop where
  stage : (v.link l).stage = (w.link l).stage.filter fun x => !gone x.addr
  others : ∀ m, m ≠ l → (v.link m).stage = (w.link m).stage
  committed : ∀ z, (v.zone z).committed = (w.zone z).committed
  free : ∀ p, (w.player p).state = .free → v.player p = w.player p
  counted : ∀ p, (w.player p).state ≠ .free → (w.player p).counters.discarded ≤ 65535 →
    v.player p = { w.player p with
      counters := { (w.player p).counters with
        discarded := min 65535 ((w.player p).counters.discarded
          + (w.link l).stage.countP fun x => gone x.addr && x.player == some p && !x.dropping) } }
  raised : ∀ p, (w.player p).state ≠ .free →
    (∃ x ∈ (w.link l).stage, gone x.addr = true ∧ x.player = some p ∧ x.dropping = false) →
    (v.notices.get NoticeKind.lateTake.no).pending = true

/-- Nothing is deferred on any link. -/
def World.undeferred (w : World) : Prop := ∀ l, (w.link l).deferred = []

/-- No two entries of a stage list share their reference, which the dispatcher gives once (section 6.1). -/
def Link.refsDistinct (k : Link) : Prop := (k.stage.map (·.ref)).Nodup

/-- Neither a transfer nor a broadcast is on the wire. -/
def Link.wireIdle (k : Link) : Bool := k.transfer.isNone && k.bcast.isNone

/-- No WAKE and no FORCE is owed (R155, R156). -/
def Link.owesNothing (k : Link) : Bool := !k.wakeOwed && !k.forceOwed

/-- A link that at most begins a frame: its wire is taken, or it owes nothing and neither scans,
calibrates nor quiesces (R143, R144). -/
def Link.calm (k : Link) : Bool :=
  !k.wireIdle || (k.owesNothing && k.state != .scanning && k.state != .calibrating
    && k.state != .quiescing)

/-- `v` is `w` with frames begun: the links' transfers, broadcasts and pending lists may differ. -/
structure World.Begun (w v : World) : Prop where
  links : ∀ l, { v.link l with
    transfer := (w.link l).transfer
    bcast := (w.link l).bcast
    pending := (w.link l).pending } = w.link l
  rest : { v with links := w.links } = w

/-- No scan, calibration or quiescing of a link is at its end, and the link at most begins a frame. -/
def World.calm (w : World) (l : Fin 4) : Bool :=
  (w.longOpOver l).isNone && !(w.link l).quiesced && (w.link l).calm

/-- `t` is `s` with the blocks changed to `w` but for the port, the links `ls` then having chosen what they
send (R143): what that leaves of `w` in every case, and where every link is calm. -/
structure State.Chosen (ls : List (Fin 4)) (s : State) (w : World) (t : State) : Prop where
  base : s.sameBase t
  world : t.world = w.each ls (World.pump s.env)
  kept : w.Kept t.world
  begun : (∀ l, w.calm l = true) → w.Begun t.world

/-- After an event that changes the blocks to `w`: every link has chosen what it sends, and a FREE output
may have begun a frame (R143, R191). -/
def State.After (s : State) (w : World) (t : State) : Prop :=
  State.Chosen (upTo 4) s w t ∧ t.port = s.port.choose t.world.notices

/-- After an event of one link that changes the blocks to `w`: that link has chosen what it sends. -/
def State.AfterOn (l : Fin 4) (s : State) (w : World) (t : State) : Prop :=
  State.Chosen [l] s w t ∧ t.port = s.port.choose t.world.notices

/-- After a request that changes the blocks to `w` and is answered with a reply. -/
def State.AfterReply (s : State) (w : World) (r : Reply) (t : State) : Prop :=
  State.Chosen (upTo 4) s w t ∧ t.port = { s.port with slot := some r }.choose t.world.notices

/-! ## Bytes -/

/-- The bytes of a host request on the wire (R187, TABLE 11-1). -/
def Request.wire (tag : Nat) (r : Request) : List Byte :=
  wireFrame ([byteOf r.body.length, byteOf r.kind, byteOf tag] ++ r.body)

/-- Bytes received with their stop bits. -/
def received (bytes : List Byte) : List RxByte := bytes.map fun b => ⟨b, true⟩

/-- A reply whose fields fit its frame; a field its kind does not carry is 0 (TABLE 11-8). -/
def DriverReply.fits (poll : Bool) (r : DriverReply) : Bool :=
  r.tag < 256 && r.slotsFree < 256 && r.flags < 256 && r.exchange < 256 && r.silence < 65536
    && r.latency < 65536 && match r.kind with
      | .ack => r.exchange == 0 && (poll || (r.silence == 0 && r.latency == 0))
      | .echo => r.silence == 0
      | _ => r.exchange == 0 && r.silence == 0 && r.latency == 0

/-! ## Invariants -/

/-- The Time Base within TABLE 1-1: a date of the calendar, the ranges of its fields. -/
def TimeBase.wf (t : TimeBase) : Bool :=
  t.date.valid && t.tod < Config.ticksPerDay && t.faults ≤ 2 && t.silence ≤ Config.counterMax
    && t.lastError.all fun e => -50 ≤ e && e ≤ 49

/-- A show record within TABLE 2-2: an EMPTY show holds nothing; the blocks are just those the cues
fill (R25); a show's sections hold its cues one after another; a finite length stands once CLOSED. -/
def ShowRec.wf (s : ShowRec) : Bool :=
  s.parts.length ≤ 16 && s.cues ≤ 1024
    && s.blocks.length == (s.cues + 63) / 64
    && (s.parts.map (·.count)).sum == s.cues
    && (s.state == .closed) == s.length.isSome
    && (s.state != .empty || s.parts.isEmpty)

/-- The Show Library within TABLES 2-1 to 2-6: LOOK 0 is dark, fades are at most 3,000, every block of
the cue pool is in the free-block list or in just one show's block list (R20), the pool is in its
canonical form, and the open show is the one that is BUILDING. -/
structure Library.wf (lib : Library) : Prop where
  lookZero : lib.looks.get 0 = LookVal.dark
  fades : ∀ i, (lib.looks.get i).fade ≤ 3000
  shows : ∀ i, (lib.showRec i).wf = true
  blocks : (lib.free ++ lib.shows.list.flatMap (·.blocks)).Perm (List.range 128)
  pool : poolWf 0 lib.pool = true
  building : ∀ i, (lib.showRec i).state = .building ↔ lib.openShow = some i

/-- The Host Line Port within TABLE 10-2: at most four requests wait, and none waits beside an empty
reply slot (R190); at most four overruns stand; the counts hold; a reply being sent is the one in the
reply slot (R191). -/
def Port.wf (p : Port) : Bool :=
  p.queue.length ≤ 4 && (p.slot.isSome || p.queue.isEmpty) && p.overruns.length ≤ 4
    && p.checkErrors ≤ Config.counterMax && p.overrunCount ≤ Config.counterMax
    && match p.out with
      | some (.reply r) => p.slot == some r
      | _ => true

/-- The invariant of the Time Base, the Show Library and the Host Line Port. -/
structure State.wf (s : State) : Prop where
  time : s.time.wf = true
  lib : s.lib.wf
  port : s.port.wf = true

/-- A claim list in rank order (R91, R92), with one claim of a player at most (R93). -/
def claimsRanked (cs : List Claim) : Prop :=
  cs.Pairwise (fun x y => x.above y = true) ∧ cs.Pairwise (fun x y => x.player ≠ y.player)

/-- Every zone's claim list in rank order. -/
def State.ranked (s : State) : Prop := ∀ z, claimsRanked (s.world.zone z).claims

/-- Every power output fits its link's state (R139), and all are OFF while RESET is held (R185). -/
def State.powered (s : State) : Prop :=
  ∀ l, if s.held then (s.world.link l).power = false else (s.world.link l).powerFits

end Sys2Proof.Machine
end

