-- ==== Sys2Proof/WellFormed.lean ====
section
/-! DEFINITION. What the wire can carry: every field of a request within the width Chapter 11 gives
it, every list within its count byte and the frame's 240 body bytes, and an event's reading within
the converter's range. -/

namespace Sys2Proof

/-- A one-byte field. -/
def isByte (n : Nat) : Bool := n < 256

/-- A two-byte field. -/
def isWord (n : Nat) : Bool := n < 65536

/-- A three-byte field. -/
def isTime (n : Nat) : Bool := n < 16777216

/-- A page byte that may be left out (R57, R199). -/
def isPage : Option Nat → Bool
  | none => true
  | some p => isByte p

def CueField.wf (c : CueField) : Bool := isWord c.offset && isByte c.part && isByte c.look

def PartField.wf (p : PartField) : Bool :=
  isByte p.part && isByte p.zones.length && p.zones.all isByte

/-- The bytes a booking's part entries take (TABLE 11-5). -/
def BookingField.mapSize (b : BookingField) : Nat :=
  b.zmap.foldr (fun p n => 2 + p.zones.length + n) 0

def BookingField.wf (b : BookingField) : Bool :=
  isByte b.id && isByte b.showNo && isTime b.start && isByte b.mode && isByte b.startCond
    && isTime b.window && isTime b.endTime && isByte b.nextDay && isByte b.stopCond && isByte b.cls
    && isByte b.sub && isByte b.policy && isByte b.zmap.length && b.zmap.all PartField.wf
    && b.mapSize ≤ 220

def ConditionField.wf (c : ConditionField) : Bool :=
  isByte c.enabled && isByte c.source && isByte c.mode && isWord c.low && isWord c.high
    && isByte c.persist && isByte c.record && isByte c.attrs

/-- A request the wire can carry. -/
def Request.wf : Request → Bool
  | .setTime y m d t => isWord y && isByte m && isByte d && isTime t
  | .getTime => true
  | .setPulse e p => isByte e && isByte p
  | .putLook n a b c d f => isByte n && isByte a && isByte b && isByte c && isByte d && isWord f
  | .getLook n => isByte n
  | .openShow n name => isByte n && name.length == 8
  | .addSection n k l p => isByte n && isByte k && isWord l && isByte p
  | .addCues n cs => isByte n && cs.length ≤ 59 && cs.all CueField.wf
  | .closeShow n => isByte n
  | .dropShow n => isByte n
  | .getShow n i => isByte n && isWord i
  | .getPool => true
  | .openPlan b y m d => isByte b && isWord y && isByte m && isByte d
  | .addBooking b k => isByte b && k.wf
  | .sealPlan b => isByte b
  | .activatePlan b => isByte b
  | .clearPlan b => isByte b
  | .cancelBooking b i a => isByte b && isByte i && isByte a
  | .amendEnd b i e n => isByte b && isByte i && isTime e && isByte n
  | .getBooking b i => isByte b && isByte i
  | .getPlan b p => isByte b && isPage p
  | .getPlayer p => isByte p
  | .hold p => isByte p
  | .resume p => isByte p
  | .setPasses p n => isByte p && isByte n
  | .putZone z c f l => isByte z && isByte c && isByte f && isByte l
  | .getZone z => isByte z
  | .setLead z l => isByte z && isByte l
  | .enableLink l => isByte l
  | .disableLink l => isByte l
  | .scanLink l => isByte l
  | .calibrateLink l => isByte l
  | .getLink l p => isByte l && isPage p
  | .putCondition n c => isByte n && c.wf
  | .getCondition n => isByte n
  | .setReading n r => isByte n && isWord r
  | .getNotices => true
  | .clearNotices m => isWord m
  | .subscribe m => isWord m
  | .setState o a => isByte o && isByte a
  | .getState => true
  | .restart => true
  | .ident => true
  | .loopback b => b.length ≤ 239

/-- The request a command carries, with its tag, when the command is a request. -/
def Instr.request : Instr → Option (Nat × Request)
  | .setTime t y m d s => some (t, .setTime y m d s)
  | .getTime t => some (t, .getTime)
  | .setPulse t e p => some (t, .setPulse e p)
  | .putLook t n a b c d f => some (t, .putLook n a b c d f)
  | .getLook t n => some (t, .getLook n)
  | .openShow t n name => some (t, .openShow n name)
  | .addSection t n k l p => some (t, .addSection n k l p)
  | .addCues t n cs => some (t, .addCues n cs)
  | .closeShow t n => some (t, .closeShow n)
  | .dropShow t n => some (t, .dropShow n)
  | .getShow t n i => some (t, .getShow n i)
  | .getPool t => some (t, .getPool)
  | .openPlan t b y m d => some (t, .openPlan b y m d)
  | .addBooking t b k => some (t, .addBooking b k)
  | .sealPlan t b => some (t, .sealPlan b)
  | .activatePlan t b => some (t, .activatePlan b)
  | .clearPlan t b => some (t, .clearPlan b)
  | .cancelBooking t b i a => some (t, .cancelBooking b i a)
  | .amendEnd t b i e n => some (t, .amendEnd b i e n)
  | .getBooking t b i => some (t, .getBooking b i)
  | .getPlan t b p => some (t, .getPlan b p)
  | .getPlayer t p => some (t, .getPlayer p)
  | .hold t p => some (t, .hold p)
  | .resume t p => some (t, .resume p)
  | .setPasses t p n => some (t, .setPasses p n)
  | .putZone t z c f l => some (t, .putZone z c f l)
  | .getZone t z => some (t, .getZone z)
  | .setLead t z l => some (t, .setLead z l)
  | .enableLink t l => some (t, .enableLink l)
  | .disableLink t l => some (t, .disableLink l)
  | .scanLink t l => some (t, .scanLink l)
  | .calibrateLink t l => some (t, .calibrateLink l)
  | .getLink t l p => some (t, .getLink l p)
  | .putCondition t n c => some (t, .putCondition n c)
  | .getCondition t n => some (t, .getCondition n)
  | .setReading t n r => some (t, .setReading n r)
  | .setState t o a => some (t, .setState o a)
  | .getState t => some (t, .getState)
  | .restart t => some (t, .restart)
  | .getNotices t => some (t, .getNotices)
  | .clearNotices t m => some (t, .clearNotices m)
  | .subscribe t m => some (t, .subscribe m)
  | .ident t => some (t, .ident)
  | .loopback t b => some (t, .loopback b)
  | .tickEvent => none
  | .pulse _ => none
  | .pulseSilenceHoldover => none
  | .armPoint => none
  | .claimPoint _ => none
  | .startPoint _ => none
  | .windowEnd _ => none
  | .endCut _ => none
  | .handPoint _ => none
  | .duePoint _ => none
  | .releasePoint _ => none
  | .sendTick _ => none
  | .expiryPoint _ => none
  | .linkFrameSent _ => none
  | .driverReply .. => none
  | .transferTimeout _ => none
  | .backoffExpiry .. => none
  | .errorAgeExpiry _ => none
  | .warmUpEnd _ => none
  | .lostDriverPollDue .. => none
  | .refreshDue .. => none
  | .faultRestEnd _ => none
  | .quiesceWaitEnd _ => none
  | .scanStart .. => none
  | .conversionEnd _ => none
  | .darkGuardExpiry => none
  | .coldStart _ => none
  | .hostFrameReceived _ => none
  | .badKindRequest .. => none
  | .hostFrameSent => none
  | .hostBreak => none
  | .resetAsserted => none
  | .breakEnd => none

/-- The checks on an event's own operands: a reading lies in 0-4095 (R162), a run of bytes is not
empty, and a frame of a bad kind fits a frame. -/
def Instr.eventWf : Instr → Bool
  | .conversionEnd r => r ≤ 4095
  | .driverReply _ bytes _ => !bytes.isEmpty
  | .hostFrameReceived bytes => !bytes.isEmpty
  | .badKindRequest kind tag body => isByte kind && isByte tag && body.length ≤ 240
  | _ => true

/-- A command that can reach the part. -/
def Instr.wf (i : Instr) : Bool :=
  match i.request with
  | some (tag, r) => isByte tag && r.wf
  | none => i.eventWf

end Sys2Proof
end

