-- ==== Sys2Proof/Certificates/Slice0/Obligations.lean ====
section
/-! DEFINITION. The statements for the provers. Where a statement rests on a choice of the model's, its
docstring names the log entry. -/

section Statements

open Sys2Proof Sys2Proof.Machine

/-! ## The queue of commands, and RESET -/

/-- The block's step: the command at the front is carried out with the rest of the queue; on an empty
queue the part idles (log entry 1). -/
def Obligations.StepTakesFrontCommand : Prop :=
  (∀ (s : State) (c : Instr) (rest : List Instr),
    step { s with pending := c :: rest } = exec c { s with pending := rest })
  ∧ ∀ s : State, s.pending = [] → step s = .next s

/-- Every command answers a next state, and leaves the queue to the step; so a COLD_START too leaves the
commands that wait, which is the model's choice (log entry 1). -/
def Obligations.EveryCommandAnswersNext : Prop :=
  ∀ (c : Instr) (s : State), ∃ t, exec c s = .next t ∧ t.pending = s.pending

/-- R185: while RESET is held nothing but its release and a further assertion is taken.
R185: RESET asserted takes the link power outputs OFF and stops what the lines send. What a link owed
to send is forgotten with it (log entry 10). -/
def Obligations.ResetHeldAndAsserted : Prop :=
  (∀ (c : Instr) (s : State), s.held = true → c ≠ .resetAsserted → (∀ high, c ≠ .coldStart high) →
    exec c s = .next s)
  ∧ (∀ s : State, exec .resetAsserted s = .next
    { s with
      held := true
      port := { s.port with out := none }
      world := { s.world with links := s.world.links.map fun k =>
        { k with
          power := false, transfer := none, bcast := none, wakeOwed := false, forceOwed := false
          hunting := false } } })

/-- R185, TABLES 1-7, 2-7 and 3-9: what a cold start leaves in the Time Base, the Show Library, the Plan
Banks and the players.
R185, TABLES 4-7, 5-4, 7-9, 8-5, 9-3 and 10-6, R138: what a cold start leaves in the other blocks. A link's
state timer, which no table gives, is 0 (log entry 31). -/
def Obligations.ColdStartValues : Prop :=
  (∀ (s : State) (high : Bool), ∃ t, exec (.coldStart high) s = .next t ∧ t.held = false
    ∧ t.time = ⟨⟨2000, 1, 1⟩, 0, .unset, 0, false, .rising, 0, none⟩
    ∧ (∀ n, t.lib.looks.get n = ⟨0, 0, 0, 0, 0⟩)
    ∧ (∀ n, (t.lib.showRec n).state = .empty ∧ (t.lib.showRec n).name = List.replicate 8 0#8
      ∧ (t.lib.showRec n).parts = [] ∧ (t.lib.showRec n).blocks = [] ∧ (t.lib.showRec n).cues = 0
      ∧ (t.lib.showRec n).length = none)
    ∧ t.lib.free = List.range 128 ∧ t.lib.openShow = none
    ∧ (∀ bk, (t.world.bank bk).state = .empty ∧ (t.world.bank bk).date = ⟨2000, 1, 1⟩
      ∧ (t.world.bank bk).list = [])
    ∧ t.world.plans.wait = [] ∧ t.world.plans.armSeq = 0
    ∧ ∀ p, t.world.player p = ⟨.free, none, none, none, 0, .none, none, none, none, none, none, [],
      Tab.fill 16 none, none, none, none, none, ⟨0, 0, 0, 0⟩, false⟩)
  ∧ (∀ (s : State) (high : Bool), ∃ t, exec (.coldStart high) s = .next t
    ∧ (∀ z, t.world.zone z = ⟨false, [], none, 0, 0, none⟩)
    ∧ t.world.groups = []
    ∧ (∀ l, (t.world.link l).enabled = false ∧ (t.world.link l).power = false
      ∧ (t.world.link l).state = .off ∧ (t.world.link l).transfer = none
      ∧ (t.world.link l).bcast = none ∧ (t.world.link l).pending = [] ∧ (t.world.link l).errors = []
      ∧ (t.world.link l).errorTotal = 0 ∧ (t.world.link l).lastOp = none
      ∧ (t.world.link l).stage = [] ∧ (t.world.link l).gos = [] ∧ (t.world.link l).deferred = []
      ∧ (∀ g, (t.world.link l).tags.get g = none)
      ∧ (t.world.link l).timer = 0 ∧ (t.world.link l).scanPos = none ∧ (t.world.link l).cal = none
      ∧ (t.world.link l).wakeOwed = false ∧ (t.world.link l).forceOwed = false
      ∧ (t.world.link l).hunting = false
      ∧ ∀ a, t.world.driver l a = ⟨.absent, 4, 0, none, none, none, none, none, 0, .clear, 0, false⟩)
    ∧ (∀ ch, t.world.monitor.channels.get ch =
        ⟨false, .ain 0, .above, 0, 4095, 1, false, false, false, .unknown, 0, none, 0, none⟩
      ∧ t.world.monitor.supplied.get ch = none)
    ∧ (∀ i, t.world.monitor.ain.get i = none ∧ t.world.monitor.cin.get i = none)
    ∧ t.world.monitor.timer = 0 ∧ t.world.monitor.scanDue = false
    ∧ t.world.monitor.scan = none
    ∧ t.world.ctl.state = .active ∧ t.world.ctl.auto = false ∧ t.world.ctl.guard = 0
    ∧ t.world.ctl.lastTest = none ∧ t.world.ctl.lastChange = none
    ∧ (∀ l, t.world.ctl.asleep.get l = false ∧ t.world.ctl.restartWake.get l = false)
    ∧ t.port = ⟨.hunt, [], none, [], none, 0, 0, 0#16, high, false⟩
    ∧ t.world.notices.get NoticeKind.coldStart.no = ⟨true, false, 0, some 0, some 0⟩
    ∧ ∀ k, k ≠ NoticeKind.coldStart.no → t.world.notices.get k = ⟨false, false, 0, none, none⟩)

/-! ## The Time Base -/

/-- The calendar of R2: its months, and the date after a date.
R1, R2: what a tick event does to the Time Base. A HOLDOVER that the tick event before made due is
entered first (log entry 2). -/
def Obligations.TickMovesTime : Prop :=
  ((∀ y, (List.range 12).map (fun m => monthDays y (m + 1)) =
    [31, if y % 4 = 0 then 29 else 28, 31, 30, 31, 30, 31, 31, 30, 31, 30, 31])
  ∧ ∀ d : Date, d.valid = true → d ≠ ⟨2099, 12, 31⟩ →
    d.next.valid = true ∧ civic d.next 0 = civic d 0 + 8640000)
  ∧ (∀ s : State, s.held = false → s.time.wf = true →
    ∃ t, exec .tickEvent s = .next t ∧ t.lib = s.lib
      ∧ t.time.silence = min (s.time.silence + 1) 65535
      ∧ t.time.faults = s.time.faults ∧ t.time.enabled = s.time.enabled
      ∧ t.time.polarity = s.time.polarity ∧ t.time.lastError = s.time.lastError
      ∧ (s.time.state = .unset →
        t.time.date = s.time.date ∧ t.time.tod = s.time.tod ∧ t.time.state = .unset
          ∧ t.reachOpen = false)
      ∧ (s.time.state ≠ .unset → s.time.tod + 1 < 8640000 →
        t.time.date = s.time.date ∧ t.time.tod = s.time.tod + 1
          ∧ t.time.state = s.silenceHoldover.time.state ∧ t.reachOpen = true)
      ∧ (s.time.state ≠ .unset → s.time.tod + 1 = 8640000 → s.time.date ≠ ⟨2099, 12, 31⟩ →
        t.time.date = s.time.date.next ∧ t.time.tod = 0
          ∧ t.time.state = s.silenceHoldover.time.state ∧ t.reachOpen = true
          ∧ (t.world.notices.get NoticeKind.dayRoll.no).pending = true)
      ∧ (s.time.state ≠ .unset → s.time.tod + 1 = 8640000 → s.time.date = ⟨2099, 12, 31⟩ →
        t.time.date = s.time.date ∧ t.time.tod = s.time.tod ∧ t.time.state = .unset
          ∧ t.reachOpen = false ∧ (t.world.notices.get NoticeKind.timeState.no).pending = true))

/-- R1, R139 to R141, R146, R148, R150, R163, R178: a tick event that brings no day roll counts once in
every duration of the blocks, and changes nothing else of them but the mark of an amended end cut (log
entry 10). It acts on the part as it stands once all that the tick event before made due has been acted on, in
the one order of log entry 2, each an event of its own: the pulse silence, the durations of the links, the scan,
the dark guard, and the open reach. A count that has no bound of the manual's is held at its end
(log entry 10). -/
def Obligations.TickRunsDurations : Prop :=
  (∀ s : State,
    let links := (upTo 4).foldl (fun u l =>
      ({ u with world :=
          let aged := (u.world.errorsAge l).each (upTo 16) fun a v => v.backoffExpiry l a
          ((((aged.timeout u.env l).warmUpEnd u.env l).restEnd u.env l).quiesceEnd l).pump u.env l }
        : State).choose) s.silenceHoldover.choose
    let scans := (upTo 4).foldl (fun u _ => u.convertFreely.choose) links.scanFreely.choose
    s.settle = ({ scans with world := (scans.world.guardExpiry scans.env).pumpAll scans.env }
      : State).choose.closeReach.choose)
  ∧ ∀ s : State, s.held = false → (s.time.state = .unset ∨ s.time.tod + 1 < 8640000) →
    let u := s.settle
    ∃ t, exec .tickEvent s = .next t ∧ t.lib = s.lib
      ∧ t.world.plans = u.world.plans ∧ t.world.zones = u.world.zones
      ∧ t.world.groups = u.world.groups ∧ t.world.notices = u.world.notices
      ∧ (∀ p, { t.world.player p with cutFresh := (u.world.player p).cutFresh } = u.world.player p)
      ∧ t.world.ctl = { u.world.ctl with guard :=
          if u.world.ctl.state = .active then satUp 6000 u.world.ctl.guard else u.world.ctl.guard }
      ∧ t.world.monitor.channels = u.world.monitor.channels
      ∧ (let due := match u.world.ctl.state with
            | .parked => none
            | .dark => some 100
            | .active => some 10
        match due with
          | none => t.world.monitor = u.world.monitor
          | some n =>
            if n ≤ u.world.monitor.timer + 1 then
              t.world.monitor = { u.world.monitor with timer := 0, scanDue := true }
            else t.world.monitor = { u.world.monitor with timer := u.world.monitor.timer + 1 })
      ∧ ∀ l, ∃ drivers, t.world.link l = { u.world.link l with
            timer := (match (u.world.link l).state with
              | .warming => satUp 500 (u.world.link l).timer
              | .quiescing => satUp 500 (u.world.link l).timer
              | .faulted => satUp 500 (u.world.link l).timer
              | _ => (u.world.link l).timer)
            transfer := (u.world.link l).transfer.map fun x =>
              { x with ticks := if x.onWire then x.ticks else x.ticks + 1 }
            errors := (u.world.link l).errors.map (· + 1)
            stage := (u.world.link l).stage.map fun x =>
              { x with backoff := if x.backoff = .raised then .lapsing else x.backoff }
            drivers := drivers }
          ∧ ∀ a, drivers.get a = { u.world.driver l a with
            quiet := satUp 65535 (u.world.driver l a).quiet
            backoff :=
              if (u.world.driver l a).backoff = .raised then .lapsing else (u.world.driver l a).backoff
            poll :=
              if (u.world.zone (zoneAt l a)).configured ∧ (u.world.driver l a).lost then
                satUp 100 (u.world.driver l a).poll
              else (u.world.driver l a).poll }

/-- R6, R14: a pulse silence of 300 in LOCKED brings HOLDOVER and raises TIME_STATE; otherwise the event
changes nothing (log entry 2). A FREE output may begin a frame (R191). -/
def Obligations.SilenceBringsHoldover : Prop :=
  ∀ s : State, s.held = false →
    (s.time.state = .locked → 300 ≤ s.time.silence →
      exec .pulseSilenceHoldover s = .next
        { s with
          time := { s.time with state := .holdover }
          world := { s.world with
            notices := s.world.notices.upd NoticeKind.timeState.no (Notice.raise s.time.civic) } }.choose)
    ∧ (¬(s.time.state = .locked ∧ 300 ≤ s.time.silence) →
      exec .pulseSilenceHoldover s = .next s.choose)

/-- R4: the phase error of a time of day, which lies in −50 to +49, and its whole second.
R4, R5, R14: a pulse that aligns the time, or that would be the third phase fault, brings the time of
day to the whole second and the time state to LOCKED. A forward step stops at the last tick of the range
(R8). TIME_STEPPED is raised by a forced step and by one of more than 2 ticks, which goes by the step actually
made (log entry 26), and by no other; a pulse that finds the part LOCKED raises no TIME_STATE.
R4, R5: a first or second phase fault is counted, steps nothing and raises nothing; an edge of the other polarity, an
edge while the pulse is DISABLED and an edge in UNSET are not taken. A HOLDOVER and an open reach that the
last tick event left are acted on before the pulse (log entry 2), and a FREE output begins the frame that
the HOLDOVER brings before the pulse is taken (R191).
R8: the reaches of a forward step: one at the new tick within a date; past midnight one at the date's last tick,
then the day roll, then one at the new tick (log entry 36); on the last date, the first alone.
R3: a reach acts on every point that it makes due of every block: arm points, the players' points in the order
of R61, send ticks and expiry points, in the order of log entry 2; what each point does is in the statements of
its block. -/
def Obligations.PulsesTaken : Prop :=
  (∀ n : Nat, -50 ≤ phaseError n ∧ phaseError n ≤ 49 ∧ (100 : Int) ∣ (n : Int) - phaseError n)
  ∧ (∀ (s : State) (edge : Edge), s.held = false → s.time.wf = true →
    s.time.enabled = true → s.time.polarity = edge → s.time.state ≠ .unset →
    ((phaseError s.time.tod).natAbs ≤ 20 ∨ s.time.faults = 2) →
    ∃ t, exec (.pulse edge) s = .next t ∧ t.lib = s.lib
      ∧ t.time.state = .locked ∧ t.time.faults = 0 ∧ t.time.silence = 0
      ∧ t.time.lastError = some (phaseError s.time.tod)
      ∧ t.time.enabled = s.time.enabled ∧ t.time.polarity = s.time.polarity
      ∧ (s.time.tod % 100 < 50 →
        t.time.date = s.time.date ∧ t.time.tod = s.time.tod - s.time.tod % 100)
      ∧ (50 ≤ s.time.tod % 100 → s.time.tod + (100 - s.time.tod % 100) < 8640000 →
        t.time.date = s.time.date ∧ t.time.tod = s.time.tod + (100 - s.time.tod % 100))
      ∧ (50 ≤ s.time.tod % 100 → s.time.tod + (100 - s.time.tod % 100) = 8640000 →
        if s.time.date = ⟨2099, 12, 31⟩ then t.time.date = s.time.date ∧ t.time.tod = 8639999
        else t.time.date = s.time.date.next ∧ t.time.tod = 0)
      ∧ (s.reachOpen = false →
        t.port = (s.port.choose s.silenceHoldover.world.notices).choose t.world.notices)
      ∧ (s.time.state ≠ .locked → (t.world.notices.get NoticeKind.timeState.no).pending = true)
      ∧ (let reached := (if s.time.tod % 100 < 50 then s.meet
          else s.meet.stepForward (100 - s.time.tod % 100)).world
        let stepped := 20 < (phaseError s.time.tod).natAbs
          ∨ 2 < ((t.time.civic : Int) - (s.time.civic : Int)).natAbs
        t.world = { reached with notices := t.world.notices }
        ∧ (stepped → (t.world.notices.get NoticeKind.timeStepped.no).pending = true)
        ∧ (¬stepped → t.world.notices.get NoticeKind.timeStepped.no
          = reached.notices.get NoticeKind.timeStepped.no)
        ∧ (s.silenceHoldover.time.state = .locked → t.world.notices.get NoticeKind.timeState.no
          = reached.notices.get NoticeKind.timeState.no)))
  ∧ (∀ (s : State) (edge : Edge), s.held = false →
    (s.time.enabled = true → s.time.polarity = edge → s.time.state ≠ .unset →
      20 < (phaseError s.time.tod).natAbs → s.time.faults < 2 →
      ∃ t, exec (.pulse edge) s = .next t ∧ t.lib = s.lib ∧ t.world = s.meet.world ∧ t.time = { s.time with
        lastError := some (phaseError s.time.tod)
        silence := 0
        faults := s.time.faults + 1
        state := s.silenceHoldover.time.state })
    ∧ (¬(s.time.enabled = true ∧ s.time.polarity = edge ∧ s.time.state ≠ .unset) →
      exec (.pulse edge) s = .next s.choose))
  ∧ (∀ (s : State) (n : Nat),
    let at_ (u : State) (d : Date) (tod : Nat) : State := { u with time := { u.time with date := d, tod := tod } }
    let reached (u : State) : State := { u with world := (u.world.openReach.reach u.env).pumpAll u.env }
    let d := s.time.date
    let old := reached (at_ s d 8639999)
    (s.stepForward 0 = s)
    ∧ (n ≠ 0 → s.time.tod + n < 8640000 → s.stepForward n = reached (at_ s d (s.time.tod + n)))
    ∧ (n ≠ 0 → 8640000 ≤ s.time.tod + n →
      (d = ⟨2099, 12, 31⟩ → s.stepForward n = old)
      ∧ (d ≠ ⟨2099, 12, 31⟩ →
        let new := at_ old d.next (s.time.tod + n - 8640000)
        s.stepForward n = reached { new with world := new.world.dayRoll new.env d.next })))
  ∧ (∀ (w : World) (e : Env) (p : Fin 8),
    (∀ c, w.players.get p = c → w.openReach.players.get p = { c with cutFresh := false })
    ∧ w.openReach = { w with players := w.openReach.players }
    ∧ (let armed := match w.activeBank with
          | none => w
          | some bk => w.each ((w.bank bk).armable e.now false) (World.armOne e bk)
      let played := armed.each (upTo 8) fun p v => v.pointsFor e p (64 * (2 * e.now + 400))
      let sent := played.each (upTo 4) fun l v => v.onLink l fun k => { k with gos := k.gos.map fun g =>
        { g with ready := g.ready || g.send ≤ e.now } }
      w.reach e = sent.each (sent.groups.filter fun g => g.due + 51 ≤ e.now) (World.expire e)))
  ∧ (∀ s : State,
    (s.reachOpen = false → s.closeReach = s)
    ∧ (s.reachOpen = true → s.closeReach =
      { s with world := (s.world.reach s.env).pumpAll s.env, reachOpen := false })
    ∧ s.meet = s.silenceHoldover.choose.closeReach.choose)

/-- R13, R198, TABLE 11-2: GET_TIME answers the Time Base record as it stands; its layout and codes are the
model's reading (log entry 14). -/
def Obligations.GetTimeAnswersRecord : Prop :=
  ∀ (s : State) (tag : Nat), s.idle = true →
    exec (.getTime tag) s = .next (State.replied 0x02 tag (s, ⟨.ok,
      bigEndian 2 s.time.date.year ++ [byteOf s.time.date.month, byteOf s.time.date.day]
        ++ bigEndian 3 s.time.tod
        ++ [(match s.time.state with
            | .unset => 0#8
            | .free => 1#8
            | .locked => 2#8
            | .holdover => 3#8),
          byteOf s.time.faults, if s.time.enabled then 1#8 else 0#8,
          match s.time.polarity with
            | .rising => 0#8
            | .falling => 1#8]
        ++ bigEndian 2 s.time.silence
        ++ [match s.time.lastError with
            | none => 0x80#8
            | some e => BitVec.ofInt 8 e]⟩))

/-- R7, R14: SET_PULSE. A HOLDOVER that a tick event has made due is entered first (log entry 2), and a FREE
output begins the frame it brings before the request is carried out (R191). A bad enable is reported before
a bad polarity (log entry 17). -/
def Obligations.SetPulseSetsRecord : Prop :=
  ∀ (s : State) (tag enable polarity : Nat), s.idle = true →
    (1 < enable → exec (.setPulse tag enable polarity) s
      = .next (State.replied 0x03 tag (s, ⟨.badField, [0#8, 0#8, 0xFF#8, 0xFF#8, 0xFF#8, 0xFF#8]⟩)))
    ∧ (enable ≤ 1 → 1 < polarity → exec (.setPulse tag enable polarity) s
      = .next (State.replied 0x03 tag (s, ⟨.badField, [1#8, 0#8, 0xFF#8, 0xFF#8, 0xFF#8, 0xFF#8]⟩)))
    ∧ (enable ≤ 1 → polarity ≤ 1 → ¬(s.time.state = .locked ∧ 300 ≤ s.time.silence) →
      exec (.setPulse tag enable polarity) s = .next (State.replied 0x03 tag
        (let unlocks := enable = 0 ∧ (s.time.state = .locked ∨ s.time.state = .holdover)
         { s with
            time := { s.time with
              enabled := enable == 1
              polarity := if polarity = 0 then .rising else .falling
              faults := 0
              silence := 0
              state := if unlocks then .free else s.time.state }
            world := { s.world with
              notices :=
                if unlocks then
                  s.world.notices.upd NoticeKind.timeState.no (Notice.raise s.time.civic)
                else s.world.notices } }, ⟨.ok, []⟩)))
    ∧ (enable ≤ 1 → polarity ≤ 1 → s.time.state = .locked → 300 ≤ s.time.silence →
      exec (.setPulse tag enable polarity) s = .next (State.replied 0x03 tag
        (let once := s.world.notices.upd NoticeKind.timeState.no (Notice.raise s.time.civic)
         let held := { s with
            time := { s.time with state := .holdover }
            world := { s.world with notices := once } }.choose
         { held with
            time := { s.time with
              enabled := enable == 1
              polarity := if polarity = 0 then .rising else .falling
              faults := 0
              silence := 0
              state := if enable = 0 then .free else .holdover }
            world := { s.world with
              notices :=
                if enable = 0 then
                  once.upd NoticeKind.timeState.no (Notice.raise s.time.civic)
                else once } }, ⟨.ok, []⟩)))

/-- R10, R12, R14: a SET_TIME in UNSET, or one that moves the time by more than 100 ticks with no player
live, is a jump.
R10, R11, R14: a SET_TIME within 100 ticks of the part's time is a trim: a forward one brings the time
asked for, a backward one too but that it stops at 0 of the current date.
R10: the refusals of SET_TIME. The place of the failing field is that of the first in body order (log
entry 17). A HOLDOVER and an open reach that the last tick event left are acted on before the request is
judged (log entries 2 and 25).
R14: a jump that moves the time and a trim of more than 2 ticks raise TIME_STEPPED, and no other does.
R8, R11: a forward trim makes the reaches of a forward step, as the statement of PULSE has them.
R12, R47, R178: a jump to another date is a DATE SET: the plan of that date comes into force, unless its bank is
ACTIVE already, or the plan in force lapses with a notice; then the dark test. What a bank does as it comes into
force or leaves it is in the statement of ACTIVATE_PLAN. -/
def Obligations.SetTimeTaken : Prop :=
  (∀ (s : State) (tag y m d tod : Nat), s.idle = true → (⟨y, m, d⟩ : Date).valid = true →
    tod < 8640000 →
    (s.time.state = .unset
      ∨ (100 < ((civic ⟨y, m, d⟩ tod : Int) - (s.time.civic : Int)).natAbs
        ∧ ∀ p, (s.meet.world.player p).live = false)) →
    let u := s.meet
    let D : Date := ⟨y, m, d⟩
    let keeps := s.time.date = D
      ∨ ∃ bk, (u.world.bank bk).state = .active ∧ (u.world.bank bk).date = D
    ∃ t, exec (.setTime tag y m d tod) s = .next t ∧ t.lib = s.lib
      ∧ t.time = { s.time with
          date := ⟨y, m, d⟩, tod := tod, state := .free, faults := 0, silence := 0 }
      ∧ t.reachOpen = false
      ∧ t.port.slot = some ⟨0x01, tag, .ok,
          bigEndian 2 y ++ [byteOf m, byteOf d] ++ bigEndian 3 tod ++ [1#8]⟩
      ∧ (s.time.state ≠ .free → (t.world.notices.get NoticeKind.timeState.no).pending = true)
      ∧ (¬(s.time.date = ⟨y, m, d⟩ ∧ s.time.tod = tod) →
        (t.world.notices.get NoticeKind.timeStepped.no).pending = true)
      ∧ (s.time.date = ⟨y, m, d⟩ → s.time.tod = tod →
        t.world.notices.get NoticeKind.timeStepped.no = u.world.notices.get NoticeKind.timeStepped.no)
      ∧ (∃ notices,
        let v : World := { u.world with notices := notices }
        let e : Env := ⟨civic D tod, s.lib⟩
        t.world = if s.time.date = D then v else (v.dateSet e D).pumpAll e)
      ∧ (∀ bk, (t.world.bank bk).date = (u.world.bank bk).date
        ∧ (t.world.bank bk).list.map (·.booking.id) = (u.world.bank bk).list.map (·.booking.id))
      ∧ (¬((u.world.bank .a).state = .active ∧ (u.world.bank .b).state = .active) →
        (keeps → ∀ bk, (t.world.bank bk).state = (u.world.bank bk).state)
        ∧ (¬keeps → ∀ bk, (u.world.bank bk).state = .ready → (u.world.bank bk).date = D →
          ¬((u.world.bank bk.other).state = .ready ∧ (u.world.bank bk.other).date = D) →
          (t.world.bank bk).state = .active
          ∧ (t.world.bank bk.other).state =
            (if (u.world.bank bk.other).state = .active ∨ (u.world.bank bk.other).state = .lapsed
              then .spent else (u.world.bank bk.other).state))
        ∧ (¬keeps → (∀ bk, ¬((u.world.bank bk).state = .ready ∧ (u.world.bank bk).date = D)) →
          (∀ bk, (t.world.bank bk).state =
            if (u.world.bank bk).state = .active then .lapsed else (u.world.bank bk).state)
          ∧ (t.world.notices.get NoticeKind.planMissing.no).pending = true)))
  ∧ (∀ (s : State) (tag y m d tod : Nat), s.idle = true → s.time.wf = true →
    (⟨y, m, d⟩ : Date).valid = true → tod < 8640000 → s.time.state ≠ .unset →
    ((civic ⟨y, m, d⟩ tod : Int) - (s.time.civic : Int)).natAbs ≤ 100 →
    ∃ t, exec (.setTime tag y m d tod) s = .next t ∧ t.lib = s.lib
      ∧ (s.time.civic ≤ civic ⟨y, m, d⟩ tod ∨ s.time.date = ⟨y, m, d⟩ →
        t.time.date = ⟨y, m, d⟩ ∧ t.time.tod = tod)
      ∧ (civic ⟨y, m, d⟩ tod < s.time.civic → s.time.date ≠ ⟨y, m, d⟩ →
        t.time.date = s.time.date ∧ t.time.tod = 0)
      ∧ t.time.state = .free ∧ t.time.faults = 0 ∧ t.time.silence = s.time.silence
      ∧ t.time.enabled = s.time.enabled ∧ t.time.polarity = s.time.polarity
      ∧ t.time.lastError = s.time.lastError
      ∧ t.port.slot = some ⟨0x01, tag, .ok, bigEndian 2 t.time.date.year
          ++ [byteOf t.time.date.month, byteOf t.time.date.day] ++ bigEndian 3 t.time.tod ++ [1#8]⟩
      ∧ (s.time.state ≠ .free → (t.world.notices.get NoticeKind.timeState.no).pending = true)
      ∧ (let reached := (s.meet.stepForward (civic ⟨y, m, d⟩ tod - s.time.civic)).world
        let stepped := 2 < ((t.time.civic : Int) - (s.time.civic : Int)).natAbs
        t.world = { reached with notices := t.world.notices }
        ∧ (stepped → (t.world.notices.get NoticeKind.timeStepped.no).pending = true)
        ∧ (¬stepped → t.world.notices.get NoticeKind.timeStepped.no
          = reached.notices.get NoticeKind.timeStepped.no)))
  ∧ (∀ (w : World) (e : Env) (d : Date),
    let ready (bk : Bank) := (w.bank bk).state = .ready ∧ (w.bank bk).date = d
    let sets (v : World) := w.dateSet e d = v.autoDark e
    (∀ bk, w.activeBank = some bk → (w.bank bk).date = d → sets w)
    ∧ ((∀ bk, w.activeBank = some bk → (w.bank bk).date ≠ d) →
      (∀ bk, ready bk → ¬ready bk.other → sets (w.comeIntoForce e bk))
      ∧ (∀ bk, (∀ x, ¬ready x) → (w.bank bk).state = .active → (w.bank bk.other).state ≠ .active →
        sets ((w.leaveForce e bk .lapsed).raise e .planMissing))
      ∧ ((∀ x, ¬ready x) → (∀ x, (w.bank x).state ≠ .active) → sets (w.raise e .planMissing))))
  ∧ (∀ (s : State) (tag y m d tod : Nat), s.idle = true →
    ((⟨y, m, d⟩ : Date).valid = false ∨ 8640000 ≤ tod →
      exec (.setTime tag y m d tod) s = .next (State.replied 0x01 tag (s, .badField
        (if y < 2000 ∨ 2099 < y then 0 else if m = 0 ∨ 12 < m then 2
          else if d = 0 ∨ monthDays y m < d then 3 else 4))))
    ∧ ((⟨y, m, d⟩ : Date).valid = true → tod < 8640000 → s.time.state ≠ .unset →
      100 < ((civic ⟨y, m, d⟩ tod : Int) - (s.time.civic : Int)).natAbs →
      (∃ p, (s.meet.world.player p).live = true) →
      exec (.setTime tag y m d tod) s =
        .next (State.replied 0x01 tag (s.meet, ⟨.showsActive, []⟩))))

/-! ## The Show Library -/

/-- R17: PUT_LOOK. The place of the failing field is that of the first in body order (log entry 17). -/
def Obligations.PutLookReplacesLook : Prop :=
  ∀ (s : State) (tag look l0 l1 l2 l3 fade : Nat), s.idle = true →
    (look = 0 ∨ 256 ≤ look → exec (.putLook tag look l0 l1 l2 l3 fade) s =
      .next (State.replied 0x10 tag (s, .badField 0)))
    ∧ (∀ i : Fin 256, look = i.val → i ≠ 0 → 3000 < fade →
      exec (.putLook tag look l0 l1 l2 l3 fade) s = .next (State.replied 0x10 tag (s, .badField 5)))
    ∧ ∀ i : Fin 256, look = i.val → i ≠ 0 → fade ≤ 3000 →
      exec (.putLook tag look l0 l1 l2 l3 fade) s = .next (State.replied 0x10 tag
        ({ s with lib := { s.lib with looks := s.lib.looks.set i ⟨l0, l1, l2, l3, fade⟩ } }, .ok []))

/-- R18: GET_LOOK answers the look table, look 0 included, and after a PUT_LOOK the values it set. -/
def Obligations.GetLookReadsTable : Prop :=
  (∀ (s : State) (tag : Nat) (i : Fin 256), s.idle = true →
    exec (.getLook tag i.val) s = .next (State.replied 0x11 tag (s,
      let v := s.lib.looks.get i
      .ok ([byteOf i.val, byteOf v.l0, byteOf v.l1, byteOf v.l2, byteOf v.l3] ++ bigEndian 2 v.fade))))
  ∧ (∀ (s : State) (tag : Nat), s.idle = true → s.lib.wf →
    exec (.getLook tag 0) s = .next (State.replied 0x11 tag (s,
      .ok [0#8, 0#8, 0#8, 0#8, 0#8, 0#8, 0#8])))
  ∧ ∀ (s t : State) (tag l0 l1 l2 l3 fade : Nat) (i : Fin 256), s.idle = true → i ≠ 0 → fade ≤ 3000 →
    exec (.putLook tag i.val l0 l1 l2 l3 fade) s = .next t →
    t.lib.looks.get i = ⟨l0, l1, l2, l3, fade⟩

/-- R21: OPEN_SHOW.
R22, R23: ADD_SECTION. The show number is tested first, and the refusals in the order of R22 (log entry 21);
a bad kind is reported before a length of 0 (log entry 17). -/
def Obligations.ShowOpenedAndSectioned : Prop :=
  (∀ (s : State) (tag n : Nat), s.idle = true → n = 0 ∨ 32 < n →
    (∀ name, exec (.openShow tag n name) s = .next (State.replied 0x12 tag (s, .badField 0)))
    ∧ ∀ kind length passes, exec (.addSection tag n kind length passes) s =
      .next (State.replied 0x13 tag (s, .badField 0)))
  ∧ (∀ (s : State) (tag : Nat) (n : Fin 32) (name : List Byte), s.idle = true →
    ((s.lib.showRec n).state ≠ .empty → exec (.openShow tag (n.val + 1) name) s =
      .next (State.replied 0x12 tag (s, .no .wrongState)))
    ∧ ((s.lib.showRec n).state = .empty → (∃ m, s.lib.openShow = some m ∧ m ≠ n) →
      exec (.openShow tag (n.val + 1) name) s = .next (State.replied 0x12 tag (s, .no .inUse)))
    ∧ ((s.lib.showRec n).state = .empty → (s.lib.openShow = none ∨ s.lib.openShow = some n) →
      exec (.openShow tag (n.val + 1) name) s = .next (State.replied 0x12 tag
        ({ s with lib := { s.lib with
            shows := s.lib.shows.set n ⟨.building, name, [], [], 0, none⟩
            openShow := some n } }, .ok []))))
  ∧ (∀ (s : State) (tag : Nat) (n : Fin 32) (kind length passes : Nat), s.idle = true →
    let r := s.lib.showRec n
    (r.state ≠ .building → exec (.addSection tag (n.val + 1) kind length passes) s =
      .next (State.replied 0x13 tag (s, .no .wrongState)))
    ∧ (r.state = .building → 2 < kind → exec (.addSection tag (n.val + 1) kind length passes) s =
      .next (State.replied 0x13 tag (s, .badField 1)))
    ∧ (r.state = .building → kind ≤ 2 → length = 0 →
      exec (.addSection tag (n.val + 1) kind length passes) s =
        .next (State.replied 0x13 tag (s, .badField 2)))
    ∧ (r.state = .building → kind ≤ 2 → 0 < length → 16 ≤ r.parts.length →
      exec (.addSection tag (n.val + 1) kind length passes) s =
        .next (State.replied 0x13 tag (s, .no .noRoom)))
    ∧ ∀ k, r.state = .building → kind? kind = some k → 0 < length → r.parts.length < 16 →
      exec (.addSection tag (n.val + 1) kind length passes) s = .next (State.replied 0x13 tag
        ({ s with lib := { s.lib with
            shows := s.lib.shows.set n
              { r with parts := r.parts ++ [⟨k, length, passes, r.cues, 0⟩] } } },
          .ok [byteOf r.parts.length])))

/-- R20, R24, R25: an accepted ADD_CUES writes its batch at the next show-wide indexes, in blocks taken
from the head of the free-block list, and no cue that stood is changed.
R24: the refusals of ADD_CUES, in the order of its tests, a show number 0 or above 32 the first (log entry
21). The body offset of a failing cue's field is the model's reading of R198 (log entry 17). -/
def Obligations.CuesAppended : Prop :=
  (∀ (s : State) (tag n : Nat) (cues : List CueField), s.idle = true → n = 0 ∨ 32 < n →
    exec (.addCues tag n cues) s = .next (State.replied 0x14 tag (s, .badField 0)))
  ∧ (∀ (s : State) (tag : Nat) (n : Fin 32) (cues : List CueField) (front : List SectionRec)
    (last : SectionRec), s.idle = true → s.lib.wf →
    let r := s.lib.showRec n
    let blocks := (r.cues + cues.length + 63) / 64
    r.state = .building → r.parts = front ++ [last] → 1 ≤ cues.length → cues.length ≤ 16 →
    (∀ c ∈ cues, c.offset < last.length ∧ c.part < 16 ∧ c.look < 256) →
    r.cues + cues.length ≤ 1024 → blocks - r.blocks.length ≤ s.lib.free.length →
    ∃ lib, exec (.addCues tag (n.val + 1) cues) s = .next (State.replied 0x14 tag
        ({ s with lib := lib }, .ok (bigEndian 2 (r.cues + cues.length) ++ bigEndian 2 r.cues
          ++ [byteOf lib.free.length])))
      ∧ lib.looks = s.lib.looks ∧ lib.openShow = s.lib.openShow
      ∧ lib.free = s.lib.free.drop (blocks - r.blocks.length)
      ∧ lib.shows = s.lib.shows.set n { r with
          blocks := r.blocks ++ s.lib.free.take (blocks - r.blocks.length)
          cues := r.cues + cues.length
          parts := front ++ [{ last with count := last.count + cues.length }] }
      ∧ (∀ (i : Nat) (c : CueField), cues[i]? = some c →
        (lib.cueAt (lib.showRec n) (r.cues + i)).map
          (fun q => (q.offset, q.part.val, q.look.val)) = some (c.offset, c.part, c.look))
      ∧ (∀ i, i < r.cues → lib.cueAt (lib.showRec n) i = s.lib.cueAt r i)
      ∧ ∀ m, m ≠ n → ∀ i, lib.cueAt (lib.showRec m) i = s.lib.cueAt (s.lib.showRec m) i)
  ∧ (∀ (s : State) (tag : Nat) (n : Fin 32) (cues : List CueField), s.idle = true →
    let r := s.lib.showRec n
    let refused (a : Answer) :=
      exec (.addCues tag (n.val + 1) cues) s = .next (State.replied 0x14 tag (s, a))
    (r.state ≠ .building ∨ r.parts = [] → refused (.no .wrongState))
    ∧ ∀ last, r.state = .building → r.parts.getLast? = some last →
      (cues = [] ∨ 16 < cues.length → refused (.badField 1))
      ∧ (cues.length ≤ 16 → ∀ (front rest : List CueField) (c : CueField),
        cues = front ++ c :: rest →
        (∀ x ∈ front, x.offset < last.length ∧ x.part < 16 ∧ x.look < 256) →
        (last.length ≤ c.offset → refused (.badField (2 + 4 * front.length) (some front.length)))
        ∧ (c.offset < last.length → 16 ≤ c.part →
          refused (.badField (2 + 4 * front.length + 2) (some front.length))))
      ∧ (1 ≤ cues.length → cues.length ≤ 16 →
        (∀ x ∈ cues, x.offset < last.length ∧ x.part < 16 ∧ x.look < 256) →
        (1024 < r.cues + cues.length
          ∨ s.lib.free.length < (r.cues + cues.length + 63) / 64 - r.blocks.length) →
        refused (.no .noRoom)))

/-- R26, R27, R32: CLOSE_SHOW closes an OPEN show just when it passes the validation, which the statement
spells out, and sets its finite length; a show that fails stays as it was, and the reply gives the reason
and the indexes of its first failure. Within a section each test is made whole before the next (log entry
16).
R20, R28, R29: DROP_SHOW. A show number 0 or above 32 is refused before anything else (log entry 21). -/
def Obligations.ShowClosedAndDropped : Prop :=
  (∀ (s : State) (tag n : Nat), s.idle = true → n = 0 ∨ 32 < n →
    exec (.closeShow tag n) s = .next (State.replied 0x15 tag (s, .badField 0))
    ∧ exec (.dropShow tag n) s = .next (State.replied 0x16 tag (s, .badField 0)))
  ∧ (∀ (s : State) (tag : Nat) (n : Fin 32), s.idle = true →
    let r := s.lib.showRec n
    let cues (sec : SectionRec) := s.lib.cuesFrom r sec.count sec.first
    let sound :=
      (∀ (k : Nat) (sec : SectionRec), r.parts[k]? = some sec →
        (sec.kind = .preroll → k = 0 ∧ sec.passes = 0)
        ∧ (sec.kind = .coda → k + 1 = r.parts.length ∧ sec.passes = 1)
        ∧ sec.count ≠ 0
        ∧ (cues sec).Pairwise (fun a b => a.offset ≤ b.offset)
        ∧ (cues sec).Pairwise fun a b => ¬(a.offset = b.offset ∧ a.part = b.part))
      ∧ ∃ sec ∈ r.parts, sec.kind = .main
    (r.state ≠ .building →
      exec (.closeShow tag (n.val + 1)) s = .next (State.replied 0x15 tag (s, .no .wrongState)))
    ∧ (r.state = .building → ¬sound → ∃ why a i,
      exec (.closeShow tag (n.val + 1)) s = .next (State.replied 0x15 tag (s, .invalid why a i)))
    ∧ (let misplaced (k : Nat) (sec : SectionRec) := (sec.kind = .preroll ∧ k ≠ 0)
        ∨ (sec.kind = .coda ∧ k + 1 ≠ r.parts.length)
      let badPasses (sec : SectionRec) := (sec.kind = .preroll ∧ sec.passes ≠ 0)
        ∨ (sec.kind = .coda ∧ sec.passes ≠ 1)
      let falls (sec : SectionRec) (i : Nat) := ∃ a b, (cues sec)[i]? = some a
        ∧ (cues sec)[i + 1]? = some b ∧ b.offset < a.offset
      let again (sec : SectionRec) (i : Nat) := ∃ j a b, j < i ∧ (cues sec)[j]? = some a
        ∧ (cues sec)[i]? = some b ∧ a.offset = b.offset ∧ a.part = b.part
      let passes (k : Nat) (sec : SectionRec) := ¬misplaced k sec ∧ ¬badPasses sec ∧ sec.count ≠ 0
        ∧ (∀ i, ¬falls sec i) ∧ ∀ i, ¬again sec i
      let answers (why : Reason) (a i : Option Nat) :=
        exec (.closeShow tag (n.val + 1)) s = .next (State.replied 0x15 tag (s, .invalid why a i))
      r.state = .building →
      (∀ (k : Nat) (sec : SectionRec), r.parts[k]? = some sec →
        (∀ (j : Nat) (x : SectionRec), j < k → r.parts[j]? = some x → passes j x) →
        (misplaced k sec → answers .sectionOrder (some k) none)
        ∧ (¬misplaced k sec → badPasses sec → answers .sectionPasses (some k) none)
        ∧ (¬misplaced k sec → ¬badPasses sec → sec.count = 0 →
          answers .emptySection (some k) none)
        ∧ (¬misplaced k sec → ¬badPasses sec → sec.count ≠ 0 →
          (∀ i, falls sec i → (∀ j < i, ¬falls sec j) →
            answers .cueOrder (some k) (some (sec.first + i + 1)))
          ∧ ((∀ i, ¬falls sec i) → ∀ i, again sec i → (∀ j < i, ¬again sec j) →
            answers .partTwice (some k) (some (sec.first + i)))))
      ∧ ((∀ (k : Nat) (sec : SectionRec), r.parts[k]? = some sec → passes k sec) →
        (∀ sec ∈ r.parts, sec.kind ≠ .main) → answers .noMain none none))
    ∧ (r.state = .building → sound →
      let mains := r.parts.filter fun x => x.kind == .main
      let codas := r.parts.filter fun x => x.kind == .coda
      let length := if ∃ x ∈ mains, x.passes = 0 then none
        else some ((mains.map fun x => x.passes * x.length).sum + (codas.map (·.length)).sum)
      exec (.closeShow tag (n.val + 1)) s = .next (State.replied 0x15 tag
        ({ s with lib := { s.lib with
            shows := s.lib.shows.set n { r with
              state := .closed
              length := some (match length with
                | none => .endless
                | some x => .ticks x) }
            openShow := none } },
          .ok (bigEndian 2 r.cues ++ bigEndian 4 (length.getD 0))))))
  ∧ (∀ (s : State) (tag : Nat) (n : Fin 32), s.idle = true →
    let r := s.lib.showRec n
    let inUse :=
      (∃ bk, ((s.world.bank bk).state = .loading ∨ (s.world.bank bk).state = .ready
          ∨ (s.world.bank bk).state = .active ∨ (s.world.bank bk).state = .lapsed)
        ∧ ∃ x ∈ (s.world.bank bk).list, x.booking.showNo = n)
      ∨ ∃ p c, (s.world.player p).state ≠ .free ∧ (s.world.player p).copy = some c
        ∧ c.booking.showNo = n
    (r.state = .empty →
      exec (.dropShow tag (n.val + 1)) s = .next (State.replied 0x16 tag (s, .no .notFound)))
    ∧ (r.state ≠ .empty → inUse →
      exec (.dropShow tag (n.val + 1)) s = .next (State.replied 0x16 tag (s, .no .inUse)))
    ∧ (s.lib.wf → r.state ≠ .empty → ¬inUse →
      ∃ lib, exec (.dropShow tag (n.val + 1)) s = .next (State.replied 0x16 tag
          ({ s with lib := lib }, .ok [byteOf lib.free.length]))
        ∧ lib.looks = s.lib.looks ∧ lib.free = s.lib.free ++ r.blocks
        ∧ lib.shows = s.lib.shows.set n ⟨.empty, List.replicate 8 0#8, [], [], 0, none⟩
        ∧ lib.openShow = (if r.state = .building then none else s.lib.openShow)
        ∧ ∀ m, m ≠ n → ∀ i, lib.cueAt (lib.showRec m) i = s.lib.cueAt (s.lib.showRec m) i))

/-! ## The Plan Banks -/

/-- R40: OPEN_PLAN.
R49: CLEAR_PLAN. The bank is tested first, then the date (log entry 21), whose offset is that of its first
bad field, the day's for a day that does not exist (log entry 17). -/
def Obligations.PlanOpenedAndCleared : Prop :=
  (∀ (s : State) (tag n : Nat), s.idle = true → bank? n = none →
    (∀ y m d, exec (.openPlan tag n y m d) s = .next (State.replied 0x20 tag (s, .badField 0)))
    ∧ exec (.clearPlan tag n) s = .next (State.replied 0x24 tag (s, .badField 0)))
  ∧ (∀ (s : State) (tag n y m d : Nat) (bk : Bank), s.idle = true → bank? n = some bk →
    let r := s.world.bank bk
    let referred := ∃ p id, (s.world.player p).state ≠ .free ∧ (s.world.player p).ref = some (bk, id)
    ((⟨y, m, d⟩ : Date).valid = false → exec (.openPlan tag n y m d) s =
      .next (State.replied 0x20 tag (s, .badField (if y < 2000 ∨ 2099 < y then 1
        else if m = 0 ∨ 12 < m then 3 else 4))))
    ∧ ((⟨y, m, d⟩ : Date).valid = true → r.state = .loading ∨ r.state = .ready ∨ r.state = .active →
      exec (.openPlan tag n y m d) s = .next (State.replied 0x20 tag (s, .no .wrongState)))
    ∧ ((⟨y, m, d⟩ : Date).valid = true → r.state = .empty ∨ r.state = .lapsed ∨ r.state = .spent →
      (referred → exec (.openPlan tag n y m d) s =
        .next (State.replied 0x20 tag (s, .no .inUse)))
      ∧ (¬referred → ∃ t, exec (.openPlan tag n y m d) s = .next t
        ∧ s.AfterReply (s.world.onBank bk fun _ => ⟨.loading, ⟨y, m, d⟩, []⟩) ⟨0x20, tag, .ok, []⟩ t)))
  ∧ (∀ (s : State) (tag n : Nat) (bk : Bank), s.idle = true → bank? n = some bk →
    let r := s.world.bank bk
    let referred := ∃ p id, (s.world.player p).state ≠ .free ∧ (s.world.player p).ref = some (bk, id)
    (r.state = .active → exec (.clearPlan tag n) s =
      .next (State.replied 0x24 tag (s, .no .wrongState)))
    ∧ (r.state ≠ .active → referred → exec (.clearPlan tag n) s =
      .next (State.replied 0x24 tag (s, .no .inUse)))
    ∧ (r.state ≠ .active → ¬referred → ∃ t, exec (.clearPlan tag n) s = .next t
      ∧ s.AfterReply (s.world.onBank bk fun r => { r with state := .empty, list := [] })
        ⟨0x24, tag, .ok, []⟩ t))

/-- R41 test 2 with TABLE 3-3 and section 3.2: what a booking's fields must be, and the booking that they
give.
R41: the body offset of the first failing field, the fields in body order, an end time judged for its range
before its next-day flag and against the start after it; in the zone map the first failing part, its number
before its zone count before its zones. That offset is the model's reading of R198 (log entry 17). A next-day flag beside an absent end time is accepted and not kept, which is the model's choice (log
entry 17). -/
def Obligations.BookingFieldsChecked : Prop :=
  (∀ f : BookingField, (∃ k, booking? f = .ok k) ↔
    (1 ≤ f.id
      ∧ 1 ≤ f.showNo ∧ f.showNo ≤ 32
      ∧ f.start ≤ 8639999
      ∧ ((f.mode = 0 ∧ f.startCond = 0xFF ∧ f.window = 0xFFFFFF)
        ∨ (f.mode = 1 ∧ f.startCond ≤ 7 ∧ 1 ≤ f.window ∧ f.window ≤ 360000))
      ∧ f.nextDay ≤ 1
      ∧ (f.endTime = 0xFFFFFF
        ∨ (f.endTime ≤ 8639999 ∧ (f.nextDay = 1 → f.endTime ≤ 2160000)
          ∧ f.start < f.endTime + 8640000 * f.nextDay))
      ∧ (f.stopCond = 0xFF ∨ f.stopCond ≤ 7)
      ∧ f.cls ≤ 7 ∧ f.sub ≤ 3 ∧ f.policy ≤ 2
      ∧ 1 ≤ f.zmap.length ∧ f.zmap.length ≤ 16
      ∧ (∀ p ∈ f.zmap, p.part ≤ 15 ∧ 1 ≤ p.zones.length ∧ p.zones.length ≤ 64
        ∧ ∀ z ∈ p.zones, z ≤ 63)
      ∧ (f.zmap.map (·.part)).Nodup ∧ (f.zmap.flatMap (·.zones)).Nodup))
  ∧ (∀ f : BookingField,
    let fields : List (Prop × Nat) :=
      [(f.id = 0, 1), (f.showNo = 0 ∨ 32 < f.showNo, 2), (8640000 ≤ f.start, 3), (1 < f.mode, 6),
        ((f.mode = 0 ∧ f.startCond ≠ 0xFF) ∨ (f.mode = 1 ∧ 7 < f.startCond), 7),
        ((f.mode = 0 ∧ f.window ≠ 0xFFFFFF) ∨ (f.mode = 1 ∧ (f.window = 0 ∨ 360000 < f.window)), 8),
        (f.endTime ≠ 0xFFFFFF ∧ 8640000 ≤ f.endTime, 11), (1 < f.nextDay, 14),
        (f.endTime ≠ 0xFFFFFF ∧ ((f.nextDay = 1 ∧ 2160000 < f.endTime)
          ∨ f.endTime + 8640000 * f.nextDay ≤ f.start), 11),
        (f.stopCond ≠ 0xFF ∧ 7 < f.stopCond, 15), (7 < f.cls, 16), (3 < f.sub, 17), (2 < f.policy, 18),
        (f.zmap = [] ∨ 16 < f.zmap.length, 19)]
    (∀ front bad off rest, fields = front ++ (bad, off) :: rest → (∀ x ∈ front, ¬x.1) → bad →
      booking? f = .error off)
    ∧ ∀ (front rest : List PartField) (p : PartField), (∀ x ∈ fields, ¬x.1) →
      f.zmap = front ++ p :: rest →
      (∀ x ∈ front, x.part < 16 ∧ 1 ≤ x.zones.length ∧ x.zones.length ≤ 64 ∧ ∀ z ∈ x.zones, z < 64) →
      (front.map (·.part)).Nodup → (front.flatMap (·.zones)).Nodup →
      let off := 20 + (front.map fun x => 2 + x.zones.length).sum
      let fits := p.part < 16 ∧ p.part ∉ front.map (·.part)
      (¬fits → booking? f = .error off)
      ∧ (fits → p.zones = [] ∨ 64 < p.zones.length → booking? f = .error (off + 1))
      ∧ (fits → p.zones.length ≤ 64 → ∀ zs more z, p.zones = zs ++ z :: more → (∀ y ∈ zs, y < 64) →
        (front.flatMap (·.zones) ++ zs).Nodup → 63 < z ∨ z ∈ front.flatMap (·.zones) ++ zs →
        booking? f = .error (off + 2 + zs.length)))
  ∧ ∀ (f : BookingField) (k : Booking), booking? f = .ok k →
    k.id = f.id ∧ k.showNo.val + 1 = f.showNo ∧ k.start = f.start
    ∧ (f.mode = 0 → k.mode = .atTime)
    ∧ (f.mode = 1 → ∃ ch, ch.val = f.startCond ∧ k.mode = .onCondition ch f.window)
    ∧ k.endTime = (if f.endTime = 0xFFFFFF then none else some ⟨f.endTime, f.nextDay == 1⟩)
    ∧ k.stopCond.map (·.val) = (if f.stopCond = 0xFF then none else some f.stopCond)
    ∧ k.cls = f.cls ∧ k.sub = f.sub
    ∧ k.policy = (if f.policy = 0 then .skip else if f.policy = 1 then .join else .restart)
    ∧ k.zmap.map (fun m => (m.part.val, m.zones.map (·.val))) = f.zmap.map fun m => (m.part, m.zones)

/-- R41, R42: ADD_BOOKING. The body offset of a failing field is the model's reading of R198 (log entry
17), and the bank is tested first (log entry 21).
R42, R50, R51, R53: an amendment to an ACTIVE bank whose arm point has passed is armed, waitlisted or skipped
at once; in UNSET too, which is the model's choice (log entry 29). While PARKED it is left PENDING, its point
acted on (log entry 22). -/
def Obligations.AddBookingAppends : Prop :=
  (∀ (s : State) (tag n : Nat) (f : BookingField), s.idle = true → bank? n = none →
    exec (.addBooking tag n f) s = .next (State.replied 0x21 tag (s, .badField 0)))
  ∧ (∀ (s : State) (tag n : Nat) (f : BookingField) (bk : Bank), s.idle = true → bank? n = some bk →
    let r := s.world.bank bk
    let refused (a : Answer) :=
      exec (.addBooking tag n f) s = .next (State.replied 0x21 tag (s, a))
    let reply : Reply := ⟨0x21, tag, .ok, [byteOf (r.list.length + 1)]⟩
    let added (k : Booking) := s.world.onBank bk fun r =>
      { r with list := r.list ++ [⟨k, ⟨.pending, false, none, none, ⟨0, 0, 0, 0⟩⟩, true⟩] }
    (r.state ≠ .loading → r.state ≠ .active → refused (.no .wrongState))
    ∧ (r.state = .loading ∨ r.state = .active →
      (∀ off, booking? f = .error off → refused (.badField off))
      ∧ ∀ k, booking? f = .ok k →
        ((∃ x ∈ r.list, x.booking.id = k.id) → refused (.no .inUse))
        ∧ ((∀ x ∈ r.list, x.booking.id ≠ k.id) → 48 ≤ r.list.length → refused (.no .noRoom))
        ∧ ((∀ x ∈ r.list, x.booking.id ≠ k.id) → r.list.length < 48 →
          (r.state = .loading → ∃ t, exec (.addBooking tag n f) s = .next t
            ∧ s.AfterReply (added k) reply t)
          ∧ (r.state = .active →
            (∀ why, s.world.sealFault s.lib k = some why → refused (.invalid why none none))
            ∧ (s.world.sealFault s.lib k = none →
              (s.time.civic + 6000 < civic r.date k.start →
                ∃ t, exec (.addBooking tag n f) s = .next t ∧ s.AfterReply (added k) reply t)
              ∧ (civic r.date k.start ≤ s.time.civic + 6000 →
                ∃ t, exec (.addBooking tag n f) s = .next t ∧ t.port.slot = some reply
                  ∧ s.AfterReply ((added k).armOne s.env bk k) reply t
                  ∧ (t.world.bank bk).state = .active
                  ∧ (t.world.bank bk).list.map (·.booking.id)
                    = r.list.map (·.booking.id) ++ [k.id]))))))
  ∧ ∀ (w : World) (e : Env) (bk : Bank) (k : Booking),
    let acted := w.onEntry bk k.id fun x => { x with armHeld := false }
    let d := (w.bank bk).date
    let mark := lateMark e.now (civic d k.start) k (k.endPoint d) (e.lib.showRec k.showNo).length
    let outcome (v : World) (x : Progress) := v.onOutcome bk k.id fun r => { r with progress := x }
    (w.ctl.state = .parked → w.armOne e bk k = acted)
    ∧ (w.ctl.state ≠ .parked →
      (mark = none → w.armOne e bk k = (outcome acted .skippedLate).raise e .bookingNotStarted)
      ∧ ∀ m, mark = some m →
        (∀ p, (w.player p).state = .free → (∀ q, q < p → (w.player q).state ≠ .free) →
          w.armOne e bk k = (acted.armInto e p bk k m).freedAtOnce e p)
        ∧ ((∀ q, (w.player q).state ≠ .free) → ∀ x, (w.bank bk).find k.id = some x → x.booking = k →
          ∃ front back, w.plans.wait = front ++ back
            ∧ w.armOne e bk k = (outcome { acted with plans :=
                { acted.plans with wait := front ++ k.id :: back } } .waitlisted).raise e .playerWait
            ∧ (∀ id y, id ∈ front → (w.bank bk).find id = some y → k.before y.booking = false)
            ∧ ∀ id y, back.head? = some id → (w.bank bk).find id = some y →
              k.before y.booking = true))

/-- R43: the tests of one booking at the seal, and the reason of the first that fails.
R43, R44: SEAL_PLAN. The bank is tested first (log entry 21). -/
def Obligations.PlanSealed : Prop :=
  (∀ (s : State) (tag n : Nat), s.idle = true → bank? n = none →
    exec (.sealPlan tag n) s = .next (State.replied 0x22 tag (s, .badField 0)))
  ∧ (∀ (lib : Library) (w : World) (k : Booking),
    w.sealFault lib k = none ↔
      (lib.showRec k.showNo).state = .closed
      ∧ (∀ ch n, k.mode = .onCondition ch n → (w.monitor.channels.get ch).enabled = true)
      ∧ (∀ ch, k.stopCond = some ch → (w.monitor.channels.get ch).enabled = true)
      ∧ (∀ p ∈ k.zmap, ∀ z ∈ p.zones, (w.zone z).configured = true)
      ∧ ¬((lib.showRec k.showNo).length = some .endless ∧ k.endTime = none ∧ k.stopCond = none))
  ∧ (∀ (lib : Library) (w : World) (k : Booking),
    let closed := (lib.showRec k.showNo).state = .closed
    let off := ∃ ch, (w.monitor.channels.get ch).enabled = false
      ∧ ((∃ n, k.mode = .onCondition ch n) ∨ k.stopCond = some ch)
    let bare := ∃ p ∈ k.zmap, ∃ z ∈ p.zones, (w.zone z).configured = false
    (¬closed → w.sealFault lib k = some .showNotClosed)
    ∧ (closed → off → w.sealFault lib k = some .conditionOff)
    ∧ (closed → ¬off → bare → w.sealFault lib k = some .zoneUnconfigured)
    ∧ (closed → ¬off → ¬bare → (lib.showRec k.showNo).length = some .endless → k.endTime = none →
      k.stopCond = none → w.sealFault lib k = some .noEnd))
  ∧ (∀ (s : State) (tag n : Nat) (bk : Bank), s.idle = true → bank? n = some bk →
    let r := s.world.bank bk
    let other := s.world.bank bk.other
    (r.state ≠ .loading → exec (.sealPlan tag n) s =
      .next (State.replied 0x22 tag (s, .no .wrongState)))
    ∧ (r.state = .loading → other.state = .ready → other.date = r.date → exec (.sealPlan tag n) s =
      .next (State.replied 0x22 tag (s, .no .inUse)))
    ∧ (r.state = .loading → ¬(other.state = .ready ∧ other.date = r.date) →
      (∀ (front rest : List BankEntry) (x : BankEntry) (why : Reason),
        r.list = front ++ x :: rest →
        (∀ y ∈ front, y.outcome.progress = .cancelled ∨ s.world.sealFault s.lib y.booking = none) →
        x.outcome.progress ≠ .cancelled → s.world.sealFault s.lib x.booking = some why →
        exec (.sealPlan tag n) s = .next (State.replied 0x22 tag
          (s, .invalid why (some x.booking.id) (some front.length))))
      ∧ ((∀ y ∈ r.list, y.outcome.progress = .cancelled ∨ s.world.sealFault s.lib y.booking = none) →
        ∃ t, exec (.sealPlan tag n) s = .next t
          ∧ s.AfterReply (s.world.onBank bk fun r => { r with state := .ready })
            ⟨0x22, tag, .ok, [byteOf r.list.length]⟩ t)))

/-- R45, R48: ACTIVATE_PLAN. The bank is tested first (log entry 21).
R45, R50: the bank that comes into force arms at once, in the order of R51, each PENDING booking whose arm
point has passed; at ACTIVATE_PLAN the dark test of R178 comes after that (log entry 41).
R46, R48: a bank that leaves ACTIVE empties the wait list, each booking of it SKIPPED_LATE, with one notice.
R46: the day roll's swap or lapse, its notice, and the dark test that follows it (R178). All that the tick event
before made due is acted on first (log entry 2). -/
def Obligations.PlanComesIntoForce : Prop :=
  (∀ (s : State) (tag n : Nat), s.idle = true → bank? n = none →
    exec (.activatePlan tag n) s = .next (State.replied 0x23 tag (s, .badField 0)))
  ∧ (∀ (s : State) (tag n : Nat) (bk : Bank), s.idle = true → bank? n = some bk →
    let r := s.world.bank bk
    let other := s.world.bank bk.other
    (s.time.state = .unset → exec (.activatePlan tag n) s =
      .next (State.replied 0x23 tag (s, .no .timeUnset)))
    ∧ (s.time.state ≠ .unset → r.state ≠ .ready ∨ r.date ≠ s.time.date →
      exec (.activatePlan tag n) s = .next (State.replied 0x23 tag (s, .no .wrongState)))
    ∧ (s.time.state ≠ .unset → r.state = .ready → r.date = s.time.date →
      ∃ t, exec (.activatePlan tag n) s = .next t ∧ s.sameBase t
        ∧ t.port.slot = some ⟨0x23, tag, .ok, []⟩
        ∧ (t.world.bank bk).state = .active ∧ (t.world.bank bk).date = r.date
        ∧ (t.world.bank bk).list.map (·.booking.id) = r.list.map (·.booking.id)
        ∧ (t.world.bank bk.other).state =
          (if other.state = .active ∨ other.state = .lapsed then .spent else other.state)
        ∧ (t.world.bank bk.other).date = other.date
        ∧ (t.world.bank bk.other).list.map (·.booking.id) = other.list.map (·.booking.id)
        ∧ (other.state = .active → s.world.plans.wait ≠ [] →
          (t.world.notices.get NoticeKind.bookingNotStarted.no).pending = true)
        ∧ s.AfterReply ((s.world.comeIntoForce s.env bk).autoDark s.env) ⟨0x23, tag, .ok, []⟩ t))
  ∧ (∀ (w : World) (e : Env) (bk : Bank),
    let left := w.leaveForce e bk.other .spent
    let forced := left.onBank bk fun r =>
      { r with state := .active, list := r.list.map fun x => { x with armHeld := true } }
    w.comeIntoForce e bk =
      forced.each ((forced.bank bk).armable e.now true) (World.armOne e bk))
  ∧ (∀ (w : World) (e : Env) (bk : Bank) (next : BankState),
    let v := w.leaveForce e bk next
    let moved := w.onBank bk fun r => { r with state := next }
    ((w.bank bk).state ≠ .active → (w.bank bk).state ≠ .lapsed → v = w)
    ∧ ((w.bank bk).state = .lapsed → v = moved)
    ∧ ((w.bank bk).state = .active → w.plans.wait = [] → v = moved)
    ∧ ((w.bank bk).state = .active → w.plans.wait ≠ [] →
      v.bank bk = { w.bank bk with
        state := next
        list := (w.bank bk).list.map fun x =>
          if x.booking.id ∈ w.plans.wait then
            { x with outcome := { x.outcome with progress := .skippedLate } }
          else x }
      ∧ v.bank bk.other = w.bank bk.other ∧ v.plans.wait = [] ∧ v.plans.armSeq = w.plans.armSeq
      ∧ v = { w.raise e .bookingNotStarted with plans := v.plans }))
  ∧ (∀ (w : World) (e : Env) (d : Date),
    let ready (bk : Bank) := (w.bank bk).state = .ready ∧ (w.bank bk).date = d
    let rolls (v : World) := w.dayRoll e d = (v.raise e .dayRoll).autoDark e
    (∀ bk, ready bk → ¬ready bk.other → rolls (w.comeIntoForce e bk))
    ∧ (∀ bk, (∀ x, ¬ready x) → (w.bank bk).state = .active → (w.bank bk.other).state ≠ .active →
      rolls ((w.leaveForce e bk .lapsed).raise e .planMissing))
    ∧ ((∀ x, ¬ready x) → (∀ x, (w.bank x).state ≠ .active) → rolls (w.raise e .planMissing)))
  ∧ (∀ s : State, s.held = false → s.time.wf = true → s.time.state ≠ .unset →
    s.time.tod = 8639999 → s.time.date ≠ ⟨2099, 12, 31⟩ →
    let u := s.settle
    ∃ t, exec .tickEvent s = .next t
      ∧ (let e : Env := ⟨civic s.time.date.next 0, s.lib⟩
        t.world = ((u.world.tick.dayRoll e s.time.date.next).pumpAll e).openReach)
      ∧ (t.world.notices.get NoticeKind.dayRoll.no).pending = true
      ∧ (∀ bk, (t.world.bank bk).date = (u.world.bank bk).date
        ∧ (t.world.bank bk).list.map (·.booking.id) = (u.world.bank bk).list.map (·.booking.id))
      ∧ (∀ bk, (u.world.bank bk).state = .ready → (u.world.bank bk).date = s.time.date.next →
        ¬((u.world.bank bk.other).state = .ready
          ∧ (u.world.bank bk.other).date = s.time.date.next) →
        (t.world.bank bk).state = .active
        ∧ (t.world.bank bk.other).state =
          (if (u.world.bank bk.other).state = .active ∨ (u.world.bank bk.other).state = .lapsed
            then .spent else (u.world.bank bk.other).state))
      ∧ ((∀ bk, ¬((u.world.bank bk).state = .ready ∧ (u.world.bank bk).date = s.time.date.next)) →
        ¬((u.world.bank .a).state = .active ∧ (u.world.bank .b).state = .active) →
        (∀ bk, (t.world.bank bk).state =
          if (u.world.bank bk).state = .active then .lapsed else (u.world.bank bk).state)
        ∧ (t.world.notices.get NoticeKind.planMissing.no).pending = true))

/-- R54, R79, R80: CANCEL_BOOKING of a booking that is not yet in a player, and its refusals, the bank and the
abrupt flag first (log entry 21).
R79, R80, R85: CANCEL_BOOKING of a booking in a player: a graceful cancel of a RUNNING or HELD player
begins its end, with the cut tick NOW + 150 and the cause CANCELLED, a HELD player's walk and release point
set aside; any other cancel ends the booking at once. With no booking waitlisted the player is then FREE. The
graceful end itself is in the statement of the end cut. -/
def Obligations.BookingCancelled : Prop :=
  (∀ (s : State) (tag n id abrupt : Nat), s.idle = true →
    (bank? n = none →
      exec (.cancelBooking tag n id abrupt) s = .next (State.replied 0x25 tag (s, .badField 0)))
    ∧ (∀ bk, bank? n = some bk → 1 < abrupt →
      exec (.cancelBooking tag n id abrupt) s = .next (State.replied 0x25 tag (s, .badField 2))))
  ∧ (∀ (s : State) (tag n id abrupt : Nat) (bk : Bank), s.idle = true → bank? n = some bk → abrupt ≤ 1 →
    let r := s.world.bank bk
    let cancelled (w : World) := w.onOutcome bk id fun o => { o with progress := .cancelled }
    (r.find id = none → exec (.cancelBooking tag n id abrupt) s =
      .next (State.replied 0x25 tag (s, .no .notFound)))
    ∧ ∀ x, r.find id = some x →
      (x.outcome.progress.final = true ∨ (r.state = .spent ∧ x.outcome.progress.inPlayer = false) →
        exec (.cancelBooking tag n id abrupt) s =
          .next (State.replied 0x25 tag (s, .no .wrongState)))
      ∧ (r.state ≠ .spent → x.outcome.progress = .pending →
        ∃ t, exec (.cancelBooking tag n id abrupt) s = .next t
          ∧ s.AfterReply (cancelled s.world) ⟨0x25, tag, .ok, []⟩ t)
      ∧ (r.state ≠ .spent → x.outcome.progress = .waitlisted →
        ∃ t, exec (.cancelBooking tag n id abrupt) s = .next t
          ∧ s.AfterReply (cancelled { s.world with plans :=
              { s.world.plans with wait := s.world.plans.wait.filter (· != id) } })
            ⟨0x25, tag, .ok, []⟩ t))
  ∧ (∀ (s : State) (tag n id abrupt : Nat) (bk : Bank) (x : BankEntry) (p : Fin 8), s.idle = true →
    bank? n = some bk → abrupt ≤ 1 → (s.world.bank bk).find id = some x →
    x.outcome.progress.inPlayer = true → s.world.playerOf bk id = some p →
    s.world.plans.wait = [] →
    let c := s.world.player p
    let graceful := abrupt = 0 ∧ (c.state = .running ∨ c.state = .held ∨ c.state = .ending)
    (c.state ≠ .free → ¬graceful → ∃ t, exec (.cancelBooking tag n id abrupt) s = .next t
      ∧ t.port.slot = some ⟨0x25, tag, .ok, []⟩ ∧ t.world.player p = Player.free
      ∧ (t.world.notices.get NoticeKind.bookingEnded.no).pending = true
      ∧ ∃ y, (t.world.bank bk).find id = some y ∧ y.booking = x.booking
        ∧ y.outcome.progress = .cancelled ∧ y.outcome.abrupt = (abrupt == 1)
        ∧ y.outcome.startTick = c.startTick
        ∧ y.outcome.endTick = c.startTick.map fun _ => s.time.civic)
    ∧ (abrupt = 0 → (c.state = .running ∨ c.state = .held) →
      ∃ t, exec (.cancelBooking tag n id abrupt) s = .next t
        ∧ t.port.slot = some ⟨0x25, tag, .ok, []⟩
        ∧ (t.world.player p).state = .ending ∧ (t.world.player p).holdTick =
          (if c.state = .held then none else c.holdTick)
        ∧ (t.world.player p).latch = none ∧ (t.world.player p).release.isSome = true)
    ∧ (abrupt = 0 → c.state = .ending → ∃ t, exec (.cancelBooking tag n id abrupt) s = .next t
      ∧ s.AfterReply s.world ⟨0x25, tag, .ok, []⟩ t))
  ∧ ∀ (s : State) (tag n id : Nat) (bk : Bank) (x : BankEntry) (p : Fin 8), s.idle = true →
    bank? n = some bk → (s.world.bank bk).find id = some x → x.outcome.progress.inPlayer = true →
    s.world.playerOf bk id = some p →
    let after (w : World) := ∃ t, exec (.cancelBooking tag n id 0) s = .next t
      ∧ s.AfterReply (w.handAll s.env p) ⟨0x25, tag, .ok, []⟩ t
    ((s.world.player p).state = .running →
      after (s.world.endGracefully s.env p (s.time.civic + 150) .cancelled false))
    ∧ ((s.world.player p).state = .held →
      after ((s.world.endGracefully s.env p (s.time.civic + 150) .cancelled true).onPlayer p fun c =>
        { c with holdTick := none }))

/-- R55, R78: AMEND_END.
R54, R55: the refusals of AMEND_END, the bank first (log entry 21). The offsets of the failing fields, the end
time's where its end point is not after the start or where NONE leaves an endless show with nothing to end it,
the reason 0 beside it in the last case, where R55 names none, and the refusal of a flag above 1 or of one
beside NONE are the model's (log entry 17). An end cut moved to a
tick already passed waits for the next reach, which is the cutFresh mark (log entry 10). -/
def Obligations.BookingEndAmended : Prop :=
  (∀ (s : State) (tag n id endTime nextDay : Nat), s.idle = true → bank? n = none →
    exec (.amendEnd tag n id endTime nextDay) s = .next (State.replied 0x26 tag (s, .badField 0)))
  ∧ (∀ (s : State) (tag n id : Nat) (bk : Bank) (x : BankEntry) (stop : Option EndTime),
    s.idle = true → bank? n = some bk → (s.world.bank bk).find id = some x →
    x.outcome.progress.final = false →
    ((s.world.bank bk).state = .spent → x.outcome.progress.inPlayer = true) →
    (∀ v, stop = some v → v.tod < 8640000 ∧ (v.nextDay = true → v.tod ≤ 2160000)
      ∧ x.booking.start < v.tod + (if v.nextDay then 8640000 else 0)) →
    ¬(stop = none ∧ (s.lib.showRec x.booking.showNo).state = .closed
      ∧ (s.lib.showRec x.booking.showNo).length = some .endless ∧ x.booking.stopCond = none) →
    let stopAt? := stop.map fun v =>
      civic (s.world.bank bk).date v.tod + if v.nextDay then 8640000 else 0
    let amended := s.world.onEntry bk id fun y =>
      { y with booking := { y.booking with endTime := stop } }
    let field := (stop.map (·.tod)).getD 0xFFFFFF
    let next := if stop.any (·.nextDay) then 1 else 0
    ∃ t, exec (.amendEnd tag n id field next) s = .next t
      ∧ s.AfterReply
        (match s.world.playerOf bk id with
          | none => amended
          | some p => amended.onPlayer p fun c => { c with
              cutFresh := stopAt?.any (· ≤ s.time.civic + 150)
              copy := c.copy.map fun y =>
                { y with booking := { y.booking with endTime := stop }, endPoint := stopAt? } })
        ⟨0x26, tag, .ok, []⟩ t)
  ∧ (∀ (s : State) (tag n id endTime nextDay : Nat) (bk : Bank), s.idle = true → bank? n = some bk →
    let r := s.world.bank bk
    let refused (a : Answer) :=
      exec (.amendEnd tag n id endTime nextDay) s = .next (State.replied 0x26 tag (s, a))
    (r.find id = none → refused (.no .notFound))
    ∧ ∀ x, r.find id = some x →
      (x.outcome.progress.final = true ∨ (r.state = .spent ∧ x.outcome.progress.inPlayer = false) →
        refused (.no .wrongState))
      ∧ (x.outcome.progress.final = false → (r.state = .spent → x.outcome.progress.inPlayer = true) →
        endTime ≠ 0xFFFFFF →
        (8640000 ≤ endTime → refused (.badField 2))
        ∧ (endTime < 8640000 → 1 < nextDay → refused (.badField 5))
        ∧ (endTime < 8640000 → nextDay ≤ 1 →
          (nextDay = 1 ∧ 2160000 < endTime ∨ endTime + 8640000 * nextDay ≤ x.booking.start) →
          refused (.badField 2)))
      ∧ (x.outcome.progress.final = false → (r.state = .spent → x.outcome.progress.inPlayer = true) →
        endTime = 0xFFFFFF →
        (nextDay ≠ 0 → refused (.badField 5))
        ∧ (nextDay = 0 → (s.lib.showRec x.booking.showNo).state = .closed →
          (s.lib.showRec x.booking.showNo).length = some .endless → x.booking.stopCond = none →
          refused (.badField 2))))

/-- R50, R51: the bookings of an arming event are those PENDING whose arm points have been reached and, but at
an activation or an unpark (`all`), not acted on, higher class first, then higher subpriority, then earlier
start, then lower id.
R53: the late judgement of a booking from its start point and end point: no late mark at or before its claim
point, and later by its policy; `none` is skipped.
R50, R51, R53, R60, R180: ARM_POINT takes the first booking whose arm point is due: it is armed into the
lowest-numbered FREE player, or joins the wait list in its place, or is skipped late; in DARK the part is then
ACTIVE. One command takes one booking (log entry 2). In PARKED the booking stays PENDING, its point acted on (log
entry 22).
R60, R180: an arming into a player sets its context, the booking ARMED, and is a wake cause, which is taken
before the late start's claims; that order is the model's choice (log entry 45).
R60, R67, R68: a late arming into a FREE player starts in the event of the arming. A JOIN replays the show
group by group up to NOW + 150, ENDING where the replay has entered the CODA, and one that would reach the
show's end is SKIPPED_LATE; a RESTART begins at NOW + 150; an ON_CONDITION booking enters WAITING, its PREROLL
replayed or begun at NOW + 150, but for one without a PREROLL whose start point is to come. The replay of a
late PREROLL comes before its claims (log entry 12). A condition is read before the hand points that have passed
are taken (log entry 11): a start condition that is TRUE starts the main show, as the statement of START_POINT
has it, and a stop condition that is TRUE ends a JOIN that is RUNNING, with the cut tick NOW + 150 and the cause
STOPPED (R67, R76).
R63, R67: a walk begins at pass 0 of a section, at its first cue, with the section's passes, and changes nothing
where the show has no such section; and a replay takes the groups in turn, at most NOW + 151 of them, each due
later than the one before it (R72). -/
def Obligations.BookingsArmed : Prop :=
  (∀ (r : BankRec) (now : Nat) (all : Bool), (r.list.map (·.booking.id)).Nodup →
    (∀ k, k ∈ r.armable now all ↔ ∃ x ∈ r.list, x.booking = k ∧ x.outcome.progress = .pending
      ∧ (all = true ∨ x.armHeld = true) ∧ civic r.date k.start ≤ now + 6000)
    ∧ (r.armable now all).Pairwise fun a b =>
      b.cls < a.cls ∨ (a.cls = b.cls ∧ (b.sub < a.sub ∨ (a.sub = b.sub
        ∧ (a.start < b.start ∨ (a.start = b.start ∧ a.id < b.id))))))
  ∧ (∀ (now start : Nat) (k : Booking) (endPoint : Option Nat) (length : Option ShowLength),
    let ended := ∃ e, endPoint = some e ∧ e ≤ now + 150
    let played := endPoint = none ∧ ∃ n, length = some (.ticks n) ∧ n ≤ now + 150 - start
    let ranOut := ∃ ch n, k.mode = .onCondition ch n ∧ start + n ≤ now
    (now + 150 ≤ start → lateMark now start k endPoint length = some .none)
    ∧ (start < now + 150 →
      (k.policy = .skip → lateMark now start k endPoint length = none)
      ∧ (k.policy = .join →
        (ended ∨ played ∨ ranOut → lateMark now start k endPoint length = none)
        ∧ (¬(ended ∨ played ∨ ranOut) → lateMark now start k endPoint length = some .join))
      ∧ (k.policy = .restart →
        (ended ∨ ranOut → lateMark now start k endPoint length = none)
        ∧ (¬(ended ∨ ranOut) → lateMark now start k endPoint length = some .restart))))
  ∧ (∀ (s : State) (bk : Bank) (k : Booking) (rest : List Booking), s.held = false →
    s.reachOpen = true → s.world.activeBank = some bk →
    (s.world.bank bk).armable s.time.civic false = k :: rest →
    ((s.world.bank bk).list.map (·.booking.id)).Nodup →
    let d := (s.world.bank bk).date
    let seq := if s.world.plans.armSeq < 4294967295 then s.world.plans.armSeq + 1
      else s.world.plans.armSeq
    let mark := lateMark s.time.civic (civic d k.start) k (k.endPoint d) (s.lib.showRec k.showNo).length
    (s.world.ctl.state = .parked → ∃ t, exec .armPoint s = .next t
      ∧ s.After (s.world.onEntry bk k.id fun x => { x with armHeld := false }) t)
    ∧ (s.world.ctl.state ≠ .parked → mark = none → ∃ t, exec .armPoint s = .next t ∧ s.After
        ((s.world.onEntry bk k.id fun x => { x with
            armHeld := false, outcome := { x.outcome with progress := .skippedLate } }).raise s.env
          .bookingNotStarted) t)
    ∧ (∀ p, s.world.ctl.state ≠ .parked → mark = some .none → (s.world.player p).state = .free →
      (∀ q, q < p → (s.world.player q).state ≠ .free) →
      ∃ t, exec .armPoint s = .next t ∧ s.sameBase t ∧ t.world.plans.armSeq = seq
        ∧ { t.world.player p with counters := ⟨0, 0, 0, 0⟩ } = { Player.free with
            state := .armed
            ref := some (bk, k.id)
            copy := some ⟨k, civic d k.start, k.endPoint d⟩
            length := (s.lib.showRec k.showNo).length
            armSeq := seq }
        ∧ (∀ x, (s.world.bank bk).find k.id = some x →
          (t.world.bank bk).find k.id = some { x with
            armHeld := false, outcome := { x.outcome with progress := .armed } })
        ∧ t.world.ctl.state = .active
        ∧ (s.world.ctl.state = .dark →
          (t.world.notices.get NoticeKind.operatingState.no).pending = true))
    ∧ (s.world.ctl.state ≠ .parked → mark ≠ none → (∀ q, (s.world.player q).state ≠ .free) →
      ∃ t front back, exec .armPoint s = .next t ∧ s.sameBase t
        ∧ s.world.plans.wait = front ++ back ∧ t.world.plans.wait = front ++ k.id :: back
        ∧ (∀ y x, y ∈ front → (s.world.bank bk).find y = some x → k.before x.booking = false)
        ∧ (∀ y x, back.head? = some y → (s.world.bank bk).find y = some x →
          k.before x.booking = true)
        ∧ (∀ x, (s.world.bank bk).find k.id = some x →
          (t.world.bank bk).find k.id = some { x with
            armHeld := false, outcome := { x.outcome with progress := .waitlisted } })
        ∧ (t.world.notices.get NoticeKind.playerWait.no).pending = true)
    ∧ (∀ m p, s.world.ctl.state ≠ .parked → mark = some m → (s.world.player p).state = .free →
      (∀ q, q < p → (s.world.player q).state ≠ .free) → ∃ t, exec .armPoint s = .next t
        ∧ s.After (((s.world.onEntry bk k.id fun x => { x with armHeld := false }).armInto s.env p bk k
          m).freedAtOnce s.env p) t))
  ∧ (∀ (w : World) (e : Env) (p : Fin 8) (bk : Bank) (k : Booking) (m : LateMark),
    let d := (w.bank bk).date
    let seq := if w.plans.armSeq < 4294967295 then w.plans.armSeq + 1 else w.plans.armSeq
    let counted : World := { w with plans := { w.plans with armSeq := seq } }
    let seated := (counted.onOutcome bk k.id fun r => { r with progress := .armed }).onPlayer p fun _ =>
      { Player.free with
        state := .armed
        ref := some (bk, k.id)
        copy := some ⟨k, civic d k.start, k.endPoint d⟩
        length := (e.lib.showRec k.showNo).length
        armSeq := seq
        mark := m }
    let armed := seated.wakeCause e .arming
    w.armInto e p bk k m = armed.lateStart e p
    ∧ (m = .none → armed.lateStart e p = armed)
    ∧ (w.ctl.state ≠ .dark → armed = seated)
    ∧ (w.ctl.state = .dark →
      armed.plans = seated.plans ∧ armed.players = seated.players ∧ armed.zones = seated.zones
      ∧ armed.ctl = { w.ctl with
        state := .active
        guard := 0
        asleep := Tab.fill 4 false
        lastChange := some ⟨e.now, .active, .arming⟩ }
      ∧ (armed.notices.get NoticeKind.operatingState.no).pending = true
      ∧ ∀ l, armed.link l = { w.link l with wakeOwed := ((w.link l).wakeOwed
        || (w.link l).state == .asleep || (w.link l).state == .quiescing) })
    ∧ ((w.player p).state ≠ .free → w.freedAtOnce e p = w))
  ∧ (∀ (w : World) (e : Env) (p : Fin 8) (copy : BookingCopy),
    let c := w.player p
    let shown := e.lib.showRec copy.booking.showNo
    let preroll := shown.parts.head?.any (·.kind == .preroll)
    let i := if preroll then 1 else 0
    let claims (v : World) := ∀ z, (v.zone z).claims = match partOf copy.booking.zmap z with
      | none => (w.zone z).claims
      | some part =>
        if copy.booking.cls = 0 then (w.zone z).claims
        else enterClaim ⟨p, copy.booking.cls, copy.booking.sub, c.armSeq, part⟩ (w.zone z).claims
    let tooLate := ∃ n, c.length = some (.ticks n) ∧ copy.startPoint + n ≤ e.now + 150
    let stop := ∃ ch, copy.booking.stopCond = some ch ∧ (w.monitor.channels.get ch).value = .yes
    c.copy = some copy →
    (c.mark = .join → copy.booking.mode = .atTime → tooLate →
      w.lateStart e p = w.endBooking e p .skippedLate false
      ∧ (w.lateStart e p).player p = Player.free
      ∧ ((w.lateStart e p).notices.get NoticeKind.bookingNotStarted.no).pending = true
      ∧ ∀ bk id x, c.ref = some (bk, id) → (w.bank bk).find id = some x →
        ∃ y, ((w.lateStart e p).bank bk).find id = some y ∧ y.outcome.progress = .skippedLate
          ∧ y.outcome.abrupt = false ∧ y.outcome.startTick = c.startTick)
    ∧ (c.mark = .join → copy.booking.mode = .atTime → ¬tooLate →
      let r := e.replay (c.walkFrom shown i copy.startPoint)
      let v := (((w.onPlayer p fun _ => r).setStart p copy.startPoint).sendClaims e p).enterState p
        .running
      let ended := ∃ coda, shown.parts.getLast? = some coda ∧ coda.kind = .coda
        ∧ (r.walk = some .past ∨ ∃ g, r.walk = some (.stands g) ∧ g.sec + 1 = shown.parts.length)
      let u := v.walkEnds shown p
      (stop → ¬ended →
        w.lateStart e p = (u.endGracefully e p (e.now + 150) .stopped false).handAll e p)
      ∧ (¬stop ∨ ended → w.lateStart e p = u.handAll e p)
      ∧ { v.player p with counters := c.counters } = { r with
          state := .running, startTick := some copy.startPoint, counters := c.counters }
      ∧ r.hands = c.hands ∧ r.counters = c.counters ∧ claims v
      ∧ (ended → ((v.walkEnds shown p).player p).state = .ending)
      ∧ (¬ended → v.walkEnds shown p = v))
    ∧ (c.mark = .restart → copy.booking.mode = .atTime → ∀ sec, shown.parts[i]? = some sec →
      let v := w.runFrom e p (e.now + 150)
      w.lateStart e p = v.handAll e p
      ∧ { v.player p with counters := c.counters } = { c with
          state := .running
          startTick := some (e.now + 150)
          epoch := some (e.now + 150)
          walk := some (.stands ⟨i, 0, sec.first⟩)
          passes := some (if sec.passes = 0 then .endless else .left sec.passes) }
      ∧ claims v)
    ∧ (∀ ch n, c.mark ≠ .none → copy.booking.mode = .onCondition ch n →
      let ready (v : World) :=
        (if (w.monitor.channels.get ch).value = .yes then v.mainStart e p else v).handAll e p
      (preroll = false → e.now < copy.startPoint → w.lateStart e p = w)
      ∧ (preroll = false → copy.startPoint ≤ e.now → w.lateStart e p = ready (w.enterState p .waiting))
      ∧ (preroll = true → c.mark = .join →
        let v := (((w.onPlayer p fun _ => e.replay (c.walkFrom shown 0 copy.startPoint)).sendClaims e
          p).enterState p .waiting)
        w.lateStart e p = ready v ∧ claims v)
      ∧ (preroll = true → c.mark = .restart → ∀ sec, shown.parts[0]? = some sec →
        let v := w.enterWaiting e p (e.now + 150)
        w.lateStart e p = ready v
        ∧ { v.player p with counters := c.counters } = { c with
            state := .waiting
            epoch := some (e.now + 150)
            walk := some (.stands ⟨0, 0, sec.first⟩)
            passes := some (if sec.passes = 0 then .endless else .left sec.passes) }
        ∧ claims v)))
  ∧ (∀ (c : Player) (shown : ShowRec) (i epoch : Nat),
    (∀ sec, shown.parts[i]? = some sec → c.walkFrom shown i epoch = { c with
      walk := some (.stands ⟨i, 0, sec.first⟩)
      epoch := some epoch
      passes := some (if sec.passes = 0 then .endless else .left sec.passes) })
    ∧ (shown.parts[i]? = none → c.walkFrom shown i epoch = c))
  ∧ (∀ (e : Env) (c : Player), e.replay c = e.replayFor (e.now + 151) c)
  ∧ (∀ (e : Env) (c : Player) (n : Nat),
    ((e.walkAt c).any (fun a => a.2.2 < e.now + 150) = false → e.replayFor n c = c)
    ∧ ∀ g sec due, e.walkAt c = some (g, sec, due) →
      let shown := e.showOf c
      let group := e.lib.group shown sec g.cue
      let looks := group.foldl
        (fun looks q => looks.set q.part (some ⟨q.look, e.lib.looks.get q.look⟩)) c.looks
      let next := e.replayOne c
      (due < e.now + 150 → e.replayFor (n + 1) c = e.replayFor n next)
      ∧ (g.cue + group.length < sec.first + sec.count → next = { c with
          looks := looks, play := some ⟨g, due⟩
          walk := some (.stands { g with cue := g.cue + group.length }) })
      ∧ (sec.first + sec.count ≤ g.cue + group.length →
        next = { c with looks := looks, play := some ⟨g, due⟩ }.passTurn shown sec g))

/-! ## The players -/

/-- R62 to R64: CLAIM_POINT of an AT_TIME booking: the player claims its zones, unless it is DRY, and
begins its first MAIN section at the start point. The groups already within the horizon are handed on in
the same event, so long as no other point of the player comes first (R61, R72; log entry 11). A stop condition
that is already TRUE ends the show in the same event, before any group is handed on, with the cut tick NOW + 150
and the cause STOPPED (R63, R76; log entry 11).
R62, R64, R65: CLAIM_POINT of an ON_CONDITION booking with a PREROLL: the player claims its zones and walks the
PREROLL, WAITING, from the start point; with its start condition TRUE the main show then starts at once, as the
statement of START_POINT has it.
R39, R62, R87: the claims go zone by zone in ascending order; the RUNNING or WAITING state and the actual start tick
are reported to the booking's outcome. -/
def Obligations.ClaimPointBegins : Prop :=
  (∀ (s : State) (p : Fin 8) (copy : BookingCopy) (sec : SectionRec), s.held = false →
    s.reachOpen = true →
    let c := s.world.player p
    let shown := s.lib.showRec copy.booking.showNo
    let i := if shown.parts.head?.any (·.kind == .preroll) then 1 else 0
    s.env.firstPoint c = some .start → c.copy = some copy → copy.booking.mode = .atTime →
    shown.parts[i]? = some sec →
    let stop := ∃ ch, copy.booking.stopCond = some ch
      ∧ (s.world.monitor.channels.get ch).value = .yes
    let w := s.world.runFrom s.env p copy.startPoint
    ∃ t : State, exec (.claimPoint p) s = .next t
      ∧ (¬stop → s.After (w.handReached s.env p) t)
      ∧ (stop → s.After
        ((w.endGracefully s.env p (s.time.civic + 150) .stopped false).handReached s.env p) t)
      ∧ (∀ bk id x, c.ref = some (bk, id) → (s.world.bank bk).find id = some x →
        (w.bank bk).find id = some { x with outcome := { x.outcome with
          progress := .running, startTick := some copy.startPoint } })
      ∧ { w.player p with counters := c.counters } = { c with
          state := .running
          startTick := some copy.startPoint
          epoch := some copy.startPoint
          walk := some (.stands ⟨i, 0, sec.first⟩)
          passes := some (if sec.passes = 0 then .endless else .left sec.passes) }
      ∧ ∀ z, (w.zone z).claims = match partOf copy.booking.zmap z with
        | none => (s.world.zone z).claims
        | some part =>
          if copy.booking.cls = 0 then (s.world.zone z).claims
          else enterClaim ⟨p, copy.booking.cls, copy.booking.sub, c.armSeq, part⟩
            (s.world.zone z).claims)
  ∧ (∀ (s : State) (p : Fin 8) (copy : BookingCopy) (ch : Fin 8) (n : Nat) (sec : SectionRec),
    s.held = false → s.reachOpen = true →
    let c := s.world.player p
    let shown := s.lib.showRec copy.booking.showNo
    s.env.firstPoint c = some .start → c.copy = some copy →
    copy.booking.mode = .onCondition ch n → shown.parts[0]? = some sec → sec.kind = .preroll →
    let w := s.world.enterWaiting s.env p copy.startPoint
    ∃ t : State, exec (.claimPoint p) s = .next t
      ∧ ((s.world.monitor.channels.get ch).value ≠ .yes → s.After (w.handReached s.env p) t)
      ∧ ((s.world.monitor.channels.get ch).value = .yes →
        s.After ((w.mainStart s.env p).handReached s.env p) t)
      ∧ (∀ bk id x, c.ref = some (bk, id) → (s.world.bank bk).find id = some x →
        (w.bank bk).find id = some { x with outcome := { x.outcome with progress := .waiting } })
      ∧ { w.player p with counters := c.counters } = { c with
          state := .waiting
          epoch := some copy.startPoint
          walk := some (.stands ⟨0, 0, sec.first⟩)
          passes := some (if sec.passes = 0 then .endless else .left sec.passes) }
      ∧ ∀ z, (w.zone z).claims = match partOf copy.booking.zmap z with
        | none => (s.world.zone z).claims
        | some part =>
          if copy.booking.cls = 0 then (s.world.zone z).claims
          else enterClaim ⟨p, copy.booking.cls, copy.booking.sub, c.armSeq, part⟩
            (s.world.zone z).claims)
  ∧ (∀ (w : World) (e : Env) (p : Fin 8) (copy : BookingCopy) (epoch : Nat),
    let c := w.player p
    let shown := e.lib.showRec copy.booking.showNo
    let preroll := shown.parts.head?.any (·.kind == .preroll)
    let k := copy.booking
    let begun (i : Nat) (sec : SectionRec) := (w.sendClaims e p).onPlayer p fun d => { d with
      walk := some (.stands ⟨i, 0, sec.first⟩)
      epoch := some epoch
      passes := some (if sec.passes = 0 then .endless else .left sec.passes) }
    c.copy = some copy →
    (k.cls = 0 → w.sendClaims e p = w)
    ∧ (k.cls ≠ 0 → w.sendClaims e p =
      w.each ((upTo 64).filter fun z => (partOf k.zmap z).isSome) fun z v =>
        match partOf k.zmap z with
          | none => v
          | some part => v.claim e z ⟨p, k.cls, k.sub, c.armSeq, part⟩)
    ∧ (∀ sec, shown.parts[if preroll then 1 else 0]? = some sec → w.runFrom e p epoch =
      ((begun (if preroll then 1 else 0) sec).setStart p epoch).enterState p .running)
    ∧ (∀ sec, preroll = true → shown.parts[0]? = some sec →
      w.enterWaiting e p epoch = (begun 0 sec).enterState p .waiting)
    ∧ (preroll = false → w.enterWaiting e p epoch = w.enterState p .waiting))
  ∧ ∀ (w : World) (p : Fin 8) (tick : Nat) (st : PlayerState) (now : Progress),
    let reported (v : World) (f : Report → Report) := match (w.player p).ref with
      | none => v
      | some (bk, id) => v.onOutcome bk id f
    (st, now) ∈ [(PlayerState.armed, Progress.armed), (.waiting, .waiting), (.running, .running),
      (.held, .held), (.ending, .ending)] →
    w.enterState p st = reported (w.onPlayer p fun c => { c with state := st }) (fun r =>
      { r with progress := now })
    ∧ w.setStart p tick = reported (w.onPlayer p fun c => { c with startTick := some tick }) fun r =>
      { r with startTick := some tick }

/-- R64: START_POINT of an ON_CONDITION booking without a PREROLL, its start condition not TRUE: WAITING,
with no claim and no walk.
R61, R62, R64, R65: START_POINT with the start condition TRUE: the main show starts, its MAIN EPOCH 150 ticks
after NOW, and the player claims its zones. A group already within the horizon is handed
on in the same event, so long as no other point of the player comes first (log entry 11). A stop condition that
is TRUE too ends the show before that, with the cut tick NOW + 150 and the cause STOPPED (R65, R76).
R65: the start of the main show from any state: with a PREROLL, the hand-on records due at or after the MAIN
EPOCH leave the list, their groups withdrawn from the dispatcher, and no zone is claimed again; without one,
the player claims its zones. The first MAIN section is walked from the MAIN EPOCH, which is the actual start
tick, and the booking is RUNNING. -/
def Obligations.StartPointTaken : Prop :=
  (∀ (s : State) (p : Fin 8) (copy : BookingCopy) (ch : Fin 8) (n : Nat), s.held = false →
    s.reachOpen = true →
    let c := s.world.player p
    s.env.firstPoint c = some .start → c.copy = some copy → c.walk = none →
    copy.booking.mode = .onCondition ch n →
    (s.lib.showRec copy.booking.showNo).parts.head?.any (·.kind == .preroll) = false →
    (s.world.monitor.channels.get ch).value ≠ .yes →
    ∃ t, exec (.startPoint p) s = .next t
      ∧ s.After ((s.world.onPlayer p fun c => { c with state := .waiting }).reportOn p fun r =>
        { r with progress := .waiting }) t)
  ∧ (∀ (s : State) (p : Fin 8) (copy : BookingCopy) (ch : Fin 8) (n : Nat) (sec : SectionRec),
    s.held = false → s.reachOpen = true →
    let c := s.world.player p
    let shown := s.lib.showRec copy.booking.showNo
    s.env.firstPoint c = some .start → c.copy = some copy →
    copy.booking.mode = .onCondition ch n →
    shown.parts.head?.any (·.kind == .preroll) = false → shown.parts[0]? = some sec →
    (s.world.monitor.channels.get ch).value = .yes →
    let stop := ∃ x, copy.booking.stopCond = some x ∧ (s.world.monitor.channels.get x).value = .yes
    let w := ((((s.world.enterState p .waiting).sendClaims s.env p).onPlayer p fun d => { d with
        walk := some (.stands ⟨0, 0, sec.first⟩)
        epoch := some (s.time.civic + 150)
        passes := some (if sec.passes = 0 then .endless else .left sec.passes) }).setStart p
      (s.time.civic + 150)).enterState p .running
    ∃ t : State, exec (.startPoint p) s = .next t
      ∧ (¬stop → s.After (w.handReached s.env p) t)
      ∧ (stop → s.After
        ((w.endGracefully s.env p (s.time.civic + 150) .stopped false).handReached s.env p) t)
      ∧ (∀ bk id x, c.ref = some (bk, id) → (s.world.bank bk).find id = some x →
        (w.bank bk).find id = some { x with outcome := { x.outcome with
          progress := .running, startTick := some (s.time.civic + 150) } })
      ∧ { w.player p with counters := c.counters } = { c with
          state := .running
          startTick := some (s.time.civic + 150)
          epoch := some (s.time.civic + 150)
          walk := some (.stands ⟨0, 0, sec.first⟩)
          passes := some (if sec.passes = 0 then .endless else .left sec.passes) }
      ∧ ∀ z, (w.zone z).claims = match partOf copy.booking.zmap z with
        | none => (s.world.zone z).claims
        | some part =>
          if copy.booking.cls = 0 then (s.world.zone z).claims
          else enterClaim ⟨p, copy.booking.cls, copy.booking.sub, c.armSeq, part⟩
            (s.world.zone z).claims)
  ∧ ∀ (w : World) (e : Env) (p : Fin 8) (copy : BookingCopy) (sec : SectionRec),
    let c := w.player p
    let T := e.now + 150
    let shown := e.lib.showRec copy.booking.showNo
    let preroll := shown.parts.head?.any (·.kind == .preroll)
    let i := if preroll then 1 else 0
    let stop := ∃ x, copy.booking.stopCond = some x ∧ (w.monitor.channels.get x).value = .yes
    let v := (((if preroll then w.cutHands e p T else w.sendClaims e p).onPlayer p fun d => { d with
      walk := some (.stands ⟨i, 0, sec.first⟩)
      epoch := some T
      passes := some (if sec.passes = 0 then .endless else .left sec.passes) }).setStart p T).enterState p
        .running
    c.copy = some copy → shown.parts[i]? = some sec →
    (¬stop → w.mainStart e p = v)
    ∧ (stop → w.mainStart e p = v.endGracefully e p T .stopped false)
    ∧ { v.player p with counters := c.counters } = { c with
        state := .running
        startTick := some T
        epoch := some T
        walk := some (.stands ⟨i, 0, sec.first⟩)
        passes := some (if sec.passes = 0 then .endless else .left sec.passes)
        hands := if preroll then c.hands.filter (fun h => h.due < T) else c.hands }
    ∧ (preroll = true → ∀ h ∈ c.hands, T ≤ h.due →
      (∀ g ∈ v.groups, ¬(g.player = p ∧ g.id = h.id))
      ∧ ∀ l, (∀ x ∈ (v.link l).stage, x.player = some p → x.group = some h.id → x.dropping = true)
        ∧ ∀ due ms, Item.group p h.id due ms ∉ (v.link l).deferred)
    ∧ (∀ z, (v.zone z).claims = match partOf copy.booking.zmap z with
      | none => (w.zone z).claims
      | some part =>
        if preroll = true ∨ copy.booking.cls = 0 then (w.zone z).claims
        else enterClaim ⟨p, copy.booking.cls, copy.booking.sub, c.armSeq, part⟩ (w.zone z).claims)
    ∧ ∀ bk id x, c.ref = some (bk, id) → (w.bank bk).find id = some x →
      (v.bank bk).find id = some { x with outcome := { x.outcome with
        progress := .running, startTick := some T } }

/-- R66, R84, R85: WINDOW_END, an END_CUT in ARMED, WAITING or HELD, and RELEASE_POINT end the booking: its
outcome is written with the counters as they stand, its claims are released, the player is FREE. Unless the player
is DRY, no group record and no deferred item of it stays, and no entry of it but on its way out. No booking is
waitlisted here.
R52: a player that an ending frees takes the head of the wait list, here a booking that is not late.
R52, R53: a freed player takes bookings from the head of the wait list, each judged, until one takes it or the
list is empty; a skipped one leaves it FREE, and while PARKED it takes none. -/
def Obligations.EndingPointsRelease : Prop :=
  (∀ (s : State) (p : Fin 8) (bk : Bank) (id : Nat) (x : BankEntry), s.held = false →
    s.reachOpen = true → s.world.plans.wait = [] →
    let c := s.world.player p
    c.ref = some (bk, id) → (s.world.bank bk).find id = some x →
    let ends (i : Instr) (final : Progress) (abrupt : Bool) (k : NoticeKind) :=
      ∃ t, exec i s = .next t ∧ s.sameBase t ∧ t.world.player p = Player.free
        ∧ (t.world.notices.get k.no).pending = true
        ∧ (c.dry = false → ∀ z, (partOf c.zmap z).isSome = true →
          ∀ y ∈ (t.world.zone z).claims, y.player ≠ p)
        ∧ (c.dry = false → (∀ g ∈ t.world.groups, g.player ≠ p)
          ∧ ∀ l, (∀ x ∈ (t.world.link l).stage, x.player = some p → x.dropping = true)
            ∧ ∀ i ∈ (t.world.link l).deferred, (match i with
              | .group q _ _ _ => some q
              | .single _ _ q _ _ => q) ≠ some p)
        ∧ ∃ y, (t.world.bank bk).find id = some y ∧ y.booking = x.booking
          ∧ y.outcome.progress = final ∧ y.outcome.abrupt = abrupt
          ∧ y.outcome.startTick = c.startTick
          ∧ y.outcome.endTick = (c.startTick.map fun _ => s.time.civic)
          ∧ y.outcome.counters = c.counters
    (s.env.firstPoint c = some .windowEnd →
      ends (.windowEnd p) .notStarted false .bookingNotStarted)
    ∧ (s.env.firstPoint c = some .endCut → c.state = .armed ∨ c.state = .waiting →
      ends (.endCut p) .notStarted false .bookingNotStarted)
    ∧ (s.env.firstPoint c = some .endCut → c.state = .held →
      ends (.endCut p) .endedAtTime true .bookingEnded)
    ∧ ∀ cause, s.env.firstPoint c = some .release → c.cause = some cause →
      ends (.releasePoint p) cause.progress false .bookingEnded)
  ∧ (∀ (s : State) (p : Fin 8) (id : Nat) (rest : List Nat) (bk : Bank) (k : BankEntry),
    s.held = false → s.reachOpen = true →
    let c := s.world.player p
    s.env.firstPoint c = some .release → s.world.plans.wait = id :: rest →
    s.world.activeBank = some bk → (s.world.bank bk).find id = some k →
    c.ref ≠ some (bk, id) → s.world.ctl.state ≠ .parked →
    s.time.civic + 150 ≤ civic (s.world.bank bk).date k.booking.start →
    ∃ t, exec (.releasePoint p) s = .next t ∧ s.sameBase t
      ∧ (t.world.player p).state = .armed
      ∧ (t.world.player p).ref = some (bk, k.booking.id)
      ∧ (t.world.player p).copy.map (·.booking) = some k.booking
      ∧ t.world.plans.wait = rest)
  ∧ ∀ (w : World) (e : Env) (p : Fin 8) (n : Nat),
    ((w.player p).state ≠ .free ∨ w.ctl.state = .parked ∨ w.plans.wait = [] → w.fillFor e p n = w)
    ∧ ∀ id rest bk x, (w.player p).state = .free → w.ctl.state ≠ .parked → w.plans.wait = id :: rest →
      w.activeBank = some bk → (w.bank bk).find id = some x →
      let k := x.booking
      let d := (w.bank bk).date
      let left : World := { w with plans := { w.plans with wait := rest } }
      w.fillFor e p (n + 1) =
        (match lateMark e.now (civic d k.start) k (k.endPoint d) (e.lib.showRec k.showNo).length with
          | none => (left.onOutcome bk id fun r => { r with progress := .skippedLate }).raise e
            .bookingNotStarted
          | some m => left.armInto e p bk k m).fillFor e p n

/-- R75: END_CUT in RUNNING: the cut tick T is the later of the end point and NOW + 150; groups due from T on
are cut, and the CODA, when the show has one, is walked from T. A group of it whose hand point has come is
handed on in the same event, so long as no other point of the player comes first (R61; log entry 11).
R74 to R76, R79: a graceful end at any cut tick T with any cause, from any state: the hands due at or after T
are cut and their groups withdrawn from the dispatcher, the claims stand, the CODA is walked from T, and where
there is none the release point is T, or the one already held when it is no later and the walk had passed the
last group, with the cause COMPLETED; a cancel in HELD (`fresh`) sets that one aside. -/
def Obligations.EndCutBeginsEnding : Prop :=
  (∀ (s : State) (p : Fin 8) (stop : Nat), s.held = false → s.reachOpen = true →
    let c := s.world.player p
    let T := max stop (s.time.civic + 150)
    s.env.firstPoint c = some .endCut → c.state = .running → c.copy.bind (·.endPoint) = some stop →
    ∃ (w : World) (t : State), exec (.endCut p) s = .next t ∧ s.After (w.handReached s.env p) t
      ∧ (w.player p).state = .ending ∧ (w.player p).latch = none
      ∧ (w.player p).hands = c.hands.filter (fun h => h.due < T)
      ∧ (w.player p).looks = c.looks ∧ (w.player p).play = c.play
      ∧ (∀ sec, (s.env.showOf c).parts.getLast? = some sec → sec.kind = .coda →
        (w.player p).walk = some (.stands ⟨(s.env.showOf c).parts.length - 1, 0, sec.first⟩)
        ∧ (w.player p).epoch = some T ∧ (w.player p).release = some (T + sec.length)
        ∧ (w.player p).passes = some (if sec.passes = 0 then .endless else .left sec.passes)
        ∧ (w.player p).cause = some .endedAtTime)
      ∧ ((∀ sec, (s.env.showOf c).parts.getLast? = some sec → sec.kind ≠ .coda) →
        (w.player p).walk = some .past
        ∧ ((w.player p).release, (w.player p).cause) =
          (match c.walk, c.release with
            | some .past, some r =>
              if r ≤ T then (some r, some .completed) else (some T, some .endedAtTime)
            | _, _ => (some T, some .endedAtTime))))
  ∧ ∀ (w : World) (e : Env) (p : Fin 8) (T : Nat) (cause : EndCause) (fresh : Bool),
    let c := w.player p
    let shown := e.showOf c
    let v := w.endGracefully e p T cause fresh
    let ends (walk : Walk) (epoch : Option Nat) (passes : Option Passes) (why : EndCause) (release : Nat) :=
      { v.player p with counters := c.counters } = { c with
        state := .ending
        latch := none
        hands := c.hands.filter fun h => h.due < T
        walk := some walk
        epoch := epoch
        passes := passes
        cause := some why
        release := some release }
    (∀ sec, shown.parts.getLast? = some sec → sec.kind = .coda →
      ends (.stands ⟨shown.parts.length - 1, 0, sec.first⟩) (some T)
        (some (if sec.passes = 0 then .endless else .left sec.passes)) cause (T + sec.length))
    ∧ ((∀ sec, shown.parts.getLast? = some sec → sec.kind ≠ .coda) →
      (∀ r, fresh = false → c.walk = some .past → c.release = some r → r ≤ T →
        ends .past c.epoch c.passes .completed r)
      ∧ (fresh = true ∨ c.walk ≠ some .past ∨ (∀ r, c.release = some r → T < r) →
        ends .past c.epoch c.passes cause T))
    ∧ (∀ h ∈ c.hands, T ≤ h.due →
      (∀ g ∈ v.groups, ¬(g.player = p ∧ g.id = h.id))
      ∧ ∀ l, (∀ x ∈ (v.link l).stage, x.player = some p → x.group = some h.id → x.dropping = true)
        ∧ ∀ due ms, Item.group p h.id due ms ∉ (v.link l).deferred)
    ∧ (∀ z, (v.zone z).claims = (w.zone z).claims)
    ∧ (∀ bk id x, c.ref = some (bk, id) → (w.bank bk).find id = some x →
      (v.bank bk).find id = some { x with outcome := { x.outcome with progress := .ending } })

/-- R69, R19, R38: HAND_POINT: the group at the walk position is read with its looks, recorded on the hand-on
list with the walk as it stood, and given to the dispatcher with its due tick and the zones of its mapped
cues, but by a DRY player; the walk moves on, at the end of a pass by the pass turn; a RUNNING player whose
walk has entered the CODA is ENDING. The groups that follow within the horizon are handed on
after it, so long as no other point of the player comes first (log entry 11).
R61, R72: a reach takes a player's due points in the order of their civic ticks, and of one tick in the
order of R61; each group is handed on in its hand point's turn.
TABLE 4-4: the points a player holds, by its state, each with its civic tick plus 150: the claim point, or the
start point of an ON_CONDITION booking without a PREROLL, the window end, the end cut, the due point of the
oldest hand-on record, the hand point of the walk position and the release point (log entry 9).
R70, R77: the pass turn at the end of a pass, by passes remaining. The pass number is carried in two
bytes (TABLE 4-2).
R71: DUE_POINT: the head record of the hand-on list plays and leaves the list; nothing else changes. -/
def Obligations.GroupsHandedOnAndPlayed : Prop :=
  (∀ (s : State) (p : Fin 8) (g : GroupId) (sec : SectionRec) (due : Nat), s.held = false →
    s.reachOpen = true →
    let c := s.world.player p
    let shown := s.env.showOf c
    let group := s.lib.group shown sec g.cue
    s.env.firstPoint c = some .hand → s.env.walkAt c = some (g, sec, due) →
    let w := s.world.handOn s.env p
    ∃ t, exec (.handPoint p) s = .next t
      ∧ s.After (w.handReachFor s.env p (s.time.civic + 150)) t
      ∧ (w.player p).hands = c.hands ++ [⟨g, due,
          group.map fun q => ⟨q.part, q.look, s.lib.looks.get q.look⟩,
          ⟨g, c.epoch.getD 0, c.passes.getD .endless, c.latch⟩⟩]
      ∧ (w.player p).looks = c.looks ∧ (w.player p).play = c.play
      ∧ (g.cue + group.length < sec.first + sec.count →
        (w.player p).walk = some (.stands ⟨g.sec, g.pass, g.cue + group.length⟩)
        ∧ (w.player p).epoch = c.epoch ∧ (w.player p).passes = c.passes
        ∧ (w.player p).latch = c.latch)
      ∧ (sec.first + sec.count ≤ g.cue + group.length →
        let d := c.passTurn shown sec g
        (w.player p).walk = d.walk ∧ (w.player p).epoch = d.epoch ∧ (w.player p).passes = d.passes
        ∧ (w.player p).latch = d.latch ∧ (w.player p).cause = d.cause
        ∧ (w.player p).release = d.release)
      ∧ (let inCoda := ∃ coda, shown.parts.getLast? = some coda ∧ coda.kind = .coda
          ∧ ((w.player p).walk = some .past
            ∨ ∃ q, (w.player p).walk = some (.stands q) ∧ q.sec + 1 = shown.parts.length)
        (c.state = .running → inCoda → (w.player p).state = .ending)
        ∧ (¬(c.state = .running ∧ inCoda) → (w.player p).state = c.state)))
  ∧ (∀ (shown : ShowRec) (sec : SectionRec) (g : GroupId) (c : Player),
    let epoch := c.epoch.getD 0 + sec.length
    let again : Player := { c with
      epoch := some epoch, walk := some (.stands ⟨g.sec, (g.pass + 1) % 65536, sec.first⟩) }
    (c.passes = some .endless → c.passTurn shown sec g = again)
    ∧ (∀ n, c.passes = some (.left n) → 2 ≤ n →
      c.passTurn shown sec g = { again with passes := some (.left (n - 1)) })
    ∧ (∀ m, c.passes = some (.left 1) → c.latch = some m →
      c.passTurn shown sec g = { again with passes := some (.left m), latch := none })
    ∧ (c.passes = some (.left 1) → c.latch = none →
      (∀ next, shown.parts[g.sec + 1]? = some next →
        let moved : Player := { c with
          walk := some (.stands ⟨g.sec + 1, 0, next.first⟩)
          epoch := some epoch
          passes := some (if next.passes = 0 then .endless else .left next.passes) }
        c.passTurn shown sec g =
          if next.kind = .coda then
            { moved with cause := some .completed, release := some (epoch + next.length) }
          else moved)
      ∧ (shown.parts[g.sec + 1]? = none → sec.kind ≠ .coda →
        c.passTurn shown sec g = { c with
          walk := some .past, epoch := some epoch
          cause := some .completed, release := some epoch })
      ∧ (shown.parts[g.sec + 1]? = none → sec.kind = .coda →
        c.passTurn shown sec g = { c with walk := some .past, epoch := some epoch })))
  ∧ (∀ (s : State) (p : Fin 8) (h : HandRec) (rest : List HandRec), s.held = false →
    s.reachOpen = true → s.env.firstPoint (s.world.player p) = some .due →
    (s.world.player p).hands = h :: rest →
    ∃ t, exec (.duePoint p) s = .next t ∧ s.After (s.world.onPlayer p fun c => { c with
      looks := h.cues.foldl (fun looks q => looks.set q.part (some q.look)) c.looks
      play := some ⟨h.id, h.due⟩
      hands := rest }) t)
  ∧ ([PointKind.start, .windowEnd, .endCut, .due, .hand, .release].map PointKind.rank = [0, 1, 2, 3, 4, 5]
  ∧ ∀ (e : Env) (c : Player),
    (c.state = .free → e.points c = [])
    ∧ ∀ copy, c.copy = some copy →
      let shown := e.lib.showRec copy.booking.showNo
      let claims := copy.booking.mode = .atTime ∨ shown.parts.head?.any (·.kind == .preroll) = true
      let walks := c.state = .waiting ∨ c.state = .running ∨ c.state = .ending
      e.showOf c = shown
      ∧ (∀ g sec due, e.walkAt c = some (g, sec, due) ↔ c.walk = some (.stands g)
        ∧ shown.parts[g.sec]? = some sec
        ∧ due = c.epoch.getD 0 + ((e.lib.cueAt shown g.cue).map (·.offset)).getD 0)
      ∧ ∀ at_,
        ((at_, .start) ∈ e.points c ↔ c.state = .armed
          ∧ ((claims ∧ at_ = copy.startPoint) ∨ (¬claims ∧ at_ = copy.startPoint + 150)))
        ∧ ((at_, .windowEnd) ∈ e.points c ↔ c.state = .waiting
          ∧ ∃ ch n, copy.booking.mode = .onCondition ch n ∧ at_ = copy.startPoint + n + 150)
        ∧ ((at_, .endCut) ∈ e.points c ↔ c.state ≠ .free ∧ c.state ≠ .ending
          ∧ copy.endPoint = some at_ ∧ c.cutFresh = false)
        ∧ ((at_, .due) ∈ e.points c ↔ walks ∧ ∃ h, c.hands.head? = some h ∧ at_ = h.due + 150)
        ∧ ((at_, .hand) ∈ e.points c ↔ walks ∧ ∃ g sec, e.walkAt c = some (g, sec, at_))
        ∧ ((at_, .release) ∈ e.points c ↔ (c.state = .running ∨ c.state = .ending)
          ∧ ∃ r, c.release = some r ∧ at_ = r + 150))
  ∧ (∀ (e : Env) (c : Player),
    (e.firstPoint c = none ↔ ∀ x ∈ e.points c, e.now + 150 < x.1)
    ∧ ∀ k, e.firstPoint c = some k → ∃ at_, (at_, k) ∈ e.points c ∧ at_ ≤ e.now + 150
      ∧ ∀ x ∈ e.points c, at_ < x.1 ∨ (at_ = x.1 ∧ k.rank ≤ x.2.rank))
  ∧ ∀ (w : World) (e : Env) (p : Fin 8) (n : Nat),
    (e.firstPoint (w.player p) = none → w.pointsFor e p n = w)
    ∧ (∀ k, e.firstPoint (w.player p) = some k →
      w.pointsFor e p (n + 1) = (w.act e p k).pointsFor e p n)
    ∧ (e.firstPoint (w.player p) ≠ some .hand → w.handReachFor e p n = w)
    ∧ (e.firstPoint (w.player p) = some .hand →
      w.handReachFor e p (n + 1) = (w.handOn e p).handReachFor e p n)
    ∧ (∀ g sec due, e.walkAt (w.player p) = some (g, sec, due) →
      let c := w.player p
      let shown := e.showOf c
      let group := e.lib.group shown sec g.cue
      let copies : List HandCue := group.map fun q => ⟨q.part, q.look, e.lib.looks.get q.look⟩
      let kept := w.onPlayer p fun d => { d with hands := d.hands ++
        [⟨g, due, copies, ⟨g, c.epoch.getD 0, c.passes.getD .endless, c.latch⟩⟩] }
      let zmap := (c.copy.map (·.booking.zmap)).getD []
      let mapped : List CueItem := copies.filterMap fun q =>
        (zmap.find? (·.part == q.part)).map fun m => ⟨q.part, m.zones, q.look⟩
      let told :=
        if c.copy.any (·.booking.cls == 0) then kept else kept.takeGroup e p g due mapped
      w.handOn e p = (told.onPlayer p fun d =>
        if g.cue + group.length < sec.first + sec.count then
          { d with walk := some (.stands { g with cue := g.cue + group.length }) }
        else d.passTurn shown sec g).walkEnds shown p)
    ∧ (let due := (w.player p).walking = true
        ∧ ∃ a, e.walkAt (w.player p) = some a ∧ a.2.2 ≤ e.now + 150
      (¬due → w.handFor e p n = w)
      ∧ (due → w.handFor e p (n + 1) = (w.handOn e p).handFor e p n))
    ∧ w.handAll e p = w.handFor e p (e.now + 151)
    ∧ w.handReached e p = w.handReachFor e p (e.now + 151)

/-- R82: HOLD withdraws what the dispatcher holds of the player, its deferred items among it, rolls the walk back
to the oldest record, one of the PREROLL among them (log entry 42), and puts the booking HELD.
R83: RESUME shifts the epoch and a kept release point by NOW + 150 less the hold tick, earlier where the hold tick
is the later of the two, and then not before civic tick 0 (log entry 44).
R73: SET_PASSES. A player number above 7 is refused before anything else (log entry 21). -/
def Obligations.HoldResumeSetPasses : Prop :=
  (∀ (s : State) (tag n : Nat), s.idle = true → 7 < n →
    exec (.hold tag n) s = .next (State.replied 0x31 tag (s, .badField 0))
    ∧ exec (.resume tag n) s = .next (State.replied 0x32 tag (s, .badField 0))
    ∧ ∀ passes, exec (.setPasses tag n passes) s = .next (State.replied 0x33 tag (s, .badField 0)))
  ∧ (∀ (s : State) (tag : Nat) (p : Fin 8), s.idle = true →
    let c := s.world.player p
    (c.state ≠ .running →
      exec (.hold tag p.val) s = .next (State.replied 0x31 tag (s, .no .wrongState)))
    ∧ (c.state = .running → ∃ t, exec (.hold tag p.val) s = .next t ∧ s.sameBase t
      ∧ t.port.slot = some ⟨0x31, tag, .ok, []⟩
      ∧ { t.world.player p with counters := c.counters } = (match c.hands with
          | [] => { c with state := .held, holdTick := some s.time.civic }
          | h :: _ => { c with
              state := .held
              holdTick := some s.time.civic
              walk := some (.stands h.snap.walk)
              epoch := some h.snap.epoch
              passes := some h.snap.passes
              latch := h.snap.latch
              hands := []
              release := none })
      ∧ (∀ bk id x, c.ref = some (bk, id) → (s.world.bank bk).find id = some x →
        (t.world.bank bk).find id = some { x with outcome := { x.outcome with progress := .held } })
      ∧ (∀ z, (t.world.zone z).claims = (s.world.zone z).claims)
      ∧ (∀ g ∈ t.world.groups, g.player ≠ p)
      ∧ (∀ l, ∀ i ∈ (t.world.link l).deferred, (match i with
        | .group q _ _ _ => some q
        | .single _ _ q _ _ => q) ≠ some p)
      ∧ ∀ l, ∀ x ∈ (t.world.link l).stage, x.player = some p → x.dropping = true))
  ∧ (∀ (s : State) (tag : Nat) (p : Fin 8), s.idle = true →
    let c := s.world.player p
    (c.state ≠ .held →
      exec (.resume tag p.val) s = .next (State.replied 0x32 tag (s, .no .wrongState)))
    ∧ (∀ h, c.state = .held → c.holdTick = some h →
      let shifted (t : Nat) := if h ≤ s.time.civic + 150 then t + (s.time.civic + 150 - h)
        else t - (h - (s.time.civic + 150))
      ∃ t, exec (.resume tag p.val) s = .next t ∧ s.AfterReply
        (((s.world.onPlayer p fun c => { c with
            state := .running
            epoch := c.epoch.map shifted
            release := c.release.map shifted
            holdTick := none }).reportOn p fun r => { r with progress := .running }).handAll s.env p)
        ⟨0x32, tag, .ok, []⟩ t))
  ∧ (∀ (s : State) (tag n : Nat) (p : Fin 8), s.idle = true →
    let c := s.world.player p
    let taken := (c.state = .running ∨ c.state = .held)
      ∧ ∃ q g sec, c.play = some q ∧ c.walk = some (.stands g) ∧ q.id.sec = g.sec
        ∧ (s.env.showOf c).parts[g.sec]? = some sec ∧ sec.kind = .main ∧ sec.passes ≠ 0
    (n = 0 → exec (.setPasses tag p.val n) s = .next (State.replied 0x33 tag (s, .badField 1)))
    ∧ (n ≠ 0 → ¬taken →
      exec (.setPasses tag p.val n) s = .next (State.replied 0x33 tag (s, .no .wrongState)))
    ∧ (n ≠ 0 → taken → ∃ t, exec (.setPasses tag p.val n) s = .next t
      ∧ s.AfterReply (s.world.onPlayer p fun c => { c with
          latch := some n
          hands := c.hands.map fun h => { h with snap := { h.snap with latch := some n } } })
        ⟨0x33, tag, .ok, []⟩ t))

/-! ## Requests that read -/

/-- R33, R34, R56, R57 and sections 11.2 and 11.3: GET_SHOW, GET_POOL, GET_BOOKING and GET_PLAN. The bytes
for an absent part are the model's reading of R198 (log entry 14). -/
def Obligations.LibraryAndPlanReads : Prop :=
  ∀ (s : State) (tag : Nat), s.idle = true →
    (∀ n first, n = 0 ∨ 32 < n →
      exec (.getShow tag n first) s = .next (State.replied 0x17 tag (s, .badField 0)))
    ∧ (∀ (n : Fin 32) (first : Nat), 1023 < first →
      exec (.getShow tag (n.val + 1) first) s = .next (State.replied 0x17 tag (s, .badField 1)))
    ∧ (∀ (n : Fin 32) (first : Nat), first ≤ 1023 →
      let r := s.lib.showRec n
      exec (.getShow tag (n.val + 1) first) s = .next (State.replied 0x17 tag (s, .ok
        ((match r.state with
            | .empty => 0#8
            | .building => 1#8
            | .closed => 2#8) :: r.name
          ++ byteOf r.parts.length :: r.parts.flatMap (fun x =>
              (match x.kind with
                | .preroll => 0#8
                | .main => 1#8
                | .coda => 2#8) :: bigEndian 2 x.length ++ byteOf x.passes :: bigEndian 2 x.first
                ++ bigEndian 2 x.count)
          ++ byteOf r.blocks.length :: r.blocks.map byteOf
          ++ bigEndian 2 r.cues
          ++ (match r.length with
            | none => [0xFF#8, 0xFF#8, 0xFF#8, 0xFF#8]
            | some .endless => [0#8, 0#8, 0#8, 0#8]
            | some (.ticks x) => bigEndian 4 x)
          ++ (let cues := s.lib.cuesFrom r (min 16 (r.cues - first)) first
            byteOf cues.length :: cues.flatMap fun q =>
              bigEndian 2 q.offset ++ [byteOf q.part.val, byteOf q.look.val])))))
    ∧ exec (.getPool tag) s = .next (State.replied 0x18 tag (s, .ok
        (byteOf s.lib.free.length :: s.lib.free.map byteOf
          ++ [match s.lib.openShow with
            | none => 0xFF#8
            | some n => byteOf (n.val + 1)])))
    ∧ (∀ n, bank? n = none →
      (∀ id, exec (.getBooking tag n id) s = .next (State.replied 0x27 tag (s, .badField 0)))
      ∧ ∀ page, exec (.getPlan tag n page) s = .next (State.replied 0x28 tag (s, .badField 0)))
    ∧ (∀ (n id : Nat) (bk : Bank), bank? n = some bk →
      ((s.world.bank bk).find id = none →
        exec (.getBooking tag n id) s = .next (State.replied 0x27 tag (s, .no .notFound)))
      ∧ ∀ x, (s.world.bank bk).find id = some x →
        exec (.getBooking tag n id) s = .next (State.replied 0x27 tag (s, .ok
          ([byteOf x.booking.id, byteOf (x.booking.showNo.val + 1)] ++ bigEndian 3 x.booking.start
            ++ (match x.booking.mode with
              | .atTime => [0#8, 0xFF#8, 0xFF#8, 0xFF#8, 0xFF#8]
              | .onCondition ch window => [1#8, byteOf ch.val] ++ bigEndian 3 window)
            ++ (match x.booking.endTime with
              | none => [0xFF#8, 0xFF#8, 0xFF#8, 0#8]
              | some v => bigEndian 3 v.tod ++ [if v.nextDay then 1#8 else 0#8])
            ++ [(match x.booking.stopCond with
                | none => 0xFF#8
                | some ch => byteOf ch.val),
              byteOf x.booking.cls, byteOf x.booking.sub,
              match x.booking.policy with
                | .skip => 0#8
                | .join => 1#8
                | .restart => 2#8]
            ++ byteOf x.booking.zmap.length :: x.booking.zmap.flatMap (fun m =>
                [byteOf m.part.val, byteOf m.zones.length] ++ m.zones.map fun z => byteOf z.val)
            ++ [x.outcome.progress.code, if x.outcome.abrupt then 1#8 else 0#8]
            ++ optBytes 5 x.outcome.startTick ++ optBytes 5 x.outcome.endTick
            ++ bigEndian 2 x.outcome.counters.late ++ bigEndian 2 x.outcome.counters.discarded
            ++ bigEndian 2 x.outcome.counters.preempted
            ++ bigEndian 2 x.outcome.counters.undeliverable))))
    ∧ ∀ (n : Nat) (bk : Bank), bank? n = some bk →
      let r := s.world.bank bk
      let head := r.state.code :: bigEndian 2 r.date.year
        ++ [byteOf r.date.month, byteOf r.date.day, byteOf r.list.length]
      let brief (xs : List BankEntry) := byteOf xs.length :: xs.flatMap fun x =>
        [byteOf x.booking.id, byteOf (x.booking.showNo.val + 1)] ++ bigEndian 3 x.booking.start
          ++ [x.outcome.progress.code]
      let answered (page : Option Nat) (body : List Byte) :=
        exec (.getPlan tag n page) s = .next (State.replied 0x28 tag (s, .ok (head ++ body)))
      (∀ page, page = none ∨ page = some 0 → answered page
        (byteOf s.world.plans.wait.length :: s.world.plans.wait.map byteOf
          ++ bigEndian 4 s.world.plans.armSeq))
      ∧ answered (some 1) (brief (r.list.take 24))
      ∧ answered (some 2) (brief ((r.list.drop 24).take 24))
      ∧ ∀ page, 2 < page →
        exec (.getPlan tag n (some page)) s = .next (State.replied 0x28 tag (s, .badField 1))

/-- R88, R111 and section 11.3: GET_PLAYER and GET_ZONE. The bytes for an absent part are the model's reading
of R198 (log entry 14). -/
def Obligations.PlayerAndZoneReads : Prop :=
  ∀ (s : State) (tag : Nat), s.idle = true →
    let look (x : LookCopy) := [byteOf x.num.val, byteOf x.val.l0, byteOf x.val.l1, byteOf x.val.l2,
      byteOf x.val.l3] ++ bigEndian 2 x.val.fade
    let held (x : Option LookCopy) := match x with
      | none => List.replicate 8 0#8
      | some x => 1#8 :: look x
    (∀ p : Fin 8,
      let c := s.world.player p
      exec (.getPlayer tag p.val) s = .next (State.replied 0x30 tag (s, .ok
        ([byteOf p.val, c.state.code]
          ++ (match c.ref with
            | none => [0xFF#8, 0#8]
            | some (bk, id) => [bk.code, byteOf id])
          ++ (match c.copy with
            | none => List.replicate 5 0xFF#8
            | some k => [byteOf (k.booking.showNo.val + 1), byteOf k.booking.cls,
                byteOf k.booking.sub, k.booking.mode.code, c.mark.code])
          ++ bigEndian 4 c.armSeq ++ optBytes 5 (c.copy.bind (·.endPoint)) ++ optBytes 5 c.epoch
          ++ (match c.walk with
            | none => List.replicate 5 0xFF#8
            | some .past => [0xFE#8, 0#8, 0#8, 0#8, 0#8]
            | some (.stands g) => byteOf g.sec :: bigEndian 2 g.pass ++ bigEndian 2 g.cue)
          ++ [(match c.passes with
              | some (.left n) => byteOf n
              | _ => 0#8), byteOf (c.latch.getD 0)]
          ++ (match c.play with
            | none => List.replicate 10 0xFF#8
            | some q => byteOf q.id.sec :: bigEndian 2 q.id.pass ++ bigEndian 2 q.id.cue
                ++ bigEndian 5 q.due)
          ++ byteOf c.hands.length :: optBytes 5 (c.hands.head?.map (·.due))
          ++ c.looks.list.flatMap held ++ optBytes 5 c.holdTick
          ++ [match c.cause with
            | none => 0xFF#8
            | some x => x.code]
          ++ optBytes 5 c.release ++ optBytes 5 c.startTick
          ++ bigEndian 2 c.counters.late ++ bigEndian 2 c.counters.discarded
          ++ bigEndian 2 c.counters.preempted ++ bigEndian 2 c.counters.undeliverable))))
    ∧ (∀ n, 8 ≤ n → exec (.getPlayer tag n) s = .next (State.replied 0x30 tag (s, .badField 0)))
    ∧ (∀ z : Fin 64,
      let r := s.world.zone z
      exec (.getZone tag z.val) s = .next (State.replied 0x39 tag (s, .ok
        ([byteOf z.val, byteOf (z.val / 16), byteOf (z.val % 16 + 1),
            if r.configured then 1#8 else 0#8,
            (s.world.driver (zoneLink z) (zoneAddr z)).state.code,
            match r.claims with
              | [] => 0xFF#8
              | c :: _ => byteOf c.player.val]
          ++ held r.committed
          ++ [byteOf r.fallback.val, byteOf r.lead,
            match r.take with
              | none => 0xFF#8
              | some (_, .catchUp) => 0#8
              | some (_, .fallback) => 1#8]
          ++ byteOf r.claims.length :: r.claims.flatMap fun c =>
            [byteOf c.player.val, byteOf c.cls, byteOf c.sub] ++ bigEndian 4 c.seq
              ++ [byteOf c.part.val]))))
    ∧ ∀ n, 64 ≤ n → exec (.getZone tag n) s = .next (State.replied 0x39 tag (s, .badField 0))

/-- R158, TABLE 11-7: GET_LINK, page by page. The bytes for an absent transfer, an absent operation and a
free tag are the model's reading of R198 (log entry 14). -/
def Obligations.LinkReads : Prop :=
  ∀ (s : State) (tag : Nat), s.idle = true →
    (∀ n page, 4 ≤ n →
      exec (.getLink tag n page) s = .next (State.replied 0x44 tag (s, .badField 0)))
    ∧ ∀ l : Fin 4,
      let k := s.world.link l
      let flag (b : Bool) := if b then 1#8 else 0#8
      let answered (page : Option Nat) (body : List Byte) :=
        exec (.getLink tag l.val page) s = .next (State.replied 0x44 tag (s, .ok
          ([byteOf l.val, byteOf (page.getD 0)] ++ body)))
      let driver (a : Fin 16) :=
        let d := s.world.driver l a
        [flag (s.world.zone (zoneAt l a)).configured, d.state.code, byteOf d.credits,
            byteOf d.occupied]
          ++ optBytes 1 d.slotsFree
          ++ (match d.refresh with
            | none => List.replicate 6 0#8
            | some r => bigEndian 2 (d.silence.getD 0) ++ bigEndian 2 (d.latency.getD 0)
                ++ bigEndian 2 r)
          ++ bigEndian 2 d.quiet ++ [flag (d.backoff != .clear), byteOf d.poll]
      let entries (xs : List Entry) := byteOf k.stage.length :: xs.flatMap fun x =>
        [byteOf (16 * l.val + x.addr.val), (match x.group with
            | some _ => 0#8
            | none => 1#8), (match x.player with
            | none => 0xFF#8
            | some p => byteOf p.val), byteOf x.tag, x.state.code] ++ bigEndian 5 x.due
          ++ [byteOf x.hold]
      (∀ page, page = none ∨ page = some 0 → answered page
        ([flag k.enabled, k.state.code, flag k.power] ++ bigEndian 2 k.timer
          ++ (match k.transfer with
            | none => [0xFF#8, 0xFF#8, 0xFF#8, 0xFF#8]
            | some x => [byteOf x.frame.kind, byteOf (x.addr.val + 1), byteOf x.attempt,
                byteOf x.ticks])
          ++ [byteOf k.pending.length, byteOf k.errors.length] ++ bigEndian 2 k.errorTotal
          ++ (match k.lastOp with
            | none => [0xFF#8, 0xFF#8, 0xFF#8]
            | some o => [if o.isScan then 0#8 else 1#8, o.result.code, byteOf o.count])
          ++ [byteOf k.stage.length,
            if k.stage.length = 0 then 0#8 else if k.stage.length ≤ 23 then 1#8
              else if k.stage.length ≤ 47 then 2#8 else 3#8]
          ++ bigEndian 2 (k.deferred.countP fun i => match i with
              | .group .. => true
              | .single .. => false)
          ++ [byteOf (k.deferred.countP fun i => match i with
              | .group .. => false
              | .single .. => true)]
          ++ k.tags.list.flatMap fun h => match h with
            | none => [0xFF#8, 0#8, 0#8, 0#8, 0#8, 0#8, 0#8]
            | some h => [byteOf h.player.val, h.go.code, byteOf h.id.sec] ++ bigEndian 2 h.id.pass
                ++ bigEndian 2 h.id.cue))
      ∧ answered (some 1) (([0, 1, 2, 3, 4, 5, 6, 7] : List (Fin 16)).flatMap driver)
      ∧ answered (some 2) (([8, 9, 10, 11, 12, 13, 14, 15] : List (Fin 16)).flatMap driver)
      ∧ answered (some 3) (byteOf k.gos.length :: k.gos.flatMap fun g =>
          byteOf (g.tag.val + 1) :: bigEndian 5 g.due ++ bigEndian 5 g.send
            ++ [byteOf ((if g.ready then 1 else 0) + if g.sent then 2 else 0)])
      ∧ answered (some 4) (entries (k.stage.take 20))
      ∧ answered (some 5) (entries ((k.stage.drop 20).take 20))
      ∧ answered (some 6) (entries ((k.stage.drop 40).take 8))
      ∧ ∀ page, 6 < page →
        exec (.getLink tag l.val (some page)) s = .next (State.replied 0x44 tag (s, .badField 1))

/-- R172, R184 and R195: GET_CONDITION, GET_STATE and GET_NOTICES. The bytes for an absent part are the
model's reading of R198 (log entry 14); the codes of a dark test's result and of a change's cause are
free values, whatever they are (log entry 4). The earliest arm point is the least, over the PENDING bookings of
the ACTIVE bank, of a start point less 6,000, and absent where there is none; one before civic tick 0 is reported
as 0, which is the model's choice (log entry 9). -/
def Obligations.ConditionStateNoticeReads : Prop :=
  ∀ (s : State) (tag : Nat), s.idle = true →
    let flag (b : Bool) := if b then 1#8 else 0#8
    (∀ n, 8 ≤ n → exec (.getCondition tag n) s = .next (State.replied 0x49 tag (s, .badField 0)))
    ∧ (∀ ch : Fin 8,
      let c := s.world.monitor.channels.get ch
      exec (.getCondition tag ch.val) s = .next (State.replied 0x49 tag (s, .ok
        ([byteOf ch.val, flag c.enabled, (match c.source with
            | .ain i => byteOf i.val
            | .cin i => byteOf (4 + i.val)
            | .supplied => 8#8), (match c.mode with
            | .above => 0#8
            | .below => 1#8
            | .inside => 2#8
            | .outside => 3#8)] ++ bigEndian 2 c.low ++ bigEndian 2 c.high
          ++ [byteOf c.persist, flag c.record,
            byteOf ((if c.wake then 1 else 0) + if c.allStop then 2 else 0), c.value.code,
            byteOf c.streak, match c.sense with
              | none => 0xFF#8
              | some true => 0#8
              | some false => 1#8]
          ++ bigEndian 2 c.count
          ++ (match c.trip with
            | none => List.replicate 8 0xFF#8
            | some x => bigEndian 5 x.tick ++ x.value.code :: bigEndian 2 x.reading)
          ++ optBytes 2 (match c.source with
            | .ain i => s.world.monitor.ain.get i
            | .cin i => s.world.monitor.cin.get i
            | .supplied => s.world.monitor.supplied.get ch)
          ++ optBytes 2 (s.world.monitor.supplied.get ch)))))
    ∧ (∃ result cause earliest, exec (.getState tag) s = .next (State.replied 0x54 tag (s, .ok
        (let c := s.world.ctl
        [c.state.code, flag c.auto] ++ bigEndian 2 c.guard
          ++ (match c.lastTest with
            | none => List.replicate 6 0xFF#8
            | some x => bigEndian 5 x.tick ++ [result])
          ++ c.asleep.list.map flag ++ c.restartWake.list.map flag
          ++ (match c.lastChange with
            | none => List.replicate 7 0xFF#8
            | some x => bigEndian 5 x.tick ++ [x.state.code, cause])
          ++ [byteOf (s.world.players.list.countP fun p => p.state != .free),
            byteOf s.world.plans.wait.length]
          ++ optBytes 5 earliest)))
      ∧ (s.world.activeBank = none → earliest = none)
      ∧ ∀ bk, s.world.activeBank = some bk →
        let r := s.world.bank bk
        let points := (r.list.filter fun k => k.outcome.progress == .pending).map fun k =>
          civic r.date k.booking.start - 6000
        (points = [] → earliest = none)
        ∧ (points ≠ [] → ∃ m, earliest = some m ∧ m ∈ points ∧ ∀ n ∈ points, m ≤ n))
    ∧ exec (.getNotices tag) s = .next (State.replied 0x50 tag (s, .ok
        (bigEndian 2 s.port.mask.toNat
          ++ s.world.notices.list.flatMap (fun n =>
            [flag n.pending, flag n.sent, byteOf n.count] ++ optBytes 5 n.first ++ optBytes 5 n.last)
          ++ bigEndian 2 s.port.checkErrors ++ bigEndian 2 s.port.overrunCount)))

/-- R186, R196, R199: IDENT gives the names and the figures; LOOPBACK answers its body, of at most 239 bytes;
RESTART answers OK, and the restart follows the end of that reply. The line rate's four bytes are the model's
choice (log entry 14). -/
def Obligations.IdentLoopbackRestartAnswer : Prop :=
  ∀ (s : State) (tag : Nat), s.idle = true →
    exec (.ident tag) s = .next (State.replied 0x56 tag (s, .ok
      ([0x56#8, 0x6F#8, 0x72#8, 0x6E#8, 0x65#8, 0x6B#8, 0x61#8, 0#8]
        ++ [0x4C#8, 0x42#8, 0x2D#8, 0x37#8, 0x32#8, 0x34#8, 0x30#8, 0#8]
        ++ [1#8] ++ bigEndian 4 (if s.port.rateHigh then 460800 else 115200)
        ++ [4#8, 240#8, 8#8, 64#8, 4#8, 8#8, 32#8] ++ [1#8, 0#8] ++ [128#8])))
    ∧ (∀ body : List Byte, body.length ≤ 239 →
      exec (.loopback tag body) s = .next (State.replied 0x57 tag (s, .ok body)))
    ∧ exec (.restart tag) s = .next (State.replied 0x55 tag (s, .ok []))

/-! ## Zones and claims -/

/-- R108, R109, R110: PUT_ZONE and SET_LEAD. The place of the failing field is the model's reading of R198
(log entry 17), and IN_USE is tested after the fields (log entry 21). A zone unconfigured has its take
withdrawn and its driver forgotten, with a frame that was being sent to it (log entry 6).
R103, R109, R132: the driver so forgotten becomes ABSENT as TRANSFER_TIMEOUT's statement has the loss of a driver;
with nothing deferred, the entries of a READY or BUSY one are gone and counted. -/
def Obligations.ZoneSettings : Prop :=
  ∀ (s : State) (tag : Nat) (z : Fin 64) (look : Fin 256) (n lead : Nat), s.idle = true →
    let r := s.world.zone z
    let put (a : Answer) :=
      exec (.putZone tag z.val n look.val lead) s = .next (State.replied 0x38 tag (s, a))
    let taken (w : World) := ∃ t, exec (.putZone tag z.val n look.val lead) s = .next t
      ∧ s.AfterReply w ⟨0x38, tag, .ok, []⟩ t
    (∀ m, 64 ≤ m → exec (.putZone tag m n look.val lead) s =
        .next (State.replied 0x38 tag (s, .badField 0))
      ∧ exec (.setLead tag m lead) s = .next (State.replied 0x3A tag (s, .badField 0)))
    ∧ (1 < n → put (.badField 1))
    ∧ (n ≤ 1 → 20 < lead → put (.badField 3))
    ∧ (n = 0 → lead ≤ 20 → r.configured = true → r.claims ≠ [] → put (.no .inUse))
    ∧ (lead ≤ 20 → (n = 1 ∧ r.configured = true ∨ n = 0 ∧ r.configured = false) →
      taken (s.world.onZone z fun r => { r with fallback := look, lead := lead }))
    ∧ (lead ≤ 20 → n = 1 → r.configured = false →
      taken ((s.world.onZone z fun r =>
          { r with configured := true, fallback := look, lead := lead }).onDriver (zoneLink z)
        (zoneAddr z) fun d => { d with poll := 100 }))
    ∧ (lead ≤ 20 → n = 0 → r.configured = true → r.claims = [] →
      let set := s.world.onZone z fun r => { r with fallback := look, lead := lead }
      let v := (set.withdrawTake s.env z).forgetDriver s.env z
      taken (v.onZone z fun r => { r with configured := false, committed := none })
      ∧ set.Kept v
      ∧ (v.driver (zoneLink z) (zoneAddr z)).state = .absent
      ∧ (∀ x, (v.link (zoneLink z)).transfer = some x → x.addr ≠ zoneAddr z)
      ∧ ((s.world.driver (zoneLink z) (zoneAddr z)).deliverable = true →
        (v.driver (zoneLink z) (zoneAddr z)).credits = 4
        ∧ (v.driver (zoneLink z) (zoneAddr z)).occupied = 0
        ∧ (∀ x ∈ (v.link (zoneLink z)).pending, x.addr ≠ zoneAddr z)
        ∧ (s.world.undeferred → (s.world.link (zoneLink z)).refsDistinct →
          (set.withdrawTake s.env z).Lost (zoneLink z) (· == zoneAddr z) v))
      ∧ v = ((set.withdrawTake s.env z).onLink (zoneLink z) fun k =>
        { k with transfer := k.transfer.filter (·.addr != zoneAddr z) }).dropDriver s.env (zoneLink z)
          .absent (zoneAddr z))
    ∧ (20 < lead →
      exec (.setLead tag z.val lead) s = .next (State.replied 0x3A tag (s, .badField 1)))
    ∧ (lead ≤ 20 → ∃ t, exec (.setLead tag z.val lead) s = .next t
      ∧ s.AfterReply (s.world.onZone z fun r => { r with lead := lead }) ⟨0x3A, tag, .ok, []⟩ t)

/-- R91, R93: rank, and a claim entered by it: the order is strict between the claims of different players,
the list stays in rank order, the player's earlier claim leaves it, and the others stand.
R93 to R97: a claim and a release at the arbiter, on a zone that is not deliverable, where no take is
made: the claim list, the owner, the preemption count, and nothing else but what the withdrawal of the
preempted player's takes and the end of a calibration (R153) bring.
R98 to R101, R105 to R107: the takes of a zone that is deliverable: the gain's catch-up take from the owner's
looks and its rejoin, the fallback take of a zone left without an owner, the return take, which the owner's
look, else the committed look, else the fallback look gives, and the restore take, which gives the committed
look again and makes no rejoin (log entry 12). A newer take withdraws the older one. What a withdrawal of a player's takes
for a zone, or of a zone's individual take, does to the entries is in the statement of the dispatcher's lists. -/
def Obligations.ClaimsByRank : Prop :=
  ((∀ x y : Claim, x.above y = true ↔
    (y.cls < x.cls ∨ (x.cls = y.cls ∧ (y.sub < x.sub ∨ (x.sub = y.sub
      ∧ (x.seq < y.seq ∨ (x.seq = y.seq ∧ x.player < y.player)))))))
  ∧ (∀ x y : Claim, ¬(x.above y = true ∧ y.above x = true))
  ∧ (∀ x y : Claim, x.player ≠ y.player → x.above y = true ∨ y.above x = true)
  ∧ (∀ x y z : Claim, x.above y = true → y.above z = true → x.above z = true)
  ∧ ∀ (c : Claim) (cs : List Claim), claimsRanked cs →
    claimsRanked (enterClaim c cs)
    ∧ ∀ x, x ∈ enterClaim c cs ↔ x = c ∨ (x ∈ cs ∧ x.player ≠ c.player))
  ∧ (∀ (w : World) (e : Env) (z : Fin 64) (c : Claim),
    (∀ y, ((w.claim e z c).zone y).claims =
      if y = z then enterClaim c (w.zone z).claims else (w.zone y).claims)
    ∧ (w.claim e z c).owner z = (enterClaim c (w.zone z).claims).head?.map (·.player)
    ∧ ((enterClaim c (w.zone z).claims).head?.map (·.player) = w.owner z →
      w.claim e z c = (w.onZone z fun r => { r with claims := enterClaim c r.claims }).claimReaches e
        (zoneLink z))
    ∧ (w.deliverable z = false → w.owner z = none →
      w.claim e z c = (w.onZone z fun r => { r with claims := enterClaim c r.claims }).claimReaches e
        (zoneLink z))
    ∧ (∀ old, w.deliverable z = false → w.owner z = some old → (w.player old).state ≠ .free →
      (enterClaim c (w.zone z).claims).head?.map (·.player) ≠ some old →
        let v := w.withdrawZone e old z
        w.Kept v ∧ w.claim e z c = ((v.onPlayer old fun q => { q with counters := { q.counters with
            preempted := satUp 65535 q.counters.preempted } }).onZone z fun r =>
              { r with claims := enterClaim c r.claims }).claimReaches e (zoneLink z))
    ∧ ∀ p : Fin 8,
      (∀ y, ((w.releaseZone e p z).zone y).claims =
        if y = z then (w.zone z).claims.filter (·.player != p) else (w.zone y).claims)
      ∧ ((∀ x ∈ (w.zone z).claims, x.player ≠ p) → w.releaseZone e p z = w)
      ∧ (w.owner z ≠ some p ∨ w.deliverable z = false →
        w.releaseZone e p z =
          w.onZone z fun r => { r with claims := r.claims.filter (·.player != p) }))
  ∧ (∀ (w : World) (e : Env) (z : Fin 64),
    let look := (w.zone z).claims.head?.bind fun c => (w.player c.player).looks.get c.part
    let take (p : Option (Fin 8)) (x : LookCopy) (k : TakeKind) :=
      (w.withdrawTake e z).placeSingle e z p x k
    let rejoin (v : World) := match (v.zone z).claims.head? with
      | none => v
      | some c => v.rejoin e z c.player c.part
    let fallback : LookCopy := ⟨(w.zone z).fallback, e.lib.looks.get (w.zone z).fallback⟩
    (w.deliverable z = false →
      w.gain e z = w ∧ w.fallbackTake e z = w ∧ w.restoreTake e z = w)
    ∧ (w.deliverable z = true →
      (look = none → w.gain e z = rejoin w)
      ∧ (∀ x, look = some x → w.gain e z = rejoin (take (w.owner z) x .catchUp))
      ∧ w.fallbackTake e z = take none fallback .fallback
      ∧ (∀ p x, w.owner z = some p → look = some x →
        w.returnTake e z = rejoin (take (some p) x .catchUp))
      ∧ (∀ p x, w.owner z = some p → look = none → (w.zone z).committed = some x →
        w.returnTake e z = rejoin (take (some p) x .catchUp))
      ∧ (w.owner z = none ∨ (look = none ∧ (w.zone z).committed = none) →
        w.returnTake e z = rejoin (take none fallback .fallback))
      ∧ (∀ p x, w.owner z = some p → (w.zone z).committed = some x →
        w.restoreTake e z = take (some p) x .catchUp)
      ∧ (∀ x, w.owner z = none → (w.zone z).committed = some x →
        w.restoreTake e z = take none x .fallback)
      ∧ (∀ p x, w.owner z = some p → (w.zone z).committed = none → look = some x →
        w.restoreTake e z = take (some p) x .catchUp)
      ∧ (w.owner z = none ∨ look = none → (w.zone z).committed = none →
        w.restoreTake e z = take none fallback .fallback))
    ∧ (∀ p x k, ((take p x k).zone z).take.map (·.2) = some k)
    ∧ (∀ c, w.owner z = none →
      w.claim e z c = ((w.onZone z fun r => { r with claims := enterClaim c r.claims }).gain e
        z).claimReaches e (zoneLink z))
    ∧ (∀ c old, w.owner z = some old →
      (enterClaim c (w.zone z).claims).head?.map (·.player) ≠ some old →
      w.claim e z c = ((((w.withdrawZone e old z).count old Counters.addPreempted).onZone z fun r =>
        { r with claims := enterClaim c r.claims }).gain e z).claimReaches e (zoneLink z))
    ∧ ∀ p, w.owner z = some p →
      let left := w.onZone z fun r => { r with claims := r.claims.filter (·.player != p) }
      ((w.zone z).claims.filter (·.player != p) = [] →
        w.releaseZone e p z = left.fallbackTake e z)
      ∧ ((w.zone z).claims.filter (·.player != p) ≠ [] → w.releaseZone e p z = left.gain e z))

/-! ## The dispatcher -/

/-- R118, R119, R128: an individual take and a group's portion placed when the link has room, else deferred. The
portion is here of a player with no late entry on the link to supersede.
R123, R126: SEND_TICK makes ready every GO of the link whose send tick has come; EXPIRY_POINT retires the
player's oldest group past its expiry: no GO of it stays unsent, no entry of it stays but on its way out.
R126: each entry of that group by its state, the others kept, its deferred items gone, each GO not sent REMOVED,
the takes so lost counted in the player's discarded takes, with LATE_TAKE.
Neither acts when nothing is due (log entry 2).
R116, R117, R120: a group handed on: its zones are judged, the undeliverable ones counted, and the members
placed link by link; one that comes too late is counted discarded and leaves no record.
R133: a rejoin of a zone to a group of its new owner, by the group's last portion on the link; a member of a
deferred portion is not added a second time (log entry 20).
R127: a new member's older late entries are discarded and counted.
R129, R130: an entry withdrawn, by its state; of a withdrawn group nothing stays but entries on their way out.
R94 step 1, R101, R130: the withdrawal of a player's takes for a zone, and of a zone's individual take in flight:
each entry of them by its state, nothing taken or counted, the other entries kept; the player's deferred members and
deferred individual takes for the zone gone, an item left with no member with them, its portion DONE.
R127: a new member joins the list before an older late entry leaves (log entry 30).
R136: an entry joins the stage list in its place, and QUEUE_FULL is raised where it makes the list one of 48.
R130, R134: a GO that no entry keeps leaves the GO list, and a tag that no entry carries and whose GO no longer
waits is freed, its portion DONE.
R119: a removed entry or a freed tag has the deferred items tried again from the head until one does not fit, a
group item's members judged again. -/
def Obligations.PortionsSentAndExpired : Prop :=
  (∀ (w : World) (e : Env),
    (∀ (z : Fin 64) (p : Option (Fin 8)) (look : LookCopy) (k : TakeKind),
      let l := zoneLink z
      let v := w.placeSingle e z p look k
      (v.zone z).take = some (w.nextRef, k)
      ∧ ((w.link l).stage.length < 48 → (w.link l).deferred = [] →
        (v.link l).deferred = []
        ∧ (v.link l).stage = insertBy Entry.before
          ⟨w.nextRef, zoneAddr z, p, none, 0, look, 0, e.now, .queued, .clear⟩ (w.link l).stage)
      ∧ (¬((w.link l).stage.length < 48 ∧ (w.link l).deferred = []) →
        (v.link l).stage = (w.link l).stage
        ∧ (v.link l).deferred = insertBy Item.before (.single w.nextRef (zoneAddr z) p look e.now)
          (w.link l).deferred))
    ∧ ∀ (l : Fin 4) (p : Fin 8) (id : GroupId) (due : Nat) (ms : List Member), ms ≠ [] →
      let v := w.placePortion e l p id due ms
      let lead := ms.foldl (fun n m => max n (w.zone (zoneAt l m.addr)).lead) 0
      (∀ t : Fin 15, (w.link l).tags.get t = none → (∀ u < t, (w.link l).tags.get u ≠ none) →
        (w.link l).deferred = [] → (w.link l).stage.length + ms.length ≤ 48 →
        (∀ x ∈ (w.link l).stage, x.player = some p →
          x.state ≠ .late ∧ x.state ≠ .lateSent ∧ x.state ≠ .lateStaged) →
        (v.link l).tags.get t = some ⟨p, id, .pending⟩
        ∧ (∀ u, u ≠ t → (v.link l).tags.get u = (w.link l).tags.get u)
        ∧ (v.link l).gos = insertBy GoEntry.before
          ⟨t, p, id, due, lead, due - lead, due ≤ e.now + lead, false⟩ (w.link l).gos
        ∧ (v.link l).stage.length = (w.link l).stage.length + ms.length
        ∧ (∀ x, x ∈ (w.link l).stage → x ∈ (v.link l).stage)
        ∧ ∀ m ∈ ms, ∃ x ∈ (v.link l).stage, x.addr = m.addr ∧ x.player = some p ∧ x.group = some id
          ∧ x.tag = t.val + 1 ∧ x.look = m.look ∧ x.due = due ∧ x.state = .queued
          ∧ x.hold = lead - (w.zone (zoneAt l m.addr)).lead)
      ∧ ((∀ t, (w.link l).tags.get t ≠ none) ∨ (w.link l).deferred ≠ []
          ∨ 48 < (w.link l).stage.length + ms.length →
        (v.link l).stage = (w.link l).stage ∧ (v.link l).gos = (w.link l).gos
        ∧ (v.link l).deferred = insertBy Item.before (.group p id due ms) (w.link l).deferred))
  ∧ (∀ s : State, s.held = false →
    (∀ l : Fin 4,
      let due := s.reachOpen = true
        ∧ ∃ g ∈ (s.world.link l).gos, g.ready = false ∧ g.send ≤ s.time.civic
      (due → ∃ t, exec (.sendTick l) s = .next t
        ∧ s.After (s.world.onLink l fun k => { k with gos := k.gos.map fun g =>
            { g with ready := g.ready || g.send ≤ s.time.civic } }) t)
      ∧ (¬due → exec (.sendTick l) s = .next s.choose))
    ∧ ∀ p : Fin 8,
      (∀ (front rest : List GroupRec) (g : GroupRec), s.reachOpen = true →
        s.world.groups = front ++ g :: rest → g.player = p → g.due + 51 ≤ s.time.civic →
        (∀ x ∈ front, x.player = p → s.time.civic < x.due + 51) →
        let w := s.world.expire s.env g
        let settled := s.world.each (upTo 4) (World.expireOn s.env g)
        let mine (x : Entry) := x.player = some p ∧ x.group = some g.id ∧ x.dropping = false
        let waiting (l : Fin 4) := (s.world.link l).deferred.flatMap fun i => match i with
          | .group q id _ ms => if q = p ∧ id = g.id then ms else []
          | .single .. => []
        let lost (l : Fin 4) :=
          ((s.world.link l).stage.countP fun x => decide (mine x)) + (waiting l).length
        let n := lost 0 + lost 1 + lost 2 + lost 3
        (∃ t, exec (.expiryPoint p) s = .next t ∧ s.After w t) ∧ s.world.Kept w
          ∧ w = ({ settled with groups :=
              settled.groups.filter fun x => !(x.player == p && x.id == g.id) } : World).tidy s.env
          ∧ ((s.world.player p).state ≠ .free → (s.world.player p).counters.discarded ≤ 65535 →
            (settled.player p).counters = { (s.world.player p).counters with
              discarded := min 65535 ((s.world.player p).counters.discarded + n) }
            ∧ (0 < n → (w.notices.get NoticeKind.lateTake.no).pending = true))
          ∧ ((s.world.player p).state = .free → settled.player p = s.world.player p)
          ∧ ((∀ l, ∀ i ∈ (s.world.link l).deferred, ∃ due ms, i = .group p g.id due ms) →
            w.player p = settled.player p)
          ∧ (∀ l,
            (∀ x ∈ (s.world.link l).stage, mine x →
              (∀ y ∈ (s.world.link l).stage, y.ref = x.ref → y = x) →
              (x.state = .queued ∨ x.state = .late → ∀ y ∈ (settled.link l).stage, y.ref ≠ x.ref)
              ∧ (x.state = .sent ∨ x.state = .lateSent →
                { x with state := .dropping .discarded .awaitingReply } ∈ (settled.link l).stage)
              ∧ (x.state = .staged ∨ x.state = .lateStaged →
                { x with state := .dropping .discarded .dropPending } ∈ (settled.link l).stage
                ∧ ⟨false, x.addr, x.tag, x.ref⟩ ∈ (settled.link l).pending))
            ∧ (∀ y ∈ (s.world.link l).stage, ¬mine y →
              (∀ x ∈ (s.world.link l).stage, mine x → x.ref ≠ y.ref) → y ∈ (settled.link l).stage)
            ∧ (∀ o ∈ (s.world.link l).gos, o.player = p → o.id = g.id → o.sent = false →
              ∀ h, (settled.link l).tags.get o.tag = some h → h.go = .removed)
            ∧ ∀ due ms, Item.group p g.id due ms ∉ (w.link l).deferred)
          ∧ w.groups.map (fun x => (x.player, x.id, x.due)) =
            (s.world.groups.filter fun x => !(x.player == p && x.id == g.id)).map
              (fun x => (x.player, x.id, x.due))
          ∧ ∀ l, (∀ x ∈ (w.link l).gos, x.player = p → x.id = g.id → x.sent = true)
            ∧ ∀ x ∈ (w.link l).stage, x.player = some p → x.group = some g.id →
              ∃ stop stage, x.state = .dropping stop stage)
      ∧ (s.reachOpen = false ∨ (∀ x ∈ s.world.groups, x.player = p → s.time.civic < x.due + 51) →
        exec (.expiryPoint p) s = .next s.choose))
  ∧ (∀ (w : World) (e : Env) (p : Fin 8) (id : GroupId) (due : Nat) (cues : List CueItem),
    let zones := cues.flatMap fun c => c.zones.map fun z => (z, c.look)
    let counted := w.each (zones.filter fun z => w.judge p z.1 == .undeliverable) fun _ v =>
      v.count p Counters.addUndeliverable
    (∀ z, (w.judge p z = .shadowed ↔ w.owner z ≠ some p)
      ∧ (w.judge p z = .undeliverable ↔ w.owner z = some p ∧ w.deliverable z = false)
      ∧ (w.judge p z = .member ↔ w.owner z = some p ∧ w.deliverable z = true))
    ∧ (∀ l m, m ∈ w.membersOn l p cues ↔ ∃ z ∈ zones, zoneLink z.1 = l ∧ w.judge p z.1 = .member
      ∧ m = ⟨zoneAddr z.1, z.2⟩)
    ∧ ((w.player p).state ≠ .free → (w.player p).counters.undeliverable ≤ 65535 →
      (counted.player p).counters = { (w.player p).counters with
        undeliverable := min 65535 ((w.player p).counters.undeliverable
          + zones.countP fun z => w.judge p z.1 == .undeliverable) })
    ∧ (e.now < due + 51 → w.takeGroup e p id due cues =
      ((({ counted with
          groups := w.groups ++ [(⟨p, id, due, cues, Tab.fill 4 [.vacant]⟩ : GroupRec)] } : World).each (upTo 4)
        fun l v => v.placePortion e l p id due (v.membersOn l p cues)).tidy e))
    ∧ (due + 51 ≤ e.now → w.takeGroup e p id due cues =
      counted.each (zones.filter fun z => w.judge p z.1 == .member) fun _ v =>
        v.countTake e (some p) Counters.addDiscarded))
  ∧ (∀ (w : World) (e : Env) (z : Fin 64) (p : Fin 8) (g : GroupRec) (look : LookCopy),
    let l := zoneLink z
    let k := w.link l
    let v := w.rejoinGroup e z p g look
    let lastly := (g.portions.get l).getLast?
    (lastly = some .deferred → v = w.onLink l fun k => { k with deferred := k.deferred.map fun i =>
      match i with
        | .group q id due ms =>
          if q = p ∧ id = g.id ∧ (∀ m ∈ ms, m.addr ≠ zoneAddr z) then
            .group q id due (ms ++ [⟨zoneAddr z, look⟩])
          else i
        | i => i })
    ∧ (∀ t h, lastly = some (.held t) → k.tags.get t = some h → h.go = .removed →
      v = w.placePortion e l p g.id g.due [⟨zoneAddr z, look⟩])
    ∧ (∀ t h o, lastly = some (.held t) → k.tags.get t = some h →
      k.gos.find? (fun x => x.tag == t) = some o →
      (h.go ≠ .removed → 48 ≤ k.stage.length → v = w.countTake e (some p) Counters.addDiscarded)
      ∧ (h.go ≠ .removed → k.stage.length < 48 →
        (∀ x ∈ k.stage, x.player = some p →
          x.state ≠ .late ∧ x.state ≠ .lateSent ∧ x.state ≠ .lateStaged) →
        (v.link l).stage = insertBy Entry.before ⟨w.nextRef, zoneAddr z, some p, some g.id, t.val + 1,
            look, o.lead - (w.zone z).lead, g.due, if h.go = .pending then .queued else .late,
            .clear⟩ k.stage
        ∧ (v.link l).deferred = k.deferred ∧ (v.link l).gos = k.gos))
    ∧ (lastly = none ∨ lastly = some .vacant ∨ lastly = some .done →
      v = w.placePortion e l p g.id g.due [⟨zoneAddr z, look⟩]))
  ∧ (∀ (w : World) (e : Env) (z : Fin 64) (p : Fin 8) (part : Fin 16), w.rejoin e z p part =
    (w.each (w.groups.filter fun g => g.player == p && e.now < g.due) fun g v =>
      match g.cues.find? (fun c => c.part == part) with
        | none => v
        | some c => v.rejoinGroup e z p g c.look).tidy e)
  ∧ (∀ (w : World) (l : Fin 4) (x : Entry),
    let v := w.withdrawEntry l x
    let stopped (stage : DropStage) := (v.link l).stage = (w.link l).stage.map fun y =>
      if y.ref = x.ref then { y with state := .dropping .withdrawn stage } else y
    (x.state = .queued ∨ x.state = .late →
      (v.link l).stage = (w.link l).stage.filter (·.ref != x.ref)
      ∧ (v.zone (zoneAt l x.addr)).committed = (w.zone (zoneAt l x.addr)).committed
      ∧ ∀ k, (v.zone (zoneAt l x.addr)).take ≠ some (x.ref, k))
    ∧ (x.state = .sent ∨ x.state = .lateSent → stopped .awaitingReply)
    ∧ (x.state = .staged ∨ x.state = .lateStaged → stopped .dropPending
      ∧ (v.link l).pending =
        (w.link l).pending.filter (·.ref != x.ref) ++ [⟨false, x.addr, x.tag, x.ref⟩])
    ∧ (x.dropping = true → v = w))
  ∧ (∀ (w : World) (e : Env) (p : Fin 8) (id : GroupId),
    let v := w.withdrawGroup e p id
    (∀ g ∈ v.groups, ¬(g.player = p ∧ g.id = id))
    ∧ ∀ l, (∀ y ∈ (v.link l).stage, y.player = some p → y.group = some id → y.dropping = true)
      ∧ ∀ due ms, Item.group p id due ms ∉ (v.link l).deferred)
  ∧ (∀ (w : World) (e : Env) (p : Fin 8) (z : Fin 64),
    let l := zoneLink z
    let a := zoneAddr z
    let k := w.link l
    let v := w.withdrawZone e p z
    let theirs (x : Entry) := x.player = some p ∧ x.addr = a
    let settled := (((w.eachEntry l (fun x => x.player == some p && x.addr == a)
        (World.withdrawEntry l)).dropMembers l p a).dropItems l fun i => match i with
      | .group .. => false
      | .single _ b q _ _ => q == some p && b == a)
    v = settled.tidy e
    ∧ (settled.link l).deferred = k.deferred.filterMap (fun i => match i with
      | .group q id due ms =>
        if q = p then
          let left := ms.filter fun m => m.addr != a
          if left = [] then none else some (.group q id due left)
        else some i
      | .single _ b q _ _ => if q = some p ∧ b = a then none else some i)
    ∧ (∀ id due ms, Item.group p id due ms ∈ k.deferred → (∀ m ∈ ms, m.addr = a) →
      ∀ g ∈ settled.groups, g.player = p → g.id = id → Portion.deferred ∉ g.portions.get l)
    ∧ (∀ ref look due, Item.single ref a (some p) look due ∈ k.deferred →
      ∀ n, (settled.zone z).take ≠ some (ref, n))
    ∧ (∀ y ∈ (v.link l).stage, theirs y → y.dropping = true)
    ∧ (∀ id due ms, Item.group p id due ms ∈ (v.link l).deferred → ∀ m ∈ ms, m.addr ≠ a)
    ∧ (∀ ref look due, Item.single ref a (some p) look due ∉ (v.link l).deferred)
    ∧ (∀ y, (v.zone y).committed = (w.zone y).committed)
    ∧ (w.undeferred → v.players = w.players ∧ (∀ m, m ≠ l → (v.link m).stage = (w.link m).stage)
      ∧ ∀ x ∈ k.stage, (∀ y ∈ k.stage, y.ref = x.ref → y = x) →
        (¬theirs x → x ∈ (v.link l).stage)
        ∧ (theirs x →
          (x.state = .queued ∨ x.state = .late → ∀ y ∈ (v.link l).stage, y.ref ≠ x.ref)
          ∧ (x.state = .sent ∨ x.state = .lateSent →
            { x with state := .dropping .withdrawn .awaitingReply } ∈ (v.link l).stage)
          ∧ (x.state = .staged ∨ x.state = .lateStaged →
            { x with state := .dropping .withdrawn .dropPending } ∈ (v.link l).stage
            ∧ ⟨false, x.addr, x.tag, x.ref⟩ ∈ (v.link l).pending))))
  ∧ (∀ (w : World) (e : Env) (z : Fin 64),
    let l := zoneLink z
    let k := w.link l
    let v := w.withdrawTake e z
    ((w.zone z).take = none → v = w)
    ∧ ∀ ref n, (w.zone z).take = some (ref, n) →
      (∀ y ∈ (v.link l).stage, y.group = none → y.ref = ref → y.dropping = true)
      ∧ (∀ a q look due, Item.single ref a q look due ∉ (v.link l).deferred)
      ∧ ((∃ x ∈ k.stage, x.ref = ref ∧ x.addr = zoneAddr z ∧ (x.state = .queued ∨ x.state = .late))
          ∨ (∃ q look due, Item.single ref (zoneAddr z) q look due ∈ k.deferred) →
        (v.zone z).take = none)
      ∧ (∀ y, (v.zone y).committed = (w.zone y).committed)
      ∧ (w.undeferred → v.players = w.players ∧ (∀ m, m ≠ l → (v.link m).stage = (w.link m).stage)
        ∧ ∀ x ∈ k.stage, (∀ y ∈ k.stage, y.ref = x.ref → y = x) →
          (x.ref ≠ ref → x ∈ (v.link l).stage)
          ∧ (x.ref = ref →
            (x.state = .queued ∨ x.state = .late → ∀ y ∈ (v.link l).stage, y.ref ≠ ref)
            ∧ (x.state = .sent ∨ x.state = .lateSent →
              { x with state := .dropping .withdrawn .awaitingReply } ∈ (v.link l).stage)
            ∧ (x.state = .staged ∨ x.state = .lateStaged →
              { x with state := .dropping .withdrawn .dropPending } ∈ (v.link l).stage
              ∧ ⟨false, x.addr, x.tag, x.ref⟩ ∈ (v.link l).pending))))
  ∧ (∀ (w : World) (e : Env) (l : Fin 4) (p : Fin 8) (a : Fin 16) (ref : Nat),
    let v := w.supersede e l p a ref
    let older (x : Entry) := x.player = some p ∧ x.addr = a ∧ x.ref ≠ ref ∧ x.group.isSome = true
      ∧ (x.state = .late ∨ x.state = .lateSent ∨ x.state = .lateStaged)
    (∀ y ∈ (v.link l).stage, ¬older y)
    ∧ (∀ y ∈ (w.link l).stage, (∀ x ∈ (w.link l).stage, older x → x.ref ≠ y.ref) → y ∈ (v.link l).stage)
    ∧ ((w.player p).state ≠ .free → (w.player p).counters.discarded ≤ 65535 →
      (v.player p).counters.discarded = min 65535 ((w.player p).counters.discarded
        + (w.link l).stage.countP fun x => decide (older x))
      ∧ ((∃ x ∈ (w.link l).stage, older x) →
        (v.notices.get NoticeKind.lateTake.no).pending = true)))
  ∧ (∀ (w : World) (e : Env) (l : Fin 4) (p : Fin 8) (id : GroupId) (due lead : Nat) (t : Fin 15)
      (st : EntryState) (m : Member),
    w.addMember e l p id due t lead st m =
      (({ w with nextRef := w.nextRef + 1 } : World).addEntry e l
        ⟨w.nextRef, m.addr, some p, some id, t.val + 1, m.look, lead - (w.zone (zoneAt l m.addr)).lead, due,
          st, .clear⟩).supersede e l p m.addr w.nextRef)
  ∧ (∀ (w : World) (e : Env) (l : Fin 4) (x : Entry),
    let listed := w.onLink l fun k => { k with stage := insertBy Entry.before x k.stage }
    ((w.link l).stage.length = 47 → w.addEntry e l x = listed.raise e .queueFull)
    ∧ ((w.link l).stage.length ≠ 47 → w.addEntry e l x = listed))
  ∧ (∀ (w : World) (l : Fin 4) (t : Fin 15),
    let carried := (w.link l).stage.filter fun x => x.tag == t.val + 1
    let keeps (x : Entry) := ∀ stop, x.state ≠ .dropping stop .awaitingReply
      ∧ x.state ≠ .dropping stop .dropSent
    let removed := w.onLink l fun k => { k with
      bcast := if k.bcast = some (.go t) then none else k.bcast
      gos := k.gos.filter (·.tag != t)
      tags := k.tags.upd t (Option.map fun h => { h with go := .removed }) }
    ((w.link l).tags.get t = none → w.closeTag l t = w)
    ∧ ∀ h, (w.link l).tags.get t = some h →
      let gone := h.go = .pending ∧ ∀ x ∈ carried, ¬keeps x
      let freed (v : World) : World :=
        let u := v.onLink l fun k => { k with
          tags := k.tags.set t none, gos := k.gos.filter (·.tag != t), retry := true }
        { u with groups := u.groups.map fun g =>
          if g.player = h.player ∧ g.id = h.id then
            { g with portions := g.portions.upd l (List.map fun q => if q = .held t then .done else q) }
          else g }
      (gone → carried = [] → w.closeTag l t = freed removed)
      ∧ (gone → carried ≠ [] → w.closeTag l t = removed)
      ∧ (¬gone → h.go ≠ .pending → carried = [] → w.closeTag l t = freed w)
      ∧ (¬gone → h.go = .pending ∨ carried ≠ [] → w.closeTag l t = w))
  ∧ (∀ (w : World) (e : Env) (l : Fin 4),
    let k := w.link l
    let taken (rest : List Item) := w.onLink l fun k => { k with deferred := rest }
    (k.deferred = [] → w.makeHead e l = none)
    ∧ (∀ ref a p look due rest, k.deferred = .single ref a p look due :: rest →
      (48 ≤ k.stage.length → w.makeHead e l = none)
      ∧ (k.stage.length < 48 → w.makeHead e l = some ((taken rest).addEntry e l
        ⟨ref, a, p, none, 0, look, 0, due, .queued, .clear⟩)))
    ∧ ∀ p id due ms rest, k.deferred = .group p id due ms :: rest →
      ((∀ t, k.tags.get t ≠ none) ∨ 48 < k.stage.length + ms.length → w.makeHead e l = none)
      ∧ ∀ t, k.tags.get t = none → (∀ u < t, k.tags.get u ≠ none) → k.stage.length + ms.length ≤ 48 →
        let still := ms.filter fun m => w.judge p (zoneAt l m.addr) == .member
        let counted := (taken rest).each
          (ms.filter fun m => w.judge p (zoneAt l m.addr) == .undeliverable) fun _ v =>
            v.count p Counters.addUndeliverable
        let done := List.map fun q => if q = Portion.deferred then Portion.done else q
        (still ≠ [] → w.makeHead e l = some (counted.makePortion e l p id due still t))
        ∧ (still = [] → w.makeHead e l = some { counted with groups := counted.groups.map fun g =>
            if g.player = p ∧ g.id = id then { g with portions := g.portions.upd l done } else g }))
  ∧ (∀ (w : World) (e : Env) (l : Fin 4) (p : Fin 8) (id : GroupId) (due : Nat) (ms : List Member)
      (t : Fin 15),
    let lead := ms.foldl (fun n m => max n (w.zone (zoneAt l m.addr)).lead) 0
    let made := (w.each ms (World.addMember e l p id due t lead .queued)).onLink l fun k => { k with
      gos := insertBy GoEntry.before ⟨t, p, id, due, lead, due - lead, due ≤ e.now + lead, false⟩ k.gos
      tags := k.tags.set t (some ⟨p, id, .pending⟩) }
    let held (ps : List Portion) := match ps.getLast? with
      | some (.held _) => ps ++ [.held t]
      | _ => ps.dropLast ++ [.held t]
    w.makePortion e l p id due ms t = { made with groups := made.groups.map fun g =>
      if g.player = p ∧ g.id = id then { g with portions := g.portions.upd l held } else g })
  ∧ (∀ (w : World) (e : Env) (l : Fin 4) (n : Nat),
    let closed := w.each (upTo 15) (World.closeTag l)
    let owed := (closed.link l).retry = true
    w.tidy e = w.each (upTo 4) (fun l v => v.retryLink e l ((v.link l).deferred.length + 1))
    ∧ (¬owed → w.retryLink e l (n + 1) = closed)
    ∧ (owed → closed.makeHead e l = none →
      w.retryLink e l (n + 1) = closed.onLink l fun k => { k with retry := false })
    ∧ (∀ v, owed → closed.makeHead e l = some v → w.retryLink e l (n + 1) = v.retryLink e l n)
    ∧ ((w.retryLink e l ((w.link l).deferred.length + 1)).link l).retry = false)

/-! ## The wires -/

/-- R121, R124, R125, R131, R143, R145: the end of a frame's sending. A broadcast leaves the wire; a GO
settles its entries, here with nothing deferred on the links: a STAGED one, and a DROPPING one whose DROP still
pends, is TAKEN and gone, its look committed, its slot free and its credit back; a QUEUED one is LATE, its back-off
kept, and a SENT one LATE_SENT; the others stay, and no counter changes. An addressed frame waits for its reply, and
its first sending is reported to the dispatcher (log entry 6). The state is spelled out of a link with no scan or
calibration at its end and no quiescing at its end. A WAKE that no wake order asked for clears
the link's restart-wake mark (R186; log entry 18). The command acts when the link is sending (log entry
2). -/
def Obligations.FrameSentIsReported : Prop :=
  ∀ (s : State) (l : Fin 4), s.held = false →
    let k := s.world.link l
    let e := exec (.linkFrameSent l) s
    (k.bcast = none → (∀ x, k.transfer = some x → x.onWire = false) → e = .next s.choose)
    ∧ (k.bcast ≠ none ∨ (∃ x, k.transfer = some x ∧ x.onWire = true) → ∃ t, e = .next t
      ∧ State.AfterOn l s (s.world.frameSent s.env l) t)
    ∧ (let sent := s.world.onLink l fun k => { k with bcast := none }
      (k.bcast = some .force → ∃ t, e = .next t ∧ State.AfterOn l s sent t)
      ∧ (k.bcast = some .wake → k.state = .warming → ∃ t, e = .next t ∧ State.AfterOn l s sent t)
      ∧ (k.bcast = some .wake → k.state ≠ .warming → ∃ t, e = .next t ∧ State.AfterOn l s { sent with
          ctl := { sent.ctl with restartWake := sent.ctl.restartWake.set l false } } t)
      ∧ ∀ g : Fin 15, k.bcast = some (.go g) →
        let w := sent.goSent s.env l g
        let taken (x : Entry) := x.state = .staged ∨ ∃ stop, x.state = .dropping stop .dropPending
        let freed (a : Fin 16) := k.stage.countP fun x => x.tag == g.val + 1 && x.addr == a
          && match x.state with
            | .staged => true
            | .dropping _ .dropPending => true
            | _ => false
        (∃ t, e = .next t ∧ State.AfterOn l s w t) ∧ s.world.Kept w
        ∧ (∀ m a, w.driver m a = if m = l then { s.world.driver l a with
            credits := (s.world.driver l a).credits + freed a
            occupied := (s.world.driver l a).occupied - freed a } else s.world.driver m a)
        ∧ ((∀ m, (s.world.link m).deferred = []) →
          w.players = s.world.players ∧ (w.link l).bcast = none
          ∧ (∀ x ∈ (w.link l).gos, x.tag = g → x.sent = true)
          ∧ (∀ h, (w.link l).tags.get g = some h → h.go = .sent)
          ∧ (∀ x ∈ (w.link l).stage, x.tag = g.val + 1 →
            x.state ≠ .queued ∧ x.state ≠ .sent ∧ x.state ≠ .staged)
          ∧ (∀ x ∈ k.stage, x.tag = g.val + 1 → taken x →
            (∀ y ∈ k.stage, y.tag = g.val + 1 → y.addr = x.addr → y = x) →
            (w.zone (zoneAt l x.addr)).committed = some x.look)
          ∧ ∀ x ∈ k.stage, (∀ y ∈ k.stage, y.ref = x.ref → y = x) →
            (x.tag ≠ g.val + 1 → x ∈ (w.link l).stage)
            ∧ (x.tag = g.val + 1 →
              (x.state = .queued → { x with state := .late } ∈ (w.link l).stage)
              ∧ (x.state = .sent → { x with state := .lateSent } ∈ (w.link l).stage)
              ∧ (taken x → (∀ y ∈ (w.link l).stage, y.ref ≠ x.ref)
                ∧ ∀ i ∈ (w.link l).pending, i.ref ≠ x.ref)
              ∧ (x.state ≠ .queued → x.state ≠ .sent → ¬taken x → x ∈ (w.link l).stage))))
    ∧ ∀ x : Transfer, k.bcast = none → k.transfer = some x → x.onWire = true →
      let w := s.world.frameSent s.env l
      let v := (s.world.onLink l fun k =>
          { k with
            transfer := some { x with onWire := false, ticks := 0, reported := true } }).onDriver l
        x.addr fun d => { d with quiet := 0 }
      (s.world.longOpOver l = none → k.quiesced = false → e = .next { s with world := w }.choose)
      ∧ (x.reported = true ∨ x.frame.ref? = none → w = v)
      ∧ (∀ ref, x.reported = false → x.frame.ref? = some ref → s.world.entryOf l ref = none → w = v)
      ∧ (∀ ref tag look hold y, x.reported = false → x.frame = .stage ref tag look hold →
        s.world.entryOf l ref = some y →
        let moved := v.onLink l fun k =>
          { k with
            stage := k.stage.map fun z => if z.ref = ref then
              { z with state := if y.state = .late then .lateSent else .sent } else z }
        w = moved.onDriver l y.addr fun d => { d with credits := d.credits - 1 })
      ∧ (∀ ref tag y, x.reported = false → x.frame = .take ref tag →
        s.world.entryOf l ref = some y → w = v.takeSent s.env l ref ∧ v.Kept w
          ∧ ((∀ m, (s.world.link m).deferred = []) →
            (w.zone (zoneAt l y.addr)).committed = some y.look
            ∧ (∀ z ∈ (w.link l).stage, z.ref ≠ ref)
            ∧ ∀ p, y.group.isSome = true → y.player = some p → (s.world.player p).state ≠ .free →
              (w.player p).counters = { (s.world.player p).counters with
                late := satUp 65535 (s.world.player p).counters.late }
              ∧ (w.notices.get NoticeKind.lateTake.no).pending = true))
      ∧ ∀ ref tag y stop stage, x.reported = false → x.frame = .drop ref tag →
        s.world.entryOf l ref = some y → y.state = .dropping stop stage →
        w = v.dropSent s.env l ref ∧ v.Kept w
          ∧ ((∀ m, (s.world.link m).deferred = []) →
            ∀ z ∈ (w.link l).stage, z.ref = ref → z.state = .dropping stop .dropSent)

/-- R140, R142, R149, R150, R155: TRANSFER_TIMEOUT: at the second tick event with no reply an attempt is
repeated up to the frame's limit, and the last one fails its transfer: the driver of an ordinary frame is
lost, the poll of a lost driver starts its count anew, an unanswered SLEEP leaves the driver, and a scan
poll settles the driver's state and moves the scan on. The state after a repeat is spelled out of a link with no
scan or calibration at its end and no quiescing at its end. The command acts when the timeout is due (log entry
2).
R103, R132, R135, R139: a driver that comes to a lost state from READY or BUSY is lost: its credits and slots are
set anew, its transfer and its pending TAKEs and DROPs are gone, and every entry of it leaves the stage list, none of
them taken: a DROPPING one with its drop end, any other discarded and counted once in its player's discarded
takes, with LATE_TAKE; its deferred items stay. A driver that is lost already only changes its state. -/
def Obligations.TimeoutRepeatsOrFails : Prop :=
  (∀ (s : State) (l : Fin 4) (x : Transfer), s.held = false → (s.world.link l).transfer = some x →
    let e := exec (.transferTimeout l) s
    let limit := match x.frame with
      | .poll _ scan => if scan then 1 else 0
      | .sleep => 0
      | _ => 3
    let ended := s.world.onLink l fun k => { k with transfer := none }
    let repeated := s.world.onLink l fun k =>
      { k with transfer := some { x with attempt := x.attempt + 1, ticks := 0, onWire := true } }
    let w := s.world.transferFails s.env l x
    (x.onWire = true ∨ x.ticks < 2 → e = .next s.choose)
    ∧ (x.onWire = false → 2 ≤ x.ticks →
      (x.attempt < limit → (∃ t, e = .next t ∧ State.AfterOn l s repeated t)
        ∧ (s.world.longOpOver l = none → (s.world.link l).quiesced = false →
          e = .next { s with world := repeated }.choose))
      ∧ (limit ≤ x.attempt → ∃ t, e = .next t ∧ State.AfterOn l s w t))
    ∧ (∀ flush, x.frame = .poll flush false → w = ended.onDriver l x.addr fun d => { d with poll := 0 })
    ∧ (x.frame = .sleep → w = ended)
    ∧ ((∀ flush scan, x.frame ≠ .poll flush scan) → x.frame ≠ .sleep →
      s.world.Kept w ∧ (w.link l).transfer = none ∧ (w.driver l x.addr).state = .unresponsive
      ∧ (w.notices.get NoticeKind.driverFault.no).pending = true
      ∧ ((s.world.driver l x.addr).deliverable = true →
        (w.driver l x.addr).credits = 4 ∧ (w.driver l x.addr).occupied = 0
        ∧ (w.driver l x.addr).poll = 0
        ∧ ∀ y ∈ (w.link l).pending, y.addr ≠ x.addr)
      ∧ w = (ended.dropDriver s.env l .unresponsive x.addr).raise s.env .driverFault)
    ∧ ∀ flush, x.frame = .poll flush true →
      s.world.Kept w ∧ (w.link l).transfer = none
      ∧ (w.driver l x.addr).state = (if flush then .absent else .unresponsive)
      ∧ (w.link l).scanPos = (s.world.link l).scanPos.map (fun _ => x.addr.val + 1)
      ∧ (flush = false → (w.notices.get NoticeKind.driverFault.no).pending = true)
      ∧ w = (if flush then ended.dropDriver s.env l .absent x.addr
          else (ended.dropDriver s.env l .unresponsive x.addr).raise s.env .driverFault).onLink l fun k =>
        { k with scanPos := k.scanPos.map fun _ => x.addr.val + 1 })
  ∧ ∀ (w : World) (e : Env) (l : Fin 4) (a : Fin 16) (lostTo : DriverState),
    let k := w.link l
    let v := w.dropDriver e l lostTo a
    let theirs := k.stage.filter fun x => x.addr == a
    let settled := ((w.onDriver l a fun d =>
        { d with state := lostTo, credits := 4, occupied := 0, backoff := .clear, poll := 0 }).onLink l
      fun k => { k with
        transfer := k.transfer.filter (·.addr != a)
        pending := k.pending.filter (·.addr != a) }).loseEntries e l a
    let lost (p : Fin 8) := theirs.countP fun x => x.player == some p && !x.dropping
    ((w.driver l a).deliverable = false → v = w.onDriver l a fun d => { d with state := lostTo })
    ∧ ((w.driver l a).deliverable = true → v = settled.tidy e
      ∧ (w.undeferred → k.refsDistinct → w.Lost l (· == a) v))
    ∧ (∀ m, m ≠ l → settled.link m = w.link m)
    ∧ (settled.link l).stage = k.stage.filter (fun y => !theirs.any fun x => x.ref == y.ref)
    ∧ (settled.link l).deferred = k.deferred ∧ (settled.link l).gos = k.gos
    ∧ (settled.link l).tags = k.tags
    ∧ (settled.link l).pending =
      k.pending.filter (fun i => i.addr != a && !theirs.any fun x => x.ref == i.ref)
    ∧ (∀ z, (settled.zone z).committed = (w.zone z).committed)
    ∧ (∀ x ∈ theirs, ∀ n, (settled.zone (zoneAt l a)).take ≠ some (x.ref, n))
    ∧ (∀ p, (w.player p).state = .free → settled.player p = w.player p)
    ∧ ∀ p, (w.player p).state ≠ .free → (w.player p).counters.discarded ≤ 65535 →
      settled.player p = { w.player p with counters := { (w.player p).counters with
        discarded := min 65535 ((w.player p).counters.discarded + lost p) } }
      ∧ (0 < lost p → (settled.notices.get NoticeKind.lateTake.no).pending = true)

/-- R140, R141, R145 to R152: a matched reply ends its transfer and is taken by the rule of its frame; a
fell-back flag, bit 0 of the flags byte (log entry 24), then brings a restore take and DRIVER_FAULT, but in
the reply to a flush POLL. The effect of the frame comes before the fell-back report (log entry 34). A reply
that comes while a repeat is being sent ends it too (log entry 19). An apply latency above 2,000 is recorded
and used as it stands (log entry 33).
R104, R106: a lost driver whose flush POLL is answered is READY, and its zone is given the return take.
R122: the reply to the STAGE of an entry, on the entry itself: what the reply to the frame brings, once the
driver's credits have moved. -/
def Obligations.DriverRepliesTaken : Prop :=
  (∀ (s : State) (l : Fin 4) (x : Transfer) (r : DriverReply) (rt : Nat), s.held = false →
    (s.world.link l).state.receives = true → (s.world.link l).transfer = some x →
    x.reported = true → r.addr = x.addr → r.tag = x.frame.tag →
    let poll := match x.frame with
      | .poll .. => true
      | _ => false
    let e := exec (.driverReply l (r.wire poll) rt) s
    let after (w : World) := ∃ t, e = .next t ∧ State.AfterOn l s w t
    let v := (s.world.onLink l fun k => { k with transfer := none, hunting := false }).onDriver l x.addr
      fun d => { d with slotsFree := some r.slotsFree, flags := some r.flags }
    let w := v.takeReply s.env l x r rt
    let allowed := match x.frame with
      | .stage .. => r.kind ≠ .echo
      | .take .. => r.kind = .ack ∨ r.kind = .nak
      | .drop .. => r.kind = .ack ∨ r.kind = .nak
      | .probe n => r.kind = .echo ∧ r.exchange = n
      | _ => r.kind = .ack
    r.fits poll = true → allowed →
    (r.flags % 2 = 0 ∨ (∃ scan, x.frame = .poll true scan) → after w)
    ∧ (r.flags % 2 = 1 → (∀ scan, x.frame ≠ .poll true scan) →
      let restored := (w.restoreTake s.env (zoneAt l x.addr)).raise s.env .driverFault
      after restored ∧ (restored.notices.get NoticeKind.driverFault.no).pending = true)
    ∧ (∀ look, x.frame = .refresh look → w = v)
    ∧ (let freed := v.onDriver l x.addr fun d =>
        { d with credits := d.credits + 1, occupied := d.occupied - 1 }
      (∀ ref tag, x.frame = .take ref tag → w = freed)
      ∧ ∀ ref tag, x.frame = .drop ref tag →
        freed.Kept w ∧ w.driver l x.addr = freed.driver l x.addr
        ∧ ∀ y stop stage, (s.world.entryOf l ref) = some y → y.state = .dropping stop stage →
          (∀ m, (s.world.link m).deferred = []) →
          (∀ z ∈ (w.link l).stage, z.ref ≠ ref)
          ∧ (w.zone (zoneAt l y.addr)).committed = (s.world.zone (zoneAt l y.addr)).committed)
    ∧ (∀ ref tag look hold, x.frame = .stage ref tag look hold →
      v.Kept w
      ∧ w = (v.onDriver l x.addr fun d => match r.kind with
        | .ack => { d with occupied := d.occupied + 1 }
        | .retry => { d with credits := d.credits + 1, state := .busy, backoff := .raised }
        | _ => { d with credits := d.credits + 1 }).stageReply s.env l ref r.kind
      ∧ w.driver l x.addr = (match r.kind with
        | .ack => { v.driver l x.addr with occupied := (v.driver l x.addr).occupied + 1 }
        | .retry => { v.driver l x.addr with
            credits := (v.driver l x.addr).credits + 1
            state := .busy
            backoff := .raised }
        | _ => { v.driver l x.addr with credits := (v.driver l x.addr).credits + 1 }))
    ∧ (∀ flush scan, x.frame = .poll flush scan →
      v.Kept w
      ∧ (w.link l).scanPos = (if scan then (s.world.link l).scanPos.map fun _ => x.addr.val + 1
        else (s.world.link l).scanPos)
      ∧ w.driver l x.addr =
        (let d := { v.driver l x.addr with
          silence := some r.silence
          latency := some r.latency
          refresh := some (max 50 (min 400 (r.silence / 2))) }
        if flush then { d with
          credits := 4
          occupied := 0
          backoff := .clear
          state := if d.lost then .ready else d.state }
        else d)
      ∧ (let known := (v.onLink l fun k => { k with
            scanPos := if scan then k.scanPos.map fun _ => x.addr.val + 1 else k.scanPos }).onDriver l
          x.addr fun d => { d with
            silence := some r.silence
            latency := some r.latency
            refresh := some (max 50 (min 400 (r.silence / 2))) }
        let flushed := known.onDriver l x.addr fun d => { d with
          credits := 4
          occupied := 0
          backoff := .clear
          state := if d.lost then .ready else d.state }
        (flush = false → w = known)
        ∧ (flush = true → (s.world.driver l x.addr).lost = false → w = flushed)
        ∧ (flush = true → (s.world.driver l x.addr).lost = true →
          w = flushed.returnTake s.env (zoneAt l x.addr))))
    ∧ (x.frame = .sleep → v.Kept w ∧ (w.driver l x.addr).state = .asleep
      ∧ w = v.dropDriver s.env l .asleep x.addr)
    ∧ (∀ n c, x.frame = .probe n →
      (s.world.link l).state = .calibrating → (s.world.link l).cal = some c → c.probing = true →
      let known := v.onDriver l x.addr fun d => { d with latency := some r.latency }
      (c.count < 7 →
        w = known.onLink l (fun k =>
          { k with cal := some ⟨c.addr, c.count + 1, c.sum + rt, c.measured, false⟩ })
        ∧ (r.flags % 2 = 0 → c.addr = x.addr.val → (s.world.driver l x.addr).state = .ready →
          ∀ t, e = .next t → ∃ probing,
            (t.world.link l).cal = some ⟨c.addr, c.count + 1, c.sum + rt, c.measured, probing⟩))
      ∧ (7 ≤ c.count → w = (known.onZone (zoneAt l x.addr) fun z =>
          { z with lead := min 20 ((c.sum + rt + 16 * r.latency + 1599) / 1600) }).onLink l fun k =>
        { k with cal := some ⟨c.addr + 1, 0, 0, c.measured + 1, false⟩ })))
  ∧ (∀ (w : World) (e : Env) (l : Fin 4) (ref : Nat) (x : Entry), w.entryOf l ref = some x →
    (∀ m, (w.link m).deferred = []) →
    let v (k : ReplyKind) := w.stageReply e l ref k
    let into (k : ReplyKind) (s : EntryState) := (v k).entryOf l ref =
      some { x with state := s, backoff := if k = .retry then .raised else x.backoff }
    let gone (k : ReplyKind) := (v k).entryOf l ref = none
    (x.state = .sent → into .ack .staged ∧ into .retry .queued ∧ gone .nak
      ∧ (x.group = none → (⟨true, x.addr, x.tag, ref⟩ : PendingItem) ∈ ((v .ack).link l).pending))
    ∧ (x.state = .lateSent → into .retry .late ∧ gone .nak
      ∧ (w.owner (zoneAt l x.addr) = x.player → into .ack .lateStaged
        ∧ (⟨true, x.addr, x.tag, ref⟩ : PendingItem) ∈ ((v .ack).link l).pending)
      ∧ (w.owner (zoneAt l x.addr) ≠ x.player → into .ack (.dropping .withdrawn .dropPending)
        ∧ (⟨false, x.addr, x.tag, ref⟩ : PendingItem) ∈ ((v .ack).link l).pending))
    ∧ (∀ stop, x.state = .dropping stop .awaitingReply →
      into .ack (.dropping stop .dropPending) ∧ gone .retry ∧ gone .nak
      ∧ (⟨false, x.addr, x.tag, ref⟩ : PendingItem) ∈ ((v .ack).link l).pending))

/-- R141, R154: a line error is counted, and the sixteenth within 100 tick events faults the link; an error of
age 100 or more no longer counts (log entry 26).
R141, R200: a run of bytes that forms no reply is one line error, after which bytes are discarded until the
next C3h, and a reply that cannot be matched is one too; the run's end ends a frame partly received (log
entry 26). A line error while a transfer is in flight fails the attempt (R140), a reply during the frame's
first sending too (log entry 19).
R141, R146, R149, R154, R155: the durations of a link at their ends: a back-off, the age of an error,
the rest, the warm-up, the quiesce wait. A command that finds its duration not over changes nothing (log
entry 2). The FORCE's drivers are asleep as it begins (log entry 18).
R103, R132, R154, R155: a fault moves every configured driver that is not ABSENT to UNRESPONSIVE, and a FORCE to
ASLEEP, one by one by address (log entry 35), each as TRANSFER_TIMEOUT's statement has the loss of a driver; with
nothing deferred, the entries of the READY and BUSY ones are gone and counted. A scan or calibration that the fault
cuts short is recorded ABANDONED, and a WAKE or FORCE still owed is forgotten (log entries 15, 32). -/
def Obligations.LineErrorsAndDurations : Prop :=
  (∀ (w : World) (e : Env) (l : Fin 4),
    let errors := (w.link l).errors.filter (· < 100)
    let total := satUp 65535 (w.link l).errorTotal
    let v := w.lineError e l
    let counted := w.onLink l fun k => { k with errorTotal := total, errors := errors ++ [0] }
    let silent := (counted.abandonLongOp e l).onLink l fun k => { k with
      transfer := none, bcast := none, wakeOwed := false, forceOwed := false, hunting := false, errors := [] }
    let present := (upTo 16).filter fun a =>
      (w.zone (zoneAt l a)).configured && (w.driver l a).state != .absent
    (errors.length ≠ 15 →
      v = w.onLink l fun k => { k with errorTotal := total, errors := errors ++ [0] })
    ∧ (errors.length = 15 → w.Kept v
      ∧ (v.link l).state = .faulted ∧ (v.link l).power = false ∧ (v.link l).timer = 0
      ∧ (v.link l).errors = [] ∧ (v.link l).errorTotal = total
      ∧ (v.link l).transfer = none ∧ (v.link l).bcast = none
      ∧ (∀ a, (w.zone (zoneAt l a)).configured = true →
        (w.driver l a).state ≠ .absent → (v.driver l a).state = .unresponsive)
      ∧ (v.notices.get NoticeKind.driverFault.no).pending = true
      ∧ (v.notices.get NoticeKind.linkState.no).pending = true
      ∧ v = ((silent.each present (World.dropDriver e l .unresponsive)).raise e .driverFault).enterLink e l
        .faulted
      ∧ (w.undeferred → (w.link l).refsDistinct → w.Lost l
        (fun a => (w.zone (zoneAt l a)).configured && (w.driver l a).deliverable) v))
    ∧ (let ended (op : LongOp) := (w.onLink l fun k =>
          { k with lastOp := some op, scanPos := none, cal := none }).raise e .longOpDone
      ((w.link l).state = .scanning →
        w.abandonLongOp e l = ended ⟨true, .abandoned, (w.link l).answering⟩)
      ∧ (∀ c, (w.link l).state = .calibrating → (w.link l).cal = some c →
        w.abandonLongOp e l = ended ⟨false, .abandoned, c.measured⟩)
      ∧ ((w.link l).state ≠ .scanning → (w.link l).state ≠ .calibrating → w.abandonLongOp e l = w))
    ∧ ((w.link l).transfer = none → w.badReply e l = v)
    ∧ (∀ x, (w.link l).transfer = some x →
      (errors.length = 15 → w.badReply e l = v)
      ∧ (errors.length ≠ 15 → w.badReply e l = v.attemptFails e l x))
    ∧ ∀ x : Transfer,
      let limit := match x.frame with
        | .poll _ scan => if scan then 1 else 0
        | .sleep => 0
        | _ => 3
      (x.attempt < limit → v.attemptFails e l x = v.onLink l fun k =>
        { k with transfer := some { x with attempt := x.attempt + 1, ticks := 0, onWire := true } })
      ∧ (limit ≤ x.attempt → v.attemptFails e l x = v.transferFails e l x))
  ∧ (∀ (s : State) (l : Fin 4) (rt : Nat), s.held = false → (s.world.link l).state.receives = true →
    let k := s.world.link l
    let broken := (s.world.badReply s.env l).onLink l fun k => { k with hunting := k.state.receives }
    let after (bytes : List Byte) (w : World) :=
      ∃ t, exec (.driverReply l bytes rt) s = .next t ∧ State.AfterOn l s w t
    (∀ bytes, 0xC3#8 ∉ bytes → k.hunting = true ∨ bytes = [] → after bytes s.world)
    ∧ (∀ bytes, 0xC3#8 ∉ bytes → k.hunting = false → bytes ≠ [] →
      after bytes broken)
    ∧ (∀ rest front back, 0xC3#8 ∉ rest → cutReply k.polling 0 11 rest = (front, back) →
      parseReply k.polling (0xC3#8 :: front) = none →
      after (0xC3#8 :: rest) broken)
    ∧ ∀ bytes r, parseReply k.polling bytes = some r →
      (∀ x, k.transfer = some x → ¬(x.reported = true ∧ r.addr = x.addr ∧ x.frame.allows r.kind = true
        ∧ r.tag = x.frame.tag ∧ ∀ n, x.frame = .probe n → r.exchange = n)) →
      after bytes ((s.world.onLink l fun k => { k with hunting := false }).badReply s.env l))
  ∧ (∀ (s : State) (l : Fin 4), s.held = false →
    let k := s.world.link l
    let moved (w : World) := { w with
      notices := w.notices.upd NoticeKind.linkState.no (Notice.raise s.time.civic) }
    (∀ a : Fin 16,
      let lapsed := (s.world.driver l a).backoff = .lapsing
        ∨ ∃ x ∈ k.stage, x.addr = a ∧ x.backoff = .lapsing
      (lapsed → ∃ t, exec (.backoffExpiry l a) s = .next t ∧ State.AfterOn l s ((s.world.onLink l fun k =>
          { k with stage := k.stage.map fun x =>
            if x.addr = a ∧ x.backoff = .lapsing then { x with backoff := .clear } else x }).onDriver
        l a fun d => if d.backoff = .lapsing then
          { d with backoff := .clear, state := if d.state = .busy then .ready else d.state }
          else d) t)
      ∧ (¬lapsed → exec (.backoffExpiry l a) s = .next s.choose))
    ∧ ((∃ n ∈ k.errors, 100 ≤ n) → ∃ t, exec (.errorAgeExpiry l) s = .next t
      ∧ State.AfterOn l s (s.world.onLink l fun k => { k with errors := k.errors.filter (· < 100) }) t)
    ∧ ((∀ n ∈ k.errors, n < 100) → exec (.errorAgeExpiry l) s = .next s.choose)
    ∧ (k.state = .faulted → 500 ≤ k.timer → ∃ t, exec (.faultRestEnd l) s = .next t
      ∧ State.AfterOn l s (moved (s.world.onLink l fun k =>
        { k with state := .warming, power := true, timer := 0 })) t)
    ∧ (¬(k.state = .faulted ∧ 500 ≤ k.timer) → exec (.faultRestEnd l) s = .next s.choose)
    ∧ (k.state = .warming → 200 ≤ k.timer → ∃ t, exec (.warmUpEnd l) s = .next t
      ∧ State.AfterOn l s (moved (s.world.onLink l fun k =>
        { k with state := .scanning, power := true, scanPos := some 0 })) t)
    ∧ (¬(k.state = .warming ∧ 200 ≤ k.timer) → exec (.warmUpEnd l) s = .next s.choose)
    ∧ (k.state = .quiescing → 100 ≤ k.timer → k.wakeOwed = false → k.wireIdle = false →
      exec (.quiesceWaitEnd l) s = .next
        { s with world := s.world.onLink l fun k => { k with forceOwed := true } }.choose)
    ∧ (k.state = .quiescing → 100 ≤ k.timer → k.wakeOwed = false → k.wireIdle = true →
      ∃ t, exec (.quiesceWaitEnd l) s = .next t ∧ s.sameBase t ∧ s.world.Kept t.world
        ∧ (t.world.link l).bcast = some .force ∧ (t.world.link l).state = .asleep
        ∧ (t.world.link l).power = true ∧ t.world.ctl.asleep.get l = true
        ∧ (∀ a, (s.world.zone (zoneAt l a)).configured = true →
          (s.world.driver l a).state ≠ .absent → (t.world.driver l a).state = .asleep)
        ∧ (t.world.notices.get NoticeKind.linkState.no).pending = true
        ∧ t.world = (((s.world.onLink l fun k =>
            { k with forceOwed := false, bcast := some .force }).each
          ((upTo 16).filter fun a =>
            (s.world.zone (zoneAt l a)).configured && (s.world.driver l a).state != .absent)
          (World.dropDriver s.env l .asleep)).linkAsleep s.env l)
        ∧ (s.world.undeferred → k.refsDistinct → s.world.Lost l
          (fun a => (s.world.zone (zoneAt l a)).configured && (s.world.driver l a).deliverable) t.world))
    ∧ (¬(k.state = .quiescing ∧ 100 ≤ k.timer ∧ k.wakeOwed = false) →
      exec (.quiesceWaitEnd l) s = .next s.choose))

/-- R143, R144: the frame an idle wire is given: in UP the restart's WAKE (R186), a ready GO, the first pending
TAKE or DROP, the next eligible STAGE (R121), a refresh (R148), the poll of a lost driver (R150); in SCANNING,
CALIBRATING and QUIESCING the narrower choice, then the next scan poll (R149), PROBE (R152) or SLEEP (R155); in
the other states nothing but a WAKE owed (R156). A FORCE or a WAKE owed waits for an idle wire and goes first
(R155, R156; log entry 18). A link acts again after each act, 64 times at most.
R149, R153, R155: whatever the wire carries, a scan with no configured address left and a calibration with no
READY or BUSY driver left end, the link UP or, in DARK, QUIESCING; and a quiescing link with no driver awake
enters ASLEEP.
R148, R149, R150: the same at the commands: the refresh of a driver and the poll of a lost one, when nothing
comes before them on an idle wire that is UP; and the first poll of a scan, or its end at once where no address
is configured. -/
def Obligations.PollsAndRefreshesSent : Prop :=
  (∀ (w : World) (e : Env) (l : Fin 4),
    let k := w.link l
    let acts (v : World) := w.choose e l = some v
    let sends (f : TxFrame) (a : Fin 16) (v : World) :=
      acts (v.onLink l fun k => { k with transfer := some ⟨f, a, 0, 0, true, false⟩ })
    let moved (v : World) (st : LinkState) := (v.onLink l fun k => { k with
      state := st
      power := true
      timer := if st = .warming ∨ st = .quiescing then 0 else k.timer }).raise e .linkState
    let asleep (v : World) :=
      let m := moved v .asleep
      { m with ctl := { m.ctl with asleep := m.ctl.asleep.set l true } }
    let ended (op : LongOp) :=
      let done := (w.onLink l fun k =>
        { k with lastOp := some op, scanPos := none, cal := none }).raise e .longOpDone
      if w.ctl.state = .dark then (moved done .quiescing).onLink l fun k =>
        { k with drivers := k.drivers.map fun d => { d with sleepTried := false } }
      else moved done .up
    let toScan (a : Fin 16) := k.scanPos.getD 0 ≤ a.val ∧ (w.zone (zoneAt l a)).configured = true
    let awake (a : Fin 16) := (w.driver l a).state = .ready ∨ (w.driver l a).state = .busy
    let goesOn := (k.state = .scanning → ∃ a, toScan a)
      ∧ (k.state = .calibrating → ∀ c, k.cal = some c → ∃ a, c.addr ≤ a.val ∧ awake a)
    let quiesced := k.state = .quiescing ∧ (∀ a, ¬awake a) ∧ k.forceOwed = false ∧ k.wakeOwed = false
    let idle := k.transfer = none ∧ k.bcast = none
    let readyGo (g : GoEntry) := g.ready = true ∧ g.sent = false
    let stageable (x : Entry) := (x.state = .queued ∨ x.state = .late) ∧ x.backoff = .clear
      ∧ (x.tag = 0 → ∀ y ∈ k.stage, y.tag = 0 → y.addr = x.addr → y.ref ≠ x.ref →
        y.state ≠ .sent ∧ y.state ≠ .staged ∧ y.dropping = false)
      ∧ (w.driver l x.addr).state = .ready ∧ 0 < (w.driver l x.addr).credits
    let refreshable (a : Fin 16) := (w.driver l a).state = .ready
      ∧ (∃ r, (w.driver l a).refresh = some r ∧ r ≤ (w.driver l a).quiet)
      ∧ (w.zone (zoneAt l a)).committed ≠ none
    let pollable (a : Fin 16) := (w.zone (zoneAt l a)).configured = true
      ∧ ((w.driver l a).state = .unresponsive ∨ (w.driver l a).state = .absent)
      ∧ 100 ≤ (w.driver l a).poll
    let sleepable (a : Fin 16) := awake a ∧ (w.driver l a).sleepTried = false
      ∧ ∀ x ∈ k.stage, x.addr ≠ a
    (k.state = .scanning → (∀ a, ¬toScan a) → acts (ended ⟨true, .complete, k.answering⟩))
    ∧ (∀ c, k.state = .calibrating → k.cal = some c → (∀ a, c.addr ≤ a.val → ¬awake a) →
      acts (ended ⟨false, .complete, c.measured⟩))
    ∧ (quiesced → acts (asleep w))
    ∧ (goesOn → ¬quiesced → ¬idle → w.choose e l = none)
    ∧ (goesOn → idle → k.forceOwed = true → acts (asleep ((w.onLink l fun k =>
      { k with forceOwed := false, bcast := some .force }).dropDrivers e l .asleep)))
    ∧ (goesOn → idle → k.forceOwed = false → k.wakeOwed = true → acts (moved (w.onLink l fun k =>
      { k with wakeOwed := false, bcast := some .wake }) .warming))
    ∧ (goesOn → ¬quiesced → idle → k.forceOwed = false → k.wakeOwed = false →
      let marked := w.ctl.restartWake.get l = true
      let noGo := ∀ g ∈ k.gos, ¬readyGo g
      let noStage := ∀ x ∈ k.stage, ¬stageable x
      (k.state = .up → marked → acts (w.onLink l fun k => { k with bcast := some .wake }))
      ∧ (k.state = .up ∧ ¬marked ∨ k.state = .scanning ∨ k.state = .calibrating
          ∨ k.state = .quiescing →
        (∀ front g rest, k.gos = front ++ g :: rest → readyGo g → (∀ x ∈ front, ¬readyGo x) →
          acts (w.onLink l fun k => { k with bcast := some (.go g.tag) }))
        ∧ ∀ i rest, noGo → k.pending = i :: rest →
          sends (if i.isTake then .take i.ref i.tag else .drop i.ref i.tag) i.addr
            (w.onLink l fun k => { k with pending := rest }))
      ∧ (noGo → k.pending = [] →
        (k.state = .up ∧ ¬marked ∨ k.state = .calibrating ∨ k.state = .quiescing →
          ∀ front x rest, k.stage = front ++ x :: rest → stageable x →
          (∀ y ∈ front, ¬stageable y) → sends (.stage x.ref x.tag x.look.val x.hold) x.addr w)
        ∧ (k.state = .up → ¬marked → noStage →
          (∀ a look, refreshable a → (∀ b < a, ¬refreshable b) →
            (w.zone (zoneAt l a)).committed = some look → sends (.refresh look.val) a w)
          ∧ ((∀ a, ¬refreshable a) →
            (∀ a, pollable a → (∀ b < a, ¬pollable b) → sends (.poll true false) a w)
            ∧ ((∀ a, ¬pollable a) → w.choose e l = none)))
        ∧ (∀ a, k.state = .scanning → toScan a → (∀ b < a, ¬toScan b) →
          (k.scanPos ≠ some a.val → acts (w.onLink l fun k => { k with scanPos := some a.val }))
          ∧ (k.scanPos = some a.val → (w.driver l a).state = .busy → w.choose e l = none)
          ∧ (k.scanPos = some a.val → (w.driver l a).state ≠ .busy →
            sends (.poll (w.driver l a).lost true) a w))
        ∧ (∀ c a, k.state = .calibrating → noStage → k.cal = some c → c.addr = a.val →
          ((w.driver l a).state = .ready → sends (.probe c.count) a
            (w.onLink l fun k => { k with cal := some { c with probing := true } }))
          ∧ ((w.driver l a).state = .busy → w.choose e l = none)
          ∧ (¬awake a →
            acts (w.onLink l fun k => { k with cal := some ⟨c.addr + 1, 0, 0, c.measured, false⟩ })))
        ∧ (k.state = .quiescing → noStage →
          (∀ a, sleepable a → (∀ b < a, ¬sleepable b) →
            sends .sleep a (w.onDriver l a fun d => { d with sleepTried := true }))
          ∧ ((∀ a, ¬sleepable a) → w.choose e l = none)))
      ∧ (k.state = .off ∨ k.state = .warming ∨ k.state = .asleep ∨ k.state = .faulted →
        w.choose e l = none))
    ∧ (∀ n, (w.choose e l = none → w.pumpFor e l n = w)
      ∧ ∀ v, w.choose e l = some v → w.pumpFor e l (n + 1) = v.pumpFor e l n)
    ∧ w.pump e l = w.pumpFor e l 64)
  ∧ ∀ (s : State) (l : Fin 4), s.held = false →
    let k := s.world.link l
    let quiet := k.wireIdle = true ∧ k.owesNothing = true ∧ s.world.ctl.restartWake.get l = false
      ∧ (∀ g ∈ k.gos, g.ready = true → g.sent = true) ∧ k.pending = []
    let sends (i : Instr) (f : TxFrame) (a : Fin 16) :=
      exec i s = .next { s with world := s.world.onLink l fun k =>
        { k with transfer := some ⟨f, a, 0, 0, true, false⟩ } }.choose
    let refreshable (a : Fin 16) := (s.world.driver l a).refreshDue = true
      ∧ (s.world.zone (zoneAt l a)).committed ≠ none
    (∀ a, (s.world.driver l a).refreshDue = true ↔ ((s.world.driver l a).state = .ready
      ∧ ∃ r, (s.world.driver l a).refresh = some r ∧ r ≤ (s.world.driver l a).quiet))
    ∧ (∀ a, s.world.lostPollDue l a = true ↔ ((s.world.zone (zoneAt l a)).configured = true
      ∧ ((s.world.driver l a).state = .unresponsive ∨ (s.world.driver l a).state = .absent)
      ∧ 100 ≤ (s.world.driver l a).poll))
    ∧ (∀ a look, k.state = .up → quiet → k.nextStage = none → refreshable a →
      (∀ b < a, ¬refreshable b) → (s.world.zone (zoneAt l a)).committed = some look →
      sends (.refreshDue l a) (.refresh look.val) a)
    ∧ (∀ a, k.state = .up → quiet → k.nextStage = none → (∀ b, ¬refreshable b) →
      s.world.lostPollDue l a = true → (∀ b < a, s.world.lostPollDue l b = false) →
      sends (.lostDriverPollDue l a) (.poll true false) a)
    ∧ (∀ a, k.state = .up → (s.world.driver l a).refreshDue = true → ∃ t,
      exec (.refreshDue l a) s = .next t ∧ State.AfterOn l s s.world t)
    ∧ (∀ a, k.state = .up → s.world.lostPollDue l a = true → ∃ t,
      exec (.lostDriverPollDue l a) s = .next t ∧ State.AfterOn l s s.world t)
    ∧ (∀ a, k.state ≠ .up → exec (.refreshDue l a) s = .next s.choose
      ∧ exec (.lostDriverPollDue l a) s = .next s.choose)
    ∧ (k.state = .warming → 200 ≤ k.timer → quiet →
      (∀ a, (s.world.zone (zoneAt l a)).configured = true →
        (∀ b < a, (s.world.zone (zoneAt l b)).configured = false) →
        (s.world.driver l a).state ≠ .busy → ∃ t, exec (.warmUpEnd l) s = .next t
        ∧ (t.world.link l).state = .scanning ∧ (t.world.link l).scanPos = some a.val
        ∧ (t.world.link l).transfer =
          some ⟨.poll (s.world.driver l a).lost true, a, 0, 0, true, false⟩)
      ∧ ((∀ a, (s.world.zone (zoneAt l a)).configured = false) → s.world.ctl.state = .active →
        ∃ t, exec (.warmUpEnd l) s = .next t ∧ (t.world.link l).state = .up
          ∧ (t.world.link l).lastOp = some ⟨true, .complete, k.answering⟩
          ∧ (t.world.notices.get NoticeKind.longOpDone.no).pending = true))

/-- R151, R152, R153, R157: the requests on a link. The link's number is tested first (log entry 21).
R103, R132, R157: a link that goes OFF moves every configured driver that is not ABSENT to ABSENT, one by one by
address (log entry 35), each as TRANSFER_TIMEOUT's statement has the loss of a driver; with nothing deferred, the
entries of the READY and BUSY ones are gone and counted. What the link owed to send is forgotten (log entry
32). -/
def Obligations.LinkRequestsTaken : Prop :=
  ∀ (s : State) (tag : Nat), s.idle = true →
    (∀ n, 4 ≤ n →
      exec (.enableLink tag n) s = .next (State.replied 0x40 tag (s, .badField 0))
      ∧ exec (.disableLink tag n) s = .next (State.replied 0x41 tag (s, .badField 0))
      ∧ exec (.scanLink tag n) s = .next (State.replied 0x42 tag (s, .badField 0))
      ∧ exec (.calibrateLink tag n) s = .next (State.replied 0x43 tag (s, .badField 0)))
    ∧ ∀ l : Fin 4,
      let k := s.world.link l
      let claimed := ∃ a, (s.world.zone (zoneAt l a)).claims ≠ []
      let moved (w : World) := { w with
        notices := w.notices.upd NoticeKind.linkState.no (Notice.raise s.time.civic) }
      (∃ t, exec (.enableLink tag l.val) s = .next t ∧ s.AfterReply
        (if s.world.ctl.state ≠ .parked ∧ k.state = .off then
            moved (s.world.onLink l fun k =>
              { k with enabled := true, state := .warming, power := true, timer := 0 })
          else s.world.onLink l fun k => { k with enabled := true }) ⟨0x40, tag, .ok, []⟩ t)
      ∧ (claimed →
        exec (.disableLink tag l.val) s = .next (State.replied 0x41 tag (s, .no .inUse)))
      ∧ (¬claimed →
        let w := (s.world.onLink l fun k => { k with enabled := false }).linkOff s.env l
        (∃ t, exec (.disableLink tag l.val) s = .next t ∧ s.AfterReply w ⟨0x41, tag, .ok, []⟩ t)
        ∧ (w.link l).enabled = false ∧ (w.link l).state = .off
        ∧ (k.state ≠ .off → (w.link l).power = false ∧ (w.link l).transfer = none
          ∧ (w.link l).bcast = none ∧ (w.link l).pending = [] ∧ (w.link l).errors = []
          ∧ (w.notices.get NoticeKind.linkState.no).pending = true
          ∧ (∀ a, (s.world.zone (zoneAt l a)).configured = true →
            (w.driver l a).state = .absent)
          ∧ (let silent := ((s.world.onLink l fun k =>
                { k with enabled := false }).abandonLongOp s.env l).onLink l fun k => { k with
              transfer := none, bcast := none, wakeOwed := false, forceOwed := false, hunting := false
              pending := [], errors := [] }
            let lost := silent.each ((upTo 16).filter fun a =>
                (s.world.zone (zoneAt l a)).configured && (s.world.driver l a).state != .absent)
              (World.dropDriver s.env l .absent)
            let off := lost.enterLink s.env l .off
            w = { off with ctl := { off.ctl with
              asleep := off.ctl.asleep.set l false, restartWake := off.ctl.restartWake.set l false } })
          ∧ (s.world.undeferred → k.refsDistinct → s.world.Lost l
            (fun a => (s.world.zone (zoneAt l a)).configured && (s.world.driver l a).deliverable) w))
        ∧ (k.state = .off → w = s.world.onLink l fun k => { k with enabled := false }))
      ∧ (k.state ≠ .up →
        exec (.scanLink tag l.val) s = .next (State.replied 0x42 tag (s, .no .linkBusy)))
      ∧ (k.state = .up → ∃ t, exec (.scanLink tag l.val) s = .next t
        ∧ s.AfterReply (moved (s.world.onLink l fun k =>
            { k with state := .scanning, power := true, scanPos := some 0 }))
          ⟨0x42, tag, .started, []⟩ t)
      ∧ (let busy := k.state ≠ .up ∨ claimed ∨ k.stage ≠ [] ∨ k.gos ≠ [] ∨ k.deferred ≠ []
          ∨ k.pending ≠ []
        (busy → exec (.calibrateLink tag l.val) s =
          .next (State.replied 0x43 tag (s, .no .linkBusy)))
        ∧ (¬busy → k.answering ≠ 0 → ∃ t, exec (.calibrateLink tag l.val) s = .next t
          ∧ s.AfterReply (moved (s.world.onLink l fun k =>
              { k with state := .calibrating, power := true, cal := some ⟨0, 0, 0, 0, false⟩ }))
            ⟨0x43, tag, .started, []⟩ t)
        ∧ (¬busy → k.answering = 0 →
          let begun := (s.world.enterLink s.env l .calibrating).onLink l fun k =>
            { k with cal := some ⟨0, 0, 0, 0, false⟩ }
          let w := (begun.endLongOp s.env l ⟨false, .complete, 0⟩).comeUp s.env l
          (∃ t, exec (.calibrateLink tag l.val) s = .next t
            ∧ s.AfterReply w ⟨0x43, tag, .started, []⟩ t)
          ∧ (w.link l).lastOp = some ⟨false, .complete, 0⟩
          ∧ (w.notices.get NoticeKind.longOpDone.no).pending = true
          ∧ (w.link l).state = (if s.world.ctl.state = .dark then .quiescing else .up)))

/-! ## The Condition Monitor and the State Controller -/

/-- R165, R166, R167: the window modes, and one judgement: of a channel FALSE or TRUE, and of one UNKNOWN.
R164, R168: SCAN_START reads the contacts and lists the analog inputs to convert; CONVERSION_END stores a
reading; the scan end, at the last conversion or at once, judges each enabled channel with a new reading
and takes its transition. A reading carried above 4095 is taken as 4095 (log entry 26). Neither command
acts when it is not due (log entry 2). -/
def Obligations.ScanJudgesConditions : Prop :=
  (∀ (c : Channel) (r : Nat),
    (c.mode = .above → (c.matches r = true ↔ c.high < r))
    ∧ (c.mode = .below → (c.matches r = true ↔ r < c.low))
    ∧ (c.mode = .inside → (c.matches r = true ↔ c.low ≤ r ∧ r ≤ c.high))
    ∧ (c.mode = .outside → (c.matches r = true ↔ r < c.low ∨ c.high < r))
    ∧ (let sense := if c.matches r = true then Verdict.yes else .no
      let turned := ({ c with value := sense, streak := 0, sense := none }, true)
      (c.value ≠ .unknown → c.value = sense → c.judge r = ({ c with streak := 0 }, false))
      ∧ (c.value ≠ .unknown → c.value ≠ sense → c.streak + 1 < c.persist →
        c.judge r = ({ c with streak := c.streak + 1 }, false))
      ∧ (c.value ≠ .unknown → c.value ≠ sense → c.persist ≤ c.streak + 1 → c.judge r = turned)
      ∧ (c.value = .unknown →
        let n := if c.streak ≠ 0 ∧ c.sense = some (c.matches r) then c.streak + 1 else 1
        (n < c.persist → c.judge r = ({ c with streak := n, sense := some (c.matches r) }, false))
        ∧ (c.persist ≤ n → c.judge r = turned))))
  ∧ (∀ s : State, s.held = false →
    let m := s.world.monitor
    let judged (m : Monitor) (done : List (Fin 4)) (v : World) := v.monitor.scan = none
      ∧ v.monitor.ain = m.ain ∧ v.monitor.cin = m.cin ∧ v.monitor.supplied = m.supplied
      ∧ v.monitor.timer = m.timer
      ∧ ∀ ch, v.monitor.channels.get ch =
        (let c := m.channels.get ch
        let judge (fresh : Bool) (reading : Option Nat) := match reading with
          | none => c
          | some r =>
            if c.enabled && fresh then
              if (c.judge r).2 = true then { (c.judge r).1 with
                count := satUp 65535 c.count
                trip := if c.record then some ⟨s.time.civic, (c.judge r).1.value, r⟩ else none }
              else (c.judge r).1
            else c
        match c.source with
          | .ain i => judge (done.contains i) (m.ain.get i)
          | .cin i => judge true (m.cin.get i)
          | .supplied => judge true (m.supplied.get ch))
    (∀ c0 c1 c2 c3 : Bool,
      let read (closed : Bool) := some (if closed then 4095 else 0)
      let seen : Monitor := { m with
        scanDue := false
        cin := Tab.ofFn 4 fun i =>
          if i = 0 then read c0 else if i = 1 then read c1 else if i = 2 then read c2 else read c3 }
      let todo := (upTo 4).filter fun i => m.channels.list.any fun c => c.enabled && c.source == .ain i
      (m.scanDue = false → exec (.scanStart c0 c1 c2 c3) s = .next s.choose)
      ∧ (m.scanDue = true → todo ≠ [] → ∃ t, exec (.scanStart c0 c1 c2 c3) s = .next t
        ∧ s.After { s.world with monitor := { seen with scan := some ⟨todo, []⟩ } } t)
      ∧ (m.scanDue = true → todo = [] → ∃ t, exec (.scanStart c0 c1 c2 c3) s = .next t ∧ s.sameBase t
        ∧ judged seen [] t.world))
    ∧ ∀ (reading : Nat),
      (m.scan = none → exec (.conversionEnd reading) s = .next s.choose)
      ∧ ∀ i rest done, m.scan = some ⟨i :: rest, done⟩ →
        let stored : Monitor := { m with ain := m.ain.set i (some (min 4095 reading)) }
        (rest ≠ [] → ∃ t, exec (.conversionEnd reading) s = .next t
          ∧ s.After { s.world with monitor := { stored with scan := some ⟨rest, done ++ [i]⟩ } } t)
        ∧ (rest = [] → ∃ t, exec (.conversionEnd reading) s = .next t ∧ s.sameBase t
          ∧ judged stored (done ++ [i]) t.world))

/-- R65, R76, R81, R84, R169, R180: what a transition to TRUE does: nothing to a player whose booking gives the
channel no role in its state; it starts a WAITING player, ends a RUNNING one gracefully and a HELD one
abruptly; with WAKE a DARK part wakes. With ALL_STOP every player that is not FREE ends ALL_STOPPED and
abrupt, whatever role the channel has for it, and no role is delivered (log entry 23). The stop condition is
read before the hand points that have passed are taken (log entry 11).
R202: a player that a hand point of the same tick has just brought into its CODA is stopped too, so that the
group handed on, due at the cut tick, is withdrawn and never plays; no other ENDING player is (log entry 37). The
graceful end is in the statement of the end cut, and the start of the main show in that of START_POINT.
R164, R168: a scan end hands each transition on as it finds it: SCAN_START with nothing to convert and the
last CONVERSION_END judge the channels in their order. -/
def Obligations.TransitionsToTrueAct : Prop :=
  (∀ s : State, s.held = false →
    let m := s.world.monitor
    let judged (m : Monitor) (done : List (Fin 4)) :=
      ({ s.world with monitor := { m with scan := none } } : World).each (upTo 8)
        (World.judgeChannel s.env done)
    (∀ reading i done, m.scan = some ⟨[i], done⟩ → ∃ t, exec (.conversionEnd reading) s = .next t
      ∧ s.After (judged { m with ain := m.ain.set i (some (min 4095 reading)) } (done ++ [i])) t)
    ∧ ∀ c0 c1 c2 c3, m.scanDue = true → (∀ ch i, (m.channels.get ch).enabled = true →
        (m.channels.get ch).source ≠ .ain i) →
      let read (closed : Bool) := some (if closed then 4095 else 0)
      ∃ t, exec (.scanStart c0 c1 c2 c3) s = .next t ∧ s.After (judged { m with
        scanDue := false
        cin := Tab.ofFn 4 fun i =>
          if i = 0 then read c0 else if i = 1 then read c1 else if i = 2 then read c2 else read c3 }
        []) t)
  ∧ (∀ (w : World) (e : Env) (ch : Fin 8) (done : List (Fin 4)),
    let c := w.monitor.channels.get ch
    let fresh := ∀ i, c.source = .ain i → i ∈ done
    let reading := match c.source with
      | .ain i => w.monitor.ain.get i
      | .cin i => w.monitor.cin.get i
      | .supplied => w.monitor.supplied.get ch
    (c.enabled = false ∨ ¬fresh ∨ reading = none → w.judgeChannel e done ch = w)
    ∧ ∀ r, c.enabled = true → fresh → reading = some r →
      let d := (c.judge r).1
      let turned := (w.setChannel ch { d with
        count := satUp 65535 d.count
        trip := if d.record then some ⟨e.now, d.value, r⟩ else none }).raise e .conditionChange
      ((c.judge r).2 = false → w.judgeChannel e done ch = w.setChannel ch d)
      ∧ ((c.judge r).2 = true → d.value ≠ .yes → w.judgeChannel e done ch = turned)
      ∧ ((c.judge r).2 = true → d.value = .yes →
        w.judgeChannel e done ch = turned.turnTrue e ch d.allStop d.wake))
  ∧ ∀ (w : World) (e : Env) (ch p : Fin 8),
    let c := w.player p
    let starts := ∃ k n, c.copy = some k ∧ k.booking.mode = .onCondition ch n
    let stops := ∃ k, c.copy = some k ∧ k.booking.stopCond = some ch
    let shown := e.showOf c
    let entered := c.cause = some .completed ∧ (∃ h, c.hands.getLast? = some h ∧ h.due = e.now + 150
        ∧ shown.parts.length = h.id.sec + 2)
      ∧ ∃ sec, shown.parts.getLast? = some sec ∧ sec.kind = .coda
    (¬(c.state = .waiting ∧ starts) → ¬((c.state = .running ∨ c.state = .held) ∧ stops) →
      ¬(c.state = .ending ∧ stops ∧ entered) → w.roleOf e ch p = w)
    ∧ (c.state = .ending → stops → entered →
      w.roleOf e ch p = (w.endGracefully e p (e.now + 150) .stopped false).handAll e p)
    ∧ (c.state = .waiting → starts → w.roleOf e ch p = (w.mainStart e p).handAll e p)
    ∧ (c.state = .running → stops → (w.monitor.channels.get ch).value = .yes →
      w.roleOf e ch p = (w.endGracefully e p (e.now + 150) .stopped false).handAll e p)
    ∧ (c.state = .held → stops → w.plans.wait = [] →
      (w.roleOf e ch p).player p = Player.free
      ∧ ∀ bk id x, c.ref = some (bk, id) → (w.bank bk).find id = some x →
        ∃ y, ((w.roleOf e ch p).bank bk).find id = some y ∧ y.outcome.progress = .stopped
          ∧ y.outcome.abrupt = true ∧ y.outcome.startTick = c.startTick)
    ∧ w.turnTrue e ch false false = w.each (upTo 8) (World.roleOf e ch)
    ∧ (∀ stopAll, w.turnTrue e ch stopAll true = (w.turnTrue e ch stopAll false).wakeCause e .condition)
    ∧ (w.plans.wait = [] → ∀ q,
      let v := w.turnTrue e ch true false
      ((w.player q).state = .free → v.player q = w.player q)
      ∧ ((w.player q).state ≠ .free → v.player q = Player.free
        ∧ ∀ bk id x, (w.player q).ref = some (bk, id) → (w.bank bk).find id = some x →
          ∃ y, (v.bank bk).find id = some y ∧ y.booking = x.booking
            ∧ y.outcome.progress = .allStopped ∧ y.outcome.abrupt = true))
    ∧ ((∀ q, (w.player q).state = .free) →
      w.turnTrue e ch false false = w ∧ w.turnTrue e ch true false = w
      ∧ (w.ctl.state ≠ .dark → w.turnTrue e ch false true = w)
      ∧ (w.ctl.state = .dark → let v := w.turnTrue e ch false true
        v.ctl.state = .active ∧ v.ctl.guard = 0 ∧ (∀ l, v.ctl.asleep.get l = false)
        ∧ v.ctl.lastChange = some ⟨e.now, .active, .condition⟩
        ∧ (v.notices.get NoticeKind.operatingState.no).pending = true
        ∧ ∀ l, (v.link l).wakeOwed = ((w.link l).wakeOwed
          || (w.link l).state == .asleep || (w.link l).state == .quiescing)))

/-- R170, R171: PUT_CONDITION and SET_READING. The place of the failing field is that of the first in body
order (log entry 17). -/
def Obligations.ConditionRequestsTaken : Prop :=
  ∀ (s : State) (tag : Nat) (f : ConditionField), s.idle = true →
    (∀ n r, 8 ≤ n →
      exec (.putCondition tag n f) s = .next (State.replied 0x48 tag (s, .badField 0))
      ∧ exec (.setReading tag n r) s = .next (State.replied 0x4A tag (s, .badField 0)))
    ∧ ∀ ch : Fin 8,
      let c := s.world.monitor.channels.get ch
      let bad (off : Nat) :=
        exec (.putCondition tag ch.val f) s = .next (State.replied 0x48 tag (s, .badField off))
      let fine := f.enabled ≤ 1 ∧ f.source ≤ 8 ∧ f.mode ≤ 3 ∧ f.low ≤ f.high ∧ f.high ≤ 4095
        ∧ 1 ≤ f.persist ∧ f.persist ≤ 15 ∧ f.record ≤ 1 ∧ f.attrs ≤ 3
      let inUse := ∃ p k, (s.world.player p).state ≠ .free ∧ (s.world.player p).copy = some k
        ∧ (k.booking.stopCond = some ch ∨ ∃ n, k.booking.mode = .onCondition ch n)
      (¬fine → bad (if 1 < f.enabled then 1 else if 8 < f.source then 2 else if 3 < f.mode then 3
        else if 4095 < f.low ∨ (f.high < f.low ∧ f.high ≤ 4095) then 4
        else if 4095 < f.high then 6 else if f.persist = 0 ∨ 15 < f.persist then 8
        else if 1 < f.record then 9 else 10))
      ∧ (fine → f.enabled = 0 → inUse →
        exec (.putCondition tag ch.val f) s = .next (State.replied 0x48 tag (s, .no .inUse)))
      ∧ (∀ source mode, fine → ¬(f.enabled = 0 ∧ inUse) → source? f.source = some source →
        mode? f.mode = some mode → ∃ t, exec (.putCondition tag ch.val f) s = .next t
        ∧ s.AfterReply (s.world.setChannel ch
            ⟨f.enabled == 1, source, mode, f.low, f.high, f.persist, f.record == 1,
              f.attrs % 2 == 1, f.attrs / 2 == 1, .unknown, 0, none, c.count,
              if f.record = 1 then c.trip else none⟩) ⟨0x48, tag, .ok, []⟩ t)
      ∧ ∀ r,
        (4095 < r →
          exec (.setReading tag ch.val r) s = .next (State.replied 0x4A tag (s, .badField 1)))
        ∧ (r ≤ 4095 → c.source ≠ .supplied →
          exec (.setReading tag ch.val r) s = .next (State.replied 0x4A tag (s, .no .wrongState)))
        ∧ (r ≤ 4095 → c.source = .supplied → ∃ t, exec (.setReading tag ch.val r) s = .next t
          ∧ s.AfterReply { s.world with
              monitor := { s.world.monitor with
                supplied := s.world.monitor.supplied.set ch (some r) } } ⟨0x4A, tag, .ok, []⟩ t)

/-- R177, R178, R179: DARK_GUARD_EXPIRY: at 6,000 tick events in ACTIVE the timer starts anew and, with
auto-dark ON, the dark test is made, recorded, and enters DARK when it passes. The command acts when the
expiry is due (log entry 2).
R178, R85, R52, R2: the other moments of the automatic dark test: a player's becoming FREE, once the wait list
has had its turn, so a RELEASE_POINT that leaves nothing more to play brings the part to DARK; the day roll; and
a DATE SET. What the day roll and a DATE SET do before it is in the statements of ACTIVATE_PLAN and SET_TIME. -/
def Obligations.DarkGuardMakesTest : Prop :=
  (∀ (w : World) (e : Env) (p : Fin 8) (final : Progress) (abrupt : Bool) (d : Date),
    let result := if ∃ p, (w.player p).state ≠ .free then DarkResult.players
      else if w.plans.wait ≠ [] then .waitList
      else if w.pendingBy (e.now + 60000) = true then .bookingSoon
      else .entered
    let tested : World := { w with ctl := { w.ctl with lastTest := some ⟨e.now, result⟩ } }
    (w.ctl.auto = false ∨ w.ctl.state ≠ .active → w.autoDark e = w)
    ∧ (w.ctl.auto = true → w.ctl.state = .active → result ≠ .entered → w.autoDark e = tested)
    ∧ (w.ctl.auto = true → w.ctl.state = .active → result = .entered →
      w.autoDark e = tested.enterDark e .auto)
    ∧ (let v := w.endBooking e p final abrupt
      w.finish e p final abrupt = (v.fillFor e p v.plans.wait.length).autoDark e
      ∧ (w.plans.wait = [] → w.finish e p final abrupt = v.autoDark e))
    ∧ w.dayRoll e d = ((w.swapBanks e d).raise e .dayRoll).autoDark e
    ∧ ((∃ bk, w.activeBank = some bk ∧ (w.bank bk).date = d) → w.dateSet e d = w.autoDark e)
    ∧ ((∀ bk, w.activeBank = some bk → (w.bank bk).date ≠ d) →
      w.dateSet e d = (w.swapBanks e d).autoDark e))
  ∧ (∀ (s : State) (p : Fin 8) (cause : EndCause), s.held = false → s.reachOpen = true →
    s.env.firstPoint (s.world.player p) = some .release → (s.world.player p).cause = some cause →
    s.world.plans.wait = [] → ∃ t, exec (.releasePoint p) s = .next t
      ∧ s.After ((s.world.endBooking s.env p cause.progress false).autoDark s.env) t)
  ∧ ∀ s : State, s.held = false →
    let w := s.world
    let result := if ∃ p, (w.player p).state ≠ .free then DarkResult.players
      else if w.plans.wait ≠ [] then .waitList
      else if w.pendingBy (s.time.civic + 60000) = true then .bookingSoon
      else .entered
    let reset : World := { w with ctl := { w.ctl with guard := 0 } }
    (∀ tick, w.pendingBy tick = true ↔ ∃ bk, w.activeBank = some bk ∧ ∃ x ∈ (w.bank bk).list,
      x.outcome.progress = .pending ∧ civic (w.bank bk).date x.booking.start ≤ tick + 6000)
    ∧ (¬(w.ctl.state = .active ∧ 6000 ≤ w.ctl.guard) → exec .darkGuardExpiry s = .next s.choose)
    ∧ (w.ctl.state = .active → 6000 ≤ w.ctl.guard → w.ctl.auto = false →
      ∃ t, exec .darkGuardExpiry s = .next t ∧ s.After reset t)
    ∧ (w.ctl.state = .active → 6000 ≤ w.ctl.guard → w.ctl.auto = true → result ≠ .entered →
      ∃ t, exec .darkGuardExpiry s = .next t ∧ s.After { w with
        ctl := { w.ctl with guard := 0, lastTest := some ⟨s.time.civic, result⟩ } } t)
    ∧ (w.ctl.state = .active → 6000 ≤ w.ctl.guard → w.ctl.auto = true → result = .entered →
      let tested : World := { w with
        ctl := { w.ctl with guard := 0, lastTest := some ⟨s.time.civic, .entered⟩ } }
      let v := tested.enterDark s.env .auto
      (∃ t, exec .darkGuardExpiry s = .next t ∧ s.After v t)
        ∧ v.ctl = { w.ctl with
          state := .dark
          guard := 0
          lastTest := some ⟨s.time.civic, .entered⟩
          lastChange := some ⟨s.time.civic, .dark, .auto⟩ }
        ∧ (v.notices.get NoticeKind.operatingState.no).pending = true
        ∧ v.plans = w.plans ∧ v.players = w.players ∧ v.zones = w.zones ∧ v.monitor = w.monitor
        ∧ ∀ l, (v.link l).state =
          (if (w.link l).state = .up then .quiescing else (w.link l).state))

/-- R181, R182, R183: SET_STATE by the state asked for and the state the part is in. For ACTIVE asked in ACTIVE
with auto-dark OFF no dark test is made or recorded (log entry 13). A bad state is reported before a bad auto
value (log entry 17). -/
def Obligations.SetStateMovesPart : Prop :=
  ∀ (s : State) (tag op auto : Nat), s.idle = true →
    let w := s.world
    let e := exec (.setState tag op auto) s
    let allFree := ∀ p, (w.player p).state = .free
    let dark := allFree ∧ w.plans.wait = [] ∧ w.pendingBy (s.time.civic + 60000) = false
    let set : World := { w with ctl := { w.ctl with auto := auto == 1 } }
    let parks :=
      let v := set.park s.env
      (∃ t, e = .next t ∧ s.AfterReply v ⟨0x53, tag, .ok, [2#8, byteOf auto]⟩ t)
      ∧ v.ctl.state = .parked ∧ v.ctl.auto = (auto == 1) ∧ v.ctl.guard = 0
      ∧ (∀ l, v.ctl.asleep.get l = false)
      ∧ v.ctl.lastChange = some ⟨s.time.civic, .parked, .request⟩
      ∧ (v.notices.get NoticeKind.operatingState.no).pending = true
      ∧ v.monitor.scan = none ∧ v.monitor.timer = 0
      ∧ (∀ ch, (v.monitor.channels.get ch).value = .unknown)
      ∧ ∀ l, (v.link l).state = .off ∧ (v.link l).enabled = (w.link l).enabled
    (2 < op → e = .next (State.replied 0x53 tag (s, .badField 0)))
    ∧ (op ≤ 2 → 1 < auto → e = .next (State.replied 0x53 tag (s, .badField 1)))
    ∧ (auto ≤ 1 →
      (op = 1 → w.ctl.state = .parked →
        e = .next (State.replied 0x53 tag (s, .no .wrongState)))
      ∧ (op = 1 → w.ctl.state = .active → ¬dark →
        e = .next (State.replied 0x53 tag (s, .no .showsActive)))
      ∧ (op = 2 → w.ctl.state = .active → ¬allFree →
        e = .next (State.replied 0x53 tag (s, .no .showsActive)))
      ∧ (op = 1 → w.ctl.state = .dark → ∃ t, e = .next t
        ∧ s.AfterReply set ⟨0x53, tag, .ok, [1#8, byteOf auto]⟩ t)
      ∧ (op = 2 → w.ctl.state = .parked → ∃ t, e = .next t
        ∧ s.AfterReply set ⟨0x53, tag, .ok, [2#8, byteOf auto]⟩ t)
      ∧ (op = 2 → w.ctl.state = .active → allFree → parks)
      ∧ (op = 2 → w.ctl.state = .dark → parks)
      ∧ (op = 1 → w.ctl.state = .active → dark →
        let tested : World := { set with
          ctl := { set.ctl with lastTest := some ⟨s.time.civic, .entered⟩ } }
        let v := tested.enterDark s.env .request
        (∃ t, e = .next t ∧ s.AfterReply v ⟨0x53, tag, .ok, [1#8, byteOf auto]⟩ t)
        ∧ (∀ l, (v.link l).state =
          (if (w.link l).state = .up then .quiescing else (w.link l).state))
        ∧ v.ctl = { w.ctl with
          auto := auto == 1
          state := .dark
          guard := 0
          lastTest := some ⟨s.time.civic, .entered⟩
          lastChange := some ⟨s.time.civic, .dark, .request⟩ })
      ∧ (op = 0 → w.ctl.state = .active → auto = 0 → ∃ t, e = .next t
        ∧ s.AfterReply set ⟨0x53, tag, .ok, [0#8, 0#8]⟩ t)
      ∧ (op = 0 → w.ctl.state = .active → auto = 1 →
        let v := set.autoDark s.env
        (∃ t, e = .next t ∧ s.AfterReply v ⟨0x53, tag, .ok, [if dark then 1#8 else 0#8, 1#8]⟩ t)
        ∧ (v.ctl.state = if dark then .dark else .active)
        ∧ ∃ r, v.ctl.lastTest = some ⟨s.time.civic, r⟩ ∧ (r = .entered ↔ dark))
      ∧ (op = 0 → w.ctl.state = .dark →
        let v := set.wakeCause s.env .request
        (∃ t, e = .next t ∧ s.AfterReply v ⟨0x53, tag, .ok, [0#8, byteOf auto]⟩ t)
        ∧ (∀ l, (v.link l).wakeOwed = ((w.link l).wakeOwed
          || (w.link l).state == .asleep || (w.link l).state == .quiescing))
        ∧ v.ctl = { w.ctl with
          auto := auto == 1
          state := .active
          guard := 0
          asleep := Tab.fill 4 false
          lastChange := some ⟨s.time.civic, .active, .request⟩ }
        ∧ (v.notices.get NoticeKind.operatingState.no).pending = true)
      ∧ (op = 0 → w.ctl.state = .parked → ∃ t, e = .next t ∧ s.sameBase t
        ∧ t.port.slot = some ⟨0x53, tag, .ok, [t.world.ctl.state.code, byteOf auto]⟩
        ∧ t.world.ctl.auto = (auto == 1)
        ∧ (t.world.notices.get NoticeKind.operatingState.no).pending = true
        ∧ ∀ l, (w.link l).enabled = true → (w.link l).state = .off →
          (t.world.link l).enabled = true ∧ (t.world.link l).power = true)
      ∧ (op = 0 → w.ctl.state = .parked →
        let u := set.unpark s.env
        let v := u.armBatch s.env true
        (∃ t, e = .next t
          ∧ s.AfterReply v ⟨0x53, tag, .ok, [v.ctl.state.code, byteOf auto]⟩ t)
        ∧ u.ctl = { w.ctl with
          auto := auto == 1
          state := .active
          guard := 0
          lastChange := some ⟨s.time.civic, .active, .request⟩ }
        ∧ (u.notices.get NoticeKind.operatingState.no).pending = true
        ∧ (∀ l, (w.link l).enabled = true → (w.link l).state = .off →
          u.link l = { w.link l with state := .warming, power := true, timer := 0 }
          ∧ (u.notices.get NoticeKind.linkState.no).pending = true)
        ∧ (∀ l, (w.link l).enabled = false ∨ (w.link l).state ≠ .off → u.link l = w.link l)
        ∧ u.plans = w.plans ∧ u.players = w.players ∧ u.zones = w.zones ∧ u.monitor = w.monitor
        ∧ (w.activeBank = none → v = u)
        ∧ ∀ bk, w.activeBank = some bk →
          v = u.each ((w.bank bk).armable s.time.civic true) (World.armOne s.env bk)))

/-! ## The Host Line Port -/

/-- R189, R190: a whole frame joins the input queue while a reply is owed, is overrun when the queue is full,
and is judged at once by its kind and its length when nothing waits. While a break holds the line low
nothing is received (R192); a frame partly received fails when a whole one follows (log entry 5).
R190, R199, TABLES 11-3 to 11-5: the lengths allowed for each kind: the fixed ones, 1 or 2 for GET_PLAN and GET_LINK,
2 plus 4 for each cue of ADD_CUES by its count byte, 1 plus the booking by its own counts for ADD_BOOKING, and up to
239 for LOOPBACK. A request of an allowed length is handed to its block, and any other is answered BAD_LENGTH. -/
def Obligations.FramesQueuedOrOverrun : Prop :=
  (∀ (s : State) (i : Instr) (f : HostFrame),
    (∃ tag r, i.request = some (tag, r) ∧ f = ⟨r.kind, tag, .ok r⟩)
      ∨ (∃ kind tag body, i = .badKindRequest kind tag body
        ∧ f = ⟨kind, tag, parseRequest kind body⟩) →
    (s.held = false → s.port.breakHeld = true → exec i s = .next s.choose)
    ∧ (s.held = false → s.port.breakHeld = false →
      (s.port.rx = .hunt → s.port.slot ≠ none → s.port.queue.length < 4 → exec i s = .next
        { s with port := { s.port with queue := s.port.queue ++ [f] } }.choose)
      ∧ (s.port.rx = .hunt → 4 ≤ s.port.queue.length → exec i s = .next
        { s with port := { s.port with
          overrunCount := satUp 65535 s.port.overrunCount
          overruns := if s.port.overruns.length < 4 then s.port.overruns ++ [(f.kind, f.tag)]
            else s.port.overruns } }.choose)
      ∧ (s.port.rx ≠ .hunt → exec i s = exec i
        { s with port := { s.port with
          rx := .hunt
          checkErrors := satUp 65535 s.port.checkErrors } })
      ∧ (s.idle = true →
        (∀ kind tag body, i = .badKindRequest kind tag body → kind ∉ requestKinds →
          exec i s = .next (State.replied kind tag (s, .no .badKind)))
        ∧ (∀ kind tag body, i = .badKindRequest kind tag body → kind ∈ requestKinds →
          parseBody kind (body.map (·.toNat)) = none →
          exec i s = .next (State.replied kind tag (s, .no .badLength))))))
  ∧ ∀ (s : State) (kind tag : Nat) (body : List Byte), s.idle = true → kind ∈ requestKinds →
    let fixed :=
      [(0x01, 7), (0x02, 0), (0x03, 2), (0x10, 7), (0x11, 1), (0x12, 9), (0x13, 5), (0x15, 1), (0x16, 1),
        (0x17, 3), (0x18, 0)] ++
      [(0x20, 5), (0x22, 1), (0x23, 1), (0x24, 1), (0x25, 3), (0x26, 6), (0x27, 2), (0x28, 1), (0x28, 2),
        (0x30, 1), (0x31, 1), (0x32, 1), (0x33, 2)] ++
      [(0x38, 4), (0x39, 1), (0x3A, 2), (0x40, 1), (0x41, 1), (0x42, 1), (0x43, 1), (0x44, 1), (0x44, 2),
        (0x48, 11), (0x49, 1), (0x4A, 3)] ++
      [(0x50, 0), (0x51, 2), (0x52, 2), (0x53, 2), (0x54, 0), (0x55, 0), (0x56, 0)]
    let allowed := (kind, body.length) ∈ fixed
      ∨ (kind = 0x14 ∧ ∃ n count cues, body = n :: count :: cues ∧ body.length = 2 + 4 * count.toNat)
      ∨ (kind = 0x21 ∧ ∃ (bank count : Byte) (fields : List Byte) (parts : List (Byte × List Byte)),
        body = bank :: fields ++ count :: parts.flatMap (fun q => q.1 :: byteOf q.2.length :: q.2)
        ∧ fields.length = 18 ∧ parts.length = count.toNat ∧ ∀ q ∈ parts, q.2.length < 256)
      ∨ (kind = 0x57 ∧ body.length ≤ 239)
    (¬allowed →
      exec (.badKindRequest kind tag body) s = .next (State.replied kind tag (s, .no .badLength)))
    ∧ (allowed → ∃ r, r.kind = kind ∧ parseRequest kind body = .ok r
      ∧ exec (.badKindRequest kind tag body) s = .next (State.replied kind tag (serveRequest r s)))

/-- R187, R188, R190, R199: a request's bytes on the wire are the request's command: every kind, every field
at every value its bytes carry, with the check and the stuffing undone; and any whole frame's bytes are
the frame. With a frame partly received, both fail that frame first, which is the model's reading (log
entry 5). -/
def Obligations.FrameIsRequest : Prop :=
  (∀ (s : State) (kind tag : Nat) (body : List Byte), kind < 256 → tag < 256 → body.length ≤ 240 →
    exec (.hostFrameReceived (received (wireFrame
      ([byteOf body.length, byteOf kind, byteOf tag] ++ body)))) s =
      exec (.badKindRequest kind tag body) s)
  ∧ ∀ (s : State) (i : Instr) (tag : Nat) (r : Request), i.wf = true → i.request = some (tag, r) →
    parseRequest r.kind r.body = .ok r
    ∧ exec (.hostFrameReceived (received (Request.wire tag r))) s = exec i s

/-- R187: the check is the CRC with polynomial x^16 + x^12 + x^5 + 1 from FFFFh, the bytes most significant bit
first, of every content; on the wire C3h stands at a frame's start alone.
R188: between frames every byte but C3h is discarded without count; in a frame, a byte with no stop bit, a
C3h, a broken stuffing pair or a length above 240 fails the frame, which the check-error count counts; a
frame whose check does not agree fails at its last byte. A C3h with no stop bit is discarded between frames,
which is the model's choice (log entry 26). -/
def Obligations.FailedFramesCounted : Prop :=
  (crc [0x31#8, 0x32#8, 0x33#8, 0x34#8, 0x35#8, 0x36#8, 0x37#8, 0x38#8, 0x39#8] = 0x29B1#16
  ∧ (∀ content : List Byte,
    let bits := content.flatMap fun x => [7, 6, 5, 4, 3, 2, 1, 0].map fun i => x.getLsbD i
    crc content = bits.foldl
      (fun (c : BitVec 16) (b : Bool) => if c.msb ^^ b then (c <<< 1) ^^^ 0x1021#16 else c <<< 1)
      0xFFFF#16)
  ∧ (∀ x : Byte, stuffByte x =
    if x = 0xC3#8 then [0xC4#8, 0xE3#8] else if x = 0xC4#8 then [0xC4#8, 0xE4#8] else [x])
  ∧ ∀ content : List Byte, ∃ rest, wireFrame content = 0xC3#8 :: rest ∧ 0xC3#8 ∉ rest)
  ∧ (∀ (s : State) (x : RxByte), s.held = false → s.port.breakHeld = false →
    let takes (rx : Rx) := exec (.hostFrameReceived [x]) s = .next
      { s with port := { s.port with rx := rx } }.choose
    let fails (rx : Rx) := exec (.hostFrameReceived [x]) s = .next
      { s with port := { s.port with
        rx := rx
        checkErrors := satUp 65535 s.port.checkErrors } }.choose
    (s.port.rx = .hunt → x ≠ ⟨0xC3#8, true⟩ → takes .hunt)
    ∧ (s.port.rx = .hunt → x = ⟨0xC3#8, true⟩ → takes (.frame [] false))
    ∧ ∀ got esc, s.port.rx = .frame got esc →
      (x.stop = false → fails .hunt)
      ∧ (x = ⟨0xC3#8, true⟩ → fails (.frame [] false))
      ∧ (x.stop = true → esc = true → x.byte ≠ 0xE3#8 → x.byte ≠ 0xE4#8 → x.byte ≠ 0xC3#8 →
        fails .hunt)
      ∧ (x = ⟨0xC4#8, true⟩ → esc = false → takes (.frame got true))
      ∧ (x.stop = true → x.byte ≠ 0xC3#8 → x.byte ≠ 0xC4#8 → esc = false →
        (got = [] → 240 < x.byte.toNat → fails .hunt)
        ∧ (got = [] → x.byte.toNat ≤ 240 → takes (.frame [x.byte] false))
        ∧ ∀ n, got.head? = some n → n.toNat ≤ 240 →
          (got.length + 1 < n.toNat + 5 → takes (.frame (got ++ [x.byte]) false))
          ∧ (got.length + 1 = n.toNat + 5 →
            (got ++ [x.byte]).drop (n.toNat + 3) ≠ checkBytes (got.take (n.toNat + 3)) →
            fails .hunt)))

/-- R191: the order of the output's choice, and the end of each kind of frame: an OVERRUN reply, the reply in
the slot, after which the next request is taken in the same event, and a notice, which is then marked
SENT unless its kind was cleared meanwhile (R195).
R192: a break empties the port and stops what it sends; nothing is counted, and it lasts to BREAK_END. A
HOST_BREAK while a break is held has no effect, which is the model's choice (log entry 26). The break that
discards RESTART's reply is in the statement of the warm restart. -/
def Obligations.OutputAndBreaks : Prop :=
  ((∀ (p : Port) (t : Tab Notice 16),
    (p.out ≠ none → p.choose t = p)
    ∧ (∀ x rest, p.out = none → p.overruns = x :: rest →
      p.choose t = { p with overruns := rest, out := some (.overrun x.1 x.2) })
    ∧ (∀ r, p.out = none → p.overruns = [] → p.slot = some r →
      p.choose t = { p with out := some (.reply r) })
    ∧ (p.out = none → p.overruns = [] → p.slot = none →
      let sends (k : Fin 16) := (t.get k).pending = true ∧ (t.get k).sent = false
        ∧ p.mask.getLsbD k.val = true
      (∀ k, sends k → (∀ j < k, ¬sends j) → p.choose t = { p with
        out := some (.notice k (t.get k).count ((t.get k).first.getD 0) ((t.get k).last.getD 0)
          true) })
      ∧ ((∀ k, ¬sends k) → p.choose t = p)))
  ∧ ∀ s : State, s.held = false →
    let free := { s with port := { s.port with out := none } }
    (s.port.out = none → exec .hostFrameSent s = .next s.choose)
    ∧ (∀ kind tag, s.port.out = some (.overrun kind tag) → exec .hostFrameSent s = .next free.choose)
    ∧ (∀ k count first last, s.port.out = some (.notice k count first last true) →
      exec .hostFrameSent s = .next { free with
        world := { s.world with
          notices := s.world.notices.upd k fun n => { n with sent := true } } }.choose)
    ∧ (∀ k count first last, s.port.out = some (.notice k count first last false) →
      exec .hostFrameSent s = .next free.choose)
    ∧ ∀ r, s.port.out = some (.reply r) → ¬(r.kind = 0x55 ∧ r.code = .ok) →
      (s.port.queue = [] → exec .hostFrameSent s = .next
        { s with port := { s.port with out := none, slot := none } }.choose)
      ∧ ∀ kind tag next rest, s.port.queue = ⟨kind, tag, .ok next⟩ :: rest →
        let served := serveRequest next { s with port := { s.port with slot := none, queue := rest } }
        exec .hostFrameSent s = .next (State.replied kind tag
          ({ served.1 with port := { served.1.port with out := none } }, served.2))
      ∧ ∀ kind tag rest,
        let taken := { s with port := { s.port with out := none, slot := none, queue := rest } }
        (s.port.queue = ⟨kind, tag, .badKind⟩ :: rest →
          exec .hostFrameSent s = .next (State.replied kind tag (taken, .no .badKind)))
        ∧ (s.port.queue = ⟨kind, tag, .badLength⟩ :: rest →
          exec .hostFrameSent s = .next (State.replied kind tag (taken, .no .badLength))))
  ∧ (∀ s : State, s.held = false →
    (s.port.breakHeld = true → exec .hostBreak s = .next s.choose)
    ∧ (s.port.breakHeld = false → (∀ r, s.port.slot = some r → ¬(r.kind = 0x55 ∧ r.code = .ok)) →
      exec .hostBreak s = .next { s with port := { s.port with
        rx := .hunt
        queue := []
        overruns := []
        slot := none
        out := none
        breakHeld := true } }.choose)
    ∧ exec .breakEnd s = .next { s with port := { s.port with breakHeld := false } }.choose)

/-- R193, R194, R195, R198: a raise into a notice record; SUBSCRIBE and CLEAR_NOTICES. -/
def Obligations.NoticesRaisedAndCleared : Prop :=
  (∀ (now : Nat) (n : Notice),
    (n.pending = false → n.raise now = ⟨true, false, 0, some now, some now⟩)
    ∧ (n.pending = true →
      n.raise now = { n with count := if n.count < 255 then n.count + 1 else n.count, last := some now }))
  ∧ ∀ (s : State) (tag mask : Nat), s.idle = true → mask < 65536 →
    exec (.subscribe tag mask) s = .next (State.replied 0x52 tag
      ({ s with port := { s.port with mask := BitVec.ofNat 16 mask } }, .ok (bigEndian 2 mask)))
    ∧ ∃ t, exec (.clearNotices tag mask) s = .next t ∧ t.time = s.time ∧ t.lib = s.lib
      ∧ t.world = { s.world with notices := t.world.notices }
      ∧ (∀ k : Fin 16, t.world.notices.get k =
        if mask.testBit k.val = true then ⟨false, false, 0, none, none⟩ else s.world.notices.get k)
      ∧ (∃ left, t.port.slot = some ⟨0x51, tag, .ok, bigEndian 2 left⟩ ∧ left < 65536
        ∧ ∀ k : Fin 16, left.testBit k.val = (t.world.notices.get k).pending)
      ∧ t.port.mask = s.port.mask
      ∧ (∀ k count first last live, s.port.out = some (.notice k count first last live) →
        t.port.out = some (.notice k count first last (live && !mask.testBit k.val)))

/-- R16, R36, R59, R90, R114, R138, R161, R175, R186, R197: the warm restart, at the end of RESTART's OK
reply or at a break that discards it (R192). An open reach that the last tick event left is acted on first by
the blocks as they stood (R16, log entry 2). A show being built is dropped, its blocks at the tail of the
free-block list. The state timer of a link that is not enabled is 0 (log entry 31). -/
def Obligations.WarmRestartValues : Prop :=
  ∀ (s : State) (i : Instr) (tag : Nat) (body : List Byte), s.held = false →
    (i = .hostFrameSent ∧ s.port.out = some (.reply ⟨0x55, tag, .ok, body⟩))
      ∨ (i = .hostBreak ∧ s.port.breakHeld = false ∧ s.port.slot = some ⟨0x55, tag, .ok, body⟩) →
    let u := s.closeReach
    ∃ t, exec i s = .next t ∧ t.reachOpen = false
      ∧ t.time = { s.time with
        state := if s.time.state = .unset then .unset else .free
        faults := 0
        silence := 0 }
      ∧ t.lib.looks = s.lib.looks ∧ t.lib.openShow = none
      ∧ t.lib.free = (match s.lib.openShow with
        | none => s.lib.free
        | some n => s.lib.free ++ (s.lib.showRec n).blocks)
      ∧ (∀ n, t.lib.showRec n = if s.lib.openShow = some n then ShowRec.blank else s.lib.showRec n)
      ∧ (∀ p, t.world.player p = Player.free) ∧ t.world.plans.wait = []
      ∧ t.world.plans.armSeq = u.world.plans.armSeq
      ∧ (∀ bk, (t.world.bank bk).state = (u.world.bank bk).state
        ∧ (t.world.bank bk).date = (u.world.bank bk).date
        ∧ (t.world.bank bk).list = (u.world.bank bk).list.map fun x =>
          { x with
            armHeld := true
            outcome :=
              let aborted := { x.outcome with
                progress := .aborted
                abrupt := true
                endTick := some s.time.civic
                counters := match u.world.playerOf bk x.booking.id with
                  | some p => (u.world.player p).counters
                  | none => x.outcome.counters }
              match x.outcome.progress with
                | .waitlisted => { x.outcome with progress := .pending }
                | .armed => { x.outcome with progress := .pending }
                | .waiting => aborted
                | .running => aborted
                | .held => aborted
                | .ending => aborted
                | _ => x.outcome })
      ∧ (∀ z, t.world.zone z = { u.world.zone z with claims := [], committed := none, take := none })
      ∧ t.world.groups = []
      ∧ (∀ l, (t.world.link l).enabled = (u.world.link l).enabled
        ∧ (t.world.link l).state = (if (u.world.link l).enabled then .warming else .off)
        ∧ (t.world.link l).power = (u.world.link l).enabled ∧ (t.world.link l).timer = 0
        ∧ (t.world.link l).transfer = none ∧ (t.world.link l).stage = []
        ∧ (t.world.link l).gos = [] ∧ (t.world.link l).deferred = []
        ∧ (∀ g, (t.world.link l).tags.get g = none) ∧ (t.world.link l).bcast = none
        ∧ (t.world.link l).pending = [] ∧ (t.world.link l).errors = []
        ∧ (t.world.link l).errorTotal = (u.world.link l).errorTotal
        ∧ (t.world.link l).lastOp = (u.world.link l).lastOp
        ∧ ∀ a, t.world.driver l a =
          ⟨.absent, 4, 0, none, none, none, none, none, 0, .clear, 0, false⟩)
      ∧ (∀ ch, t.world.monitor.channels.get ch = { u.world.monitor.channels.get ch with
          value := .unknown, streak := 0, sense := none })
      ∧ t.world.monitor.scan = none ∧ t.world.monitor.timer = 0 ∧ t.world.monitor.scanDue = false
      ∧ t.world.monitor.ain = u.world.monitor.ain ∧ t.world.monitor.cin = u.world.monitor.cin
      ∧ t.world.monitor.supplied = u.world.monitor.supplied
      ∧ t.world.ctl.state = .active ∧ t.world.ctl.auto = u.world.ctl.auto
      ∧ t.world.ctl.guard = 0 ∧ t.world.ctl.lastTest = none ∧ (∀ l, t.world.ctl.asleep.get l = false)
      ∧ t.world.ctl.lastChange = some ⟨s.time.civic, .active, .restart⟩
      ∧ (∀ l, t.world.ctl.restartWake.get l =
        ((u.world.link l).enabled && u.world.ctl.state == .dark))
      ∧ t.world.notices.get NoticeKind.warmRestart.no =
        ⟨true, false, 0, some s.time.civic, some s.time.civic⟩
      ∧ (∀ k, k ≠ NoticeKind.warmRestart.no →
        t.world.notices.get k = ⟨false, false, 0, none, none⟩)
      ∧ t.port = { s.port with
        rx := .hunt
        queue := []
        slot := none
        overruns := []
        breakHeld := s.port.breakHeld || i == .hostBreak
        out := if s.port.mask.getLsbD 1 then some (.notice 1 0 s.time.civic s.time.civic true)
          else none }

/-! ## Invariants and encodings -/

/-- The part after reset meets the invariants of the statements below. -/
def Obligations.ResetMeetsInvariants : Prop :=
  State.reset.wf ∧ State.reset.ranked ∧ State.reset.powered ∧ State.reset.pending = []

/-- TABLES 1-1, 2-1 to 2-6 and 10-2, R20, R190, R191: every step keeps the Time Base, the Show Library and the
Host Line Port within their tables: a date of the calendar, each cue block owned once, look 0 dark, the
one BUILDING show the open one, at most four requests waiting and none beside an empty reply slot. -/
def Obligations.EveryStepKeepsWf : Prop :=
  ∀ s t : State, s.wf → step s = .next t → t.wf

/-- R91, R92, R93: every step keeps every claim list in rank order with no player twice, so of at most eight
claims, and the owner is the player of the first. -/
def Obligations.EveryStepKeepsRanks : Prop :=
  ∀ s t : State, s.ranked → step s = .next t →
    t.ranked ∧ ∀ z, (t.world.zone z).claims.length ≤ 8
      ∧ t.world.owner z = (match (t.world.zone z).claims with
        | [] => none
        | c :: _ => some c.player)

/-- R139, R185: every step keeps each link's power output as its state has it, OFF in OFF and FAULTED and ON in
every other state; while RESET is held all are OFF, which the invariant says too. -/
def Obligations.EveryStepKeepsPower : Prop :=
  (∀ s t : State, s.powered → step s = .next t → t.powered)
  ∧ (∀ k : Link, k.powerFits ↔ (k.power = true ↔ k.state ≠ .off ∧ k.state ≠ .faulted))
  ∧ ∀ s t : State, step { s with pending := [.resetAsserted] } = .next t →
    t.held = true ∧ ∀ l, (t.world.link l).power = false

/-- R200, TABLES 7-6 and 11-8: reading a driver's reply from its bytes gives the reply, with every field at
every value its bytes carry. -/
def Obligations.ReplyRoundTrip : Prop :=
  ∀ (poll : Bool) (r : DriverReply), r.fits poll = true → parseReply poll (r.wire poll) = some r
end Statements
end

