-- ==== Sys2Proof/Laws/State.lean ====
section
/-! SUPPORT. Reading a field after an update: tables, the part's state, and the blocks within it. Each is
true by definition or by one case on a table's index. -/

namespace Sys2Proof.Machine

/-! ## Tables -/

namespace Tab

variable {α β : Type} {n : Nat}

@[simp] theorem get_set_self (t : Tab α n) (i : Fin n) (a : α) : (t.set i a).get i = a := by
  simp [get, set]

theorem get_set_ne (t : Tab α n) {i j : Fin n} (a : α) (h : i ≠ j) : (t.set i a).get j = t.get j := by
  simp [get, set, Fin.val_ne_of_ne h]

theorem get_set (t : Tab α n) (i j : Fin n) (a : α) :
    (t.set i a).get j = if i = j then a else t.get j := by
  by_cases h : i = j
  · subst h; simp
  · simp [h, get_set_ne]

@[simp] theorem get_upd_self (t : Tab α n) (i : Fin n) (f : α → α) :
    (t.upd i f).get i = f (t.get i) := by simp [upd]

/-- Two changes of one record are one. -/
theorem upd_upd (t : Tab α n) (i : Fin n) (f g : α → α) :
    (t.upd i f).upd i g = t.upd i (g ∘ f) := by
  simp only [upd, get_set_self]
  simp only [set, List.set_set, Function.comp_def]

theorem get_upd_ne (t : Tab α n) {i j : Fin n} (f : α → α) (h : i ≠ j) :
    (t.upd i f).get j = t.get j := get_set_ne t _ h

theorem get_upd (t : Tab α n) (i j : Fin n) (f : α → α) :
    (t.upd i f).get j = if i = j then f (t.get j) else t.get j := by
  by_cases h : i = j
  · subst h; simp
  · simp [h, get_upd_ne]

@[simp] theorem get_fill (a : α) (i : Fin n) : (fill n a).get i = a := by simp [get, fill]

@[simp] theorem get_map (f : α → β) (t : Tab α n) (i : Fin n) : (t.map f).get i = f (t.get i) := by
  simp [get, map]

@[simp] theorem get_ofFn (f : Fin n → α) (i : Fin n) : (ofFn n f).get i = f i := by
  simp [get, ofFn]

/-- Two tables that agree on every record are equal. -/
theorem ext_get {t u : Tab α n} (h : ∀ i, t.get i = u.get i) : t = u := by
  obtain ⟨l, hl⟩ := t
  obtain ⟨m, hm⟩ := u
  have : l = m := by
    apply List.ext_getElem (by rw [hl, hm])
    intro i h1 _
    exact h ⟨i, by omega⟩
  subst this
  rfl

end Tab
/-! ## Fields of the blocks after an update of one of them -/

namespace World

variable (w : World)
@[simp] theorem onPlayer_plans (p : Fin 8) (f : Player → Player) : (w.onPlayer p f).plans = w.plans := rfl
@[simp] theorem onPlayer_zones (p : Fin 8) (f : Player → Player) : (w.onPlayer p f).zones = w.zones := rfl
@[simp] theorem onPlayer_groups (p : Fin 8) (f : Player → Player) : (w.onPlayer p f).groups = w.groups := rfl
@[simp] theorem onPlayer_links (p : Fin 8) (f : Player → Player) : (w.onPlayer p f).links = w.links := rfl
@[simp] theorem onPlayer_monitor (p : Fin 8) (f : Player → Player) : (w.onPlayer p f).monitor = w.monitor := rfl
@[simp] theorem onPlayer_ctl (p : Fin 8) (f : Player → Player) : (w.onPlayer p f).ctl = w.ctl := rfl
@[simp] theorem onPlayer_notices (p : Fin 8) (f : Player → Player) : (w.onPlayer p f).notices = w.notices := rfl
@[simp] theorem onPlayer_nextRef (p : Fin 8) (f : Player → Player) : (w.onPlayer p f).nextRef = w.nextRef := rfl

@[simp] theorem onZone_plans (z : Fin 64) (f : Zone → Zone) : (w.onZone z f).plans = w.plans := rfl
@[simp] theorem onZone_players (z : Fin 64) (f : Zone → Zone) : (w.onZone z f).players = w.players := rfl
@[simp] theorem onZone_groups (z : Fin 64) (f : Zone → Zone) : (w.onZone z f).groups = w.groups := rfl
@[simp] theorem onZone_links (z : Fin 64) (f : Zone → Zone) : (w.onZone z f).links = w.links := rfl
@[simp] theorem onZone_monitor (z : Fin 64) (f : Zone → Zone) : (w.onZone z f).monitor = w.monitor := rfl
@[simp] theorem onZone_ctl (z : Fin 64) (f : Zone → Zone) : (w.onZone z f).ctl = w.ctl := rfl
@[simp] theorem onZone_notices (z : Fin 64) (f : Zone → Zone) : (w.onZone z f).notices = w.notices := rfl
@[simp] theorem onZone_nextRef (z : Fin 64) (f : Zone → Zone) : (w.onZone z f).nextRef = w.nextRef := rfl

@[simp] theorem onLink_plans (l : Fin 4) (f : Link → Link) : (w.onLink l f).plans = w.plans := rfl
@[simp] theorem onLink_players (l : Fin 4) (f : Link → Link) : (w.onLink l f).players = w.players := rfl
@[simp] theorem onLink_zones (l : Fin 4) (f : Link → Link) : (w.onLink l f).zones = w.zones := rfl
@[simp] theorem onLink_groups (l : Fin 4) (f : Link → Link) : (w.onLink l f).groups = w.groups := rfl
@[simp] theorem onLink_monitor (l : Fin 4) (f : Link → Link) : (w.onLink l f).monitor = w.monitor := rfl
@[simp] theorem onLink_ctl (l : Fin 4) (f : Link → Link) : (w.onLink l f).ctl = w.ctl := rfl
@[simp] theorem onLink_notices (l : Fin 4) (f : Link → Link) : (w.onLink l f).notices = w.notices := rfl
@[simp] theorem onLink_nextRef (l : Fin 4) (f : Link → Link) : (w.onLink l f).nextRef = w.nextRef := rfl

@[simp] theorem onDriver_plans (l : Fin 4) (a : Fin 16) (f : Driver → Driver) : (w.onDriver l a f).plans = w.plans := rfl
@[simp] theorem onDriver_players (l : Fin 4) (a : Fin 16) (f : Driver → Driver) : (w.onDriver l a f).players = w.players := rfl
@[simp] theorem onDriver_zones (l : Fin 4) (a : Fin 16) (f : Driver → Driver) : (w.onDriver l a f).zones = w.zones := rfl
@[simp] theorem onDriver_groups (l : Fin 4) (a : Fin 16) (f : Driver → Driver) : (w.onDriver l a f).groups = w.groups := rfl
@[simp] theorem onDriver_monitor (l : Fin 4) (a : Fin 16) (f : Driver → Driver) : (w.onDriver l a f).monitor = w.monitor := rfl
@[simp] theorem onDriver_ctl (l : Fin 4) (a : Fin 16) (f : Driver → Driver) : (w.onDriver l a f).ctl = w.ctl := rfl
@[simp] theorem onDriver_notices (l : Fin 4) (a : Fin 16) (f : Driver → Driver) : (w.onDriver l a f).notices = w.notices := rfl
@[simp] theorem onDriver_nextRef (l : Fin 4) (a : Fin 16) (f : Driver → Driver) : (w.onDriver l a f).nextRef = w.nextRef := rfl

@[simp] theorem onBank_players (bk : Bank) (f : BankRec → BankRec) : (w.onBank bk f).players = w.players := rfl
@[simp] theorem onBank_zones (bk : Bank) (f : BankRec → BankRec) : (w.onBank bk f).zones = w.zones := rfl
@[simp] theorem onBank_groups (bk : Bank) (f : BankRec → BankRec) : (w.onBank bk f).groups = w.groups := rfl
@[simp] theorem onBank_links (bk : Bank) (f : BankRec → BankRec) : (w.onBank bk f).links = w.links := rfl
@[simp] theorem onBank_monitor (bk : Bank) (f : BankRec → BankRec) : (w.onBank bk f).monitor = w.monitor := rfl
@[simp] theorem onBank_ctl (bk : Bank) (f : BankRec → BankRec) : (w.onBank bk f).ctl = w.ctl := rfl
@[simp] theorem onBank_notices (bk : Bank) (f : BankRec → BankRec) : (w.onBank bk f).notices = w.notices := rfl
@[simp] theorem onBank_nextRef (bk : Bank) (f : BankRec → BankRec) : (w.onBank bk f).nextRef = w.nextRef := rfl

@[simp] theorem onOutcome_players (bk : Bank) (id : Nat) (f : Report → Report) : (w.onOutcome bk id f).players = w.players := rfl
@[simp] theorem onOutcome_zones (bk : Bank) (id : Nat) (f : Report → Report) : (w.onOutcome bk id f).zones = w.zones := rfl
@[simp] theorem onOutcome_groups (bk : Bank) (id : Nat) (f : Report → Report) : (w.onOutcome bk id f).groups = w.groups := rfl
@[simp] theorem onOutcome_links (bk : Bank) (id : Nat) (f : Report → Report) : (w.onOutcome bk id f).links = w.links := rfl
@[simp] theorem onOutcome_monitor (bk : Bank) (id : Nat) (f : Report → Report) : (w.onOutcome bk id f).monitor = w.monitor := rfl
@[simp] theorem onOutcome_ctl (bk : Bank) (id : Nat) (f : Report → Report) : (w.onOutcome bk id f).ctl = w.ctl := rfl
@[simp] theorem onOutcome_notices (bk : Bank) (id : Nat) (f : Report → Report) : (w.onOutcome bk id f).notices = w.notices := rfl
@[simp] theorem onOutcome_nextRef (bk : Bank) (id : Nat) (f : Report → Report) : (w.onOutcome bk id f).nextRef = w.nextRef := rfl

@[simp] theorem raise_plans (e : Env) (k : NoticeKind) : (w.raise e k).plans = w.plans := rfl
@[simp] theorem raise_players (e : Env) (k : NoticeKind) : (w.raise e k).players = w.players := rfl
@[simp] theorem raise_zones (e : Env) (k : NoticeKind) : (w.raise e k).zones = w.zones := rfl
@[simp] theorem raise_groups (e : Env) (k : NoticeKind) : (w.raise e k).groups = w.groups := rfl
@[simp] theorem raise_links (e : Env) (k : NoticeKind) : (w.raise e k).links = w.links := rfl
@[simp] theorem raise_monitor (e : Env) (k : NoticeKind) : (w.raise e k).monitor = w.monitor := rfl
@[simp] theorem raise_ctl (e : Env) (k : NoticeKind) : (w.raise e k).ctl = w.ctl := rfl
@[simp] theorem raise_nextRef (e : Env) (k : NoticeKind) : (w.raise e k).nextRef = w.nextRef := rfl

@[simp] theorem setChannel_plans (ch : Fin 8) (c : Channel) : (w.setChannel ch c).plans = w.plans := rfl
@[simp] theorem setChannel_players (ch : Fin 8) (c : Channel) : (w.setChannel ch c).players = w.players := rfl
@[simp] theorem setChannel_zones (ch : Fin 8) (c : Channel) : (w.setChannel ch c).zones = w.zones := rfl
@[simp] theorem setChannel_groups (ch : Fin 8) (c : Channel) : (w.setChannel ch c).groups = w.groups := rfl
@[simp] theorem setChannel_links (ch : Fin 8) (c : Channel) : (w.setChannel ch c).links = w.links := rfl
@[simp] theorem setChannel_ctl (ch : Fin 8) (c : Channel) : (w.setChannel ch c).ctl = w.ctl := rfl
@[simp] theorem setChannel_notices (ch : Fin 8) (c : Channel) : (w.setChannel ch c).notices = w.notices := rfl
@[simp] theorem setChannel_nextRef (ch : Fin 8) (c : Channel) : (w.setChannel ch c).nextRef = w.nextRef := rfl

@[simp] theorem onPlayer_player (p q : Fin 8) (f : Player → Player) :
    (w.onPlayer p f).player q = if p = q then f (w.player q) else w.player q := Tab.get_upd _ _ _ _

@[simp] theorem onZone_zone (z y : Fin 64) (f : Zone → Zone) :
    (w.onZone z f).zone y = if z = y then f (w.zone y) else w.zone y := Tab.get_upd _ _ _ _

/-- Two changes of one link are one. -/
theorem onLink_onLink (l : Fin 4) (f g : Link → Link) :
    (w.onLink l f).onLink l g = w.onLink l (g ∘ f) := by
  simp only [onLink, Tab.upd_upd, Function.comp_def]

@[simp] theorem onLink_link (l m : Fin 4) (f : Link → Link) :
    (w.onLink l f).link m = if l = m then f (w.link m) else w.link m := Tab.get_upd _ _ _ _

@[simp] theorem onPlayer_zone (p : Fin 8) (f : Player → Player) (y : Fin 64) : (w.onPlayer p f).zone y = w.zone y := rfl
@[simp] theorem onPlayer_link (p : Fin 8) (f : Player → Player) (m : Fin 4) : (w.onPlayer p f).link m = w.link m := rfl
@[simp] theorem onZone_player (z : Fin 64) (f : Zone → Zone) (q : Fin 8) : (w.onZone z f).player q = w.player q := rfl
@[simp] theorem onZone_link (z : Fin 64) (f : Zone → Zone) (m : Fin 4) : (w.onZone z f).link m = w.link m := rfl
@[simp] theorem onLink_player (l : Fin 4) (f : Link → Link) (q : Fin 8) : (w.onLink l f).player q = w.player q := rfl
@[simp] theorem onLink_zone (l : Fin 4) (f : Link → Link) (y : Fin 64) : (w.onLink l f).zone y = w.zone y := rfl
@[simp] theorem onDriver_player (l : Fin 4) (a : Fin 16) (f : Driver → Driver) (q : Fin 8) : (w.onDriver l a f).player q = w.player q := rfl
@[simp] theorem onDriver_zone (l : Fin 4) (a : Fin 16) (f : Driver → Driver) (y : Fin 64) : (w.onDriver l a f).zone y = w.zone y := rfl
@[simp] theorem onBank_player (bk : Bank) (f : BankRec → BankRec) (q : Fin 8) : (w.onBank bk f).player q = w.player q := rfl
@[simp] theorem onBank_zone (bk : Bank) (f : BankRec → BankRec) (y : Fin 64) : (w.onBank bk f).zone y = w.zone y := rfl
@[simp] theorem onBank_link (bk : Bank) (f : BankRec → BankRec) (m : Fin 4) : (w.onBank bk f).link m = w.link m := rfl
@[simp] theorem onOutcome_player (bk : Bank) (id : Nat) (f : Report → Report) (q : Fin 8) : (w.onOutcome bk id f).player q = w.player q := rfl
@[simp] theorem onOutcome_zone (bk : Bank) (id : Nat) (f : Report → Report) (y : Fin 64) : (w.onOutcome bk id f).zone y = w.zone y := rfl
@[simp] theorem onOutcome_link (bk : Bank) (id : Nat) (f : Report → Report) (m : Fin 4) : (w.onOutcome bk id f).link m = w.link m := rfl
@[simp] theorem raise_player (e : Env) (k : NoticeKind) (q : Fin 8) : (w.raise e k).player q = w.player q := rfl
@[simp] theorem raise_zone (e : Env) (k : NoticeKind) (y : Fin 64) : (w.raise e k).zone y = w.zone y := rfl
@[simp] theorem raise_link (e : Env) (k : NoticeKind) (m : Fin 4) : (w.raise e k).link m = w.link m := rfl
@[simp] theorem setChannel_player (ch : Fin 8) (c : Channel) (q : Fin 8) : (w.setChannel ch c).player q = w.player q := rfl
@[simp] theorem setChannel_zone (ch : Fin 8) (c : Channel) (y : Fin 64) : (w.setChannel ch c).zone y = w.zone y := rfl
@[simp] theorem setChannel_link (ch : Fin 8) (c : Channel) (m : Fin 4) : (w.setChannel ch c).link m = w.link m := rfl

@[simp] theorem onBank_bank (bk : Bank) (f : BankRec → BankRec) : (w.onBank bk f).bank bk = f (w.bank bk) := by
  cases bk <;> rfl

theorem onBank_bank_other (bk : Bank) (f : BankRec → BankRec) :
    (w.onBank bk f).bank bk.other = w.bank bk.other := by
  cases bk <;> rfl

@[simp] theorem onBank_wait (bk : Bank) (f : BankRec → BankRec) :
    (w.onBank bk f).plans.wait = w.plans.wait := by
  cases bk <;> rfl

@[simp] theorem onBank_armSeq (bk : Bank) (f : BankRec → BankRec) :
    (w.onBank bk f).plans.armSeq = w.plans.armSeq := by
  cases bk <;> rfl

@[simp] theorem each_nil {α : Type} (f : α → World → World) : w.each [] f = w := rfl

@[simp] theorem each_cons {α : Type} (x : α) (xs : List α) (f : α → World → World) :
    w.each (x :: xs) f = (f x w).each xs f := rfl

/-- What every turn keeps, the whole run keeps. -/
theorem each_induct {α : Type} (P : World → Prop) (f : α → World → World)
    (h : ∀ x v, P v → P (f x v)) : ∀ (xs : List α) (w : World), P w → P (w.each xs f)
  | [], _, hw => hw
  | x :: xs, w, hw => each_induct P f h xs (f x w) (h x w hw)

end World

/-! ## Fields of the port after the output has chosen -/

@[simp] theorem Port.choose_rx (t : Tab Notice 16) (p : Port) : (p.choose t).rx = p.rx := by
  unfold Port.choose; split <;> rfl

@[simp] theorem Port.choose_queue (t : Tab Notice 16) (p : Port) : (p.choose t).queue = p.queue := by
  unfold Port.choose; split <;> rfl

@[simp] theorem Port.choose_slot (t : Tab Notice 16) (p : Port) : (p.choose t).slot = p.slot := by
  unfold Port.choose; split <;> rfl

@[simp] theorem Port.choose_checkErrors (t : Tab Notice 16) (p : Port) : (p.choose t).checkErrors = p.checkErrors := by
  unfold Port.choose; split <;> rfl

@[simp] theorem Port.choose_overrunCount (t : Tab Notice 16) (p : Port) : (p.choose t).overrunCount = p.overrunCount := by
  unfold Port.choose; split <;> rfl

@[simp] theorem Port.choose_mask (t : Tab Notice 16) (p : Port) : (p.choose t).mask = p.mask := by
  unfold Port.choose; split <;> rfl

@[simp] theorem Port.choose_rateHigh (t : Tab Notice 16) (p : Port) : (p.choose t).rateHigh = p.rateHigh := by
  unfold Port.choose; split <;> rfl

@[simp] theorem Port.choose_breakHeld (t : Tab Notice 16) (p : Port) : (p.choose t).breakHeld = p.breakHeld := by
  unfold Port.choose; split <;> rfl

/-! ## Fields of the state -/

namespace State

variable (s : State)
@[simp] theorem onWorld_time (f : Env → World → World) : (s.onWorld f).time = s.time := rfl
@[simp] theorem onWorld_lib (f : Env → World → World) : (s.onWorld f).lib = s.lib := rfl
@[simp] theorem onWorld_port (f : Env → World → World) : (s.onWorld f).port = s.port := rfl
@[simp] theorem onWorld_reachOpen (f : Env → World → World) : (s.onWorld f).reachOpen = s.reachOpen := rfl
@[simp] theorem onWorld_held (f : Env → World → World) : (s.onWorld f).held = s.held := rfl
@[simp] theorem onWorld_freeCount (f : Env → World → World) : (s.onWorld f).freeCount = s.freeCount := rfl
@[simp] theorem onWorld_pending (f : Env → World → World) : (s.onWorld f).pending = s.pending := rfl
@[simp] theorem onWorld_world (f : Env → World → World) : (s.onWorld f).world = f s.env s.world := rfl
@[simp] theorem onWorld_env (f : Env → World → World) : (s.onWorld f).env = s.env := rfl
@[simp] theorem raise_time (k : NoticeKind) : (s.raise k).time = s.time := rfl
@[simp] theorem raise_lib (k : NoticeKind) : (s.raise k).lib = s.lib := rfl
@[simp] theorem raise_port (k : NoticeKind) : (s.raise k).port = s.port := rfl
@[simp] theorem raise_reachOpen (k : NoticeKind) : (s.raise k).reachOpen = s.reachOpen := rfl
@[simp] theorem raise_held (k : NoticeKind) : (s.raise k).held = s.held := rfl
@[simp] theorem raise_freeCount (k : NoticeKind) : (s.raise k).freeCount = s.freeCount := rfl
@[simp] theorem raise_pending (k : NoticeKind) : (s.raise k).pending = s.pending := rfl

@[simp] theorem choose_time : s.choose.time = s.time := rfl
@[simp] theorem choose_lib : s.choose.lib = s.lib := rfl
@[simp] theorem choose_world : s.choose.world = s.world := rfl
@[simp] theorem choose_reachOpen : s.choose.reachOpen = s.reachOpen := rfl
@[simp] theorem choose_held : s.choose.held = s.held := rfl
@[simp] theorem choose_freeCount : s.choose.freeCount = s.freeCount := rfl
@[simp] theorem choose_pending : s.choose.pending = s.pending := rfl
@[simp] theorem choose_env : s.choose.env = s.env := rfl

@[simp] theorem choose_rx : s.choose.port.rx = s.port.rx := Port.choose_rx _ _
@[simp] theorem choose_queue : s.choose.port.queue = s.port.queue := Port.choose_queue _ _
@[simp] theorem choose_slot : s.choose.port.slot = s.port.slot := Port.choose_slot _ _
@[simp] theorem choose_checkErrors : s.choose.port.checkErrors = s.port.checkErrors := Port.choose_checkErrors _ _
@[simp] theorem choose_overrunCount : s.choose.port.overrunCount = s.port.overrunCount := Port.choose_overrunCount _ _
@[simp] theorem choose_mask : s.choose.port.mask = s.port.mask := Port.choose_mask _ _
@[simp] theorem choose_rateHigh : s.choose.port.rateHigh = s.port.rateHigh := Port.choose_rateHigh _ _
@[simp] theorem choose_breakHeld : s.choose.port.breakHeld = s.port.breakHeld := Port.choose_breakHeld _ _

@[simp] theorem enterTime_lib (t : TimeState) : (s.enterTime t).lib = s.lib := by
  unfold enterTime; split <;> rfl
@[simp] theorem enterTime_port (t : TimeState) : (s.enterTime t).port = s.port := by
  unfold enterTime; split <;> rfl
@[simp] theorem enterTime_reachOpen (t : TimeState) : (s.enterTime t).reachOpen = s.reachOpen := by
  unfold enterTime; split <;> rfl
@[simp] theorem enterTime_held (t : TimeState) : (s.enterTime t).held = s.held := by
  unfold enterTime; split <;> rfl
@[simp] theorem enterTime_freeCount (t : TimeState) : (s.enterTime t).freeCount = s.freeCount := by
  unfold enterTime; split <;> rfl
@[simp] theorem enterTime_pending (t : TimeState) : (s.enterTime t).pending = s.pending := by
  unfold enterTime; split <;> rfl

@[simp] theorem enterTime_time (t : TimeState) : (s.enterTime t).time = { s.time with state := t } := by
  unfold enterTime
  split
  · rename_i h; rw [← h]
  · rfl

end State

end Sys2Proof.Machine
end

