-- ==== Sys2Proof/Laws/Kept.lean ====
section
/-! SUPPORT. One lemma for each operation of the dispatcher, the links and the individual takes: what it
leaves alone (`World.Kept`). Each has the form "kept so far, so kept after it too", so that a chain of
operations is discharged by applying them from the outside in. -/

namespace Sys2Proof.Machine
namespace World.Kept

theorem refl (w : World) : w.Kept w :=
  ⟨rfl, rfl, fun _ => rfl, fun _ _ => rfl, fun _ => rfl, fun _ => rfl, fun _ => rfl, fun _ => rfl,
    fun _ => rfl, fun _ h => h, fun _ h => h, rfl⟩

theorem trans {u v w : World} (h : u.Kept v) (k : v.Kept w) : u.Kept w where
  plans := k.plans.trans h.plans
  monitor := k.monitor.trans h.monitor
  players p := by
    have a := h.players p
    have b := k.players p
    rw [← a, ← b]
  free p hp := by
    have a := h.free p hp
    rw [k.free p (by rw [a]; exact hp), a]
  claims z := (k.claims z).trans (h.claims z)
  configured z := (k.configured z).trans (h.configured z)
  fallback z := (k.fallback z).trans (h.fallback z)
  lead z := (k.lead z).trans (h.lead z)
  enabled l := (k.enabled l).trans (h.enabled l)
  power l hl := k.power l (h.power l hl)
  raised n hn := k.raised n (h.raised n hn)
  ctl := by
    have a := h.ctl
    have b := k.ctl
    rw [← a, ← b]

/-- A player's state is kept. -/
theorem state {w v : World} (h : w.Kept v) (p : Fin 8) : (v.player p).state = (w.player p).state :=
  by
  have a := congrArg Player.state (h.players p)
  exact a

/-- The operating state is kept. -/
theorem opState {w v : World} (h : w.Kept v) : v.ctl.state = w.ctl.state :=
  by
  have a := congrArg Controller.state h.ctl
  exact a

/-- A change of the groups and of the next reference alone. -/
theorem withRest {u w : World} (h : u.Kept w) (g : List GroupRec) (n : Nat) :
    u.Kept { w with groups := g, nextRef := n } :=
  h.trans ⟨rfl, rfl, fun _ => rfl, fun _ _ => rfl, fun _ => rfl, fun _ => rfl, fun _ => rfl, fun _ => rfl,
    fun _ => rfl, fun _ h => h, fun _ h => h, rfl⟩

variable {u w : World}

theorem onLink (h : u.Kept w) (l : Fin 4) (f : Link → Link)
    (hf : (f (w.link l)).enabled = (w.link l).enabled)
    (hp : (w.link l).powerFits → (f (w.link l)).powerFits) : u.Kept (w.onLink l f) := by
  apply h.trans
  refine ⟨rfl, rfl, fun _ => rfl, fun _ _ => rfl, fun _ => rfl, fun _ => rfl, fun _ => rfl,
    fun _ => rfl, fun m => ?_, fun m => ?_, fun _ h => h, rfl⟩
  · rw [onLink_link]; split
    · next e => subst e; exact hf
    · rfl
  · rw [onLink_link]; split
    · next e => subst e; exact hp
    · exact id

theorem onDriver (h : u.Kept w) (l : Fin 4) (a : Fin 16) (f : Driver → Driver) :
    u.Kept (w.onDriver l a f) := h.onLink l _ rfl id

theorem onZone (h : u.Kept w) (z : Fin 64) (f : Zone → Zone)
    (hc : (f (w.zone z)).claims = (w.zone z).claims)
    (hg : (f (w.zone z)).configured = (w.zone z).configured)
    (hf : (f (w.zone z)).fallback = (w.zone z).fallback)
    (hl : (f (w.zone z)).lead = (w.zone z).lead) : u.Kept (w.onZone z f) := by
  apply h.trans
  refine ⟨rfl, rfl, fun _ => rfl, fun _ _ => rfl, fun y => ?_, fun y => ?_, fun y => ?_, fun y => ?_,
    fun _ => rfl,
    fun _ => id, fun _ => id, rfl⟩ <;>
  · rw [onZone_zone]; split
    · next e => subst e; assumption
    · rfl

theorem raise (h : u.Kept w) (e : Env) (k : NoticeKind) : u.Kept (w.raise e k) := by
  apply h.trans
  refine ⟨rfl, rfl, fun _ => rfl, fun _ _ => rfl, fun _ => rfl, fun _ => rfl, fun _ => rfl, fun _ => rfl,
    fun _ => rfl, fun _ => id, fun n hn => ?_, rfl⟩
  simp only [World.raise, Tab.get_upd]
  split
  · simp only [Notice.raise, hn, if_true]
  · exact hn

theorem withGroups (h : u.Kept w) (g : List GroupRec) : u.Kept { w with groups := g } :=
  h.withRest g w.nextRef

theorem withMarks (h : u.Kept w) (a r : Tab Bool 4) :
    u.Kept { w with ctl := { w.ctl with asleep := a, restartWake := r } } := by
  apply h.trans
  exact ⟨rfl, rfl, fun _ => rfl, fun _ _ => rfl, fun _ => rfl, fun _ => rfl, fun _ => rfl, fun _ => rfl,
    fun _ => rfl, fun _ => id, fun _ => id, rfl⟩

theorem each (h : u.Kept w) {α : Type} (xs : List α) (f : α → World → World)
    (hf : ∀ x (v : World), u.Kept v → u.Kept (f x v)) : u.Kept (w.each xs f) := by
  induction xs generalizing w with
  | nil => exact h
  | cons x xs ih => exact ih (hf x w h)

theorem count (h : u.Kept w) (p : Fin 8) (f : Counters → Counters) : u.Kept (w.count p f) := by
  unfold World.count
  split
  · exact h
  · next hn =>
    apply h.trans
    refine ⟨rfl, rfl, fun q => ?_, fun q hq => ?_, fun _ => rfl, fun _ => rfl, fun _ => rfl,
      fun _ => rfl, fun _ => rfl, fun _ => id, fun _ => id, rfl⟩
    · rw [onPlayer_player]; split <;> rfl
    · rw [onPlayer_player, if_neg]; rintro rfl; exact hn hq

theorem countTake (h : u.Kept w) (e : Env) (p : Option (Fin 8)) (f : Counters → Counters) :
    u.Kept (w.countTake e p f) := by
  unfold World.countTake
  split
  · exact h
  · split
    · exact h
    · exact (h.count _ f).raise e _

/-! ## The dispatcher -/

theorem onEntryOf (h : u.Kept w) (l : Fin 4) (ref : Nat) (f : Entry → Entry) :
    u.Kept (w.onEntryOf l ref f) := h.onLink l _ rfl id

theorem setEntry (h : u.Kept w) (l : Fin 4) (ref : Nat) (s : EntryState) : u.Kept (w.setEntry l ref s) :=
  h.onEntryOf l ref _

theorem report (h : u.Kept w) (z : Fin 64) (ref : Nat) (fin : EntryEnd) (look : LookCopy) :
    u.Kept (w.report z ref fin look) := h.onZone z _ rfl rfl rfl rfl

theorem endEntry (h : u.Kept w) (l : Fin 4) (x : Entry) (fin : EntryEnd) :
    u.Kept (w.endEntry l x fin) := (h.onLink l _ rfl id).report _ _ _ _

theorem addEntry (h : u.Kept w) (e : Env) (l : Fin 4) (x : Entry) : u.Kept (w.addEntry e l x) := by
  unfold World.addEntry
  dsimp only
  have h := h.onLink l (fun k => { k with stage := insertBy Entry.before x k.stage }) rfl id
  split
  · exact h.raise e _
  · exact h

theorem withRef (h : u.Kept w) (k : Nat → World → World) (hk : ∀ n v, u.Kept v → u.Kept (k n v)) :
    u.Kept (w.withRef k) := hk _ _ (h.withRest w.groups _)

theorem startDrop (h : u.Kept w) (l : Fin 4) (x : Entry) (stop : DropEnd) (stage : DropStage) :
    u.Kept (w.startDrop l x stop stage) := by
  refine Kept.setEntry ?_ l _ _
  refine h.onLink l _ ?_ ?_
  · split <;> rfl
  · split <;> exact id

theorem removeEntry (h : u.Kept w) (l : Fin 4) (x : Entry) (stop : DropEnd) :
    u.Kept (w.removeEntry l x stop) := by
  unfold World.removeEntry
  split
  all_goals first | exact h.endEntry l x _ | exact h.startDrop l x _ _ | exact h

theorem withdrawEntry (h : u.Kept w) (l : Fin 4) (x : Entry) : u.Kept (w.withdrawEntry l x) :=
  h.removeEntry l x _

theorem discardEntry (h : u.Kept w) (e : Env) (l : Fin 4) (x : Entry) :
    u.Kept (w.discardEntry e l x) := by
  unfold World.discardEntry
  split
  · exact h
  · exact (h.removeEntry l x _).countTake e _ _

theorem eachEntry (h : u.Kept w) (l : Fin 4) (p : Entry → Bool) (f : Entry → World → World)
    (hf : ∀ x v, u.Kept v → u.Kept (f x v)) : u.Kept (w.eachEntry l p f) := h.each _ f hf

theorem onPortions (h : u.Kept w) (l : Fin 4) (p : Fin 8) (id : GroupId)
    (f : List Portion → List Portion) : u.Kept (w.onPortions l p id f) := h.withGroups _

theorem closeTag (h : u.Kept w) (l : Fin 4) (t : Fin 15) : u.Kept (w.closeTag l t) := by
  unfold World.closeTag
  split
  · exact h
  · next hold _ =>
    dsimp only
    have h1 : u.Kept (if (hold.go == .pending &&
        !((w.link l).stage.filter (·.tag == tagNo t)).any Entry.keepsGo) = true
        then w.onLink l (Link.removeGo t) else w) := by
      split
      · exact h.onLink l _ rfl id
      · exact h
    split
    · exact (h1.onLink l _ rfl id).onPortions _ _ _ _
    · exact h1

theorem supersede (h : u.Kept w) (e : Env) (l : Fin 4) (p : Fin 8) (a : Fin 16) (ref : Nat) :
    u.Kept (w.supersede e l p a ref) := h.eachEntry l _ _ fun x _ hv => hv.discardEntry e l x

theorem addMember (h : u.Kept w) (e : Env) (l : Fin 4) (p : Fin 8) (id : GroupId) (due : Nat)
    (t : Fin 15) (lead : Nat) (s : EntryState) (m : Member) :
    u.Kept (w.addMember e l p id due t lead s m) :=
  h.withRef _ fun _ _ hv => (hv.addEntry e l _).supersede e l p _ _

theorem makePortion (h : u.Kept w) (e : Env) (l : Fin 4) (p : Fin 8) (id : GroupId) (due : Nat)
    (ms : List Member) (t : Fin 15) : u.Kept (w.makePortion e l p id due ms t) :=
  Kept.onPortions (Kept.onLink
    (h.each ms _ fun m _ hv => hv.addMember e l p id due t (w.portionLead l ms) .queued m) l _ rfl
    (fun h => h)) l p id _

theorem defer (h : u.Kept w) (l : Fin 4) (p : Fin 8) (id : GroupId) (due : Nat) (ms : List Member) :
    u.Kept (World.placePortion.defer l p id due ms w) := (h.onLink l _ rfl (fun h => h)).onPortions l p id _

theorem placePortion (h : u.Kept w) (e : Env) (l : Fin 4) (p : Fin 8) (id : GroupId) (due : Nat)
    (ms : List Member) : u.Kept (w.placePortion e l p id due ms) := by
  unfold World.placePortion
  split
  · exact h
  · dsimp only
    split
    · split
      · exact h.makePortion e l p id due ms _
      · exact h.defer l p id due ms
    · exact h.defer l p id due ms

theorem addSingle (h : u.Kept w) (e : Env) (l : Fin 4) (ref : Nat) (a : Fin 16) (p : Option (Fin 8))
    (look : LookCopy) (due : Nat) : u.Kept (w.addSingle e l ref a p look due) := h.addEntry e l _

theorem rejudge (h : u.Kept w) (l : Fin 4) (p : Fin 8) (ms : List Member) :
    u.Kept (w.rejudge l p ms).2 := h.each _ _ fun _ _ hv => hv.count p _

theorem dropDeferred (h : u.Kept w) (l : Fin 4) (p : Fin 8) (id : GroupId) :
    u.Kept (w.dropDeferred l p id) := h.onPortions l p id _

theorem makeHead (h : u.Kept w) {e : Env} {l : Fin 4} {v : World} (hv : w.makeHead e l = some v) :
    u.Kept v := by
  unfold World.makeHead at hv
  dsimp only at hv
  split at hv
  · cases hv
  · split at hv
    · cases hv; exact (h.onLink l _ rfl (fun h => h)).addSingle e l _ _ _ _ _
    · cases hv
  · split at hv
    · cases hv
    · split at hv
      · cases hv
        split
        · exact ((h.onLink l _ rfl (fun h => h)).rejudge l _ _).dropDeferred l _ _
        · exact ((h.onLink l _ rfl (fun h => h)).rejudge l _ _).makePortion e l _ _ _ _ _
      · cases hv

theorem closeTags (h : u.Kept w) (l : Fin 4) : u.Kept (w.closeTags l) := by
  apply h.each
  intro t v hv
  exact hv.closeTag l t

theorem retryHead (h : u.Kept w) (e : Env) (l : Fin 4) : u.Kept (w.retryHead e l).1 := by
  unfold World.retryHead
  split
  · split
    · next hv => exact h.makeHead hv
    · exact h.onLink l _ rfl (fun h => h)
  · exact h

theorem retryLink (h : u.Kept w) (e : Env) (l : Fin 4) (n : Nat) : u.Kept (w.retryLink e l n) := by
  induction n generalizing w with
  | zero => exact h.closeTags l
  | succ n ih =>
    unfold World.retryLink
    dsimp only
    split
    · exact ih ((h.closeTags l).retryHead e l)
    · exact (h.closeTags l).retryHead e l

theorem tidyLink (h : u.Kept w) (e : Env) (l : Fin 4) : u.Kept (w.tidyLink e l) := h.retryLink e l _

theorem tidy (h : u.Kept w) (e : Env) : u.Kept (w.tidy e) := h.each _ _ fun l _ hv => hv.tidyLink e l

theorem takeGroup (h : u.Kept w) (e : Env) (p : Fin 8) (id : GroupId) (due : Nat)
    (cues : List CueItem) : u.Kept (w.takeGroup e p id due cues) := by
  unfold World.takeGroup
  dsimp only
  have h1 := h.each ((groupZones cues).filter fun z => w.judge p z.1 == .undeliverable)
    (fun _ w => w.count p Counters.addUndeliverable) fun _ _ hv => hv.count p _
  split
  · exact h1.each _ _ fun _ _ hv => hv.countTake e _ _
  · exact ((h1.withGroups _).each _ _ fun l _ hv => hv.placePortion e l p id due _).tidy e

theorem dropItems (h : u.Kept w) (l : Fin 4) (p : Item → Bool) : u.Kept (w.dropItems l p) := by
  refine (h.onLink l _ rfl (fun h => h)).each _ _ fun i v hv => ?_
  split
  · exact hv.dropDeferred l _ _
  · exact hv.report _ _ _ _

theorem dropMembers (h : u.Kept w) (l : Fin 4) (p : Fin 8) (a : Fin 16) :
    u.Kept (w.dropMembers l p a) := (h.onLink l _ rfl (fun h => h)).dropItems l _

theorem withdrawZone (h : u.Kept w) (e : Env) (p : Fin 8) (z : Fin 64) :
    u.Kept (w.withdrawZone e p z) :=
  (((h.eachEntry _ _ _ fun x _ hv => hv.withdrawEntry _ x).dropMembers _ p _).dropItems _ _).tidy e

theorem withdrawPlayer (h : u.Kept w) (e : Env) (p : Fin 8) : u.Kept (w.withdrawPlayer e p) :=
  ((h.each _ _ fun l _ hv =>
    (hv.eachEntry l _ _ fun x _ hv => hv.withdrawEntry l x).dropItems l _).withGroups _).tidy e

theorem withdrawGroup (h : u.Kept w) (e : Env) (p : Fin 8) (id : GroupId) :
    u.Kept (w.withdrawGroup e p id) :=
  ((h.each _ _ fun l _ hv =>
    (hv.eachEntry l _ _ fun x _ hv => hv.withdrawEntry l x).dropItems l _).withGroups _).tidy e

theorem withdrawTake (h : u.Kept w) (e : Env) (z : Fin 64) : u.Kept (w.withdrawTake e z) := by
  unfold World.withdrawTake
  split
  · exact h
  · exact ((h.eachEntry _ _ _ fun x _ hv => hv.withdrawEntry _ x).dropItems _ _).tidy e

theorem placeSingle (h : u.Kept w) (e : Env) (z : Fin 64) (p : Option (Fin 8)) (look : LookCopy)
    (k : TakeKind) : u.Kept (w.placeSingle e z p look k) := by
  unfold World.placeSingle
  dsimp only
  refine h.withRef _ fun ref v hv => ?_
  have hv := hv.onZone z (fun r => { r with take := some (ref, k) }) rfl rfl rfl rfl
  split
  · exact hv.addSingle e _ _ _ _ _ _
  · exact hv.onLink _ _ rfl (fun h => h)

theorem rejoinGroup (h : u.Kept w) (e : Env) (z : Fin 64) (p : Fin 8) (g : GroupRec)
    (look : LookCopy) : u.Kept (w.rejoinGroup e z p g look) := by
  unfold World.rejoinGroup
  dsimp only
  split
  · exact h.onLink _ _ rfl (fun h => h)
  · split
    · split
      · exact h.placePortion e _ _ _ _ _
      · split
        · exact h.addMember e _ _ _ _ _ _ _ _
        · exact h.countTake e _ _
    · exact h.placePortion e _ _ _ _ _
  · exact h.placePortion e _ _ _ _ _

theorem rejoin (h : u.Kept w) (e : Env) (z : Fin 64) (p : Fin 8) (part : Fin 16) :
    u.Kept (w.rejoin e z p part) := by
  refine Kept.tidy (h.each _ _ fun g v hv => ?_) e
  split
  · exact hv
  · exact hv.rejoinGroup e z p g _

theorem goSent (h : u.Kept w) (e : Env) (l : Fin 4) (t : Fin 15) : u.Kept (w.goSent e l t) := by
  refine Kept.tidy ((h.onLink l _ rfl (fun h => h)).eachEntry l _ _ fun x v hv => ?_) e
  split
  · exact (hv.endEntry l x _).onDriver l _ _
  · exact hv.setEntry l _ _
  · exact hv.setEntry l _ _
  · exact (hv.endEntry l x _).onDriver l _ _
  · exact hv

theorem stageSent (h : u.Kept w) (l : Fin 4) (ref : Nat) : u.Kept (w.stageSent l ref) := by
  unfold World.stageSent
  split
  · exact h
  · exact (h.setEntry l _ _).onDriver l _ _

theorem takeSent (h : u.Kept w) (e : Env) (l : Fin 4) (ref : Nat) : u.Kept (w.takeSent e l ref) := by
  unfold World.takeSent
  split
  · exact h
  · refine Kept.tidy ?_ e
    split
    · exact (h.endEntry l _ _).countTake e _ _
    · exact h.endEntry l _ _

theorem dropSent (h : u.Kept w) (e : Env) (l : Fin 4) (ref : Nat) : u.Kept (w.dropSent e l ref) := by
  unfold World.dropSent
  split
  · exact h
  · split
    · exact (h.setEntry l _ _).tidy e
    · exact h

theorem dropEnded (h : u.Kept w) (e : Env) (l : Fin 4) (ref : Nat) : u.Kept (w.dropEnded e l ref) := by
  unfold World.dropEnded
  split
  · exact h
  · split
    · exact (h.endEntry l _ _).tidy e
    · exact h

theorem entryStaged (h : u.Kept w) (l : Fin 4) (x : Entry) : u.Kept (w.entryStaged l x) := by
  unfold World.entryStaged
  dsimp only
  split
  · split
    · exact (h.setEntry l _ _).onLink l _ rfl (fun h => h)
    · exact h.setEntry l _ _
  · split
    · exact (h.setEntry l _ _).onLink l _ rfl (fun h => h)
    · exact (h.setEntry l _ _).startDrop l _ _ _
  · exact h.startDrop l _ _ _
  · exact h

theorem entryRetried (h : u.Kept w) (l : Fin 4) (x : Entry) : u.Kept (w.entryRetried l x) := by
  unfold World.entryRetried
  split
  · exact h.onEntryOf l _ _
  · exact h.onEntryOf l _ _
  · exact h.endEntry l _ _
  · exact h

theorem loseEntry (h : u.Kept w) (e : Env) (l : Fin 4) (x : Entry) :
    u.Kept (w.loseEntry e l x) := by
  unfold World.loseEntry
  split
  · exact h.endEntry l _ _
  · exact (h.endEntry l _ _).countTake e _ _

theorem stageReply (h : u.Kept w) (e : Env) (l : Fin 4) (ref : Nat) (k : ReplyKind) :
    u.Kept (w.stageReply e l ref k) := by
  unfold World.stageReply
  split
  · exact h
  · refine Kept.tidy ?_ e
    split
    · exact h.entryStaged l _
    · exact h.entryRetried l _
    · exact h.loseEntry e l _
    · exact h

theorem loseEntries (h : u.Kept w) (e : Env) (l : Fin 4) (a : Fin 16) :
    u.Kept (w.loseEntries e l a) := h.eachEntry l _ _ fun x _ hv => hv.loseEntry e l x

theorem driverEntriesEnd (h : u.Kept w) (e : Env) (l : Fin 4) (a : Fin 16) :
    u.Kept (w.driverEntriesEnd e l a) := (h.loseEntries e l a).tidy e

theorem sendTicks (h : u.Kept w) (now : Nat) (l : Fin 4) : u.Kept (w.sendTicks now l) :=
  h.onLink l _ rfl (fun h => h)

theorem expireOn (h : u.Kept w) (e : Env) (g : GroupRec) (l : Fin 4) : u.Kept (w.expireOn e g l) :=
  ((((h.each _ _ fun _ _ hv => hv.onLink l _ rfl (fun h => h)).eachEntry l _ _ fun x _ hv =>
    hv.discardEntry e l x).dropItems l _).each _ _ fun _ _ hv => hv.countTake e _ _)

theorem expire (h : u.Kept w) (e : Env) (g : GroupRec) : u.Kept (w.expire e g) :=
  ((h.each _ _ fun l _ hv => hv.expireOn e g l).withGroups _).tidy e

/-! ## The links -/

theorem enterLink (h : u.Kept w) (e : Env) (l : Fin 4) (s : LinkState) : u.Kept (w.enterLink e l s) :=
  (h.onLink l (fun k => { k with
    state := s, power := s.powered, timer := if s.timed then 0 else k.timer }) rfl fun _ => rfl).raise e _

theorem enterQuiescing (h : u.Kept w) (e : Env) (l : Fin 4) : u.Kept (w.enterQuiescing e l) :=
  (h.enterLink e l _).onLink l _ rfl (fun h => h)

theorem comeUp (h : u.Kept w) (e : Env) (l : Fin 4) : u.Kept (w.comeUp e l) := by
  unfold World.comeUp
  split
  · exact h.enterQuiescing e l
  · exact h.enterLink e l _

theorem loseDriver (h : u.Kept w) (e : Env) (l : Fin 4) (a : Fin 16) (s : DriverState) :
    u.Kept (w.loseDriver e l a s) :=
  ((h.onDriver l a _).onLink l _ rfl (fun h => h)).driverEntriesEnd e l a

theorem dropDriver (h : u.Kept w) (e : Env) (l : Fin 4) (s : DriverState) (a : Fin 16) :
    u.Kept (w.dropDriver e l s a) := by
  unfold World.dropDriver
  split
  · exact h.loseDriver e l a s
  · exact h.onDriver l a _

theorem dropDrivers (h : u.Kept w) (e : Env) (l : Fin 4) (s : DriverState) :
    u.Kept (w.dropDrivers e l s) := h.each _ _ fun a _ hv => hv.dropDriver e l s a

theorem endLongOp (h : u.Kept w) (e : Env) (l : Fin 4) (op : LongOp) : u.Kept (w.endLongOp e l op) :=
  (h.onLink l _ rfl (fun h => h)).raise e _

theorem abandonLongOp (h : u.Kept w) (e : Env) (l : Fin 4) : u.Kept (w.abandonLongOp e l) := by
  unfold World.abandonLongOp
  dsimp only
  split
  · exact h.endLongOp e l _
  · exact h.endLongOp e l _
  · exact h

theorem linkOff (h : u.Kept w) (e : Env) (l : Fin 4) : u.Kept (w.linkOff e l) := by
  unfold World.linkOff
  split
  · exact h
  · exact ((((h.abandonLongOp e l).onLink l _ rfl (fun h => h)).dropDrivers e l _).enterLink e l
      _).withMarks _ _

theorem linkFault (h : u.Kept w) (e : Env) (l : Fin 4) : u.Kept (w.linkFault e l) :=
  ((((h.abandonLongOp e l).onLink l _ rfl (fun h => h)).dropDrivers e l _).raise e _).enterLink e l _

theorem lineError (h : u.Kept w) (e : Env) (l : Fin 4) : u.Kept (w.lineError e l) := by
  unfold World.lineError
  dsimp only
  have h := h.onLink l (fun k => { k with
    errorTotal := satUp Config.counterMax k.errorTotal
    errors := k.errors.filter (· < 100) ++ [0] }) rfl (fun h => h)
  split
  · exact h.linkFault e l
  · exact h

theorem linkAsleep (h : u.Kept w) (e : Env) (l : Fin 4) : u.Kept (w.linkAsleep e l) :=
  (h.enterLink e l _).withMarks _ _

theorem quiesceOrder (h : u.Kept w) (e : Env) (l : Fin 4) : u.Kept (w.quiesceOrder e l) := by
  unfold World.quiesceOrder
  split
  · exact h.enterQuiescing e l
  · exact h

theorem wakeOrder (h : u.Kept w) (l : Fin 4) : u.Kept (w.wakeOrder l) := by
  unfold World.wakeOrder
  split
  · exact h.onLink l _ rfl (fun h => h)
  · exact h

theorem claimReaches (h : u.Kept w) (e : Env) (l : Fin 4) : u.Kept (w.claimReaches e l) := by
  unfold World.claimReaches
  split
  · exact (h.endLongOp e l _).comeUp e l
  · exact h

theorem warmUp (h : u.Kept w) (e : Env) (l : Fin 4) : u.Kept (w.warmUp e l) := by
  unfold World.warmUp
  split
  · exact h.enterLink e l _
  · exact h

/-! ## Individual takes -/

theorem makeTake (h : u.Kept w) (e : Env) (z : Fin 64) (p : Option (Fin 8)) (look : LookCopy)
    (k : TakeKind) : u.Kept (w.makeTake e z p look k) := (h.withdrawTake e z).placeSingle e z p look k

theorem fallbackTake (h : u.Kept w) (e : Env) (z : Fin 64) : u.Kept (w.fallbackTake e z) := by
  unfold World.fallbackTake
  split
  · exact h.makeTake e z _ _ _
  · exact h

theorem rejoinOwner (h : u.Kept w) (e : Env) (z : Fin 64) : u.Kept (w.rejoinOwner e z) := by
  unfold World.rejoinOwner
  split
  · exact h
  · exact h.rejoin e z _ _

theorem gain (h : u.Kept w) (e : Env) (z : Fin 64) : u.Kept (w.gain e z) := by
  unfold World.gain
  split
  · refine Kept.rejoinOwner ?_ e z
    split
    · exact h.makeTake e z _ _ _
    · exact h
  · exact h

theorem returnLook (h : u.Kept w) (e : Env) (z : Fin 64) : u.Kept (w.returnLook e z) := by
  unfold World.returnLook
  split
  · exact h.makeTake e z _ _ _
  · exact h.makeTake e z _ _ _
  · exact h.fallbackTake e z

theorem returnTake (h : u.Kept w) (e : Env) (z : Fin 64) : u.Kept (w.returnTake e z) :=
  (h.returnLook e z).rejoinOwner e z

theorem restoreTake (h : u.Kept w) (e : Env) (z : Fin 64) : u.Kept (w.restoreTake e z) := by
  unfold World.restoreTake
  split
  · split
    · exact h.makeTake e z _ _ _
    · exact h.makeTake e z _ _ _
    · exact h.returnLook e z
  · exact h

/-! ## The wires -/

theorem startTransfer (h : u.Kept w) (l : Fin 4) (f : TxFrame) (a : Fin 16) :
    u.Kept (w.startTransfer l f a) := h.onLink l _ rfl (fun h => h)

theorem startBroadcast (h : u.Kept w) (l : Fin 4) (x : Broadcast) : u.Kept (w.startBroadcast l x) :=
  h.onLink l _ rfl (fun h => h)

theorem sendForce (h : u.Kept w) (e : Env) (l : Fin 4) : u.Kept (w.sendForce e l) :=
  ((((h.onLink l _ rfl (fun h => h)).startBroadcast l _).dropDrivers e l _).linkAsleep e l)

theorem sendWake (h : u.Kept w) (e : Env) (l : Fin 4) : u.Kept (w.sendWake e l) :=
  ((h.onLink l _ rfl (fun h => h)).startBroadcast l _).enterLink e l _

theorem restartWake (h : u.Kept w) {l : Fin 4} {v : World} (hv : w.restartWake l = some v) :
    u.Kept v := by
  unfold World.restartWake at hv
  split at hv
  · cases hv; exact h.startBroadcast l _
  · cases hv

theorem sendGoOrPending (h : u.Kept w) {l : Fin 4} {v : World} (hv : w.sendGoOrPending l = some v) :
    u.Kept v := by
  unfold World.sendGoOrPending at hv
  dsimp only at hv
  split at hv
  · cases hv; exact h.startBroadcast l _
  · cases hv; exact (h.onLink l _ rfl (fun h => h)).startTransfer l _ _
  · cases hv

theorem sendStage (h : u.Kept w) {l : Fin 4} {v : World} (hv : w.sendStage l = some v) : u.Kept v := by
  unfold World.sendStage at hv
  obtain ⟨x, _, rfl⟩ := Option.map_eq_some_iff.mp hv
  exact h.startTransfer l _ _

theorem sendRefresh (h : u.Kept w) {l : Fin 4} {v : World} (hv : w.sendRefresh l = some v) :
    u.Kept v := by
  unfold World.sendRefresh at hv
  obtain ⟨a, _, ha⟩ := List.exists_of_findSome?_eq_some hv
  split at ha
  · obtain ⟨x, _, rfl⟩ := Option.map_eq_some_iff.mp ha
    exact h.startTransfer l _ _
  · cases ha

theorem sendPoll (h : u.Kept w) {l : Fin 4} {v : World} (hv : w.sendPoll l = some v) : u.Kept v := by
  unfold World.sendPoll at hv
  obtain ⟨x, _, rfl⟩ := Option.map_eq_some_iff.mp hv
  exact h.startTransfer l _ _

theorem scanTurn (h : u.Kept w) {l : Fin 4} {v : World} (hv : w.scanTurn l = some v) :
    u.Kept v := by
  unfold World.scanTurn at hv
  split at hv
  · cases hv
  · split at hv
    · cases hv; exact h.onLink l _ rfl (fun h => h)
    · split at hv
      · cases hv
      · cases hv; exact h.startTransfer l _ _

theorem calTurn (h : u.Kept w) {l : Fin 4} {v : World} (hv : w.calTurn l = some v) :
    u.Kept v := by
  unfold World.calTurn at hv
  split at hv
  · cases hv
  · split at hv
    · cases hv
    · split at hv
      · cases hv; exact (h.onLink l _ rfl (fun h => h)).startTransfer l _ _
      · cases hv
      · cases hv; exact h.onLink l _ rfl (fun h => h)

theorem quiesceTurn (h : u.Kept w) {l : Fin 4} {v : World}
    (hv : w.quiesceTurn l = some v) : u.Kept v := by
  obtain ⟨x, _, rfl⟩ := Option.map_eq_some_iff.mp hv
  exact (h.onDriver l _ _).startTransfer l _ _

theorem chooseFrame (h : u.Kept w) {e : Env} {l : Fin 4} {v : World}
    (hv : w.chooseFrame e l = some v) : u.Kept v := by
  unfold World.chooseFrame firstOf at hv
  dsimp only at hv
  split at hv
  · cases hv
  · split at hv
    · cases hv; exact h.sendForce e l
    · split at hv
      · cases hv; exact h.sendWake e l
      · split at hv
        all_goals first
          | cases hv
          | obtain ⟨o, ho, hv⟩ := List.exists_of_findSome?_eq_some hv
            simp only [List.mem_cons, List.not_mem_nil, or_false] at ho
            cases hv
            rcases ho with ho | ho | ho | ho | ho
            all_goals first
              | exact h.restartWake ho.symm
              | exact h.sendGoOrPending ho.symm
              | exact h.sendStage ho.symm
              | exact h.sendRefresh ho.symm
              | exact h.sendPoll ho.symm
          | obtain ⟨o, ho, hv⟩ := List.exists_of_findSome?_eq_some hv
            simp only [List.mem_cons, List.not_mem_nil, or_false] at ho
            cases hv
            rcases ho with ho | ho | ho
            all_goals first
              | exact h.sendGoOrPending ho.symm
              | exact h.sendStage ho.symm
              | exact h.calTurn ho.symm
              | exact h.quiesceTurn ho.symm
          | obtain ⟨o, ho, hv⟩ := List.exists_of_findSome?_eq_some hv
            simp only [List.mem_cons, List.not_mem_nil, or_false] at ho
            cases hv
            rcases ho with ho | ho
            all_goals first
              | exact h.sendGoOrPending ho.symm
              | exact h.scanTurn ho.symm

theorem choose (h : u.Kept w) {e : Env} {l : Fin 4} {v : World} (hv : w.choose e l = some v) :
    u.Kept v := by
  unfold World.choose at hv
  split at hv
  · cases hv; exact (h.endLongOp e l _).comeUp e l
  · split at hv
    · cases hv; exact h.linkAsleep e l
    · exact h.chooseFrame hv

theorem pumpFor (h : u.Kept w) (e : Env) (l : Fin 4) (n : Nat) : u.Kept (w.pumpFor e l n) := by
  induction n generalizing w with
  | zero => exact h
  | succ n ih =>
    unfold World.pumpFor
    split
    · exact h
    · next hv => exact ih (h.choose hv)

theorem pump (h : u.Kept w) (e : Env) (l : Fin 4) : u.Kept (w.pump e l) := h.pumpFor e l _

theorem pumpAll (h : u.Kept w) (e : Env) : u.Kept (w.pumpAll e) := h.each _ _ fun l _ hv => hv.pump e l

theorem reportSent (h : u.Kept w) (e : Env) (l : Fin 4) (f : TxFrame) : u.Kept (w.reportSent e l f) := by
  unfold World.reportSent
  split
  · exact h.stageSent l _
  · exact h.takeSent e l _
  · exact h.dropSent e l _
  · exact h

theorem wakeSent (h : u.Kept w) (l : Fin 4) : u.Kept (w.wakeSent l) := by
  unfold World.wakeSent
  split
  · exact h
  · exact h.withMarks _ _

theorem frameSent (h : u.Kept w) (e : Env) (l : Fin 4) : u.Kept (w.frameSent e l) := by
  unfold World.frameSent
  split
  · dsimp only
    split
    · exact (h.onLink l _ rfl (fun h => h)).goSent e l _
    · exact (h.onLink l _ rfl (fun h => h)).wakeSent l
    · exact h.onLink l _ rfl (fun h => h)
  · split
    · dsimp only
      split
      · exact (h.onLink l _ rfl (fun h => h)).onDriver l _ _
      · exact ((h.onLink l _ rfl (fun h => h)).onDriver l _ _).reportSent e l _
    · exact h
  · exact h

theorem scanOn (h : u.Kept w) (l : Fin 4) (a : Fin 16) : u.Kept (w.scanOn l a) :=
  h.onLink l _ rfl (fun h => h)

theorem driverFails (h : u.Kept w) (e : Env) (l : Fin 4) (a : Fin 16) : u.Kept (w.driverFails e l a) :=
  (h.dropDriver e l _ a).raise e _

theorem transferFails (h : u.Kept w) (e : Env) (l : Fin 4) (t : Transfer) :
    u.Kept (w.transferFails e l t) := by
  unfold World.transferFails
  dsimp only
  have h := h.onLink l (fun k => { k with transfer := none }) rfl (fun h => h)
  split
  · refine Kept.scanOn ?_ l _
    split
    · exact h.dropDriver e l _ _
    · exact h.driverFails e l _
  · exact h.onDriver l _ _
  · exact h
  · exact h.driverFails e l _

theorem attemptFails (h : u.Kept w) (e : Env) (l : Fin 4) (t : Transfer) :
    u.Kept (w.attemptFails e l t) := by
  unfold World.attemptFails
  split
  · exact h.onLink l _ rfl (fun h => h)
  · exact h.transferFails e l t

theorem timeout (h : u.Kept w) (e : Env) (l : Fin 4) : u.Kept (w.timeout e l) := by
  unfold World.timeout
  split
  · split
    · exact h.attemptFails e l _
    · exact h
  · exact h

theorem pollTaken (h : u.Kept w) (e : Env) (l : Fin 4) (t : Transfer) (flush scan : Bool)
    (r : DriverReply) : u.Kept (w.pollTaken e l t flush scan r) := by
  unfold World.pollTaken
  dsimp only
  have h := h.onDriver l t.addr (Driver.status r)
  cases flush <;> cases scan <;> simp only [Bool.false_and, Bool.true_and, Bool.false_eq_true,
    if_false, if_true]
  · exact h
  · exact h.scanOn l _
  · split
    · exact (h.onDriver l _ _).returnTake e _
    · exact h.onDriver l _ _
  · split
    · exact ((h.scanOn l _).onDriver l _ _).returnTake e _
    · exact (h.scanOn l _).onDriver l _ _

theorem stageTaken (h : u.Kept w) (e : Env) (l : Fin 4) (a : Fin 16) (ref : Nat) (k : ReplyKind) :
    u.Kept (w.stageTaken e l a ref k) := (h.onDriver l a _).stageReply e l ref k

theorem badReply (h : u.Kept w) (e : Env) (l : Fin 4) : u.Kept (w.badReply e l) := by
  unfold World.badReply
  dsimp only
  split
  · exact (h.lineError e l).attemptFails e l _
  · exact h.lineError e l

theorem frames (h : u.Kept w) (l : Fin 4) : u.Kept (w.frames l) := h.onLink l _ rfl (fun h => h)

theorem noFrame (h : u.Kept w) (e : Env) (l : Fin 4) : u.Kept (w.noFrame e l) :=
  (h.badReply e l).onLink l _ rfl (fun h => h)

theorem backoffExpiry (h : u.Kept w) (l : Fin 4) (a : Fin 16) : u.Kept (w.backoffExpiry l a) :=
  (h.onLink l _ rfl (fun h => h)).onDriver l a _

theorem errorsAge (h : u.Kept w) (l : Fin 4) : u.Kept (w.errorsAge l) := h.onLink l _ rfl (fun h => h)

theorem enterScan (h : u.Kept w) (e : Env) (l : Fin 4) : u.Kept (w.enterScan e l) :=
  (h.enterLink e l _).onLink l _ rfl (fun h => h)

theorem warmUpEnd (h : u.Kept w) (e : Env) (l : Fin 4) : u.Kept (w.warmUpEnd e l) := by
  unfold World.warmUpEnd
  split
  · exact h.enterScan e l
  · exact h

theorem restEnd (h : u.Kept w) (e : Env) (l : Fin 4) : u.Kept (w.restEnd e l) := by
  unfold World.restEnd
  split
  · exact h.enterLink e l _
  · exact h

theorem quiesceEnd (h : u.Kept w) (l : Fin 4) : u.Kept (w.quiesceEnd l) := by
  unfold World.quiesceEnd
  dsimp only
  split
  · exact h.onLink l _ rfl (fun h => h)
  · exact h

theorem settleLink (h : u.Kept w) (e : Env) (l : Fin 4) : u.Kept (w.settleLink e l) :=
  ((((((h.errorsAge l).each _ _ fun a _ hv => hv.backoffExpiry l a).timeout e l).warmUpEnd e
    l).restEnd e l).quiesceEnd l).pump e l

end World.Kept
end Sys2Proof.Machine
end

