-- ==== Sys2Proof/Laws/Port.lean ====
section
/-! SUPPORT. The Host Line Port: choosing twice is choosing once, an event of the part in both its cases,
and a request to an idle port, which is answered at once. -/

namespace Sys2Proof.Machine

/-- A frame chosen, nothing more is chosen. -/
theorem Port.choose_choose (t : Tab Notice 16) (p : Port) : (p.choose t).choose t = p.choose t := by
  rcases p with ⟨rx, queue, slot, overruns, out, ce, oc, mask, rate, brk⟩
  cases out with
  | some _ => rfl
  | none =>
    cases overruns with
    | cons _ _ => rfl
    | nil =>
      cases slot with
      | some _ => rfl
      | none =>
        simp only [Port.choose]
        cases nextNotice mask t <;> rfl

/-- Choosing changes the output and the overrun list, and nothing else of the port. -/
theorem Port.choose_kept (t : Tab Notice 16) (p : Port) (out : Option OutFrame) (rest : List (Nat × Nat)) :
    { p.choose t with out := out, overruns := rest } = { p with out := out, overruns := rest } := by
  unfold Port.choose
  split <;> rfl

/-- An output that is sending chooses nothing. -/
theorem Port.choose_sending (t : Tab Notice 16) (p : Port) (f : OutFrame) (h : p.out = some f) :
    p.choose t = p := by
  unfold Port.choose
  rw [h]

namespace State

variable {s : State}

@[simp] theorem choose_choose : s.choose.choose = s.choose := by
  simp only [choose, Port.choose_choose]

/-- An event while RESET is held. -/
theorem event_held (f : State → State) (h : s.held = true) : s.event f = .next s := by
  simp [event, h]

/-- An event while RESET is not held. -/
theorem event_free (f : State → State) (h : s.held = false) : s.event f = .next (f s).choose := by
  simp [event, h]

/-- An event of the blocks while RESET is held. -/
theorem dueEvent_held (due : State → Bool) (f : Env → World → World) (h : s.held = true) :
    s.dueEvent due f = .next s := event_held _ h

/-- An event of a link while RESET is held. -/
theorem linkEvent_held (l : Fin 4) (due : World → Bool) (f : Env → World → World) (h : s.held = true) :
    s.linkEvent l due f = .next s := event_held _ h

/-- A point of a player while RESET is held. -/
theorem pointEvent_held (p : Fin 8) (k : PointKind) (ok : Env → Player → Bool) (h : s.held = true) :
    s.pointEvent p k ok = .next s := dueEvent_held _ _ h

/-- An event that is due. -/
theorem dueEvent_due (due : State → Bool) (f : Env → World → World) (h : s.held = false)
    (hd : due s = true) :
    s.dueEvent due f = .next (s.onWorld fun e w => (f e w).pumpAll e).choose := by
  simp [dueEvent, event, h, hd]

/-- An event that is not due. -/
theorem dueEvent_not_due (due : State → Bool) (f : Env → World → World) (h : s.held = false)
    (hd : due s = false) : s.dueEvent due f = .next s.choose := by
  simp [dueEvent, event, h, hd]

/-- An event of a link that is due. -/
theorem linkEvent_due (l : Fin 4) (due : World → Bool) (f : Env → World → World) (h : s.held = false)
    (hd : due s.world = true) :
    s.linkEvent l due f = .next (s.onWorld fun e w => (f e w).pump e l).choose := by
  simp [linkEvent, event, h, hd]

/-- An event of a link that is not due. -/
theorem linkEvent_not_due (l : Fin 4) (due : World → Bool) (f : Env → World → World)
    (h : s.held = false) (hd : due s.world = false) : s.linkEvent l due f = .next s.choose := by
  simp [linkEvent, event, h, hd]

/-- What an idle part is. -/
theorem idle_iff : s.idle = true ↔ s.held = false ∧ s.port.breakHeld = false ∧ s.port.rx = .hunt
    ∧ s.port.queue = [] ∧ s.port.slot = none := by
  simp only [idle, receives, Bool.and_eq_true, Bool.not_eq_true', beq_iff_eq, List.isEmpty_iff,
    Option.isNone_iff_eq_none]
  tauto

/-- A whole frame to an idle part: it is judged and served at once, and its reply stands in the slot. -/
theorem arrive_idle (h : s.idle = true) (f : HostFrame) :
    s.arrive f = { (f.serve s).1 with
      port := { (f.serve s).1.port with slot := some (f.serve s).2 } }.choose := by
  obtain ⟨h1, h2, h3, h4, h5⟩ := idle_iff.1 h
  rcases s with ⟨time, lib, world, ⟨rx, queue, slot, overruns, out, ce, oc, mask, rate, brk⟩, ro, held,
    fc, pending⟩
  simp only at h1 h2 h3 h4 h5
  subst h1 h2 h3 h4 h5
  rfl

/-- A request to an idle part: it is carried out at once and answered. -/
theorem request_idle (h : s.idle = true) (tag : Nat) (r : Request) :
    s.request tag r = State.replied r.kind tag (serveRequest r s) := by
  rw [request, arrive_idle h]
  rfl

/-- The command of a request to an idle part. -/
theorem event_request_idle (h : s.idle = true) (tag : Nat) (r : Request) :
    s.event (State.request tag r) = .next (State.replied r.kind tag (serveRequest r s)) := by
  rw [event_free _ (idle_iff.1 h).1, request_idle h]
  simp only [replied, choose_choose]

variable (k tag : Nat) (x : State × Answer)

@[simp] theorem replied_time : (replied k tag x).time = x.1.time := rfl
@[simp] theorem replied_lib : (replied k tag x).lib = x.1.lib := rfl
@[simp] theorem replied_world : (replied k tag x).world = x.1.world := rfl
@[simp] theorem replied_held : (replied k tag x).held = x.1.held := rfl
@[simp] theorem replied_reachOpen : (replied k tag x).reachOpen = x.1.reachOpen := rfl
@[simp] theorem replied_freeCount : (replied k tag x).freeCount = x.1.freeCount := rfl
@[simp] theorem replied_pending : (replied k tag x).pending = x.1.pending := rfl
@[simp] theorem replied_env : (replied k tag x).env = x.1.env := rfl

@[simp] theorem replied_slot :
    (replied k tag x).port.slot = some ⟨k, tag, x.2.code, x.2.body⟩ := by
  simp [replied]

@[simp] theorem replied_queue : (replied k tag x).port.queue = x.1.port.queue := by
  simp [replied]

end State
end Sys2Proof.Machine
end

