-- ==== Sys2Proof/Laws/Calm.lean ====
section
/-! SUPPORT. A calm link only begins a frame: what choosing leaves of the other blocks. -/

namespace Sys2Proof.Machine

namespace World

variable {w u v : World}

theorem Begun.refl (w : World) : w.Begun w := ⟨fun _ => rfl, rfl⟩

theorem Begun.trans (h : u.Begun v) (k : v.Begun w) : u.Begun w where
  links l := by rw [← h.links l, ← k.links l]
  rest := by
    have a := h.rest
    have b := k.rest
    rw [← a, ← b]

/-- A link that takes its wire: the other links stay. -/
structure Takes (l : Fin 4) (w v : World) : Prop where
  begun : w.Begun v
  busy : (v.link l).wireIdle = false
  others : ∀ m, m ≠ l → v.link m = w.link m

theorem Begun.onLink (w : World) (l : Fin 4) (f : Link → Link)
    (hf : { f (w.link l) with
      transfer := (w.link l).transfer
      bcast := (w.link l).bcast
      pending := (w.link l).pending } = w.link l) : w.Begun (w.onLink l f) where
  links k := by
    rw [onLink_link]
    split
    · next h => subst h; exact hf
    · rfl
  rest := rfl

theorem startTransfer_takes (w : World) (l : Fin 4) (f : TxFrame) (a : Fin 16) :
    Takes l w (w.startTransfer l f a) where
  begun := Begun.onLink w l _ rfl
  busy := by simp [startTransfer, onLink_link, Link.wireIdle]
  others m h := by rw [startTransfer, onLink_link, if_neg (Ne.symm h)]

theorem startBroadcast_takes (w : World) (l : Fin 4) (x : Broadcast) :
    Takes l w (w.startBroadcast l x) where
  begun := Begun.onLink w l _ rfl
  busy := by simp [startBroadcast, onLink_link, Link.wireIdle]
  others m h := by rw [startBroadcast, onLink_link, if_neg (Ne.symm h)]

theorem Takes.after {l : Fin 4} (h : Takes l v w) (b : u.Begun v)
    (o : ∀ m, m ≠ l → v.link m = u.link m) : Takes l u w :=
  ⟨b.trans h.begun, h.busy, fun m hm => (h.others m hm).trans (o m hm)⟩

theorem sendGoOrPending_takes {l : Fin 4} (h : w.sendGoOrPending l = some v) : Takes l w v := by
  unfold sendGoOrPending at h
  dsimp only at h
  split at h
  · cases h; exact startBroadcast_takes w l _
  · cases h
    refine (startTransfer_takes _ l _ _).after (Begun.onLink w l _ rfl) fun m hm => ?_
    rw [onLink_link, if_neg (Ne.symm hm)]
  · cases h

theorem sendStage_takes {l : Fin 4} (h : w.sendStage l = some v) : Takes l w v := by
  unfold sendStage at h
  cases hx : (w.link l).nextStage with
  | none => simp [hx] at h
  | some x => rw [hx] at h; cases h; exact startTransfer_takes w l _ _

theorem sendRefresh_takes {l : Fin 4} (h : w.sendRefresh l = some v) : Takes l w v := by
  obtain ⟨a, _, ha⟩ := List.exists_of_findSome?_eq_some h
  split at ha
  · cases hx : (w.zone (zoneAt l a)).committed with
    | none => simp [hx] at ha
    | some x => rw [hx] at ha; cases ha; exact startTransfer_takes w l _ _
  · cases ha

theorem sendPoll_takes {l : Fin 4} (h : w.sendPoll l = some v) : Takes l w v := by
  unfold sendPoll at h
  cases hx : (upTo 16).find? (w.lostPollDue l) with
  | none => simp [hx] at h
  | some x => rw [hx] at h; cases h; exact startTransfer_takes w l _ _

theorem restartWake_takes {l : Fin 4} (h : w.restartWake l = some v) : Takes l w v := by
  unfold restartWake at h
  split at h
  · cases h
    exact startBroadcast_takes _ l _
  · cases h

/-- A link whose wire is taken is given no frame. -/
theorem chooseFrame_busy (e : Env) {l : Fin 4} (h : (w.link l).wireIdle = false) :
    w.chooseFrame e l = none := by
  unfold chooseFrame
  rw [if_pos]
  unfold Link.wireIdle at h
  cases ht : (w.link l).transfer <;> cases hb : (w.link l).bcast <;> simp [ht, hb] at h ⊢

/-- What a link with no scan, calibration or quiescing at its end chooses. -/
theorem choose_eq (e : Env) {l : Fin 4} (h : w.longOpOver l = none) (hq : (w.link l).quiesced = false) :
    w.choose e l = w.chooseFrame e l := by
  rw [choose, h]
  simp [hq]

/-- A calm link that chooses takes its wire. -/
theorem choose_takes {e : Env} {l : Fin 4} (hc : w.calm l = true) (h : w.choose e l = some v) :
    Takes l w v := by
  simp only [World.calm, Bool.and_eq_true, Option.isNone_iff_eq_none, Bool.not_eq_true'] at hc
  rw [choose_eq e hc.1.1 hc.1.2] at h
  replace hc := hc.2
  cases hi : (w.link l).wireIdle with
  | false => rw [chooseFrame_busy e hi] at h; cases h
  | true =>
    simp only [Link.calm, hi, Link.owesNothing, Bool.not_true, Bool.false_or, Bool.and_eq_true,
      Bool.not_eq_true', bne_iff_ne, ne_eq] at hc
    obtain ⟨⟨⟨⟨hw, hf⟩, h1⟩, h2⟩, h3⟩ := hc
    unfold chooseFrame at h
    dsimp only at h
    rw [hw, hf] at h
    split at h
    · cases h
    · simp only [Bool.false_eq_true, if_false] at h
      cases hs : (w.link l).state with
      | up =>
        rw [hs] at h
        obtain ⟨o, ho, hv⟩ := List.exists_of_findSome?_eq_some h
        simp only [id] at hv
        subst hv
        simp only [List.mem_cons, List.not_mem_nil, or_false] at ho
        rcases ho with ho | ho | ho | ho | ho
        · exact restartWake_takes ho.symm
        · exact sendGoOrPending_takes ho.symm
        · exact sendStage_takes ho.symm
        · exact sendRefresh_takes ho.symm
        · exact sendPoll_takes ho.symm
      | scanning => exact absurd hs h1
      | calibrating => exact absurd hs h2
      | quiescing => exact absurd hs h3
      | off | warming | asleep | faulted => rw [hs] at h; cases h

/-- Frames begun leave the drivers, the zones and where the scans and calibrations stand. -/
theorem Begun.longOpOver (h : w.Begun v) (l : Fin 4) : v.longOpOver l = w.longOpOver l := by
  have z : v.zones = w.zones := by have a := congrArg World.zones h.rest; exact a
  have k := h.links l
  have d : (v.link l).drivers = (w.link l).drivers := by have a := congrArg Link.drivers k; exact a
  have s : (v.link l).state = (w.link l).state := by have a := congrArg Link.state k; exact a
  have p : (v.link l).scanPos = (w.link l).scanPos := by have a := congrArg Link.scanPos k; exact a
  have c : (v.link l).cal = (w.link l).cal := by have a := congrArg Link.cal k; exact a
  simp only [World.longOpOver, scanAddr, Link.calLeft, Link.answering, World.configured, World.zone, z,
    d, s, p, c]
  rfl

/-- Frames begun leave whether a link has quiesced. -/
theorem Begun.quiesced (h : w.Begun v) (l : Fin 4) : (v.link l).quiesced = (w.link l).quiesced := by
  rw [← h.links l]
  rfl

/-- A link whose wire is taken, with no scan, calibration or quiescing at its end, pumps nothing. -/
theorem pump_busy (e : Env) {l : Fin 4} (h : (w.link l).wireIdle = false) (ho : w.longOpOver l = none)
    (hq : (w.link l).quiesced = false) : w.pump e l = w := by
  unfold pump pumpFor
  rw [choose_eq e ho hq, chooseFrame_busy e h]

/-- What a calm link pumps, its wire taken or not. -/
theorem pump_calm (e : Env) {l : Fin 4} (hc : w.calm l = true) :
    w.Begun (w.pump e l) ∧ (w.pump e l).calm l = true
      ∧ ∀ m, m ≠ l → (w.pump e l).link m = w.link m := by
  unfold pump
  rw [pumpFor]
  cases h : w.choose e l with
  | none => exact ⟨Begun.refl w, hc, fun _ _ => rfl⟩
  | some v =>
    have t := choose_takes hc h
    simp only [World.calm, Bool.and_eq_true, Option.isNone_iff_eq_none, Bool.not_eq_true'] at hc
    have ho : v.longOpOver l = none := by rw [t.begun.longOpOver, hc.1.1]
    have hq : (v.link l).quiesced = false := by rw [t.begun.quiesced, hc.1.2]
    have hp : v.pumpFor e l 63 = v := by rw [pumpFor, choose_eq e ho hq, chooseFrame_busy e t.busy]
    dsimp only
    rw [hp]
    exact ⟨t.begun, by simp [World.calm, ho, hq, Link.calm, t.busy], t.others⟩

theorem pump_begun (e : Env) {l : Fin 4} (hc : w.calm l = true) : w.Begun (w.pump e l) :=
  (pump_calm e hc).1

theorem pumpEach_begun (e : Env) (ls : List (Fin 4)) (hc : ∀ l, w.calm l = true) :
    w.Begun (w.each ls (World.pump e)) := by
  induction ls generalizing w with
  | nil => exact Begun.refl w
  | cons l ls ih =>
    obtain ⟨b, c, o⟩ := pump_calm e (hc l)
    refine b.trans (ih fun m => ?_)
    by_cases h : m = l
    · subst h; exact c
    · have := hc m
      rw [World.calm, b.longOpOver, o m h]
      exact this

theorem pumpAll_begun (e : Env) (hc : ∀ l, w.calm l = true) : w.Begun (w.pumpAll e) :=
  pumpEach_begun e _ hc

end World

/-! ## An event's next state -/

namespace State

variable {s t : State} {w : World}

/-- The links that choose leave what `State.Chosen` says. -/
theorem Chosen.of (hb : s.sameBase t) (ls : List (Fin 4)) (h : t.world = w.each ls (World.pump s.env)) :
    State.Chosen ls s w t where
  base := hb
  world := h
  kept := h ▸ (World.Kept.refl w).each ls _ fun l _ hv => hv.pump s.env l
  begun hc := h ▸ World.pumpEach_begun s.env ls hc

/-- An event of the blocks that is due. -/
theorem dueEvent_after (due : State → Bool) (f : Env → World → World) (h : s.held = false)
    (hd : due s = true) : ∃ t, s.dueEvent due f = .next t ∧ s.After (f s.env s.world) t :=
  ⟨_, dueEvent_due due f h hd, by
    exact Chosen.of (by exact ⟨rfl, rfl, rfl, rfl, rfl, rfl⟩) (upTo 4) rfl, rfl⟩

/-- An event of a link that is due. -/
theorem linkEvent_after (l : Fin 4) (due : World → Bool) (f : Env → World → World) (h : s.held = false)
    (hd : due s.world = true) : ∃ t, s.linkEvent l due f = .next t
      ∧ State.AfterOn l s (f s.env s.world) t :=
  ⟨_, linkEvent_due l due f h hd, by
    exact Chosen.of (by exact ⟨rfl, rfl, rfl, rfl, rfl, rfl⟩) [l] rfl, rfl⟩

/-- A request of an idle part that is carried out and changes the blocks. -/
theorem change_after (k tag : Nat) (f : Env → World → World × Answer)
    (h : (f s.env s.world).2.code = .ok ∨ (f s.env s.world).2.code = .started) :
    s.AfterReply (f s.env s.world).1
      ⟨k, tag, (f s.env s.world).2.code, (f s.env s.world).2.body⟩
      (replied k tag (s.change f)) := by
  unfold State.change
  revert h
  rcases f s.env s.world with ⟨v, a⟩
  intro h
  refine ⟨?_, rfl⟩
  refine Chosen.of (by exact ⟨rfl, rfl, rfl, rfl, rfl, rfl⟩) (upTo 4) ?_
  rw [replied_world]
  exact if_pos h

end State
end Sys2Proof.Machine
end

