-- ==== Sys2Proof/Laws/Check.lean ====
section
/-! SUPPORT. The check of a run of bytes, bit by bit (R187). -/

namespace Sys2Proof.Machine

/-- A bit that is not at the top passes through the shift. -/
theorem crcBit_xor (c d : BitVec 16) (h : d.msb = false) :
    crcBit (c ^^^ d) = crcBit c ^^^ (d <<< 1) := by
  unfold crcBit
  rw [BitVec.msb_xor, h, Bool.xor_false]
  split
  · rw [BitVec.shiftLeft_xor_distrib, BitVec.xor_assoc, BitVec.xor_assoc, BitVec.xor_comm (d <<< 1)]
  · rw [BitVec.shiftLeft_xor_distrib]

/-- One bit of a content entering the check (R187). -/
def crcStep (c : BitVec 16) (b : Bool) : BitVec 16 :=
  if c.msb ^^ b then (c <<< 1) ^^^ 0x1021#16 else c <<< 1

/-- The top bit of what is added enters, and the rest is shifted. -/
theorem crcBit_top (c d : BitVec 16) : crcBit (c ^^^ d) = crcStep c d.msb ^^^ (d <<< 1) := by
  cases h : d.msb with
  | false => rw [crcBit_xor c d h, crcStep, Bool.xor_false, crcBit]
  | true =>
    unfold crcBit crcStep
    rw [BitVec.msb_xor, h, BitVec.shiftLeft_xor_distrib]
    cases c.msb
    · simp only [Bool.false_xor, if_true]
      rw [BitVec.xor_assoc, BitVec.xor_assoc, BitVec.xor_comm (d <<< 1)]
    · simp

/-- A byte enters the check bit by bit, most significant bit first (R187). -/
theorem crcByte_bits (c : BitVec 16) (x : Byte) :
    crcByte c x = ([7, 6, 5, 4, 3, 2, 1, 0].map fun i => x.getLsbD i).foldl crcStep c := by
  have top (n : Nat) (h : n < 8) :
      (((x.setWidth 16 <<< 8) <<< n : BitVec 16)).msb = x.getLsbD (7 - n) := by
    rw [BitVec.msb_eq_getLsbD_last]
    interval_cases n <;> simp
  have step (c : BitVec 16) (n : Nat) (h : n < 8) : crcBit (c ^^^ ((x.setWidth 16 <<< 8) <<< n)) =
      crcStep c (x.getLsbD (7 - n)) ^^^ ((x.setWidth 16 <<< 8) <<< (n + 1)) := by
    rw [crcBit_top, top n h, ← BitVec.shiftLeft_add]
  have last : ((x.setWidth 16 <<< 8) <<< 8 : BitVec 16) = 0#16 := by
    rw [← BitVec.shiftLeft_add]; exact BitVec.shiftLeft_eq_zero (by omega)
  have h0 : (x.setWidth 16 <<< 8 : BitVec 16) = (x.setWidth 16 <<< 8) <<< 0 := by simp
  unfold crcByte
  rw [h0, step _ 0 (by omega), step _ 1 (by omega), step _ 2 (by omega), step _ 3 (by omega),
    step _ 4 (by omega), step _ 5 (by omega), step _ 6 (by omega), step _ 7 (by omega), last]
  simp only [List.map_cons, List.map_nil, List.foldl_cons, List.foldl_nil, BitVec.xor_zero]

end Sys2Proof.Machine
end

