-- ==== Sys2Proof/Laws/Commands.lean ====
section
/-! SUPPORT. What `exec` does with each command, in one line: the meaning of a request is the whole frame
of it, and the meaning of an event is its operation on the part. -/

namespace Sys2Proof.Machine

variable (s : State)

theorem exec_tickEvent :
    exec .tickEvent s =
      s.event State.tick := rfl

theorem exec_pulse (edge : Edge) :
    exec (.pulse edge) s =
      s.event fun s => if s.time.takes edge then s.meet.pulse else s := rfl

theorem exec_pulseSilenceHoldover :
    exec .pulseSilenceHoldover s =
      s.event State.silenceHoldover := rfl

theorem exec_armPoint :
    exec .armPoint s =
      s.dueEvent (fun s => s.reachOpen && s.world.armDue s.env.now) World.armFirst := rfl

theorem exec_claimPoint (p : Fin 8) :
    exec (.claimPoint p) s =
      s.pointEvent p .start Env.claimsFirst := rfl

theorem exec_startPoint (p : Fin 8) :
    exec (.startPoint p) s =
      s.pointEvent p .start fun e c => !e.claimsFirst c := rfl

theorem exec_windowEnd (p : Fin 8) :
    exec (.windowEnd p) s =
      s.pointEvent p .windowEnd fun _ _ => true := rfl

theorem exec_endCut (p : Fin 8) :
    exec (.endCut p) s =
      s.pointEvent p .endCut fun _ _ => true := rfl

theorem exec_handPoint (p : Fin 8) :
    exec (.handPoint p) s =
      s.pointEvent p .hand fun _ _ => true := rfl

theorem exec_duePoint (p : Fin 8) :
    exec (.duePoint p) s =
      s.pointEvent p .due fun _ _ => true := rfl

theorem exec_releasePoint (p : Fin 8) :
    exec (.releasePoint p) s =
      s.pointEvent p .release fun _ _ => true := rfl

theorem exec_sendTick (l : Fin 4) :
    exec (.sendTick l) s =
      s.dueEvent (fun s => s.reachOpen && (s.world.link l).gos.any (Link.sendTickDue s.env.now))
        fun e w => w.sendTicks e.now l := rfl

theorem exec_expiryPoint (p : Fin 8) :
    exec (.expiryPoint p) s =
      s.dueEvent (fun s => s.reachOpen && (s.world.oldestExpired s.env.now p).isSome)
        fun e w => match w.oldestExpired e.now p with | none => w | some g => w.expire e g := rfl

theorem exec_linkFrameSent (l : Fin 4) :
    exec (.linkFrameSent l) s =
      s.linkEvent l (fun w => (w.link l).sending) fun e w => w.frameSent e l := rfl

theorem exec_driverReply (l : Fin 4) (bytes : List Byte) (roundTrip : Nat) :
    exec (.driverReply l bytes roundTrip) s =
      s.linkEvent l (fun w => (w.link l).state.receives) fun e w =>
        w.driverReply e l bytes roundTrip := rfl

theorem exec_transferTimeout (l : Fin 4) :
    exec (.transferTimeout l) s =
      s.linkEvent l (fun w => (w.link l).transfer.any Transfer.timedOut) fun e w => w.timeout e l := rfl

theorem exec_backoffExpiry (l : Fin 4) (a : Fin 16) :
    exec (.backoffExpiry l a) s =
      s.linkEvent l
        (fun w => (w.driver l a).backoff == .lapsing
          || (w.link l).stage.any fun x => x.addr == a && x.backoff == .lapsing)
        fun _ w => w.backoffExpiry l a := rfl

theorem exec_errorAgeExpiry (l : Fin 4) :
    exec (.errorAgeExpiry l) s =
      s.linkEvent l (fun w => (w.link l).errors.any (100 ≤ ·)) fun _ w => w.errorsAge l := rfl

theorem exec_warmUpEnd (l : Fin 4) :
    exec (.warmUpEnd l) s =
      s.linkEvent l (fun w => (w.link l).state == .warming && 200 ≤ (w.link l).timer) fun e w =>
        w.warmUpEnd e l := rfl

theorem exec_lostDriverPollDue (l : Fin 4) (a : Fin 16) :
    exec (.lostDriverPollDue l a) s =
      s.linkEvent l (fun w => (w.link l).state == .up && w.lostPollDue l a) fun _ w => w := rfl

theorem exec_refreshDue (l : Fin 4) (a : Fin 16) :
    exec (.refreshDue l a) s =
      s.linkEvent l (fun w => (w.link l).state == .up && (w.driver l a).refreshDue) fun _ w => w := rfl

theorem exec_faultRestEnd (l : Fin 4) :
    exec (.faultRestEnd l) s =
      s.linkEvent l (fun w => (w.link l).state == .faulted && 500 ≤ (w.link l).timer) fun e w =>
        w.restEnd e l := rfl

theorem exec_quiesceWaitEnd (l : Fin 4) :
    exec (.quiesceWaitEnd l) s =
      s.linkEvent l
        (fun w => (w.link l).state == .quiescing && 100 ≤ (w.link l).timer && !(w.link l).wakeOwed)
        fun _ w => w.quiesceEnd l := rfl

theorem exec_scanStart (c0 c1 c2 c3 : Bool) :
    exec (.scanStart c0 c1 c2 c3) s =
      s.dueEvent (fun s => s.world.monitor.scanDue) fun e w => w.scanStart e (contact c0 c1 c2 c3) := rfl

theorem exec_conversionEnd (reading : Nat) :
    exec (.conversionEnd reading) s =
      s.dueEvent (fun s => s.world.monitor.scan.isSome) fun e w => w.conversionEnd e reading := rfl

theorem exec_darkGuardExpiry :
    exec .darkGuardExpiry s =
      s.dueEvent
        (fun s => s.world.ctl.state == .active && Config.darkGuardPeriod ≤ s.world.ctl.guard)
        World.guardExpiry := rfl

theorem exec_coldStart (rateHigh : Bool) :
    exec (.coldStart rateHigh) s =
      .next { State.cold rateHigh with pending := s.pending, freeCount := s.freeCount } := rfl

theorem exec_resetAsserted :
    exec .resetAsserted s =
      .next s.holdReset := rfl

theorem exec_hostFrameReceived (bytes : List RxByte) :
    exec (.hostFrameReceived bytes) s =
      s.event (State.hostBytes bytes) := rfl

theorem exec_badKindRequest (kind tag : Nat) (body : List Byte) :
    exec (.badKindRequest kind tag body) s =
      s.event (State.arrive ⟨kind, tag, parseRequest kind body⟩) := rfl

theorem exec_hostFrameSent :
    exec .hostFrameSent s =
      s.event State.hostFrameSent := rfl

theorem exec_hostBreak :
    exec .hostBreak s =
      s.event State.hostBreak := rfl

theorem exec_breakEnd :
    exec .breakEnd s =
      s.event State.breakEnd := rfl

/-- The command of a request. -/
theorem exec_request (i : Instr) (tag : Nat) (r : Request) (h : i.request = some (tag, r)) :
    exec i s = s.event (State.request tag r) := by
  cases i <;> simp only [Instr.request, reduceCtorEq, Option.some.injEq, Prod.mk.injEq] at h <;>
    (obtain ⟨rfl, rfl⟩ := h; rfl)

/-- While RESET is held, every command but its release and a further assertion leaves the part. -/
theorem exec_held (c : Instr) (h : s.held = true) (h1 : c ≠ .resetAsserted)
    (h2 : ∀ high, c ≠ .coldStart high) : exec c s = .next s := by
  cases hc : c.request with
  | some x => rw [exec_request s c x.1 x.2 hc, State.event_held _ h]
  | none =>
    cases c with
    | resetAsserted => exact absurd rfl h1
    | coldStart high => exact absurd rfl (h2 high)
    | _ =>
      first
      | simp only [exec_tickEvent, exec_pulse, exec_pulseSilenceHoldover, exec_armPoint, exec_claimPoint,
        exec_startPoint, exec_windowEnd, exec_endCut, exec_handPoint, exec_duePoint,
        exec_releasePoint, exec_sendTick, exec_expiryPoint, exec_linkFrameSent, exec_driverReply,
        exec_transferTimeout, exec_backoffExpiry, exec_errorAgeExpiry, exec_warmUpEnd,
        exec_lostDriverPollDue, exec_refreshDue, exec_faultRestEnd, exec_quiesceWaitEnd,
        exec_scanStart, exec_conversionEnd, exec_darkGuardExpiry, exec_hostFrameReceived,
        exec_badKindRequest, exec_hostFrameSent, exec_hostBreak, exec_breakEnd,
          State.event_held _ h, State.dueEvent_held _ _ h, State.linkEvent_held _ _ _ h,
          State.pointEvent_held _ _ _ h]
      | simp [Instr.request] at hc

/-- The command of a request to an idle part: it is carried out and answered in the one event. -/
theorem exec_request_idle (i : Instr) (tag : Nat) (r : Request) (h : i.request = some (tag, r))
    (hs : s.idle = true) : exec i s = .next (State.replied r.kind tag (serveRequest r s)) := by
  rw [exec_request s i tag r h, State.event_request_idle hs]

end Sys2Proof.Machine
end

