-- ==== Sys2Proof/Laws/Lists.lean ====
section
/-! SUPPORT. What the dispatcher leaves of the links: every field of a link and of its drivers but the
dispatcher's lists, the pending list and what is on the wire (`World.Lists`), one lemma for each operation. -/

namespace Sys2Proof.Machine

/-- What is on the wire stays, but that a GO, or a frame whose sending has not been reported, may be stopped
part-way (log entry 6). -/
structure Link.Wires (k k' : Link) : Prop where
  bcast : k'.bcast = k.bcast ∨ (k'.bcast = none ∧ ∃ t, k.bcast = some (.go t))
  transfer : k'.transfer = k.transfer ∨
    (k'.transfer = none ∧ ∀ x, k.transfer = some x → x.reported = false)

namespace Link.Wires

variable {k k' k'' : Link}

theorem same (hb : k'.bcast = k.bcast) (ht : k'.transfer = k.transfer) : k.Wires k' :=
  ⟨.inl hb, .inl ht⟩

theorem trans (h : k.Wires k') (j : k'.Wires k'') : k.Wires k'' where
  bcast := by
    rcases j.bcast with hb | ⟨hb, t, ht⟩
    · rw [hb]; exact h.bcast
    · rcases h.bcast with ha | ⟨ha, _⟩
      · exact .inr ⟨hb, t, ha ▸ ht⟩
      · rw [ha] at ht; cases ht
  transfer := by
    rcases j.transfer with hb | ⟨hb, hr⟩
    · rw [hb]; exact h.transfer
    · rcases h.transfer with ha | ⟨_, ha⟩
      · exact .inr ⟨hb, ha ▸ hr⟩
      · exact .inr ⟨hb, ha⟩

theorem stopFrame (k : Link) (ref : Nat) : k.Wires (k.stopFrame ref) where
  bcast := .inl rfl
  transfer := by
    simp only [Link.stopFrame]
    cases ht : k.transfer with
    | none => exact .inl rfl
    | some x =>
      simp only [Option.filter]
      split
      · exact .inl rfl
      · next h =>
        refine .inr ⟨rfl, fun y hy => ?_⟩
        cases hy
        cases hr : x.reported with
        | false => rfl
        | true => simp [hr] at h

theorem removeGo (k : Link) (t : Fin 15) : k.Wires (k.removeGo t) where
  bcast := by
    simp only [Link.removeGo, Link.stopGo]
    split
    · next h => exact .inr ⟨rfl, t, h⟩
    · exact .inl rfl
  transfer := .inl rfl

end Link.Wires

/-- Only the dispatcher's lists, the pending lists and the wires of the links may differ. -/
structure World.Lists (w v : World) : Prop where
  links : ∀ l, { v.link l with
    stage := (w.link l).stage
    gos := (w.link l).gos
    tags := (w.link l).tags
    deferred := (w.link l).deferred
    retry := (w.link l).retry
    pending := (w.link l).pending
    transfer := (w.link l).transfer
    bcast := (w.link l).bcast } = w.link l
  wires : ∀ l, (w.link l).Wires (v.link l)

namespace World.Lists

theorem refl (w : World) : w.Lists w := ⟨fun _ => rfl, fun _ => .same rfl rfl⟩

theorem trans {u v w : World} (h : u.Lists v) (k : v.Lists w) : u.Lists w where
  links l := by
    have a := h.links l
    have b := k.links l
    rw [← a, ← b]
  wires l := (h.wires l).trans (k.wires l)

/-- The drivers are kept. -/
theorem driver {w v : World} (h : w.Lists v) (l : Fin 4) (a : Fin 16) : v.driver l a = w.driver l a := by
  have b := congrArg Link.drivers (h.links l)
  exact congrArg (Tab.get · a) b

/-- A link's state is kept. -/
theorem state {w v : World} (h : w.Lists v) (l : Fin 4) : (v.link l).state = (w.link l).state :=
  by
  have b := congrArg Link.state (h.links l)
  exact b

variable {u w : World}

theorem onLink (h : u.Lists w) (l : Fin 4) (f : Link → Link)
    (hf : { f (w.link l) with
      stage := (w.link l).stage
      gos := (w.link l).gos
      tags := (w.link l).tags
      deferred := (w.link l).deferred
      retry := (w.link l).retry
      pending := (w.link l).pending
      transfer := (w.link l).transfer
      bcast := (w.link l).bcast } = w.link l)
    (hw : (w.link l).Wires (f (w.link l)) := by exact .same rfl rfl) : u.Lists (w.onLink l f) := by
  refine h.trans ⟨fun m => ?_, fun m => ?_⟩ <;> rw [onLink_link] <;> split
  · next e => subst e; exact hf
  · rfl
  · next e => subst e; exact hw
  · exact .same rfl rfl

theorem onZone (h : u.Lists w) (z : Fin 64) (f : Zone → Zone) : u.Lists (w.onZone z f) := ⟨h.links, h.wires⟩

theorem raise (h : u.Lists w) (e : Env) (k : NoticeKind) : u.Lists (w.raise e k) := ⟨h.links, h.wires⟩

theorem withRest (h : u.Lists w) (g : List GroupRec) (n : Nat) :
    u.Lists { w with groups := g, nextRef := n } := ⟨h.links, h.wires⟩

theorem withGroups (h : u.Lists w) (g : List GroupRec) : u.Lists { w with groups := g } := ⟨h.links, h.wires⟩

theorem each (h : u.Lists w) {α : Type} (xs : List α) (f : α → World → World)
    (hf : ∀ x (v : World), u.Lists v → u.Lists (f x v)) : u.Lists (w.each xs f) := by
  induction xs generalizing w with
  | nil => exact h
  | cons x xs ih => exact ih (hf x w h)

theorem count (h : u.Lists w) (p : Fin 8) (f : Counters → Counters) : u.Lists (w.count p f) := by
  unfold World.count
  split
  · exact h
  · exact ⟨h.links, h.wires⟩

theorem countTake (h : u.Lists w) (e : Env) (p : Option (Fin 8)) (f : Counters → Counters) :
    u.Lists (w.countTake e p f) := by
  unfold World.countTake
  split
  · exact h
  · split
    · exact h
    · exact (h.count _ f).raise e _

/-! ## The dispatcher -/

theorem onEntryOf (h : u.Lists w) (l : Fin 4) (ref : Nat) (f : Entry → Entry) :
    u.Lists (w.onEntryOf l ref f) := h.onLink l _ rfl

theorem setEntry (h : u.Lists w) (l : Fin 4) (ref : Nat) (s : EntryState) : u.Lists (w.setEntry l ref s) :=
  h.onEntryOf l ref _

theorem report (h : u.Lists w) (z : Fin 64) (ref : Nat) (fin : EntryEnd) (look : LookCopy) :
    u.Lists (w.report z ref fin look) := h.onZone z _

theorem endEntry (h : u.Lists w) (l : Fin 4) (x : Entry) (fin : EntryEnd) :
    u.Lists (w.endEntry l x fin) :=
  Lists.report (h.onLink l
    (fun k => { k.stopFrame x.ref with stage := k.stage.filter (·.ref != x.ref), retry := true }) rfl
    ((Link.Wires.stopFrame (w.link l) x.ref).trans (.same rfl rfl))) _ _ _ _

theorem addEntry (h : u.Lists w) (e : Env) (l : Fin 4) (x : Entry) : u.Lists (w.addEntry e l x) := by
  unfold World.addEntry
  dsimp only
  have h := h.onLink l (fun k => { k with stage := insertBy Entry.before x k.stage }) rfl
  split
  · exact h.raise e _
  · exact h

theorem withRef (h : u.Lists w) (k : Nat → World → World) (hk : ∀ n v, u.Lists v → u.Lists (k n v)) :
    u.Lists (w.withRef k) := hk _ _ (h.withRest w.groups _)

theorem startDrop (h : u.Lists w) (l : Fin 4) (x : Entry) (stop : DropEnd) (stage : DropStage) :
    u.Lists (w.startDrop l x stop stage) := by
  refine Lists.setEntry ?_ l _ _
  refine h.onLink l _ ?_ ?_
  · split <;> rfl
  · split
    · exact (Link.Wires.stopFrame (w.link l) x.ref).trans (.same rfl rfl)
    · exact Link.Wires.stopFrame _ x.ref

theorem removeEntry (h : u.Lists w) (l : Fin 4) (x : Entry) (stop : DropEnd) :
    u.Lists (w.removeEntry l x stop) := by
  unfold World.removeEntry
  split
  all_goals first | exact h.endEntry l x _ | exact h.startDrop l x _ _ | exact h

theorem withdrawEntry (h : u.Lists w) (l : Fin 4) (x : Entry) : u.Lists (w.withdrawEntry l x) :=
  h.removeEntry l x _

theorem discardEntry (h : u.Lists w) (e : Env) (l : Fin 4) (x : Entry) :
    u.Lists (w.discardEntry e l x) := by
  unfold World.discardEntry
  split
  · exact h
  · exact (h.removeEntry l x _).countTake e _ _

theorem eachEntry (h : u.Lists w) (l : Fin 4) (p : Entry → Bool) (f : Entry → World → World)
    (hf : ∀ x v, u.Lists v → u.Lists (f x v)) : u.Lists (w.eachEntry l p f) := h.each _ f hf

theorem onPortions (h : u.Lists w) (l : Fin 4) (p : Fin 8) (id : GroupId)
    (f : List Portion → List Portion) : u.Lists (w.onPortions l p id f) := h.withGroups _

theorem closeTag (h : u.Lists w) (l : Fin 4) (t : Fin 15) : u.Lists (w.closeTag l t) := by
  unfold World.closeTag
  split
  · exact h
  · next hold _ =>
    dsimp only
    have h1 : u.Lists (if (hold.go == .pending &&
        !((w.link l).stage.filter (·.tag == tagNo t)).any Entry.keepsGo) = true
        then w.onLink l (Link.removeGo t) else w) := by
      split
      · exact h.onLink l _ rfl (.removeGo _ t)
      · exact h
    split
    · exact (h1.onLink l _ rfl).onPortions _ _ _ _
    · exact h1

theorem supersede (h : u.Lists w) (e : Env) (l : Fin 4) (p : Fin 8) (a : Fin 16) (ref : Nat) :
    u.Lists (w.supersede e l p a ref) := h.eachEntry l _ _ fun x _ hv => hv.discardEntry e l x

theorem addMember (h : u.Lists w) (e : Env) (l : Fin 4) (p : Fin 8) (id : GroupId) (due : Nat)
    (t : Fin 15) (lead : Nat) (s : EntryState) (m : Member) :
    u.Lists (w.addMember e l p id due t lead s m) :=
  h.withRef _ fun _ _ hv => (hv.addEntry e l _).supersede e l p _ _

theorem makePortion (h : u.Lists w) (e : Env) (l : Fin 4) (p : Fin 8) (id : GroupId) (due : Nat)
    (ms : List Member) (t : Fin 15) : u.Lists (w.makePortion e l p id due ms t) :=
  Lists.onPortions (Lists.onLink
    (h.each ms _ fun m _ hv => hv.addMember e l p id due t (w.portionLead l ms) .queued m) l _ rfl) l p id _

theorem defer (h : u.Lists w) (l : Fin 4) (p : Fin 8) (id : GroupId) (due : Nat) (ms : List Member) :
    u.Lists (World.placePortion.defer l p id due ms w) := (h.onLink l _ rfl).onPortions l p id _

theorem placePortion (h : u.Lists w) (e : Env) (l : Fin 4) (p : Fin 8) (id : GroupId) (due : Nat)
    (ms : List Member) : u.Lists (w.placePortion e l p id due ms) := by
  unfold World.placePortion
  split
  · exact h
  · dsimp only
    split
    · split
      · exact h.makePortion e l p id due ms _
      · exact h.defer l p id due ms
    · exact h.defer l p id due ms

theorem addSingle (h : u.Lists w) (e : Env) (l : Fin 4) (ref : Nat) (a : Fin 16) (p : Option (Fin 8))
    (look : LookCopy) (due : Nat) : u.Lists (w.addSingle e l ref a p look due) := h.addEntry e l _

theorem rejudge (h : u.Lists w) (l : Fin 4) (p : Fin 8) (ms : List Member) :
    u.Lists (w.rejudge l p ms).2 := h.each _ _ fun _ _ hv => hv.count p _

theorem dropDeferred (h : u.Lists w) (l : Fin 4) (p : Fin 8) (id : GroupId) :
    u.Lists (w.dropDeferred l p id) := h.onPortions l p id _

theorem makeHead (h : u.Lists w) {e : Env} {l : Fin 4} {v : World} (hv : w.makeHead e l = some v) :
    u.Lists v := by
  unfold World.makeHead at hv
  dsimp only at hv
  split at hv
  · cases hv
  · split at hv
    · cases hv; exact (h.onLink l _ rfl).addSingle e l _ _ _ _ _
    · cases hv
  · split at hv
    · cases hv
    · split at hv
      · cases hv
        split
        · exact ((h.onLink l _ rfl).rejudge l _ _).dropDeferred l _ _
        · exact ((h.onLink l _ rfl).rejudge l _ _).makePortion e l _ _ _ _ _
      · cases hv

theorem closeTags (h : u.Lists w) (l : Fin 4) : u.Lists (w.closeTags l) := by
  apply h.each
  intro t v hv
  exact hv.closeTag l t

theorem retryHead (h : u.Lists w) (e : Env) (l : Fin 4) : u.Lists (w.retryHead e l).1 := by
  unfold World.retryHead
  split
  · split
    · next hv => exact h.makeHead hv
    · exact h.onLink l _ rfl
  · exact h

theorem retryLink (h : u.Lists w) (e : Env) (l : Fin 4) (n : Nat) : u.Lists (w.retryLink e l n) := by
  induction n generalizing w with
  | zero => exact h.closeTags l
  | succ n ih =>
    unfold World.retryLink
    dsimp only
    split
    · exact ih ((h.closeTags l).retryHead e l)
    · exact (h.closeTags l).retryHead e l

theorem tidyLink (h : u.Lists w) (e : Env) (l : Fin 4) : u.Lists (w.tidyLink e l) := h.retryLink e l _

theorem tidy (h : u.Lists w) (e : Env) : u.Lists (w.tidy e) := h.each _ _ fun l _ hv => hv.tidyLink e l

theorem takeGroup (h : u.Lists w) (e : Env) (p : Fin 8) (id : GroupId) (due : Nat)
    (cues : List CueItem) : u.Lists (w.takeGroup e p id due cues) := by
  unfold World.takeGroup
  dsimp only
  have h1 := h.each ((groupZones cues).filter fun z => w.judge p z.1 == .undeliverable)
    (fun _ w => w.count p Counters.addUndeliverable) fun _ _ hv => hv.count p _
  split
  · exact h1.each _ _ fun _ _ hv => hv.countTake e _ _
  · exact ((h1.withGroups _).each _ _ fun l _ hv => hv.placePortion e l p id due _).tidy e

theorem dropItems (h : u.Lists w) (l : Fin 4) (p : Item → Bool) : u.Lists (w.dropItems l p) := by
  refine (h.onLink l _ rfl).each _ _ fun i v hv => ?_
  split
  · exact hv.dropDeferred l _ _
  · exact hv.report _ _ _ _

theorem dropMembers (h : u.Lists w) (l : Fin 4) (p : Fin 8) (a : Fin 16) :
    u.Lists (w.dropMembers l p a) := (h.onLink l _ rfl).dropItems l _

theorem withdrawZone (h : u.Lists w) (e : Env) (p : Fin 8) (z : Fin 64) :
    u.Lists (w.withdrawZone e p z) :=
  (((h.eachEntry _ _ _ fun x _ hv => hv.withdrawEntry _ x).dropMembers _ p _).dropItems _ _).tidy e

theorem withdrawPlayer (h : u.Lists w) (e : Env) (p : Fin 8) : u.Lists (w.withdrawPlayer e p) :=
  ((h.each _ _ fun l _ hv =>
    (hv.eachEntry l _ _ fun x _ hv => hv.withdrawEntry l x).dropItems l _).withGroups _).tidy e

theorem withdrawGroup (h : u.Lists w) (e : Env) (p : Fin 8) (id : GroupId) :
    u.Lists (w.withdrawGroup e p id) :=
  ((h.each _ _ fun l _ hv =>
    (hv.eachEntry l _ _ fun x _ hv => hv.withdrawEntry l x).dropItems l _).withGroups _).tidy e

theorem withdrawTake (h : u.Lists w) (e : Env) (z : Fin 64) : u.Lists (w.withdrawTake e z) := by
  unfold World.withdrawTake
  split
  · exact h
  · exact ((h.eachEntry _ _ _ fun x _ hv => hv.withdrawEntry _ x).dropItems _ _).tidy e

theorem placeSingle (h : u.Lists w) (e : Env) (z : Fin 64) (p : Option (Fin 8)) (look : LookCopy)
    (k : TakeKind) : u.Lists (w.placeSingle e z p look k) := by
  unfold World.placeSingle
  dsimp only
  refine h.withRef _ fun ref v hv => ?_
  have hv := hv.onZone z (fun r => { r with take := some (ref, k) })
  split
  · exact hv.addSingle e _ _ _ _ _ _
  · exact hv.onLink _ _ rfl

theorem rejoinGroup (h : u.Lists w) (e : Env) (z : Fin 64) (p : Fin 8) (g : GroupRec)
    (look : LookCopy) : u.Lists (w.rejoinGroup e z p g look) := by
  unfold World.rejoinGroup
  dsimp only
  split
  · exact h.onLink _ _ rfl
  · split
    · split
      · exact h.placePortion e _ _ _ _ _
      · split
        · exact h.addMember e _ _ _ _ _ _ _ _
        · exact h.countTake e _ _
    · exact h.placePortion e _ _ _ _ _
  · exact h.placePortion e _ _ _ _ _

theorem rejoin (h : u.Lists w) (e : Env) (z : Fin 64) (p : Fin 8) (part : Fin 16) :
    u.Lists (w.rejoin e z p part) := by
  refine Lists.tidy (h.each _ _ fun g v hv => ?_) e
  split
  · exact hv
  · exact hv.rejoinGroup e z p g _

theorem takeSent (h : u.Lists w) (e : Env) (l : Fin 4) (ref : Nat) : u.Lists (w.takeSent e l ref) := by
  unfold World.takeSent
  split
  · exact h
  · refine Lists.tidy ?_ e
    split
    · exact (h.endEntry l _ _).countTake e _ _
    · exact h.endEntry l _ _

theorem dropSent (h : u.Lists w) (e : Env) (l : Fin 4) (ref : Nat) : u.Lists (w.dropSent e l ref) := by
  unfold World.dropSent
  split
  · exact h
  · split
    · exact (h.setEntry l _ _).tidy e
    · exact h

theorem dropEnded (h : u.Lists w) (e : Env) (l : Fin 4) (ref : Nat) : u.Lists (w.dropEnded e l ref) := by
  unfold World.dropEnded
  split
  · exact h
  · split
    · exact (h.endEntry l _ _).tidy e
    · exact h

theorem entryStaged (h : u.Lists w) (l : Fin 4) (x : Entry) : u.Lists (w.entryStaged l x) := by
  unfold World.entryStaged
  dsimp only
  split
  · split
    · exact (h.setEntry l _ _).onLink l _ rfl
    · exact h.setEntry l _ _
  · split
    · exact (h.setEntry l _ _).onLink l _ rfl
    · exact (h.setEntry l _ _).startDrop l _ _ _
  · exact h.startDrop l _ _ _
  · exact h

theorem entryRetried (h : u.Lists w) (l : Fin 4) (x : Entry) : u.Lists (w.entryRetried l x) := by
  unfold World.entryRetried
  split
  · exact h.onEntryOf l _ _
  · exact h.onEntryOf l _ _
  · exact h.endEntry l _ _
  · exact h

theorem loseEntry (h : u.Lists w) (e : Env) (l : Fin 4) (x : Entry) :
    u.Lists (w.loseEntry e l x) := by
  unfold World.loseEntry
  split
  · exact h.endEntry l _ _
  · exact (h.endEntry l _ _).countTake e _ _

theorem stageReply (h : u.Lists w) (e : Env) (l : Fin 4) (ref : Nat) (k : ReplyKind) :
    u.Lists (w.stageReply e l ref k) := by
  unfold World.stageReply
  split
  · exact h
  · refine Lists.tidy ?_ e
    split
    · exact h.entryStaged l _
    · exact h.entryRetried l _
    · exact h.loseEntry e l _
    · exact h

theorem loseEntries (h : u.Lists w) (e : Env) (l : Fin 4) (a : Fin 16) :
    u.Lists (w.loseEntries e l a) := h.eachEntry l _ _ fun x _ hv => hv.loseEntry e l x

theorem driverEntriesEnd (h : u.Lists w) (e : Env) (l : Fin 4) (a : Fin 16) :
    u.Lists (w.driverEntriesEnd e l a) := (h.loseEntries e l a).tidy e

theorem sendTicks (h : u.Lists w) (now : Nat) (l : Fin 4) : u.Lists (w.sendTicks now l) :=
  h.onLink l _ rfl

theorem expireOn (h : u.Lists w) (e : Env) (g : GroupRec) (l : Fin 4) : u.Lists (w.expireOn e g l) :=
  ((((h.each _ _ fun x _ hv => hv.onLink l _ rfl (.removeGo _ x.tag)).eachEntry l _ _ fun x _ hv =>
    hv.discardEntry e l x).dropItems l _).each _ _ fun _ _ hv => hv.countTake e _ _)

theorem expire (h : u.Lists w) (e : Env) (g : GroupRec) : u.Lists (w.expire e g) :=
  ((h.each _ _ fun l _ hv => hv.expireOn e g l).withGroups _).tidy e

/-! ## Individual takes -/

theorem makeTake (h : u.Lists w) (e : Env) (z : Fin 64) (p : Option (Fin 8)) (look : LookCopy)
    (k : TakeKind) : u.Lists (w.makeTake e z p look k) := (h.withdrawTake e z).placeSingle e z p look k

theorem fallbackTake (h : u.Lists w) (e : Env) (z : Fin 64) : u.Lists (w.fallbackTake e z) := by
  unfold World.fallbackTake
  split
  · exact h.makeTake e z _ _ _
  · exact h

theorem rejoinOwner (h : u.Lists w) (e : Env) (z : Fin 64) : u.Lists (w.rejoinOwner e z) := by
  unfold World.rejoinOwner
  split
  · exact h
  · exact h.rejoin e z _ _

theorem gain (h : u.Lists w) (e : Env) (z : Fin 64) : u.Lists (w.gain e z) := by
  unfold World.gain
  split
  · refine Lists.rejoinOwner ?_ e z
    split
    · exact h.makeTake e z _ _ _
    · exact h
  · exact h

theorem returnLook (h : u.Lists w) (e : Env) (z : Fin 64) : u.Lists (w.returnLook e z) := by
  unfold World.returnLook
  split
  · exact h.makeTake e z _ _ _
  · exact h.makeTake e z _ _ _
  · exact h.fallbackTake e z

theorem returnTake (h : u.Lists w) (e : Env) (z : Fin 64) : u.Lists (w.returnTake e z) :=
  (h.returnLook e z).rejoinOwner e z

theorem restoreTake (h : u.Lists w) (e : Env) (z : Fin 64) : u.Lists (w.restoreTake e z) := by
  unfold World.restoreTake
  split
  · split
    · exact h.makeTake e z _ _ _
    · exact h.makeTake e z _ _ _
    · exact h.returnLook e z
  · exact h

end World.Lists
end Sys2Proof.Machine
end

