-- ==== Sys2Proof/Laws/Entries.lean ====
section
/-! SUPPORT. What the dispatcher's operations do to the stage lists, and to the counters and zones beside
them: an entry's end, its drop, a driver's entries lost, and the tests and retries after an event. -/

namespace Sys2Proof.Machine

/-! ## Counts -/

theorem satUp_min {top n : Nat} (h : n ≤ top) : satUp top n = min top (n + 1) := by
  unfold satUp
  split <;> omega

namespace World

variable (w : World)

/-! ## One entry -/

@[simp] theorem report_link (z : Fin 64) (ref : Nat) (fin : EntryEnd) (look : LookCopy) (m : Fin 4) :
    (w.report z ref fin look).link m = w.link m := rfl

@[simp] theorem report_player (z : Fin 64) (ref : Nat) (fin : EntryEnd) (look : LookCopy) (p : Fin 8) :
    (w.report z ref fin look).player p = w.player p := rfl

theorem report_zone (z : Fin 64) (ref : Nat) (fin : EntryEnd) (look : LookCopy) (y : Fin 64) :
    (w.report z ref fin look).zone y = if z = y then
      { w.zone y with
        committed := if fin = .taken then some look else (w.zone y).committed
        take := if (w.zone y).take.any (·.1 == ref) then none else (w.zone y).take }
    else w.zone y := onZone_zone _ _ _ _

theorem endEntry_link (l : Fin 4) (x : Entry) (fin : EntryEnd) (m : Fin 4) :
    (w.endEntry l x fin).link m = if l = m then
      { (w.link m).stopFrame x.ref with
        stage := (w.link m).stage.filter (·.ref != x.ref), retry := true } else w.link m := by
  simp [endEntry]

@[simp] theorem endEntry_player (l : Fin 4) (x : Entry) (fin : EntryEnd) (p : Fin 8) :
    (w.endEntry l x fin).player p = w.player p := rfl

@[simp] theorem endEntry_notices (l : Fin 4) (x : Entry) (fin : EntryEnd) :
    (w.endEntry l x fin).notices = w.notices := rfl

theorem endEntry_committed (l : Fin 4) (x : Entry) (fin : EntryEnd) (h : fin ≠ .taken) (y : Fin 64) :
    ((w.endEntry l x fin).zone y).committed = (w.zone y).committed := by
  simp only [endEntry, report_zone, onLink_zone, h, if_false]
  split <;> rfl

theorem setEntry_link (l : Fin 4) (ref : Nat) (s : EntryState) (m : Fin 4) :
    (w.setEntry l ref s).link m = if l = m then
      { w.link m with stage := (w.link m).stage.map fun x =>
          if x.ref = ref then { x with state := s } else x } else w.link m := by
  simp [setEntry, onEntryOf]

theorem startDrop_link (l : Fin 4) (x : Entry) (stop : DropEnd) (stage : DropStage) (m : Fin 4) :
    (w.startDrop l x stop stage).link m = if l = m then
      { (w.link m).stopFrame x.ref with
        pending := (w.link m).pending.filter (·.ref != x.ref)
          ++ if stage = .dropPending then [⟨false, x.addr, x.tag, x.ref⟩] else []
        stage := (w.link m).stage.map fun y =>
          if y.ref = x.ref then { y with state := .dropping stop stage } else y } else w.link m := by
  simp only [startDrop, setEntry, onEntryOf, onLink_link]
  split
  · split <;> simp [Link.stopFrame]
  · rfl

@[simp] theorem startDrop_player (l : Fin 4) (x : Entry) (stop : DropEnd) (stage : DropStage) (p : Fin 8) :
    (w.startDrop l x stop stage).player p = w.player p := rfl

@[simp] theorem startDrop_zone (l : Fin 4) (x : Entry) (stop : DropEnd) (stage : DropStage) (z : Fin 64) :
    (w.startDrop l x stop stage).zone z = w.zone z := rfl

@[simp] theorem countTake_link (e : Env) (p : Option (Fin 8)) (f : Counters → Counters) (m : Fin 4) :
    (w.countTake e p f).link m = w.link m := by
  unfold countTake count
  split
  · rfl
  · split <;> rfl

@[simp] theorem countTake_zone (e : Env) (p : Option (Fin 8)) (f : Counters → Counters) (z : Fin 64) :
    (w.countTake e p f).zone z = w.zone z := by
  unfold countTake count
  split
  · rfl
  · split <;> rfl

theorem countTake_player (e : Env) (p : Option (Fin 8)) (f : Counters → Counters) (q : Fin 8) :
    (w.countTake e p f).player q = if p = some q ∧ (w.player q).state ≠ .free then
      { w.player q with counters := f (w.player q).counters } else w.player q := by
  unfold countTake count
  cases p with
  | none => simp
  | some p =>
    by_cases h : p = q
    · subst h
      by_cases hf : (w.player p).state = .free <;> simp [hf]
    · by_cases hf : (w.player p).state = .free <;> simp [hf, h]

/-! ## The entries of a lost driver -/

theorem toEnd_ne (stop : DropEnd) : stop.toEnd ≠ .taken := by cases stop <;> decide

theorem loseEntry_link (e : Env) (l : Fin 4) (x : Entry) (m : Fin 4) :
    (w.loseEntry e l x).link m = if l = m then
      { (w.link m).stopFrame x.ref with
        stage := (w.link m).stage.filter (·.ref != x.ref), retry := true } else w.link m := by
  unfold loseEntry
  split <;> simp [endEntry_link]

theorem loseEntry_player (e : Env) (l : Fin 4) (x : Entry) (p : Fin 8) :
    (w.loseEntry e l x).player p =
      if x.player = some p ∧ x.dropping = false ∧ (w.player p).state ≠ .free then
        { w.player p with counters := (w.player p).counters.addDiscarded } else w.player p := by
  unfold loseEntry
  split
  · next h => simp [Entry.dropping, h]
  · next h =>
    have : x.dropping = false := by
      unfold Entry.dropping
      split
      · next stop st hs => exact absurd hs (h stop st)
      · rfl
    rw [countTake_player]
    by_cases h1 : x.player = some p <;> by_cases h2 : (w.player p).state = .free <;> simp [this, h1, h2]

theorem loseEntry_committed (e : Env) (l : Fin 4) (x : Entry) (z : Fin 64) :
    ((w.loseEntry e l x).zone z).committed = (w.zone z).committed := by
  unfold loseEntry
  split
  · exact w.endEntry_committed l x _ (toEnd_ne _) z
  · rw [countTake_zone]
    exact w.endEntry_committed l x _ (by decide) z

/-- The entries that leave with a run of ends, by their references. -/
theorem loseEach_stage (e : Env) (l : Fin 4) (xs : List Entry) :
    ((w.each xs (World.loseEntry e l)).link l).stage =
      (w.link l).stage.filter fun y => !xs.any fun x => x.ref == y.ref := by
  induction xs generalizing w with
  | nil => simp
  | cons x xs ih =>
    rw [each_cons, ih, loseEntry_link, if_pos rfl, List.filter_filter]
    congr 1
    funext y
    simp only [List.any_cons, Bool.not_or]
    rw [Bool.and_comm]
    congr 1
    simp [bne, BEq.comm]

theorem loseEach_other (e : Env) (l m : Fin 4) (h : l ≠ m) (xs : List Entry) :
    (w.each xs (World.loseEntry e l)).link m = w.link m := by
  induction xs generalizing w with
  | nil => rfl
  | cons x xs ih => rw [each_cons, ih, loseEntry_link, if_neg h]

theorem loseEach_committed (e : Env) (l : Fin 4) (xs : List Entry) (z : Fin 64) :
    ((w.each xs (World.loseEntry e l)).zone z).committed = (w.zone z).committed := by
  induction xs generalizing w with
  | nil => rfl
  | cons x xs ih => rw [each_cons, ih, loseEntry_committed]

theorem loseEach_free (e : Env) (l : Fin 4) (xs : List Entry) (p : Fin 8)
    (h : (w.player p).state = .free) : (w.each xs (World.loseEntry e l)).player p = w.player p := by
  induction xs generalizing w with
  | nil => rfl
  | cons x xs ih =>
    have hx : (w.loseEntry e l x).player p = w.player p := by rw [loseEntry_player]; simp [h]
    rw [each_cons, ih _ (by rw [hx]; exact h), hx]

/-- Each entry of a player that is not dropping is counted once, and the count holds at 65,535. -/
theorem loseEach_player (e : Env) (l : Fin 4) (xs : List Entry) (p : Fin 8)
    (h : (w.player p).state ≠ .free) (hc : (w.player p).counters.discarded ≤ 65535) :
    (w.each xs (World.loseEntry e l)).player p = { w.player p with
      counters := { (w.player p).counters with
        discarded := min 65535 ((w.player p).counters.discarded
          + xs.countP fun x => x.player == some p && !x.dropping) } } := by
  induction xs generalizing w with
  | nil => simp [Nat.min_eq_right hc]
  | cons x xs ih =>
    have hx := loseEntry_player w e l x p
    by_cases hm : x.player = some p ∧ x.dropping = false
    · rw [if_pos ⟨hm.1, hm.2, h⟩] at hx
      rw [each_cons, ih _ (by rw [hx]; exact h) (by
        rw [hx]; simp only [Counters.addDiscarded]; rw [satUp_min hc]; omega), hx]
      rw [List.countP_cons_of_pos (by simp [hm.1, hm.2])]
      simp only [Counters.addDiscarded]
      rw [satUp_min hc]
      congr 2
      omega
    · rw [if_neg (fun k => hm ⟨k.1, k.2.1⟩)] at hx
      rw [each_cons, ih _ (by rw [hx]; exact h) (by rw [hx]; exact hc), hx]
      rw [List.countP_cons_of_neg (by
        intro k
        simp only [Bool.and_eq_true, beq_iff_eq, Bool.not_eq_true'] at k
        exact hm k)]

/-! ## The tests and retries after an event, with nothing deferred (R119, R130, R134) -/

/-- The blocks but for the broadcasts, the GO lists, the tags, the retry marks and the groups' records. -/
structure Tidied (w v : World) : Prop where
  links : ∀ l, { v.link l with
    bcast := (w.link l).bcast
    gos := (w.link l).gos
    tags := (w.link l).tags
    retry := (w.link l).retry } = w.link l
  rest : { v with links := w.links, groups := w.groups } = w

namespace Tidied

theorem refl (w : World) : w.Tidied w := ⟨fun _ => rfl, rfl⟩

theorem trans {u v w : World} (h : u.Tidied v) (k : v.Tidied w) : u.Tidied w where
  links l := by
    have a := h.links l
    have b := k.links l
    rw [← a, ← b]
  rest := by
    have a := h.rest
    have b := k.rest
    rw [← a, ← b]

variable {u w : World}

theorem onLink (h : u.Tidied w) (l : Fin 4) (f : Link → Link)
    (hf : { f (w.link l) with
      bcast := (w.link l).bcast
      gos := (w.link l).gos
      tags := (w.link l).tags
      retry := (w.link l).retry } = w.link l) : u.Tidied (w.onLink l f) := by
  refine h.trans ⟨fun m => ?_, rfl⟩
  rw [onLink_link]
  split
  · next e => subst e; exact hf
  · rfl

theorem onPortions (h : u.Tidied w) (l : Fin 4) (p : Fin 8) (id : GroupId)
    (f : List Portion → List Portion) : u.Tidied (w.onPortions l p id f) := h.trans ⟨fun _ => rfl, rfl⟩

theorem closeTag (h : u.Tidied w) (l : Fin 4) (t : Fin 15) : u.Tidied (w.closeTag l t) := by
  unfold World.closeTag
  split
  · exact h
  · next hold _ =>
    dsimp only
    have h1 : u.Tidied (if (hold.go == .pending &&
        !((w.link l).stage.filter (·.tag == tagNo t)).any Entry.keepsGo) = true
        then w.onLink l (Link.removeGo t) else w) := by
      split
      · exact h.onLink l _ rfl
      · exact h
    split
    · exact (h1.onLink l _ rfl).onPortions _ _ _ _
    · exact h1

theorem closeTags (h : u.Tidied w) (l : Fin 4) : u.Tidied (w.closeTags l) :=
  each_induct (u.Tidied ·) (World.closeTag l) (fun t _ hv => hv.closeTag l t) _ w h

theorem deferred (h : u.Tidied w) (l : Fin 4) : (w.link l).deferred = (u.link l).deferred := by
  have a := congrArg Link.deferred (h.links l)
  exact a

theorem stage (h : u.Tidied w) (l : Fin 4) : (w.link l).stage = (u.link l).stage := by
  have a := congrArg Link.stage (h.links l)
  exact a

theorem player (h : u.Tidied w) (p : Fin 8) : w.player p = u.player p := by
  have := congrArg World.players h.rest
  exact congrArg (Tab.get · p) this

theorem zone (h : u.Tidied w) (z : Fin 64) : w.zone z = u.zone z := by
  have := congrArg World.zones h.rest
  exact congrArg (Tab.get · z) this

theorem retryHead (h : u.Tidied w) (e : Env) (l : Fin 4) (hd : (u.link l).deferred = []) :
    (w.retryHead e l).2 = false ∧ u.Tidied (w.retryHead e l).1 := by
  have hm : w.makeHead e l = none := by simp only [makeHead, h.deferred l, hd]
  cases hr : (w.link l).retry with
  | false => rw [World.retryHead, hr]; exact ⟨rfl, h⟩
  | true =>
    rw [World.retryHead, hr, hm]
    exact ⟨rfl, h.onLink l (fun k => { k with retry := false }) rfl⟩

theorem retryLink (h : u.Tidied w) (e : Env) (l : Fin 4) (hd : (u.link l).deferred = []) (n : Nat) :
    u.Tidied (w.retryLink e l n) := by
  have hc := h.closeTags l
  cases n with
  | zero => exact hc
  | succ n =>
    have hr := hc.retryHead e l hd
    rw [World.retryLink, hr.1]
    exact hr.2

end Tidied

theorem tidy_tidied (e : Env) (h : ∀ m, (w.link m).deferred = []) : w.Tidied (w.tidy e) := by
  refine each_induct (w.Tidied ·) (World.tidyLink e) (fun l v hv => ?_) _ w (.refl w)
  exact hv.retryLink e l (h l) _

/-! ## Drivers lost, with nothing deferred (R132) -/

theorem loseEach_deferred (e : Env) (l : Fin 4) (xs : List Entry) (m : Fin 4) :
    ((w.each xs (World.loseEntry e l)).link m).deferred = (w.link m).deferred := by
  induction xs generalizing w with
  | nil => rfl
  | cons x xs ih =>
    rw [each_cons, ih, loseEntry_link]
    split <;> rfl

theorem loseEntry_raised (e : Env) (l : Fin 4) (x : Entry) (p : Fin 8) (hp : x.player = some p)
    (hd : x.dropping = false) (h : (w.player p).state ≠ .free) :
    ((w.loseEntry e l x).notices.get NoticeKind.lateTake.no).pending = true := by
  unfold loseEntry
  split
  · next hs => simp [Entry.dropping, hs] at hd
  · simp only [countTake, hp, endEntry_player, h, if_false, raise, Tab.get_upd_self, Notice.raise]
    split <;> simp_all [Notice.fresh]

theorem loseEach_raised (e : Env) (l : Fin 4) (xs : List Entry) (p : Fin 8)
    (h : (w.player p).state ≠ .free) (hx : ∃ x ∈ xs, x.player = some p ∧ x.dropping = false) :
    ((w.each xs (World.loseEntry e l)).notices.get NoticeKind.lateTake.no).pending = true := by
  induction xs generalizing w with
  | nil => simp at hx
  | cons x xs ih =>
    rw [each_cons]
    by_cases hm : x.player = some p ∧ x.dropping = false
    · exact ((Kept.refl _).each xs _ fun y _ hv => hv.loseEntry e l y).raised _
        (w.loseEntry_raised e l x p hm.1 hm.2 h)
    · refine ih _ (by rw [((Kept.refl w).loseEntry e l x).state p]; exact h) ?_
      obtain ⟨y, hy, hq⟩ := hx
      rcases List.mem_cons.mp hy with rfl | hy
      · exact absurd hq hm
      · exact ⟨y, hy, hq⟩

theorem countP_filter_and {α : Type} (xs : List α) (f q : α → Bool) :
    (xs.filter f).countP q = xs.countP fun x => f x && q x := by
  rw [List.countP_filter]
  congr 1
  funext x
  rw [Bool.and_comm]

theorem countP_split {α : Type} (xs : List α) (a b q : α → Bool) :
    (xs.countP fun x => (a x || b x) && q x)
      = (xs.countP fun x => a x && q x) + (xs.filter fun x => !a x).countP fun x => b x && q x := by
  rw [List.countP_filter]
  induction xs with
  | nil => rfl
  | cons x xs ih =>
    simp only [List.countP_cons, ih]
    cases a x <;> cases b x <;> cases q x <;> simp <;> omega

theorem filter_refs {k : Link} (h : k.refsDistinct) (f : Entry → Bool) :
    (k.stage.filter fun y => !(k.stage.filter f).any fun x => x.ref == y.ref)
      = k.stage.filter fun y => !f y := by
  apply List.filter_congr
  intro y hy
  congr 1
  rw [Bool.eq_iff_iff, List.any_eq_true]
  constructor
  · rintro ⟨x, hx, he⟩
    rw [List.mem_filter] at hx
    have : x = y := List.inj_on_of_nodup_map h hx.1 hy (by simpa using he)
    subst this
    exact hx.2
  · intro hf
    exact ⟨y, List.mem_filter.mpr ⟨hy, hf⟩, by simp⟩

namespace Lost

variable {l : Fin 4} {g h : Fin 16 → Bool} {u v w : World}

/-- No driver lost: stages, players and committed looks as they were. -/
theorem none (hs : ∀ m, (v.link m).stage = (w.link m).stage) (hp : ∀ p, v.player p = w.player p)
    (hc : ∀ z, (v.zone z).committed = (w.zone z).committed) : w.Lost l (fun _ => false) v where
  stage := by simp [hs]
  others m _ := hs m
  committed := hc
  free p _ := hp p
  counted p _ hn := by simp [hp, Nat.min_eq_right hn]
  raised p _ hx := by simp at hx

theorem trans (a : w.Lost l g v) (b : v.Lost l h u) (ka : w.Kept v) (kb : v.Kept u) :
    w.Lost l (fun x => g x || h x) u where
  stage := by
    rw [b.stage, a.stage, List.filter_filter]
    congr 1
    funext x
    simp [Bool.and_comm]
  others m hm := (b.others m hm).trans (a.others m hm)
  committed z := (b.committed z).trans (a.committed z)
  free p hp := by rw [b.free p (by rw [a.free p hp]; exact hp), a.free p hp]
  counted p hp hn := by
    have ha := a.counted p hp hn
    have hb := b.counted p (by rw [ha]; exact hp) (by rw [ha]; exact Nat.min_le_left _ _)
    rw [hb, ha, a.stage]
    have hcount := countP_split (w.link l).stage (fun x => g x.addr) (fun x => h x.addr)
      (fun x => x.player == some p && !x.dropping)
    simp only [Bool.and_assoc]
    rw [hcount]
    congr 2
    omega
  raised p hp hx := by
    obtain ⟨x, hx, hg, hm⟩ := hx
    cases hga : g x.addr with
    | true => exact kb.raised _ (a.raised p hp ⟨x, hx, hga, hm⟩)
    | false =>
      refine b.raised p (by rw [ka.state p]; exact hp) ⟨x, ?_, by simpa [hga] using hg, hm⟩
      rw [a.stage]
      exact List.mem_filter.mpr ⟨hx, by simp [hga]⟩

theorem refsDistinct (a : w.Lost l g v) (hn : (w.link l).refsDistinct) : (v.link l).refsDistinct := by
  unfold Link.refsDistinct
  rw [a.stage]
  exact hn.sublist ((List.filter_sublist).map _)

end Lost

theorem loseDriver_lost (e : Env) (l : Fin 4) (a : Fin 16) (s : DriverState) (hd : w.undeferred)
    (hn : (w.link l).refsDistinct) : w.Lost l (fun b => b == a) (w.loseDriver e l a s) := by
  let v : World := (w.onDriver l a fun d =>
    { d with state := s, credits := 4, occupied := 0, backoff := .clear, poll := 0 }).onLink l fun k =>
    { k with
      transfer := k.transfer.filter (·.addr != a)
      pending := k.pending.filter (·.addr != a) }
  have hv : w.loseDriver e l a s = (v.loseEntries e l a).tidy e := rfl
  have hs : ∀ m, (v.link m).stage = (w.link m).stage ∧ (v.link m).deferred = (w.link m).deferred := by
    intro m
    simp only [v, onDriver, onLink_link]
    split <;> exact ⟨rfl, rfl⟩
  have ht := (v.loseEntries e l a).tidy_tidied e fun m => by
    rw [loseEntries, eachEntry, loseEach_deferred, (hs m).2]; exact hd m
  rw [hv]
  refine ⟨?_, fun m hm => ?_, fun z => ?_, fun p hp => ?_, fun p hp hc => ?_, fun p hp hx => ?_⟩
  · rw [ht.stage, loseEntries, eachEntry, loseEach_stage, (hs l).1]
    exact filter_refs hn fun x => x.addr == a
  · rw [ht.stage, loseEntries, eachEntry, loseEach_other _ _ _ _ (Ne.symm hm), (hs m).1]
  · rw [ht.zone, loseEntries, eachEntry, loseEach_committed]; rfl
  · rw [ht.player, loseEntries, eachEntry]; exact loseEach_free v e l _ p hp
  · have hk : (((v.link l).stage.filter fun x => x.addr == a).countP fun x =>
        x.player == some p && !x.dropping)
        = (w.link l).stage.countP fun x => x.addr == a && x.player == some p && !x.dropping := by
      rw [(hs l).1, countP_filter_and]
      simp only [Bool.and_assoc]
    rw [ht.player, loseEntries, eachEntry, loseEach_player v e l _ p hp hc, hk]
    rfl
  · have hr : ((v.loseEntries e l a).notices.get NoticeKind.lateTake.no).pending = true := by
      rw [loseEntries, eachEntry]
      refine loseEach_raised v e l _ p hp ?_
      obtain ⟨x, hx, ha, hm⟩ := hx
      exact ⟨x, List.mem_filter.mpr ⟨by rw [(hs l).1]; exact hx, ha⟩, hm⟩
    exact ((Kept.refl _).tidy e).raised _ hr

theorem dropDriver_lost (e : Env) (l : Fin 4) (a : Fin 16) (s : DriverState) (hd : w.undeferred)
    (hn : (w.link l).refsDistinct) :
    w.Lost l (fun b => b == a && (w.driver l b).deliverable) (w.dropDriver e l s a) := by
  unfold dropDriver
  split
  · next h =>
    convert w.loseDriver_lost e l a s hd hn using 2
    next b =>
    by_cases hb : b = a
    · subst hb; simp [h]
    · simp [hb]
  · next h =>
    convert Lost.none (l := l) (w := w) (v := w.onDriver l a fun d => { d with state := s })
      (fun m => ?_) (fun _ => rfl) (fun _ => rfl) using 2
    · next b =>
      by_cases hb : b = a
      · subst hb; simpa using h
      · simp [hb]
    · simp only [onDriver, onLink_link]
      split <;> rfl

theorem dropDriver_undeferred (e : Env) (l : Fin 4) (a : Fin 16) (s : DriverState) (hd : w.undeferred) :
    (w.dropDriver e l s a).undeferred := by
  intro m
  unfold dropDriver
  split
  · have hv (m : Fin 4) : ((((w.onDriver l a fun d =>
        { d with state := s, credits := 4, occupied := 0, backoff := .clear, poll := 0 }).onLink l fun k =>
        { k with
          transfer := k.transfer.filter (·.addr != a)
          pending := k.pending.filter (·.addr != a) }).loseEntries e l a).link m).deferred = [] := by
      rw [loseEntries, eachEntry, loseEach_deferred]
      simp only [onDriver, onLink_link]
      split <;> exact hd m
    rw [loseDriver, driverEntriesEnd, (tidy_tidied _ e hv).deferred, hv]
  · simp only [onDriver, onLink_link]
    split <;> exact hd m

theorem dropDriver_other (e : Env) (l : Fin 4) (a b : Fin 16) (s : DriverState) (h : a ≠ b) :
    (w.dropDriver e l s a).driver l b = w.driver l b := by
  unfold dropDriver
  split
  · rw [loseDriver, (Lists.driverEntriesEnd (Lists.refl _) e l a).driver]
    simp [driver, onDriver, Tab.get_upd_ne _ _ h]
  · simp [driver, onDriver, Tab.get_upd_ne _ _ h]

/-- Several drivers of a link lost, one by one. -/
theorem dropEach_lost (e : Env) (l : Fin 4) (s : DriverState) (as : List (Fin 16)) (hs : as.Nodup)
    (hd : w.undeferred) (hn : (w.link l).refsDistinct) :
    w.Lost l (fun b => as.contains b && (w.driver l b).deliverable) (w.each as (World.dropDriver e l s)) := by
  induction as generalizing w with
  | nil =>
    have := Lost.none (l := l) (w := w) (v := w) (fun _ => rfl) (fun _ => rfl) (fun _ => rfl)
    simpa using this
  | cons a as ih =>
    have h1 := w.dropDriver_lost e l a s hd hn
    have h2 := ih (w.dropDriver e l s a) (List.nodup_cons.mp hs).2 (w.dropDriver_undeferred e l a s hd)
      (h1.refsDistinct hn)
    have h3 := h1.trans h2 ((Kept.refl w).dropDriver e l s a)
      ((Kept.refl _).each as _ fun b _ hv => hv.dropDriver e l s b)
    rw [each_cons]
    convert h3 using 2
    next b =>
    by_cases hb : b = a
    · subst hb
      have hb : as.contains b = false := by simpa using (List.nodup_cons.mp hs).1
      rw [hb, List.contains_cons, hb]
      simp
    · rw [w.dropDriver_other e l a b s (Ne.symm hb), List.contains_cons, beq_eq_false_iff_ne.mpr hb]
      simp

/-! ## Entries withdrawn or discarded (R126, R129, R130) -/

/-- Each entry of the list after a removal is one of the list before, as it was or DROPPING, and one that stays
as it was has another reference, unless it was DROPPING already. -/
theorem removeEntry_stage (l : Fin 4) (x : Entry) (stop : DropEnd) (y : Entry)
    (hy : y ∈ ((w.removeEntry l x stop).link l).stage) :
    (y ∈ (w.link l).stage ∧ (y.ref ≠ x.ref ∨ x.dropping = true))
      ∨ ∃ z ∈ (w.link l).stage, ∃ end_ st, y = { z with state := .dropping end_ st } := by
  unfold removeEntry at hy
  split at hy
  case h_7 h => exact .inl ⟨hy, .inr (by simp [Entry.dropping, h])⟩
  case h_1 | h_2 =>
    rw [endEntry_link, if_pos rfl] at hy
    have := List.mem_filter.mp hy
    exact .inl ⟨this.1, .inl (by simpa using this.2)⟩
  all_goals
    rw [startDrop_link, if_pos rfl] at hy
    obtain ⟨z, hz, rfl⟩ := List.mem_map.mp hy
    by_cases h : z.ref = x.ref
    · rw [if_pos h]; exact .inr ⟨z, hz, _, _, rfl⟩
    · rw [if_neg h]; exact .inl ⟨hz, .inl h⟩

theorem removeEntry_deferred (l : Fin 4) (x : Entry) (stop : DropEnd) (m : Fin 4) :
    ((w.removeEntry l x stop).link m).deferred = (w.link m).deferred := by
  unfold removeEntry
  split <;> first
    | rfl
    | (rw [endEntry_link]; split <;> rfl)
    | (rw [startDrop_link]; split <;> rfl)

theorem removeEntry_other (l : Fin 4) (x : Entry) (stop : DropEnd) (m : Fin 4) (h : l ≠ m) :
    (w.removeEntry l x stop).link m = w.link m := by
  unfold removeEntry
  split <;> first
    | rfl
    | rw [endEntry_link, if_neg h]
    | rw [startDrop_link, if_neg h]

theorem removeEntry_committed (l : Fin 4) (x : Entry) (stop : DropEnd) (z : Fin 64) :
    ((w.removeEntry l x stop).zone z).committed = (w.zone z).committed := by
  unfold removeEntry
  split <;> first
    | rfl
    | exact w.endEntry_committed l x _ (toEnd_ne _) z

/-- A run of removals over the entries of one kind leaves none of the kind but on its way out. -/
theorem removeEach_dropping (l : Fin 4) (stop : DropEnd) (q : Entry → Bool) (xs : List Entry)
    (h : ∀ y ∈ (w.link l).stage, q y = true → y.dropping = true ∨ y ∈ xs) :
    ∀ y ∈ ((w.each xs fun x v => v.removeEntry l x stop).link l).stage, q y = true → y.dropping = true := by
  induction xs generalizing w with
  | nil => exact fun y hy hk => (h y hy hk).resolve_right (by simp)
  | cons x xs ih =>
    rw [each_cons]
    refine ih _ fun y hy hk => ?_
    rcases w.removeEntry_stage l x stop y hy with ⟨hm, hr⟩ | ⟨z, _, end_, st, rfl⟩
    · rcases h y hm hk with hd | hd
      · exact .inl hd
      · rcases List.mem_cons.mp hd with rfl | hd
        · rcases hr with hr | hr
          · exact absurd rfl hr
          · exact .inl hr
        · exact .inr hd
    · exact .inl rfl

theorem each_link {α : Type} (xs : List α) (f : α → World → World) (m : Fin 4)
    (h : ∀ x v, (f x v).link m = World.link v m) : (w.each xs f).link m = w.link m := by
  induction xs generalizing w with
  | nil => rfl
  | cons x xs ih => rw [each_cons, ih, h]

theorem dropItems_link (l : Fin 4) (p : Item → Bool) (m : Fin 4) :
    (w.dropItems l p).link m = if l = m then
      { w.link m with deferred := (w.link m).deferred.filter fun i => !p i } else w.link m := by
  unfold dropItems
  dsimp only
  rw [each_link _ _ _ m (by intro i v; cases i <;> rfl), onLink_link]

/-! ## What the tests and retries after an event put on a link (R119, R130, R134) -/

/-- Every entry of a link's stage list is of one kind, and every deferred item of another. -/
structure Holds (l : Fin 4) (P : Entry → Prop) (Q : Item → Prop) (w : World) : Prop where
  stage : ∀ x ∈ (w.link l).stage, P x
  deferred : ∀ i ∈ (w.link l).deferred, Q i

/-- The kinds fit the dispatcher: an entry of the kind that goes DROPPING is of the kind, and so is every
entry made from a deferred item. -/
structure Kinds (P : Entry → Prop) (Q : Item → Prop) : Prop where
  drop : ∀ x stop st, P x → P { x with state := .dropping stop st }
  single : ∀ ref a p look due, Q (.single ref a p look due) →
    P ⟨ref, a, p, none, 0, look, 0, due, .queued, .clear⟩
  group : ∀ p id due ms, Q (.group p id due ms) → ∀ m ∈ ms, ∀ ref tag hold,
    P ⟨ref, m.addr, some p, some id, tag, m.look, hold, due, .queued, .clear⟩

namespace Holds

variable {l : Fin 4} {P : Entry → Prop} {Q : Item → Prop} {w : World}

theorem onLink (h : w.Holds l P Q) (m : Fin 4) (f : Link → Link) (hs : (f (w.link m)).stage = (w.link m).stage)
    (hd : (f (w.link m)).deferred = (w.link m).deferred) : (w.onLink m f).Holds l P Q := by
  refine ⟨fun x hx => ?_, fun i hi => ?_⟩
  · rw [onLink_link] at hx
    split at hx
    · next e => subst e; rw [hs] at hx; exact h.stage x hx
    · exact h.stage x hx
  · rw [onLink_link] at hi
    split at hi
    · next e => subst e; rw [hd] at hi; exact h.deferred i hi
    · exact h.deferred i hi

theorem removeEntry (h : w.Holds l P Q) (k : Kinds P Q) (m : Fin 4) (x : Entry) (stop : DropEnd) :
    (w.removeEntry m x stop).Holds l P Q := by
  refine ⟨fun y hy => ?_, fun i hi => ?_⟩
  · by_cases hm : m = l
    · subst hm
      rcases w.removeEntry_stage m x stop y hy with ⟨hy, _⟩ | ⟨z, hz, end_, st, rfl⟩
      · exact h.stage y hy
      · exact k.drop z _ _ (h.stage z hz)
    · rw [w.removeEntry_other m x stop l hm] at hy
      exact h.stage y hy
  · rw [removeEntry_deferred] at hi
    exact h.deferred i hi

theorem same {v : World} (h : w.Holds l P Q) (hl : v.link l = w.link l) : v.Holds l P Q :=
  ⟨fun x hx => h.stage x (hl ▸ hx), fun i hi => h.deferred i (hl ▸ hi)⟩

theorem each {α : Type} (h : w.Holds l P Q) (xs : List α) (f : α → World → World)
    (hf : ∀ x ∈ xs, ∀ v : World, v.Holds l P Q → (f x v).Holds l P Q) : (w.each xs f).Holds l P Q := by
  induction xs generalizing w with
  | nil => exact h
  | cons x xs ih => exact ih (hf x (by simp) w h) fun y hy => hf y (by simp [hy])

theorem discardEntry (h : w.Holds l P Q) (k : Kinds P Q) (e : Env) (m : Fin 4) (x : Entry) :
    (w.discardEntry e m x).Holds l P Q := by
  unfold World.discardEntry
  split
  · exact h
  · exact (h.removeEntry k m x _).same (countTake_link _ _ _ _ _)

theorem mem_insertBy {α : Type} (before : α → α → Bool) (x y : α) (xs : List α) :
    y ∈ insertBy before x xs ↔ y = x ∨ y ∈ xs := by
  induction xs with
  | nil => simp [insertBy]
  | cons z zs ih =>
    unfold insertBy
    split
    · simp
    · simp only [List.mem_cons, ih]; tauto

theorem addEntry (h : w.Holds l P Q) (e : Env) (m : Fin 4) (x : Entry) (hx : m = l → P x) :
    (w.addEntry e m x).Holds l P Q := by
  have h1 : (w.onLink m fun k => { k with stage := insertBy Entry.before x k.stage }).Holds l P Q := by
    refine ⟨fun y hy => ?_, fun i hi => ?_⟩
    · rw [onLink_link] at hy
      split at hy
      · next hm =>
        rcases (mem_insertBy _ _ _ _).mp hy with rfl | hy
        · exact hx hm
        · exact h.stage y (hm ▸ hy)
      · exact h.stage y hy
    · rw [onLink_link] at hi
      split at hi
      · next hm => exact h.deferred i (hm ▸ hi)
      · exact h.deferred i hi
  unfold World.addEntry
  dsimp only
  split
  · exact h1.same rfl
  · exact h1

theorem addMember (h : w.Holds l P Q) (k : Kinds P Q) (e : Env) (m : Fin 4) (p : Fin 8) (id : GroupId)
    (due : Nat) (t : Fin 15) (lead : Nat) (x : Member)
    (hx : m = l → ∀ ref tag hold,
      P ⟨ref, x.addr, some p, some id, tag, x.look, hold, due, .queued, .clear⟩) :
    (w.addMember e m p id due t lead .queued x).Holds l P Q := by
  unfold World.addMember withRef supersede eachEntry
  refine each ?_ _ _ fun y _ v hv => hv.discardEntry k e m y
  exact addEntry (h.same (v := { w with nextRef := w.nextRef + 1 }) rfl) e m _ fun hm => hx hm _ _ _

theorem onPortions (h : w.Holds l P Q) (m : Fin 4) (p : Fin 8) (id : GroupId)
    (f : List Portion → List Portion) : (w.onPortions m p id f).Holds l P Q := h.same rfl

theorem closeTag (h : w.Holds l P Q) (m : Fin 4) (t : Fin 15) : (w.closeTag m t).Holds l P Q := by
  unfold World.closeTag
  split
  · exact h
  · next hold _ =>
    dsimp only
    have h1 : (if (hold.go == .pending &&
        !((w.link m).stage.filter (·.tag == tagNo t)).any Entry.keepsGo) = true
        then w.onLink m (Link.removeGo t) else w).Holds l P Q := by
      split
      · exact h.onLink m _ rfl rfl
      · exact h
    split
    · exact (h1.onLink m _ rfl rfl).onPortions _ _ _ _
    · exact h1

theorem makeHead (h : w.Holds l P Q) (k : Kinds P Q) {e : Env} {m : Fin 4} {v : World}
    (hv : w.makeHead e m = some v) : v.Holds l P Q := by
  have rest (i : Item) (is : List Item) (hd : (w.link m).deferred = i :: is) :
      (w.onLink m fun k => { k with deferred := is }).Holds l P Q := by
    refine ⟨fun x hx => ?_, fun j hj => ?_⟩
    · rw [onLink_link] at hx
      split at hx
      · next e => subst e; exact h.stage x hx
      · exact h.stage x hx
    · rw [onLink_link] at hj
      split at hj
      · next e => subst e; exact h.deferred j (by rw [hd]; exact List.mem_cons_of_mem _ hj)
      · exact h.deferred j hj
  unfold World.makeHead at hv
  dsimp only at hv
  split at hv
  · cases hv
  · next ref a p look due is hd =>
    split at hv
    · cases hv
      refine (rest _ _ hd).addEntry e m _ fun hm => k.single _ _ _ _ _ (h.deferred _ ?_)
      rw [← hm, hd]; exact List.mem_cons_self
    · cases hv
  · next p id due ms is hd =>
    split at hv
    · cases hv
    · split at hv
      · next t _ _ =>
        cases hv
        have hj : ((w.onLink m fun k => { k with deferred := is }).rejudge m p ms).2.Holds l P Q :=
          (rest _ _ hd).each _ _ fun _ _ v hv => by
            unfold World.count
            split
            · exact hv
            · exact hv.same rfl
        split
        · exact hj.onPortions _ _ _ _
        · unfold makePortion
          refine onPortions (onLink (each hj _ _ fun x hx v hv => ?_) m _ rfl rfl) _ _ _ _
          refine hv.addMember k e m p id due t _ x fun hm => ?_
          refine k.group p id due ms (h.deferred _ ?_) x ?_
          · rw [← hm, hd]; exact List.mem_cons_self
          · exact (List.mem_filter.mp hx).1
      · cases hv

theorem retryHead (h : w.Holds l P Q) (k : Kinds P Q) (e : Env) (m : Fin 4) :
    (w.retryHead e m).1.Holds l P Q := by
  unfold World.retryHead
  split
  · split
    · next hv => exact h.makeHead k hv
    · exact h.onLink m _ rfl rfl
  · exact h

theorem closeTags (h : w.Holds l P Q) (m : Fin 4) : (w.closeTags m).Holds l P Q :=
  h.each _ _ fun t _ _ hv => hv.closeTag m t

theorem retryLink (h : w.Holds l P Q) (k : Kinds P Q) (e : Env) (m : Fin 4) (n : Nat) :
    (w.retryLink e m n).Holds l P Q := by
  induction n generalizing w with
  | zero => exact h.closeTags m
  | succ n ih =>
    unfold World.retryLink
    dsimp only
    split
    · exact ih ((h.closeTags m).retryHead k e m)
    · exact (h.closeTags m).retryHead k e m

/-- The tests and retries put only entries of the kind on the stage list, and nothing on the deferred list. -/
theorem tidy (h : w.Holds l P Q) (k : Kinds P Q) (e : Env) : (w.tidy e).Holds l P Q :=
  h.each _ _ fun m _ _ hv => hv.retryLink k e m _

end Holds

end World
end Sys2Proof.Machine
end

