-- ==== Sys2Proof/Laws/Moves.lean ====
section
/-! SUPPORT. What the players, the plans, the monitor and the controller do to the blocks, as chains of a
few kinds of change (`World.Moves`), one lemma for each operation; and what every such chain keeps: claim
lists in rank order, and power outputs that fit the links' states. -/

namespace Sys2Proof.Machine

/-- What arming, ending and cancelling bookings leave of the plans: each bank's state and date, and its
bookings in their order. -/
structure Plans.Kept (p q : Plans) : Prop where
  state : ∀ bk, (q.bank bk).state = (p.bank bk).state
  date : ∀ bk, (q.bank bk).date = (p.bank bk).date
  ids : ∀ bk, (q.bank bk).list.map (·.booking.id) = (p.bank bk).list.map (·.booking.id)

/-- A change of the marks and outcomes of a bank's bookings. -/
theorem Plans.Kept.onEntry (p : Plans) (bk : Bank) (id : Nat) (f : BankEntry → BankEntry)
    (hf : ∀ x, (f x).booking.id = x.booking.id) : p.Kept (p.onBank bk (BankRec.onEntry id f)) := by
  have same (l : List BankEntry) :
      (l.map fun k => if k.booking.id = id then f k else k).map (·.booking.id)
        = l.map (·.booking.id) := by
    rw [List.map_map]
    apply List.map_congr_left
    intro x _
    simp only [Function.comp]
    split
    · exact hf x
    · rfl
  cases bk <;>
  · refine ⟨fun y => ?_, fun y => ?_, fun y => ?_⟩ <;> cases y <;>
      first | rfl | exact same _

/-- A chain of changes of the kinds that events bring about outside a restart; those that change a bank's
state, date or bookings, or the monitor, only where `banks` is true. -/
inductive World.Moves (banks : Bool) : World → World → Prop where
  | kept {w v : World} : w.Kept v → World.Moves banks w v
  | players (w : World) (t : Tab Player 8) : World.Moves banks w { w with players := t }
  | plans (w : World) (p : Plans) : w.plans.Kept p → World.Moves banks w { w with plans := p }
  | banks (w : World) (p : Plans) : banks = true → World.Moves banks w { w with plans := p }
    | monitor (w : World) (m : Monitor) : banks = true → World.Moves banks w { w with monitor := m }
  | ctl (w : World) (c : Controller) : World.Moves banks w { w with ctl := c }
  | zone (w : World) (z : Fin 64) (f : Zone → Zone) :
      (f (w.zone z)).claims = (w.zone z).claims → World.Moves banks w (w.onZone z f)
  | enter (w : World) (z : Fin 64) (c : Claim) :
      World.Moves banks w (w.onZone z fun r => { r with claims := enterClaim c r.claims })
  | leave (w : World) (z : Fin 64) (p : Fin 8) :
      World.Moves banks w (w.onZone z fun r => { r with claims := r.claims.filter (·.player != p) })
  | link (w : World) (l : Fin 4) (f : Link → Link) :
      ((w.link l).powerFits → (f (w.link l)).powerFits) → World.Moves banks w (w.onLink l f)
  | trans {u v w : World} : World.Moves banks u v → World.Moves banks v w → World.Moves banks u w

namespace World.Moves

variable {bks : Bool} {u w : World}

theorem refl (w : World) : w.Moves bks w := .kept (Kept.refl w)

theorem keep {v : World} (h : u.Moves bks w) (k : w.Kept v) : u.Moves bks v := h.trans (.kept k)

theorem raise (h : u.Moves bks w) (e : Env) (k : NoticeKind) : u.Moves bks (w.raise e k) :=
  h.keep ((Kept.refl w).raise e k)

theorem onPlayer (h : u.Moves bks w) (p : Fin 8) (f : Player → Player) : u.Moves bks (w.onPlayer p f) :=
  h.trans (.players w _)

theorem onBank (h : u.Moves true w) (bk : Bank) (f : BankRec → BankRec) :
    u.Moves true (w.onBank bk f) := h.trans (.banks w _ rfl)

theorem onEntry (h : u.Moves bks w) (bk : Bank) (id : Nat) (f : BankEntry → BankEntry)
    (hf : ∀ x, (f x).booking.id = x.booking.id) : u.Moves bks (w.onEntry bk id f) :=
  h.trans (.plans w _ (Plans.Kept.onEntry w.plans bk id f hf))

theorem onOutcome (h : u.Moves bks w) (bk : Bank) (id : Nat) (f : Report → Report) :
    u.Moves bks (w.onOutcome bk id f) := h.onEntry bk id _ fun _ => rfl

theorem withWait (h : u.Moves bks w) (wait : List Nat) (seq : Nat) :
    u.Moves bks { w with plans := { w.plans with wait := wait, armSeq := seq } } :=
  h.trans (.plans w _ ⟨fun bk => by cases bk <;> rfl, fun bk => by cases bk <;> rfl,
    fun bk => by cases bk <;> rfl⟩)

theorem withMonitor (h : u.Moves true w) (m : Monitor) : u.Moves true { w with monitor := m } :=
  h.trans (.monitor w m rfl)

theorem withCtl (h : u.Moves bks w) (c : Controller) : u.Moves bks { w with ctl := c } := h.trans (.ctl w c)

theorem each (h : u.Moves bks w) {α : Type} (xs : List α) (f : α → World → World)
    (hf : ∀ x (v : World), u.Moves bks v → u.Moves bks (f x v)) : u.Moves bks (w.each xs f) := by
  induction xs generalizing w with
  | nil => exact h
  | cons x xs ih => exact ih (hf x w h)

/-! ## The controller -/

theorem changeState (h : u.Moves bks w) (e : Env) (s : OpState) (c : ChangeCause) :
    u.Moves bks (w.changeState e s c) := (h.withCtl _).raise e _

theorem enterDark (h : u.Moves bks w) (e : Env) (c : ChangeCause) : u.Moves bks (w.enterDark e c) :=
  (h.changeState e _ c).each _ _ fun l v hv => hv.keep ((Kept.refl v).quiesceOrder e l)

theorem clearAsleep (h : u.Moves bks w) : u.Moves bks w.clearAsleep := h.withCtl _

theorem wakeLinks (h : u.Moves bks w) : u.Moves bks w.wakeLinks :=
  h.each _ _ fun l v hv => hv.keep ((Kept.refl v).wakeOrder l)

theorem wakeCause (h : u.Moves bks w) (e : Env) (c : ChangeCause) : u.Moves bks (w.wakeCause e c) := by
  unfold World.wakeCause
  split
  · exact (h.changeState e _ c).clearAsleep.wakeLinks
  · exact h

theorem park (h : u.Moves true w) (e : Env) : u.Moves true (w.park e) :=
  ((h.changeState e _ _).clearAsleep.withMonitor _).each _ _ fun l v hv =>
    hv.keep ((Kept.refl v).linkOff e l)

theorem unpark (h : u.Moves bks w) (e : Env) : u.Moves bks (w.unpark e) :=
  (h.changeState e _ _).each _ _ fun l v hv => hv.keep ((Kept.refl v).warmUp e l)

theorem recordTest (h : u.Moves bks w) (e : Env) (r : DarkResult) : u.Moves bks (w.recordTest e r) :=
  h.withCtl _

theorem autoDark (h : u.Moves bks w) (e : Env) : u.Moves bks (w.autoDark e) := by
  unfold World.autoDark
  dsimp only
  split
  · split
    · exact (h.recordTest e _).enterDark e _
    · exact h.recordTest e _
  · exact h

theorem guardExpiry (h : u.Moves bks w) (e : Env) : u.Moves bks (w.guardExpiry e) := by
  unfold World.guardExpiry
  split
  · exact (h.withCtl _).autoDark e
  · exact h

/-! ## The arbiter -/

theorem claim (h : u.Moves bks w) (e : Env) (z : Fin 64) (c : Claim) : u.Moves bks (w.claim e z c) := by
  unfold World.claim
  dsimp only
  refine keep ?_ ((Kept.refl _).claimReaches e _)
  split
  · exact h.trans (.enter w z c)
  · split
    · exact (h.trans (.enter w z c)).keep ((Kept.refl _).gain e z)
    · next old _ =>
      have k := (((Kept.refl w).withdrawZone e old z).count old Counters.addPreempted)
      exact ((h.keep k).trans (.enter _ z c)).keep ((Kept.refl _).gain e z)

theorem releaseZone (h : u.Moves bks w) (e : Env) (p : Fin 8) (z : Fin 64) :
    u.Moves bks (w.releaseZone e p z) := by
  unfold World.releaseZone
  dsimp only
  split
  · exact h
  · have h := h.trans (.leave w z p)
    split
    · exact h
    · split
      · exact h.keep ((Kept.refl _).fallbackTake e z)
      · exact h.keep ((Kept.refl _).gain e z)

/-! ## The players -/

theorem reportOn (h : u.Moves bks w) (p : Fin 8) (f : Report → Report) : u.Moves bks (w.reportOn p f) := by
  unfold World.reportOn
  split
  · exact h
  · exact h.onOutcome _ _ _

theorem enterState (h : u.Moves bks w) (p : Fin 8) (s : PlayerState) : u.Moves bks (w.enterState p s) :=
  (h.onPlayer p _).reportOn p _

theorem setStart (h : u.Moves bks w) (p : Fin 8) (tick : Nat) : u.Moves bks (w.setStart p tick) :=
  (h.onPlayer p _).reportOn p _

theorem sendClaims (h : u.Moves bks w) (e : Env) (p : Fin 8) : u.Moves bks (w.sendClaims e p) := by
  unfold World.sendClaims
  dsimp only
  split
  · exact h
  · split
    · exact h
    · refine h.each _ _ fun z v hv => ?_
      split
      · exact hv
      · exact hv.claim e z _

theorem walkEnds (h : u.Moves bks w) (s : ShowRec) (p : Fin 8) : u.Moves bks (w.walkEnds s p) := by
  unfold World.walkEnds
  dsimp only
  split
  · exact h.enterState p _
  · exact h

theorem takeGroup (h : u.Moves bks w) (e : Env) (p : Fin 8) (id : GroupId) (due : Nat)
    (cues : List CueItem) : u.Moves bks (w.takeGroup e p id due cues) :=
  h.keep ((Kept.refl w).takeGroup e p id due cues)

theorem handOn (h : u.Moves bks w) (e : Env) (p : Fin 8) : u.Moves bks (w.handOn e p) := by
  unfold World.handOn
  dsimp only
  split
  · exact h
  · refine walkEnds (onPlayer ?_ p _) _ p
    split
    · exact h.onPlayer p _
    · exact (h.onPlayer p _).takeGroup e p _ _ _

theorem handFor (h : u.Moves bks w) (e : Env) (p : Fin 8) (n : Nat) : u.Moves bks (w.handFor e p n) := by
  induction n generalizing w with
  | zero => exact h
  | succ n ih =>
    unfold World.handFor
    split
    · exact ih (h.handOn e p)
    · exact h

theorem handAll (h : u.Moves bks w) (e : Env) (p : Fin 8) : u.Moves bks (w.handAll e p) := h.handFor e p _

theorem handReachFor (h : u.Moves bks w) (e : Env) (p : Fin 8) (n : Nat) :
    u.Moves bks (w.handReachFor e p n) := by
  induction n generalizing w with
  | zero => exact h
  | succ n ih =>
    unfold World.handReachFor
    split
    · exact ih (h.handOn e p)
    · exact h

theorem handReached (h : u.Moves bks w) (e : Env) (p : Fin 8) : u.Moves bks (w.handReached e p) :=
  h.handReachFor e p _

theorem cutHands (h : u.Moves bks w) (e : Env) (p : Fin 8) (t : Nat) : u.Moves bks (w.cutHands e p t) :=
  (h.onPlayer p _).each _ _ fun r v hv => hv.keep ((Kept.refl v).withdrawGroup e p r.id)

theorem endGracefully (h : u.Moves bks w) (e : Env) (p : Fin 8) (t : Nat) (cause : EndCause)
    (fresh : Bool) : u.Moves bks (w.endGracefully e p t cause fresh) :=
  ((h.cutHands e p t).onPlayer p _).enterState p _

theorem checkStop (h : u.Moves bks w) (e : Env) (p : Fin 8) : u.Moves bks (w.checkStop e p) := by
  unfold World.checkStop
  split
  · split
    · exact h.endGracefully e p _ _ _
    · exact h
  · exact h

theorem endBooking (h : u.Moves bks w) (e : Env) (p : Fin 8) (final : Progress) (abrupt : Bool) :
    u.Moves bks (w.endBooking e p final abrupt) := by
  unfold World.endBooking
  dsimp only
  refine onPlayer (raise (reportOn ?_ p _) e _) p _
  split
  · exact h
  · exact (h.keep ((Kept.refl w).withdrawPlayer e p)).each _ _ fun z _ hv => hv.releaseZone e p z

theorem mainStart (h : u.Moves bks w) (e : Env) (p : Fin 8) : u.Moves bks (w.mainStart e p) := by
  unfold World.mainStart
  dsimp only
  refine checkStop (enterState (setStart (onPlayer ?_ p _) p _) p _) e p
  split
  · exact h.cutHands e p _
  · exact h.sendClaims e p

theorem readStart (h : u.Moves bks w) (e : Env) (p : Fin 8) : u.Moves bks (w.readStart e p) := by
  unfold World.readStart
  split
  · split
    · exact h.mainStart e p
    · exact h
  · exact h

theorem enterWaiting (h : u.Moves bks w) (e : Env) (p : Fin 8) (epoch : Nat) :
    u.Moves bks (w.enterWaiting e p epoch) := by
  unfold World.enterWaiting
  dsimp only
  split
  · exact ((h.sendClaims e p).onPlayer p _).enterState p _
  · exact h.enterState p _

theorem runFrom (h : u.Moves bks w) (e : Env) (p : Fin 8) (epoch : Nat) : u.Moves bks (w.runFrom e p epoch) :=
  (((h.sendClaims e p).onPlayer p _).setStart p _).enterState p _

theorem beginShow (h : u.Moves bks w) (e : Env) (p : Fin 8) : u.Moves bks (w.beginShow e p) := by
  unfold World.beginShow
  dsimp only
  split
  · exact (h.runFrom e p _).checkStop e p
  · exact (h.enterWaiting e p _).readStart e p
  · exact h

theorem joinShow (h : u.Moves bks w) (e : Env) (p : Fin 8) : u.Moves bks (w.joinShow e p) := by
  unfold World.joinShow
  dsimp only
  split
  · exact h.endBooking e p _ _
  · exact ((((((h.onPlayer p _).setStart p _).sendClaims e p).enterState p _).walkEnds _ p).checkStop e
      p).handAll e p

theorem restartShow (h : u.Moves bks w) (e : Env) (p : Fin 8) : u.Moves bks (w.restartShow e p) :=
  (h.runFrom e p _).handAll e p

theorem waitLate (h : u.Moves bks w) (e : Env) (p : Fin 8) : u.Moves bks (w.waitLate e p) := by
  unfold World.waitLate
  dsimp only
  split
  · split
    · exact ((((h.onPlayer p _).sendClaims e p).enterState p _).readStart e p).handAll e p
    · exact ((h.enterWaiting e p _).readStart e p).handAll e p
  · split
    · exact ((h.enterWaiting e p _).readStart e p).handAll e p
    · exact h

theorem lateStart (h : u.Moves bks w) (e : Env) (p : Fin 8) : u.Moves bks (w.lateStart e p) := by
  unfold World.lateStart
  dsimp only
  split
  · exact h
  · exact h.joinShow e p
  · exact h.restartShow e p
  · exact h.waitLate e p

theorem cutRunning (h : u.Moves bks w) (e : Env) (p : Fin 8) : u.Moves bks (w.cutRunning e p) :=
  h.endGracefully e p _ _ _

/-! ## The plans -/

theorem skipLate (h : u.Moves bks w) (e : Env) (bk : Bank) (id : Nat) : u.Moves bks (w.skipLate e bk id) :=
  (h.onOutcome bk id _).raise e _

theorem armInto (h : u.Moves bks w) (e : Env) (p : Fin 8) (bk : Bank) (k : Booking) (m : LateMark) :
    u.Moves bks (w.armInto e p bk k m) :=
  ((((h.withWait _ _).onOutcome bk k.id _).onPlayer p _).wakeCause e _).lateStart e p

theorem fillJudged (h : u.Moves bks w) (e : Env) (p : Fin 8) (bk : Bank) (k : Booking)
    (j : Option LateMark) : u.Moves bks (w.fillJudged e p bk k j) := by
  cases j
  · exact h.skipLate e bk k.id
  · exact h.armInto e p bk k _

theorem fillWith (h : u.Moves bks w) (e : Env) (p : Fin 8) (bk : Bank) (id : Nat) :
    u.Moves bks (w.fillWith e p bk id) := by
  unfold World.fillWith
  split
  · exact h
  · exact h.fillJudged e p bk _ _

theorem fillHead (h : u.Moves bks w) {e : Env} {p : Fin 8} {v : World} (hv : w.fillHead e p = some v) :
    u.Moves bks v := by
  unfold World.fillHead at hv
  split at hv
  · cases hv
  · split at hv
    · cases hv; exact (h.withWait _ _).fillWith e p _ _
    · cases hv

theorem fillFor (h : u.Moves bks w) (e : Env) (p : Fin 8) (n : Nat) : u.Moves bks (w.fillFor e p n) := by
  induction n generalizing w with
  | zero => exact h
  | succ n ih =>
    unfold World.fillFor
    split
    · exact h
    · next hv => exact ih (h.fillHead hv)

theorem freed (h : u.Moves bks w) (e : Env) (p : Fin 8) : u.Moves bks (w.freed e p) :=
  (h.fillFor e p _).autoDark e

theorem finish (h : u.Moves bks w) (e : Env) (p : Fin 8) (final : Progress) (abrupt : Bool) :
    u.Moves bks (w.finish e p final abrupt) := (h.endBooking e p final abrupt).freed e p

theorem joinWait (h : u.Moves bks w) (e : Env) (bk : Bank) (k : Booking) : u.Moves bks (w.joinWait e bk k) :=
  ((h.withWait _ _).onOutcome bk k.id _).raise e _

theorem freedAtOnce (h : u.Moves bks w) (e : Env) (p : Fin 8) : u.Moves bks (w.freedAtOnce e p) := by
  unfold World.freedAtOnce
  split
  · exact h.freed e p
  · exact h

theorem armOrWait (h : u.Moves bks w) (e : Env) (bk : Bank) (k : Booking) (m : LateMark) :
    u.Moves bks (w.armOrWait e bk k m) := by
  unfold World.armOrWait
  split
  · exact h.joinWait e bk k
  · exact (h.armInto e _ bk k m).freedAtOnce e _

theorem armJudged (h : u.Moves bks w) (e : Env) (bk : Bank) (k : Booking) (j : Option LateMark) :
    u.Moves bks (w.armJudged e bk k j) := by
  cases j
  · exact h.skipLate e bk _
  · exact h.armOrWait e bk k _

theorem armOne (h : u.Moves bks w) (e : Env) (bk : Bank) (k : Booking) : u.Moves bks (w.armOne e bk k) := by
  unfold World.armOne
  dsimp only
  have h := h.onEntry bk k.id (fun x => { x with armHeld := false }) fun _ => rfl
  split
  · exact h
  · exact h.armJudged e bk k _

theorem armBatch (h : u.Moves bks w) (e : Env) (all : Bool) : u.Moves bks (w.armBatch e all) := by
  unfold World.armBatch
  split
  · exact h
  · exact h.each _ _ fun k _ hv => hv.armOne e _ k

theorem armFirst (h : u.Moves bks w) (e : Env) : u.Moves bks (w.armFirst e) := by
  unfold World.armFirst
  split
  · exact h
  · split
    · exact h
    · exact h.armOne e _ _

theorem flushWait (h : u.Moves bks w) (e : Env) (bk : Bank) : u.Moves bks (w.flushWait e bk) := by
  unfold World.flushWait
  split
  · exact h
  · exact ((h.each _ _ fun id _ hv => hv.onOutcome bk id _).withWait _ _).raise e _

theorem leaveForce (h : u.Moves true w) (e : Env) (bk : Bank) (s : BankState) :
    u.Moves true (w.leaveForce e bk s) := by
  unfold World.leaveForce
  dsimp only
  split
  · exact (h.onBank bk _).flushWait e bk
  · split
    · exact h.onBank bk _
    · exact h

theorem comeIntoForce (h : u.Moves true w) (e : Env) (bk : Bank) : u.Moves true (w.comeIntoForce e bk) :=
  ((h.leaveForce e _ _).onBank bk _).armBatch e true

theorem noteMissing (h : u.Moves bks w) (e : Env) : u.Moves bks (w.noteMissing e) := by
  unfold World.noteMissing
  split
  · exact h.raise e _
  · exact h

theorem forDate (h : u.Moves true w) (e : Env) (d : Date) : u.Moves true (w.forDate e d) := by
  unfold World.forDate
  split
  · exact h.comeIntoForce e _
  · exact h.leaveForce e _ _
  · exact h

theorem swapBanks (h : u.Moves true w) (e : Env) (d : Date) : u.Moves true (w.swapBanks e d) :=
  (h.forDate e d).noteMissing e

theorem dayRoll (h : u.Moves true w) (e : Env) (d : Date) : u.Moves true (w.dayRoll e d) :=
  ((h.swapBanks e d).raise e _).autoDark e

theorem dateSet (h : u.Moves true w) (e : Env) (d : Date) : u.Moves true (w.dateSet e d) := by
  refine autoDark ?_ e
  split
  · split
    · exact h
    · exact h.swapBanks e d
  · exact h.swapBanks e d

theorem act (h : u.Moves bks w) (e : Env) (p : Fin 8) (k : PointKind) : u.Moves bks (w.act e p k) := by
  unfold World.act
  split
  · exact (h.beginShow e p).handReached e p
  · exact h.finish e p _ _
  · split
    · exact (h.cutRunning e p).handReached e p
    · exact h.finish e p _ _
    · exact h.finish e p _ _
  · exact h.onPlayer p _
  · exact h.handReached e p
  · exact h.finish e p _ _

theorem pointsFor (h : u.Moves bks w) (e : Env) (p : Fin 8) (n : Nat) : u.Moves bks (w.pointsFor e p n) := by
  induction n generalizing w with
  | zero => exact h
  | succ n ih =>
    unfold World.pointsFor
    split
    · exact h
    · exact ih (h.act e p _)

theorem playerPoints (h : u.Moves bks w) (e : Env) (p : Fin 8) : u.Moves bks (w.playerPoints e p) :=
  h.pointsFor e p _

theorem openReach (h : u.Moves bks w) : u.Moves bks w.openReach := h.trans (.players w _)

theorem sendTicks (h : u.Moves bks w) (now : Nat) (l : Fin 4) : u.Moves bks (w.sendTicks now l) :=
  h.keep ((Kept.refl w).sendTicks now l)

theorem reach (h : u.Moves bks w) (e : Env) : u.Moves bks (w.reach e) :=
  (((h.armBatch e false).each _ _ fun p _ hv => hv.playerPoints e p).each _ _ fun l _ hv =>
    hv.sendTicks e.now l).each _ _ fun g v hv => hv.keep ((Kept.refl v).expire e g)

theorem roleOf (h : u.Moves bks w) (e : Env) (ch p : Fin 8) : u.Moves bks (w.roleOf e ch p) := by
  unfold World.roleOf
  split
  · split
    · exact (h.mainStart e p).handAll e p
    · exact h
  · split
    · exact (h.checkStop e p).handAll e p
    · exact h
  · split
    · exact h.finish e p _ _
    · exact h
  · split
    · exact (h.endGracefully e p _ _ _).handAll e p
    · exact h
  · exact h

theorem allStop (h : u.Moves bks w) (e : Env) (was : Fin 8 × Option (Bank × Nat)) :
    u.Moves bks (w.allStop e was) := by
  unfold World.allStop
  split
  · exact h.finish e _ _ _
  · exact h

theorem turnTrue (h : u.Moves bks w) (e : Env) (ch : Fin 8) (stopAll wake : Bool) :
    u.Moves bks (w.turnTrue e ch stopAll wake) := by
  unfold World.turnTrue
  dsimp only
  have h1 := h.each (upTo 8) (World.roleOf e ch) fun p _ hv => hv.roleOf e ch p
  cases stopAll <;> cases wake <;> simp only [Bool.false_eq_true, if_false, if_true]
  · exact h1
  · exact h1.wakeCause e _
  · exact h.each _ _ fun was _ hv => hv.allStop e was
  · exact (h.each _ _ fun was _ hv => hv.allStop e was).wakeCause e _

/-! ## The monitor -/

theorem setChannel (h : u.Moves true w) (ch : Fin 8) (c : Channel) :
    u.Moves true (w.setChannel ch c) := h.trans (.monitor w _ rfl)

theorem takeTurn (h : u.Moves true w) (e : Env) (ch : Fin 8) (c : Channel) (r : Nat) :
    u.Moves true (w.takeTurn e ch c r) := by
  unfold World.takeTurn
  dsimp only
  split
  · exact ((h.setChannel ch _).raise e _).turnTrue e ch _ _
  · exact (h.setChannel ch _).raise e _

theorem takeJudged (h : u.Moves true w) (e : Env) (ch : Fin 8) (r : Nat) (j : Channel × Bool) :
    u.Moves true (w.takeJudged e ch r j) := by
  unfold World.takeJudged
  split
  · exact h.takeTurn e ch _ r
  · exact h.setChannel ch _

theorem judgeChannel (h : u.Moves true w) (e : Env) (converted : List (Fin 4)) (ch : Fin 8) :
    u.Moves true (w.judgeChannel e converted ch) := by
  unfold World.judgeChannel
  dsimp only
  split
  · exact h
  · split
    · exact h.takeJudged e ch _ _
    · exact h

theorem scanEnd (h : u.Moves true w) (e : Env) (converted : List (Fin 4)) :
    u.Moves true (w.scanEnd e converted) :=
  (h.withMonitor _).each _ _ fun ch _ hv => hv.judgeChannel e converted ch

theorem scanStart (h : u.Moves true w) (e : Env) (closed : Fin 4 → Bool) : u.Moves true (w.scanStart e closed) := by
  unfold World.scanStart
  dsimp only
  split
  · exact h
  · split
    · exact (h.withMonitor _).scanEnd e _
    · exact (h.withMonitor _).withMonitor _

theorem conversionEnd (h : u.Moves true w) (e : Env) (reading : Nat) :
    u.Moves true (w.conversionEnd e reading) := by
  unfold World.conversionEnd
  dsimp only
  split
  · split
    · exact (h.withMonitor _).scanEnd e _
    · exact h.withMonitor _
  · exact h

theorem pumpAll (h : u.Moves bks w) (e : Env) : u.Moves bks (w.pumpAll e) := h.keep ((Kept.refl w).pumpAll e)

theorem tick (h : u.Moves true w) : u.Moves true w.tick := by
  have step (v : World) (l : Fin 4) : v.Moves true (v.onLink l (Link.tick (w.configured l))) :=
    .link v l _ id
  have h4 := (((((h.trans (step _ 0)).trans (step _ 1)).trans (step _ 2)).trans (step _ 3)).withMonitor
    (w.monitor.tick w.ctl.state)).withCtl w.ctl.tick
  have : (((w.links.upd 0 (Link.tick (w.configured 0))).upd 1 (Link.tick (w.configured 1))).upd 2
      (Link.tick (w.configured 2))).upd 3 (Link.tick (w.configured 3)) =
      Tab.ofFn 4 fun l => (w.link l).tick (w.configured l) := by
    apply Tab.ext_get
    intro i
    fin_cases i <;> simp [Tab.get_upd, World.link]
  have same : w.tick = { w with
      links := (((w.links.upd 0 (Link.tick (w.configured 0))).upd 1 (Link.tick (w.configured 1))).upd 2
        (Link.tick (w.configured 2))).upd 3 (Link.tick (w.configured 3))
      monitor := w.monitor.tick w.ctl.state
      ctl := w.ctl.tick } := by
    unfold World.tick
    rw [this]
  rw [same]
  exact h4

/-! ## Replies -/

theorem echoTaken (h : u.Moves bks w) (l : Fin 4) (a : Fin 16) (latency roundTrip : Nat) :
    u.Moves bks (w.echoTaken l a latency roundTrip) := by
  unfold World.echoTaken
  dsimp only
  have k := (Kept.refl w).onDriver l a fun d => { d with latency := some latency }
  split
  · split
    · exact h.keep k
    · split
      · exact h.keep (k.onLink l _ rfl (fun h => h))
      · exact ((h.keep k).trans (.zone _ _ _ rfl)).keep ((Kept.refl _).onLink l _ rfl (fun h => h))
  · exact h.keep k

theorem takeReply (h : u.Moves bks w) (e : Env) (l : Fin 4) (t : Transfer) (r : DriverReply)
    (roundTrip : Nat) : u.Moves bks (w.takeReply e l t r roundTrip) := by
  have k := Kept.refl w
  unfold World.takeReply
  split
  · exact h.keep (k.stageTaken e l _ _ _)
  · exact h.keep (k.onDriver l _ _)
  · exact h.keep ((k.onDriver l _ _).dropEnded e l _)
  · exact h
  · exact h.keep (k.pollTaken e l t _ _ r)
  · exact h.echoTaken l _ _ _
  · exact h.keep (k.dropDriver e l _ _)

theorem replyTaken (h : u.Moves bks w) (e : Env) (l : Fin 4) (t : Transfer) (r : DriverReply)
    (roundTrip : Nat) : u.Moves bks (w.replyTaken e l t r roundTrip) := by
  unfold World.replyTaken
  dsimp only
  have k := ((Kept.refl w).onLink l (fun k => { k with transfer := none }) rfl (fun h => h)).onDriver l
    t.addr fun d => { d with slotsFree := some r.slotsFree, flags := some r.flags }
  have h := (h.keep k).takeReply e l t r roundTrip
  split
  · exact h.keep (((Kept.refl _).restoreTake e _).raise e _)
  · exact h

theorem hearFrame (h : u.Moves bks w) (e : Env) (l : Fin 4) (bytes : List Byte) (roundTrip : Nat) :
    u.Moves bks (w.hearFrame e l bytes roundTrip) := by
  unfold World.hearFrame
  split
  · exact h.keep ((Kept.refl w).noFrame e l)
  · have h := h.keep ((Kept.refl w).frames l)
    dsimp only
    split
    · exact h.replyTaken e l _ _ _
    · exact h.keep ((Kept.refl _).badReply e l)
  · exact h.keep (((Kept.refl w).frames l).badReply e l)

theorem hearFor (h : u.Moves bks w) (e : Env) (l : Fin 4) (roundTrip n : Nat) (bytes : List Byte) :
    u.Moves bks (w.hearFor e l roundTrip n bytes) := by
  induction n generalizing bytes w with
  | zero => exact h
  | succ n ih =>
    cases bytes with
    | nil => exact h
    | cons x rest =>
      unfold World.hearFor
      split
      · exact h
      · split
        · exact ih (h.hearFrame e l _ roundTrip) _
        · refine ih ?_ _
          split
          · exact h
          · exact h.keep ((Kept.refl w).noFrame e l)

theorem driverReply (h : u.Moves bks w) (e : Env) (l : Fin 4) (bytes : List Byte) (roundTrip : Nat) :
    u.Moves bks (w.driverReply e l bytes roundTrip) := h.hearFor e l roundTrip _ bytes

/-! ## Requests -/

theorem forBank (h : u.Moves bks w) (n : Nat) (k : Bank → World × Answer) (hk : ∀ bk, u.Moves bks (k bk).1) :
    u.Moves bks (Machine.forBank w n k).1 := by
  unfold Machine.forBank
  split
  · exact h
  · exact hk _

theorem forPlayer (h : u.Moves bks w) (n : Nat) (k : Fin 8 → World × Answer)
    (hk : ∀ p, u.Moves bks (k p).1) : u.Moves bks (Machine.forPlayer w n k).1 := by
  unfold Machine.forPlayer
  split
  · exact h
  · exact hk _

theorem forLink (h : u.Moves bks w) (n : Nat) (k : Fin 4 → World × Answer) (hk : ∀ l, u.Moves bks (k l).1) :
    u.Moves bks (Machine.forLink w n k).1 := by
  unfold Machine.forLink
  split
  · exact h
  · exact hk _

theorem forZone (h : u.Moves bks w) (n : Nat) (k : Fin 64 → World × Answer) (hk : ∀ z, u.Moves bks (k z).1) :
    u.Moves bks (Machine.forZone w n k).1 := by
  unfold Machine.forZone
  split
  · exact h
  · exact hk _

theorem forChannel (h : u.Moves bks w) (n : Nat) (k : Fin 8 → World × Answer)
    (hk : ∀ ch, u.Moves bks (k ch).1) : u.Moves bks (Machine.forChannel w n k).1 := by
  unfold Machine.forChannel
  split
  · exact h
  · exact hk _

theorem openPlan (h : u.Moves true w) (n : Nat) (d : Date) : u.Moves true (w.openPlan n d).1 := by
  refine h.forBank n _ fun bk => ?_
  dsimp only
  repeat' split
  all_goals first | exact h | exact h.onBank bk _

theorem addBooking (h : u.Moves true w) (e : Env) (n : Nat) (f : BookingField) :
    u.Moves true (w.addBooking e n f).1 := by
  refine h.forBank n _ fun bk => ?_
  dsimp only
  split
  · exact h
  · split
    · exact h
    · split
      · exact h
      · split
        · exact h
        · split
          · exact h.onBank bk _
          · split
            · exact h
            · split
              · exact (h.onBank bk _).armOne e bk _
              · exact h.onBank bk _

theorem sealPlan (h : u.Moves true w) (e : Env) (n : Nat) : u.Moves true (w.sealPlan e n).1 := by
  refine h.forBank n _ fun bk => ?_
  dsimp only
  repeat' split
  all_goals first | exact h | exact h.onBank bk _

theorem activatePlan (h : u.Moves true w) (e : Env) (unset : Bool) (today : Date) (n : Nat) :
    u.Moves true (w.activatePlan e unset today n).1 := by
  refine h.forBank n _ fun bk => ?_
  split
  · exact h
  · split
    · exact h
    · split
      · exact h
      · exact (h.comeIntoForce e bk).autoDark e

theorem clearPlan (h : u.Moves true w) (n : Nat) : u.Moves true (w.clearPlan n).1 := by
  refine h.forBank n _ fun bk => ?_
  repeat' split
  all_goals first | exact h | exact h.onBank bk _

theorem cancelGracefully (h : u.Moves bks w) (e : Env) (p : Fin 8) : u.Moves bks (w.cancelGracefully e p) := by
  unfold World.cancelGracefully
  split
  · exact (h.endGracefully e p _ _ _).handAll e p
  · exact ((h.endGracefully e p _ _ _).onPlayer p _).handAll e p
  · exact h
  · exact h
  · exact h.finish e p _ _

theorem forBooking (h : u.Moves bks w) (bk : Bank) (id : Nat) (k : BankEntry → World × Answer)
    (hk : ∀ x, u.Moves bks (k x).1) : u.Moves bks (w.forBooking bk id k).1 := by
  unfold World.forBooking
  split
  · exact h
  · split
    · exact h
    · exact hk _

theorem cancelIn (h : u.Moves bks w) (e : Env) (hard : Bool) (p : Option (Fin 8)) :
    u.Moves bks (w.cancelIn e hard p) := by
  unfold World.cancelIn
  split
  · exact h
  · split
    · exact h.finish e _ _ _
    · exact h.cancelGracefully e _

theorem cancelTaken (h : u.Moves bks w) (e : Env) (bk : Bank) (id : Nat) (hard : Bool) (x : BankEntry) :
    u.Moves bks (w.cancelTaken e bk id hard x) := by
  unfold World.cancelTaken
  split
  · exact h.onOutcome bk id _
  · exact (h.withWait _ _).onOutcome bk id _
  · exact h.cancelIn e hard _

theorem cancelBooking (h : u.Moves bks w) (e : Env) (n id abrupt : Nat) :
    u.Moves bks (w.cancelBooking e n id abrupt).1 := by
  refine h.forBank n _ fun bk => ?_
  split
  · exact h
  · refine h.forBooking bk id _ fun x => ?_
    exact h.cancelTaken e bk id _ x

theorem amendEnd (h : u.Moves bks w) (e : Env) (n id endTime nextDay : Nat) :
    u.Moves bks (w.amendEnd e n id endTime nextDay).1 := by
  refine h.forBank n _ fun bk => h.forBooking bk id _ fun x => ?_
  dsimp only
  split
  · exact h
  · split
    · exact h
    · split
      · exact h
      · split
        · exact h.onEntry bk id _ fun _ => rfl
        · refine onPlayer ?_ _ _
          exact h.onEntry bk id _ fun _ => rfl

theorem hold (h : u.Moves bks w) (e : Env) (n : Nat) : u.Moves bks (w.hold e n).1 := by
  refine h.forPlayer n _ fun p => ?_
  dsimp only
  split
  · exact h
  · have k := h.keep ((Kept.refl w).withdrawPlayer e p)
    dsimp only
    apply enterState
    exact k.onPlayer p _

theorem resume (h : u.Moves bks w) (e : Env) (n : Nat) : u.Moves bks (w.resume e n).1 := by
  refine h.forPlayer n _ fun p => ?_
  dsimp only
  split
  · exact h
  · refine handAll ?_ e p
    refine enterState ?_ p _
    exact h.onPlayer p _

theorem setPasses (h : u.Moves bks w) (e : Env) (n passes : Nat) : u.Moves bks (w.setPasses e n passes).1 := by
  refine h.forPlayer n _ fun p => ?_
  repeat' split
  all_goals first | exact h | exact h.onPlayer p _

theorem configureZone (h : u.Moves bks w) (e : Env) (z : Fin 64) (on : Bool) :
    u.Moves bks (w.configureZone e z on) := by
  unfold World.configureZone
  split
  · exact h
  · split
    · exact (h.trans (.zone w z _ rfl)).keep ((Kept.refl _).onDriver _ _ _)
    · have k : w.Kept ((w.withdrawTake e z).forgetDriver e z) :=
        (((Kept.refl w).withdrawTake e z).onLink _ _ rfl (fun h => h)).dropDriver e _ _ _
      exact (h.keep k).trans (.zone _ z _ rfl)

theorem putZone (h : u.Moves bks w) (e : Env) (n configured fallback lead : Nat) :
    u.Moves bks (w.putZone e n configured fallback lead).1 := by
  refine h.forZone n _ fun z => ?_
  split
  · exact h
  · exact h
  · split
    · exact h
    · split
      · exact h
      · exact (h.trans (.zone w z _ rfl)).configureZone e z _

theorem setLead (h : u.Moves bks w) (n lead : Nat) : u.Moves bks (w.setLead n lead).1 := by
  refine h.forZone n _ fun z => ?_
  split
  · exact h
  · exact h.trans (.zone w z _ rfl)

theorem enableLink (h : u.Moves bks w) (e : Env) (n : Nat) : u.Moves bks (w.enableLink e n).1 := by
  refine h.forLink n _ fun l => ?_
  have h := h.trans (.link w l (fun k => { k with enabled := true }) (fun h => h))
  dsimp only
  split
  · exact h
  · exact h.keep ((Kept.refl _).warmUp e l)

theorem disableLink (h : u.Moves bks w) (e : Env) (n : Nat) : u.Moves bks (w.disableLink e n).1 := by
  refine h.forLink n _ fun l => ?_
  split
  · exact h
  · exact (h.trans (.link w l (fun k => { k with enabled := false }) (fun h => h))).keep
      ((Kept.refl _).linkOff e l)

theorem scanLink (h : u.Moves bks w) (e : Env) (n : Nat) : u.Moves bks (w.scanLink e n).1 := by
  refine h.forLink n _ fun l => ?_
  split
  · exact h
  · exact h.keep ((Kept.refl _).enterScan e l)

theorem calibrateLink (h : u.Moves bks w) (e : Env) (n : Nat) : u.Moves bks (w.calibrateLink e n).1 := by
  refine h.forLink n _ fun l => ?_
  dsimp only
  split
  · exact h
  · have k := ((Kept.refl w).enterLink e l .calibrating).onLink l
      (fun k => { k with cal := some ⟨0, 0, 0, 0, false⟩ }) rfl (fun h => h)
    split
    · exact h.keep ((k.endLongOp e l _).comeUp e l)
    · exact h.keep k

theorem putCondition (h : u.Moves true w) (n : Nat) (f : ConditionField) :
    u.Moves true (w.putCondition n f).1 := by
  refine h.forChannel n _ fun ch => ?_
  split
  · exact h
  · split
    · exact h
    · exact h.setChannel ch _

theorem setReading (h : u.Moves true w) (n reading : Nat) : u.Moves true (w.setReading n reading).1 := by
  refine h.forChannel n _ fun ch => ?_
  repeat' split
  all_goals first | exact h | exact h.withMonitor _

theorem setAuto (h : u.Moves bks w) (on : Bool) : u.Moves bks (w.setAuto on) := h.withCtl _

theorem askDark (h : u.Moves bks w) {e : Env} {on : Bool} {v : World} (hv : w.askDark e on = .ok v) :
    u.Moves bks v := by
  unfold World.askDark at hv
  by_cases hd : w.darkTest e = .entered
  · rw [if_pos hd] at hv
    injection hv with hv
    rw [← hv]
    exact ((h.setAuto on).recordTest e _).enterDark e _
  · rw [if_neg hd] at hv
    cases hv

theorem askParked (h : u.Moves true w) {e : Env} {on : Bool} {v : World} (hv : w.askParked e on = .ok v) :
    u.Moves true v := by
  unfold World.askParked at hv
  by_cases hd : w.allFree = true
  · rw [if_pos hd] at hv
    injection hv with hv
    rw [← hv]
    exact (h.setAuto on).park e
  · rw [if_neg hd] at hv
    cases hv

theorem askState (h : u.Moves true w) {e : Env} {on : Bool} {a b : OpState} {v : World}
    (hv : w.askState e on a b = .ok v) : u.Moves true v := by
  have k := h.setAuto on
  cases a <;> cases b <;> simp only [World.askState, Except.ok.injEq, reduceCtorEq] at hv
  · subst hv; exact k.autoDark e
  · subst hv; exact k.wakeCause e _
  · subst hv; exact (k.unpark e).armBatch e _
  · exact h.askDark hv
  · subst hv; exact k
  · exact h.askParked hv
  · subst hv; exact k.park e
  · subst hv; exact k

theorem setState (h : u.Moves true w) (e : Env) (op auto : Nat) : u.Moves true (w.setState e op auto).1 := by
  unfold World.setState
  split
  · exact h
  · exact h
  · next s on _ _ =>
    cases hv : w.askState e on s w.ctl.state with
    | ok v => exact h.askState hv
    | error c => exact h

/-! ## What every chain keeps -/

end World.Moves

/-- Ranks are compared one way or the other between two players' claims (R91). -/
theorem Claim.above_total {x y : Claim} (hp : x.player ≠ y.player) (h : x.above y = false) :
    y.above x = true := by
  have hp : x.player.val ≠ y.player.val := fun h => hp (Fin.ext h)
  simp only [Claim.above, Bool.or_eq_false_iff, Bool.and_eq_false_iff, Bool.or_eq_true,
    Bool.and_eq_true, decide_eq_true_eq, decide_eq_false_iff_not, beq_iff_eq, beq_eq_false_iff_ne,
    Fin.lt_def] at h ⊢
  omega

/-- Rank is transitive (R91). -/
theorem Claim.above_trans {x y z : Claim} (h : x.above y = true) (k : y.above z = true) :
    x.above z = true := by
  simp only [Claim.above, Bool.or_eq_true, Bool.and_eq_true, decide_eq_true_eq, beq_iff_eq,
    Fin.lt_def] at h k ⊢
  omega

/-- What stands in a list after an insertion. -/
theorem mem_insertBy {α : Type} (before : α → α → Bool) (x y : α) (ys : List α) :
    y ∈ insertBy before x ys ↔ y = x ∨ y ∈ ys := by
  induction ys with
  | nil => simp [insertBy]
  | cons a rest ih =>
    unfold insertBy
    split
    · simp
    · simp only [List.mem_cons, ih]; tauto

/-- A claim of a player not in a ranked list, inserted by rank, leaves it ranked (R93). -/
theorem claimsRanked_insert (c : Claim) (cs : List Claim) (h : claimsRanked cs)
    (hc : ∀ x ∈ cs, x.player ≠ c.player) : claimsRanked (insertBy Claim.above c cs) := by
  obtain ⟨hr, hp⟩ := h
  induction cs with
  | nil => exact ⟨by simp [insertBy], by simp [insertBy]⟩
  | cons a rest ih =>
    simp only [List.pairwise_cons] at hr hp
    unfold insertBy
    split
    · next hab =>
      refine ⟨List.pairwise_cons.2 ⟨fun y hy => ?_, List.pairwise_cons.2 hr⟩,
        List.pairwise_cons.2 ⟨fun y hy => (hc y hy).symm, List.pairwise_cons.2 hp⟩⟩
      rcases List.mem_cons.1 hy with rfl | hy
      · exact hab
      · exact Claim.above_trans hab (hr.1 y hy)
    · next hab =>
      have ih := ih (fun x hx => hc x (List.mem_cons_of_mem _ hx)) hr.2 hp.2
      have ha : a.above c = true :=
        Claim.above_total (hc a List.mem_cons_self).symm (by simpa using hab)
      refine ⟨List.pairwise_cons.2 ⟨fun y hy => ?_, ih.1⟩, List.pairwise_cons.2 ⟨fun y hy => ?_, ih.2⟩⟩
      · rcases (mem_insertBy _ _ _ _).1 hy with rfl | hy
        · exact ha
        · exact hr.1 y hy
      · rcases (mem_insertBy _ _ _ _).1 hy with rfl | hy
        · exact hc a List.mem_cons_self
        · exact hp.1 y hy

/-- Claims taken out of a ranked list leave it ranked (R97). -/
theorem claimsRanked_filter (p : Claim → Bool) (cs : List Claim) (h : claimsRanked cs) :
    claimsRanked (cs.filter p) := ⟨h.1.filter _, h.2.filter _⟩

/-- A claim entered leaves a claim list in rank order (R93). -/
theorem claimsRanked_enter (c : Claim) (cs : List Claim) (h : claimsRanked cs) :
    claimsRanked (enterClaim c cs) := by
  refine claimsRanked_insert c _ (claimsRanked_filter _ _ h) fun x hx => ?_
  have := (List.mem_filter.1 hx).2
  simpa using this

namespace World.Moves

/-- Claim lists stay in rank order along a chain. -/
theorem ranked {bks : Bool} {u w : World} (h : u.Moves bks w) (hr : ∀ z, claimsRanked (u.zone z).claims) :
    ∀ z, claimsRanked (w.zone z).claims := by
  induction h with
  | kept k => intro z; rw [k.claims z]; exact hr z
  | players => exact hr
  | plans => exact hr
  | banks => exact hr
  | monitor => exact hr
  | ctl => exact hr
  | link => exact hr
  | zone v y f hf =>
    intro z
    rw [onZone_zone]
    split
    · next e => subst e; rw [hf]; exact hr _
    · exact hr z
  | enter v y c =>
    intro z
    rw [onZone_zone]
    split
    · next e => subst e; exact claimsRanked_enter c _ (hr _)
    · exact hr z
  | leave v y p =>
    intro z
    rw [onZone_zone]
    split
    · next e => subst e; exact claimsRanked_filter _ _ (hr _)
    · exact hr z
  | trans _ _ ih1 ih2 => exact ih2 (ih1 hr)

/-- Power outputs go on fitting the links' states along a chain. -/
theorem power {bks : Bool} {u w : World} (h : u.Moves bks w) (l : Fin 4) (hp : (u.link l).powerFits) :
    (w.link l).powerFits := by
  induction h with
  | kept k => exact k.power l hp
  | players => exact hp
  | plans => exact hp
  | banks => exact hp
  | monitor => exact hp
  | ctl => exact hp
  | zone => exact hp
  | enter => exact hp
  | leave => exact hp
  | link v m f hf =>
    rw [onLink_link]
    split
    · next e => subst e; exact hf hp
    · exact hp
  | trans _ _ ih1 ih2 => exact ih2 (ih1 hp)

/-- A notice once pending stays so along a chain. -/
theorem raised {bks : Bool} {u w : World} (h : u.Moves bks w) (k : Fin 16)
    (hk : (u.notices.get k).pending = true) : (w.notices.get k).pending = true := by
  induction h with
  | kept q => exact q.raised k hk
  | players => exact hk
  | plans => exact hk
  | banks => exact hk
  | monitor => exact hk
  | ctl => exact hk
  | zone => exact hk
  | enter => exact hk
  | leave => exact hk
  | link => exact hk
  | trans _ _ ih1 ih2 => exact ih2 (ih1 hk)

/-- The banks' states, dates and bookings stay along a chain that changes none of them. -/
theorem plansKept {u w : World} (h : u.Moves false w) : u.plans.Kept w.plans := by
  induction h with
  | kept k => rw [k.plans]; exact ⟨fun _ => rfl, fun _ => rfl, fun _ => rfl⟩
  | plans _ _ hp => exact hp
  | banks _ _ hb => cases hb
  | monitor _ _ hb => cases hb
  | trans _ _ ih1 ih2 =>
    exact ⟨fun bk => (ih2.state bk).trans (ih1.state bk), fun bk => (ih2.date bk).trans (ih1.date bk),
      fun bk => (ih2.ids bk).trans (ih1.ids bk)⟩
  | _ => exact ⟨fun _ => rfl, fun _ => rfl, fun _ => rfl⟩

/-- The monitor stays along a chain that does not change it. -/
theorem monitorKept {u w : World} (h : u.Moves false w) : w.monitor = u.monitor := by
  induction h with
  | kept k => exact k.monitor
  | banks _ _ hb => cases hb
  | monitor _ _ hb => cases hb
  | trans _ _ ih1 ih2 => exact ih2.trans ih1
  | _ => rfl

end World.Moves
end Sys2Proof.Machine
end

