-- ==== Sys2Proof/Laws/Pool.lean ====
section
/-! SUPPORT. The cue pool (R20): writing and erasing slots keep its canonical form, slots strictly rising
and below 8,192, and a read after a write or an erasure. -/

namespace Sys2Proof.Machine

/-- The canonical form from a lower bound is one from any smaller bound. -/
theorem poolWf_mono {m n : Nat} (h : m ≤ n) (pool : List (Nat × Cue)) (hp : poolWf n pool = true) :
    poolWf m pool = true := by
  cases pool with
  | nil => rfl
  | cons x rest =>
    obtain ⟨s, c⟩ := x
    simp only [poolWf, Bool.and_eq_true, decide_eq_true_eq] at hp ⊢
    exact ⟨⟨h.trans hp.1.1, hp.1.2⟩, hp.2⟩

/-- A written slot keeps the canonical form. -/
theorem poolPut_wf (s : Nat) (c : Cue) (lo : Nat) (pool : List (Nat × Cue)) (hs : s < 8192)
    (hl : lo ≤ s) (hp : poolWf lo pool = true) : poolWf lo (poolPut s c pool) = true := by
  induction pool generalizing lo with
  | nil => simp [poolPut, poolWf, hl, hs]
  | cons x rest ih =>
    obtain ⟨t, d⟩ := x
    simp only [poolWf, Bool.and_eq_true, decide_eq_true_eq] at hp
    unfold poolPut
    split
    · next h =>
      simp only [poolWf, Bool.and_eq_true, decide_eq_true_eq]
      exact ⟨⟨hl, hs⟩, ⟨by omega, hp.1.2⟩, hp.2⟩
    · split
      · next h =>
        subst h
        simp only [poolWf, Bool.and_eq_true, decide_eq_true_eq]
        exact ⟨⟨hl, hs⟩, hp.2⟩
      · next h1 h2 =>
        simp only [poolWf, Bool.and_eq_true, decide_eq_true_eq]
        exact ⟨hp.1, ih (t + 1) (by omega) hp.2⟩

/-- Unwritten slots leave the canonical form. -/
theorem pool_filter_wf (p : Nat × Cue → Bool) (lo : Nat) (pool : List (Nat × Cue))
    (hp : poolWf lo pool = true) : poolWf lo (pool.filter p) = true := by
  induction pool generalizing lo with
  | nil => rfl
  | cons x rest ih =>
    obtain ⟨t, d⟩ := x
    simp only [poolWf, Bool.and_eq_true, decide_eq_true_eq] at hp
    rw [List.filter_cons]
    split
    · simp only [poolWf, Bool.and_eq_true, decide_eq_true_eq]
      exact ⟨hp.1, ih _ hp.2⟩
    · exact poolWf_mono (by omega) _ (ih _ hp.2)

/-- Blocks erased keep the canonical form. -/
theorem poolErase_wf (blocks : List Nat) (lo : Nat) (pool : List (Nat × Cue))
    (hp : poolWf lo pool = true) : poolWf lo (poolErase blocks pool) = true :=
  pool_filter_wf _ lo pool hp

/-- A batch written keeps the canonical form, when every block number is below 128. -/
theorem writeCues_wf (blocks : List Nat) (hb : ∀ b ∈ blocks, b < 128) (i : Nat) (cues : List Cue)
    (pool : List (Nat × Cue)) (hp : poolWf 0 pool = true) :
    poolWf 0 (writeCues blocks i cues pool) = true := by
  induction cues generalizing i pool with
  | nil => exact hp
  | cons c rest ih =>
    unfold writeCues
    apply ih
    split
    · exact hp
    · next s hs =>
      unfold slotOf at hs
      obtain ⟨b, hb', rfl⟩ := Option.map_eq_some_iff.1 hs
      have := hb b (List.mem_of_getElem? hb')
      exact poolPut_wf _ c 0 pool (by omega) (by omega) hp

/-- A slot below the bound of a canonical pool is unwritten. -/
theorem poolGet_below (s lo : Nat) (pool : List (Nat × Cue)) (h : s < lo) (hp : poolWf lo pool = true) :
    poolGet s pool = none := by
  induction pool generalizing lo with
  | nil => rfl
  | cons x rest ih =>
    obtain ⟨t, d⟩ := x
    simp only [poolWf, Bool.and_eq_true, decide_eq_true_eq] at hp
    rw [poolGet, if_neg (by omega)]
    exact ih (t + 1) (by omega) hp.2

/-- A slot read after a write. -/
theorem poolGet_put (s t : Nat) (c : Cue) (lo : Nat) (pool : List (Nat × Cue))
    (hp : poolWf lo pool = true) :
    poolGet t (poolPut s c pool) = if t = s then some c else poolGet t pool := by
  induction pool generalizing lo with
  | nil => simp [poolPut, poolGet]
  | cons x rest ih =>
    obtain ⟨u, d⟩ := x
    simp only [poolWf, Bool.and_eq_true, decide_eq_true_eq] at hp
    unfold poolPut
    split
    · simp only [poolGet]
    · split
      · next h =>
        subst h
        simp only [poolGet]
        split <;> rfl
      · next h1 h2 =>
        simp only [poolGet, ih (u + 1) hp.2]
        split
        · next h => rw [if_neg (by omega)]
        · rfl

/-- A slot read after an erasure. -/
theorem poolGet_erase (blocks : List Nat) (t : Nat) (pool : List (Nat × Cue)) :
    poolGet t (poolErase blocks pool) = if t / 64 ∈ blocks then none else poolGet t pool := by
  induction pool with
  | nil => simp [poolErase, poolGet]
  | cons x rest ih =>
    obtain ⟨u, d⟩ := x
    have step : poolErase blocks ((u, d) :: rest) =
        if u / 64 ∈ blocks then poolErase blocks rest else (u, d) :: poolErase blocks rest := by
      by_cases hu : u / 64 ∈ blocks <;> simp [poolErase, hu]
    rw [step]
    by_cases hu : u / 64 ∈ blocks
    · rw [if_pos hu, ih, poolGet]
      by_cases ht : t = u
      · subst ht; simp [hu]
      · simp [ht]
    · rw [if_neg hu, poolGet, poolGet, ih]
      by_cases ht : t = u
      · subst ht; simp [hu]
      · simp [ht]

/-- The pool after reset is in its canonical form. -/
theorem poolWf_reset : poolWf 0 State.reset.lib.pool = true := rfl

end Sys2Proof.Machine
end

