-- ==== Sys2Proof/Laws/Replies.lean ====
section
/-! SUPPORT. Replies off the wire (R200): a run of bytes that is one reply frame is cut as that frame, and
is heard as that one reply. -/

namespace Sys2Proof.Machine

/-- The first byte of a run whose stuffing can be undone: plain, or a C4h with the byte after it. -/
theorem unstuff_cons {x : Byte} {rest us : List Byte} (h : unstuff (x :: rest) = some us) :
    x ≠ 0xC3#8 ∧
    ((x ≠ 0xC4#8 ∧ ∃ vs, us = x :: vs ∧ unstuff rest = some vs)
      ∨ (x = 0xC4#8 ∧ ∃ y tail u vs, rest = y :: tail ∧ (y = 0xE3#8 ∨ y = 0xE4#8) ∧ us = u :: vs
        ∧ unstuff tail = some vs)) := by
  cases rest with
  | nil =>
    simp only [unstuff] at h
    split at h
    · cases h
    · next hx =>
      push Not at hx
      exact ⟨hx.1, .inl ⟨hx.2, [], by simpa using h.symm, rfl⟩⟩
  | cons y tail =>
    simp only [unstuff] at h
    split at h
    · cases h
    · next h3 =>
      refine ⟨h3, ?_⟩
      split at h
      · next h4 =>
        split at h
        · next hy =>
          obtain ⟨vs, hv, rfl⟩ := Option.map_eq_some_iff.mp h
          exact .inr ⟨h4, y, tail, _, vs, rfl, .inl hy, rfl, hv⟩
        · split at h
          · next hy =>
            obtain ⟨vs, hv, rfl⟩ := Option.map_eq_some_iff.mp h
            exact .inr ⟨h4, y, tail, _, vs, rfl, .inr hy, rfl, hv⟩
          · cases h
      · next h4 =>
        obtain ⟨vs, hv, rfl⟩ := Option.map_eq_some_iff.mp h
        exact .inl ⟨h4, vs, rfl, hv⟩

/-- Past its kind byte, a run that holds just the bytes that are wanting is cut whole. -/
theorem cutReply_tail (poll : Bool) (n : Nat) : ∀ (got size : Nat) (bytes us : List Byte),
    bytes.length ≤ n → 2 ≤ got → unstuff bytes = some us → got + us.length = size →
    cutReply poll got size bytes = (bytes, []) := by
  induction n with
  | zero =>
    intro got size bytes us hn _ _ _
    cases bytes with
    | nil => simp [cutReply]
    | cons => simp at hn
  | succ n ih =>
    intro got size bytes us hn hg hu hs
    cases bytes with
    | nil => simp [cutReply]
    | cons x rest =>
      obtain ⟨h3, h | h⟩ := unstuff_cons hu
      · obtain ⟨h4, vs, rfl, hv⟩ := h
        simp only [List.length_cons] at hn hs
        unfold cutReply
        rw [if_neg (by rintro (h | h); omega; exact h3 h), if_neg h4, if_neg (by omega)]
        dsimp only
        rw [ih (got + 1) size rest vs (by omega) (by omega) hv (by omega)]
      · obtain ⟨rfl, y, tail, u, vs, rfl, hy, rfl, hv⟩ := h
        simp only [List.length_cons] at hn hs
        unfold cutReply
        rw [if_neg (by rintro (h | h); omega; exact h3 h), if_pos rfl]
        dsimp only
        rw [if_pos hy, if_neg (by omega), ih (got + 1) size tail vs (by omega) (by omega) hv (by omega)]

/-- The fields of a reply stand in as many bytes as its kind gives. -/
theorem replySize_fields {poll : Bool} {a k : Byte} {vs : List Byte} {x : Nat × DriverReply}
    (h : replyFields poll ((a :: k :: vs).map (·.toNat)) = some x) :
    replySize poll k = some (vs.length + 4) ∧ k ≠ 0xC3#8 ∧ k ≠ 0xC4#8 := by
  have byte (n : Nat) (hk : k.toNat = n) : k = BitVec.ofNat 8 n := by
    rw [← hk, BitVec.ofNat_toNat, BitVec.setWidth_eq]
  have len (n : Nat) (l : List Nat) (h : vs.map (·.toNat) = l) (hl : l.length = n) : vs.length = n := by
    rw [← hl, ← h, List.length_map]
  simp only [List.map_cons] at h
  generalize hm : vs.map (·.toNat) = l at h
  unfold replyFields at h
  split at h
  case h_1 heq =>
    cases poll <;> simp only [Bool.false_eq_true, if_false, if_true, reduceCtorEq] at h
    simp only [List.cons.injEq] at heq
    obtain ⟨_, hk, hl⟩ := heq
    rw [byte _ hk, len 3 _ (hm.trans hl) rfl]; decide
  case h_2 heq =>
    cases poll <;> simp only [Bool.false_eq_true, if_false, if_true, reduceCtorEq] at h
    simp only [List.cons.injEq] at heq
    obtain ⟨_, hk, hl⟩ := heq
    rw [byte _ hk, len 7 _ (hm.trans hl) rfl]; decide
  case h_3 heq =>
    simp only [List.cons.injEq] at heq
    obtain ⟨_, hk, hl⟩ := heq
    rw [byte _ hk, len 3 _ (hm.trans hl) rfl]; cases poll <;> decide
  case h_4 heq =>
    simp only [List.cons.injEq] at heq
    obtain ⟨_, hk, hl⟩ := heq
    rw [byte _ hk, len 3 _ (hm.trans hl) rfl]; cases poll <;> decide
  case h_5 heq =>
    simp only [List.cons.injEq] at heq
    obtain ⟨_, hk, hl⟩ := heq
    rw [byte _ hk, len 6 _ (hm.trans hl) rfl]; cases poll <;> decide
  case h_6 => cases h

/-- What a run of bytes that parses as a reply is. -/
theorem parseReply_some {poll : Bool} {bytes : List Byte} {r : DriverReply}
    (h : parseReply poll bytes = some r) : ∃ rest us x, bytes = 0xC3#8 :: rest ∧ unstuff rest = some us
      ∧ us.drop (us.length - 2) = checkBytes (us.take (us.length - 2))
      ∧ replyFields poll ((us.take (us.length - 2)).map (·.toNat)) = some x := by
  cases bytes with
  | nil => cases h
  | cons y rest =>
    simp only [parseReply] at h
    split at h
    · cases h
    · next hy =>
      obtain ⟨us, hu, h⟩ := Option.bind_eq_some_iff.mp h
      split at h
      · cases h
      · next hc =>
        obtain ⟨x, hx, _⟩ := Option.bind_eq_some_iff.mp h
        exact ⟨rest, us, x, by rw [not_not.mp hy], hu, not_not.mp hc, hx⟩

/-- A run of bytes that parses as a reply is cut whole (R200). -/
theorem cutReply_whole {poll : Bool} {x : Byte} {rest : List Byte} {r : DriverReply}
    (h : parseReply poll (x :: rest) = some r) : x = 0xC3#8 ∧ cutReply poll 0 11 rest = (rest, []) := by
  obtain ⟨rest', us, f, hb, hu, hc, hf⟩ := parseReply_some h
  injection hb with hx hr
  subst hx hr
  refine ⟨rfl, ?_⟩
  have hl : us.length - 2 + (us.drop (us.length - 2)).length = us.length := by
    rw [List.length_drop]; omega
  rw [hc] at hl
  have h2 : (checkBytes (us.take (us.length - 2))).length = 2 := rfl
  rw [h2] at hl
  rcases us with _ | ⟨a, _ | ⟨k, vs⟩⟩
  · simp at hl
  · simp at hl
  · simp only [List.length_cons] at hl hf
    obtain ⟨m, hm⟩ : ∃ m, vs.length + 1 + 1 - 2 = m := ⟨_, rfl⟩
    rw [hm] at hf
    rcases m with _ | _ | m
    · cases hf
    · simp only [List.take_succ_cons, List.take_zero, List.map_cons, List.map_nil] at hf
      cases hf
    · simp only [List.take_succ_cons] at hf
      obtain ⟨hs, k3, k4⟩ := replySize_fields hf
      have hv : (vs.take m).length + 4 = vs.length + 2 := by rw [List.length_take]; omega
      rw [hv] at hs
      -- the bytes after the address
      have kind (tail : List Byte) (ht : unstuff tail = some (k :: vs)) :
          cutReply poll 1 11 tail = (tail, []) := by
        cases tail with
        | nil => simp [unstuff] at ht
        | cons y tail =>
          obtain ⟨h3, h | h⟩ := unstuff_cons ht
          · obtain ⟨h4, ws, he, hw⟩ := h
            injection he with he1 he2
            subst he1 he2
            unfold cutReply
            rw [if_neg (by rintro (h | h); omega; exact h3 h), if_neg h4, if_pos rfl, hs]
            dsimp only
            rw [cutReply_tail poll _ 2 (vs.length + 2) tail vs le_rfl le_rfl hw (by omega)]
          · obtain ⟨rfl, z, tail', u, ws, rfl, hz, he, hw⟩ := h
            rcases hz with rfl | rfl
            · have hk : unstuff tail' = some vs ∧ 0xC3#8 = k := by simpa [unstuff] using ht
              exact absurd hk.2.symm k3
            · have hk : unstuff tail' = some vs ∧ 0xC4#8 = k := by simpa [unstuff] using ht
              exact absurd hk.2.symm k4
      cases rest with
      | nil => simp [unstuff] at hu
      | cons y tail =>
        obtain ⟨h3, h | h⟩ := unstuff_cons hu
        · obtain ⟨h4, ws, he, hw⟩ := h
          injection he with he1 he2
          subst he1 he2
          unfold cutReply
          rw [if_neg (by rintro (h | h); omega; exact h3 h), if_neg h4, if_neg (by omega)]
          dsimp only
          rw [kind tail hw]
        · obtain ⟨rfl, z, tail', u, ws, rfl, hz, he, hw⟩ := h
          injection he with he1 he2
          subst he1 he2
          unfold cutReply
          rw [if_neg (by rintro (h | h); omega; exact h3 h), if_pos rfl]
          dsimp only
          rw [if_pos hz, if_neg (by omega), kind tail' hw]

namespace World

variable {e : Env} {l : Fin 4} {bytes : List Byte} {r : DriverReply} {t : Transfer} {w : World}

/-- A run of bytes that is one reply frame is heard as that frame (R200). -/
theorem driverReply_frame (roundTrip : Nat) (hr : (w.link l).state.receives = true)
    (h : parseReply (w.link l).polling bytes = some r) :
    w.driverReply e l bytes roundTrip = w.hearFrame e l bytes roundTrip := by
  obtain ⟨rest, _, _, rfl, _⟩ := parseReply_some h
  obtain ⟨_, hc⟩ := cutReply_whole h
  unfold driverReply
  simp only [List.length_cons, hearFor, hr, hc, Bool.not_true, Bool.false_eq_true, if_false, if_true]
  cases rest.length <;> rfl

/-- Bytes without a start byte leave a link that hunts, or that receives nothing, as it is (R200). -/
theorem hearFor_hunting (roundTrip n : Nat) (h : 0xC3#8 ∉ bytes)
    (hk : (w.link l).state.receives = true → (w.link l).hunting = true) :
    w.hearFor e l roundTrip n bytes = w := by
  induction n generalizing bytes with
  | zero => cases bytes <;> rfl
  | succ n ih =>
    cases bytes with
    | nil => rfl
    | cons x rest =>
      simp only [List.mem_cons, not_or] at h
      unfold hearFor
      cases hr : (w.link l).state.receives with
      | false => rfl
      | true => rw [if_neg (by simp), if_neg (Ne.symm h.1), if_pos (hk hr), ih h.2]

/-- After bytes that form no frame a link that still receives hunts (R141, R200). -/
theorem noFrame_hunting (w : World) (e : Env) (l : Fin 4) :
    ((w.noFrame e l).link l).state.receives = true → ((w.noFrame e l).link l).hunting = true := by
  simp only [noFrame, onLink_link, if_true]
  exact id

/-- A matched reply is taken (R140). -/
theorem driverReply_matched (roundTrip : Nat) (hr : (w.link l).state.receives = true)
    (h : parseReply (w.link l).polling bytes = some r) (ht : (w.link l).transfer = some t)
    (hm : t.matched r = true) :
    w.driverReply e l bytes roundTrip = (w.frames l).replyTaken e l t r roundTrip := by
  rw [driverReply_frame roundTrip hr h, hearFrame, h, ht]
  simp only [hm, if_true]

/-- A reply frame that cannot be matched is a line error (R140, R141). -/
theorem driverReply_unmatched (roundTrip : Nat) (hr : (w.link l).state.receives = true)
    (h : parseReply (w.link l).polling bytes = some r)
    (hm : ((w.link l).transfer.any fun t => t.matched r) = false) :
    w.driverReply e l bytes roundTrip = (w.frames l).badReply e l := by
  rw [driverReply_frame roundTrip hr h, hearFrame, h]
  cases ht : (w.link l).transfer with
  | none => rfl
  | some t =>
    rw [ht] at hm
    simp only [Option.any_some] at hm
    simp only [hm, Bool.false_eq_true, if_false]

end World
end Sys2Proof.Machine
end

