-- ==== Sys2Proof/Laws/Step.lean ====
section
/-! SUPPORT. One step: the front command carried out with the rest of the queue, and the idle step. -/

namespace Sys2Proof.Machine

theorem step_front (s : State) (c : Instr) (rest : List Instr) (h : s.pending = c :: rest) :
    step s = exec c { s with pending := rest } := by
  unfold step
  simp only [h]

theorem step_idle (s : State) (h : s.pending = []) : step s = .next s := by
  unfold step
  simp only [h]

end Sys2Proof.Machine
end

