-- ==== Sys2Proof/Laws/Time.lean ====
section
/-! SUPPORT. What settling, ticks, steps and settings of the time leave of the part: each is a chain of
moves of the blocks, and changes of the Time Base and of the part's marks. -/

namespace Sys2Proof.Machine

namespace State

/-- `t` differs from `s` by moves of the blocks, free readings drawn, a frame that a FREE output has begun,
and nothing but a HOLDOVER in the Time Base. -/
structure Settles (s t : State) : Prop where
  moves : s.world.Moves true t.world
  time : t.time = s.silenceHoldover.time
  lib : t.lib = s.lib
  port : { t.port with out := s.port.out, overruns := s.port.overruns } = s.port
  sending : s.port.out.isSome = true → t.port = s.port
  held : t.held = s.held
  pending : t.pending = s.pending

variable {s t : State}

theorem silenceHoldover_time :
    s.silenceHoldover.time = { s.time with
      state := if s.time.state = .locked ∧ 300 ≤ s.time.silence then .holdover else s.time.state } := by
  unfold silenceHoldover enterTime
  split
  · rename_i h
    rw [if_neg (by rw [h.1]; decide)]
    rfl
  · rfl

theorem enterTime_moves (x : TimeState) : s.world.Moves true (s.enterTime x).world := by
  unfold enterTime
  split
  · exact .refl _
  · exact (World.Moves.refl _).raise _ _

theorem Settles.holdover (s : State) : s.Settles s.silenceHoldover where
  moves := by
    unfold silenceHoldover
    split
    · exact enterTime_moves _
    · exact .refl _
  time := rfl
  lib := by unfold silenceHoldover enterTime; split <;> [split; skip] <;> rfl
  port := by unfold silenceHoldover enterTime; split <;> [split; skip] <;> rfl
  sending _ := by unfold silenceHoldover enterTime; split <;> [split; skip] <;> rfl
  held := by unfold silenceHoldover enterTime; split <;> [split; skip] <;> rfl
  pending := by unfold silenceHoldover enterTime; split <;> [split; skip] <;> rfl

theorem Settles.onWorld (h : s.Settles t) {f : Env → World → World}
    (hf : ∀ e (w : World), w.Moves true (f e w)) : s.Settles (t.onWorld f) :=
  ⟨h.moves.trans (hf _ _), h.time, h.lib, h.port, h.sending, h.held, h.pending⟩

theorem Settles.withFree (h : s.Settles t) (n : Nat) : s.Settles { t with freeCount := n } :=
  ⟨h.moves, h.time, h.lib, h.port, h.sending, h.held, h.pending⟩

theorem Settles.withReach (h : s.Settles t) (b : Bool) : s.Settles { t with reachOpen := b } :=
  ⟨h.moves, h.time, h.lib, h.port, h.sending, h.held, h.pending⟩

theorem Settles.scanFreely (h : s.Settles t) : s.Settles t.scanFreely := by
  unfold State.scanFreely
  split
  · exact (h.onWorld fun e w => (World.Moves.refl w).scanStart e _).withFree _
  · exact h

theorem Settles.convertFreely (h : s.Settles t) : s.Settles t.convertFreely := by
  unfold State.convertFreely
  split
  · exact h
  · exact (h.onWorld fun e w => (World.Moves.refl w).conversionEnd e _).withFree _

theorem Settles.closeReach (h : s.Settles t) : s.Settles t.closeReach := by
  unfold State.closeReach
  split
  · exact (h.onWorld fun e w => ((World.Moves.refl w).reach e).pumpAll e).withReach _
  · exact h

theorem Settles.choose (h : s.Settles t) : s.Settles t.choose where
  moves := h.moves
  time := h.time
  lib := h.lib
  port := by rw [State.choose, ← h.port, Port.choose_kept]
  sending hs := by
    obtain ⟨f, hf⟩ := Option.isSome_iff_exists.mp hs
    rw [State.choose, h.sending hs, Port.choose_sending _ _ f hf]
  held := h.held
  pending := h.pending

/-- What entering a HOLDOVER that is due does. -/
theorem meetsHoldover (s : State) : s.Settles s.meetHoldover := (Settles.holdover s).choose

/-- What acting on what is due in civic time does. -/
theorem meets (s : State) : s.Settles s.meet := (meetsHoldover s).closeReach.choose

/-- An event of the blocks changes them alone. -/
theorem onWorld_eq (f : Env → World → World) (s : State) :
    s.onWorld f = { s with world := f s.env s.world } := rfl

/-- An open reach is acted on by every block. -/
theorem closeReach_open (h : s.reachOpen = true) :
    s.closeReach = { s with world := (s.world.reach s.env).pumpAll s.env, reachOpen := false } := by
  unfold State.closeReach
  rw [if_pos h, onWorld_eq]

/-- With no reach open there is nothing to act on. -/
theorem closeReach_shut (h : s.reachOpen = false) : s.closeReach = s := by
  unfold State.closeReach
  exact if_neg (by rw [h]; decide)

/-- A reach acted on is closed. -/
theorem closeReach_reachOpen (s : State) : s.closeReach.reachOpen = false := by
  unfold closeReach
  split
  · rfl
  · rename_i h
    simpa using h

/-- With no HOLDOVER due and no reach open, nothing is met but the output's choice. -/
theorem meet_eq (s : State) (h : s.silenceHoldover = s) (hr : s.reachOpen = false) : s.meet = s.choose := by
  rw [meet, meetHoldover, h, closeReach, if_neg (by rw [choose, hr]; decide), choose_choose]

/-- A step that settles, taken once for each item of a list. -/
theorem Settles.foldl {α : Type} (f : State → α → State) (hf : ∀ t a, s.Settles t → s.Settles (f t a))
    (xs : List α) (h : s.Settles t) : s.Settles (xs.foldl f t) := by
  induction xs generalizing t with
  | nil => exact h
  | cons x xs ih => exact ih (hf t x h)

/-- What settling does. -/
theorem settles (s : State) : s.Settles s.settle := by
  have links := Settles.foldl (fun s l => (s.onWorld fun e => World.settleLink e l).choose)
    (fun t l (h : s.Settles t) => (h.onWorld fun e w =>
      (World.Moves.refl w).keep ((World.Kept.refl w).settleLink e l)).choose) (upTo 4) (meetsHoldover s)
  have scans := Settles.foldl (fun s _ => s.convertFreely.choose)
    (fun t _ (h : s.Settles t) => h.convertFreely.choose) (upTo 4) links.scanFreely.choose
  exact (scans.onWorld fun e w => ((World.Moves.refl w).guardExpiry e).pumpAll e).choose.closeReach.choose

theorem settle_reachOpen (s : State) : s.settle.reachOpen = false := by
  simp only [settle, choose]
  exact closeReach_reachOpen _

end State
end Sys2Proof.Machine
end

