-- ==== Sys2Proof/Tests/Slice0.lean ====
section
/-! SUPPORT. Tests of the package: what the well-formedness check refuses, a state and operands that meet
the hypotheses of each statement, and one small step of every command. -/

namespace Sys2Proof.Tests

set_option Elab.async false

open Sys2Proof Sys2Proof.Machine

/-! ## Small states -/

/-- The state a command leaves. -/
def after (i : Instr) (s : State) : State :=
  match exec i s with
  | .next t => t
  | _ => s

/-- The first day of the range at a tick of day, so that the civic tick is the tick of day. -/
def clock (tod : Nat) : TimeBase := ⟨⟨2000, 1, 1⟩, tod, .free, 0, true, .rising, 0, none⟩

/-- Four shows: show 1 with a PREROLL, a MAIN section of two passes and a CODA; show 2 with a MAIN section
of three passes; show 3 BUILDING, with one section; show 4 ENDLESS. -/
def shelf : Library :=
  { Library.cold with
    looks := Library.cold.looks.set 9 ⟨1, 2, 3, 4, 50⟩
    shows := (((Library.cold.shows.set 0 ⟨.closed, List.replicate 8 0x41#8,
        [⟨.preroll, 100, 0, 0, 1⟩, ⟨.main, 200, 2, 1, 2⟩, ⟨.coda, 50, 1, 3, 1⟩], [0], 4,
        some (.ticks 450)⟩).set 1 ⟨.closed, List.replicate 8 0x42#8, [⟨.main, 200, 3, 0, 2⟩], [1], 2,
        some (.ticks 600)⟩).set 2 ⟨.building, List.replicate 8 0x43#8, [⟨.main, 10, 0, 0, 1⟩], [2], 1,
        none⟩).set 3 ⟨.closed, List.replicate 8 0x44#8, [⟨.main, 60, 0, 0, 1⟩], [3], 1, some .endless⟩
    pool := [(0, ⟨0, 0, 1⟩), (1, ⟨0, 0, 2⟩), (2, ⟨100, 1, 3⟩), (3, ⟨0, 0, 4⟩), (64, ⟨0, 0, 5⟩),
      (65, ⟨150, 1, 6⟩), (128, ⟨0, 0, 7⟩), (192, ⟨0, 0, 8⟩)]
    free := (List.range 128).drop 4
    openShow := some 2 }

/-- NOW at a tick, with the shelf of shows. -/
def nowAt (now : Nat) : Env := ⟨now, shelf⟩

/-- A booking of show 1 at a tick of day, of class 3. -/
def song (start : Nat) : Booking :=
  ⟨1, 0, start, .atTime, none, none, 3, 1, .join, [⟨0, [0, 1]⟩, ⟨1, [17]⟩]⟩

/-- A booking of show 2 that waits for condition 5, up to 6,000 ticks. -/
def vigil (start : Nat) : Booking :=
  ⟨2, 1, start, .onCondition 5 6000, none, none, 2, 0, .restart, [⟨0, [2]⟩]⟩

def entry (k : Booking) (p : Progress) : BankEntry := ⟨k, ⟨p, false, none, none, ⟨0, 0, 0, 0⟩⟩, true⟩

/-- A copy of look 9. -/
def plum : LookCopy := ⟨9, ⟨1, 2, 3, 4, 50⟩⟩

/-- The part idle at a tick of day with an open reach. -/
def base (tod : Nat) (w : World) : State :=
  { State.reset with time := clock tod, lib := shelf, world := w, reachOpen := true }

/-- Bank A in a state, of the first day. -/
def bankA (st : BankState) (es : List BankEntry) (w : World) : World :=
  w.onBank .a fun _ => ⟨st, ⟨2000, 1, 1⟩, es⟩

/-- A player in a state with a booking of bank A. -/
def seat (p : Fin 8) (st : PlayerState) (k : Booking) (f : Player → Player) (w : World) : World :=
  w.onPlayer p fun _ => f { Player.free with
    state := st
    ref := some (.a, k.id)
    copy := some ⟨k, k.start, k.endPoint ⟨2000, 1, 1⟩⟩
    length := some (.ticks 450)
    armSeq := 1 }

def readyDriver : Driver :=
  { Driver.cold with state := .ready, silence := some 200, latency := some 0, refresh := some 100 }

/-- A link UP with all its drivers READY. -/
def upLink : Link :=
  { Link.cold with enabled := true, power := true, state := .up, drivers := Tab.fill 16 readyDriver }

/-- Link 0 UP and its zones configured. -/
def lit : World :=
  { World.cold with
    links := World.cold.links.set 0 upLink
    zones := World.cold.zones.map fun z => { z with configured := true } }

/-! ## What the well-formedness check refuses -/

def goodBooking : BookingField :=
  ⟨1, 1, 1000000, 0, 0xFF, 0xFFFFFF, 0xFFFFFF, 0, 0xFF, 3, 1, 1, [⟨0, [0, 1]⟩]⟩

def goodSettings : ConditionField := ⟨1, 0, 0, 100, 200, 3, 1, 0⟩

def goodCue : CueField := ⟨5, 1, 9⟩

/-- Terms the wire can carry, at the greatest value of each width. -/
theorem test_wf_accepts : [Instr.setTime 255 65535 255 255 16777215, .putLook 0 255 255 255 255 255 65535,
    .openShow 0 1 (List.replicate 8 0#8), .addCues 0 1 (List.replicate 59 goodCue),
    .addBooking 0 0 goodBooking, .addBooking 0 0 { goodBooking with zmap := [⟨0, List.replicate 218 1⟩] },
    .putCondition 0 255 goodSettings, .getPlan 0 0 none, .getPlan 0 0 (some 255),
    .clearNotices 0 65535, .loopback 0 (List.replicate 239 0#8), .conversionEnd 4095,
    .driverReply 0 [0#8] 0, .hostFrameReceived [⟨0#8, false⟩],
    .badKindRequest 255 255 (List.replicate 240 0#8), .tickEvent].all Instr.wf = true := by
  decide +kernel

/-- One ill-formed term for each check on a request's numbers. -/
theorem test_wf_refuses_fields : [Instr.getTime 256, .setTime 0 65536 1 1 0, .setTime 0 2000 256 1 0,
    .setTime 0 2000 1 256 0, .setTime 0 2000 1 1 16777216, .setPulse 0 256 0, .setPulse 0 0 256,
    .putLook 0 256 0 0 0 0 0, .putLook 0 1 256 0 0 0 0, .putLook 0 1 0 256 0 0 0,
    .putLook 0 1 0 0 256 0 0, .putLook 0 1 0 0 0 256 0, .putLook 0 1 0 0 0 0 65536, .getLook 0 256,
    .openShow 0 256 (List.replicate 8 0#8), .addSection 0 256 0 0 0, .addSection 0 0 256 0 0,
    .addSection 0 0 0 65536 0, .addSection 0 0 0 0 256, .addCues 0 256 [], .closeShow 0 256,
    .dropShow 0 256, .getShow 0 256 0, .getShow 0 0 65536].any Instr.wf = false := by
  decide +kernel

theorem test_wf_refuses_plans : [Instr.openPlan 0 256 2000 1 1, .openPlan 0 0 65536 1 1,
    .openPlan 0 0 2000 256 1, .openPlan 0 0 2000 1 256, .addBooking 0 256 goodBooking, .sealPlan 0 256,
    .activatePlan 0 256, .clearPlan 0 256, .cancelBooking 0 256 0 0, .cancelBooking 0 0 256 0,
    .cancelBooking 0 0 0 256, .amendEnd 0 256 0 0 0, .amendEnd 0 0 256 0 0,
    .amendEnd 0 0 0 16777216 0, .amendEnd 0 0 0 0 256, .getBooking 0 256 0, .getBooking 0 0 256,
    .getPlan 0 256 none, .getPlan 0 0 (some 256)].any Instr.wf = false := by decide +kernel

theorem test_wf_refuses_booking : [{ goodBooking with id := 256 }, { goodBooking with showNo := 256 },
    { goodBooking with start := 16777216 }, { goodBooking with mode := 256 },
    { goodBooking with startCond := 256 }, { goodBooking with window := 16777216 },
    { goodBooking with endTime := 16777216 }, { goodBooking with nextDay := 256 },
    { goodBooking with stopCond := 256 }, { goodBooking with cls := 256 },
    { goodBooking with sub := 256 }, { goodBooking with policy := 256 },
    { goodBooking with zmap := [⟨256, []⟩] }, { goodBooking with zmap := [⟨0, [256]⟩] },
    { goodBooking with zmap := [⟨0, List.replicate 256 0⟩] },
    { goodBooking with zmap := List.replicate 256 ⟨0, []⟩ },
    { goodBooking with zmap := [⟨0, List.replicate 219 0⟩] }].any BookingField.wf = false := by
  decide +kernel

theorem test_wf_refuses_others : [Instr.getPlayer 0 256, .hold 0 256, .resume 0 256,
    .setPasses 0 256 1, .setPasses 0 0 256, .putZone 0 256 0 0 0, .putZone 0 0 256 0 0,
    .putZone 0 0 0 256 0, .putZone 0 0 0 0 256, .getZone 0 256, .setLead 0 256 0, .setLead 0 0 256,
    .enableLink 0 256, .disableLink 0 256, .scanLink 0 256, .calibrateLink 0 256, .getLink 0 256 none,
    .getLink 0 0 (some 256), .putCondition 0 256 goodSettings, .getCondition 0 256,
    .setReading 0 256 0, .setReading 0 0 65536, .clearNotices 0 65536, .subscribe 0 65536,
    .setState 0 256 0, .setState 0 0 256].any Instr.wf = false := by decide +kernel

theorem test_wf_refuses_settings : [{ goodSettings with enabled := 256 },
    { goodSettings with source := 256 }, { goodSettings with mode := 256 },
    { goodSettings with low := 65536 }, { goodSettings with high := 65536 },
    { goodSettings with persist := 256 }, { goodSettings with record := 256 },
    { goodSettings with attrs := 256 }].any ConditionField.wf = false := by decide +kernel

/-- Lists of a wrong length, and events whose operands cannot be. -/
theorem test_wf_refuses_lists : [Instr.openShow 0 1 (List.replicate 7 0#8),
    .openShow 0 1 (List.replicate 9 0#8), .addCues 0 1 (List.replicate 60 goodCue),
    .addCues 0 1 [{ goodCue with offset := 65536 }], .addCues 0 1 [{ goodCue with part := 256 }],
    .addCues 0 1 [{ goodCue with look := 256 }], .loopback 0 (List.replicate 240 0#8),
    .conversionEnd 4096, .driverReply 0 [] 0, .hostFrameReceived [], .badKindRequest 256 0 [],
    .badKindRequest 0 256 [], .badKindRequest 0 0 (List.replicate 241 0#8)].any Instr.wf = false := by
  decide +kernel

/-- No row of the table gives bits, so no word spells a command. -/
theorem test_no_word_spells_a_command : decodeTableWord 8 0x02 = none
    ∧ (State.reset.withFetchWord 8 0x02).pending = [] := by decide +kernel

/-- The frame of GET_TIME with tag 5, written out with its check. -/
theorem test_frame_bytes : wireFrame [0#8, 0x02#8, 0x05#8]
      = [0xC3#8, 0x00#8, 0x02#8, 0x05#8] ++ checkBytes [0#8, 0x02#8, 0x05#8]
    ∧ after (.hostFrameReceived (received (Request.wire 5 .getTime))) (base 5 lit)
      = after (.getTime 5) (base 5 lit) := by decide +kernel

/-! ## The hypotheses of the statements: the queue, RESET and the Time Base -/

theorem test_StepTakesFrontCommand : (base 5 lit).pending = []
    ∧ (step { base 5 lit with pending := [.getTime 1] } matches .next _) = true := by decide +kernel

theorem test_ResetHeldAndAsserted :
    let s := { base 5 lit with held := true }
    s.held = true ∧ Instr.tickEvent ≠ .resetAsserted ∧ (∀ high, Instr.tickEvent ≠ .coldStart high)
      ∧ (after .tickEvent s = s) ∧ ((after .resetAsserted (base 5 lit)).world.link 0).power = false
      ∧ (after (.coldStart true) s).held = false := by decide +kernel

/-- A part with its clock at a date, a tick of day and a state. -/
def timed (d : Date) (tod : Nat) (st : TimeState) : State :=
  { base 5 lit with time := ⟨d, tod, st, 0, true, .rising, 0, none⟩, reachOpen := false }

theorem test_TickMovesTime :
    (⟨2000, 1, 1⟩ : Date).valid = true ∧ (⟨2000, 2, 29⟩ : Date).valid = true
    ∧ (⟨2099, 12, 30⟩ : Date).valid = true ∧ (⟨2099, 12, 30⟩ : Date) ≠ ⟨2099, 12, 31⟩
    ∧ (let s := timed ⟨2000, 1, 1⟩ 0 .unset;
      s.held = false ∧ s.time.wf = true ∧ s.time.state = .unset)
    ∧ (let s := timed ⟨2000, 2, 29⟩ 8639998 .locked;
      s.held = false ∧ s.time.wf = true ∧ s.time.state ≠ .unset ∧ s.time.tod + 1 < 8640000)
    ∧ (let s := timed ⟨2000, 2, 29⟩ 8639999 .holdover;
      s.held = false ∧ s.time.wf = true ∧ s.time.state ≠ .unset ∧ s.time.tod + 1 = 8640000
        ∧ s.time.date ≠ ⟨2099, 12, 31⟩ ∧ (after .tickEvent s).time.date = ⟨2000, 3, 1⟩)
    ∧ (let s := timed ⟨2099, 12, 31⟩ 8639999 .free;
      s.held = false ∧ s.time.wf = true ∧ s.time.state ≠ .unset ∧ s.time.tod + 1 = 8640000
        ∧ s.time.date = ⟨2099, 12, 31⟩ ∧ (after .tickEvent s).time.state = .unset) := by
  decide +kernel

/-- The part with its operating state and scan timer. -/
def scanning (st : OpState) (timer : Nat) : State :=
  let s := timed ⟨2000, 1, 1⟩ 8639998 .free
  { s with world := { s.world with
    ctl := { s.world.ctl with state := st }
    monitor := { s.world.monitor with timer := timer } } }

theorem test_TickRunsDurations :
    (let s := timed ⟨2000, 1, 1⟩ 8639999 .unset;
      s.held = false ∧ s.settle = s ∧ s.time.state = .unset)
    ∧ (let s := scanning .active 9;
      s.held = false ∧ s.settle = s ∧ s.time.tod + 1 < 8640000
        ∧ (after .tickEvent s).world.monitor.scanDue = true)
    ∧ (let s := scanning .dark 98;
      s.held = false ∧ s.settle = s ∧ s.time.tod + 1 < 8640000
        ∧ (after .tickEvent s).world.monitor.timer = 99)
    ∧ (let s := scanning .parked 0;
      s.held = false ∧ s.settle = s ∧ s.time.tod + 1 < 8640000
        ∧ (after .tickEvent s).world.monitor.timer = 0)
    ∧ (let s := base 1000 lit;
      s.held = false ∧ s.reachOpen = true ∧ s.settle ≠ s ∧ s.time.tod + 1 < 8640000
        ∧ (after .tickEvent s).time.tod = 1001) := by decide +kernel

/-- The part with its pulse silence. -/
def silent (st : TimeState) (n : Nat) : State :=
  let s := timed ⟨2000, 1, 1⟩ 100 st
  { s with time := { s.time with silence := n } }

theorem test_SilenceBringsHoldover :
    (silent .locked 300).held = false ∧ (silent .locked 300).time.state = .locked
    ∧ 300 ≤ (silent .locked 300).time.silence
    ∧ ¬((silent .locked 299).time.state = .locked ∧ 300 ≤ (silent .locked 299).time.silence)
    ∧ ¬((silent .free 300).time.state = .locked ∧ 300 ≤ (silent .free 300).time.silence)
    ∧ (after .pulseSilenceHoldover (silent .locked 300)).time.state = .holdover := by decide +kernel

/-- The part with its phase faults. -/
def faulty (tod faults : Nat) (st : TimeState) : State :=
  let s := timed ⟨2000, 1, 1⟩ tod st
  { s with time := { s.time with faults := faults } }

theorem test_PulsesTaken :
    (let s := faulty 1020 0 .free;
      s.held = false ∧ s.time.wf = true ∧ s.time.enabled = true ∧ s.time.polarity = .rising
        ∧ s.time.state ≠ .unset ∧ (phaseError s.time.tod).natAbs ≤ 20 ∧ s.time.tod % 100 < 50
        ∧ s.time.state ≠ .locked ∧ (after (.pulse .rising) s).time.tod = 1000)
    ∧ (let s := faulty 1050 2 .locked;
      s.time.wf = true ∧ s.time.faults = 2 ∧ 50 ≤ s.time.tod % 100
        ∧ s.time.tod + (100 - s.time.tod % 100) < 8640000 ∧ 20 < (phaseError s.time.tod).natAbs
        ∧ (after (.pulse .rising) s).time.tod = 1100)
    ∧ (let s := faulty 8639980 0 .free;
      s.time.wf = true ∧ (phaseError s.time.tod).natAbs ≤ 20 ∧ 50 ≤ s.time.tod % 100
        ∧ s.time.tod + (100 - s.time.tod % 100) = 8640000
        ∧ (after (.pulse .rising) s).time.date = ⟨2000, 1, 2⟩)
    ∧ (let s := timed ⟨2099, 12, 31⟩ 8639997 .free;
      s.time.wf = true ∧ (phaseError s.time.tod).natAbs ≤ 20
        ∧ s.time.tod + (100 - s.time.tod % 100) = 8640000 ∧ s.time.date = ⟨2099, 12, 31⟩
        ∧ 2 < ((8639999 : Int) - 8639996).natAbs)
    ∧ (let s := faulty 1021 1 .free;
      s.held = false ∧ s.time.enabled = true ∧ s.time.polarity = .rising ∧ s.time.state ≠ .unset
        ∧ 20 < (phaseError s.time.tod).natAbs ∧ s.time.faults < 2
        ∧ (after (.pulse .rising) s).time.faults = 2)
    ∧ (let s := faulty 1000 0 .free;
      s.held = false ∧ ¬(s.time.enabled = true ∧ s.time.polarity = .falling ∧ s.time.state ≠ .unset))
      := by decide +kernel

/-- Are TIME_STATE and TIME_STEPPED pending? -/
def timeNotices (w : World) : Bool × Bool :=
  ((w.notices.get NoticeKind.timeState.no).pending, (w.notices.get NoticeKind.timeStepped.no).pending)

/-- R14: a step of 2 ticks raises no TIME_STEPPED and one of 3 does, a pulse that finds the part LOCKED raises no
TIME_STATE, and a phase fault raises nothing. -/
theorem test_PulsesTaken_notices :
    (let s := faulty 1002 0 .locked;
      s.held = false ∧ s.time.wf = true ∧ (phaseError s.time.tod).natAbs ≤ 20
        ∧ s.silenceHoldover.time.state = .locked ∧ (after (.pulse .rising) s).time.tod = 1000
        ∧ timeNotices (after (.pulse .rising) s).world = (false, false))
    ∧ timeNotices (after (.pulse .rising) (faulty 1003 0 .locked)).world = (false, true)
    ∧ timeNotices (after (.pulse .rising) (faulty 998 0 .free)).world = (true, false)
    ∧ timeNotices (after (.pulse .rising) (faulty 997 0 .free)).world = (true, true)
    ∧ timeNotices (after (.pulse .rising) (faulty 1021 1 .locked)).world = (false, false) := by decide +kernel

/-- R8: a forward step within a date, past midnight, and on the last date. -/
theorem test_PulsesTaken_steps :
    (let s := timed ⟨2000, 1, 1⟩ 8639990 .free;
      9 ≠ 0 ∧ s.time.tod + 9 < 8640000 ∧ 8640000 ≤ s.time.tod + 10
        ∧ (s.stepForward 9).time.tod = 8639999 ∧ (s.stepForward 10).time.tod = 0
        ∧ (s.stepForward 10).time.date = ⟨2000, 1, 2⟩
        ∧ ((s.stepForward 9).world.notices.get 4).pending = false
        ∧ ((s.stepForward 10).world.notices.get 4).pending = true)
    ∧ (let s := timed ⟨2099, 12, 31⟩ 8639990 .free;
      (s.stepForward 10).time.tod = 8639999 ∧ (s.stepForward 10).time.date = ⟨2099, 12, 31⟩)
    ∧ ((base 5 lit).reachOpen = true ∧ (base 5 lit).closeReach.reachOpen = false)
    ∧ (timed ⟨2000, 1, 1⟩ 5 .free).closeReach = timed ⟨2000, 1, 1⟩ 5 .free := by decide +kernel

/-- LOCKED with the pulse silence at 300 and TIME_STATE subscribed. -/
def overdue : State := { silent .locked 300 with port := { (silent .locked 300).port with mask := 4#16 } }

/-- R6, R191: a FREE output begins the notice of a HOLDOVER that is due before the pulse or the request that
comes after it. -/
theorem test_holdover_is_noticed_first :
    overdue.held = false ∧ overdue.idle = true ∧ overdue.reachOpen = false ∧ overdue.time.wf = true
    ∧ overdue.time.enabled = true ∧ overdue.time.polarity = .rising ∧ overdue.time.state = .locked
    ∧ 300 ≤ overdue.time.silence ∧ (phaseError overdue.time.tod).natAbs ≤ 20
    ∧ (after (.pulse .rising) overdue).port.out = some (.notice 2 0 100 100 true)
    ∧ ((after (.pulse .rising) overdue).world.notices.get 2).count = 1
    ∧ (after (.setPulse 0 0 0) overdue).port.out = some (.notice 2 0 100 100 true)
    ∧ (after (.setTime 0 2000 1 1 150) overdue).port.out = some (.notice 2 0 100 100 true)
    ∧ (after .tickEvent overdue).port.out = some (.notice 2 0 100 100 true) := by decide +kernel

theorem test_GetTimeAnswersRecord : (base 5 lit).idle = true
    ∧ (after (.getTime 9) (base 5 lit)).port.slot = some ⟨0x02, 9, .ok,
      [7, 208, 1, 1, 0, 0, 5, 1, 0, 1, 0, 0, 0, 0x80]⟩ := by decide +kernel

theorem test_SetPulseSetsRecord : (silent .holdover 300).idle = true ∧ 1 < 2
    ∧ ¬((silent .holdover 300).time.state = .locked ∧ 300 ≤ (silent .holdover 300).time.silence)
    ∧ (after (.setPulse 0 0 1) (silent .holdover 300)).time.state = .free
    ∧ (after (.setPulse 0 1 0) (silent .locked 299)).time.state = .locked
    ∧ (silent .locked 300).idle = true ∧ (silent .locked 300).time.state = .locked
    ∧ 300 ≤ (silent .locked 300).time.silence
    ∧ (after (.setPulse 0 1 0) (silent .locked 300)).time.state = .holdover
    ∧ (after (.setPulse 0 0 0) (silent .locked 300)).time.state = .free
    ∧ ((after (.setPulse 0 2 2) (base 5 lit)).port.slot.map (·.body)) = some [0, 0, 255, 255, 255, 255]
    ∧ ((after (.setPulse 0 1 2) (base 5 lit)).port.slot.map (·.body)) = some [1, 0, 255, 255, 255, 255]
      := by decide +kernel

/-- Player 0 RUNNING show 1. -/
def busy : World :=
  seat 0 .running (song 1000000) id (bankA .active [entry (song 1000000) .running] lit)

theorem test_SetTimeTaken :
    (let s := timed ⟨2000, 1, 1⟩ 0 .unset;
      s.idle = true ∧ (⟨2099, 12, 31⟩ : Date).valid = true ∧ 8639999 < 8640000 ∧ s.time.state = .unset
        ∧ ¬(s.time.date = ⟨2099, 12, 31⟩ ∧ s.time.tod = 8639999)
        ∧ (after (.setTime 0 2099 12 31 8639999) s).time.date = ⟨2099, 12, 31⟩)
    ∧ (let s := timed ⟨2000, 1, 1⟩ 1000 .locked;
      s.idle = true ∧ (⟨2000, 1, 1⟩ : Date).valid = true
        ∧ 100 < ((civic ⟨2000, 1, 1⟩ 1101 : Int) - (s.time.civic : Int)).natAbs
        ∧ (∀ p, (s.world.player p).live = false) ∧ s.time.state ≠ .free
        ∧ (after (.setTime 0 2000 1 1 1101) s).time.tod = 1101)
    ∧ (let s := timed ⟨2000, 1, 1⟩ 1000 .locked;
      s.idle = true ∧ s.time.wf = true ∧ s.time.state ≠ .unset
        ∧ ((civic ⟨2000, 1, 1⟩ 1100 : Int) - (s.time.civic : Int)).natAbs ≤ 100
        ∧ s.time.civic ≤ civic ⟨2000, 1, 1⟩ 1100)
    ∧ (let s := timed ⟨2000, 1, 2⟩ 50 .locked;
      s.idle = true ∧ s.time.wf = true ∧ s.time.state ≠ .unset
        ∧ ((civic ⟨2000, 1, 1⟩ 8639950 : Int) - (s.time.civic : Int)).natAbs ≤ 100
        ∧ civic ⟨2000, 1, 1⟩ 8639950 < s.time.civic ∧ s.time.date ≠ ⟨2000, 1, 1⟩
        ∧ (after (.setTime 0 2000 1 1 8639950) s).time.tod = 0)
    ∧ (⟨1999, 12, 31⟩ : Date).valid = false ∧ (⟨2001, 2, 29⟩ : Date).valid = false
    ∧ (⟨2000, 0, 1⟩ : Date).valid = false ∧ (⟨2000, 1, 0⟩ : Date).valid = false
    ∧ (let s := base 1000 busy;
      s.idle = true ∧ s.time.state ≠ .unset
        ∧ 100 < ((civic ⟨2000, 1, 1⟩ 899 : Int) - (s.time.civic : Int)).natAbs
        ∧ (s.world.player 0).live = true
        ∧ (after (.setTime 0 2000 1 1 899) s).port.slot = some ⟨0x01, 0, .showsActive, []⟩) := by
  decide +kernel

/-- R14: a jump to the time held and a trim of 2 ticks raise no TIME_STEPPED; a trim of 3 does. -/
theorem test_SetTimeTaken_notices :
    (let s := timed ⟨2000, 1, 1⟩ 1000 .unset;
      s.idle = true ∧ s.time.state = .unset ∧ s.time.date = ⟨2000, 1, 1⟩ ∧ s.time.tod = 1000
        ∧ timeNotices (after (.setTime 0 2000 1 1 1000) s).world = (true, false)
        ∧ timeNotices (after (.setTime 0 2000 1 1 1001) s).world = (true, true))
    ∧ (let s := timed ⟨2000, 1, 1⟩ 1000 .locked;
      s.idle = true ∧ s.time.wf = true ∧ s.time.state ≠ .unset
        ∧ timeNotices (after (.setTime 0 2000 1 1 998) s).world = (true, false)
        ∧ timeNotices (after (.setTime 0 2000 1 1 1002) s).world = (true, false)
        ∧ timeNotices (after (.setTime 0 2000 1 1 1003) s).world = (true, true)) := by decide +kernel

/-- Bank A ACTIVE for 2000-01-01, bank B READY for the day after the next, the time UNSET at a date. -/
def between (d : Date) : State :=
  let w := (bankA .active [] lit).onBank .b fun _ => ⟨.ready, ⟨2000, 1, 3⟩, []⟩
  { timed d 1000 .unset with world := w }

theorem test_SetTimeTaken_plans :
    (let s := between ⟨2000, 1, 2⟩;
      s.idle = true ∧ s.time.date ≠ ⟨2000, 1, 3⟩ ∧ (s.meet.world.bank .a).date ≠ ⟨2000, 1, 3⟩
        ∧ (s.meet.world.bank .b).state ≠ .active ∧ ¬((s.meet.world.bank .a).state = .active ∧ (s.meet.world.bank .b).state = .active)
        ∧ (s.meet.world.bank .b).state = .ready ∧ (s.meet.world.bank .b).date = ⟨2000, 1, 3⟩
        ∧ (s.meet.world.bank .a).state ≠ .ready
        ∧ ((after (.setTime 0 2000 1 3 5) s).world.bank .b).state = .active
        ∧ ((after (.setTime 0 2000 1 3 5) s).world.bank .a).state = .spent)
    ∧ (let s := between ⟨2000, 1, 2⟩;
      (s.meet.world.bank .a).date ≠ ⟨2000, 1, 4⟩ ∧ (s.meet.world.bank .b).date ≠ ⟨2000, 1, 4⟩
        ∧ ((after (.setTime 0 2000 1 4 5) s).world.bank .a).state = .lapsed
        ∧ ((after (.setTime 0 2000 1 4 5) s).world.notices.get 5).pending = true)
    ∧ (let s := between ⟨2000, 1, 2⟩;
      (s.meet.world.bank .a).state = .active ∧ (s.meet.world.bank .a).date = ⟨2000, 1, 1⟩
        ∧ ((after (.setTime 0 2000 1 1 5) s).world.bank .a).state = .active)
    ∧ (let s := between ⟨2000, 1, 3⟩;
      s.time.date = ⟨2000, 1, 3⟩ ∧ ((after (.setTime 0 2000 1 3 5) s).world.bank .b).state = .ready)
    ∧ (let s := base 999850 (seat 0 .armed (song 1000000) id
          (bankA .active [entry (song 1000000) .armed] lit));
      s.reachOpen = true ∧ (s.world.player 0).live = false ∧ (s.meet.world.player 0).live = true
        ∧ (after (.setTime 0 2000 1 1 0) s).port.slot = some ⟨0x01, 0, .showsActive, []⟩) := by
  decide +kernel

/-! ## The hypotheses of the statements: the Show Library -/

/-- The part with nothing but its shelf of shows. -/
def desk : State := base 5 lit

/-- The shelf meets the invariant of the Show Library. -/
theorem test_shelf_wf : desk.lib.wf where
  lookZero := by decide +kernel
  fades := by decide +kernel
  shows := by decide +kernel
  blocks := by decide +kernel
  pool := by decide +kernel
  building := by decide +kernel

theorem test_PutLookReplacesLook : desk.idle = true ∧ 256 ≤ 256 ∧ (255 : Nat) = (255 : Fin 256).val
    ∧ (255 : Fin 256) ≠ 0 ∧ 3000 < 3001
    ∧ ((after (.putLook 0 255 1 2 3 4 3000) desk).lib.looks.get 255) = ⟨1, 2, 3, 4, 3000⟩
    ∧ ((after (.putLook 0 255 1 2 3 4 3001) desk).port.slot.map (·.code)) = some .badField := by
  decide +kernel

theorem test_GetLookReadsTable : desk.idle = true ∧ (1 : Fin 256) ≠ 0 ∧ 3000 ≤ 3000
    ∧ ((after (.getLook 0 9) desk).port.slot.map (·.body)) = some [9, 1, 2, 3, 4, 0, 50] := by
  decide +kernel

/-- The desk with no show open. -/
def shut : State :=
  { desk with lib := { desk.lib with
    shows := desk.lib.shows.set 2 ShowRec.blank, free := desk.lib.free ++ [2], openShow := none } }

theorem test_ShowOpenedAndSectioned :
    desk.idle = true ∧ (desk.lib.showRec 0).state ≠ .empty
    ∧ (desk.lib.showRec 31).state = .empty ∧ desk.lib.openShow = some 2 ∧ (2 : Fin 32) ≠ 31
    ∧ shut.idle = true ∧ (shut.lib.showRec 31).state = .empty ∧ shut.lib.openShow = none
    ∧ (desk.lib.showRec 2).state = .building ∧ 2 < 3 ∧ kind? 2 = some .coda
    ∧ (desk.lib.showRec 2).parts.length < 16
    ∧ (let s := { desk with lib := desk.lib.onShow 2 fun r =>
        { r with parts := List.replicate 16 ⟨.main, 1, 1, 0, 0⟩ } };
      s.idle = true ∧ (s.lib.showRec 2).state = .building ∧ 16 ≤ (s.lib.showRec 2).parts.length)
    ∧ ((after (.openShow 0 32 (List.replicate 8 1#8)) shut).lib.openShow = some 31)
    ∧ 32 < 33 ∧ (after (.openShow 0 33 []) shut).port.slot.map (·.body) = some [0, 0, 255, 255, 255, 255]
    ∧ (after (.addSection 0 0 3 0 0) desk).port.slot.map (·.body) = some [0, 0, 255, 255, 255, 255]
    ∧ ((after (.addSection 0 3 1 65535 255) desk).lib.showRec 2).parts.length = 2 := by decide +kernel

/-- The open show with 1,024 cues less one, by its counts alone. -/
def crammed : State :=
  { desk with lib := desk.lib.onShow 2 fun r => { r with cues := 1023 } }

theorem test_CuesAppended :
    desk.idle = true
    ∧ (let r := desk.lib.showRec 2;
      let cues : List CueField := [⟨9, 15, 255⟩, ⟨0, 0, 0⟩];
      r.state = .building ∧ r.parts = [] ++ [⟨.main, 10, 0, 0, 1⟩] ∧ 1 ≤ cues.length
        ∧ cues.length ≤ 16 ∧ (∀ c ∈ cues, c.offset < 10 ∧ c.part < 16 ∧ c.look < 256)
        ∧ r.cues + cues.length ≤ 1024
        ∧ (r.cues + cues.length + 63) / 64 - r.blocks.length ≤ desk.lib.free.length
        ∧ ((after (.addCues 0 3 cues) desk).lib.showRec 2).cues = 3)
    ∧ (desk.lib.showRec 0).state ≠ .building
    ∧ (desk.lib.showRec 2).parts.getLast? = some ⟨.main, 10, 0, 0, 1⟩
    ∧ 16 < (List.replicate 17 goodCue).length
    ∧ ([⟨9, 15, 255⟩, ⟨10, 0, 0⟩] : List CueField) = [⟨9, 15, 255⟩] ++ ⟨10, 0, 0⟩ :: []
    ∧ ([⟨9, 15, 255⟩, ⟨0, 16, 0⟩] : List CueField) = [⟨9, 15, 255⟩] ++ ⟨0, 16, 0⟩ :: []
    ∧ (∀ c ∈ ([⟨9, 15, 255⟩] : List CueField), c.offset < 10 ∧ c.part < 16 ∧ c.look < 256)
    ∧ crammed.idle = true ∧ (crammed.lib.showRec 2).state = .building
    ∧ 1024 < (crammed.lib.showRec 2).cues + 2
    ∧ ((after (.addCues 0 3 [⟨9, 0, 0⟩, ⟨9, 16, 0⟩]) desk).port.slot.map (·.body))
      = some [8, 0, 0, 1, 255, 255]
    ∧ ((after (.addCues 0 3 [goodCue, goodCue]) crammed).port.slot.map (·.code)) = some .noRoom := by
  decide +kernel

/-- A BAD_FIELD for the field at an offset, with no index. -/
def badAt (off : Nat) : Option (List Byte) := some [byteOf off, 0#8, 0xFF#8, 0xFF#8, 0xFF#8, 0xFF#8]

/-- The body of the reply to a request. -/
def said? (i : Instr) (s : State) : Option (List Byte) := (after i s).port.slot.map (·.body)

/-- A show, bank or player number out of its range is reported before anything else, and an abrupt flag above
1 before the booking is looked for. -/
theorem test_numbers_are_tested_first : desk.idle = true ∧ 32 < 33 ∧ bank? 2 = none ∧ 7 < 8 ∧ 1 < 2
    ∧ bank? 0 = some .a
    ∧ ([.addCues 0 0 [], .addCues 0 33 [], .closeShow 0 0, .closeShow 0 33, .dropShow 0 0, .dropShow 0 33,
        .addBooking 0 2 goodBooking, .sealPlan 0 2, .activatePlan 0 2, .cancelBooking 0 2 1 2,
        .amendEnd 0 2 1 0 0, .getBooking 0 2 1, .getPlan 0 2 (some 9), .hold 0 8, .resume 0 8,
        .setPasses 0 8 0] : List Instr).all (fun i => said? i desk == badAt 0) = true
    ∧ said? (.cancelBooking 0 0 99 2) desk = badAt 2 := by decide +kernel

/-- The desk after the open show is emptied of its section. -/
def unsound : State := { desk with lib := desk.lib.onShow 2 fun r => { r with parts := [], cues := 0 } }

theorem test_ShowClosedAndDropped :
    desk.idle = true ∧ (desk.lib.showRec 0).state ≠ .building
    ∧ (let r := desk.lib.showRec 2;
      let cues (sec : SectionRec) := desk.lib.cuesFrom r sec.count sec.first;
      r.state = .building
        ∧ (∀ k : Fin 1, ∀ sec ∈ r.parts[k.val]?,
          (sec.kind = .preroll → k = 0 ∧ sec.passes = 0)
          ∧ (sec.kind = .coda → k.val + 1 = r.parts.length ∧ sec.passes = 1)
          ∧ sec.count ≠ 0
          ∧ (cues sec).Pairwise (fun a b => a.offset ≤ b.offset)
          ∧ (cues sec).Pairwise fun a b => ¬(a.offset = b.offset ∧ a.part = b.part))
        ∧ r.parts[1]? = none ∧ (∃ sec ∈ r.parts, sec.kind = .main))
    ∧ (unsound.idle = true ∧ (unsound.lib.showRec 2).state = .building
      ∧ ¬(∃ sec ∈ (unsound.lib.showRec 2).parts, sec.kind = .main))
    ∧ (desk.lib.showRec 31).state = .empty
    ∧ (desk.lib.showRec 0).state ≠ .empty
    ∧ (let w := bankA .lapsed [entry (song 0) .completed] lit;
      (w.bank .a).state = .lapsed ∧ ∃ x ∈ (w.bank .a).list, x.booking.showNo = 0)
    ∧ (∀ bk, (desk.world.bank bk).list = [])
    ∧ (∀ p, (desk.world.player p).copy = none)
    ∧ ((after (.closeShow 0 3) desk).lib.showRec 2).length = some .endless
    ∧ ((after (.closeShow 0 3) unsound).port.slot.map (·.body)) = some [255, 6, 255, 255, 255, 255]
    ∧ ((after (.dropShow 0 1) desk).lib.showRec 0) = ShowRec.blank := by
  have all (p : Bank → Prop) (a : p .a) (b : p .b) : ∀ x, p x := fun x => by cases x <;> assumption
  refine ⟨by decide +kernel, by decide +kernel, by decide +kernel, by decide +kernel, by decide +kernel,
    by decide +kernel, by decide +kernel, all _ (by decide +kernel) (by decide +kernel),
    by decide +kernel, by decide +kernel, by decide +kernel, by decide +kernel⟩

/-- The open show with sections of one MAIN's cues, its cues at offsets and parts. -/
def crooked (parts : List SectionRec) (cues : List Cue) : State :=
  { desk with lib := { desk.lib.onShow 2 fun r => { r with parts := parts, cues := cues.length } with
    pool := desk.lib.pool.take 6 ++ cues.zipIdx.map (fun c => (128 + c.2, c.1)) ++ [(192, ⟨0, 0, 8⟩)] } }

/-- The body of the reply to CLOSE_SHOW of the open show. -/
def verdict (parts : List SectionRec) (cues : List Cue) : Option (List Byte) :=
  (after (.closeShow 0 3) (crooked parts cues)).port.slot.map (·.body)

/-- Each reason of CLOSE_SHOW, with the least place that has it. -/
theorem test_ShowClosedAndDropped_reasons :
    (crooked [⟨.main, 9, 1, 0, 1⟩, ⟨.preroll, 9, 0, 1, 1⟩] [⟨0, 0, 1⟩, ⟨0, 0, 1⟩]).idle = true
    ∧ verdict [⟨.main, 9, 1, 0, 1⟩, ⟨.preroll, 9, 0, 1, 1⟩] [⟨0, 0, 1⟩, ⟨0, 0, 1⟩]
      = some [255, 1, 0, 1, 255, 255]
    ∧ verdict [⟨.coda, 9, 0, 0, 1⟩, ⟨.main, 9, 1, 1, 1⟩] [⟨0, 0, 1⟩, ⟨0, 0, 1⟩]
      = some [255, 1, 0, 0, 255, 255]
    ∧ verdict [⟨.preroll, 9, 1, 0, 1⟩, ⟨.main, 9, 1, 1, 1⟩] [⟨0, 0, 1⟩, ⟨0, 0, 1⟩]
      = some [255, 2, 0, 0, 255, 255]
    ∧ verdict [⟨.main, 9, 1, 0, 2⟩, ⟨.main, 9, 1, 2, 0⟩] [⟨0, 0, 1⟩, ⟨1, 0, 1⟩]
      = some [255, 3, 0, 1, 255, 255]
    ∧ verdict [⟨.main, 9, 1, 0, 1⟩, ⟨.main, 9, 1, 1, 3⟩] [⟨5, 0, 1⟩, ⟨3, 0, 1⟩, ⟨3, 0, 1⟩, ⟨2, 0, 1⟩]
      = some [255, 4, 0, 1, 0, 3]
    ∧ verdict [⟨.main, 9, 1, 0, 1⟩, ⟨.main, 9, 1, 1, 3⟩] [⟨5, 0, 1⟩, ⟨3, 0, 1⟩, ⟨3, 1, 1⟩, ⟨3, 0, 2⟩]
      = some [255, 5, 0, 1, 0, 3]
    ∧ verdict [⟨.preroll, 9, 0, 0, 1⟩, ⟨.coda, 9, 1, 1, 1⟩] [⟨5, 0, 1⟩, ⟨3, 0, 1⟩]
      = some [255, 6, 255, 255, 255, 255] := by decide +kernel

/-! ## The hypotheses of the statements: the Plan Banks -/

/-- The desk with bank A in a state and a booking. -/
def planned (st : BankState) (p : Progress) : State :=
  base 1000 (bankA st [entry (song 1000000) p] lit)

theorem test_PlanOpenedAndCleared :
    bank? 0 = some .a ∧ bank? 1 = some .b ∧ bank? 2 = none ∧ (planned .spent .pending).idle = true
    ∧ (after (.openPlan 0 2 2000 13 1) desk).port.slot.map (·.body) = some [0, 0, 255, 255, 255, 255]
    ∧ (after (.clearPlan 0 255) desk).port.slot.map (·.body) = some [0, 0, 255, 255, 255, 255]
    ∧ (⟨2099, 12, 32⟩ : Date).valid = false ∧ (⟨2100, 1, 1⟩ : Date).valid = false
    ∧ (⟨2000, 13, 1⟩ : Date).valid = false ∧ (⟨2099, 12, 31⟩ : Date).valid = true
    ∧ ((planned .loading .pending).world.bank .a).state = .loading
    ∧ ((planned .spent .pending).world.bank .a).state = .spent
    ∧ (∀ p, ((planned .spent .pending).world.player p).state = .free)
    ∧ (let s := base 1000 (seat 0 .running (song 1000000) id (bankA .lapsed [] lit));
      s.idle = true ∧ (s.world.bank .a).state = .lapsed ∧ (s.world.bank .a).state ≠ .active
        ∧ (s.world.player 0).state ≠ .free ∧ (s.world.player 0).ref = some (.a, 1))
    ∧ ((planned .active .pending).world.bank .a).state = .active
    ∧ ((after (.openPlan 0 0 2000 2 29) (planned .spent .pending)).world.bank .a).date = ⟨2000, 2, 29⟩
    ∧ ((after (.clearPlan 0 0) (planned .loading .pending)).world.bank .a).list = [] := by
  decide +kernel

/-- Fields at the ends of their ranges. -/
def fields : List BookingField :=
  [⟨1, 1, 0, 0, 0xFF, 0xFFFFFF, 0xFFFFFF, 0, 0xFF, 0, 0, 0, [⟨0, [0]⟩]⟩,
    ⟨255, 32, 8639999, 1, 7, 360000, 0, 1, 7, 7, 3, 2, [⟨15, [63]⟩, ⟨0, [0]⟩]⟩,
    ⟨1, 1, 8639998, 1, 0, 1, 8639999, 0, 0, 7, 3, 2, [⟨15, [63]⟩]⟩,
    ⟨1, 1, 0, 0, 0xFF, 0xFFFFFF, 2160000, 1, 0xFF, 7, 3, 2, [⟨15, [63]⟩]⟩]

theorem test_BookingFieldsChecked :
    (fields.all fun f => (booking? f).toOption.isSome) = true
    ∧ ([{ goodBooking with id := 0 }, { goodBooking with showNo := 0 }, { goodBooking with showNo := 33 },
      { goodBooking with start := 8640000 }, { goodBooking with mode := 2 },
      { goodBooking with mode := 1, startCond := 8, window := 1 },
      { goodBooking with mode := 1, startCond := 0, window := 0 },
      { goodBooking with mode := 1, startCond := 0, window := 360001 },
      { goodBooking with startCond := 0 }, { goodBooking with window := 1 },
      { goodBooking with endTime := 8640000 }, { goodBooking with nextDay := 2 },
      { goodBooking with endTime := 1000000 }, { goodBooking with endTime := 2160001, nextDay := 1 },
      { goodBooking with stopCond := 8 }, { goodBooking with cls := 8 }, { goodBooking with sub := 4 },
      { goodBooking with policy := 3 }, { goodBooking with zmap := [] },
      { goodBooking with zmap := [⟨16, [0]⟩] }, { goodBooking with zmap := [⟨0, []⟩] },
      { goodBooking with zmap := [⟨0, [64]⟩] }, { goodBooking with zmap := [⟨0, [0]⟩, ⟨0, [1]⟩] },
      { goodBooking with zmap := [⟨0, [0]⟩, ⟨1, [0]⟩] }, { goodBooking with zmap := [⟨0, [0, 0]⟩] }].all
        fun f => !(booking? f).toOption.isSome) = true := by decide +kernel

/-- The offset of the first failing field. -/
def offset? (f : BookingField) : Option Nat :=
  match booking? f with
  | .error off => some off
  | .ok _ => none

/-- The first failing field of each kind, a later one failing beside it. -/
theorem test_BookingFieldsChecked_offsets :
    ([{ goodBooking with id := 0, showNo := 0 }, { goodBooking with showNo := 33, start := 8640000 },
      { goodBooking with start := 8640000, mode := 2 }, { goodBooking with mode := 2, startCond := 0 },
      { goodBooking with startCond := 0, window := 1 },
      { goodBooking with mode := 1, startCond := 8, window := 0 },
      { goodBooking with window := 1, endTime := 8640000 },
      { goodBooking with mode := 1, startCond := 7, window := 360001 },
      { goodBooking with endTime := 8640000, nextDay := 2 }, { goodBooking with nextDay := 2, stopCond := 8 },
      { goodBooking with endTime := 1000000, stopCond := 8 },
      { goodBooking with endTime := 2160001, nextDay := 1 },
      { goodBooking with stopCond := 8, cls := 8 }, { goodBooking with cls := 8, sub := 4 },
      { goodBooking with sub := 4, policy := 3 }, { goodBooking with policy := 3, zmap := [] },
      { goodBooking with zmap := [] }, { goodBooking with zmap := List.replicate 17 ⟨16, []⟩ },
      { goodBooking with zmap := [⟨16, []⟩] }, { goodBooking with zmap := [⟨0, [5, 6]⟩, ⟨0, []⟩] },
      { goodBooking with zmap := [⟨0, [5, 6]⟩, ⟨1, []⟩] },
      { goodBooking with zmap := [⟨0, [5, 6]⟩, ⟨1, List.replicate 65 7⟩] },
      { goodBooking with zmap := [⟨0, [5, 6]⟩, ⟨1, [63, 64]⟩] },
      { goodBooking with zmap := [⟨0, [5, 6]⟩, ⟨1, [63, 7, 6]⟩] }].map offset?) =
    [some 1, some 2, some 3, some 6, some 7, some 7, some 8, some 8, some 11, some 14, some 11, some 11,
      some 15, some 16, some 17, some 18, some 19, some 19, some 20, some 24, some 25, some 25, some 27,
      some 28] := by decide +kernel

/-- The bookings of the fields at the ends of their ranges. -/
theorem test_BookingFieldsChecked_records :
    fields.map (fun f => (booking? f).toOption) =
      [some ⟨1, 0, 0, .atTime, none, none, 0, 0, .skip, [⟨0, [0]⟩]⟩,
        some ⟨255, 31, 8639999, .onCondition 7 360000, some ⟨0, true⟩, some 7, 7, 3, .restart,
          [⟨15, [63]⟩, ⟨0, [0]⟩]⟩,
        some ⟨1, 0, 8639998, .onCondition 0 1, some ⟨8639999, false⟩, some 0, 7, 3, .restart,
          [⟨15, [63]⟩]⟩,
        some ⟨1, 0, 0, .atTime, some ⟨2160000, true⟩, none, 7, 3, .restart, [⟨15, [63]⟩]⟩] := by
  decide +kernel

/-- The booking of `goodBooking`. -/
def plain : Booking := ⟨1, 0, 1000000, .atTime, none, none, 3, 1, .join, [⟨0, [0, 1]⟩]⟩

/-- A bank with 48 bookings. -/
def stacked (st : BankState) : State :=
  base 1000 (bankA st ((List.range 48).map fun i => entry { song 5 with id := i + 2 } .completed) lit)

theorem test_AddBookingAppends :
    bank? 0 = some .a ∧ booking? goodBooking = .ok plain
    ∧ booking? { goodBooking with id := 0 } = .error 1
    ∧ (let s := planned .ready .pending;
      s.idle = true ∧ (s.world.bank .a).state ≠ .loading ∧ (s.world.bank .a).state ≠ .active)
    ∧ (let s := planned .loading .pending;
      (s.world.bank .a).state = .loading ∧ ∃ x ∈ (s.world.bank .a).list, x.booking.id = plain.id)
    ∧ (let s := stacked .active;
      (s.world.bank .a).state = .active ∧ (∀ x ∈ (s.world.bank .a).list, x.booking.id ≠ plain.id)
        ∧ 48 ≤ (s.world.bank .a).list.length)
    ∧ (let s := base 993999 (bankA .active [] lit);
      s.idle = true ∧ (s.world.bank .a).list.length < 48
        ∧ s.world.sealFault s.lib plain = none ∧ s.time.civic + 6000 < civic (s.world.bank .a).date
          plain.start
        ∧ s.world.sealFault s.lib { plain with showNo := 4 } = some .showNotClosed
        ∧ ((after (.addBooking 0 0 goodBooking) s).world.bank .a).list = [entry plain .pending])
    ∧ (let s := base 994000 (bankA .active [] lit);
      s.idle = true ∧ civic (s.world.bank .a).date plain.start ≤ s.time.civic + 6000
        ∧ (((after (.addBooking 0 0 goodBooking) s).world.bank .a).list.map (·.outcome.progress))
          = [.armed])
    ∧ (((after (.addBooking 0 0 goodBooking) (base 9 (bankA .loading [] lit))).world.bank .a).list)
      = [entry plain .pending] := by decide +kernel

/-- Bank A ACTIVE with the booking of `goodBooking`, the operating state and the players as given. -/
def amended (st : OpState) (taken : Nat) : World :=
  let w := (upTo 8).foldl (fun w p => if p.val < taken then seat p .armed (vigil 999999) id w else w)
    (bankA .active [entry plain .pending] lit)
  { w with ctl := { w.ctl with state := st } }

theorem test_AddBookingAppends_armed :
    (amended .parked 0).ctl.state = .parked
    ∧ (((amended .parked 0).armOne ⟨994000, shelf⟩ .a plain).bank .a).list =
      [{ entry plain .pending with armHeld := false }]
    ∧ (amended .active 0).ctl.state ≠ .parked
    ∧ lateMark 1000301 (civic ⟨2000, 1, 1⟩ 1000000) plain none (shelf.showRec 0).length = none
    ∧ ((((amended .active 0).armOne ⟨1000301, shelf⟩ .a plain).bank .a).list.map
      (·.outcome.progress)) = [.skippedLate]
    ∧ lateMark 994000 (civic ⟨2000, 1, 1⟩ 1000000) plain none (shelf.showRec 0).length = some .none
    ∧ ((amended .active 3).player 3).state = .free
    ∧ (∀ q < (3 : Fin 8), ((amended .active 3).player q).state ≠ .free)
    ∧ (((amended .active 3).armOne ⟨994000, shelf⟩ .a plain).player 3).state = .armed
    ∧ (∀ q, ((amended .active 8).player q).state ≠ .free)
    ∧ ((amended .active 8).bank .a).find 1 = some (entry plain .pending)
    ∧ ((amended .active 8).armOne ⟨994000, shelf⟩ .a plain).plans.wait = [1] := by decide +kernel

theorem test_PlanSealed :
    bank? 0 = some .a
    ∧ (let s := base 5 (bankA .loading [entry { song 5 with id := 3, showNo := 9 } .cancelled,
          entry (song 7) .pending] lit);
      s.idle = true ∧ (s.world.bank .a).state = .loading
        ∧ ¬((s.world.bank .b).state = .ready ∧ (s.world.bank .b).date = (s.world.bank .a).date)
        ∧ (∀ y ∈ (s.world.bank .a).list, y.outcome.progress = .cancelled
          ∨ s.world.sealFault s.lib y.booking = none)
        ∧ ((after (.sealPlan 0 0) s).world.bank .a).state = .ready)
    ∧ (let s := base 5 (bankA .loading [entry (song 7) .pending, entry (vigil 7) .pending] lit);
      s.idle = true ∧ (s.world.bank .a).list = [entry (song 7) .pending] ++ entry (vigil 7) .pending :: []
        ∧ s.world.sealFault s.lib (song 7) = none
        ∧ s.world.sealFault s.lib (vigil 7) = some .conditionOff
        ∧ ((after (.sealPlan 0 0) s).port.slot.map (·.body)) = some [255, 8, 0, 2, 0, 1])
    ∧ (let s := base 5 ((bankA .loading [] lit).onBank .b fun _ => ⟨.ready, ⟨2000, 1, 1⟩, []⟩);
      s.idle = true ∧ (s.world.bank .a).state = .loading ∧ (s.world.bank .b).state = .ready
        ∧ (s.world.bank .b).date = (s.world.bank .a).date)
    ∧ (planned .ready .pending).idle = true
    ∧ ((planned .ready .pending).world.bank .a).state ≠ .loading
    ∧ (shelf.showRec 2).state ≠ .closed
    ∧ lit.sealFault shelf { song 5 with showNo := 2 } = some .showNotClosed
    ∧ (shelf.showRec 0).state = .closed ∧ (lit.monitor.channels.get 5).enabled = false
    ∧ lit.sealFault shelf { song 5 with stopCond := some 5 } = some .conditionOff
    ∧ (World.cold.zone 17).configured = false
    ∧ World.cold.sealFault shelf (song 5) = some .zoneUnconfigured
    ∧ (shelf.showRec 3).length = some .endless
    ∧ lit.sealFault shelf { song 5 with showNo := 3 } = some .noEnd := by decide +kernel

/-- Bank A ACTIVE with a booking on the wait list, bank B READY for a date. -/
def swap (d : Date) (tod : Nat) : State :=
  let w := (bankA .active [entry (song 1000000) .waitlisted] lit).onBank .b fun _ => ⟨.ready, d, []⟩
  { base tod { w with plans := { w.plans with wait := [1] } } with reachOpen := false }

theorem test_PlanComesIntoForce :
    bank? 1 = some .b
    ∧ (let s := { swap ⟨2000, 1, 1⟩ 5 with time := ⟨⟨2000, 1, 1⟩, 5, .unset, 0, false, .rising, 0, none⟩ };
      s.idle = true ∧ s.time.state = .unset)
    ∧ (let s := swap ⟨2000, 1, 2⟩ 5;
      s.idle = true ∧ s.time.state ≠ .unset ∧ (s.world.bank .b).date ≠ s.time.date
        ∧ (s.world.bank .a).state ≠ .ready)
    ∧ (let s := swap ⟨2000, 1, 1⟩ 5;
      s.idle = true ∧ (s.world.bank .b).state = .ready ∧ (s.world.bank .b).date = s.time.date
        ∧ (s.world.bank .a).state = .active ∧ s.world.plans.wait ≠ []
        ∧ ((after (.activatePlan 0 1) s).world.bank .a).state = .spent
        ∧ ((after (.activatePlan 0 1) s).world.bank .b).state = .active)
    ∧ (let s := swap ⟨2000, 1, 2⟩ 8639999;
      s.held = false ∧ s.settle = s ∧ s.time.wf = true ∧ s.time.state ≠ .unset
        ∧ s.time.tod = 8639999 ∧ s.time.date ≠ ⟨2099, 12, 31⟩
        ∧ (s.world.bank .b).state = .ready ∧ (s.world.bank .b).date = s.time.date.next
        ∧ ¬((s.world.bank .a).state = .ready ∧ (s.world.bank .a).date = s.time.date.next)
        ∧ ((after .tickEvent s).world.bank .b).state = .active)
    ∧ (let s := swap ⟨2000, 1, 3⟩ 8639999;
      s.held = false ∧ s.settle = s
        ∧ ¬((s.world.bank .a).state = .ready ∧ (s.world.bank .a).date = s.time.date.next)
        ∧ ¬((s.world.bank .b).state = .ready ∧ (s.world.bank .b).date = s.time.date.next)
        ∧ ¬((s.world.bank .a).state = .active ∧ (s.world.bank .b).state = .active)
        ∧ ((after .tickEvent s).world.bank .a).state = .lapsed) := by decide +kernel

/-- R45, R46, R48: a bank that comes into force arms what has passed, and one that leaves it empties the wait
list. -/
theorem test_PlanComesIntoForce_arms :
    (let w := (swap ⟨2000, 1, 1⟩ 5).world;
      let v := w.leaveForce desk.env .a .spent;
      (w.bank .a).state = .active ∧ w.plans.wait = [1]
        ∧ (v.bank .a).list.map (·.outcome.progress) = [.skippedLate] ∧ v.plans.wait = []
        ∧ (w.bank .b).state ≠ .active ∧ (w.bank .b).state ≠ .lapsed ∧ w.leaveForce desk.env .b .spent = w
        ∧ (lit.onBank .a fun r => { r with state := .lapsed }).leaveForce desk.env .a .spent
          = lit.onBank .a (fun r => { r with state := .spent })
        ∧ lit.plans.wait = [] ∧ (lit.onBank .a fun r => { r with state := .active }).leaveForce desk.env .a
          .spent = lit.onBank .a fun r => { r with state := .spent })
    ∧ (let w := lit.onBank .b fun _ => ⟨.ready, ⟨2000, 1, 1⟩,
          [{ entry (song 6005) .pending with armHeld := false }, entry { song 6006 with id := 9 } .pending]⟩;
      let v := w.comeIntoForce (nowAt 5) .b;
      (v.bank .b).list.map (·.outcome.progress) = [.armed, .pending]
        ∧ (v.player 0).ref = some (.b, 1) ∧ (v.player 1).state = .free)
    ∧ (let w := (swap ⟨2000, 1, 2⟩ 5).world;
      (w.bank .b).state = .ready ∧ (w.bank .b).date = ⟨2000, 1, 2⟩ ∧ (w.bank .a).state ≠ .ready
        ∧ ((w.dayRoll (nowAt 8640000) ⟨2000, 1, 2⟩).bank .b).state = .active
        ∧ w.activeBank = some .a ∧ (w.bank .a).date = ⟨2000, 1, 1⟩
        ∧ w.dateSet (nowAt 5) ⟨2000, 1, 1⟩ = w
        ∧ ((w.dateSet (nowAt 5) ⟨2000, 1, 2⟩).bank .a).state = .spent
        ∧ (w.bank .a).date ≠ ⟨2000, 1, 3⟩ ∧ (w.bank .b).date ≠ ⟨2000, 1, 3⟩
        ∧ ((w.dayRoll (nowAt 5) ⟨2000, 1, 3⟩).bank .a).state = .lapsed
        ∧ ((w.dateSet (nowAt 5) ⟨2000, 1, 3⟩).notices.get NoticeKind.planMissing.no).pending = true)
    ∧ (∀ bk, bk = .a ∨ bk = .b → (lit.bank bk).state ≠ .ready ∧ (lit.bank bk).state ≠ .active)
    ∧ ((lit.dayRoll desk.env ⟨2000, 1, 2⟩).notices.get NoticeKind.planMissing.no).pending = true := by
  refine ⟨by decide +kernel, by decide +kernel, by decide +kernel, ?_, by decide +kernel⟩
  rintro bk (rfl | rfl) <;> decide +kernel

/-- Player 0 in a state with the booking that bank A lists with a progress. -/
def playing (st : PlayerState) (p : Progress) (f : Player → Player) : State :=
  base 1000500 (seat 0 st (song 1000000) f (bankA .active [entry (song 1000000) p] lit))

theorem test_BookingCancelled :
    bank? 0 = some .a ∧ 1 ≤ 1
    ∧ (let s := planned .loading .pending;
      s.idle = true ∧ (s.world.bank .a).find 9 = none
        ∧ (s.world.bank .a).find 1 = some (entry (song 1000000) .pending)
        ∧ (s.world.bank .a).state ≠ .spent)
    ∧ ((planned .active .completed).world.bank .a).find 1 = some (entry (song 1000000) .completed)
    ∧ Progress.completed.final = true
    ∧ ((planned .spent .pending).world.bank .a).state = .spent ∧ Progress.pending.inPlayer = false
    ∧ ((swap ⟨2000, 1, 2⟩ 5).world.bank .a).find 1 = some (entry (song 1000000) .waitlisted)
    ∧ (let s := playing .running .running id;
      s.idle = true ∧ (s.world.bank .a).find 1 = some (entry (song 1000000) .running)
        ∧ Progress.running.inPlayer = true ∧ s.world.playerOf .a 1 = some 0 ∧ s.world.plans.wait = []
        ∧ (s.world.player 0).state = .running
        ∧ ((after (.cancelBooking 0 0 1 0) s).world.player 0).state = .ending
        ∧ ((after (.cancelBooking 0 0 1 1) s).world.player 0) = Player.free)
    ∧ (let s := playing .armed .armed id;
      s.idle = true ∧ Progress.armed.inPlayer = true ∧ s.world.playerOf .a 1 = some 0
        ∧ (s.world.player 0).state = .armed
        ∧ ((after (.cancelBooking 0 0 1 0) s).world.player 0) = Player.free)
    ∧ ((playing .held .held id).world.player 0).state = .held
    ∧ ((playing .ending .ending id).world.player 0).state = .ending := by decide +kernel

/-- A booking of the endless show with an end time. -/
def loop : Booking := { song 1000000 with showNo := 3, endTime := some ⟨2000000, false⟩ }

theorem test_BookingEndAmended :
    bank? 0 = some .a
    ∧ (let s := planned .loading .pending;
      s.idle = true ∧ (s.world.bank .a).find 1 = some (entry (song 1000000) .pending)
        ∧ Progress.pending.final = false ∧ (s.world.bank .a).state ≠ .spent
        ∧ (∀ v ∈ some (⟨2160000, true⟩ : EndTime), v.tod < 8640000
          ∧ (v.nextDay = true → v.tod ≤ 2160000)
          ∧ (song 1000000).start < v.tod + (if v.nextDay then 8640000 else 0))
        ∧ (∀ v ∈ some (⟨1000001, false⟩ : EndTime), v.tod < 8640000
          ∧ (song 1000000).start < v.tod + (if v.nextDay then 8640000 else 0))
        ∧ (s.lib.showRec (song 1000000).showNo).length ≠ some .endless
        ∧ (((after (.amendEnd 0 0 1 1000001 0) s).world.bank .a).list.map (·.booking.endTime))
          = [some ⟨1000001, false⟩]
        ∧ (s.world.bank .a).find 9 = none)
    ∧ (let s := playing .running .running id;
      s.idle = true ∧ s.world.playerOf .a 1 = some 0
        ∧ ((after (.amendEnd 0 0 1 0 1) s).world.player 0).copy.bind (·.endPoint) = some 8640000)
    ∧ ((planned .active .completed).world.bank .a).find 1 = some (entry (song 1000000) .completed)
    ∧ ((planned .spent .pending).world.bank .a).state = .spent ∧ Progress.pending.inPlayer = false
    ∧ (8640000 ≠ 0xFFFFFF ∧ 8640000 ≤ 8640000) ∧ (8639999 < 8640000 ∧ 1 < 2)
    ∧ (1 = 1 ∧ 2160000 < 2160001) ∧ 1000000 + 8640000 * 0 ≤ (song 1000000).start
    ∧ (let s := base 1000 (bankA .loading [entry loop .pending] lit);
      s.idle = true ∧ (s.world.bank .a).find 1 = some (entry loop .pending)
        ∧ (s.lib.showRec loop.showNo).state = .closed
        ∧ (s.lib.showRec loop.showNo).length = some .endless ∧ loop.stopCond = none ∧ 1 ≠ 0
        ∧ (after (.amendEnd 0 0 1 0xFFFFFF 1) s).port.slot.map (·.body) = some [5, 0, 255, 255, 255, 255]
        ∧ (after (.amendEnd 0 0 1 0xFFFFFF 0) s).port.slot.map (·.body) = some [2, 0, 255, 255, 255, 255]
        ∧ (after (.amendEnd 0 0 1 5 2) s).port.slot.map (·.body) = some [5, 0, 255, 255, 255, 255])
    ∧ (let s := base 1000 (bankA .loading [entry (song 1000000) .pending] lit);
      (after (.amendEnd 0 0 1 0xFFFFFF 0) s).port.slot.map (·.code) = some .ok) := by decide +kernel

theorem test_BookingsArmed :
    (let r : BankRec := ⟨.active, ⟨2000, 1, 1⟩, [entry (song 1000000) .pending, entry (vigil 999999) .pending]⟩;
      (r.list.map (·.booking.id)).Nodup
        ∧ r.armable 994000 false = [song 1000000, vigil 999999]
        ∧ r.armable 993999 false = [vigil 999999])
    ∧ 850 + 150 ≤ 1000 ∧ 1000 < 851 + 150
    ∧ lateMark 850 1000 (song 0) none none = some .none
    ∧ lateMark 851 1000 (song 0) none (some (.ticks 1)) = none
    ∧ lateMark 851 1000 (song 0) (some 1001) none = none
    ∧ lateMark 851 1000 (song 0) (some 1002) none = some .join
    ∧ lateMark 6999 1000 (vigil 0) none none = some .restart
    ∧ lateMark 7000 1000 (vigil 0) none none = none
    ∧ (let s := base 994000 (bankA .active [entry (song 1000000) .pending] lit);
      s.held = false ∧ s.reachOpen = true ∧ s.world.activeBank = some .a
        ∧ (s.world.bank .a).armable s.time.civic false = song 1000000 :: []
        ∧ ((s.world.bank .a).list.map (·.booking.id)).Nodup ∧ s.world.ctl.state ≠ .parked
        ∧ lateMark s.time.civic (civic ⟨2000, 1, 1⟩ 1000000) (song 1000000)
          ((song 1000000).endPoint ⟨2000, 1, 1⟩) (s.lib.showRec 0).length = some .none
        ∧ (s.world.player 0).state = .free
        ∧ ((after .armPoint s).world.player 0).state = .armed)
    ∧ (let s := base 1000301 (bankA .active [entry (song 1000000) .pending] lit);
      (s.world.bank .a).armable s.time.civic false = song 1000000 :: []
        ∧ lateMark s.time.civic (civic ⟨2000, 1, 1⟩ 1000000) (song 1000000)
          ((song 1000000).endPoint ⟨2000, 1, 1⟩) (s.lib.showRec 0).length = none
        ∧ (((after .armPoint s).world.bank .a).list.map (·.outcome.progress)) = [.skippedLate])
    ∧ (let w := bankA .active [entry (song 1000000) .pending] lit;
      let s := base 994000 { w with ctl := { w.ctl with state := .parked } };
      s.world.ctl.state = .parked ∧ (s.world.bank .a).armable s.time.civic false = song 1000000 :: [])
    ∧ (let w := bankA .active [entry (song 1000000) .pending] lit;
      let s := base 994000 ((upTo 8).foldl (fun w p => seat p .armed (vigil 999999) id w) w);
      (∀ q, (s.world.player q).state ≠ .free) ∧ s.world.ctl.state ≠ .parked
        ∧ (after .armPoint s).world.plans.wait = [1])
    ∧ (let w := bankA .active [entry (song 1000000) .pending] lit;
      let s := base 994000 { w with ctl := { w.ctl with state := .dark } };
      s.world.ctl.state = .dark ∧ (after .armPoint s).world.ctl.state = .active) := by decide +kernel

/-! ## The hypotheses of the statements: the players -/

/-- Bank A ACTIVE with a booking that player 0 holds, a channel 5 of a value, at a tick. -/
def onStage (tod : Nat) (st : PlayerState) (k : Booking) (v : Verdict) (f : Player → Player) : State :=
  base tod ((seat 0 st k f (bankA .active [entry k st.progress] lit)).setChannel 5
    { Channel.cold with enabled := true, value := v })

/-- The booking of show 1 waiting for condition 5. -/
def overture : Booking := { song 1000000 with mode := .onCondition 5 6000 }

/-- The points a player of a state has first. -/
def first (s : State) : Option PointKind := s.env.firstPoint (s.world.player 0)

theorem test_ClaimPointBegins :
    (let s := onStage 999850 .armed (song 1000000) .unknown id;
      s.held = false ∧ s.reachOpen = true ∧ first s = some .start
        ∧ (s.world.player 0).copy = some ⟨song 1000000, 1000000, none⟩
        ∧ (song 1000000).mode = .atTime ∧ (song 1000000).cls ≠ 0 ∧ (song 1000000).stopCond = none
        ∧ (s.lib.showRec 0).parts.head?.any (·.kind == .preroll) = true
        ∧ (s.lib.showRec 0).parts[1]? = some ⟨.main, 200, 2, 1, 2⟩
        ∧ ((after (.claimPoint 0) s).world.player 0).state = .running
        ∧ ((after (.claimPoint 0) s).world.player 0).hands.length = 1
        ∧ ((after (.claimPoint 0) s).world.zone 17).claims = [⟨0, 3, 1, 1, 1⟩])
    ∧ first (onStage 999849 .armed (song 1000000) .unknown id) = none
    ∧ (let k := { song 1000000 with cls := 0, stopCond := some 5, showNo := 1 };
      let s := onStage 999850 .armed k .no id;
      first s = some .start ∧ (s.lib.showRec 1).parts.head?.any (·.kind == .preroll) = false
        ∧ (s.lib.showRec 1).parts[0]? = some ⟨.main, 200, 3, 0, 2⟩
        ∧ (s.world.monitor.channels.get 5).value ≠ .yes
        ∧ ((after (.claimPoint 0) s).world.zone 17).claims = [])
    ∧ (let s := onStage 999850 .armed overture .unknown id;
      s.held = false ∧ s.reachOpen = true ∧ first s = some .start
        ∧ (s.world.player 0).copy = some ⟨overture, 1000000, none⟩
        ∧ overture.mode = .onCondition 5 6000
        ∧ (s.lib.showRec 0).parts[0]? = some ⟨.preroll, 100, 0, 0, 1⟩
        ∧ (s.world.monitor.channels.get 5).value ≠ .yes
        ∧ ((after (.claimPoint 0) s).world.player 0).state = .waiting) := by decide +kernel

/-- The progress and the start tick that bank A's one booking reports. -/
def told (s : State) : List (Progress × Option Nat) :=
  (s.world.bank .a).list.map fun x => (x.outcome.progress, x.outcome.startTick)

/-- R39, R62 to R64, R87: what a claim point and a start point report, and the starts of a show: with claims and
of class 0, with a PREROLL and without one. -/
theorem test_ClaimPointBegins_reports :
    (let s := onStage 999850 .armed (song 1000000) .unknown id;
      (s.world.player 0).ref = some (.a, 1) ∧ ((s.world.bank .a).find 1).isSome = true
        ∧ told (after (.claimPoint 0) s) = [(.running, some 1000000)])
    ∧ told (after (.claimPoint 0) (onStage 999850 .armed overture .unknown id)) = [(.waiting, none)]
    ∧ told (after (.claimPoint 0) (onStage 999850 .armed overture .yes id)) = [(.running, some 1000000)]
    ∧ told (after (.startPoint 0) (onStage 1000000 .armed (vigil 1000000) .yes id)) = [(.running, some 1000150)]
    ∧ (let w (k : Booking) := seat 0 .armed k id (bankA .active [entry k .armed] lit);
      let e := nowAt 999850;
      let k0 := { song 1000000 with cls := 0 };
      ((w k0).player 0).copy = some ⟨k0, 1000000, none⟩ ∧ (w k0).sendClaims e 0 = w k0
        ∧ [(0 : Fin 64), 1, 17].map (fun z => (((w (song 1000000)).sendClaims e 0).zone z).claims)
          = [[⟨0, 3, 1, 1, 0⟩], [⟨0, 3, 1, 1, 0⟩], [⟨0, 3, 1, 1, 1⟩]]
        ∧ (((w (song 1000000)).runFrom e 0 7).player 0).walk = some (.stands ⟨1, 0, 1⟩)
        ∧ (((w (vigil 1000000)).runFrom e 0 7).player 0).walk = some (.stands ⟨0, 0, 0⟩)
        ∧ (((w (song 1000000)).enterWaiting e 0 7).player 0).walk = some (.stands ⟨0, 0, 0⟩)
        ∧ (((w (vigil 1000000)).enterWaiting e 0 7).player 0).walk = none) := by decide +kernel

theorem test_StartPointTaken :
    (let s := onStage 1000000 .armed (vigil 1000000) .no id;
      s.held = false ∧ s.reachOpen = true ∧ first s = some .start
        ∧ (s.world.player 0).copy = some ⟨vigil 1000000, 1000000, none⟩
        ∧ (s.world.player 0).walk = none ∧ (vigil 1000000).mode = .onCondition 5 6000
        ∧ (s.lib.showRec 1).parts.head?.any (·.kind == .preroll) = false
        ∧ (s.world.monitor.channels.get 5).value ≠ .yes
        ∧ ((after (.startPoint 0) s).world.player 0).state = .waiting)
    ∧ first (onStage 999999 .armed (vigil 1000000) .no id) = none
    ∧ (let s := onStage 1000000 .armed (vigil 1000000) .yes id;
      s.held = false ∧ s.reachOpen = true ∧ first s = some .start
        ∧ (s.lib.showRec 1).parts[0]? = some ⟨.main, 200, 3, 0, 2⟩
        ∧ (s.world.monitor.channels.get 5).value = .yes ∧ (vigil 1000000).stopCond = none
        ∧ ((after (.startPoint 0) s).world.player 0).epoch = some 1000150) := by decide +kernel

/-- Player 0 armed late with a booking of bank A. -/
def tardy (m : LateMark) (k : Booking) (v : Verdict) : World :=
  ((seat 0 .armed k (fun c => { c with mark := m }) (bankA .active [entry k .armed] lit)).setChannel 5
    { Channel.cold with enabled := true, value := v })

/-- The booking of show 1 with condition 5 as its stop condition. -/
def untilSeen : Booking := { song 1000000 with stopCond := some 5 }

/-- R63, R65, R67, R76: a stop condition that is TRUE at a start ends the show before a group of it is handed
on, and a start condition that is TRUE at a claim point starts the main show. -/
theorem test_conditions_found_true_at_a_start :
    (let s := onStage 999850 .armed untilSeen .yes id;
      let c := (after (.claimPoint 0) s).world.player 0;
      s.held = false ∧ s.reachOpen = true ∧ first s = some .start ∧ untilSeen.stopCond = some 5
        ∧ (s.world.monitor.channels.get 5).value = .yes ∧ c.state = .ending ∧ c.cause = some .stopped
        ∧ c.release = some 1000050 ∧ c.hands.map (·.id) = [⟨2, 0, 3⟩])
    ∧ (let s := onStage 999850 .armed overture .yes id;
      let c := (after (.claimPoint 0) s).world.player 0;
      first s = some .start ∧ overture.mode = .onCondition 5 6000 ∧ c.state = .running
        ∧ c.epoch = some 1000000 ∧ c.startTick = some 1000000 ∧ c.hands.map (·.id) = [⟨1, 0, 1⟩])
    ∧ (let s := onStage 1000000 .armed { vigil 1000000 with stopCond := some 5 } .yes id;
      let c := (after (.startPoint 0) s).world.player 0;
      first s = some .start ∧ c.state = .ending ∧ c.cause = some .stopped ∧ c.release = some 1000150
        ∧ c.hands = [])
    ∧ (let w := tardy .join untilSeen .yes;
      let c := (w.lateStart (nowAt 1000000) 0).player 0;
      c.state = .ending ∧ c.cause = some .stopped ∧ c.play = some ⟨⟨1, 0, 2⟩, 1000100⟩
        ∧ c.release = some 1000200 ∧ c.hands.map (·.id) = [⟨2, 0, 3⟩])
    ∧ (((tardy .join untilSeen .yes).lateStart (nowAt 1000299) 0).player 0).cause = some .completed
    ∧ (((tardy .restart (vigil 1000000) .yes).lateStart (nowAt 1000000) 0).player 0).state = .running := by
  decide +kernel

theorem test_BookingsArmed_late :
    (let w := tardy .join (song 1000000) .no;
      (w.player 0).copy = some ⟨song 1000000, 1000000, none⟩ ∧ (w.player 0).mark = .join
        ∧ (song 1000000).mode = .atTime ∧ (w.player 0).length = some (.ticks 450)
        ∧ 1000000 + 450 ≤ 1000300 + 150 ∧ (w.player 0).ref = some (.a, 1)
        ∧ (w.bank .a).find 1 = some (entry (song 1000000) .armed)
        ∧ (w.lateStart (nowAt 1000300) 0).player 0 = Player.free
        ∧ (((w.lateStart (nowAt 1000300) 0).bank .a).list.map (·.outcome.progress)) = [.skippedLate])
    ∧ (let v := (tardy .join (song 1000000) .no).lateStart (nowAt 1000299) 0;
      (v.player 0).state = .ending ∧ (v.player 0).walk = some .past ∧ (v.player 0).hands = []
        ∧ (v.player 0).startTick = some 1000000 ∧ (v.player 0).release = some 1000450
        ∧ (v.zone 17).claims = [⟨0, 3, 1, 1, 1⟩])
    ∧ (let v := (tardy .join (song 1000000) .no).lateStart (nowAt 1000000) 0;
      (v.player 0).state = .running ∧ (v.player 0).play = some ⟨⟨1, 0, 2⟩, 1000100⟩)
    ∧ (let w := tardy .restart (song 1000000) .no;
      (w.player 0).mark = .restart ∧ (shelf.showRec 0).parts[1]? = some ⟨.main, 200, 2, 1, 2⟩
        ∧ ((w.lateStart (nowAt 1000300) 0).player 0).epoch = some 1000450)
    ∧ (let w := tardy .restart (vigil 1000000) .no;
      LateMark.restart ≠ .none ∧ (vigil 1000000).mode = .onCondition 5 6000
        ∧ (shelf.showRec 1).parts.head?.any (·.kind == .preroll) = false
        ∧ w.lateStart (nowAt 999999) 0 = w
        ∧ ((w.lateStart (nowAt 1000000) 0).player 0).state = .waiting)
    ∧ (let w := tardy .join overture .no;
      (w.player 0).mark = .join ∧ overture.mode = .onCondition 5 6000
        ∧ (shelf.showRec 0).parts.head?.any (·.kind == .preroll) = true
        ∧ ((w.lateStart (nowAt 1000100) 0).player 0).state = .waiting
        ∧ ((w.lateStart (nowAt 1000100) 0).player 0).play = some ⟨⟨0, 2, 0⟩, 1000200⟩)
    ∧ (let w := tardy .restart overture .no;
      (shelf.showRec 0).parts[0]? = some ⟨.preroll, 100, 0, 0, 1⟩
        ∧ ((w.enterWaiting (nowAt 1000100) 0 1000250).player 0).epoch = some 1000250)
    ∧ (let e := nowAt 1000000;
      let c := ((tardy .join (song 1000000) .no).player 0).walkFrom (shelf.showRec 0) 1 1000000;
      e.walkAt c = some (⟨1, 0, 1⟩, ⟨.main, 200, 2, 1, 2⟩, 1000000) ∧ 1000000 < e.now + 150
        ∧ 1 + (shelf.group (e.showOf c) ⟨.main, 200, 2, 1, 2⟩ 1).length < 1 + 2
        ∧ (e.replayOne c).walk = some (.stands ⟨1, 0, 2⟩)
        ∧ 1 + 2 ≤ 2 + (shelf.group (e.showOf c) ⟨.main, 200, 2, 1, 2⟩ 2).length
        ∧ (e.replayOne (e.replayOne c)).walk = some (.stands ⟨1, 1, 1⟩)
        ∧ ((nowAt 999850).walkAt c).any (fun a => a.2.2 < 999850 + 150) = false
        ∧ (nowAt 999850).replayFor 9 c = c
        ∧ (e.replay c).walk = some (.stands ⟨1, 1, 1⟩) ∧ (shelf.showRec 0).parts[3]? = none
        ∧ c.passes = some (.left 2) ∧ c.walkFrom (shelf.showRec 0) 3 5 = c) := by decide +kernel

/-- `vigil` with an end time. -/
def brief : Booking := { vigil 1000000 with endTime := some ⟨1000100, false⟩ }

/-- A booking that waits for a player. -/
def later : Booking := { song 2000000 with id := 7 }

/-- An arming into a player, in ACTIVE and in DARK, and one that is not late. -/
theorem test_BookingsArmed_into :
    (amended .active 0).ctl.state ≠ .dark ∧ (amended .dark 0).ctl.state = .dark
    ∧ ((amended .active 0).armInto ⟨994000, shelf⟩ 0 .a plain .none).ctl = (amended .active 0).ctl
    ∧ ((amended .dark 0).armInto ⟨994000, shelf⟩ 0 .a plain .none).ctl.lastChange
      = some ⟨994000, .active, .arming⟩
    ∧ (((amended .active 0).armInto ⟨994000, shelf⟩ 0 .a plain .none).player 0).state = .armed
    ∧ ((amended .active 8).player 7).state ≠ .free := by decide +kernel

/-- R69, R147, R180: a late arming in DARK wakes the part before its claims are made, so that a claim that reaches a
CALIBRATING link ends the calibration in UP (log entry 45). -/
theorem test_BookingsArmed_dark :
    (let w := (amended .dark 0).onLink 0 fun k =>
        { k with state := .calibrating, cal := some ⟨5, 2, 0, 3, false⟩ };
      let v := w.armInto (nowAt 1000000) 0 .a plain .join;
      w.ctl.state = .dark ∧ (v.link 0).state = .up ∧ v.ctl.state = .active
        ∧ (v.link 0).lastOp = some ⟨false, .aborted, 3⟩) := by decide +kernel

theorem test_EndingPointsRelease :
    (let s := onStage 1006000 .waiting (vigil 1000000) .no id;
      s.held = false ∧ s.reachOpen = true ∧ s.world.plans.wait = []
        ∧ (s.world.player 0).ref = some (.a, 2)
        ∧ (s.world.bank .a).find 2 = some (entry (vigil 1000000) .waiting)
        ∧ first s = some .windowEnd ∧ (s.world.player 0).dry = false
        ∧ ((after (.windowEnd 0) s).world.player 0) = Player.free)
    ∧ first (onStage 1005999 .waiting (vigil 1000000) .no id) = none
    ∧ (let s := onStage 999950 .armed brief .no id;
      first s = some .endCut ∧ (s.world.player 0).state = .armed ∧ s.world.plans.wait = []
        ∧ ((after (.endCut 0) s).world.player 0) = Player.free)
    ∧ (let s := onStage 1000000 .waiting brief .no id;
      first s = some .endCut ∧ (s.world.player 0).state = .waiting)
    ∧ (let s := onStage 1000000 .held brief .no id;
      first s = some .endCut ∧ (s.world.player 0).state = .held
        ∧ (((after (.endCut 0) s).world.bank .a).list.map (·.outcome.progress)) = [.endedAtTime])
    ∧ (let s := onStage 1000600 .running (vigil 1000000) .no fun c =>
          { c with walk := some .past, release := some 1000600, cause := some .completed };
      s.held = false ∧ s.reachOpen = true ∧ first s = some .release
        ∧ (s.world.player 0).cause = some .completed
        ∧ (((after (.releasePoint 0) s).world.bank .a).list.map (·.outcome.progress)) = [.completed])
    ∧ (let w := seat 0 .ending (vigil 1000000)
          (fun c => { c with walk := some .past, release := some 1000600, cause := some .stopped })
          (bankA .active [entry (vigil 1000000) .ending, entry later .waitlisted] lit);
      let s := base 1000600 { w with plans := { w.plans with wait := [7] } };
      s.held = false ∧ s.reachOpen = true ∧ first s = some .release ∧ s.world.plans.wait = 7 :: []
        ∧ s.world.activeBank = some .a ∧ (s.world.bank .a).find 7 = some (entry later .waitlisted)
        ∧ (s.world.player 0).ref ≠ some (.a, 7) ∧ s.world.ctl.state ≠ .parked
        ∧ s.time.civic + 150 ≤ civic (s.world.bank .a).date later.start
        ∧ ((after (.releasePoint 0) s).world.player 0).ref = some (.a, 7)) := by decide +kernel

/-- R52: a freed player takes bookings from the wait list until one takes it, a late one skipped. -/
theorem test_EndingPointsRelease_fill :
    (let w := bankA .active [entry (song 1000000) .waitlisted, entry later .waitlisted] lit;
      let w := { w with plans := { w.plans with wait := [1, 7] } };
      (w.player 0).state = .free ∧ w.ctl.state ≠ .parked ∧ w.plans.wait = 1 :: [7]
        ∧ w.activeBank = some .a ∧ (w.bank .a).find 1 = some (entry (song 1000000) .waitlisted)
        ∧ ((w.fillFor (nowAt 1000301) 0 2).player 0).ref = some (.a, 7)
        ∧ ((w.fillFor (nowAt 1000301) 0 2).bank .a).list.map (·.outcome.progress) = [.skippedLate, .armed]
        ∧ (let v := { w with ctl := { w.ctl with state := .parked } };
          v.ctl.state = .parked ∧ v.fillFor (nowAt 1000301) 0 2 = v)) := by decide +kernel

/-- `song` with an end time. -/
def curfew : Booking := { song 1000000 with endTime := some ⟨1000400, false⟩ }

theorem test_EndCutBeginsEnding :
    (let s := onStage 1000250 .running curfew .no fun c =>
          { c with walk := some (.stands ⟨1, 2, 1⟩), epoch := some 1000401, passes := some (.left 1) };
      s.held = false ∧ s.reachOpen = true ∧ first s = some .endCut
        ∧ (s.world.player 0).state = .running
        ∧ (s.world.player 0).copy.bind (·.endPoint) = some 1000400
        ∧ (s.env.showOf (s.world.player 0)).parts.getLast? = some ⟨.coda, 50, 1, 3, 1⟩
        ∧ ((after (.endCut 0) s).world.player 0).release = some 1000450
        ∧ ((after (.endCut 0) s).world.player 0).state = .ending)
    ∧ (let s := onStage 1000250 .running { curfew with showNo := 1 } .no fun c =>
          { c with walk := some .past, release := some 1000400, cause := some .completed };
      first s = some .endCut ∧ (s.world.player 0).copy.bind (·.endPoint) = some 1000400
        ∧ (s.env.showOf (s.world.player 0)).parts.getLast? = some ⟨.main, 200, 3, 0, 2⟩
        ∧ ((after (.endCut 0) s).world.player 0).cause = some .completed)
    ∧ (let s := onStage 1000250 .running { curfew with showNo := 1 } .no fun c =>
          { c with walk := some .past, release := some 1000401, cause := some .completed };
      first s = some .endCut
        ∧ ((after (.endCut 0) s).world.player 0).cause = some .endedAtTime) := by decide +kernel

/-- A hand-on record of show 1 with the walk as it stood. -/
def record1 : HandRec :=
  ⟨⟨1, 0, 1⟩, 1000100, [⟨0, ⟨2, ⟨0, 0, 0, 0, 0⟩⟩⟩], ⟨⟨1, 0, 1⟩, 1000100, .left 2, none⟩⟩

/-- Player 0 with a show, its walk, its hand-on list and its release point. -/
def closing (st : PlayerState) (show2 : Bool) (walk : Walk) (release : Option Nat) : World :=
  seat 0 st { song 1000000 with showNo := if show2 then 1 else 0 } (fun c => { c with
      walk := some walk, epoch := some 1000000, passes := some (.left 1), hands := [record1]
      release := release })
    (bankA .active [entry (song 1000000) st.progress] lit)

/-- The release point and the cause that a graceful end leaves, and how many hands. -/
def cutShort (t : Nat) (fresh : Bool) (w : World) : Option Nat × Option EndCause × Nat :=
  let c := (w.endGracefully (nowAt 1000000) 0 t .cancelled fresh).player 0
  (c.release, c.cause, c.hands.length)

/-- R65: the start of the main show with a PREROLL cuts the hands due from the MAIN EPOCH on. -/
theorem test_StartPointTaken_main :
    (let w := (closing .waiting false (.stands ⟨0, 1, 0⟩) none);
      (w.player 0).copy = some ⟨song 1000000, 1000000, none⟩
        ∧ (shelf.showRec 0).parts.head?.any (·.kind == .preroll) = true
        ∧ (shelf.showRec 0).parts[1]? = some ⟨.main, 200, 2, 1, 2⟩ ∧ record1 ∈ (w.player 0).hands
        ∧ 999950 + 150 ≤ record1.due ∧ (w.player 0).ref = some (.a, 1)
        ∧ ((w.mainStart (nowAt 999950) 0).player 0).hands = []
        ∧ ((w.mainStart (nowAt 999951) 0).player 0).hands = [record1]
        ∧ ((w.mainStart (nowAt 999951) 0).player 0).walk = some (.stands ⟨1, 0, 1⟩)
        ∧ ((w.mainStart (nowAt 999951) 0).zone 17).claims = []
        ∧ ((w.mainStart (nowAt 999951) 0).bank .a).list.map (·.outcome.startTick) = [some 1000101])
    ∧ (let w := closing .waiting true .past none;
      (shelf.showRec 1).parts.head?.any (·.kind == .preroll) = false
        ∧ ((w.mainStart (nowAt 999950) 0).zone 17).claims = [⟨0, 3, 1, 1, 1⟩]) := by decide +kernel

theorem test_EndCutBeginsEnding_anywhere :
    (let w := closing .held false (.stands ⟨1, 0, 2⟩) none;
      ((nowAt 1000000).showOf (w.player 0)).parts.getLast? = some ⟨.coda, 50, 1, 3, 1⟩
        ∧ record1 ∈ (w.player 0).hands ∧ 1000100 ≤ record1.due
        ∧ (w.player 0).ref = some (.a, 1) ∧ (w.bank .a).find 1 = some (entry (song 1000000) .held)
        ∧ cutShort 1000100 true w = (some 1000150, some .cancelled, 0)
        ∧ cutShort 1000101 true w = (some 1000151, some .cancelled, 1))
    ∧ (let w := closing .running true .past (some 1000150);
      ((nowAt 1000000).showOf (w.player 0)).parts.getLast? = some ⟨.main, 200, 3, 0, 2⟩
        ∧ (w.player 0).walk = some .past ∧ (w.player 0).release = some 1000150
        ∧ cutShort 1000150 false w = (some 1000150, some .completed, 1)
        ∧ cutShort 1000149 false w = (some 1000149, some .cancelled, 1)
        ∧ cutShort 1000150 true w = (some 1000150, some .cancelled, 1))
    ∧ cutShort 1000150 false (closing .running true (.stands ⟨0, 0, 1⟩) none)
      = (some 1000150, some .cancelled, 1) := by decide +kernel

/-- A group handed on goes to the dispatcher, but from a DRY player. -/
theorem test_GroupsHandedOnAndPlayed_told :
    (let owned (k : Booking) := ((seat 0 .running k (fun c => { c with
          walk := some (.stands ⟨1, 0, 1⟩), epoch := some 1000100, passes := some (.left 2) }) lit).onZone 0
        fun z => { z with claims := [⟨0, 3, 1, 1, 0⟩] });
      let v (k : Booking) := (owned k).handOn (nowAt 999950) 0;
      (nowAt 999950).walkAt ((owned (song 1000000)).player 0)
          = some (⟨1, 0, 1⟩, ⟨.main, 200, 2, 1, 2⟩, 1000100)
        ∧ ((owned (song 1000000)).player 0).walking = true ∧ 1000100 ≤ 999950 + 150
        ∧ ¬(1000100 ≤ 999949 + 150)
        ∧ (v (song 1000000)).groups.map (fun g => (g.id, g.due, g.cues.map (·.zones)))
          = [(⟨1, 0, 1⟩, 1000100, [[0, 1]])]
        ∧ (({ song 1000000 with cls := 0 } : Booking).cls == 0) = true
        ∧ (v { song 1000000 with cls := 0 }).groups = []
        ∧ ((v { song 1000000 with cls := 0 }).player 0).hands.length = 1) := by decide +kernel

/-- The points of player 0. -/
def points (s : State) : List (Nat × PointKind) := s.env.points (s.world.player 0)

/-- The points a player holds, by its state. -/
theorem test_GroupsHandedOnAndPlayed_points :
    ((onStage 5 .armed (song 1000000) .no id).world.player 0).copy = some ⟨song 1000000, 1000000, none⟩
    ∧ [onStage 5 .free curfew .no id, onStage 5 .armed (song 1000000) .no id,
        onStage 5 .armed overture .no id, onStage 5 .armed (vigil 1000000) .no id,
        onStage 5 .waiting brief .no id, onStage 5 .waiting brief .no fun c => { c with cutFresh := true },
        onStage 5 .running curfew .no fun c => { c with
          walk := some (.stands ⟨1, 0, 2⟩), epoch := some 1000200, hands := [record1], release := some 9 },
        onStage 5 .held curfew .no fun c => { c with hands := [record1], release := some 9 },
        onStage 5 .ending curfew .no fun c => { c with
          walk := some .past, hands := [record1], release := some 1000500 }].map points =
      [[], [(1000000, .start)], [(1000000, .start)], [(1000150, .start)],
        [(1006150, .windowEnd), (1000100, .endCut)], [(1006150, .windowEnd)],
        [(1000400, .endCut), (1000250, .due), (1000300, .hand), (159, .release)], [(1000400, .endCut)],
        [(1000250, .due), (1000650, .release)]] := by decide +kernel

theorem test_GroupsHandedOnAndPlayed :
    (let s := onStage 999950 .running (song 1000000) .no fun c =>
          { c with walk := some (.stands ⟨1, 0, 1⟩), epoch := some 1000100, passes := some (.left 2) };
      s.held = false ∧ s.reachOpen = true ∧ first s = some .hand
        ∧ s.env.walkAt (s.world.player 0) = some (⟨1, 0, 1⟩, ⟨.main, 200, 2, 1, 2⟩, 1000100)
        ∧ 1 + (s.lib.group (s.env.showOf (s.world.player 0)) ⟨.main, 200, 2, 1, 2⟩ 1).length < 1 + 2
        ∧ ((after (.handPoint 0) s).world.player 0).hands = [record1]
        ∧ ((after (.handPoint 0) s).world.player 0).walk = some (.stands ⟨1, 0, 2⟩))
    ∧ (let s := onStage 1000150 .running (song 1000000) .no fun c =>
          { c with walk := some (.stands ⟨1, 1, 2⟩), epoch := some 1000200, passes := some (.left 1) };
      first s = some .hand
        ∧ s.env.walkAt (s.world.player 0) = some (⟨1, 1, 2⟩, ⟨.main, 200, 2, 1, 2⟩, 1000300)
        ∧ 1 + 2 ≤ 2 + (s.lib.group (s.env.showOf (s.world.player 0)) ⟨.main, 200, 2, 1, 2⟩ 2).length
        ∧ ((s.world.handOn s.env 0).player 0).walk = some (.stands ⟨2, 0, 3⟩) ∧ 2 + 1 = 3
        ∧ ((s.world.handOn s.env 0).player 0).release = some 1000450
        ∧ ((s.world.handOn s.env 0).player 0).state = .ending)
    ∧ (let show1 := shelf.showRec 0;
      let main : SectionRec := ⟨.main, 200, 2, 1, 2⟩;
      let c := { Player.free with epoch := some 5 };
      ({ c with passes := some .endless }.passTurn show1 main ⟨1, 65535, 2⟩).walk
          = some (.stands ⟨1, 0, 1⟩)
        ∧ ({ c with passes := some (.left 2) }.passTurn show1 main ⟨1, 0, 2⟩).passes = some (.left 1)
        ∧ ({ c with passes := some (.left 1), latch := some 9 }.passTurn show1 main ⟨1, 0, 2⟩).passes
          = some (.left 9)
        ∧ show1.parts[1 + 1]? = some ⟨.coda, 50, 1, 3, 1⟩
        ∧ ({ c with passes := some (.left 1) }.passTurn show1 main ⟨1, 0, 2⟩).release = some 255
        ∧ show1.parts[0 + 1]? = some main ∧ main.kind ≠ .coda
        ∧ show1.parts[2 + 1]? = none
        ∧ ({ c with passes := some (.left 1) }.passTurn show1 ⟨.coda, 50, 1, 3, 1⟩ ⟨2, 0, 3⟩).walk
          = some .past
        ∧ (shelf.showRec 1).parts[0 + 1]? = none
        ∧ ({ c with passes := some (.left 1) }.passTurn (shelf.showRec 1) ⟨.main, 200, 3, 0, 2⟩
          ⟨0, 2, 1⟩).release = some 205)
    ∧ (let s := onStage 1000100 .running (song 1000000) .no fun c =>
          { c with
            walk := some (.stands ⟨1, 0, 2⟩), epoch := some 1000200, passes := some (.left 2)
            hands := [record1] };
      s.held = false ∧ s.reachOpen = true ∧ first s = some .due
        ∧ (s.world.player 0).hands = record1 :: []
        ∧ ((after (.duePoint 0) s).world.player 0).play = some ⟨⟨1, 0, 1⟩, 1000100⟩
        ∧ ((after (.duePoint 0) s).world.player 0).hands = []) := by decide +kernel

/-- R61, R72: a forward step takes hand points and an end cut in the order of their civic ticks: the end cut
of 1000250 comes between the hand points of 1000240 and 1000340, and the second group is never handed on. -/
theorem test_forward_step_takes_points_in_order :
    (let s := onStage 1000350 .running curfew .no fun c =>
          { c with walk := some (.stands ⟨1, 1, 1⟩), epoch := some 1000390, passes := some (.left 1) };
      let t := after (.handPoint 0) s;
      first s = some .hand ∧ (t.world.player 0).hands.map (·.due) = [1000390] ∧ first t = some .endCut
        ∧ (after (.handPoint 0) t).world.player 0 = t.world.player 0
        ∧ ((after (.endCut 0) t).world.player 0).cause = some .endedAtTime
        ∧ ((after (.endCut 0) t).world.player 0).release = some 1000550
        ∧ (s.world.playerPoints s.env 0).player 0 = (after (.endCut 0) t).world.player 0) := by
  decide +kernel

theorem test_HoldResumeSetPasses :
    (let s := playing .armed .armed id;
      s.idle = true ∧ (s.world.player 0).state ≠ .running ∧ (s.world.player 0).state ≠ .held)
    ∧ (let s := playing .running .running fun c => { c with hands := [record1] };
      s.idle = true ∧ (s.world.player 0).state = .running
        ∧ ((after (.hold 0 0) s).world.player 0).holdTick = some 1000500
        ∧ (s.world.player 0).ref = some (.a, 1) ∧ ((s.world.bank .a).find 1).isSome = true
        ∧ (((after (.hold 0 0) s).world.bank .a).find 1).map (·.outcome.progress) = some .held
        ∧ ((after (.hold 0 0) s).world.player 0).walk = some (.stands ⟨1, 0, 1⟩))
    ∧ (let s := playing .running .running id;
      s.idle = true ∧ (s.world.player 0).hands = [])
    ∧ (let s := playing .held .held fun c =>
          { c with
            holdTick := some 1000650, walk := some (.stands ⟨1, 0, 2⟩), epoch := some 1000600
            passes := some (.left 2) };
      s.idle = true ∧ (s.world.player 0).state = .held ∧ (s.world.player 0).holdTick = some 1000650
        ∧ 1000650 ≤ s.time.civic + 150
        ∧ ((after (.resume 0 0) s).world.player 0).epoch = some 1000600
        ∧ ((after (.resume 0 0) s).world.player 0).state = .running)
    ∧ (let s := playing .held .held fun c =>
          { c with
            play := some ⟨⟨1, 0, 1⟩, 1000100⟩, walk := some (.stands ⟨1, 0, 2⟩)
            passes := some (.left 2) };
      s.idle = true ∧ (s.world.player 0).state = .held
        ∧ (s.world.player 0).play = some ⟨⟨1, 0, 1⟩, 1000100⟩
        ∧ (s.world.player 0).walk = some (.stands ⟨1, 0, 2⟩)
        ∧ (s.env.showOf (s.world.player 0)).parts[1]? = some ⟨.main, 200, 2, 1, 2⟩
        ∧ ((after (.setPasses 0 0 255) s).world.player 0).latch = some 255)
    ∧ (let s := playing .running .running id;
      (s.world.player 0).play = none
        ∧ (after (.setPasses 0 0 1) s).port.slot = some ⟨0x33, 0, .wrongState, []⟩) := by decide +kernel

/-- R82: a HOLD leaves no deferred item of the player; with a PREROLL record on the hand-on list it puts the walk
back into the PREROLL (log entry 42). R83: a hold tick later than NOW + 150 brings the epoch earlier, not before
civic tick 0 (log entry 44). -/
theorem test_HoldResumeSetPasses_corners :
    (let s := playing .running .running id;
      let item (p : Fin 8) (ref : Nat) : Item := .single ref 1 (some p) plum 1000400
      let full := { s with world := s.world.onLink 0 fun k => { k with
        deferred := [item 0 1, .group 0 ⟨1, 0, 1⟩ 1000500 [⟨0, plum⟩], item 1 2]
        stage := (List.range 48).map fun n =>
          ⟨n + 9, 0, some 1, some ⟨1, 0, 1⟩, 1, plum, 0, 1000500, .queued, .clear⟩ } };
      full.idle = true ∧ (full.world.player 0).state = .running
        ∧ ((after (.hold 0 0) full).world.link 0).deferred = [item 1 2])
    ∧ (let s := playing .running .running fun c => { c with
          epoch := some 1000550, passes := some (.left 2), walk := some (.stands ⟨1, 0, 1⟩)
          hands := [⟨⟨0, 0, 0⟩, 1000540, [], ⟨⟨0, 0, 0⟩, 1000540, .endless, none⟩⟩] };
      let c := (after (.hold 0 0) s).world.player 0;
      s.idle = true ∧ (s.world.player 0).state = .running
        ∧ c.walk = some (.stands ⟨0, 0, 0⟩) ∧ c.epoch = some 1000540 ∧ c.passes = some .endless)
    ∧ (let s := playing .held .held fun c => { c with
          holdTick := some 1000651, epoch := some 1000600, release := some 1000700, passes := some (.left 1) };
      s.idle = true ∧ (s.world.player 0).state = .held ∧ ¬1000651 ≤ s.time.civic + 150
        ∧ ((after (.resume 0 0) s).world.player 0).epoch = some 1000599
        ∧ ((after (.resume 0 0) s).world.player 0).release = some 1000699)
    ∧ (let s := playing .held .held fun c => { c with holdTick := some 1000653, epoch := some 2 };
      ((after (.resume 0 0) s).world.player 0).epoch = some 0) := by decide +kernel

/-! ## The hypotheses of the statements: requests that read -/

/-- The answer to a request. -/
def answer (i : Instr) (s : State) : Option (Code × Nat) :=
  (after i s).port.slot.map fun r => (r.code, r.body.length)

theorem test_LibraryAndPlanReads :
    desk.idle = true ∧ 1023 < 1024 ∧ 32 < 33 ∧ bank? 0 = some .a
    ∧ (let s := planned .active .pending;
      s.idle = true ∧ (s.world.bank .a).find 9 = none
        ∧ (s.world.bank .a).find 1 = some (entry (song 1000000) .pending)
        ∧ answer (.getBooking 0 0 1) s = some (.ok, 46) ∧ answer (.getPlan 0 0 none) s = some (.ok, 11)
        ∧ answer (.getPlan 0 0 (some 1)) s = some (.ok, 13)
        ∧ answer (.getPlan 0 0 (some 2)) s = some (.ok, 7)
        ∧ answer (.getPlan 0 0 (some 3)) s = some (.badField, 6))
    ∧ answer (.getShow 0 1 1023) desk = some (.ok, 43) ∧ answer (.getShow 0 1 1024) desk
      = some (.badField, 6) ∧ answer (.getPool 0) desk = some (.ok, 126) := by decide +kernel

theorem test_PlayerAndZoneReads : desk.idle = true
    ∧ answer (.getPlayer 0 7) desk = some (.ok, 198) ∧ answer (.getPlayer 0 8) desk = some (.badField, 6)
    ∧ answer (.getZone 0 63) desk = some (.ok, 18) ∧ answer (.getZone 0 64) desk = some (.badField, 6) := by
  decide +kernel

theorem test_LinkReads : desk.idle = true
    ∧ answer (.getLink 0 3 none) desk = some (.ok, 128) ∧ answer (.getLink 0 4 none) desk
      = some (.badField, 6) ∧ answer (.getLink 0 0 (some 1)) desk = some (.ok, 122)
    ∧ answer (.getLink 0 0 (some 6)) desk = some (.ok, 3)
    ∧ answer (.getLink 0 0 (some 7)) desk = some (.badField, 6) := by decide +kernel

theorem test_ConditionStateNoticeReads : desk.idle = true
    ∧ answer (.getCondition 0 7) desk = some (.ok, 28)
    ∧ answer (.getCondition 0 8) desk = some (.badField, 6)
    ∧ answer (.getNotices 0) desk = some (.ok, 214) ∧ answer (.getState 0) desk = some (.ok, 32) := by
  decide +kernel

/-- R184: the last five bytes of GET_STATE, by the active bank: with none, with no PENDING booking, with two, and
with one that starts before tick 6,000 of civic tick 0. -/
theorem test_ConditionStateNoticeReads_arming :
    desk.world.activeBank = none ∧ (planned .active .completed).world.activeBank = some .a
    ∧ ([desk, planned .active .completed,
        base 5 (bankA .active [entry (song 1000000) .pending, entry { song 999990 with id := 2 } .pending,
          entry { song 7000 with id := 3 } .running] lit),
        base 5 (bankA .active [entry (song 5999) .pending, entry { song 7000 with id := 2 } .pending] lit)].map
          fun s => (after (.getState 0) s).port.slot.map fun r => r.body.drop 27) =
      [some [255, 255, 255, 255, 255], some [255, 255, 255, 255, 255],
        some (bigEndian 5 993990), some [0, 0, 0, 0, 0]] := by decide +kernel

theorem test_IdentLoopbackRestartAnswer : desk.idle = true
    ∧ (after (.ident 0) desk).port.slot.map (·.body.length) = some 31
    ∧ answer (.loopback 0 []) desk = some (.ok, 0) ∧ (List.replicate 239 7#8).length ≤ 239
    ∧ answer (.loopback 0 (List.replicate 239 7#8)) desk = some (.ok, 239)
    ∧ answer (.loopback 0 [1#8, 2#8]) desk = some (.ok, 2) ∧ answer (.restart 0) desk = some (.ok, 0) := by
  decide +kernel

/-! ## The hypotheses of the statements: zones, claims and the dispatcher -/

def claim1 : Claim := ⟨0, 3, 1, 1, 0⟩

/-- Zone 0 in a record. -/
def zoned (f : Zone → Zone) : State := base 1000 (lit.onZone 0 f)

theorem test_ZoneSettings :
    (zoned id).idle = true ∧ 1 < 2 ∧ 20 < 21 ∧ 64 ≤ 64
    ∧ (let s := zoned fun z => { z with claims := [claim1] };
      (s.world.zone 0).configured = true ∧ (s.world.zone 0).claims ≠ []
        ∧ (after (.putZone 0 0 0 9 20) s).port.slot = some ⟨0x38, 0, .inUse, []⟩)
    ∧ (let s := zoned id;
      (s.world.zone 0).configured = true ∧ (s.world.zone 0).claims = []
        ∧ ((after (.putZone 0 0 1 255 20) s).world.zone 0).fallback = 255
        ∧ ((after (.putZone 0 0 0 9 20) s).world.driver 0 0).state = .absent)
    ∧ (let s := zoned fun z => { z with configured := false };
      (s.world.zone 0).configured = false
        ∧ ((after (.putZone 0 0 1 9 0) s).world.zone 0).configured = true
        ∧ ((after (.putZone 0 0 0 9 0) s).world.zone 0).configured = false)
    ∧ ((after (.setLead 0 63 20) (zoned id)).world.zone 63).lead = 20 := by decide +kernel

/-- A world in which zone 0 is not deliverable and has claims. -/
def quarrel (cs : List Claim) : World :=
  (seat 0 .running (song 5) id World.cold).onZone 0 fun z => { z with claims := cs }

theorem test_ClaimsByRank :
    (⟨0, 3, 1, 1, 0⟩ : Claim).above ⟨1, 3, 1, 1, 0⟩ = true
    ∧ (⟨1, 3, 1, 1, 0⟩ : Claim).above ⟨1, 3, 1, 2, 0⟩ = true
    ∧ ([⟨1, 4, 0, 9, 0⟩, claim1] : List Claim).Pairwise (fun x y => x.above y = true)
    ∧ ([⟨1, 4, 0, 9, 0⟩, claim1] : List Claim).Pairwise (fun x y => x.player ≠ y.player)
    ∧ (quarrel []).deliverable 0 = false ∧ (quarrel []).owner 0 = none
    ∧ ((enterClaim ⟨1, 2, 0, 9, 0⟩ [claim1]).head?.map (·.player) = (quarrel [claim1]).owner 0)
    ∧ ((quarrel [claim1]).owner 0 = some 0 ∧ ((quarrel [claim1]).player 0).state ≠ .free
      ∧ (enterClaim ⟨1, 4, 0, 9, 0⟩ [claim1]).head?.map (·.player) ≠ some 0
      ∧ (((quarrel [claim1]).claim desk.env 0 ⟨1, 4, 0, 9, 0⟩).player 0).counters.preempted = 1)
    ∧ (∀ x ∈ ((quarrel [claim1]).zone 0).claims, x.player ≠ 1)
    ∧ (((quarrel [claim1]).releaseZone desk.env 0 0).zone 0).claims = [] := by decide +kernel

/-- Zone 0 deliverable, with its claims and its committed look; player 0 has set part 0 or has not. -/
def tenure (cs : List Claim) (committed : Option LookCopy) (set : Bool) : World :=
  (seat 0 .running (song 5) (fun c => { c with
    looks := if set then c.looks.set 0 (some plum) else c.looks }) lit).onZone 0 fun z =>
      { z with claims := cs, committed := committed, fallback := 7 }

/-- The take of a zone: its kind, with the player and the look of its entry. -/
def takeOf (w : World) : Option (TakeKind × List (Option (Fin 8) × Fin 256)) :=
  ((w.zone 0).take).map fun t => (t.2, ((w.link 0).stage.filter (·.ref == t.1)).map fun x =>
    (x.player, x.look.num))

theorem test_ClaimsByRank_takes :
    (tenure [claim1] none true).deliverable 0 = true ∧ (tenure [claim1] none true).owner 0 = some 0
    ∧ [(tenure [claim1] none true).gain desk.env 0, (tenure [claim1] none false).gain desk.env 0,
        (tenure [] none false).fallbackTake desk.env 0,
        (tenure [claim1] none true).returnTake desk.env 0,
        (tenure [claim1] (some plum) false).returnTake desk.env 0,
        (tenure [claim1] none false).returnTake desk.env 0,
        (tenure [claim1] (some plum) false).restoreTake desk.env 0,
        (tenure [] (some plum) false).restoreTake desk.env 0,
        (tenure [claim1] none true).restoreTake desk.env 0,
        (tenure [] none false).restoreTake desk.env 0,
        (tenure [claim1] none true).releaseZone desk.env 0 0,
        (tenure [claim1, ⟨1, 2, 0, 9, 0⟩] none true).releaseZone desk.env 0 0].map takeOf =
      [some (.catchUp, [(some 0, 9)]), none, some (.fallback, [(none, 7)]),
        some (.catchUp, [(some 0, 9)]), some (.catchUp, [(some 0, 9)]), some (.fallback, [(none, 7)]),
        some (.catchUp, [(some 0, 9)]), some (.fallback, [(none, 9)]), some (.catchUp, [(some 0, 9)]),
        some (.fallback, [(none, 7)]), some (.fallback, [(none, 7)]), none]
    ∧ (tenure [] none false).owner 0 = none
    ∧ (enterClaim ⟨1, 4, 0, 9, 0⟩ [claim1]).head?.map (·.player) ≠ some 0
    ∧ ([claim1] : List Claim).filter (·.player != 0) = []
    ∧ ([claim1, ⟨1, 2, 0, 9, 0⟩] : List Claim).filter (·.player != 0) ≠ [] := by decide +kernel

/-- A stage entry of player 0's group on link 0. -/
def staged (ref : Nat) (st : EntryState) : Entry :=
  ⟨ref, 0, some 0, some ⟨1, 0, 1⟩, 1, plum, 0, 1000, st, .clear⟩

def goal : GoEntry := ⟨0, 0, ⟨1, 0, 1⟩, 1000, 0, 1000, false, false⟩

/-- Link 0 with a stage list, a GO and its tag, and player 0 the owner of zone 0. -/
def loaded (xs : List Entry) (f : Link → Link) : World :=
  (((seat 0 .running (song 5) id lit).onZone 0 fun z =>
      { z with claims := [claim1] }).onLink 0 fun k =>
    f { k with
      stage := xs
      gos := [goal]
      tags := k.tags.set 0 (some ⟨0, ⟨1, 0, 1⟩, .pending⟩) })

def groupOne : GroupRec :=
  ⟨0, ⟨1, 0, 1⟩, 1000, [⟨0, [0, 1], plum⟩], (Tab.fill 4 [.vacant]).set 0 [.held 0]⟩

theorem test_PortionsSentAndExpired :
    (let w := loaded ((List.range 47).map fun n => staged n .queued) id;
      (w.link 0).stage.length < 48 ∧ (w.link 0).deferred = []
        ∧ ((w.placeSingle desk.env 0 none plum .fallback).link 0).stage.length = 48)
    ∧ (let w := loaded ((List.range 48).map fun n => staged n .queued) id;
      ¬((w.link 0).stage.length < 48 ∧ (w.link 0).deferred = [])
        ∧ ((w.placeSingle desk.env 0 none plum .fallback).link 0).deferred.length = 1
        ∧ 48 < (w.link 0).stage.length + [(⟨1, plum⟩ : Member)].length)
    ∧ (let w := loaded [staged 0 .queued] id;
      [(⟨1, plum⟩ : Member)] ≠ [] ∧ (w.link 0).tags.get 1 = none
        ∧ (∀ u < 1, (w.link 0).tags.get u ≠ none) ∧ (w.link 0).deferred = []
        ∧ (w.link 0).stage.length + [(⟨1, plum⟩ : Member)].length ≤ 48
        ∧ (∀ x ∈ (w.link 0).stage, x.state ≠ .late ∧ x.state ≠ .lateSent ∧ x.state ≠ .lateStaged)
        ∧ ((w.placePortion desk.env 0 0 ⟨1, 0, 2⟩ 1100 [⟨1, plum⟩]).link 0).gos.length = 2)
    ∧ (let w := loaded [] fun k => { k with tags := Tab.fill 15 (some ⟨0, ⟨1, 0, 1⟩, .pending⟩) };
      (∀ t, (w.link 0).tags.get t ≠ none)
        ∧ ((w.placePortion desk.env 0 0 ⟨1, 0, 2⟩ 1100 [⟨1, plum⟩]).link 0).deferred.length = 1)
    ∧ (let s := base 1000 (loaded [staged 0 .staged] id);
      s.held = false ∧ s.reachOpen = true ∧ (∃ g ∈ (s.world.link 0).gos,
        g.ready = false ∧ g.send ≤ s.time.civic)
        ∧ (∀ g ∈ ((after (.sendTick 0) s).world.link 0).gos, g.ready = true))
    ∧ (let s := base 999 (loaded [staged 0 .staged] id);
      s.reachOpen = true ∧ ¬∃ g ∈ (s.world.link 0).gos, g.ready = false ∧ g.send ≤ s.time.civic)
    ∧ (let s := base 1051 { loaded [staged 0 .staged] id with groups := [groupOne] };
      s.held = false ∧ s.reachOpen = true ∧ s.world.groups = [] ++ groupOne :: [] ∧ groupOne.player = 0
        ∧ groupOne.due + 51 ≤ s.time.civic ∧ (after (.expiryPoint 0) s).world.groups = []
        ∧ ((after (.expiryPoint 0) s).world.player 0).counters.discarded = 1)
    ∧ (let s := base 1050 { loaded [staged 0 .staged] id with groups := [groupOne] };
      s.held = false ∧ ∀ x ∈ s.world.groups, x.player = 0 → s.time.civic < x.due + 51) := by
  decide +kernel

/-- R126: an expiry by the state of each entry, its deferred members and the counts of its player, and another
group's entry kept. -/
theorem test_PortionsSentAndExpired_expiry :
    (let xs := [staged 0 .queued, staged 1 .late, staged 2 .sent, staged 3 .lateSent, staged 4 .staged,
        staged 5 .lateStaged, staged 6 (.dropping .withdrawn .dropSent), { staged 7 .queued with group := none }];
      let w := { loaded xs fun k => { k with deferred := [.group 0 ⟨1, 0, 1⟩ 1000 [⟨8, plum⟩, ⟨9, plum⟩]] } with
        groups := [groupOne] };
      let v := w.each (upTo 4) (World.expireOn (nowAt 1051) groupOne);
      let t := w.expire (nowAt 1051) groupOne;
      (∀ x ∈ xs, ∀ y ∈ xs, y.ref = x.ref → y = x) ∧ (w.player 0).state ≠ .free
        ∧ (w.player 0).counters.discarded ≤ 65535
        ∧ (∀ l, ∀ i ∈ (w.link l).deferred, i = .group 0 ⟨1, 0, 1⟩ 1000 [⟨8, plum⟩, ⟨9, plum⟩])
        ∧ (v.player 0).counters.discarded = 8 ∧ t.player 0 = v.player 0
        ∧ (t.notices.get NoticeKind.lateTake.no).pending = true
        ∧ (v.link 0).stage.map (fun x => (x.ref, x.state)) = [(2, .dropping .discarded .awaitingReply),
          (3, .dropping .discarded .awaitingReply), (4, .dropping .discarded .dropPending),
          (5, .dropping .discarded .dropPending), (6, .dropping .withdrawn .dropSent), (7, .queued)]
        ∧ (v.link 0).pending = [⟨false, 0, 1, 4⟩, ⟨false, 0, 1, 5⟩]
        ∧ (v.link 0).tags.get 0 = some ⟨0, ⟨1, 0, 1⟩, .removed⟩
        ∧ (t.link 0).deferred = [])
    ∧ (let w := { (loaded [staged 0 .queued] id).onPlayer 0 fun _ => Player.free with groups := [groupOne] };
      (w.player 0).state = .free
        ∧ (w.each (upTo 4) (World.expireOn (nowAt 1051) groupOne)).player 0 = w.player 0)
    ∧ (let w := { (loaded [staged 0 .queued] id).onPlayer 0 fun c => { c with counters := ⟨0, 65535, 0, 0⟩ } with
        groups := [groupOne] };
      (((w.expire (nowAt 1051) groupOne).player 0).counters = ⟨0, 65535, 0, 0⟩)) := by decide +kernel

/-- How many entries, GOs and deferred items link 0 has, the GO state of its tag 1, and the portions there. -/
def tidied (w : World) : List Nat × Option GoState × List (List Portion) :=
  let k := w.link 0
  ([k.stage.length, k.gos.length, k.deferred.length], (k.tags.get 0).map (·.go),
    w.groups.map fun g => g.portions.get 0)

/-- What the tests of tag 0 leave of a stage list and a GO state. -/
def closed (xs : List Entry) (go : GoState) : List Nat × Option GoState × List (List Portion) :=
  tidied (({ loaded xs fun k => { k with tags := k.tags.set 0 (some ⟨0, ⟨1, 0, 1⟩, go⟩) } with
    groups := [groupOne] } : World).closeTag 0 0)

/-- R130, R134, R136: a full stage list, and a tag's close. -/
theorem test_PortionsSentAndExpired_close :
    (let w := loaded ((List.range 47).map fun n => staged n .queued) id;
      (w.link 0).stage.length = 47
        ∧ ((w.addEntry desk.env 0 (staged 50 .queued)).notices.get NoticeKind.queueFull.no).pending = true
        ∧ (((loaded [] id).addEntry desk.env 0 (staged 50 .queued)).notices.get
          NoticeKind.queueFull.no).pending = false)
    ∧ [closed [] .pending, closed [staged 0 (.dropping .withdrawn .dropSent)] .pending, closed [] .sent,
        closed [staged 0 .staged] .pending, closed [staged 0 .staged] .sent] =
      [([0, 0, 0], none, [[.done]]), ([1, 0, 0], some .removed, [[.held 0]]), ([0, 0, 0], none, [[.done]]),
        ([1, 1, 0], some .pending, [[.held 0]]), ([1, 1, 0], some .sent, [[.held 0]])]
    ∧ ((loaded [] id).link 0).tags.get 1 = none := by decide +kernel

/-- Link 0 with so many entries, a retry owed and what is deferred. -/
def owing (n : Nat) (xs : List Item) : World :=
  loaded ((List.range n).map fun n => staged n .queued) fun k => { k with deferred := xs, retry := true }

/-- An individual take that waits for room. -/
def spare (ref : Nat) : Item := .single ref 3 none plum 900

/-- How many entries stand once the head of the deferred list is made, if it fits. -/
def made (w : World) : Option Nat := (w.makeHead desk.env 0).map fun v => (v.link 0).stage.length

/-- R119: the deferred list retried from its head until one does not fit. -/
theorem test_PortionsSentAndExpired_retry :
    tidied ((owing 46 [spare 90, spare 91, spare 92]).tidy desk.env) = ([48, 1, 1], some .pending, [])
    ∧ made (owing 0 []) = none ∧ made (owing 47 [spare 90]) = some 48 ∧ made (owing 48 [spare 90]) = none
    ∧ made (owing 46 [.group 0 ⟨1, 0, 2⟩ 1100 [⟨0, plum⟩, ⟨1, plum⟩]]) = some 47
    ∧ made (owing 47 [.group 0 ⟨1, 0, 2⟩ 1100 [⟨0, plum⟩, ⟨1, plum⟩]]) = none
    ∧ (let w : World := { owing 0 [.group 0 ⟨1, 0, 1⟩ 1100 [⟨1, plum⟩]] with
          groups := [{ groupOne with portions := Tab.fill 4 [.deferred] }] };
      (w.link 0).tags.get 1 = none ∧ (∀ u < (1 : Fin 15), (w.link 0).tags.get u ≠ none)
        ∧ (w.makeHead desk.env 0).map tidied = some ([0, 1, 0], some .pending, [[.done]])) := by
  decide +kernel

/-- Player 0's group with its last portion on link 0. -/
def portioned (p : Portion) : GroupRec := { groupOne with portions := (Tab.fill 4 [.vacant]).set 0 [p] }

theorem test_PortionsSentAndExpired_groups :
    (let w := loaded [] id;
      w.judge 0 1 = .shadowed ∧ w.judge 0 0 = .member
        ∧ (w.onDriver 0 0 fun d => { d with state := .absent }).judge 0 0 = .undeliverable
        ∧ (w.player 0).state ≠ .free ∧ (w.player 0).counters.undeliverable ≤ 65535
        ∧ (w.takeGroup (nowAt 1050) 0 ⟨1, 0, 2⟩ 1000 [⟨0, [0, 1], plum⟩]).groups.length = 1
        ∧ ((w.takeGroup (nowAt 1050) 0 ⟨1, 0, 2⟩ 1000 [⟨0, [0, 1], plum⟩]).link 0).stage.length = 1
        ∧ (w.takeGroup (nowAt 1051) 0 ⟨1, 0, 2⟩ 1000 [⟨0, [0, 1], plum⟩]).groups = []
        ∧ ((w.takeGroup (nowAt 1051) 0 ⟨1, 0, 2⟩ 1000 [⟨0, [0, 1], plum⟩]).player 0).counters.discarded
          = 1)
    ∧ (let w := loaded [] fun k => { k with deferred := [.group 0 ⟨1, 0, 1⟩ 1000 [⟨1, plum⟩]] };
      ((portioned .deferred).portions.get (zoneLink 0)).getLast? = some .deferred
        ∧ ((w.rejoinGroup (nowAt 900) 0 0 (portioned .deferred) plum).link 0).deferred
          = [.group 0 ⟨1, 0, 1⟩ 1000 [⟨1, plum⟩, ⟨0, plum⟩]])
    ∧ (let w := loaded [staged 0 .queued] id;
      let g := portioned (.held 0);
      (g.portions.get (zoneLink 0)).getLast? = some (.held 0)
        ∧ (w.link 0).tags.get 0 = some ⟨0, ⟨1, 0, 1⟩, .pending⟩
        ∧ (w.link 0).gos.find? (fun x => x.tag == 0) = some goal ∧ GoState.pending ≠ .removed
        ∧ (w.link 0).stage.length < 48
        ∧ (∀ x ∈ (w.link 0).stage, x.state ≠ .late ∧ x.state ≠ .lateSent ∧ x.state ≠ .lateStaged)
        ∧ ((w.rejoinGroup (nowAt 900) 0 0 g plum).link 0).stage.map (·.state) = [.queued, .queued])
    ∧ (let w := loaded ((List.range 48).map fun n => staged n .queued) id;
      48 ≤ (w.link 0).stage.length
        ∧ ((w.rejoinGroup (nowAt 900) 0 0 (portioned (.held 0)) plum).player 0).counters.discarded = 1)
    ∧ (let w := loaded [] fun k => { k with
          gos := [], tags := k.tags.set 0 (some ⟨0, ⟨1, 0, 1⟩, .removed⟩) };
      (w.link 0).tags.get 0 = some ⟨0, ⟨1, 0, 1⟩, .removed⟩
        ∧ ((w.rejoinGroup (nowAt 900) 0 0 (portioned (.held 0)) plum).link 0).stage.map (·.tag) = [2])
    ∧ ((portioned .vacant).portions.get (zoneLink 0)).getLast? = some .vacant
    ∧ ((portioned .done).portions.get (zoneLink 0)).getLast? = some .done
    ∧ (([staged 0 .queued, staged 0 .late, staged 0 .sent, staged 0 .lateSent, staged 0 .staged,
        staged 0 .lateStaged, staged 0 (.dropping .discarded .dropSent)] : List Entry).map fun x =>
          (((loaded [x] id).withdrawEntry 0 x).link 0).stage.map (·.state)) =
        [[], [], [.dropping .withdrawn .awaitingReply], [.dropping .withdrawn .awaitingReply],
          [.dropping .withdrawn .dropPending], [.dropping .withdrawn .dropPending],
          [.dropping .discarded .dropSent]]
    ∧ (staged 0 (.dropping .discarded .dropSent)).dropping = true
    ∧ (((loaded [staged 0 .queued, staged 1 .staged] id).withdrawGroup desk.env 0 ⟨1, 0, 1⟩).link
      0).stage.map (·.state) = [.dropping .withdrawn .dropPending]
    ∧ (let w := loaded [staged 0 .late, staged 1 .lateSent, staged 2 .queued, staged 3 .late] id;
      let v := w.supersede desk.env 0 0 0 3;
      (w.link 0).stage.map (·.addr) = [0, 0, 0, 0] ∧ (w.player 0).state ≠ .free
        ∧ (v.link 0).stage.map (·.state) = [.dropping .discarded .awaitingReply, .queued, .late]
        ∧ (v.player 0).counters.discarded = 2
        ∧ (v.notices.get NoticeKind.lateTake.no).pending = true) := by decide +kernel

/-- The references and states of the entries of link 0. -/
def listed (w : World) : List (Nat × EntryState) := (w.link 0).stage.map fun x => (x.ref, x.state)

/-- Link 0 with an entry of zone 0 in each state, one of address 1 and one of no player. -/
def crew : List Entry :=
  [staged 0 .queued, staged 1 .late, staged 2 .sent, staged 3 .lateSent, staged 4 .staged,
    staged 5 .lateStaged, { staged 6 .queued with addr := 1 }, { staged 7 .queued with player := none }]

/-- What a withdrawal of zone 0, or of an entry, leaves of the crew of player 0. -/
def crewLeft : List (Nat × EntryState) :=
  [(2, .dropping .withdrawn .awaitingReply), (3, .dropping .withdrawn .awaitingReply),
    (4, .dropping .withdrawn .dropPending), (5, .dropping .withdrawn .dropPending), (6, .queued), (7, .queued)]

/-- R94, R130: a zone withdrawal, on the entries by their states and on what is deferred: an item left with no
member goes, its portion DONE; another player's stays as it is. -/
theorem test_PortionsSentAndExpired_zone :
    (let v := (loaded crew id).withdrawZone desk.env 0 0;
      (∀ l, ((loaded crew id).link l).deferred = [])
        ∧ (∀ x ∈ crew, ∀ y ∈ crew, y.ref = x.ref → y = x)
        ∧ listed v = crewLeft ∧ (v.link 0).pending = [⟨false, 0, 1, 4⟩, ⟨false, 0, 1, 5⟩])
    ∧ (let items : List Item := [.group 0 ⟨1, 0, 1⟩ 1000 [⟨0, plum⟩],
        .group 0 ⟨1, 0, 2⟩ 1100 [⟨0, plum⟩, ⟨1, plum⟩], .group 1 ⟨1, 0, 1⟩ 1000 [⟨0, plum⟩], .group 1 ⟨1, 0, 2⟩ 1000 [], .single 8 0 (some 0) plum 900, spare 9];
      let w : World := { (loaded [{ staged 6 .queued with addr := 1 }] fun k =>
          { k with deferred := items }).onZone 0 fun z =>
          { z with take := some (8, .catchUp) } with groups := [portioned .deferred] };
      let v := w.withdrawZone desk.env 0 0;
      ((portioned .deferred).portions.get 0 = [.deferred] ∧ (w.zone 0).take = some (8, .catchUp))
        ∧ (v.link 0).deferred = [.group 0 ⟨1, 0, 2⟩ 1100 [⟨1, plum⟩], .group 1 ⟨1, 0, 1⟩ 1000 [⟨0, plum⟩],
          .group 1 ⟨1, 0, 2⟩ 1000 [], spare 9]
        ∧ v.groups.map (·.portions.get 0) = [[.done]] ∧ (v.zone 0).take = none) := by decide +kernel

/-- Link 0 with what is given, the take of zone 0 naming reference 5. -/
def taking (xs : List Entry) (items : List Item) : World :=
  (loaded xs fun k => { k with deferred := items }).onZone 0 fun z =>
    { z with take := some (5, .catchUp), committed := some plum }

/-- R101, R130: the withdrawal of a zone's individual take, by the state of its entry, and deferred. -/
theorem test_PortionsSentAndExpired_take :
    ((loaded [] id).zone 0).take = none
    ∧ ([EntryState.queued, .late, .sent, .lateSent, .staged, .lateStaged,
        .dropping .withdrawn .dropSent].map fun st =>
          let xs := [{ staged 5 st with group := none, tag := 0 }, staged 6 .queued]
          let v := (taking xs []).withdrawTake desk.env 0
          (listed v, (v.zone 0).take.isSome, (v.link 0).pending)) =
      [([(6, .queued)], false, []), ([(6, .queued)], false, []),
        ([(5, .dropping .withdrawn .awaitingReply), (6, .queued)], true, []),
        ([(5, .dropping .withdrawn .awaitingReply), (6, .queued)], true, []),
        ([(5, .dropping .withdrawn .dropPending), (6, .queued)], true, [⟨false, 0, 0, 5⟩]),
        ([(5, .dropping .withdrawn .dropPending), (6, .queued)], true, [⟨false, 0, 0, 5⟩]),
        ([(5, .dropping .withdrawn .dropSent), (6, .queued)], true, [])]
    ∧ (let w := taking [staged 6 .queued] [.single 5 0 (some 0) plum 900, spare 9];
      (w.zone 0).take = some (5, .catchUp) ∧ ((w.withdrawTake desk.env 0).link 0).deferred = [spare 9]
        ∧ ((w.withdrawTake desk.env 0).zone 0).take = none
        ∧ ((w.withdrawTake desk.env 0).zone 0).committed = some plum) := by decide +kernel

/-- R85: an ending withdraws its player's group records, entries and deferred items, those of another player stay,
and the outcome has the counters as they stood. -/
theorem test_EndingPointsRelease_withdrawal :
    (let w := (seat 0 .held brief (fun c => { c with counters := ⟨1, 2, 3, 4⟩ })
          (bankA .active [entry brief .held] lit)).onLink 0 fun k => { k with
        stage := [staged 0 .queued, staged 1 .staged, { staged 2 .sent with player := some 1 }]
        deferred := [.group 0 ⟨1, 0, 2⟩ 1100 [⟨0, plum⟩], .single 5 0 (some 0) plum 900]
        gos := [{ goal with player := 1 }], tags := k.tags.set 0 (some ⟨1, ⟨1, 0, 1⟩, .pending⟩) };
      let s := base 1000000 { w with groups := [groupOne, { groupOne with player := 1 }] };
      let t := after (.endCut 0) s;
      s.held = false ∧ s.reachOpen = true ∧ first s = some .endCut ∧ (s.world.player 0).state = .held
        ∧ (s.world.player 0).dry = false ∧ (s.world.bank .a).find 2 = some (entry brief .held)
        ∧ t.world.groups.map (·.player) = [1] ∧ (t.world.link 0).deferred = []
        ∧ listed t.world = [(1, .dropping .withdrawn .dropPending), (2, .sent)]
        ∧ (t.world.bank .a).list.map (·.outcome.counters) = [⟨1, 2, 3, 4⟩]) := by decide +kernel

/-! ## The hypotheses of the statements: the wires -/

/-- Link 0 with an addressed frame in flight to address 1. -/
def flying (f : TxFrame) (attempt ticks : Nat) (onWire reported : Bool) (xs : List Entry) : State :=
  base 1000 (loaded xs fun k => { k with transfer := some ⟨f, 0, attempt, ticks, onWire, reported⟩ })

/-- Link 0 in a state with its timer. -/
def resting (st : LinkState) (timer : Nat) : State :=
  base 1000 (lit.onLink 0 fun k => { k with state := st, power := st.powered, timer := timer })

/-- Link 0 as given, its zones configured. -/
def wired (f : Link → Link) : World := lit.onLink 0 f

theorem test_FrameSentIsReported :
    (let s := base 1000 (loaded [staged 0 .staged] fun k => { k with bcast := some (.go 0) });
      s.held = false ∧ (s.world.link 0).bcast = some (.go 0)
        ∧ (∀ m, (s.world.link m).deferred = []) ∧ staged 0 .staged ∈ (s.world.link 0).stage
        ∧ (staged 0 .staged).tag = 0 + 1
        ∧ (∀ y ∈ (s.world.link 0).stage, y = staged 0 .staged)
        ∧ ((after (.linkFrameSent 0) s).world.zone 0).committed = some plum)
    ∧ (let s := base 1000 (loaded [] fun k => { k with bcast := some .wake });
      s.held = false ∧ (s.world.link 0).bcast = some .wake ∧ (s.world.link 0).state ≠ .warming)
    ∧ (let s := base 1000 ((resting .asleep 0).world.onLink 0 fun k => { k with bcast := some .force });
      s.held = false ∧ (s.world.link 0).bcast = some .force
        ∧ ((after (.linkFrameSent 0) s).world.link 0).bcast = none)
    ∧ (let w := (resting .up 0).world.onLink 0 fun k => { k with bcast := some .wake };
      let s := base 1000 { w with ctl := { w.ctl with restartWake := Tab.fill 4 true } };
      (s.world.link 0).bcast = some .wake ∧ (s.world.link 0).state ≠ .warming
        ∧ (after (.linkFrameSent 0) s).world.ctl.restartWake.get 0 = false
        ∧ (after (.linkFrameSent 0) s).world.ctl.restartWake.get 1 = true)
    ∧ (let w := (resting .warming 0).world.onLink 0 fun k => { k with bcast := some .wake };
      let s := base 1000 { w with ctl := { w.ctl with restartWake := Tab.fill 4 true } };
      (s.world.link 0).bcast = some .wake ∧ (s.world.link 0).state = .warming
        ∧ (after (.linkFrameSent 0) s).world.ctl.restartWake.get 0 = true)
    ∧ (flying (.refresh plum.val) 0 0 true false []).world.longOpOver 0 = none
    ∧ ((flying (.refresh plum.val) 0 0 true false []).world.link 0).quiesced = false
    ∧ (let s := flying (.take 7 1) 0 0 true false [];
      (TxFrame.take 7 1).ref? = some 7 ∧ s.world.entryOf 0 7 = none
        ∧ ((after (.linkFrameSent 0) s).world.link 0).transfer = some ⟨.take 7 1, 0, 0, 0, false, true⟩)
    ∧ (let s := base 1000 (loaded [] id);
      (s.world.link 0).bcast = none ∧ (s.world.link 0).transfer = none)
    ∧ (let s := flying (.refresh plum.val) 0 0 true false [];
      s.held = false ∧ (s.world.link 0).bcast = none
        ∧ (s.world.link 0).transfer = some ⟨.refresh plum.val, 0, 0, 0, true, false⟩
        ∧ (TxFrame.refresh plum.val).ref? = none)
    ∧ (let s := flying (.stage 0 1 plum.val 0) 3 0 true true [staged 0 .sent];
      (s.world.link 0).transfer = some ⟨.stage 0 1 plum.val 0, 0, 3, 0, true, true⟩)
    ∧ (let s := flying (.stage 0 1 plum.val 0) 0 0 true false [staged 0 .queued];
      s.held = false ∧ s.world.entryOf 0 0 = some (staged 0 .queued)
        ∧ ((after (.linkFrameSent 0) s).world.driver 0 0).credits = 3
        ∧ (after (.linkFrameSent 0) s).world.entryOf 0 0 = some (staged 0 .sent))
    ∧ (let s := flying (.take 0 1) 0 0 true false [staged 0 .lateStaged];
      s.world.entryOf 0 0 = some (staged 0 .lateStaged) ∧ (∀ m, (s.world.link m).deferred = [])
        ∧ (staged 0 .lateStaged).group.isSome = true ∧ (s.world.player 0).state ≠ .free
        ∧ ((after (.linkFrameSent 0) s).world.player 0).counters.late = 1)
    ∧ (let s := flying (.drop 0 1) 0 0 true false [staged 0 (.dropping .withdrawn .dropPending)];
      s.world.entryOf 0 0 = some (staged 0 (.dropping .withdrawn .dropPending))
        ∧ (after (.linkFrameSent 0) s).world.entryOf 0 0
          = some (staged 0 (.dropping .withdrawn .dropSent))) := by decide +kernel

/-- R124, R145: the rows of a GO: an entry by its state, the credits and slots, the pending list and the zones. -/
theorem test_FrameSentIsReported_rows :
    (let at1 (ref : Nat) (a : Fin 16) (st : EntryState) := { staged ref st with addr := a };
      let xs := [{ staged 0 .queued with backoff := .raised }, staged 1 .sent, at1 2 2 .staged,
        at1 3 3 (.dropping .discarded .dropPending), at1 4 4 (.dropping .discarded .dropSent), staged 5 .late,
        { staged 6 .staged with tag := 2 }];
      let w := (loaded xs fun k => { k with
          bcast := some (.go 0), pending := [⟨false, 3, 1, 3⟩, ⟨true, 0, 0, 9⟩] }).onDriver 0 2 fun d =>
        { d with credits := 3, occupied := 1 };
      let t := (after (.linkFrameSent 0) (base 1000 w)).world;
      (w.link 0).bcast = some (.go 0) ∧ (∀ m, (w.link m).deferred = [])
        ∧ (∀ x ∈ xs, ∀ y ∈ xs, y.ref = x.ref → y = x)
        ∧ listed t = [(0, .late), (1, .lateSent),
          (4, .dropping .discarded .dropSent), (5, .late), (6, .staged)]
        ∧ (t.link 0).stage.map (·.backoff) = [.raised, .clear, .clear, .clear, .clear]
        ∧ (∀ i ∈ (t.link 0).pending, i.ref ≠ 3) ∧ t.players = w.players
        ∧ ((t.driver 0 2).credits, (t.driver 0 2).occupied) = (4, 0)
        ∧ (t.driver 0 3).credits = (w.driver 0 3).credits + 1 ∧ (t.driver 0 4).credits = (w.driver 0 4).credits
        ∧ [(t.zone 0).committed, (t.zone 2).committed, (t.zone 3).committed] = [none, some plum, some plum]) := by
  decide +kernel

theorem test_TimeoutRepeatsOrFails :
    (let s := flying (.refresh plum.val) 0 1 false true [];
      s.held = false ∧ (s.world.link 0).transfer = some ⟨.refresh plum.val, 0, 0, 1, false, true⟩
        ∧ 1 < 2)
    ∧ (let s := flying (.refresh plum.val) 2 2 false true [];
      2 < 3 ∧ s.world.longOpOver 0 = none ∧ (s.world.link 0).quiesced = false ∧ ((after (.transferTimeout 0) s).world.link 0).transfer
        = some ⟨.refresh plum.val, 0, 3, 0, true, true⟩)
    ∧ (let s := flying (.stage 0 1 plum.val 0) 3 2 false true [staged 0 .sent];
      (s.world.driver 0 0).deliverable = true
        ∧ ((after (.transferTimeout 0) s).world.driver 0 0).state = .unresponsive)
    ∧ (let s := flying (.poll true false) 0 2 false true [];
      (s.world.link 0).transfer = some ⟨.poll true false, 0, 0, 2, false, true⟩
        ∧ ((after (.transferTimeout 0) s).world.link 0).transfer = none)
    ∧ (let s := flying .sleep 0 2 false true [];
      (s.world.link 0).transfer = some ⟨.sleep, 0, 0, 2, false, true⟩
        ∧ ((after (.transferTimeout 0) s).world.driver 0 0).state = .ready)
    ∧ (let s := flying (.poll false true) 0 2 false true [];
      0 < 1 ∧ ((after (.transferTimeout 0) s).world.link 0).transfer
        = some ⟨.poll false true, 0, 1, 0, true, true⟩)
    ∧ (let s := flying (.poll false true) 1 2 false true [];
      ((after (.transferTimeout 0) s).world.driver 0 0).state = .unresponsive)
    ∧ (let s := flying (.poll true true) 1 2 false true [];
      ((after (.transferTimeout 0) s).world.driver 0 0).state = .absent) := by decide +kernel

/-- Link 0 with entries of address 0, one of them dropping, and one of address 1. -/
def losing : World :=
  loaded [staged 0 .queued, staged 1 .staged, staged 2 (.dropping .withdrawn .dropSent),
    { staged 3 .sent with addr := 1 }] fun k => { k with
      pending := [⟨true, 0, 0, 0⟩, ⟨true, 1, 0, 9⟩], transfer := some ⟨.poll true false, 0, 0, 2, false, true⟩ }

/-- What is left of link 0's stage list, the discarded takes of player 0, and whether LATE_TAKE is pending. -/
def lossOf (w : World) : List Nat × Nat × Bool :=
  ((w.link 0).stage.map (·.ref), (w.player 0).counters.discarded,
    (w.notices.get NoticeKind.lateTake.no).pending)

/-- R103, R132, R135, R139: a driver's loss ends its entries, and counts each that was not dropping. -/
theorem test_TimeoutRepeatsOrFails_loss :
    (∀ l, (losing.link l).deferred = []) ∧ ((losing.link 0).stage.map (·.ref)).Nodup
    ∧ (losing.driver 0 0).deliverable = true ∧ (losing.player 0).state ≠ .free
    ∧ (let v := losing.dropDriver desk.env 0 .unresponsive 0;
      lossOf v = ([3], 2, true) ∧ (v.driver 0 0).state = .unresponsive
        ∧ (v.link 0).pending = [⟨true, 1, 0, 9⟩] ∧ (v.link 0).transfer = none)
    ∧ (let w := losing.onDriver 0 0 fun d => { d with state := .asleep };
      (w.driver 0 0).deliverable = false
        ∧ lossOf (w.dropDriver desk.env 0 .absent 0) = ([0, 1, 2, 3], 0, false))
    ∧ (let w := losing.onPlayer 0 fun _ => Player.free;
      (w.player 0).state = .free ∧ lossOf (w.dropDriver desk.env 0 .absent 0) = ([3], 0, false))
    ∧ lossOf ((losing.onPlayer 0 fun c =>
        { c with counters := ⟨0, 65534, 0, 0⟩ }).dropDriver desk.env 0 .absent 0) = ([3], 65535, true)
    ∧ (let w := loaded [staged 0 .queued] fun k => { k with
          deferred := [.group 0 ⟨1, 0, 1⟩ 1000 [⟨0, plum⟩], spare 9] };
      ((w.loseEntries desk.env 0 0).link 0).deferred = (w.link 0).deferred
        ∧ ((w.loseEntries desk.env 0 0).player 0).counters.discarded = 1) := by decide +kernel

/-- A reply of the driver at address 1. -/
def said (k : ReplyKind) (tag flags : Nat) : DriverReply := ⟨k, 0, tag, 0, 3, flags, 0, 0⟩

/-- The bytes of a reply to a frame that is not a POLL. -/
def bytes (r : DriverReply) : List Byte := r.wire false

/-- Link 0 CALIBRATING with a PROBE in flight. -/
def probing (count : Nat) : State :=
  base 1000 ((lit.onLink 0 fun k =>
    { k with
      state := .calibrating
      cal := some ⟨0, count, 0, 0, true⟩
      transfer := some ⟨.probe count, 0, 0, 1, false, true⟩ }))

theorem test_DriverRepliesTaken :
    (let s := flying (.refresh plum.val) 0 1 false true [];
      s.held = false ∧ (s.world.link 0).state.receives = true
        ∧ (s.world.link 0).transfer = some ⟨.refresh plum.val, 0, 0, 1, false, true⟩
        ∧ (said .ack 0 0).addr = 0 ∧ (said .ack 0 0).tag = (TxFrame.refresh plum.val).tag
        ∧ (said .ack 0 0).fits false = true ∧ (said .ack 0 1).fits false = true
        ∧ ((after (.driverReply 0 (bytes (said .ack 0 0)) 0) s).world.driver 0 0).slotsFree = some 3
        ∧ ((after (.driverReply 0 (bytes (said .ack 0 1)) 0) s).world.notices.get 10).pending = true)
    ∧ (let s := flying (.take 0 1) 0 1 false true [];
      (said .nak 1 0).tag = (TxFrame.take 0 1).tag ∧ (said .nak 1 0).fits false = true
        ∧ ((after (.driverReply 0 (bytes (said .nak 1 0)) 0) s).world.driver 0 0).credits = 5)
    ∧ (let y := staged 0 (.dropping .discarded .dropSent);
      let s := flying (.drop 0 1) 0 1 false true [y];
      s.world.entryOf 0 0 = some y ∧ y.state = .dropping .discarded .dropSent
        ∧ (∀ m, (s.world.link m).deferred = []) ∧ (said .ack 1 0).fits false = true
        ∧ ((after (.driverReply 0 (bytes (said .ack 1 0)) 0) s).world.link 0).stage = []
        ∧ ((after (.driverReply 0 (bytes (said .ack 1 0)) 0) s).world.driver 0 0).credits = 5)
    ∧ ({ staged 0 .sent with group := none, tag := 0 }).group = none
    ∧ (let s := flying (.stage 0 1 plum.val 0) 0 1 false true [staged 0 .sent];
      (said .retry 1 0).fits false = true
        ∧ ((after (.driverReply 0 (bytes (said .retry 1 0)) 0) s).world.driver 0 0).state = .busy
        ∧ ((after (.driverReply 0 (bytes (said .ack 1 0)) 0) s).world.driver 0 0).occupied = 1)
    ∧ (let s := flying (.poll true false) 0 1 false true [];
      let r := { said .ack 0 0 with silence := 65535, latency := 65535 };
      r.fits true = true
        ∧ ((after (.driverReply 0 (r.wire true) 0) s).world.driver 0 0).refresh = some 400)
    ∧ (let s := flying .sleep 0 1 false true [];
      ((after (.driverReply 0 (bytes (said .ack 0 0)) 0) s).world.driver 0 0).state = .asleep)
    ∧ (let s := probing 6;
      (s.world.link 0).state = .calibrating ∧ (s.world.link 0).cal = some ⟨0, 6, 0, 0, true⟩ ∧ 6 < 7
        ∧ { said .echo 0 0 with exchange := 6 }.fits false = true
        ∧ (s.world.driver 0 0).state = .ready
        ∧ ((after (.driverReply 0 (bytes { said .echo 0 0 with exchange := 6 }) 50) s).world.link
          0).cal = some ⟨0, 7, 50, 0, true⟩)
    ∧ (let s := probing 7;
      7 ≤ 7 ∧ ((after (.driverReply 0 (bytes { said .echo 0 0 with exchange := 7 }) 1601)
        s).world.zone 0).lead = 2)
    ∧ (let w := loaded [staged 0 .sent] id;
      w.entryOf 0 0 = some (staged 0 .sent) ∧ (∀ m, (w.link m).deferred = []))
    ∧ (let w := loaded [staged 0 .lateSent] id;
      w.entryOf 0 0 = some (staged 0 .lateSent) ∧ w.owner (zoneAt 0 0) = (staged 0 .lateSent).player)
    ∧ (let w := (loaded [staged 0 .lateSent] id).onZone 0 fun z => { z with claims := [] };
      w.owner (zoneAt 0 0) ≠ (staged 0 .lateSent).player)
    ∧ (let w := loaded [staged 0 (.dropping .withdrawn .awaitingReply)] id;
      w.entryOf 0 0 = some (staged 0 (.dropping .withdrawn .awaitingReply))) := by decide +kernel

/-- The reply to a flush POLL of the driver of zone 0 in a state. -/
def flushed (st : DriverState) (flush : Bool) : World :=
  let s := flying (.poll flush false) 0 1 false true [{ staged 6 .queued with addr := 1 }]
  let w := (s.world.onZone 0 fun z => { z with committed := some plum }).onDriver 0 0 fun d =>
    { d with state := st, credits := 1 }
  (after (.driverReply 0 ((said .ack 0 0).wire true) 0) { s with world := w }).world

/-- R104, R106: a lost driver that answers a flush POLL is READY and its zone is given a return take; one that was
not lost, and a POLL with no flush, bring no take. R155: a driver asleep is lost by its entries' rule. -/
theorem test_DriverRepliesTaken_polls :
    (said .ack 0 0).fits true = true
    ∧ ([(DriverState.unresponsive, true), (.ready, true), (.ready, false), (.unresponsive, false)].map fun c =>
        let v := flushed c.1 c.2
        ((v.driver 0 0).state, (v.driver 0 0).credits, (v.zone 0).take.map (·.2))) =
      [(.ready, 4, some .catchUp), (.ready, 4, none), (.ready, 1, none), (.unresponsive, 1, none)]
    ∧ (let s := flying .sleep 0 1 false true [staged 0 .queued, { staged 6 .queued with addr := 1 }];
      let t := (after (.driverReply 0 (bytes (said .ack 0 0)) 0) s).world;
      (t.driver 0 0).state = .asleep ∧ lossOf t = ([6], 1, true)) := by decide +kernel

theorem test_LineErrorsAndDurations :
    (let s := base 1000 (lit.onLink 0 fun k => { k with errors := List.replicate 14 99 ++ [100] });
      s.held = false ∧ (s.world.link 0).state.receives = true ∧ (s.world.link 0).transfer = none
        ∧ ((s.world.link 0).errors.filter (· < 100)).length ≠ 15
        ∧ (∃ n ∈ (s.world.link 0).errors, 100 ≤ n)
        ∧ ((after (.driverReply 0 [0#8] 0) s).world.link 0).errors.length = 15
        ∧ ((after (.errorAgeExpiry 0) s).world.link 0).errors.length = 14)
    ∧ (let s := base 1000 (lit.onLink 0 fun k => { k with errors := List.replicate 15 99 });
      ((s.world.link 0).errors.filter (· < 100)).length = 15
        ∧ (∀ n ∈ (s.world.link 0).errors, n < 100) ∧ (s.world.zone (zoneAt 0 15)).configured = true
        ∧ (s.world.driver 0 15).state ≠ .absent
        ∧ ((after (.driverReply 0 [0#8] 0) s).world.link 0).state = .faulted)
    ∧ (let s := base 1000 (lit.onDriver 0 15 fun d => { d with state := .busy, backoff := .lapsing });
      (s.world.driver 0 15).backoff = .lapsing
        ∧ ((after (.backoffExpiry 0 15) s).world.driver 0 15).state = .ready)
    ∧ (let s := base 1000 (loaded [{ staged 0 .queued with backoff := .raised }] id);
      (s.world.driver 0 0).backoff ≠ .lapsing ∧ ∀ x ∈ (s.world.link 0).stage, x.backoff ≠ .lapsing)
    ∧ (let s := resting .faulted 500;
      (s.world.link 0).state = .faulted ∧ 500 ≤ (s.world.link 0).timer
        ∧ ((after (.faultRestEnd 0) s).world.link 0).state = .warming)
    ∧ ¬((((resting .faulted 499).world.link 0).state = .faulted)
      ∧ 500 ≤ ((resting .faulted 499).world.link 0).timer)
    ∧ (let s := resting .warming 200;
      (s.world.link 0).state = .warming ∧ 200 ≤ (s.world.link 0).timer
        ∧ ((after (.warmUpEnd 0) s).world.link 0).state = .scanning)
    ∧ ¬((((resting .warming 199).world.link 0).state = .warming)
      ∧ 200 ≤ ((resting .warming 199).world.link 0).timer)
    ∧ (let s := resting .quiescing 100;
      (s.world.link 0).state = .quiescing ∧ 100 ≤ (s.world.link 0).timer
        ∧ (s.world.link 0).wakeOwed = false ∧ (s.world.link 0).wireIdle = true
        ∧ ((after (.quiesceWaitEnd 0) s).world.link 0).bcast = some .force)
    ∧ (let s := base 1000 (lit.onLink 0 fun k =>
          { k with state := .quiescing, timer := 100, transfer := some ⟨.sleep, 0, 0, 0, true, false⟩ });
      (s.world.link 0).wireIdle = false ∧ (s.world.link 0).wakeOwed = false
        ∧ ((after (.quiesceWaitEnd 0) s).world.link 0).forceOwed = true)
    ∧ ¬((((resting .quiescing 99).world.link 0).state = .quiescing)
      ∧ 100 ≤ ((resting .quiescing 99).world.link 0).timer
      ∧ ((resting .quiescing 99).world.link 0).wakeOwed = false) := by decide +kernel

/-- R132, R154, R155: a fault and a FORCE end the entries of every deliverable driver of the link; a fault records
what it cuts short. -/
theorem test_LineErrorsAndDurations_loss :
    (let w := losing.onLink 0 fun k => { k with errors := List.replicate 15 99 };
      (∀ l, (w.link l).deferred = []) ∧ ((w.link 0).stage.map (·.ref)).Nodup
        ∧ ((w.link 0).errors.filter (· < 100)).length = 15
        ∧ (∀ a, ((w.zone (zoneAt 0 a)).configured && (w.driver 0 a).deliverable) = true)
        ∧ lossOf (w.lineError desk.env 0) = ([], 3, true)
        ∧ ((w.lineError desk.env 0).link 0).state = .faulted)
    ∧ (let w := (losing.onLink 0 fun k => { k with errors := List.replicate 15 99 }).onZone 1 fun z =>
          { z with configured := false };
      lossOf (w.lineError desk.env 0) = ([3], 2, true))
    ∧ ([wired (fun k => { k with state := .scanning, scanPos := some 3 }),
        wired (fun k => { k with state := .calibrating, cal := some ⟨5, 2, 0, 3, false⟩ }), wired id].map fun w =>
          let v := w.abandonLongOp desk.env 0
          ((v.link 0).lastOp, (v.link 0).scanPos, (v.link 0).cal)) =
      [(some ⟨true, .abandoned, 16⟩, none, none), (some ⟨false, .abandoned, 3⟩, none, none), (none, none, none)]
    ∧ (wired id).abandonLongOp desk.env 0 = wired id
    ∧ (let s := base 1000 (losing.onLink 0 fun k => { k with
          state := .quiescing, timer := 100, transfer := none });
      (s.world.link 0).state = .quiescing ∧ 100 ≤ (s.world.link 0).timer ∧ (s.world.link 0).wakeOwed = false
        ∧ (s.world.link 0).wireIdle = true ∧ (∀ l, (s.world.link l).deferred = [])
        ∧ lossOf (after (.quiesceWaitEnd 0) s).world = ([], 3, true)
        ∧ ((after (.quiesceWaitEnd 0) s).world.link 0).bcast = some .force) := by decide +kernel

theorem test_LineErrorsAndDurations_runs :
    (let s := base 1000 (lit.onLink 0 fun k => { k with hunting := true });
      s.held = false ∧ (s.world.link 0).state.receives = true ∧ 0xC3#8 ∉ [1#8, 2#8]
        ∧ (s.world.link 0).hunting = true
        ∧ ((after (.driverReply 0 [1#8, 2#8] 0) s).world.link 0).errors = [])
    ∧ (let s := base 1000 lit;
      (s.world.link 0).hunting = false ∧ [1#8, 2#8] ≠ []
        ∧ ((after (.driverReply 0 [1#8, 2#8] 0) s).world.link 0).errors = [0]
        ∧ ((after (.driverReply 0 [1#8, 2#8] 0) s).world.link 0).hunting = true)
    ∧ (let s := base 1000 lit;
      0xC3#8 ∉ [1#8, 0x81#8, 0#8] ∧ (s.world.link 0).polling = false
        ∧ cutReply false 0 11 [1#8, 0x81#8, 0#8] = ([1#8, 0x81#8, 0#8], [])
        ∧ parseReply false (0xC3#8 :: [1#8, 0x81#8, 0#8]) = none
        ∧ ((after (.driverReply 0 (0xC3#8 :: [1#8, 0x81#8, 0#8]) 0) s).world.link 0).errors = [0])
    ∧ (let s := flying (.refresh plum.val) 1 1 false true [];
      parseReply (s.world.link 0).polling (bytes (said .ack 1 0)) = some (said .ack 1 0)
        ∧ (said .ack 1 0).tag ≠ (TxFrame.refresh plum.val).tag
        ∧ ((s.world.link 0).errors.filter (· < 100)).length ≠ 15 ∧ 1 < 3
        ∧ ((after (.driverReply 0 (bytes (said .ack 1 0)) 0) s).world.link 0).transfer
          = some ⟨.refresh plum.val, 0, 2, 0, true, true⟩)
    ∧ (let s := flying .sleep 0 1 false true [];
      ((after (.driverReply 0 [7#8] 0) s).world.link 0).transfer = none
        ∧ ((after (.driverReply 0 [7#8] 0) s).world.driver 0 0).state = .ready)
    ∧ (let s := base 1000 (loaded [{ staged 0 .queued with backoff := .lapsing }] id);
      (∃ x ∈ (s.world.link 0).stage, x.addr = 0 ∧ x.backoff = .lapsing)
        ∧ ((after (.backoffExpiry 0 0) s).world.link 0).stage.map (·.backoff) = [.clear])
    -- a good reply, a broken one, and the next reply, in one run
    ∧ (let s := flying (.refresh plum.val) 0 1 false true [];
      let t := after (.driverReply 0 (bytes (said .ack 0 0) ++ [9#8] ++ bytes (said .ack 0 0)) 0) s;
      (t.world.link 0).errors = [0, 0] ∧ (t.world.link 0).hunting = false
        ∧ (t.world.driver 0 0).slotsFree = some 3) := by decide +kernel

theorem test_PollsAndRefreshesSent :
    (let s := base 1000 ((lit.onZone 5 fun z => { z with committed := some plum }).onDriver 0 5 fun d =>
          { d with quiet := 100 });
      let k := s.world.link 0;
      s.held = false ∧ k.state = .up ∧ k.wireIdle = true ∧ k.owesNothing = true
        ∧ s.world.ctl.restartWake.get 0 = false ∧ (∀ g ∈ k.gos, g.ready = true → g.sent = true)
        ∧ k.pending = [] ∧ k.nextStage = none ∧ (s.world.driver 0 5).refreshDue = true
        ∧ (s.world.zone (zoneAt 0 5)).committed = some plum
        ∧ (∀ b < (5 : Fin 16), (s.world.driver 0 b).refreshDue = false)
        ∧ ((after (.refreshDue 0 5) s).world.link 0).transfer
          = some ⟨.refresh plum.val, 5, 0, 0, true, false⟩)
    ∧ (let s := base 1000 (lit.onDriver 0 15 fun d => { d with state := .unresponsive, poll := 100 });
      let k := s.world.link 0;
      k.state = .up ∧ k.wireIdle = true ∧ k.owesNothing = true ∧ k.pending = [] ∧ k.gos = []
        ∧ k.nextStage = none ∧ (∀ b, (s.world.driver 0 b).refreshDue = false)
        ∧ s.world.lostPollDue 0 15 = true ∧ (∀ b < (15 : Fin 16), s.world.lostPollDue 0 b = false)
        ∧ ((after (.lostDriverPollDue 0 15) s).world.link 0).transfer
          = some ⟨.poll true false, 15, 0, 0, true, false⟩)
    ∧ (let s := resting .warming 200;
      (s.world.link 0).state ≠ .up ∧ (s.world.zone (zoneAt 0 0)).configured = true
        ∧ (s.world.driver 0 0).state ≠ .busy ∧ (s.world.link 0).wireIdle = true
        ∧ ((after (.warmUpEnd 0) s).world.link 0).transfer
          = some ⟨.poll false true, 0, 0, 0, true, false⟩)
    ∧ (let s := base 1000 { (resting .warming 200).world with zones := World.cold.zones };
      (s.world.link 0).state = .warming ∧ 200 ≤ (s.world.link 0).timer
        ∧ (∀ a, (s.world.zone (zoneAt 0 a)).configured = false) ∧ s.world.ctl.state = .active
        ∧ ((after (.warmUpEnd 0) s).world.link 0).state = .up) := by decide +kernel

/-- What link 0 next puts on its wire, if it acts. -/
def sent? (w : World) : Option (Option Broadcast × Option (TxFrame × Fin 16)) :=
  (w.choose (nowAt 1000) 0).map fun v =>
    ((v.link 0).bcast, (v.link 0).transfer.map fun x => (x.frame, x.addr))

/-- The state link 0 next enters, if it acts. -/
def enters? (w : World) : Option LinkState := (w.choose (nowAt 1000) 0).map fun v => (v.link 0).state

def ready2 : GoEntry := { goal with tag := 1, ready := true }

/-- An individual entry of the driver at an address. -/
def single (ref : Nat) (a : Fin 16) (st : EntryState) : Entry :=
  { staged ref st with addr := a, group := none, tag := 0 }

/-- Link 0 in a state that has one. -/
def inState (st : LinkState) (f : Link → Link) : World := wired fun k => f { k with state := st }

/-- The first driver of link 0 in a state. -/
def driver0 (st : DriverState) (w : World) : World := w.onDriver 0 0 fun d => { d with state := st }

/-- Link 0 with a GO that is ready and a pending TAKE. -/
def crowded : World := wired fun k => { k with gos := [goal, ready2], pending := [⟨true, 3, 0, 9⟩] }

/-- Link 0 CALIBRATING at its first address. -/
def measuring (count : Nat) : World :=
  inState .calibrating fun k => { k with cal := some ⟨0, count, 0, 0, false⟩ }

/-- R143, R144, R148, R150, R152, R155, R156, R186: the frame an idle wire is given. -/
theorem test_link_chooses_its_frame :
    [wired id, crowded, { crowded with ctl := { crowded.ctl with restartWake := Tab.fill 4 true } },
      crowded.onLink 0 fun k => { k with state := .scanning, scanPos := some 0 },
      wired fun k => { k with gos := [goal], pending := [⟨true, 3, 0, 9⟩, ⟨false, 2, 1, 8⟩] },
      wired fun k => { k with pending := [⟨false, 2, 1, 8⟩] },
      wired fun k => { k with stage := [single 4 3 .sent, single 5 3 .queued, single 6 4 .late] },
      wired fun k => { k with stage := [{ single 5 3 .queued with backoff := .lapsing }, staged 7 .staged] },
      inState .warming id].map sent? =
    [none, some (some (.go 1), none), some (some .wake, none), some (some (.go 1), none),
      some (none, some (.take 9 0, 3)), some (none, some (.drop 8 1, 2)),
      some (none, some (.stage 6 0 plum.val 0, 4)), none, none]
    ∧ [(inState .quiescing fun k => { k with stage := [{ staged 7 .staged with addr := 1 }] }).onDriver 0 0
        fun d => { d with sleepTried := true },
      measuring 3, driver0 .busy (measuring 3),
      inState .scanning fun k => { k with scanPos := some 15 },
      driver0 .absent (inState .scanning fun k => { k with scanPos := some 0 }),
      driver0 .busy (inState .scanning fun k => { k with scanPos := some 0 }),
      inState .asleep fun k => { k with wakeOwed := true },
      inState .quiescing fun k => { k with forceOwed := true, wakeOwed := true }].map sent? =
    [some (none, some (.sleep, 2)), some (none, some (.probe 3, 0)), none,
      some (none, some (.poll false true, 15)), some (none, some (.poll true true, 0)), none,
      some (some .wake, none), some (some .force, none)] := by decide +kernel

/-- A turn passed over, a scan's next address, and the states that a WAKE and a FORCE bring. -/
theorem test_link_acts_without_a_frame :
    (((driver0 .absent (measuring 0)).choose (nowAt 1000) 0).map fun v => (v.link 0).cal)
      = some (some ⟨1, 0, 0, 0, false⟩)
    ∧ ((((inState .scanning fun k => { k with scanPos := some 0 }).onZone 0 fun z =>
        { z with configured := false }).choose (nowAt 1000) 0).map fun v => (v.link 0).scanPos)
      = some (some 1)
    ∧ enters? (inState .asleep fun k => { k with wakeOwed := true }) = some .warming
    ∧ enters? (inState .quiescing fun k => { k with forceOwed := true }) = some .asleep := by decide +kernel

/-- A POLL in flight to address 1. -/
def polled : Transfer := ⟨.poll true false, 0, 0, 1, false, true⟩

/-- R149, R153, R155: what a link does at the end of a scan, a calibration and its drivers' going to sleep,
whatever its wire carries: a POLL in flight does not keep a link awake. -/
theorem test_link_ends_whatever_the_wire_carries :
    (let w := wired fun k => { k with state := .quiescing, drivers := Tab.fill 16 Driver.cold
                                      transfer := some polled };
      enters? w = some .asleep
        ∧ ((w.pump (nowAt 1000) 0).link 0).transfer = some polled
        ∧ (w.pump (nowAt 1000) 0).ctl.asleep.get 0 = true
        ∧ enters? (w.onLink 0 fun k => { k with wakeOwed := true }) = none
        ∧ enters? (w.onDriver 0 9 fun d => { d with state := .busy }) = none)
    ∧ enters? (wired fun k => { k with state := .scanning, scanPos := some 16, transfer := some polled })
      = some .up
    ∧ enters? (wired fun k => { k with state := .calibrating, cal := some ⟨16, 0, 0, 9, false⟩ }) = some .up
    ∧ enters? { wired fun k => { k with state := .scanning, scanPos := some 16 } with
        ctl := { lit.ctl with state := .dark } } = some .quiescing
    ∧ enters? (wired fun k => { k with transfer := some polled, forceOwed := true }) = none := by
  decide +kernel

theorem test_LinkRequestsTaken :
    (let s := base 1000 lit;
      s.idle = true ∧ 4 ≤ 4 ∧ (∀ a, (s.world.zone (zoneAt 0 a)).claims = [])
        ∧ (s.world.link 0).state = .up ∧ (s.world.link 0).stage = [] ∧ (s.world.link 0).gos = []
        ∧ (s.world.link 0).deferred = [] ∧ (s.world.link 0).pending = []
        ∧ (s.world.link 0).answering ≠ 0 ∧ (s.world.link 3).state = .off
        ∧ s.world.ctl.state ≠ .parked
        ∧ ((after (.enableLink 0 3) s).world.link 3).state = .warming
        ∧ ((after (.disableLink 0 0) s).world.link 0).state = .off
        ∧ ((after (.scanLink 0 0) s).world.link 0).state = .scanning
        ∧ ((after (.calibrateLink 0 0) s).world.link 0).state = .calibrating)
    ∧ (let s := zoned fun z => { z with claims := [claim1] };
      s.idle = true ∧ (s.world.zone (zoneAt 0 0)).claims ≠ []
        ∧ (after (.disableLink 0 0) s).port.slot = some ⟨0x41, 0, .inUse, []⟩)
    ∧ (let s := base 1000 (lit.onLink 0 fun k => { k with drivers := Tab.fill 16 Driver.cold });
      (s.world.link 0).answering = 0 ∧ (s.world.link 0).state = .up ∧ s.world.ctl.state ≠ .dark
        ∧ ((after (.calibrateLink 0 0) s).world.link 0).lastOp = some ⟨false, .complete, 0⟩
        ∧ ((after (.calibrateLink 0 0) s).world.link 0).state = .up) := by decide +kernel

/-- R132, R157: a link that goes OFF ends the entries of its drivers, here players' with no claim; one that is OFF
already only loses its enabling. R109: so does an unconfigured zone, with its own driver's entries. -/
theorem test_LinkRequestsTaken_loss :
    (let s := base 1000 (losing.onZone 0 fun z => { z with claims := [] });
      s.idle = true ∧ (∀ a, (s.world.zone (zoneAt 0 a)).claims = []) ∧ (s.world.link 0).state ≠ .off
        ∧ (∀ l, (s.world.link l).deferred = []) ∧ ((s.world.link 0).stage.map (·.ref)).Nodup
        ∧ lossOf (after (.disableLink 0 0) s).world = ([], 3, true)
        ∧ ((after (.disableLink 0 0) s).world.link 0).pending = []
        ∧ (s.world.zone 0).configured = true ∧ (s.world.zone 0).claims = []
        ∧ (s.world.driver 0 0).deliverable = true
        ∧ lossOf (after (.putZone 0 0 0 9 20) s).world = ([3], 2, true)
        ∧ ((after (.putZone 0 0 0 9 20) s).world.driver 0 0).state = .absent
        ∧ (let t := { s with world := s.world.onDriver 0 0 fun d => { d with state := .asleep } };
          (t.world.driver 0 0).deliverable = false
            ∧ lossOf (after (.putZone 0 0 0 9 20) t).world = ([0, 1, 2, 3], 0, false)))
    ∧ (let s := base 1000 (resting .off 0).world;
      s.idle = true ∧ (s.world.link 0).state = .off ∧ (s.world.link 0).enabled = true
        ∧ (after (.disableLink 0 0) s).world.link 0 = { s.world.link 0 with enabled := false }) := by
  decide +kernel

/-! ## The hypotheses of the statements: the Condition Monitor and the State Controller -/

def watcher (v : Verdict) (streak : Nat) (sense : Option Bool) : Channel :=
  { Channel.cold with
    enabled := true, low := 100, high := 200, persist := 3, value := v, streak := streak, sense := sense }

/-- Channel 0 on AIN0, channel 1 on a contact, a scan due or under way. -/
def looking (due : Bool) (scan : Option Scan) : State :=
  base 1000 { lit with monitor := { lit.monitor with
    channels := (lit.monitor.channels.set 0 { watcher .no 2 none with record := true }).set 1
      { watcher .unknown 0 none with source := .cin 0, persist := 1 }
    scanDue := due
    scan := scan } }

theorem test_ScanJudgesConditions :
    (let c := watcher .no 2 none;
      c.mode = .above ∧ c.matches 200 = false ∧ c.matches 201 = true
        ∧ { c with mode := .below }.matches 99 = true ∧ { c with mode := .below }.matches 100 = false
        ∧ { c with mode := .inside }.matches 100 = true ∧ { c with mode := .inside }.matches 201 = false
        ∧ { c with mode := .outside }.matches 99 = true ∧ { c with mode := .outside }.matches 200 = false
        ∧ c.value ≠ .unknown ∧ c.value = .no ∧ c.persist ≤ c.streak + 1 ∧ (c.judge 201).2 = true
        ∧ (c.judge 200).1.streak = 0)
    ∧ (let c := watcher .yes 1 none;
      c.value ≠ .no ∧ c.streak + 1 < c.persist ∧ (c.judge 0).1.streak = 2)
    ∧ (let c := watcher .unknown 2 (some true);
      c.value = .unknown ∧ c.streak ≠ 0 ∧ c.sense = some (c.matches 201) ∧ c.persist ≤ c.streak + 1
        ∧ (c.judge 201).1.value = .yes ∧ (c.judge 200).1.streak = 1)
    ∧ (let s := looking false none;
      s.held = false ∧ s.world.monitor.scanDue = false ∧ s.world.monitor.scan = none)
    ∧ (let s := looking true none;
      s.held = false ∧ s.world.monitor.scanDue = true
        ∧ ((upTo 4).filter fun i => s.world.monitor.channels.list.any fun c =>
          c.enabled && c.source == .ain i) = [0]
        ∧ (after (.scanStart true false false false) s).world.monitor.scan = some ⟨[0], []⟩
        ∧ ((after (.scanStart true false false false) s).world.monitor.cin.get 0) = some 4095)
    ∧ (let s := base 1000 { lit with monitor := { lit.monitor with scanDue := true } };
      s.world.monitor.scanDue = true ∧ ((upTo 4).filter fun i =>
        s.world.monitor.channels.list.any fun c => c.enabled && c.source == .ain i) = []
        ∧ (after (.scanStart true true true true) s).world.monitor.scan = none)
    ∧ (let s := looking false (some ⟨[0, 3], []⟩);
      s.world.monitor.scan = some ⟨0 :: [3], []⟩ ∧ ([3] : List (Fin 4)) ≠ []
        ∧ ((after (.conversionEnd 4096) s).world.monitor.ain.get 0) = some 4095)
    ∧ (let s := looking false (some ⟨[0], []⟩);
      s.world.monitor.scan = some ⟨0 :: [], []⟩
        ∧ ((after (.conversionEnd 4095) s).world.monitor.channels.get 0).value = .yes
        ∧ ((after (.conversionEnd 4095) s).world.monitor.channels.get 0).trip
          = some ⟨1000, .yes, 4095⟩) := by decide +kernel

/-- A player in a state whose booking starts on channel 5 or stops on it. -/
def role (st : PlayerState) (k : Booking) : World := (onStage 1000600 st k .yes id).world

theorem test_TransitionsToTrueAct :
    (let w := role .waiting (vigil 1000000);
      (w.player 0).state = .waiting ∧ (w.player 0).copy = some ⟨vigil 1000000, 1000000, none⟩
        ∧ (vigil 1000000).mode = .onCondition 5 6000
        ∧ ((w.roleOf desk.env 5 0).player 0).state = .running)
    ∧ (let w := role .running untilSeen;
      (w.player 0).state = .running ∧ (w.player 0).copy = some ⟨untilSeen, 1000000, none⟩
        ∧ untilSeen.stopCond = some 5 ∧ (w.monitor.channels.get 5).value = .yes
        ∧ ((w.roleOf desk.env 5 0).player 0).state = .ending)
    ∧ (let w := role .held untilSeen;
      (w.player 0).state = .held ∧ w.plans.wait = [] ∧ (w.player 0).ref = some (.a, 1)
        ∧ (w.bank .a).find 1 = some (entry untilSeen .held)
        ∧ ((w.roleOf desk.env 5 0).player 0) = Player.free)
    ∧ (let w := role .ending untilSeen;
      (w.player 0).state ≠ .waiting ∧ (w.player 0).state ≠ .running ∧ (w.player 0).state ≠ .held
        ∧ w.plans.wait = [] ∧ (∀ q, w.roleOf desk.env 5 q = w)
        ∧ ((w.turnTrue desk.env 5 true false).player 0) = Player.free)
    ∧ (let w := { lit with ctl := { lit.ctl with state := .dark } };
      (∀ q, (w.player q).state = .free) ∧ w.ctl.state = .dark
        ∧ (w.turnTrue desk.env 5 false true).ctl.state = .active)
    ∧ lit.ctl.state ≠ .dark := by decide +kernel

/-- R202, hand point first: the group that it hands on as the walk enters the CODA is withdrawn by a stop of the
same tick, and the CODA is walked from the cut; a tick later the stop finds nothing to do. -/
theorem test_stop_with_a_hand_point_that_enters_the_coda :
    (let s := onStage 1000150 .running untilSeen .yes fun c =>
          { c with walk := some (.stands ⟨1, 1, 2⟩), epoch := some 1000200, passes := some (.left 1) };
      let w := (after (.handPoint 0) s).world;
      let c := w.player 0;
      first s = some .hand ∧ c.state = .ending ∧ c.cause = some .completed
        ∧ c.hands.map (fun h => (h.id, h.due)) = [(⟨1, 1, 2⟩, 1000150 + 150)]
        ∧ ((nowAt 1000150).showOf c).parts.length = 1 + 2
        ∧ ((nowAt 1000150).showOf c).parts.getLast? = some ⟨.coda, 50, 1, 3, 1⟩
        ∧ (let d := (w.roleOf (nowAt 1000150) 5 0).player 0;
          d.cause = some .stopped ∧ d.release = some 1000350
            ∧ d.hands.map (fun h => (h.id, h.due)) = [(⟨2, 0, 3⟩, 1000300)])
        ∧ w.roleOf (nowAt 1000151) 5 0 = w) := by decide +kernel

theorem test_TransitionsToTrueAct_scan :
    (let s := looking false (some ⟨[0], []⟩);
      s.held = false ∧ s.world.monitor.scan = some ⟨[0], []⟩
        ∧ (s.world.monitor.channels.get 0).enabled = true ∧ (0 : Fin 4) ∈ ([0] : List (Fin 4))
        ∧ ((after (.conversionEnd 4095) s).world.notices.get 13).pending = true)
    ∧ (let w := lit.setChannel 1 { watcher .unknown 0 none with source := .cin 0, persist := 1 };
      let s := base 1000 { w with monitor := { w.monitor with scanDue := true } };
      s.world.monitor.scanDue = true
        ∧ (∀ ch i, (s.world.monitor.channels.get ch).enabled = true →
          (s.world.monitor.channels.get ch).source ≠ .ain i)
        ∧ ((after (.scanStart true false false false) s).world.monitor.channels.get 1).value = .yes)
    ∧ (let w := (looking false none).world;
      (w.monitor.channels.get 7).enabled = false ∧ w.monitor.ain.get 0 = none
        ∧ w.judgeChannel desk.env [0] 0 = w ∧ w.judgeChannel desk.env [0] 7 = w)
    ∧ (let w := { (looking false none).world with
          monitor := { (looking false none).world.monitor with ain := Tab.fill 4 (some 201) } };
      let c := w.monitor.channels.get 0;
      c.enabled = true ∧ w.monitor.ain.get 0 = some 201 ∧ (c.judge 201).2 = true
        ∧ (c.judge 201).1.value = .yes ∧ (c.judge 200).2 = false
        ∧ ((w.judgeChannel desk.env [0] 0).monitor.channels.get 0).count = 1
        ∧ ((watcher .yes 2 none).judge 5).2 = true ∧ ((watcher .yes 2 none).judge 5).1.value = .no)
    ∧ (let w := role .held untilSeen;
      w.plans.wait = [] ∧ (w.player 0).state ≠ .free ∧ (w.player 1).state = .free
        ∧ (w.player 0).ref = some (.a, 1) ∧ (w.bank .a).find 1 = some (entry untilSeen .held)
        ∧ ((w.turnTrue desk.env 5 true false).bank .a).list.map (·.outcome.progress) = [.allStopped]
        ∧ ((w.turnTrue desk.env 5 true false).bank .a).list.map (·.outcome.abrupt) = [true])
    ∧ (let w := role .ending (song 1000000);
      ¬((w.player 0).state = .waiting) ∧ ¬((w.player 0).state = .running ∨ (w.player 0).state = .held))
      := by decide +kernel

/-- Channel 7 taking supplied readings. -/
def supplied : State :=
  base 1000 (lit.setChannel 7 { Channel.cold with source := .supplied, count := 4 })

theorem test_ConditionRequestsTaken :
    (let f : ConditionField := ⟨1, 8, 3, 4095, 4095, 15, 1, 3⟩;
      supplied.idle = true ∧ f.enabled ≤ 1 ∧ f.source ≤ 8 ∧ f.mode ≤ 3 ∧ f.low ≤ f.high ∧ f.high ≤ 4095
        ∧ 1 ≤ f.persist ∧ f.persist ≤ 15 ∧ f.record ≤ 1 ∧ f.attrs ≤ 3
        ∧ source? f.source = some .supplied ∧ mode? f.mode = some .outside
        ∧ ((after (.putCondition 0 7 f) supplied).world.monitor.channels.get 7).count = 4)
    ∧ ([{ goodSettings with enabled := 2 }, { goodSettings with source := 9 },
      { goodSettings with mode := 4 }, { goodSettings with low := 4096, high := 4096 },
      { goodSettings with low := 201 }, { goodSettings with high := 4096 },
      { goodSettings with persist := 0 }, { goodSettings with persist := 16 },
      { goodSettings with record := 2 }, { goodSettings with attrs := 4 }].map fun f =>
        (after (.putCondition 0 7 f) supplied).port.slot.bind fun r => r.body.head?)
      = [some 1, some 2, some 3, some 4, some 4, some 6, some 8, some 8, some 9, some 10]
    ∧ (let s := onStage 1000600 .waiting (vigil 1000000) .no id;
      let f := { goodSettings with enabled := 0 };
      s.idle = true ∧ (s.world.player 0).state ≠ .free
        ∧ (s.world.player 0).copy = some ⟨vigil 1000000, 1000000, none⟩
        ∧ (vigil 1000000).mode = .onCondition 5 6000
        ∧ (after (.putCondition 0 5 f) s).port.slot = some ⟨0x48, 0, .inUse, []⟩)
    ∧ 4095 < 4096 ∧ (supplied.world.monitor.channels.get 7).source = .supplied
    ∧ (supplied.world.monitor.channels.get 6).source ≠ .supplied
    ∧ ((after (.setReading 0 7 4095) supplied).world.monitor.supplied.get 7) = some 4095 := by
  decide +kernel

/-- The guard timer, the auto-dark setting and the operating state of the desk. -/
def guarded (st : OpState) (auto : Bool) (guard : Nat) (w : World) : State :=
  base 934000 { w with ctl := { w.ctl with state := st, auto := auto, guard := guard } }

theorem test_DarkGuardMakesTest :
    (let s := guarded .active true 6000 lit;
      s.held = false ∧ s.world.ctl.state = .active ∧ 6000 ≤ s.world.ctl.guard
        ∧ s.world.ctl.auto = true ∧ (∀ p, (s.world.player p).state = .free)
        ∧ s.world.plans.wait = [] ∧ s.world.pendingBy (s.time.civic + 60000) = false
        ∧ (after .darkGuardExpiry s).world.ctl.state = .dark
        ∧ ((after .darkGuardExpiry s).world.link 0).state = .quiescing)
    ∧ (let s := guarded .active true 6000 (bankA .active [entry (song 1000000) .pending] lit);
      s.world.pendingBy (s.time.civic + 60000) = true
        ∧ (after .darkGuardExpiry s).world.ctl.lastTest = some ⟨934000, .bookingSoon⟩)
    ∧ (guarded .active true 6000 (bankA .active [entry (song 1000001) .pending] lit)).world.pendingBy
      994000 = false
    ∧ (let s := guarded .active false 6000 lit;
      s.world.ctl.auto = false ∧ (after .darkGuardExpiry s).world.ctl.guard = 0)
    ∧ ¬((guarded .active true 5999 lit).world.ctl.state = .active
      ∧ 6000 ≤ (guarded .active true 5999 lit).world.ctl.guard)
    ∧ ¬((guarded .dark true 6000 lit).world.ctl.state = .active) := by decide +kernel

/-- R178: the automatic dark test at a release, at the day roll and at a DATE SET. -/
theorem test_DarkGuardMakesTest_moments :
    (let w := (onStage 1000600 .ending (vigil 1000000) .no fun c =>
          { c with walk := some .past, release := some 1000600, cause := some .stopped }).world;
      let s := base 1000600 { w with ctl := { w.ctl with auto := true } };
      s.held = false ∧ s.reachOpen = true ∧ first s = some .release ∧ s.world.plans.wait = []
        ∧ (s.world.player 0).cause = some .stopped ∧ s.world.ctl.state = .active ∧ s.world.ctl.auto = true
        ∧ (after (.releasePoint 0) s).world.ctl.state = .dark
        ∧ s.world.autoDark s.env = { s.world with ctl := { s.world.ctl with
          lastTest := some ⟨1000600, .players⟩ } })
    ∧ (let w := (guarded .active true 0 lit).world;
      (w.autoDark desk.env).ctl.state = .dark
        ∧ (w.dayRoll desk.env ⟨2000, 1, 2⟩).ctl.state = .dark
        ∧ (w.dateSet desk.env ⟨2000, 1, 2⟩).ctl.state = .dark ∧ w.activeBank = none)
    ∧ (let w := (guarded .active false 0 lit).world; w.ctl.auto = false ∧ w.autoDark desk.env = w)
    ∧ (let w := (guarded .parked true 0 lit).world; w.ctl.state ≠ .active ∧ w.autoDark desk.env = w) := by
  decide +kernel

theorem test_SetStateMovesPart :
    (let s := guarded .active false 0 lit;
      s.idle = true ∧ s.world.ctl.state = .active ∧ (∀ p, (s.world.player p).state = .free)
        ∧ s.world.plans.wait = [] ∧ s.world.pendingBy (s.time.civic + 60000) = false ∧ 2 < 3
        ∧ (after (.setState 0 1 0) s).world.ctl.state = .dark
        ∧ (after (.setState 0 2 1) s).world.ctl.state = .parked
        ∧ (after (.setState 0 0 1) s).world.ctl.state = .dark
        ∧ (after (.setState 0 0 0) s).world.ctl.state = .active)
    ∧ (let s := guarded .active false 0 busy;
      s.idle = true ∧ (s.world.player 0).state ≠ .free
        ∧ (after (.setState 0 1 0) s).port.slot = some ⟨0x53, 0, .showsActive, []⟩
        ∧ (after (.setState 0 2 0) s).port.slot = some ⟨0x53, 0, .showsActive, []⟩
        ∧ (after (.setState 0 0 1) s).world.ctl.lastTest = some ⟨934000, .players⟩)
    ∧ (let s := guarded .dark false 0 lit;
      s.idle = true ∧ s.world.ctl.state = .dark
        ∧ (after (.setState 0 1 1) s).port.slot = some ⟨0x53, 0, .ok, [1, 1]⟩
        ∧ (after (.setState 0 0 1) s).world.ctl.state = .active
        ∧ (after (.setState 0 2 1) s).world.ctl.state = .parked)
    ∧ (let s := guarded .parked false 0 (lit.onLink 0 fun k => { k with state := .off, power := false });
      s.idle = true ∧ s.world.ctl.state = .parked ∧ (s.world.link 0).enabled = true
        ∧ (s.world.link 0).state = .off
        ∧ (after (.setState 0 1 1) s).port.slot = some ⟨0x53, 0, .wrongState, []⟩
        ∧ (after (.setState 0 2 1) s).port.slot = some ⟨0x53, 0, .ok, [2, 1]⟩
        ∧ ((after (.setState 0 0 1) s).world.link 0).power = true) := by decide +kernel

/-- R183: what the unpark leaves before its arming. -/
theorem test_SetStateMovesPart_unpark :
    (let w := (bankA .active [entry (song 1000000) .pending] lit).onLink 0 fun k =>
          { k with state := .off, power := false, timer := 7 };
      let s := guarded .parked true 9 w;
      s.idle = true ∧ s.world.ctl.state = .parked ∧ s.world.activeBank = some .a
        ∧ (s.world.link 0).enabled = true ∧ (s.world.link 0).state = .off
        ∧ (s.world.link 1).enabled = false
        ∧ (let t := after (.setState 0 0 0) s;
          (t.world.link 0).state = .warming ∧ (t.world.link 0).timer = 0 ∧ (t.world.link 1).state = .off
            ∧ t.world.ctl.guard = 0 ∧ t.world.ctl.auto = false
            ∧ (t.world.ctl.lastChange.map (·.cause)) = some .request
            ∧ (t.world.notices.get 11).pending = true))
    ∧ (guarded .parked true 9 lit).world.activeBank = none := by decide +kernel

/-! ## The hypotheses of the statements: the Host Line Port -/

/-- The desk with its port. -/
def ported (f : Port → Port) : State := { desk with port := f desk.port }

def waiting : HostFrame := ⟨0x02, 8, .ok .getTime⟩

def owed : Reply := ⟨0x02, 1, .ok, [1#8]⟩

theorem test_FramesQueuedOrOverrun :
    (Instr.getTime 3).request = some (3, .getTime)
    ∧ (Instr.badKindRequest 0xEE 3 []).request = none ∧ 0xEE ∉ requestKinds ∧ 0x02 ∈ requestKinds
    ∧ parseBody 0x02 ([0#8].map (·.toNat)) = none
    ∧ (let s := ported fun p => { p with breakHeld := true };
      s.held = false ∧ s.port.breakHeld = true ∧ (after (.getTime 3) s).port.queue = [])
    ∧ (let s := ported fun p => { p with slot := some owed, queue := [waiting, waiting, waiting] };
      s.held = false ∧ s.port.breakHeld = false ∧ s.port.rx = .hunt ∧ s.port.slot ≠ none
        ∧ s.port.queue.length < 4 ∧ (after (.getTime 3) s).port.queue.length = 4)
    ∧ (let s := ported fun p => { p with slot := some owed, queue := List.replicate 4 waiting };
      s.port.rx = .hunt ∧ 4 ≤ s.port.queue.length ∧ (after (.getTime 3) s).port.overrunCount = 1)
    ∧ (let s := ported fun p => { p with rx := .frame [0#8] false };
      s.held = false ∧ s.port.breakHeld = false ∧ s.port.rx ≠ .hunt
        ∧ (after (.getTime 3) s).port.checkErrors = 1)
    ∧ desk.idle = true
    ∧ (after (.badKindRequest 0xEE 3 []) desk).port.slot = some ⟨0xEE, 3, .badKind, []⟩
    ∧ (after (.badKindRequest 0x02 3 [0#8]) desk).port.slot = some ⟨0x02, 3, .badLength, []⟩ := by
  decide +kernel

/-- What a request of a kind and a body is answered. -/
def judged (kind : Nat) (body : List Byte) : Option Code := (answer (.badKindRequest kind 3 body) desk).map (·.1)

/-- A body of ADD_BOOKING with a count of zone-map items and the bytes after it. -/
def booked (count : Byte) (rest : List Byte) : List Byte := List.replicate 19 0#8 ++ count :: rest

/-- R199: the lengths at their ends: the fixed ones, the two that may be left short, and the counted ones. -/
theorem test_FramesQueuedOrOverrun_lengths :
    desk.idle = true ∧ [0x11, 0x28, 0x44, 0x14, 0x21, 0x57].all (· ∈ requestKinds) = true
    ∧ [judged 0x11 [], judged 0x11 [9], judged 0x11 [9, 9]]
      = [some .badLength, some .ok, some .badLength]
    ∧ ((List.range 4).map fun n => judged 0x28 (List.replicate n 0))
      = [some .badLength, some .ok, some .ok, some .badLength]
    ∧ ((List.range 4).map fun n => judged 0x44 (List.replicate n 0))
      = [some .badLength, some .ok, some .ok, some .badLength]
    ∧ [judged 0x14 [3], judged 0x14 [3, 0], judged 0x14 [3, 0, 0], judged 0x14 [3, 1, 0, 0, 0],
        judged 0x14 [3, 1, 0, 0, 0, 0], judged 0x14 [3, 1, 0, 0, 0, 0, 0]].map (· == some .badLength)
      = [true, false, true, true, false, true]
    ∧ [judged 0x21 (List.replicate 19 0), judged 0x21 (booked 0 []), judged 0x21 (booked 0 [0]),
        judged 0x21 (booked 1 []), judged 0x21 (booked 1 [0, 0]), judged 0x21 (booked 1 [0, 2, 7]),
        judged 0x21 (booked 1 [0, 2, 7, 8]), judged 0x21 (booked 2 [0, 1, 7, 1, 0]),
        judged 0x21 (booked 1 [0, 2, 7, 8, 9])].map (· == some .badLength)
      = [true, false, true, true, false, true, false, false, true]
    ∧ booked 2 [0, 1, 7, 1, 0] = 0 :: List.replicate 18 0
      ++ (2#8 : Byte) :: [(0#8, [7#8]), (1, [])].flatMap (fun q => q.1 :: byteOf q.2.length :: q.2)
    ∧ [judged 0x57 [], judged 0x57 (List.replicate 239 7), judged 0x57 (List.replicate 240 7)]
      = [some .ok, some .ok, some .badLength] := by decide +kernel

theorem test_FrameIsRequest :
    0xC3 < 256 ∧ 255 < 256 ∧ (List.replicate 240 0xC4#8).length ≤ 240
    ∧ (Instr.putLook 0xC3 9 0xC3 0xC4 0 255 3000).wf = true
    ∧ (Instr.putLook 0xC3 9 0xC3 0xC4 0 255 3000).request
      = some (0xC3, .putLook 9 0xC3 0xC4 0 255 3000)
    ∧ ((after (.hostFrameReceived (received (Request.wire 0xC3 (.putLook 9 0xC3 0xC4 0 255 3000))))
      desk).lib.looks.get 9) = ⟨0xC3, 0xC4, 0, 255, 3000⟩ := by decide +kernel

theorem test_FailedFramesCounted :
    (let s := ported id;
      s.held = false ∧ s.port.breakHeld = false ∧ s.port.rx = .hunt
        ∧ (⟨0xC3#8, false⟩ : RxByte) ≠ ⟨0xC3#8, true⟩
        ∧ (after (.hostFrameReceived [⟨0xC3#8, true⟩]) s).port.rx = .frame [] false)
    ∧ (let s := ported fun p => { p with rx := .frame [] false };
      s.port.rx = .frame [] false ∧ 240 < (241#8 : Byte).toNat ∧ (240#8 : Byte).toNat ≤ 240
        ∧ (after (.hostFrameReceived [⟨241#8, true⟩]) s).port.checkErrors = 1
        ∧ (after (.hostFrameReceived [⟨240#8, true⟩]) s).port.rx = .frame [240#8] false
        ∧ (after (.hostFrameReceived [⟨0#8, false⟩]) s).port.rx = .hunt
        ∧ (after (.hostFrameReceived [⟨0xC4#8, true⟩]) s).port.rx = .frame [] true)
    ∧ (let s := ported fun p => { p with rx := .frame [0#8] true };
      s.port.rx = .frame [0#8] true ∧ (0xE2#8 : Byte) ≠ 0xE3#8 ∧ (0xE2#8 : Byte) ≠ 0xE4#8
        ∧ (after (.hostFrameReceived [⟨0xE2#8, true⟩]) s).port.checkErrors = 1
        ∧ (after (.hostFrameReceived [⟨0xC3#8, true⟩]) s).port.rx = .frame [] false)
    ∧ (let s := ported fun p => { p with rx := .frame [0#8, 2#8, 0#8, 0#8] false };
      ([0#8, 2#8, 0#8, 0#8] : List Byte).head? = some 0#8 ∧ 4 + 1 = (0#8 : Byte).toNat + 5
        ∧ (([0#8, 2#8, 0#8, 0#8] : List Byte) ++ [0#8]).drop 3 ≠ checkBytes [0#8, 2#8, 0#8]
        ∧ (after (.hostFrameReceived [⟨0#8, true⟩]) s).port.checkErrors = 1)
    ∧ 3 + 1 < (0#8 : Byte).toNat + 5 := by decide +kernel

/-- DAY_ROLL pending. -/
def rung : World := lit.raise desk.env .dayRoll

theorem test_OutputAndBreaks :
    (let p := { desk.port with mask := 16#16 };
      p.out = none ∧ p.overruns = [] ∧ p.slot = none ∧ (rung.notices.get 4).pending = true
        ∧ (rung.notices.get 4).sent = false ∧ p.mask.getLsbD 4 = true
        ∧ (∀ j < (4 : Fin 16), p.mask.getLsbD j.val = false)
        ∧ (p.choose rung.notices).out = some (.notice 4 0 5 5 true)
        ∧ (desk.port.choose rung.notices) = desk.port)
    ∧ (let s := ported fun p => { p with overruns := [(2, 1)], slot := some owed };
      s.port.out = none ∧ s.port.overruns = (2, 1) :: []
        ∧ (s.choose).port.out = some (.overrun 2 1))
    ∧ (let s := ported fun p => { p with slot := some owed };
      s.port.out = none ∧ s.port.overruns = [] ∧ s.port.slot = some owed)
    ∧ (let s := ported fun p => { p with out := some (.overrun 2 1) };
      s.held = false ∧ s.port.out = some (.overrun 2 1) ∧ (after .hostFrameSent s).port.out = none)
    ∧ (let s := { ported (fun p => { p with out := some (.notice 4 0 5 5 true) }) with world := rung };
      s.port.out = some (.notice 4 0 5 5 true)
        ∧ ((after .hostFrameSent s).world.notices.get 4).sent = true)
    ∧ (let s := { ported (fun p => { p with out := some (.notice 4 0 5 5 false) }) with world := rung };
      s.port.out = some (.notice 4 0 5 5 false)
        ∧ ((after .hostFrameSent s).world.notices.get 4).sent = false)
    ∧ (let s := ported fun p => { p with out := some (.reply owed), slot := some owed };
      s.port.out = some (.reply owed) ∧ ¬(owed.kind = 0x55 ∧ owed.code = .ok) ∧ s.port.queue = []
        ∧ (after .hostFrameSent s).port.slot = none)
    ∧ (let s := ported fun p => { p with
          out := some (.reply owed), slot := some owed, queue := [waiting] };
      s.port.queue = ⟨0x02, 8, .ok .getTime⟩ :: []
        ∧ (after .hostFrameSent s).port.slot.map (·.tag) = some 8)
    ∧ (let s := ported fun p => { p with
          out := some (.reply owed), slot := some owed, queue := [⟨0xEE, 8, .badKind⟩] };
      s.port.queue = ⟨0xEE, 8, .badKind⟩ :: []
        ∧ (after .hostFrameSent s).port.slot = some ⟨0xEE, 8, .badKind, []⟩)
    ∧ (let s := ported fun p => { p with
          out := some (.reply owed), slot := some owed, queue := [⟨0x02, 8, .badLength⟩] };
      s.port.queue = ⟨0x02, 8, .badLength⟩ :: []
        ∧ (after .hostFrameSent s).port.slot = some ⟨0x02, 8, .badLength, []⟩)
    ∧ (let s := ported fun p => { p with breakHeld := true };
      s.port.breakHeld = true ∧ (after .breakEnd s).port.breakHeld = false)
    ∧ (let s := ported fun p => { p with slot := some owed, queue := [waiting] };
      s.port.breakHeld = false ∧ (∀ r ∈ s.port.slot, ¬(r.kind = 0x55 ∧ r.code = .ok))
        ∧ (after .hostBreak s).port.queue = []) := by decide +kernel

theorem test_NoticesRaisedAndCleared :
    (⟨true, true, 255, some 1, some 2⟩ : Notice).raise 9 = ⟨true, true, 255, some 1, some 9⟩
    ∧ (⟨false, false, 3, none, none⟩ : Notice).raise 9 = ⟨true, false, 0, some 9, some 9⟩
    ∧ desk.idle = true ∧ 65535 < 65536 ∧ (after (.subscribe 0 65535) desk).port.mask = 65535#16
    ∧ (let s := { ported (fun p => { p with out := some (.notice 4 0 5 5 true) }) with world := rung };
      s.idle = true ∧ s.port.out = some (.notice 4 0 5 5 true)
        ∧ (after (.clearNotices 0 16) s).port.out = some (.notice 4 0 5 5 false)
        ∧ (after (.clearNotices 0 16) s).port.slot = some ⟨0x51, 0, .ok, [0, 1]⟩) := by decide +kernel

/-- The end of RESTART's reply, with player 0 playing. -/
def restarting : State :=
  let r : Reply := ⟨0x55, 0, .ok, []⟩
  let s := timed ⟨2000, 1, 1⟩ 1000 .locked
  { s with world := busy, port := { s.port with out := some (.reply r), slot := some r, mask := 2#16 } }

theorem test_WarmRestartValues : restarting.held = false
    ∧ restarting.port.out = some (.reply ⟨0x55, 0, .ok, []⟩)
    ∧ (after .hostFrameSent restarting).time.state = .free
    ∧ ((after .hostFrameSent restarting).world.bank .a).list.map (·.outcome.progress) = [.aborted]
    ∧ (after .hostFrameSent restarting).lib.openShow = none
    ∧ ((after .hostFrameSent restarting).world.link 0).state = .warming
    ∧ (after .hostFrameSent restarting).lib.free = restarting.lib.free ++ [2]
    ∧ (after .hostFrameSent restarting).port.out = some (.notice 1 0 1000 1000 true)
    ∧ restarting.port.breakHeld = false ∧ restarting.port.slot = some ⟨0x55, 0, .ok, []⟩
    ∧ (after .hostBreak restarting).port.breakHeld = true
    ∧ (after .hostBreak restarting).world.players = World.cold.players
    ∧ (let s := { restarting with reachOpen := true };
      s.reachOpen = true ∧ (after .hostFrameSent s).reachOpen = false)
    ∧ (let s := { restarting with world := (looking true (some ⟨[0], []⟩)).world };
      (after .hostFrameSent s).world.monitor.scan = none
        ∧ ((after .hostFrameSent s).world.monitor.channels.get 0).count = 0
        ∧ (after .hostFrameSent s).world.monitor.ain = s.world.monitor.ain) := by decide +kernel

/-! ## The hypotheses of the statements: the invariants -/

/-- The desk with two claims on zone 0, its links' power as their states have it. -/
def kept : State :=
  { base 5 (lit.onZone 0 fun z => { z with claims := [⟨1, 4, 0, 9, 0⟩, claim1] }) with
    pending := [.tickEvent] }

theorem test_EveryStepKeepsWf : kept.wf ∧ (step kept matches .next _) = true :=
  ⟨⟨by decide +kernel, test_shelf_wf, by decide +kernel⟩, by decide +kernel⟩

theorem test_EveryStepKeepsRanks : kept.ranked ∧ kept.powered := by
  have ranked : ∀ z, (kept.world.zone z).claims.Pairwise (fun x y => x.above y = true)
      ∧ (kept.world.zone z).claims.Pairwise (fun x y => x.player ≠ y.player) := by decide +kernel
  have fits : ∀ l, (kept.world.link l).power = (kept.world.link l).state.powered := by decide +kernel
  exact ⟨ranked, fits⟩

theorem test_EveryStepKeepsPower : (step { kept with pending := [.resetAsserted] } matches .next _) = true
    ∧ kept.powered ∧ ∀ l, ((after .resetAsserted kept).world.link l).power = false :=
  ⟨by decide +kernel, test_EveryStepKeepsRanks.2, by decide +kernel⟩

theorem test_ReplyRoundTrip :
    (⟨.ack, 15, 255, 0, 255, 255, 65535, 65535⟩ : DriverReply).fits true = true
    ∧ (⟨.echo, 15, 0, 255, 255, 255, 0, 65535⟩ : DriverReply).fits false = true
    ∧ (⟨.nak, 0, 15, 0, 0, 0, 0, 0⟩ : DriverReply).fits false = true
    ∧ parseReply true ((⟨.ack, 15, 255, 0, 255, 255, 65535, 65535⟩ : DriverReply).wire true)
      = some ⟨.ack, 15, 255, 0, 255, 255, 65535, 65535⟩ := by decide +kernel

end Sys2Proof.Tests
end

section
/-! SUPPORT. Reading the time (R13). -/

namespace Sys2Proof.Machine

/-! ## Reads and settings of the Time Base -/

/-- GET_TIME's body as the Time Base record gives it. -/
theorem TimeBase.report_eq (t : TimeBase) : t.report = ⟨.ok,
      bigEndian 2 t.date.year ++ [byteOf t.date.month, byteOf t.date.day]
        ++ bigEndian 3 t.tod
        ++ [(match t.state with
            | .unset => 0#8
            | .free => 1#8
            | .locked => 2#8
            | .holdover => 3#8),
          byteOf t.faults, if t.enabled then 1#8 else 0#8,
          match t.polarity with
            | .rising => 0#8
            | .falling => 1#8]
        ++ bigEndian 2 t.silence
        ++ [match t.lastError with
            | none => 0x80#8
            | some e => BitVec.ofInt 8 e]⟩ := by
  obtain ⟨date, tod, state, faults, enabled, polarity, silence, lastError⟩ := t
  cases state <;> cases polarity <;> cases lastError <;> rfl

/-- Settles O9: an idle part serves GET_TIME at once, and the answer is the record's bytes. -/
theorem getTimeAnswersRecord : Obligations.GetTimeAnswersRecord := by
  intro s tag hs
  rw [exec_request_idle s (.getTime tag) tag .getTime rfl hs]
  exact congrArg (fun a => Host.Outcome.next (State.replied 0x02 tag (s, a))) s.time.report_eq
end Sys2Proof.Machine
end

section
/-! SUPPORT. HOLDOVER by pulse silence (R6), and what it leaves of SET_PULSE (R7). -/

namespace Sys2Proof.Machine

namespace State
variable {s : State}

/-- A pulse silence of 300 in LOCKED enters HOLDOVER and raises TIME_STATE (R6, R14). -/
theorem silenceHoldover_due (hl : s.time.state = .locked) (hs : 300 ≤ s.time.silence) :
    s.silenceHoldover = { s with
      time := { s.time with state := .holdover }
      world := { s.world with
        notices := s.world.notices.upd NoticeKind.timeState.no (Notice.raise s.time.civic) } } := by
  unfold silenceHoldover enterTime
  rw [if_pos ⟨hl, hs⟩, if_neg (by rw [hl]; decide)]
  rfl

/-- With no HOLDOVER due nothing is entered. -/
theorem silenceHoldover_none (h : ¬(s.time.state = .locked ∧ 300 ≤ s.time.silence)) :
    s.silenceHoldover = s := if_neg h

end State

/-- Settles O7: the two cases of the event's own test. -/
theorem silenceBringsHoldover : Obligations.SilenceBringsHoldover := by
  intro s hh
  rw [exec_pulseSilenceHoldover, State.event_free _ hh]
  refine ⟨fun hl hs => ?_, fun h => ?_⟩
  · rw [State.silenceHoldover_due hl hs]
  · rw [State.silenceHoldover_none h]

/-- The part after reset with the cold start's notice subscribed: it is idle, its output is FREE, and it
has a notice to send. -/
def unsentNotice : State := { State.reset with port := { State.reset.port with mask := 1#16 } }

theorem unsentNotice_idle : unsentNotice.idle = true := by decide

/-- The notice goes out before SET_PULSE is carried out, although no HOLDOVER is due: the reply waits for it. -/
theorem setPulse_unsentNotice : ∃ t, exec (.setPulse 0 0 0) unsentNotice = .next t
    ∧ t.port.out = some (.notice 0 0 0 0 true) := ⟨_, rfl, by decide⟩

/-- Refutes O10: with no HOLDOVER due, a FREE output that has a notice to send begins it before a SET_PULSE is
carried out, so it is this notice, not the reply, that the output is sending in the state after. -/
theorem not_setPulseSetsRecord : ¬ Obligations.SetPulseSetsRecord := by
  intro h
  obtain ⟨-, -, hset, -⟩ := h unsentNotice 0 0 0 unsentNotice_idle
  obtain ⟨t, ht, hout⟩ := setPulse_unsentNotice
  have heq := ht.symm.trans (hset (by omega) (by omega) (by decide))
  injection heq with heq
  rw [heq] at hout
  exact absurd hout (by decide)
end Sys2Proof.Machine
end

section
/-! SUPPORT. The calendar: the next date, and dates by their numbers (R2). -/

namespace Sys2Proof.Machine

/-! ## The calendar (R2) -/

/-- The lengths of the months of a year, in order. -/
theorem monthDays_year (y : Nat) : (List.range 12).map (fun m => monthDays y (m + 1)) =
    [31, if y % 4 = 0 then 29 else 28, 31, 30, 31, 30, 31, 31, 30, 31, 30, 31] := by
  simp [List.range_succ, monthDays]

theorem monthDays_pos (y m : Nat) : 1 ≤ monthDays y m := by
  unfold monthDays
  split
  · split <;> omega
  · split <;> omega

namespace Date

theorem valid_iff (d : Date) : d.valid = true ↔ 2000 ≤ d.year ∧ d.year ≤ 2099 ∧ 1 ≤ d.month
    ∧ d.month ≤ 12 ∧ 1 ≤ d.day ∧ d.day ≤ monthDays d.year d.month := by
  simp only [valid, Bool.and_eq_true, decide_eq_true_eq, and_assoc]

/-- The days of a month come one after another before the next month's. -/
theorem daysBefore_succ (y m : Nat) (h : 1 ≤ m) :
    daysBefore y (m + 1) = daysBefore y m + monthDays y m := by
  obtain ⟨n, rfl⟩ := Nat.exists_eq_add_of_le' h
  rfl

/-- The days before December: 335 in a leap year, 334 in another. -/
theorem daysBefore_december (y : Nat) : daysBefore y 12 = if y % 4 = 0 then 335 else 334 := by
  by_cases h : y % 4 = 0 <;> simp [daysBefore, monthDays, h]

/-- The date after a valid date that is not the last: the next day of the month, the first of the next month,
or the first of the next year. -/
theorem next_cases {d : Date} (hv : d.valid = true) :
    (d.day < monthDays d.year d.month ∧ d.next = ⟨d.year, d.month, d.day + 1⟩)
    ∨ (d.day = monthDays d.year d.month ∧ d.month < 12 ∧ d.next = ⟨d.year, d.month + 1, 1⟩)
    ∨ (d.day = 31 ∧ d.month = 12 ∧ d.next = ⟨d.year + 1, 1, 1⟩) := by
  obtain ⟨_, _, _, hm, _, hd⟩ := d.valid_iff.mp hv
  unfold next
  by_cases h1 : d.day < monthDays d.year d.month
  · exact .inl ⟨h1, if_pos h1⟩
  · rw [if_neg h1]
    by_cases h2 : d.month < 12
    · exact .inr (.inl ⟨by omega, h2, if_pos h2⟩)
    · have h12 : d.month = 12 := by omega
      rw [h12] at h1 hd
      exact .inr (.inr ⟨by simp [monthDays] at h1 hd; omega, h12, if_neg h2⟩)

/-- The date after a valid date that is not the last is valid. -/
theorem next_valid {d : Date} (hv : d.valid = true) (hl : d ≠ lastDate) : d.next.valid = true := by
  obtain ⟨y0, y1, m0, m1, _, _⟩ := d.valid_iff.mp hv
  rw [valid_iff]
  rcases next_cases hv with ⟨hd, hn⟩ | ⟨_, hm, hn⟩ | ⟨hd, hm, hn⟩ <;> rw [hn] <;> dsimp only
  · omega
  · have := monthDays_pos d.year (d.month + 1)
    omega
  · have hy : d.year ≠ 2099 := fun hy => hl (by cases d; simp_all [lastDate])
    have := monthDays_pos (d.year + 1) 1
    omega

/-- The date after a valid date is one day later. -/
theorem next_number {d : Date} (hv : d.valid = true) : d.next.number = d.number + 1 := by
  obtain ⟨y0, y1, m0, m1, d0, _⟩ := d.valid_iff.mp hv
  rcases next_cases hv with ⟨_, hn⟩ | ⟨hd, _, hn⟩ | ⟨hd, hm, hn⟩ <;> rw [hn] <;> unfold number <;> dsimp only
  · omega
  · rw [daysBefore_succ _ _ m0]
    omega
  · rw [hm, daysBefore_december]
    have h1 : daysBefore (d.year + 1) 1 = 0 := rfl
    split <;> omega

/-- The date after a valid date is 8,640,000 civic ticks later. -/
theorem civic_next {d : Date} (hv : d.valid = true) : civic d.next 0 = civic d 0 + 8640000 := by
  simp only [civic, next_number hv, Config.ticksPerDay]
  omega

/-- The days of a year's months before month `m`, and those of month `m`, lie in the year. -/
theorem daysBefore_mono (y : Nat) {m n : Nat} (hm : 1 ≤ m) (h : m < n) :
    daysBefore y m + monthDays y m ≤ daysBefore y n := by
  induction n, h using Nat.le_induction with
  | base => rw [daysBefore_succ y m hm]
  | succ n hn ih => rw [daysBefore_succ y n (by omega)]; omega

/-- A day of a year is its number within the year. -/
theorem day_lt_year {d : Date} (hv : d.valid = true) :
    daysBefore d.year d.month + (d.day - 1) < if d.year % 4 = 0 then 366 else 365 := by
  obtain ⟨_, _, m0, m1, d0, d1⟩ := d.valid_iff.mp hv
  have h12 := daysBefore_december d.year
  have hdec : monthDays d.year 12 = 31 := rfl
  by_cases hm : d.month = 12
  · rw [hm] at d1 ⊢
    split <;> simp_all <;> omega
  · have := daysBefore_mono d.year m0 (show d.month < 12 by omega)
    split <;> simp_all <;> omega

/-- A date is known by its number of days. -/
theorem number_inj {a b : Date} (ha : a.valid = true) (hb : b.valid = true) (h : a.number = b.number) :
    a = b := by
  have la := day_lt_year ha
  have lb := day_lt_year hb
  obtain ⟨y0, y1, m0, m1, d0, d1⟩ := a.valid_iff.mp ha
  obtain ⟨z0, z1, n0, n1, e0, e1⟩ := b.valid_iff.mp hb
  unfold number at h
  have hy : a.year = b.year := by split at la <;> split at lb <;> omega
  rw [hy] at h d1
  have hm : a.month = b.month := by
    rcases Nat.lt_trichotomy a.month b.month with hlt | heq | hlt
    · have := daysBefore_mono b.year m0 hlt; omega
    · exact heq
    · have := daysBefore_mono b.year n0 hlt; omega
  rw [hm] at h
  obtain ⟨ay, am, ad⟩ := a
  obtain ⟨bz, bm, bd⟩ := b
  simp only at hy hm h d0 e0
  subst hy hm
  congr 1
  omega

/-- No date comes after the last one. -/
theorem number_le_last {d : Date} (hv : d.valid = true) : d.number ≤ lastDate.number := by
  have l := day_lt_year hv
  obtain ⟨y0, y1, -⟩ := d.valid_iff.mp hv
  have hl : lastDate.number = 36524 := by decide
  rw [hl]
  unfold number
  split at l <;> omega

end Date
end Sys2Proof.Machine
end

section
/-! SUPPORT. The tick event on the time (R1, R3, R8). -/

namespace Sys2Proof.Machine

/-! ## Notices raised -/

/-- A kind just raised is pending (R193). -/
theorem Notice.raise_pending (now : Nat) (n : Notice) : (n.raise now).pending = true := by
  unfold Notice.raise
  split
  · assumption
  · rfl

namespace World

/-- A kind just raised is pending. -/
theorem raise_pending (w : World) (e : Env) (k : NoticeKind) :
    ((w.raise e k).notices.get k.no).pending = true := by
  rw [raise, Tab.get_upd_self]
  exact Notice.raise_pending _ _

/-- Raising a kind leaves the other records. -/
theorem raise_other (w : World) (e : Env) {k n : NoticeKind} (h : k.no ≠ n.no) :
    (w.raise e k).notices.get n.no = w.notices.get n.no := Tab.get_upd_ne _ _ h

/-- The day roll raises DAY_ROLL (R46). -/
theorem dayRoll_pending (w : World) (e : Env) (d : Date) :
    ((w.dayRoll e d).notices.get NoticeKind.dayRoll.no).pending = true := by
  have moves : ((w.swapBanks e d).raise e .dayRoll).Moves true (w.dayRoll e d) := (Moves.refl _).autoDark e
  exact moves.raised _ (raise_pending _ e .dayRoll)

/-- Frames begun and a reach opened leave a pending notice pending. -/
theorem pumpAll_openReach_pending (w : World) (e : Env) (k : Fin 16)
    (h : (w.notices.get k).pending = true) : ((w.pumpAll e).openReach.notices.get k).pending = true := by
  have moves : w.Moves true (w.pumpAll e).openReach := ((Moves.refl w).pumpAll e).openReach
  exact moves.raised k h

end World

/-! ## The tick event (R1, R2) -/

namespace State
variable {s : State}

/-- The part with everything due settled and every duration counted once, before the time advances. -/
@[irreducible] def counted (s : State) : State :=
  { s.settle with
    time := { s.settle.time with silence := satUp Config.counterMax s.settle.time.silence }
    world := s.settle.world.tick }

theorem tick_eq (s : State) : s.tick = s.counted.advance := by
  unfold tick counted
  rfl

/-- The advance in UNSET: none. -/
theorem advance_unset (h : s.time.state = .unset) : s.advance = s := if_pos h

/-- The advance within a date. -/
theorem advance_within (h : s.time.state ≠ .unset) (ht : s.time.tod + 1 < 8640000) :
    s.advance = { s with
      time := { s.time with tod := s.time.tod + 1 }
      world := s.world.openReach
      reachOpen := true } := by
  unfold advance
  rw [if_neg h, if_pos ht]

/-- The advance at the end of the last date. -/
theorem advance_last (h : s.time.state ≠ .unset) (ht : s.time.tod + 1 = 8640000)
    (hd : s.time.date = lastDate) : s.advance = s.enterTime .unset := by
  unfold advance
  rw [if_neg h, if_neg (by simp [Config.ticksPerDay, ht]), if_pos hd]

/-- The part at the first tick of the next date, before the day roll. -/
def atNextDate (s : State) : State := { s with time := { s.time with date := s.time.date.next, tod := 0 } }

/-- The advance at the end of another date: the day roll. -/
theorem advance_roll (h : s.time.state ≠ .unset) (ht : s.time.tod + 1 = 8640000)
    (hd : s.time.date ≠ lastDate) : s.advance = { s.atNextDate with
      world := ((s.world.dayRoll s.atNextDate.env s.time.date.next).pumpAll s.atNextDate.env).openReach
      reachOpen := true } := by
  unfold advance
  rw [if_neg h, if_neg (by simp [Config.ticksPerDay, ht]), if_neg hd]
  rfl

/-- A new time state that is a change is raised (R14). -/
theorem enterTime_pending_notice {t : TimeState} (h : s.time.state ≠ t) :
    ((s.enterTime t).world.notices.get NoticeKind.timeState.no).pending = true := by
  unfold enterTime
  rw [if_neg h]
  exact World.raise_pending _ _ .timeState

/-- A HOLDOVER due leaves an unset time unset, and a set one set. -/
theorem silenceHoldover_unset : s.silenceHoldover.time.state = .unset ↔ s.time.state = .unset := by
  rw [silenceHoldover_time]
  dsimp only
  split
  · next h => simp [h.1]
  · exact Iff.rfl

/-- What counting the durations leaves of the Time Base. -/
theorem counted_time (s : State) : s.counted.time = { s.silenceHoldover.time with
    silence := satUp 65535 s.time.silence } := by
  unfold counted
  dsimp only
  rw [(settles s).time, silenceHoldover_time]

theorem counted_lib (s : State) : s.counted.lib = s.lib := by
  unfold counted
  dsimp only
  rw [(settles s).lib]

theorem counted_reachOpen (s : State) : s.counted.reachOpen = false := by
  unfold counted
  dsimp only
  rw [settle_reachOpen]

theorem counted_date (s : State) : s.counted.time.date = s.time.date := by
  rw [counted_time, silenceHoldover_time]

theorem counted_tod (s : State) : s.counted.time.tod = s.time.tod := by
  rw [counted_time, silenceHoldover_time]

theorem counted_state (s : State) : s.counted.time.state = s.silenceHoldover.time.state := by
  rw [counted_time]

theorem counted_unset : s.counted.time.state = .unset ↔ s.time.state = .unset := by
  rw [counted_state, silenceHoldover_unset]

/-- The tick event advances the counted part. -/
theorem exec_tickEvent_free (hh : s.held = false) :
    exec .tickEvent s = .next s.counted.advance.choose := by
  rw [exec_tickEvent, event_free _ hh, tick_eq]

/-- What the advance leaves of the library and of the rest of the Time Base. -/
theorem advance_rest (s : State) : s.advance.lib = s.lib ∧ s.advance.time.silence = s.time.silence
    ∧ s.advance.time.faults = s.time.faults ∧ s.advance.time.enabled = s.time.enabled
    ∧ s.advance.time.polarity = s.time.polarity ∧ s.advance.time.lastError = s.time.lastError := by
  unfold advance
  split
  · exact ⟨rfl, rfl, rfl, rfl, rfl, rfl⟩
  · split
    · exact ⟨rfl, rfl, rfl, rfl, rfl, rfl⟩
    · split
      · simp
      · exact ⟨rfl, rfl, rfl, rfl, rfl, rfl⟩

end State

/-- The Time Base within TABLE 1-1, as propositions. -/
theorem TimeBase.wf_iff (t : TimeBase) : t.wf = true ↔ t.date.valid = true ∧ t.tod < 8640000
    ∧ t.faults ≤ 2 ∧ t.silence ≤ 65535 ∧ (t.lastError.all fun e => -50 ≤ e && e ≤ 49) = true := by
  simp only [wf, Bool.and_eq_true, decide_eq_true_eq, and_assoc]

/-- Settles O5: the calendar by the cases of the next date, and the tick by the four cases of the advance. -/
theorem tickMovesTime : Obligations.TickMovesTime := by
  refine ⟨⟨monthDays_year, fun d hv hl => ⟨d.next_valid hv hl, Date.civic_next hv⟩⟩, fun s hh hw => ?_⟩
  obtain ⟨-, -, -, hsil, -⟩ := s.time.wf_iff.mp hw
  obtain ⟨hlib, hsilence, hfaults, henabled, hpolarity, herror⟩ := s.counted.advance_rest
  refine ⟨_, State.exec_tickEvent_free hh, ?_, ?_, ?_, ?_, ?_, ?_, ?_, ?_, ?_, ?_⟩
  · rw [State.choose_lib, hlib, State.counted_lib]
  · rw [State.choose_time, hsilence, State.counted_time]
    dsimp only
    rw [satUp_min hsil, Nat.min_comm]
  · rw [State.choose_time, hfaults, State.counted_time, State.silenceHoldover_time]
  · rw [State.choose_time, henabled, State.counted_time, State.silenceHoldover_time]
  · rw [State.choose_time, hpolarity, State.counted_time, State.silenceHoldover_time]
  · rw [State.choose_time, herror, State.counted_time, State.silenceHoldover_time]
  · intro hu
    have hc := State.counted_unset.mpr hu
    rw [State.advance_unset hc]
    exact ⟨s.counted_date, s.counted_tod, hc, s.counted_reachOpen⟩
  · intro hu ht
    rw [State.advance_within (mt State.counted_unset.mp hu) (by rwa [s.counted_tod])]
    exact ⟨s.counted_date, congrArg (· + 1) s.counted_tod, s.counted_state, rfl⟩
  · intro hu ht hd
    rw [State.advance_roll (mt State.counted_unset.mp hu) (by rwa [s.counted_tod])
      (by rwa [s.counted_date])]
    exact ⟨congrArg Date.next s.counted_date, rfl, s.counted_state, rfl,
      World.pumpAll_openReach_pending _ _ _ (World.dayRoll_pending _ _ _)⟩
  · intro hu ht hd
    have hc := mt State.counted_unset.mp hu
    rw [State.advance_last hc (by rwa [s.counted_tod]) (by rwa [s.counted_date])]
    refine ⟨?_, ?_, ?_, ?_, State.enterTime_pending_notice hc⟩
    · rw [State.choose_time, State.enterTime_time, ← s.counted_date]
    · rw [State.choose_time, State.enterTime_time, ← s.counted_tod]
    · rw [State.choose_time, State.enterTime_time]
    · rw [State.choose_reachOpen, State.enterTime_reachOpen, s.counted_reachOpen]

end Sys2Proof.Machine
end

section
/-! SUPPORT. The tick event on the durations (R1) and the events it settles (log entry 2). -/

namespace Sys2Proof.Machine

/-! ## The durations of a tick event (R1) -/

/-- One tick event on a back-off: one that stands raised will lapse. -/
theorem BackOff.tick_eq (b : BackOff) : b.tick = if b = .raised then .lapsing else b := by
  cases b <;> rfl

/-- One tick event on an entry's back-off. -/
theorem Entry.tick_backoff (x : Entry) : ({ x with backoff := x.backoff.tick } : Entry)
    = { x with backoff := if x.backoff = .raised then .lapsing else x.backoff } := by
  rw [BackOff.tick_eq]

/-- One tick event on a transfer: the tick counts once the attempt has been sent. -/
theorem Transfer.tick_eq (x : Transfer) : (if x.onWire then x else { x with ticks := x.ticks + 1 })
    = { x with ticks := if x.onWire then x.ticks else x.ticks + 1 } := by
  split <;> rfl

/-- One tick event on a link's durations, field by field (R139 to R141). -/
theorem Link.tick_eq (f : Fin 16 → Bool) (k : Link) : k.tick f = { k with
    timer := (match k.state with
      | .warming => satUp 500 k.timer
      | .quiescing => satUp 500 k.timer
      | .faulted => satUp 500 k.timer
      | _ => k.timer)
    transfer := k.transfer.map fun x => { x with ticks := if x.onWire then x.ticks else x.ticks + 1 }
    errors := k.errors.map (· + 1)
    stage := k.stage.map fun x =>
      { x with backoff := if x.backoff = .raised then .lapsing else x.backoff }
    drivers := (k.tick f).drivers } := by
  unfold Link.tick
  simp only [Transfer.tick_eq, Entry.tick_backoff]
  cases k.state <;> rfl

/-- One tick event on a driver's durations, field by field (R146, R148, R150). -/
theorem Driver.tick_eq (c : Bool) (d : Driver) : d.tick c = { d with
    quiet := satUp 65535 d.quiet
    backoff := if d.backoff = .raised then .lapsing else d.backoff
    poll := if c ∧ d.lost then satUp 100 d.poll else d.poll } := by
  unfold Driver.tick
  rw [BackOff.tick_eq]
  simp only [Bool.and_eq_true]

/-- One tick event on the monitor of a part that is not PARKED: at the end of its period a scan is due (R163). -/
theorem Monitor.tick_running (m : Monitor) {s : OpState} (h : s ≠ .parked) :
    if s.period ≤ m.timer + 1 then m.tick s = { m with timer := 0, scanDue := true }
    else m.tick s = { m with timer := m.timer + 1 } := by
  unfold Monitor.tick
  rw [if_neg h]
  split <;> rfl

/-- One tick event leaves the channels. -/
theorem Monitor.tick_channels (m : Monitor) (s : OpState) : (m.tick s).channels = m.channels := by
  unfold Monitor.tick
  split
  · rfl
  · split <;> rfl

namespace World

/-- One tick event on the monitor, by the operating state's scan period (R163). -/
theorem tick_monitor (w : World) :
    let due := match w.ctl.state with
      | .parked => none
      | .dark => some 100
      | .active => some 10
    match due with
      | none => w.tick.monitor = w.monitor
      | some n =>
        if n ≤ w.monitor.timer + 1 then w.tick.monitor = { w.monitor with timer := 0, scanDue := true }
        else w.tick.monitor = { w.monitor with timer := w.monitor.timer + 1 } := by
  have hm : w.tick.monitor = w.monitor.tick w.ctl.state := rfl
  rw [hm]
  cases w.ctl.state with
  | parked => rfl
  | dark => exact w.monitor.tick_running (show OpState.dark ≠ .parked by decide)
  | active => exact w.monitor.tick_running (show OpState.active ≠ .parked by decide)

theorem tick_link (w : World) (l : Fin 4) : w.tick.link l = (w.link l).tick (w.configured l) :=
  Tab.get_ofFn _ l

/-- One tick event on a driver of a link. -/
theorem tick_driver (w : World) (l : Fin 4) (a : Fin 16) :
    (w.tick.link l).drivers.get a = (w.driver l a).tick (w.configured l a) := by
  rw [tick_link]
  exact Tab.get_ofFn _ a

/-- A reach opened changes no player but for the mark of an amended end cut. -/
theorem openReach_player (w : World) (p : Fin 8) :
    w.openReach.player p = { w.player p with cutFresh := false } := Tab.get_map _ _ p

end World

namespace State
variable {s : State}

/-- What settling does, in the order of log entry 2. -/
theorem settle_eq (s : State) :
    let links := (upTo 4).foldl (fun u l =>
      ({ u with world :=
          let aged := (u.world.errorsAge l).each (upTo 16) fun a v => v.backoffExpiry l a
          ((((aged.timeout u.env l).warmUpEnd u.env l).restEnd u.env l).quiesceEnd l).pump u.env l }
        : State).choose) s.silenceHoldover.choose
    let scans := (upTo 4).foldl (fun u _ => u.convertFreely.choose) links.scanFreely.choose
    s.settle = ({ scans with world := (scans.world.guardExpiry scans.env).pumpAll scans.env }
      : State).choose.closeReach.choose := by
  unfold settle
  rfl

/-- An advance that brings no day roll changes no block but the players' marks of an amended end cut. -/
theorem advance_blocks (h : s.time.state = .unset ∨ s.time.tod + 1 < 8640000) :
    s.advance.world = { s.world with players := s.advance.world.players }
    ∧ ∀ p, { s.advance.world.player p with cutFresh := (s.world.player p).cutFresh }
      = s.world.player p := by
  by_cases hu : s.time.state = .unset
  · rw [advance_unset hu]
    exact ⟨rfl, fun _ => rfl⟩
  · rw [advance_within hu (h.resolve_left hu)]
    exact ⟨rfl, fun p => by dsimp only; rw [World.openReach_player]⟩

theorem counted_world (s : State) : s.counted.world = s.settle.world.tick := by
  unfold counted
  rfl

end State

/-- Settles O6: the counted part is the settled one with every duration ticked, and an advance without a day
roll leaves its blocks. -/
theorem tickRunsDurations : Obligations.TickRunsDurations := by
  refine ⟨State.settle_eq, fun s hh ht => ?_⟩
  have hc : s.counted.time.state = .unset ∨ s.counted.time.tod + 1 < 8640000 := by
    rw [State.counted_unset, State.counted_tod]
    exact ht
  obtain ⟨hw, hp⟩ := State.advance_blocks hc
  rw [State.counted_world] at hw hp
  refine ⟨_, State.exec_tickEvent_free hh, ?_, ?_⟩
  · rw [State.choose_lib, s.counted.advance_rest.1, State.counted_lib]
  · rw [State.choose_world]
    generalize s.settle.world = v at hw hp ⊢
    refine ⟨by rw [hw]; rfl, by rw [hw]; rfl, by rw [hw]; rfl, by rw [hw]; rfl, hp, by rw [hw]; rfl,
      ?_, ?_, fun l => ?_⟩
    · rw [hw]
      exact v.monitor.tick_channels _
    · rw [hw]
      exact v.tick_monitor
    · have hl : s.counted.advance.world.link l = v.tick.link l := by rw [hw]; rfl
      refine ⟨(v.tick.link l).drivers, ?_, fun a => ?_⟩
      · rw [hl, World.tick_link]
        exact Link.tick_eq _ _
      · rw [World.tick_driver, Driver.tick_eq]
        rfl

end Sys2Proof.Machine
end

section
/-! SUPPORT. The warm restart block by block (R186), and the two events that end in it (R191, R192). -/

namespace Sys2Proof.Machine

/-! ## The blocks after a warm restart -/

/-- A booking's outcome after a warm restart, by its progress (R59). -/
theorem World.warmEntry_eq (w : World) (now : Nat) (bk : Bank) (x : BankEntry) :
    w.warmEntry now bk x = { x with
      armHeld := true
      outcome :=
        let aborted := { x.outcome with
          progress := .aborted
          abrupt := true
          endTick := some now
          counters := match w.playerOf bk x.booking.id with
            | some p => (w.player p).counters
            | none => x.outcome.counters }
        match x.outcome.progress with
          | .waitlisted => { x.outcome with progress := .pending }
          | .armed => { x.outcome with progress := .pending }
          | .waiting => aborted
          | .running => aborted
          | .held => aborted
          | .ending => aborted
          | _ => x.outcome } := by
  obtain ⟨booking, ⟨progress, abrupt, first, last, counters⟩, armHeld⟩ := x
  cases progress <;> rfl

namespace Library

variable (lib : Library)

theorem warm_looks : lib.warm.looks = lib.looks := by
  unfold warm
  split <;> rfl

theorem warm_openShow : lib.warm.openShow = none := by
  unfold warm
  split
  · assumption
  · next i h => exact if_pos (.inl h)

theorem warm_free : lib.warm.free = (match lib.openShow with
    | none => lib.free
    | some n => lib.free ++ (lib.showRec n).blocks) := by
  unfold warm
  cases lib.openShow <;> rfl

/-- A show cleared is blank, and the others stay. -/
theorem clearShow_showRec (i n : Fin 32) :
    (lib.clearShow i).showRec n = if i = n then ShowRec.blank else lib.showRec n := Tab.get_upd _ _ _ _

theorem warm_showRec (n : Fin 32) :
    lib.warm.showRec n = if lib.openShow = some n then ShowRec.blank else lib.showRec n := by
  unfold warm
  cases h : lib.openShow with
  | none => rfl
  | some i => simp only [clearShow_showRec, Option.some.injEq]

end Library

/-! ## The output after a warm restart -/

theorem warmNotices_self (now : Nat) : (warmNotices now).get NoticeKind.warmRestart.no
    = ⟨true, false, 0, some now, some now⟩ := Tab.get_set_self _ _ _

theorem warmNotices_other (now : Nat) {k : Fin 16} (h : k ≠ NoticeKind.warmRestart.no) :
    (warmNotices now).get k = ⟨false, false, 0, none, none⟩ :=
  (Tab.get_set_ne _ _ (Ne.symm h)).trans (Tab.get_fill _ _)

/-- WARM_RESTART is the one kind that a warm restart leaves to be sent, when it is subscribed. -/
theorem nextNotice_warm (mask : BitVec 16) (now : Nat) :
    nextNotice mask (warmNotices now) = if mask.getLsbD 1 then some 1 else none := by
  have only : (fun k : Fin 16 => ((warmNotices now).get k).pending && !((warmNotices now).get k).sent
      && mask.getLsbD k.val) = fun k => k == 1 && mask.getLsbD 1 := by
    funext k
    by_cases h : k = 1
    · subst h
      rw [show (1 : Fin 16) = NoticeKind.warmRestart.no from rfl, warmNotices_self]
      rfl
    · rw [warmNotices_other now h]
      simp [h]
  unfold nextNotice
  rw [only]
  cases mask.getLsbD 1 <;> rfl

/-- The frame that the output begins after a warm restart. -/
theorem Port.choose_warm (p : Port) (now : Nat) : p.warm.choose (warmNotices now) = { p.warm with
    out := if p.mask.getLsbD 1 then some (.notice 1 0 now now true) else none } := by
  have hc : p.warm.choose (warmNotices now) = { p.warm with
      out := (nextNotice p.mask (warmNotices now)).map (noticeFrame (warmNotices now)) } := rfl
  rw [hc, nextNotice_warm]
  cases p.mask.getLsbD 1 <;> rfl

/-! ## The two events that end in a warm restart -/

namespace State

variable {s : State}

/-- The part after a warm restart, its port being `p` before it. -/
def restarted (s : State) (p : Port) : State :=
  { s.closeReach with
    time := s.time.warm
    lib := s.lib.warm
    world := s.closeReach.world.warm s.time.civic
    port := p.warm }

theorem closeReach_time (s : State) : s.closeReach.time = s.time := by
  by_cases h : s.reachOpen = true
  · rw [closeReach_open h]
  · rw [closeReach_shut (eq_false_of_ne_true h)]

theorem closeReach_lib (s : State) : s.closeReach.lib = s.lib := by
  by_cases h : s.reachOpen = true
  · rw [closeReach_open h]
  · rw [closeReach_shut (eq_false_of_ne_true h)]

/-- Acting on an open reach does not depend on the port. -/
theorem closeReach_withPort (s : State) (p : Port) :
    { s with port := p }.closeReach = { s.closeReach with port := p } := by
  by_cases h : s.reachOpen = true
  · have env : State.env { s with port := p } = s.env := rfl
    rw [closeReach_open h, closeReach_open (by exact h), env]
  · rw [closeReach_shut (eq_false_of_ne_true h), closeReach_shut (by exact eq_false_of_ne_true h)]

/-- A warm restart does not depend on the port. -/
theorem warmRestart_withPort (s : State) (p : Port) :
    { s with port := p }.warmRestart = s.restarted p := by
  unfold warmRestart restarted
  rw [closeReach_withPort]
  dsimp only
  rw [closeReach_time, closeReach_lib]

/-- The end of RESTART's OK reply. -/
theorem hostFrameSent_restart {tag : Nat} {body : List Byte}
    (h : s.port.out = some (.reply ⟨0x55, tag, .ok, body⟩)) :
    s.hostFrameSent = (s.restarted { s.port with out := none, slot := none }).choose := by
  unfold hostFrameSent
  rw [h, ← warmRestart_withPort]
  rfl

/-- A break that discards RESTART's OK reply. -/
theorem hostBreak_restart {tag : Nat} {body : List Byte} (hb : s.port.breakHeld = false)
    (h : s.port.slot = some ⟨0x55, tag, .ok, body⟩) :
    s.hostBreak = (s.restarted { s.port with
      rx := .hunt, queue := [], overruns := [], slot := none, out := none, breakHeld := true }).choose := by
  simp only [hostBreak, hb, h, Bool.false_eq_true, if_false]
  rw [← warmRestart_withPort]
  rfl

/-- The port that a warm restart leaves, once the output has begun a frame. -/
theorem restarted_choose_port (s : State) (p : Port) : (s.restarted p).choose.port = { p.warm with
    out := if p.mask.getLsbD 1 then some (.notice 1 0 s.time.civic s.time.civic true) else none } :=
  p.choose_warm s.time.civic

/-- The event at which a warm restart is made answers the restarted part, the break being the one that holds
the line. -/
theorem exec_restart {i : Instr} {tag : Nat} {body : List Byte} (hh : s.held = false)
    (h : (i = .hostFrameSent ∧ s.port.out = some (.reply ⟨0x55, tag, .ok, body⟩))
      ∨ (i = .hostBreak ∧ s.port.breakHeld = false ∧ s.port.slot = some ⟨0x55, tag, .ok, body⟩)) :
    ∃ p, exec i s = .next (s.restarted p).choose ∧ p.mask = s.port.mask
      ∧ p.warm = { s.port.warm with breakHeld := s.port.breakHeld || i == .hostBreak } := by
  rcases h with ⟨rfl, h⟩ | ⟨rfl, hb, h⟩
  · refine ⟨{ s.port with out := none, slot := none }, ?_, rfl, ?_⟩
    · rw [exec_hostFrameSent, event_free _ hh, hostFrameSent_restart h, choose_choose]
    · rw [show (Instr.hostFrameSent == Instr.hostBreak) = false from rfl, Bool.or_false]
      rfl
  · refine ⟨{ s.port with
      rx := .hunt, queue := [], overruns := [], slot := none, out := none, breakHeld := true }, ?_, rfl, ?_⟩
    · rw [exec_hostBreak, event_free _ hh, hostBreak_restart hb h, choose_choose]
    · rw [show (Instr.hostBreak == Instr.hostBreak) = true from rfl, Bool.or_true]
      rfl

end State

/-- Settles O55: both events leave the restarted part, which is read field by field. -/
theorem warmRestartValues : Obligations.WarmRestartValues := by
  intro s i tag body hh hi u
  obtain ⟨p, hexec, hmask, hport⟩ := State.exec_restart hh hi
  refine ⟨_, hexec, s.closeReach_reachOpen, rfl, s.lib.warm_looks, s.lib.warm_openShow, s.lib.warm_free,
    s.lib.warm_showRec, fun _ => Tab.get_fill _ _, rfl, rfl, fun bk => ?_, fun _ => Tab.get_map _ _ _, rfl,
    fun l => ?_, fun _ => Tab.get_map _ _ _, rfl, rfl, rfl, rfl, rfl, rfl, rfl, rfl, rfl, rfl,
    fun _ => Tab.get_fill _ _, rfl, fun _ => Tab.get_map _ _ _, warmNotices_self _,
    fun _ hk => warmNotices_other _ hk, ?_⟩
  · cases bk <;> exact ⟨rfl, rfl, List.map_congr_left fun x _ => u.world.warmEntry_eq _ _ x⟩
  · have link : (u.world.warm s.time.civic).link l = (u.world.link l).warm := Tab.get_map _ _ _
    have driver (a : Fin 16) : (u.world.warm s.time.civic).driver l a = Driver.cold := by
      unfold World.driver
      rw [link]
      exact Tab.get_fill _ _
    have hw : (s.restarted p).choose.world = u.world.warm s.time.civic := rfl
    rw [hw]
    simp only [link, driver]
    exact ⟨rfl, rfl, rfl, rfl, rfl, rfl, rfl, rfl, fun _ => Tab.get_fill _ _, rfl, rfl, rfl, rfl, rfl,
      fun _ => rfl⟩
  · rw [State.restarted_choose_port, hport, hmask]
    rfl

end Sys2Proof.Machine
end

section
/-! SUPPORT. The dark test and its moments (R177, R178), what entering DARK leaves of the blocks (R179), and
a DATE SET (R47). -/

namespace Sys2Proof.Machine

/-- Some record passes a test just where the record of some number does. -/
theorem Tab.any_iff {α : Type} {n : Nat} (t : Tab α n) (p : α → Bool) :
    t.any p = true ↔ ∃ i, p (t.get i) = true := by
  rw [Tab.any, List.any_eq_true]
  constructor
  · rintro ⟨x, hx, hp⟩
    obtain ⟨i, hi, rfl⟩ := List.mem_iff_getElem.mp hx
    exact ⟨⟨i, t.len ▸ hi⟩, hp⟩
  · rintro ⟨i, hp⟩
    exact ⟨t.get i, List.getElem_mem _, hp⟩

namespace World

variable (w : World) (e : Env)

/-! ## The dark test (R177) -/

theorem allFree_iff : w.allFree = true ↔ ¬∃ p, (w.player p).state ≠ .free := by
  rw [allFree, Bool.not_eq_true', ← Bool.not_eq_true, Tab.any_iff]
  simp only [bne_iff_ne]
  rfl

/-- Conditions 2 to 4 of the dark test, in order. -/
theorem darkTest_eq : w.darkTest e =
    if ∃ p, (w.player p).state ≠ .free then DarkResult.players
    else if w.plans.wait ≠ [] then .waitList
    else if w.pendingBy (e.now + 60000) = true then .bookingSoon
    else .entered := by
  unfold darkTest
  have free : ((!w.allFree) = true) ↔ ∃ p, (w.player p).state ≠ .free := by
    rw [Bool.not_eq_true', ← Bool.not_eq_true, allFree_iff, not_not]
  have wait : ((!w.plans.wait.isEmpty) = true) ↔ w.plans.wait ≠ [] := by
    rw [Bool.not_eq_true', ← Bool.not_eq_true, List.isEmpty_iff]
  simp only [free, wait]

/-- Has the ACTIVE bank a PENDING booking that starts at most 6,000 ticks after a tick (R37, R177)? -/
theorem pendingBy_iff (tick : Nat) : w.pendingBy tick = true ↔ ∃ bk, w.activeBank = some bk
    ∧ ∃ x ∈ (w.bank bk).list, x.outcome.progress = .pending
      ∧ civic (w.bank bk).date x.booking.start ≤ tick + 6000 := by
  unfold pendingBy
  cases h : w.activeBank with
  | none => simp
  | some bk =>
    simp only [List.any_eq_true, Bool.and_eq_true, beq_iff_eq, decide_eq_true_eq, Option.some.injEq,
      exists_eq_left']
    rfl

/-- With auto-dark OFF or the part not ACTIVE no dark test is made (R178; log entry 13). -/
theorem autoDark_none (h : w.ctl.auto = false ∨ w.ctl.state ≠ .active) : w.autoDark e = w := by
  unfold autoDark
  rw [if_neg]
  rintro ⟨ha, hs⟩
  rcases h with h | h
  · rw [h] at ha; cases ha
  · exact h hs

/-- A dark test that fails is recorded (R177). -/
theorem autoDark_failed (ha : w.ctl.auto = true) (hs : w.ctl.state = .active)
    (h : w.darkTest e ≠ .entered) : w.autoDark e = w.recordTest e (w.darkTest e) := by
  unfold autoDark
  rw [if_pos ⟨ha, hs⟩, if_neg h]

/-- A dark test that passes is recorded and enters DARK (R178, R179). -/
theorem autoDark_entered (ha : w.ctl.auto = true) (hs : w.ctl.state = .active)
    (h : w.darkTest e = .entered) : w.autoDark e = (w.recordTest e .entered).enterDark e .auto := by
  unfold autoDark
  rw [if_pos ⟨ha, hs⟩, h, if_pos rfl]

/-! ## Entering DARK (R179) -/

/-- A quiesce order changes the links and the notices alone. -/
theorem quiesceOrder_rest (l : Fin 4) : w.quiesceOrder e l =
    { w with links := (w.quiesceOrder e l).links, notices := (w.quiesceOrder e l).notices } := by
  unfold quiesceOrder
  split <;> rfl

/-- The state of each link after a quiesce order to one. -/
theorem quiesceOrder_state (l m : Fin 4) : ((w.quiesceOrder e l).link m).state =
    if l = m ∧ (w.link m).state = .up then .quiescing else (w.link m).state := by
  unfold quiesceOrder
  by_cases h : (w.link l).state = .up
  · rw [if_pos h]
    simp only [enterQuiescing, enterLink, onLink_link, raise_link]
    by_cases hm : l = m
    · subst hm; simp [h]
    · simp [hm]
  · rw [if_neg h, if_neg]
    rintro ⟨rfl, hm⟩
    exact h hm

/-- Quiesce orders to several links change the links and the notices alone. -/
theorem quiesceEach_rest (ls : List (Fin 4)) : w.each ls (World.quiesceOrder e) =
    { w with
      links := (w.each ls (World.quiesceOrder e)).links
      notices := (w.each ls (World.quiesceOrder e)).notices } := by
  induction ls generalizing w with
  | nil => rfl
  | cons l ls ih =>
    rw [each_cons, ih, quiesceOrder_rest]

/-- Quiesce orders to several links put those of them that are UP into QUIESCING. -/
theorem quiesceEach_state (ls : List (Fin 4)) (m : Fin 4) :
    ((w.each ls (World.quiesceOrder e)).link m).state =
      if m ∈ ls ∧ (w.link m).state = .up then .quiescing else (w.link m).state := by
  induction ls generalizing w with
  | nil => simp
  | cons l ls ih =>
    rw [each_cons, ih, quiesceOrder_state]
    by_cases hu : (w.link m).state = .up
    · by_cases hl : l = m
      · subst hl; simp [hu]
      · simp [hu, hl, Ne.symm hl]
    · simp [hu]

/-- Entering DARK is the change of state (R176) and the quiesce orders, which change no other block. -/
theorem enterDark_ctl (c : ChangeCause) : (w.enterDark e c).ctl =
    { w.ctl with state := .dark, guard := 0, lastChange := some ⟨e.now, .dark, c⟩ } := by
  unfold enterDark
  rw [quiesceEach_rest]
  rfl

theorem enterDark_plans (c : ChangeCause) : (w.enterDark e c).plans = w.plans := by
  unfold enterDark
  rw [quiesceEach_rest]
  rfl

theorem enterDark_players (c : ChangeCause) : (w.enterDark e c).players = w.players := by
  unfold enterDark
  rw [quiesceEach_rest]
  rfl

theorem enterDark_zones (c : ChangeCause) : (w.enterDark e c).zones = w.zones := by
  unfold enterDark
  rw [quiesceEach_rest]
  rfl

theorem enterDark_monitor (c : ChangeCause) : (w.enterDark e c).monitor = w.monitor := by
  unfold enterDark
  rw [quiesceEach_rest]
  rfl

/-- Entering DARK puts every link that is UP into QUIESCING. -/
theorem enterDark_link (c : ChangeCause) (l : Fin 4) : ((w.enterDark e c).link l).state =
    if (w.link l).state = .up then .quiescing else (w.link l).state := by
  unfold enterDark
  rw [quiesceEach_state]
  simp only [List.mem_finRange, true_and]
  rfl

/-- Entering DARK raises OPERATING_STATE (R176). -/
theorem enterDark_pending (c : ChangeCause) :
    ((w.enterDark e c).notices.get NoticeKind.operatingState.no).pending = true := by
  have kept : (w.changeState e .dark c).Kept (w.enterDark e c) :=
    (Kept.refl _).each _ _ fun l _ hv => hv.quiesceOrder e l
  exact kept.raised _ (World.raise_pending _ e .operatingState)

/-! ## The moments of the dark test (R178) -/

theorem reportOn_wait (p : Fin 8) (f : Report → Report) : (w.reportOn p f).plans.wait = w.plans.wait := by
  unfold reportOn
  split
  · rfl
  · exact onBank_wait _ _ _

/-- A release of a zone leaves the plans. -/
theorem releaseZone_plans (p : Fin 8) (z : Fin 64) : (w.releaseZone e p z).plans = w.plans := by
  unfold releaseZone
  dsimp only
  split
  · rfl
  · split
    · rfl
    · split
      · exact ((Kept.refl _).fallbackTake e z).plans
      · exact ((Kept.refl _).gain e z).plans

/-- A RELEASE leaves the wait list, up to the player's becoming FREE. -/
theorem endBooking_wait (p : Fin 8) (final : Progress) (abrupt : Bool) :
    (w.endBooking e p final abrupt).plans.wait = w.plans.wait := by
  unfold endBooking
  dsimp only
  rw [onPlayer_plans, raise_plans, reportOn_wait]
  split
  · rfl
  · refine congrArg Plans.wait (each_induct (fun v => v.plans = w.plans) _ (fun z v hv => ?_) _ _ ?_)
    · exact (releaseZone_plans v e p z).trans hv
    · exact ((Kept.refl w).withdrawPlayer e p).plans

/-- With no booking waiting, a player's end brings the dark test at once. -/
theorem finish_unwaited (p : Fin 8) (final : Progress) (abrupt : Bool) (h : w.plans.wait = []) :
    w.finish e p final abrupt = (w.endBooking e p final abrupt).autoDark e := by
  unfold finish freed
  rw [endBooking_wait, h]
  rfl

/-- A DATE SET to the date of the plan in force: the dark test alone (R47). -/
theorem dateSet_inForce (d : Date) (h : ∃ bk, w.activeBank = some bk ∧ (w.bank bk).date = d) :
    w.dateSet e d = w.autoDark e := by
  obtain ⟨bk, hb, hd⟩ := h
  unfold dateSet
  rw [hb]
  exact congrArg (World.autoDark e) (if_pos hd)

/-- Another DATE SET: the swap or lapse, then the dark test (R47). -/
theorem dateSet_swap (d : Date) (h : ∀ bk, w.activeBank = some bk → (w.bank bk).date ≠ d) :
    w.dateSet e d = (w.swapBanks e d).autoDark e := by
  unfold dateSet
  cases hb : w.activeBank with
  | none => rfl
  | some bk => exact congrArg (World.autoDark e) (if_neg (h bk hb))

/-! ## The dark-guard timer (R178) -/

/-- The timer's expiry starts it anew and makes the dark test. -/
theorem guardExpiry_due (hs : w.ctl.state = .active) (hg : 6000 ≤ w.ctl.guard) :
    w.guardExpiry e = { w with ctl := { w.ctl with guard := 0 } }.autoDark e := if_pos ⟨hs, hg⟩

end World

/-- The dark guard's command in the two cases of its own test. -/
theorem exec_darkGuardExpiry_not_due {s : State} (hh : s.held = false)
    (h : ¬(s.world.ctl.state = .active ∧ 6000 ≤ s.world.ctl.guard)) :
    exec .darkGuardExpiry s = .next s.choose := by
  rw [exec_darkGuardExpiry]
  refine State.dueEvent_not_due _ _ hh (eq_false_of_ne_true fun hd => h ?_)
  simpa only [Bool.and_eq_true, beq_iff_eq, decide_eq_true_eq] using hd

theorem exec_darkGuardExpiry_due {s : State} (hh : s.held = false) (hs : s.world.ctl.state = .active)
    (hg : 6000 ≤ s.world.ctl.guard) : ∃ t, exec .darkGuardExpiry s = .next t
      ∧ s.After ({ s.world with ctl := { s.world.ctl with guard := 0 } }.autoDark s.env) t := by
  rw [exec_darkGuardExpiry, ← World.guardExpiry_due s.world s.env hs hg]
  exact State.dueEvent_after _ _ hh (by simp [hs, hg, Config.darkGuardPeriod])

/-- A release point that leaves no booking waiting: the player's end, then the dark test (R85, R178). -/
theorem exec_releasePoint_unwaited {s : State} {p : Fin 8} {cause : EndCause} (hh : s.held = false)
    (hr : s.reachOpen = true) (hp : s.env.firstPoint (s.world.player p) = some .release)
    (hc : (s.world.player p).cause = some cause) (hw : s.world.plans.wait = []) :
    ∃ t, exec (.releasePoint p) s = .next t
      ∧ s.After ((s.world.endBooking s.env p cause.progress false).autoDark s.env) t := by
  have hact : s.world.act s.env p .release
      = (s.world.endBooking s.env p cause.progress false).autoDark s.env := by
    rw [← s.world.finish_unwaited s.env p _ _ hw]
    unfold World.act
    rw [hc]
    rfl
  rw [exec_releasePoint, ← hact]
  exact State.dueEvent_after _ _ hh (by simp [hr, hp])

/-- Settles O48: the moments of the dark test, the release point, and the dark guard by the outcomes of the
test. -/
theorem darkGuardMakesTest : Obligations.DarkGuardMakesTest := by
  refine ⟨fun w e p final abrupt d => ?_, fun s p cause hh hr hp hc hw =>
    exec_releasePoint_unwaited hh hr hp hc hw, fun s hh => ?_⟩
  · intro result tested
    have test : w.darkTest e = result := w.darkTest_eq e
    refine ⟨w.autoDark_none e, fun ha hs hr => ?_, fun ha hs hr => ?_, ⟨rfl, w.finish_unwaited e p final abrupt⟩,
      rfl, w.dateSet_inForce e d, w.dateSet_swap e d⟩
    · rw [w.autoDark_failed e ha hs (test ▸ hr), test]
      rfl
    · rw [w.autoDark_entered e ha hs (test ▸ hr), ← hr]
      rfl
  · intro w result reset
    have test : reset.darkTest s.env = result := reset.darkTest_eq s.env
    have due (hs : w.ctl.state = .active) (hg : 6000 ≤ w.ctl.guard) :
        ∃ t, exec .darkGuardExpiry s = .next t ∧ s.After (reset.autoDark s.env) t :=
      exec_darkGuardExpiry_due hh hs hg
    refine ⟨w.pendingBy_iff, exec_darkGuardExpiry_not_due hh, fun hs hg ha => ?_, fun hs hg ha hr => ?_,
      fun hs hg ha hr => ?_⟩
    · rw [← reset.autoDark_none s.env (.inl ha)]
      exact due hs hg
    · have failed := reset.autoDark_failed s.env ha hs (test ▸ hr)
      rw [test] at failed
      have after := due hs hg
      rw [failed] at after
      exact after
    · intro tested v
      have entered : reset.autoDark s.env = v := reset.autoDark_entered s.env ha hs (test ▸ hr)
      exact ⟨entered ▸ due hs hg, tested.enterDark_ctl s.env .auto, tested.enterDark_pending s.env .auto,
        tested.enterDark_plans s.env .auto, tested.enterDark_players s.env .auto,
        tested.enterDark_zones s.env .auto, tested.enterDark_monitor s.env .auto,
        tested.enterDark_link s.env .auto⟩

end Sys2Proof.Machine
end

section
/-! SUPPORT. Steps of the time (R8, R9), and what follows a step or a setting: the time state entered and the
notices it raises (R14). -/

namespace Sys2Proof.Machine

/-! ## Forward steps (R8) -/

/-- The Time Base `n` ticks on: within its date, at the last tick of the range, or past midnight. -/
def TimeBase.forward (n : Nat) (t : TimeBase) : TimeBase :=
  if n = 0 then t
  else if t.tod + n < 8640000 then { t with tod := t.tod + n }
  else if t.date = lastDate then { t with tod := 8639999 }
  else { t with date := t.date.next, tod := t.tod + n - 8640000 }

theorem TimeBase.forward_within {t : TimeBase} {n : Nat} (h : t.tod + n < 8640000) :
    t.forward n = { t with tod := t.tod + n } := by
  unfold forward
  by_cases hn : n = 0
  · subst hn; rfl
  · rw [if_neg hn, if_pos h]

theorem TimeBase.forward_last {t : TimeBase} {n : Nat} (hn : n ≠ 0) (h : 8640000 ≤ t.tod + n)
    (hd : t.date = lastDate) : t.forward n = { t with tod := 8639999 } := by
  unfold forward
  rw [if_neg hn, if_neg (by omega), if_pos hd]

theorem TimeBase.forward_over {t : TimeBase} {n : Nat} (hn : n ≠ 0) (h : 8640000 ≤ t.tod + n)
    (hd : t.date ≠ lastDate) :
    t.forward n = { t with date := t.date.next, tod := t.tod + n - 8640000 } := by
  unfold forward
  rw [if_neg hn, if_neg (by omega), if_neg hd]

/-- A forward step changes the date and the time of day alone. -/
theorem TimeBase.forward_eq (n : Nat) (t : TimeBase) :
    t.forward n = { t with date := (t.forward n).date, tod := (t.forward n).tod } := by
  unfold forward
  split
  · rfl
  · split
    · rfl
    · split <;> rfl

/-- A reach at NOW acted on by every block, the links then choosing their frames. -/
def World.reached (e : Env) (w : World) : World := (w.openReach.reach e).pumpAll e

/-- The blocks after a forward step of `n` ticks from a time of day of a date: the reaches that it makes. -/
def World.forward (lib : Library) (d : Date) (tod n : Nat) (w : World) : World :=
  if n = 0 then w
  else if tod + n < 8640000 then w.reached ⟨civic d (tod + n), lib⟩
  else if d = lastDate then w.reached ⟨civic d 8639999, lib⟩
  else ((w.reached ⟨civic d 8639999, lib⟩).dayRoll ⟨civic d.next (tod + n - 8640000), lib⟩ d.next).reached
    ⟨civic d.next (tod + n - 8640000), lib⟩

theorem World.forward_within (lib : Library) (d : Date) {tod n : Nat} (w : World) (hn : n ≠ 0)
    (h : tod + n < 8640000) : w.forward lib d tod n = w.reached ⟨civic d (tod + n), lib⟩ := by
  unfold forward
  rw [if_neg hn, if_pos h]

theorem World.forward_last (lib : Library) {d : Date} {tod n : Nat} (w : World) (hn : n ≠ 0)
    (h : 8640000 ≤ tod + n) (hd : d = lastDate) :
    w.forward lib d tod n = w.reached ⟨civic d 8639999, lib⟩ := by
  unfold forward
  rw [if_neg hn, if_neg (by omega), if_pos hd]

theorem World.forward_over (lib : Library) {d : Date} {tod n : Nat} (w : World) (hn : n ≠ 0)
    (h : 8640000 ≤ tod + n) (hd : d ≠ lastDate) : w.forward lib d tod n =
      ((w.reached ⟨civic d 8639999, lib⟩).dayRoll ⟨civic d.next (tod + n - 8640000), lib⟩ d.next).reached
        ⟨civic d.next (tod + n - 8640000), lib⟩ := by
  unfold forward
  rw [if_neg hn, if_neg (by omega), if_neg hd]

namespace State

variable (s : State)

/-- A forward step changes the Time Base and the blocks alone, by the date, the time of day and the library. -/
theorem stepForward_eq (n : Nat) : s.stepForward n = { s with
    time := s.time.forward n
    world := s.world.forward s.lib s.time.date s.time.tod n } := by
  have last : Config.ticksPerDay - 1 = 8639999 := rfl
  have day : Config.ticksPerDay = 8640000 := rfl
  unfold stepForward TimeBase.forward World.forward
  simp only [last, day]
  by_cases hn : n = 0
  · simp only [if_pos hn]
  · by_cases h : s.time.tod + n < 8640000
    · simp only [if_neg hn, if_pos h]
      rfl
    · by_cases hd : s.time.date = lastDate
      · simp only [if_neg hn, if_neg h, if_pos hd]
        rfl
      · simp only [if_neg hn, if_neg h, if_neg hd, reach, onWorld, env, TimeBase.civic, World.reached]

theorem stepForward_time (n : Nat) : (s.stepForward n).time = s.time.forward n := by rw [stepForward_eq]

theorem stepForward_lib (n : Nat) : (s.stepForward n).lib = s.lib := by rw [stepForward_eq]

theorem stepForward_port (n : Nat) : (s.stepForward n).port = s.port := by rw [stepForward_eq]

theorem stepForward_reachOpen (n : Nat) : (s.stepForward n).reachOpen = s.reachOpen := by
  rw [stepForward_eq]

theorem stepForward_world (n : Nat) :
    (s.stepForward n).world = s.world.forward s.lib s.time.date s.time.tod n := by rw [stepForward_eq]

/-! ## The time state entered after a step or a setting (R14) -/

/-- A time state entered after a step or a setting of the time, which raises TIME_STEPPED when `c`. -/
def enterStepped (t : TimeState) (c : Prop) [Decidable c] : State :=
  if c then (s.enterTime t).raise .timeStepped else s.enterTime t

section
variable (t : TimeState) (c : Prop) [Decidable c]

@[simp] theorem enterStepped_time : (s.enterStepped t c).time = { s.time with state := t } := by
  unfold enterStepped
  split <;> simp

@[simp] theorem enterStepped_date : (s.enterStepped t c).time.date = s.time.date := by
  rw [enterStepped_time]

@[simp] theorem enterStepped_tod : (s.enterStepped t c).time.tod = s.time.tod := by
  rw [enterStepped_time]

@[simp] theorem enterStepped_civic : (s.enterStepped t c).time.civic = s.time.civic := by
  unfold TimeBase.civic
  rw [enterStepped_date, enterStepped_tod]

@[simp] theorem enterStepped_lib : (s.enterStepped t c).lib = s.lib := by
  unfold enterStepped
  split <;> simp

@[simp] theorem enterStepped_port : (s.enterStepped t c).port = s.port := by
  unfold enterStepped
  split <;> simp

@[simp] theorem enterStepped_reachOpen : (s.enterStepped t c).reachOpen = s.reachOpen := by
  unfold enterStepped
  split <;> simp

/-- A time state entered changes the notices alone of the blocks. -/
theorem enterTime_world : (s.enterTime t).world =
    { s.world with notices := (s.enterTime t).world.notices } := by
  unfold enterTime
  split <;> rfl

theorem enterStepped_world : (s.enterStepped t c).world =
    { s.world with notices := (s.enterStepped t c).world.notices } := by
  unfold enterStepped
  split
  · show World.raise _ _ _ = _
    rw [enterTime_world]
    rfl
  · exact s.enterTime_world t

/-- A step that counts raises TIME_STEPPED. -/
theorem enterStepped_stepped (h : c) :
    ((s.enterStepped t c).world.notices.get NoticeKind.timeStepped.no).pending = true := by
  unfold enterStepped
  rw [if_pos h]
  exact World.raise_pending _ _ .timeStepped

/-- A time state entered raises no kind but TIME_STATE. -/
theorem enterTime_other {k : NoticeKind} (h : NoticeKind.timeState.no ≠ k.no) :
    (s.enterTime t).world.notices.get k.no = s.world.notices.get k.no := by
  unfold enterTime
  split
  · rfl
  · exact World.raise_other _ _ h

/-- A step that does not count leaves TIME_STEPPED. -/
theorem enterStepped_unstepped (h : ¬c) : (s.enterStepped t c).world.notices.get NoticeKind.timeStepped.no
    = s.world.notices.get NoticeKind.timeStepped.no := by
  unfold enterStepped
  rw [if_neg h]
  exact s.enterTime_other t (by decide)

/-- A time state that is a change is raised. -/
theorem enterStepped_state (h : s.time.state ≠ t) :
    ((s.enterStepped t c).world.notices.get NoticeKind.timeState.no).pending = true := by
  have entered := enterTime_pending_notice h
  unfold enterStepped
  split
  · have moves : (s.enterTime t).world.Moves true ((s.enterTime t).raise .timeStepped).world :=
      (World.Moves.refl _).raise _ _
    exact moves.raised _ entered
  · exact entered

/-- A time state that is no change is not raised. -/
theorem enterStepped_same (h : s.time.state = t) : (s.enterStepped t c).world.notices.get NoticeKind.timeState.no
    = s.world.notices.get NoticeKind.timeState.no := by
  have same : s.enterTime t = s := if_pos h
  unfold enterStepped
  rw [same]
  split
  · exact World.raise_other _ _ (by decide)
  · rfl

end

/-! ## What is due met -/

theorem meet_time : s.meet.time = s.silenceHoldover.time := (meets s).time

theorem meet_lib : s.meet.lib = s.lib := (meets s).lib

theorem meet_date : s.meet.time.date = s.time.date := by rw [meet_time, silenceHoldover_time]

theorem meet_tod : s.meet.time.tod = s.time.tod := by rw [meet_time, silenceHoldover_time]

theorem meet_civic : s.meet.time.civic = s.time.civic := by
  unfold TimeBase.civic
  rw [meet_date, meet_tod]

theorem meet_faults : s.meet.time.faults = s.time.faults := by rw [meet_time, silenceHoldover_time]

theorem meet_reachOpen : s.meet.reachOpen = false := by
  unfold meet
  rw [choose_reachOpen, closeReach_reachOpen]

/-- With no reach open, only the output's choice is met beside the HOLDOVER. -/
theorem meet_port {s : State} (h : s.reachOpen = false) :
    s.meet.port = s.port.choose s.silenceHoldover.world.notices := by
  have shut : s.meetHoldover.reachOpen = false := by
    unfold meetHoldover silenceHoldover
    rw [choose_reachOpen]
    split
    · rw [enterTime_reachOpen, h]
    · exact h
  have port : s.silenceHoldover.port = s.port := by
    unfold silenceHoldover
    split
    · exact enterTime_port _ _
    · rfl
  rw [meet, closeReach_shut shut, meetHoldover, choose_choose, choose, port]

end State
end Sys2Proof.Machine
end

section
/-! SUPPORT. The PULSE input (R4, R5): the phase error, an edge taken as a pulse, a pulse that aligns the time and
a phase fault; and the reaches that a forward step makes (R3, R8). -/

namespace Sys2Proof.Machine

/-! ## The phase error (R4) -/

theorem phaseError_early {n : Nat} (h : n % 100 < 50) : phaseError n = (n % 100 : Nat) := if_pos h

theorem phaseError_late {n : Nat} (h : 50 ≤ n % 100) : phaseError n = (n % 100 : Nat) - 100 :=
  if_neg (by omega)

/-- The phase error lies in −50 to +49, and what it leaves is a whole second. -/
theorem phaseError_bounds (n : Nat) :
    -50 ≤ phaseError n ∧ phaseError n ≤ 49 ∧ (100 : Int) ∣ (n : Int) - phaseError n := by
  by_cases h : n % 100 < 50
  · rw [phaseError_early h]
    omega
  · rw [phaseError_late (by omega)]
    omega

theorem inLockWindow_iff (e : Int) : inLockWindow e = true ↔ e.natAbs ≤ 20 := by
  simp only [inLockWindow, decide_eq_true_eq]

/-- An edge is taken as a pulse while the pulse is ENABLED, by its polarity, but in UNSET. -/
theorem TimeBase.takes_iff (t : TimeBase) (edge : Edge) :
    t.takes edge = true ↔ t.enabled = true ∧ t.polarity = edge ∧ t.state ≠ .unset := by
  simp only [takes, Bool.and_eq_true, beq_iff_eq, bne_iff_ne, ne_eq, and_assoc]

namespace State

variable (s : State)

/-! ## A pulse taken (R4, R5) -/

/-- The step to the whole second: back by an early phase error, forward by a late one. -/
theorem stepBy_phase (n : Nat) : s.stepBy (-phaseError n) =
    if n % 100 < 50 then s.stepBack (n % 100) else s.stepForward (100 - n % 100) := by
  by_cases h : n % 100 < 50
  · rw [if_pos h, phaseError_early h]
    by_cases h0 : n % 100 = 0
    · rw [h0]
      rfl
    · unfold stepBy
      rw [if_neg (by omega)]
      congr 1
      omega
  · rw [if_neg h, phaseError_late (by omega)]
    unfold stepBy
    rw [if_pos (by omega)]
    congr 1
    omega

/-- The Time Base with the marks of a pulse taken. -/
def pulsed : State :=
  { s with time := { s.time with lastError := some (phaseError s.time.tod), silence := 0 } }

/-- The part once a pulse has brought the time of day to the whole second, before its time state is entered. -/
def aligned : State :=
  let u := s.pulsed.stepBy (-phaseError s.time.tod)
  { u with time := { u.time with faults := 0 } }

/-- A pulse within the lock window, or that would be the third phase fault, aligns the time (R4, R5, R14). -/
theorem pulse_aligns (hf : s.time.faults ≤ 2)
    (h : (phaseError s.time.tod).natAbs ≤ 20 ∨ s.time.faults = 2) :
    s.pulse = s.aligned.enterStepped .locked
      (20 < (phaseError s.time.tod).natAbs ∨ 2 < movedBy s.time s.aligned.time) := by
  have civic : movedBy s.time s.aligned.time = movedBy s.pulsed.time (s.aligned.enterTime .locked).time := by
    rw [enterTime_time]
    rfl
  unfold enterStepped
  rw [civic]
  by_cases hw : (phaseError s.time.tod).natAbs ≤ 20
  · have hn : ¬20 < (phaseError s.time.tod).natAbs := by omega
    have hl := (inLockWindow_iff _).mpr hw
    simp only [hn, false_or]
    exact if_pos hl
  · have hl : ¬inLockWindow (phaseError s.time.tod) = true := mt (inLockWindow_iff _).mp hw
    have hc : ¬s.pulsed.time.faults < 2 := by
      show ¬s.time.faults < 2
      omega
    rw [if_pos (.inl (by omega))]
    exact (if_neg hl).trans (if_neg hc)

/-- A first or second phase fault is counted, and steps nothing (R5). -/
theorem pulse_fault (hw : 20 < (phaseError s.time.tod).natAbs) (hf : s.time.faults < 2) :
    s.pulse = { s with time := { s.time with
      lastError := some (phaseError s.time.tod), silence := 0, faults := s.time.faults + 1 } } := by
  have hl : ¬inLockWindow (phaseError s.time.tod) = true := by
    rw [inLockWindow_iff]
    omega
  exact (if_neg hl).trans (if_pos hf)

theorem aligned_lib : s.aligned.lib = s.lib := by
  unfold aligned
  rw [stepBy_phase]
  split
  · rfl
  · exact stepForward_lib _ _

theorem aligned_port : s.aligned.port = s.port := by
  unfold aligned
  rw [stepBy_phase]
  split
  · rfl
  · exact stepForward_port _ _

/-- The Time Base that a pulse has aligned. -/
theorem aligned_time : s.aligned.time = { (if s.time.tod % 100 < 50 then
      { s.time with tod := s.time.tod - s.time.tod % 100 }
    else s.time.forward (100 - s.time.tod % 100)) with
    lastError := some (phaseError s.time.tod), silence := 0, faults := 0 } := by
  unfold aligned
  rw [stepBy_phase]
  split
  · rfl
  · dsimp only
    rw [stepForward_time]
    unfold TimeBase.forward pulsed
    dsimp only
    split <;> [rfl; split <;> [rfl; split <;> rfl]]

/-- The blocks after a pulse that aligns: the reaches of its forward step. -/
theorem aligned_world : s.aligned.world = (if s.time.tod % 100 < 50 then s
    else s.stepForward (100 - s.time.tod % 100)).world := by
  unfold aligned
  rw [stepBy_phase]
  split
  · rfl
  · dsimp only
    rw [stepForward_world, stepForward_world]
    rfl

/-- A pulse that aligns leaves the PULSE settings and, itself, the time state. -/
theorem aligned_keeps : s.aligned.time.state = s.time.state ∧ s.aligned.time.enabled = s.time.enabled
    ∧ s.aligned.time.polarity = s.time.polarity := by
  rw [aligned_time]
  split
  · exact ⟨rfl, rfl, rfl⟩
  · rw [TimeBase.forward_eq]
    exact ⟨rfl, rfl, rfl⟩

/-- An early pulse steps back within the date. -/
theorem aligned_early (h : s.time.tod % 100 < 50) : s.aligned.time.date = s.time.date
    ∧ s.aligned.time.tod = s.time.tod - s.time.tod % 100 := by
  rw [aligned_time, if_pos h]
  exact ⟨rfl, rfl⟩

/-- A late pulse steps forward within the date. -/
theorem aligned_late (h : 50 ≤ s.time.tod % 100) (hd : s.time.tod + (100 - s.time.tod % 100) < 8640000) :
    s.aligned.time.date = s.time.date
      ∧ s.aligned.time.tod = s.time.tod + (100 - s.time.tod % 100) := by
  rw [aligned_time, if_neg (by omega), TimeBase.forward_within hd]
  exact ⟨rfl, rfl⟩

/-- A late pulse in a date's last second steps to midnight, or to the last tick of the range (R8). -/
theorem aligned_midnight (h : 50 ≤ s.time.tod % 100)
    (hd : s.time.tod + (100 - s.time.tod % 100) = 8640000) :
    if s.time.date = ⟨2099, 12, 31⟩ then
      s.aligned.time.date = s.time.date ∧ s.aligned.time.tod = 8639999
    else s.aligned.time.date = s.time.date.next ∧ s.aligned.time.tod = 0 := by
  have hn : 100 - s.time.tod % 100 ≠ 0 := by omega
  rw [aligned_time, if_neg (show ¬s.time.tod % 100 < 50 by omega)]
  by_cases hl : s.time.date = ⟨2099, 12, 31⟩
  · rw [if_pos hl, TimeBase.forward_last hn (by omega) hl]
    exact ⟨rfl, rfl⟩
  · rw [if_neg hl, TimeBase.forward_over hn (by omega) hl, hd]
    exact ⟨rfl, rfl⟩

/-! ## The command -/

/-- An edge taken as a pulse: what is due is met first (log entry 2). -/
theorem exec_pulse_taken {edge : Edge} (hh : s.held = false) (he : s.time.enabled = true)
    (hp : s.time.polarity = edge) (hu : s.time.state ≠ .unset) :
    exec (.pulse edge) s = .next s.meet.pulse.choose := by
  rw [exec_pulse, event_free _ hh, if_pos ((s.time.takes_iff edge).mpr ⟨he, hp, hu⟩)]

/-- An edge that is not taken. -/
theorem exec_pulse_untaken {edge : Edge} (hh : s.held = false)
    (h : ¬(s.time.enabled = true ∧ s.time.polarity = edge ∧ s.time.state ≠ .unset)) :
    exec (.pulse edge) s = .next s.choose := by
  rw [exec_pulse, event_free _ hh, if_neg (mt (s.time.takes_iff edge).mp h)]

end State

/-! ## The reaches of a forward step (R3, R8) -/

/-- A send tick makes ready every GO entry that it has come for (R123). -/
theorem World.sendTicks_eq (now : Nat) (l : Fin 4) (w : World) : w.sendTicks now l =
    w.onLink l fun k => { k with gos := k.gos.map fun g => { g with ready := g.ready || g.send ≤ now } } := by
  have ready (g : GoEntry) : (if Link.sendTickDue now g then { g with ready := true } else g)
      = { g with ready := g.ready || g.send ≤ now } := by
    obtain ⟨tag, player, id, due, lead, send, ready, sent⟩ := g
    unfold Link.sendTickDue
    cases ready <;> by_cases h : send ≤ now <;> simp [h]
  unfold sendTicks
  simp only [ready]

/-- A reach acts on what it makes due block by block: arm points, the players' points, send ticks and expiry
points (log entry 2). -/
theorem World.reach_eq (e : Env) (w : World) :
    let armed := match w.activeBank with
      | none => w
      | some bk => w.each ((w.bank bk).armable e.now false) (World.armOne e bk)
    let played := armed.each (upTo 8) fun p v => v.pointsFor e p (64 * (2 * e.now + 400))
    let sent := played.each (upTo 4) fun l v => v.onLink l fun k => { k with gos := k.gos.map fun g =>
      { g with ready := g.ready || g.send ≤ e.now } }
    w.reach e = sent.each (sent.groups.filter fun g => g.due + 51 ≤ e.now) (World.expire e) := by
  simp only [← sendTicks_eq]
  rfl

/-- Settles O8: the phase error; a pulse that aligns, a phase fault and an edge not taken, each after what is
due has been met; and the reaches of a forward step. -/
theorem pulsesTaken : Obligations.PulsesTaken := by
  refine ⟨phaseError_bounds, fun s edge hh hw he hp hu hal => ?_, fun s edge hh => ⟨fun he hp hu h20 hf => ?_,
    fun h => s.exec_pulse_untaken hh h⟩, ?_, ?_, ?_⟩
  · obtain ⟨-, -, hf, -, -⟩ := s.time.wf_iff.mp hw
    have aligns := s.meet.pulse_aligns (by rw [s.meet_faults]; exact hf)
      (by rw [s.meet_faults, s.meet_tod]; exact hal)
    refine ⟨_, s.exec_pulse_taken hh he hp hu, ?_⟩
    rw [aligns]
    obtain ⟨state, enabled, polarity⟩ := s.meet.aligned_keeps
    have early := s.meet.aligned_early
    have late := s.meet.aligned_late
    have midnight := s.meet.aligned_midnight
    rw [s.meet_tod, s.meet_date] at early late midnight
    have world := s.meet.aligned_world
    rw [s.meet_tod] at world
    have moved : movedBy s.meet.time s.meet.aligned.time
        = ((s.meet.aligned.time.civic : Int) - s.time.civic).natAbs := by rw [movedBy, s.meet_civic]
    simp only [State.choose_time, State.choose_lib, State.choose_world, State.enterStepped_time,
      State.enterStepped_lib, State.aligned_lib, State.meet_lib, ← world, moved, s.meet_tod]
    refine ⟨trivial, trivial, ?_, ?_, ?_, ?_, ?_, early, late, midnight, fun hr => ?_, fun hl => ?_,
      State.enterStepped_world _ _ _, State.enterStepped_stepped _ _ _, State.enterStepped_unstepped _ _ _,
      fun hl => State.enterStepped_same _ _ _ ?_⟩
    · rw [State.aligned_time]
    · rw [State.aligned_time]
    · rw [State.aligned_time, State.meet_tod]
    · rw [enabled, State.meet_time, State.silenceHoldover_time]
    · rw [polarity, State.meet_time, State.silenceHoldover_time]
    · rw [← State.meet_port hr, ← s.meet.aligned_port, State.choose, State.enterStepped_port]
    · refine State.enterStepped_state _ _ _ ?_
      rwa [state, State.meet_time, State.silenceHoldover_none fun due => hl due.1]
    · rw [state, State.meet_time, hl]
  · refine ⟨_, s.exec_pulse_taken hh he hp hu, ?_⟩
    have fault := s.meet.pulse_fault (by rwa [s.meet_tod]) (by rwa [s.meet_faults])
    rw [fault, s.meet_faults, s.meet_tod]
    refine ⟨s.meet_lib, rfl, ?_⟩
    rw [State.choose_time, s.meet_time, State.silenceHoldover_time]
  · intro s n at_ reached d old
    refine ⟨rfl, fun hn h => ?_, fun hn h => ⟨fun hd => ?_, fun hd => ?_⟩⟩
    · rw [State.stepForward_eq, TimeBase.forward_within h, World.forward_within _ _ _ hn h]
      rfl
    · rw [State.stepForward_eq, TimeBase.forward_last hn h hd, World.forward_last _ _ hn h hd]
      rfl
    · simp only [State.stepForward_eq, TimeBase.forward_over hn h hd, World.forward_over _ _ hn h hd, reached,
        old, at_, d, State.env, TimeBase.civic, World.reached]
  · intro w e p
    exact ⟨fun c hc => hc ▸ Tab.get_map _ _ p, rfl, World.reach_eq e w⟩
  · intro s
    exact ⟨State.closeReach_shut, State.closeReach_open, rfl⟩

end Sys2Proof.Machine
end

section
/-! SUPPORT. The plan in force (R45 to R48): what leaving it and coming into it leave of the banks, and a DATE SET
case by case (R47). -/

namespace Sys2Proof.Machine

/-! ## What a change of a bank leaves of the plans -/

/-- Each of the two banks is one or the other. -/
theorem Bank.eq_or_other (bk x : Bank) : x = bk ∨ x = bk.other := by cases x <;> cases bk <;> decide

/-- Each bank holds the same bookings for the same date. -/
def Plans.SameLists (p q : Plans) : Prop := ∀ bk, (q.bank bk).date = (p.bank bk).date
  ∧ (q.bank bk).list.map (·.booking.id) = (p.bank bk).list.map (·.booking.id)

namespace Plans
variable {p q r : Plans}

theorem Kept.sameLists (h : p.Kept q) : p.SameLists q := fun bk => ⟨h.date bk, h.ids bk⟩

theorem SameLists.trans (h : p.SameLists q) (k : q.SameLists r) : p.SameLists r :=
  fun bk => ⟨(k bk).1.trans (h bk).1, (k bk).2.trans (h bk).2⟩

theorem SameLists.onBank (p : Plans) (bk : Bank) (f : BankRec → BankRec) (hd : ∀ x, (f x).date = x.date)
    (hi : ∀ x, (f x).list.map (·.booking.id) = x.list.map (·.booking.id)) : p.SameLists (p.onBank bk f) := by
  intro x
  cases bk <;> cases x
  · exact ⟨hd _, hi _⟩
  · exact ⟨rfl, rfl⟩
  · exact ⟨rfl, rfl⟩
  · exact ⟨hd _, hi _⟩

/-- A change of a bank is known by what becomes of the bank. -/
theorem onBank_congr (p : Plans) (bk : Bank) {f g : BankRec → BankRec}
    (h : f (p.bank bk) = g (p.bank bk)) : p.onBank bk f = p.onBank bk g := by
  cases bk
  · exact congrArg (fun r => { p with bankA := r }) h
  · exact congrArg (fun r => { p with bankB := r }) h

end Plans

/-- A bank's state once it has left the plan in force for a state. -/
def BankRec.left (s : BankState) (r : BankRec) : BankRec :=
  { r with state := if r.state = .active ∨ r.state = .lapsed then s else r.state }

namespace World

variable (w : World) (e : Env)

/-! ## The ACTIVE bank (R45) -/

theorem activeBank_active {w : World} {bk : Bank} (h : w.activeBank = some bk) :
    (w.bank bk).state = .active := by
  unfold activeBank at h
  split at h
  · cases h; assumption
  · split at h
    · cases h; assumption
    · cases h

theorem activeBank_none_iff : w.activeBank = none ↔ ∀ bk, (w.bank bk).state ≠ .active := by
  constructor
  · intro h bk hb
    by_cases ha : (w.bank .a).state = .active
    · cases h.symm.trans (if_pos ha)
    · cases bk
      · exact ha hb
      · cases h.symm.trans ((if_neg ha).trans (if_pos hb))
  · intro h
    exact (if_neg (h .a)).trans (if_neg (h .b))

/-- The one bank that is ACTIVE. -/
theorem activeBank_only {w : World} {bk : Bank} (h : (w.bank bk).state = .active)
    (ho : (w.bank bk.other).state ≠ .active) : w.activeBank = some bk := by
  unfold activeBank
  cases bk
  · exact if_pos h
  · exact (if_neg ho).trans (if_pos h)

/-- Of two banks that are not both ACTIVE, the other is not when one is. -/
theorem other_inactive {w : World} (h : ¬((w.bank .a).state = .active ∧ (w.bank .b).state = .active))
    {bk : Bank} (hb : (w.bank bk).state = .active) : (w.bank bk.other).state ≠ .active := by
  intro ho
  cases bk
  · exact h ⟨hb, ho⟩
  · exact h ⟨ho, hb⟩

/-- The one bank that is READY with a date. -/
theorem readyFor_only {w : World} {d : Date} {bk : Bank} (h : (w.bank bk).state = .ready ∧ (w.bank bk).date = d)
    (ho : ¬((w.bank bk.other).state = .ready ∧ (w.bank bk.other).date = d)) : w.readyFor d = some bk := by
  unfold readyFor
  cases bk
  · exact if_pos h
  · exact (if_neg ho).trans (if_pos h)

theorem readyFor_none {w : World} {d : Date} (h : ∀ bk, ¬((w.bank bk).state = .ready ∧ (w.bank bk).date = d)) :
    w.readyFor d = none := (if_neg (h .a)).trans (if_neg (h .b))

/-! ## Leaving and coming into force -/

/-- A bank that leaves the plan in force changes its state alone, beside its outcomes and the wait list. -/
theorem leaveForce_kept (bk : Bank) (s : BankState) :
    (w.plans.onBank bk (BankRec.left s)).Kept (w.leaveForce e bk s).plans := by
  have left_eq {f : BankRec → BankRec} (h : f (w.bank bk) = (w.bank bk).left s) :
      w.plans.onBank bk (BankRec.left s) = (w.onBank bk f).plans :=
    Plans.onBank_congr w.plans bk h.symm
  unfold leaveForce
  dsimp only
  by_cases ha : (w.bank bk).state = .active
  · rw [if_pos ha, left_eq (f := fun r => { r with state := s }) (by simp [BankRec.left, ha])]
    exact ((Moves.refl (bks := false) _).flushWait e bk).plansKept
  · rw [if_neg ha]
    by_cases hl : (w.bank bk).state = .lapsed
    · rw [if_pos hl, left_eq (f := fun r => { r with state := s }) (by simp [BankRec.left, hl])]
      exact (Moves.refl _).plansKept
    · rw [if_neg hl, left_eq (f := id) (by simp [BankRec.left, ha, hl])]
      cases bk <;> exact (Moves.refl _).plansKept

/-- The state of the bank that leaves the plan in force, and of the other. -/
theorem leaveForce_state (bk : Bank) (s : BankState) : ((w.leaveForce e bk s).bank bk).state =
      (if (w.bank bk).state = .active ∨ (w.bank bk).state = .lapsed then s else (w.bank bk).state)
    ∧ ((w.leaveForce e bk s).bank bk.other).state = (w.bank bk.other).state := by
  have kept := w.leaveForce_kept e bk s
  refine ⟨(kept.state bk).trans ?_, (kept.state bk.other).trans ?_⟩ <;> cases bk <;> rfl

theorem leaveForce_sameLists (bk : Bank) (s : BankState) :
    w.plans.SameLists (w.leaveForce e bk s).plans :=
  (Plans.SameLists.onBank _ bk (BankRec.left s) (fun _ => rfl) fun _ => rfl).trans
    (w.leaveForce_kept e bk s).sameLists

/-- Arming a bank's passed arm points leaves the banks' states, dates and bookings. -/
theorem armBatch_kept (all : Bool) : w.plans.Kept (w.armBatch e all).plans :=
  ((Moves.refl (bks := false) w).armBatch e all).plansKept

/-- The states once a bank has come into force: it is ACTIVE, and the other is SPENT where it was in force
before. -/
theorem comeIntoForce_state (bk : Bank) : ((w.comeIntoForce e bk).bank bk).state = .active
    ∧ ((w.comeIntoForce e bk).bank bk.other).state =
      if (w.bank bk.other).state = .active ∨ (w.bank bk.other).state = .lapsed then .spent
      else (w.bank bk.other).state := by
  unfold comeIntoForce
  refine ⟨((armBatch_kept _ e true).state bk).trans ?_, ((armBatch_kept _ e true).state bk.other).trans ?_⟩
  · exact congrArg BankRec.state (onBank_bank _ bk _)
  · exact (congrArg BankRec.state (onBank_bank_other _ bk _)).trans (w.leaveForce_state e bk.other .spent).1

theorem comeIntoForce_sameLists (bk : Bank) : w.plans.SameLists (w.comeIntoForce e bk).plans := by
  unfold comeIntoForce
  refine ((w.leaveForce_sameLists e bk.other .spent).trans ?_).trans (armBatch_kept _ e true).sameLists
  exact Plans.SameLists.onBank _ _ _ (fun _ => rfl) fun x => by simp only [List.map_map]; rfl

/-! ## A DATE SET (R47) -/

/-- The dark test leaves the banks' states, dates and bookings. -/
theorem autoDark_kept : w.plans.Kept (w.autoDark e).plans :=
  ((Moves.refl (bks := false) w).autoDark e).plansKept

variable (d : Date)

/-- The plan of the date comes into force. -/
theorem swapBanks_ready {bk : Bank} (h : (w.bank bk).state = .ready ∧ (w.bank bk).date = d)
    (ho : ¬((w.bank bk.other).state = .ready ∧ (w.bank bk.other).date = d)) :
    w.swapBanks e d = w.comeIntoForce e bk := by
  have inForce : (w.comeIntoForce e bk).activeBank ≠ none := fun unset =>
    (activeBank_none_iff _).mp unset bk (w.comeIntoForce_state e bk).1
  have forDate : w.forDate e d = w.comeIntoForce e bk := by
    unfold World.forDate
    rw [readyFor_only h ho]
  unfold swapBanks noteMissing
  rw [forDate, if_neg (mt Option.isNone_iff_eq_none.mp inForce)]

/-- With no plan for the date the plan in force lapses, and PLAN_MISSING is raised. -/
theorem swapBanks_lapse {bk : Bank} (h : ∀ x, ¬((w.bank x).state = .ready ∧ (w.bank x).date = d))
    (hb : (w.bank bk).state = .active) (ho : (w.bank bk.other).state ≠ .active) :
    w.swapBanks e d = (w.leaveForce e bk .lapsed).raise e .planMissing := by
  obtain ⟨self, other⟩ := w.leaveForce_state e bk .lapsed
  rw [if_pos (.inl hb)] at self
  have inactive : (w.leaveForce e bk .lapsed).activeBank = none := by
    rw [activeBank_none_iff]
    intro x
    rcases bk.eq_or_other x with rfl | rfl
    · rw [self]; decide
    · rwa [other]
  have forDate : w.forDate e d = w.leaveForce e bk .lapsed := by
    unfold World.forDate
    rw [readyFor_none h, activeBank_only hb ho]
  unfold swapBanks noteMissing
  rw [forDate, inactive, if_pos (Option.isNone_none)]

/-- With no plan for the date and none in force PLAN_MISSING is raised. -/
theorem swapBanks_missing (h : ∀ x, ¬((w.bank x).state = .ready ∧ (w.bank x).date = d))
    (hn : ∀ x, (w.bank x).state ≠ .active) : w.swapBanks e d = w.raise e .planMissing := by
  have inactive := w.activeBank_none_iff.mpr hn
  have forDate : w.forDate e d = w := by
    unfold World.forDate
    rw [readyFor_none h, inactive]
  unfold swapBanks noteMissing
  rw [forDate, inactive, if_pos (Option.isNone_none)]

theorem forDate_sameLists : w.plans.SameLists (w.forDate e d).plans := by
  unfold forDate
  split
  · exact w.comeIntoForce_sameLists e _
  · exact w.leaveForce_sameLists e _ _
  · exact fun _ => ⟨rfl, rfl⟩

/-- A DATE SET leaves each bank's date and bookings. -/
theorem dateSet_sameLists : w.plans.SameLists (w.dateSet e d).plans := by
  by_cases h : ∃ bk, w.activeBank = some bk ∧ (w.bank bk).date = d
  · rw [w.dateSet_inForce e d h]
    exact (w.autoDark_kept e).sameLists
  · rw [w.dateSet_swap e d fun bk hb hd => h ⟨bk, hb, hd⟩]
    have noted : (w.forDate e d).plans.Kept (w.swapBanks e d).plans :=
      ((Moves.refl (bks := false) _).noteMissing e).plansKept
    exact ((w.forDate_sameLists e d).trans noted.sameLists).trans (autoDark_kept _ e).sameLists

/-- A DATE SET to the date of the plan in force leaves each bank's state. -/
theorem dateSet_inForce_state (h : ∃ bk, w.activeBank = some bk ∧ (w.bank bk).date = d) (x : Bank) :
    ((w.dateSet e d).bank x).state = (w.bank x).state := by
  rw [w.dateSet_inForce e d h]
  exact (w.autoDark_kept e).state x

section
variable (h : ∀ bk, w.activeBank = some bk → (w.bank bk).date ≠ d)
include h

/-- The states after a DATE SET that brings a plan into force. -/
theorem dateSet_ready_state {bk : Bank} (hr : (w.bank bk).state = .ready ∧ (w.bank bk).date = d)
    (ho : ¬((w.bank bk.other).state = .ready ∧ (w.bank bk.other).date = d)) :
    ((w.dateSet e d).bank bk).state = .active ∧ ((w.dateSet e d).bank bk.other).state =
      if (w.bank bk.other).state = .active ∨ (w.bank bk.other).state = .lapsed then .spent
      else (w.bank bk.other).state := by
  rw [w.dateSet_swap e d h, w.swapBanks_ready e d hr ho]
  obtain ⟨self, other⟩ := w.comeIntoForce_state e bk
  have kept := (w.comeIntoForce e bk).autoDark_kept e
  exact ⟨(kept.state bk).trans self, (kept.state bk.other).trans other⟩

/-- The states after a DATE SET for which no plan is ready: the one in force has lapsed. -/
theorem dateSet_missing_state (hn : ∀ x, ¬((w.bank x).state = .ready ∧ (w.bank x).date = d))
    (hb : ¬((w.bank .a).state = .active ∧ (w.bank .b).state = .active)) :
    (∀ x, ((w.dateSet e d).bank x).state =
      if (w.bank x).state = .active then .lapsed else (w.bank x).state)
    ∧ ((w.dateSet e d).notices.get NoticeKind.planMissing.no).pending = true := by
  rw [w.dateSet_swap e d h]
  have kept (v : World) (x : Bank) : (((v.raise e .planMissing).autoDark e).bank x).state
      = (v.bank x).state := ((v.raise e .planMissing).autoDark_kept e).state x
  have raised (v : World) :
      (((v.raise e .planMissing).autoDark e).notices.get NoticeKind.planMissing.no).pending = true :=
    ((Moves.refl (bks := false) _).autoDark e).raised _ (raise_pending v e .planMissing)
  cases hw : w.activeBank with
  | none =>
    have inactive := w.activeBank_none_iff.mp hw
    rw [w.swapBanks_missing e d hn inactive]
    refine ⟨fun x => ?_, raised w⟩
    rw [kept, if_neg (inactive x)]
  | some bk =>
    have active := activeBank_active hw
    have inactive := other_inactive hb active
    obtain ⟨self, other⟩ := w.leaveForce_state e bk .lapsed
    rw [w.swapBanks_lapse e d hn active inactive]
    refine ⟨fun x => ?_, raised _⟩
    rw [kept]
    rcases bk.eq_or_other x with rfl | rfl
    · rw [self, if_pos (.inl active), if_pos active]
    · rw [other, if_neg inactive]

end

end World
end Sys2Proof.Machine
end

section
/-! SUPPORT. SET_TIME (R10 to R12): the jump, the trim and the refusals. -/

namespace Sys2Proof.Machine

theorem civic_eq (d : Date) (tod : Nat) : civic d tod = d.number * 8640000 + tod := rfl

/-- A forward step of less than a day to a civic tick of the range brings its date and time of day. -/
theorem forward_reaches {t : TimeBase} {d : Date} {tod : Nat} (hv' : t.date.valid = true)
    (ht' : t.tod < 8640000) (hv : d.valid = true) (ht : tod < 8640000) (h : t.civic ≤ civic d tod)
    (hn : civic d tod - t.civic < 8640000) :
    (t.forward (civic d tod - t.civic)).date = d ∧ (t.forward (civic d tod - t.civic)).tod = tod := by
  have last := Date.number_le_last hv
  have old : t.civic = t.date.number * 8640000 + t.tod := rfl
  rw [civic_eq] at h hn ⊢
  by_cases hm : t.tod + (d.number * 8640000 + tod - t.civic) < 8640000
  · have date : t.date = d := Date.number_inj hv' hv (by omega)
    rw [TimeBase.forward_within hm]
    exact ⟨date, by dsimp only; omega⟩
  · have next : d.number = t.date.number + 1 := by omega
    have hl : t.date ≠ lastDate := by
      intro hl
      rw [hl] at next
      omega
    have date : t.date.next = d := Date.number_inj (Date.next_valid hv' hl) hv
      ((Date.next_number hv').trans next.symm)
    rw [TimeBase.forward_over (by omega) (by omega) hl]
    exact ⟨date, by dsimp only; omega⟩

namespace State

variable (s : State)

/-! ## A jump (R12) -/

/-- The part once a jump has set its time, before the DATE SET. -/
def jumped (d : Date) (tod : Nat) : State :=
  { s with time := { s.time with date := d, tod := tod, faults := 0, silence := 0 } }.enterStepped .free
    (¬(s.time.date = d ∧ s.time.tod = tod))

section
variable (d : Date) (tod : Nat)

theorem jump_eq : s.jump d tod = if s.time.date = d then s.jumped d tod
    else (s.jumped d tod).onWorld fun e w => (w.dateSet e d).pumpAll e := by
  unfold jump jumped enterStepped
  simp only [ite_not]

theorem jump_time : (s.jump d tod).time =
    { s.time with date := d, tod := tod, state := .free, faults := 0, silence := 0 } := by
  have jumped : (s.jumped d tod).time = _ := enterStepped_time _ _ _
  rw [jump_eq]
  split <;> exact jumped

theorem jump_lib : (s.jump d tod).lib = s.lib := by
  have jumped : (s.jumped d tod).lib = _ := enterStepped_lib _ _ _
  rw [jump_eq]
  split <;> exact jumped

theorem jump_reachOpen : (s.jump d tod).reachOpen = s.reachOpen := by
  have jumped : (s.jumped d tod).reachOpen = _ := enterStepped_reachOpen _ _ _
  rw [jump_eq]
  split <;> exact jumped

/-- The blocks after a jump: a DATE SET where the date is another. -/
theorem jump_world : (s.jump d tod).world = if s.time.date = d then (s.jumped d tod).world
    else ((s.jumped d tod).world.dateSet ⟨civic d tod, s.lib⟩ d).pumpAll ⟨civic d tod, s.lib⟩ := by
  have env : (s.jumped d tod).env = ⟨civic d tod, s.lib⟩ := by
    unfold State.env TimeBase.civic jumped
    rw [enterStepped_time, enterStepped_lib]
  rw [jump_eq, ← env]
  split <;> rfl

/-- A jump's notices stay pending through the DATE SET. -/
theorem jump_raised {k : Fin 16} (h : ((s.jumped d tod).world.notices.get k).pending = true) :
    ((s.jump d tod).world.notices.get k).pending = true := by
  rw [jump_world]
  split
  · exact h
  · exact (((World.Moves.refl _).dateSet _ d).pumpAll _).raised k h

/-- Before the DATE SET a jump changes the notices alone of the blocks. -/
theorem jumped_world : (s.jumped d tod).world = { s.world with notices := (s.jumped d tod).world.notices } :=
  enterStepped_world _ _ _

theorem jumped_plans : (s.jumped d tod).world.plans = s.world.plans := by rw [jumped_world]

theorem jumped_bank (x : Bank) : (s.jumped d tod).world.bank x = s.world.bank x := by
  unfold World.bank
  rw [jumped_plans]

/-- A jump from a time state other than FREE raises TIME_STATE (R14). -/
theorem jump_timeState (h : s.time.state ≠ .free) :
    ((s.jump d tod).world.notices.get NoticeKind.timeState.no).pending = true :=
  s.jump_raised d tod (enterStepped_state _ _ _ h)

/-- A jump that moves the time raises TIME_STEPPED, and no other does (R14). -/
theorem jump_stepped (h : ¬(s.time.date = d ∧ s.time.tod = tod)) :
    ((s.jump d tod).world.notices.get NoticeKind.timeStepped.no).pending = true :=
  s.jump_raised d tod (enterStepped_stepped _ _ _ h)

theorem jump_unstepped (hd : s.time.date = d) (ht : s.time.tod = tod) :
    (s.jump d tod).world.notices.get NoticeKind.timeStepped.no
      = s.world.notices.get NoticeKind.timeStepped.no := by
  rw [jump_world, if_pos hd]
  exact enterStepped_unstepped _ _ _ (not_not.mpr ⟨hd, ht⟩)

/-- The plans after a jump: those after the DATE SET. -/
theorem jump_plans : (s.jump d tod).world.plans = if s.time.date = d then s.world.plans
    else ((s.jumped d tod).world.dateSet ⟨civic d tod, s.lib⟩ d).plans := by
  rw [jump_world]
  split
  · exact s.jumped_plans d tod
  · exact ((World.Kept.refl _).pumpAll _).plans

/-- A jump leaves each bank's date and bookings. -/
theorem jump_sameLists : s.world.plans.SameLists (s.jump d tod).world.plans := by
  rw [jump_plans]
  split
  · exact fun _ => ⟨rfl, rfl⟩
  · rw [← s.jumped_plans d tod]
    exact World.dateSet_sameLists _ _ d

/-- Is the plan of a date in force already, or the date the part's own? -/
def keepsPlan : Prop :=
  s.time.date = d ∨ ∃ bk, (s.world.bank bk).state = .active ∧ (s.world.bank bk).date = d

/-- A jump to the date of the plan in force leaves the banks' states. -/
theorem jump_keeps (hb : ¬((s.world.bank .a).state = .active ∧ (s.world.bank .b).state = .active))
    (h : s.keepsPlan d) (x : Bank) : ((s.jump d tod).world.bank x).state = (s.world.bank x).state := by
  unfold World.bank
  rw [jump_plans]
  by_cases hd : s.time.date = d
  · rw [if_pos hd]
  · obtain ⟨bk, active, date⟩ := h.resolve_left hd
    have inactive := World.other_inactive hb active
    rw [if_neg hd, ← s.jumped_plans d tod]
    rw [← s.jumped_bank d tod] at active date inactive
    exact World.dateSet_inForce_state _ _ d ⟨bk, World.activeBank_only active inactive, date⟩ x

section
variable (h : ¬s.keepsPlan d)
include h

theorem jumped_otherDate (bk : Bank) (hb : (s.jumped d tod).world.activeBank = some bk) :
    ((s.jumped d tod).world.bank bk).date ≠ d := by
  intro hd
  have active := World.activeBank_active hb
  rw [jumped_bank] at active hd
  exact h (.inr ⟨bk, active, hd⟩)

/-- A jump to the date of a READY plan brings it into force (R45, R47). -/
theorem jump_ready {bk : Bank} (hr : (s.world.bank bk).state = .ready ∧ (s.world.bank bk).date = d)
    (ho : ¬((s.world.bank bk.other).state = .ready ∧ (s.world.bank bk.other).date = d)) :
    ((s.jump d tod).world.bank bk).state = .active ∧ ((s.jump d tod).world.bank bk.other).state =
      if (s.world.bank bk.other).state = .active ∨ (s.world.bank bk.other).state = .lapsed then .spent
      else (s.world.bank bk.other).state := by
  rw [← s.jumped_bank d tod] at hr ho
  have set := World.dateSet_ready_state _ ⟨civic d tod, s.lib⟩ d (s.jumped_otherDate d tod h) hr ho
  rw [s.jumped_bank d tod bk.other] at set
  unfold World.bank at set ⊢
  rw [jump_plans, if_neg fun hd => h (.inl hd)]
  exact set

/-- A jump to a date that no plan is READY for: the plan in force lapses, with a notice (R46, R47). -/
theorem jump_missing (hn : ∀ x, ¬((s.world.bank x).state = .ready ∧ (s.world.bank x).date = d))
    (hb : ¬((s.world.bank .a).state = .active ∧ (s.world.bank .b).state = .active)) :
    (∀ x, ((s.jump d tod).world.bank x).state =
      if (s.world.bank x).state = .active then .lapsed else (s.world.bank x).state)
    ∧ ((s.jump d tod).world.notices.get NoticeKind.planMissing.no).pending = true := by
  have hd : ¬s.time.date = d := fun hd => h (.inl hd)
  obtain ⟨states, raised⟩ := World.dateSet_missing_state (s.jumped d tod).world ⟨civic d tod, s.lib⟩ d
    (s.jumped_otherDate d tod h) (by simpa only [jumped_bank] using hn) (by simpa only [jumped_bank] using hb)
  refine ⟨fun x => ?_, ?_⟩
  · have set := states x
    rw [jumped_bank] at set
    unfold World.bank at set ⊢
    rw [jump_plans, if_neg hd]
    exact set
  · rw [jump_world, if_neg hd]
    exact ((World.Kept.refl _).pumpAll _).raised _ raised

end

end

/-! ## A trim (R11) -/

/-- The part stepped by a trim, before FREE is entered. -/
def trimmed (n : Int) : State :=
  let u := s.stepBy n
  { u with time := { u.time with faults := 0 } }

theorem trim_eq (n : Int) :
    s.trim n = (s.trimmed n).enterStepped .free (2 < movedBy s.time (s.trimmed n).time) := rfl

/-- A step to another civic tick: forward to a later one, else back, but not past midnight. -/
theorem stepBy_civic (x y : Nat) : s.stepBy ((x : Int) - y) =
    if y ≤ x then s.stepForward (x - y) else s.stepBack (y - x) := by
  unfold stepBy
  by_cases h : y ≤ x
  · rw [if_pos h, if_pos (by omega)]
    congr 1
    omega
  · rw [if_neg h, if_neg (by omega)]
    congr 1
    omega

theorem stepBack_time (n : Nat) : (s.stepBack n).time = { s.time with tod := s.time.tod - n } := rfl

/-- The Time Base after a trim to a later civic tick, and to an earlier one. -/
theorem trimmed_later {x y : Nat} (h : y ≤ x) : (s.trimmed ((x : Int) - y)).time =
    { s.time.forward (x - y) with faults := 0 } := by
  unfold trimmed
  rw [stepBy_civic, if_pos h]
  dsimp only
  rw [stepForward_time]

theorem trimmed_reads {x y : Nat} (h : y ≤ x) :
    (s.trimmed ((x : Int) - y)).time.date = (s.time.forward (x - y)).date
      ∧ (s.trimmed ((x : Int) - y)).time.tod = (s.time.forward (x - y)).tod := by
  rw [s.trimmed_later h]
  exact ⟨rfl, rfl⟩

theorem trimmed_earlier {x y : Nat} (h : x < y) : (s.trimmed ((x : Int) - y)).time =
    { s.time with tod := s.time.tod - (y - x), faults := 0 } := by
  unfold trimmed
  rw [stepBy_civic, if_neg (by omega)]
  dsimp only
  rw [stepBack_time]

/-- A trim changes the Time Base's date, time of day and phase faults alone. -/
theorem trimmed_time (x y : Nat) : (s.trimmed ((x : Int) - y)).time = { s.time with
    date := (s.trimmed ((x : Int) - y)).time.date
    tod := (s.trimmed ((x : Int) - y)).time.tod
    faults := 0 } := by
  by_cases h : y ≤ x
  · rw [s.trimmed_later h, TimeBase.forward_eq]
  · rw [s.trimmed_earlier (by omega)]

theorem trimmed_lib (x y : Nat) : (s.trimmed ((x : Int) - y)).lib = s.lib := by
  unfold trimmed
  rw [stepBy_civic]
  split
  · exact stepForward_lib _ _
  · rfl

/-- The blocks after a trim: the reaches of a forward step. -/
theorem trimmed_world (x y : Nat) : (s.trimmed ((x : Int) - y)).world = (s.stepForward (x - y)).world := by
  unfold trimmed
  rw [stepBy_civic]
  by_cases h : y ≤ x
  · rw [if_pos h]
  · rw [if_neg h, show x - y = 0 by omega]
    rfl

/-- The Time Base's date and time of day after a backward trim: it stays in the date. -/
theorem trimmed_back {x y : Nat} (h : x < y) : (s.trimmed ((x : Int) - y)).time.date = s.time.date
    ∧ (s.trimmed ((x : Int) - y)).time.tod = s.time.tod - (y - x) := by
  rw [s.trimmed_earlier h]
  exact ⟨rfl, rfl⟩

section
variable {d : Date} {tod : Nat} (hw : s.time.wf = true) (hv : d.valid = true) (ht : tod < 8640000)
include hw hv ht

/-- A trim forward or within the date brings the date and time of day asked for. -/
theorem trimmed_reaches (hn : ((civic d tod : Int) - s.time.civic).natAbs ≤ 100)
    (h : s.time.civic ≤ civic d tod ∨ s.time.date = d) :
    (s.trimmed ((civic d tod : Int) - s.time.civic)).time.date = d
      ∧ (s.trimmed ((civic d tod : Int) - s.time.civic)).time.tod = tod := by
  obtain ⟨hv', ht', -, -, -⟩ := s.time.wf_iff.mp hw
  by_cases hf : s.time.civic ≤ civic d tod
  · obtain ⟨date, time⟩ := s.trimmed_reads hf
    rw [date, time]
    exact forward_reaches hv' ht' hv ht hf (by omega)
  · have hd := h.resolve_left hf
    have old : s.time.civic = s.time.date.number * 8640000 + s.time.tod := rfl
    have new := civic_eq d tod
    obtain ⟨date, time⟩ := s.trimmed_back (Nat.lt_of_not_le hf)
    rw [date, time, hd]
    rw [hd] at old
    exact ⟨rfl, by omega⟩

/-- A trim back past midnight stops at 0 of the current date. -/
theorem trimmed_midnight (h : civic d tod < s.time.civic) (hd : s.time.date ≠ d) :
    (s.trimmed ((civic d tod : Int) - s.time.civic)).time.date = s.time.date
      ∧ (s.trimmed ((civic d tod : Int) - s.time.civic)).time.tod = 0 := by
  obtain ⟨hv', ht', -, -, -⟩ := s.time.wf_iff.mp hw
  have number : s.time.date.number ≠ d.number := mt (Date.number_inj hv' hv) hd
  have old : s.time.civic = s.time.date.number * 8640000 + s.time.tod := rfl
  have new := civic_eq d tod
  obtain ⟨date, time⟩ := s.trimmed_back h
  rw [date, time]
  exact ⟨rfl, by omega⟩

end

/-! ## The request -/

/-- A valid SET_TIME to an idle part. -/
theorem exec_setTime_valid {tag y m d tod : Nat} (hs : s.idle = true) (hv : (⟨y, m, d⟩ : Date).valid = true)
    (ht : tod < 8640000) : exec (.setTime tag y m d tod) s =
      .next (replied 0x01 tag (s.meet.setTo ⟨y, m, d⟩ tod)) := by
  obtain ⟨y0, y1, m0, m1, -, -⟩ := (Date.valid_iff _).mp hv
  have put : s.putTime y m d tod = s.meet.setTo ⟨y, m, d⟩ tod := by
    unfold putTime
    dsimp only at *
    rw [if_neg (by omega), if_neg (by omega), if_neg (by rw [hv]; decide), if_neg (Nat.not_le.mpr ht)]
  rw [exec_request_idle s _ tag (.setTime y m d tod) rfl hs, ← put]
  rfl

/-- The place of the field for which a SET_TIME is refused. -/
theorem putTime_invalid {y m d tod : Nat} (h : (⟨y, m, d⟩ : Date).valid = false ∨ 8640000 ≤ tod) :
    s.putTime y m d tod = (s, .badField (if y < 2000 ∨ 2099 < y then 0 else if m = 0 ∨ 12 < m then 2
      else if d = 0 ∨ monthDays y m < d then 3 else 4)) := by
  unfold putTime
  by_cases hy : y < 2000 ∨ 2099 < y
  · simp only [if_pos hy]
  · by_cases hm : m = 0 ∨ 12 < m
    · simp only [if_neg hy, if_pos hm]
    · have valid : (⟨y, m, d⟩ : Date).valid = true ↔ ¬(d = 0 ∨ monthDays y m < d) := by
        rw [Date.valid_iff]
        dsimp only
        omega
      by_cases hd : d = 0 ∨ monthDays y m < d
      · have hv : (!(⟨y, m, d⟩ : Date).valid) = true := by
          rw [Bool.not_eq_true', ← Bool.not_eq_true, valid, not_not]
          exact hd
        simp only [if_neg hy, if_neg hm, if_pos hd, if_pos hv]
      · have hv : (⟨y, m, d⟩ : Date).valid = true := valid.mpr hd
        have ht : Config.ticksPerDay ≤ tod := h.resolve_left (by rw [hv]; decide)
        simp only [if_neg hy, if_neg hm, if_neg hd, if_pos ht, hv, Bool.not_true, Bool.false_eq_true, if_false]

section
variable {d : Date} {tod : Nat}

theorem setTo_jump (h : s.time.state = .unset
      ∨ 100 < ((civic d tod : Int) - s.time.civic).natAbs ∧ s.world.anyLive = false) :
    s.setTo d tod = (s.jump d tod, .ok (s.jump d tod).time.settingBytes) := by
  unfold setTo
  dsimp only
  rw [if_neg, if_neg]
  · rintro ⟨hu, hd⟩
    rcases h with h | h
    · exact hu h
    · omega
  · rintro ⟨hu, -, hl⟩
    rcases h with h | ⟨-, h⟩
    · exact hu h
    · rw [h] at hl; cases hl

theorem setTo_trim (hu : s.time.state ≠ .unset) (h : ((civic d tod : Int) - s.time.civic).natAbs ≤ 100) :
    s.setTo d tod = (s.trim ((civic d tod : Int) - s.time.civic),
      .ok (s.trim ((civic d tod : Int) - s.time.civic)).time.settingBytes) := by
  unfold setTo
  dsimp only
  rw [if_neg (by omega), if_pos ⟨hu, h⟩]

theorem setTo_live (hu : s.time.state ≠ .unset) (h : 100 < ((civic d tod : Int) - s.time.civic).natAbs)
    (hl : s.world.anyLive = true) : s.setTo d tod = (s, ⟨.showsActive, []⟩) := by
  unfold setTo
  dsimp only
  rw [if_pos ⟨hu, h, hl⟩]
  rfl

end

theorem meet_free : s.meet.time.state = .free ↔ s.time.state = .free := by
  rw [meet_time, silenceHoldover_time]
  dsimp only
  split
  · next due => rw [due.1]; decide
  · rfl

theorem meet_wf : s.meet.time.wf = true ↔ s.time.wf = true := by
  rw [meet_time, silenceHoldover_time, TimeBase.wf_iff, TimeBase.wf_iff]

theorem meet_unset : s.meet.time.state = .unset ↔ s.time.state = .unset := by
  rw [meet_time, silenceHoldover_unset]

end State

namespace World

theorem anyLive_iff (w : World) : w.anyLive = true ↔ ∃ p, (w.player p).live = true := Tab.any_iff _ _

theorem anyLive_false_iff (w : World) : w.anyLive = false ↔ ∀ p, (w.player p).live = false := by
  simp only [← Bool.not_eq_true, anyLive_iff, not_exists]

end World

/-- Settles O11: the jump, the trim, the DATE SET case by case, and the refusals. -/
theorem setTimeTaken : Obligations.SetTimeTaken := by
  refine ⟨fun s tag y m d tod hs hv ht hj => ?_, fun s tag y m d tod hs hw hv ht hu hn => ?_,
    fun w e d => ?_, fun s tag y m d tod hs => ⟨fun h => ?_, fun hv ht hu hn hl => ?_⟩⟩
  · have jumps := s.meet.setTo_jump (d := ⟨y, m, d⟩) (tod := tod) (by
      rw [s.meet_unset, s.meet_civic, s.meet.world.anyLive_false_iff]
      exact hj)
    rw [s.exec_setTime_valid hs hv ht, jumps]
    refine ⟨_, rfl, ?_, ?_, ?_, ?_, fun h => ?_, fun h => ?_, fun hd htod => ?_,
      ⟨(s.meet.jumped ⟨y, m, d⟩ tod).world.notices, ?_⟩, ?_, fun hb => ⟨fun h => ?_, fun h bk hr hd ho => ?_,
        fun h hn => ?_⟩⟩
    · rw [State.replied_lib, State.jump_lib, s.meet_lib]
    · rw [State.replied_time, State.jump_time, s.meet_time, s.silenceHoldover_time]
    · rw [State.replied_reachOpen, State.jump_reachOpen, s.meet_reachOpen]
    · rw [State.replied_slot, State.jump_time]
      rfl
    · rw [State.replied_world]
      exact s.meet.jump_timeState _ _ (mt s.meet_free.mp h)
    · rw [State.replied_world]
      exact s.meet.jump_stepped _ _ (by rwa [s.meet_date, s.meet_tod])
    · rw [State.replied_world]
      exact s.meet.jump_unstepped _ _ (s.meet_date.trans hd) (s.meet_tod.trans htod)
    · rw [State.replied_world, State.jump_world, s.meet_date, s.meet_lib, ← State.jumped_world]
    · exact s.meet.jump_sameLists _ _
    · rw [State.replied_world]
      exact s.meet.jump_keeps _ _ hb (by rwa [State.keepsPlan, s.meet_date])
    · rw [State.replied_world]
      exact s.meet.jump_ready _ _ (by rwa [State.keepsPlan, s.meet_date]) ⟨hr, hd⟩ ho
    · rw [State.replied_world]
      exact s.meet.jump_missing _ _ (by rwa [State.keepsPlan, s.meet_date]) hn hb
  · have trims := s.meet.setTo_trim (mt s.meet_unset.mp hu) (d := ⟨y, m, d⟩) (tod := tod)
      (by rwa [s.meet_civic])
    have lib := s.meet.trimmed_lib (civic ⟨y, m, d⟩ tod) s.time.civic
    have time := s.meet.trimmed_time (civic ⟨y, m, d⟩ tod) s.time.civic
    have world := s.meet.trimmed_world (civic ⟨y, m, d⟩ tod) s.time.civic
    have reaches := s.meet.trimmed_reaches (s.meet_wf.mpr hw) hv ht
    have midnight := s.meet.trimmed_midnight (s.meet_wf.mpr hw) hv ht
    rw [s.meet_civic, s.meet_date] at reaches midnight
    rw [s.exec_setTime_valid hs hv ht, trims, s.meet_civic, State.trim_eq, ← world]
    generalize State.trimmed _ _ = u at *
    have state : u.time.state = s.meet.time.state := by rw [time]
    rw [s.meet_time, s.silenceHoldover_time] at time
    have moved : movedBy s.meet.time u.time = ((u.time.civic : Int) - s.time.civic).natAbs := by
      rw [movedBy, s.meet_civic]
    refine ⟨_, rfl, ?_, fun h => ?_, fun h hd => ?_, ?_, ?_, ?_, ?_, ?_, ?_, ?_, fun h => ?_, ?_, fun h => ?_,
      fun h => ?_⟩
    · rw [State.replied_lib, State.enterStepped_lib, lib, s.meet_lib]
    · rw [State.replied_time, State.enterStepped_date, State.enterStepped_tod]
      exact reaches hn h
    · rw [State.replied_time, State.enterStepped_date, State.enterStepped_tod]
      exact midnight h hd
    · rw [State.replied_time, State.enterStepped_time]
    · rw [State.replied_time, State.enterStepped_time, time]
    · rw [State.replied_time, State.enterStepped_time, time]
    · rw [State.replied_time, State.enterStepped_time, time]
    · rw [State.replied_time, State.enterStepped_time, time]
    · rw [State.replied_time, State.enterStepped_time, time]
    · rw [State.replied_slot, State.replied_time, State.enterStepped_time]
      rfl
    · rw [State.replied_world]
      refine State.enterStepped_state _ _ _ ?_
      rwa [state, Ne, s.meet_free]
    · rw [State.replied_world]
      exact State.enterStepped_world _ _ _
    · rw [State.replied_world]
      rw [State.replied_time, State.enterStepped_civic, ← moved] at h
      exact State.enterStepped_stepped _ _ _ h
    · rw [State.replied_world]
      rw [State.replied_time, State.enterStepped_civic, ← moved] at h
      exact State.enterStepped_unstepped _ _ _ h
  · refine ⟨fun bk hb hd => w.dateSet_inForce e d ⟨bk, hb, hd⟩, fun h => ?_⟩
    have swap := w.dateSet_swap e d h
    refine ⟨fun bk hr ho => ?_, fun bk hn hb ho => ?_, fun hn hb => ?_⟩
    · rw [swap, w.swapBanks_ready e d hr ho]
    · rw [swap, w.swapBanks_lapse e d hn hb ho]
    · rw [swap, w.swapBanks_missing e d hn hb]
  · rw [exec_request_idle s _ tag (.setTime y m d tod) rfl hs, ← s.putTime_invalid h]
    rfl
  · rw [s.exec_setTime_valid hs hv ht, s.meet.setTo_live (mt s.meet_unset.mp hu) (by rwa [s.meet_civic])
      ((World.anyLive_iff _).mpr hl)]

end Sys2Proof.Machine
end

section
/-! SUPPORT. The Show Library's invariant (TABLES 2-1 to 2-6, R20): a show record within its table, the cue blocks
each owned once, and one show record replaced. -/

namespace Sys2Proof.Machine

/-! ## A show record (TABLE 2-2) -/

theorem ShowRec.wf_iff (r : ShowRec) : r.wf = true ↔ r.parts.length ≤ 16 ∧ r.cues ≤ 1024
    ∧ r.blocks.length = (r.cues + 63) / 64 ∧ (r.parts.map (·.count)).sum = r.cues
    ∧ (r.state = .closed ↔ r.length.isSome = true) ∧ (r.state = .empty → r.parts = []) := by
  have closed : (r.state == .closed) = r.length.isSome ↔ (r.state = .closed ↔ r.length.isSome = true) := by
    rw [Bool.eq_iff_iff, beq_iff_eq]
  simp only [wf, Bool.and_eq_true, Bool.or_eq_true, decide_eq_true_eq, beq_iff_eq, bne_iff_ne,
    List.isEmpty_iff, and_assoc, closed, imp_iff_not_or, ne_eq]

theorem ShowRec.blank_wf : ShowRec.blank.wf = true := by decide

/-- An EMPTY show owns no block (R25). -/
theorem ShowRec.empty_blocks {r : ShowRec} (h : r.wf = true) (he : r.state = .empty) : r.blocks = [] := by
  obtain ⟨-, -, blocks, sum, -, none⟩ := r.wf_iff.mp h
  rw [none he] at sum
  rw [← sum] at blocks
  exact List.length_eq_zero_iff.mp blocks

/-! ## One record of a table replaced -/

/-- A table's lists with one record replaced: the old record's list is exchanged for the new one's. -/
theorem Tab.flatMap_set_perm {α β : Type} {n : Nat} (t : Tab α n) (i : Fin n) (a : α) (f : α → List β) :
    ((t.set i a).list.flatMap f ++ f (t.get i)).Perm (t.list.flatMap f ++ f a) := by
  have hi : i.val < t.list.length := by rw [t.len]; exact i.isLt
  have old : t.list = t.list.take i.val ++ t.get i :: t.list.drop (i.val + 1) := by
    rw [Tab.get, List.getElem_cons_drop, List.take_append_drop]
  have new : (t.set i a).list = t.list.take i.val ++ a :: t.list.drop (i.val + 1) :=
    List.set_eq_take_append_cons_drop.trans (if_pos hi)
  rw [new]
  conv_rhs => rw [old]
  simp only [List.flatMap_append, List.flatMap_cons, List.append_assoc]
  refine List.Perm.append_left _ ?_
  exact (List.perm_append_comm.append_left _).trans
    (List.perm_append_comm_assoc _ _ _ |>.trans (List.perm_append_comm.append_left _))

namespace Library

variable {lib : Library}

/-- One show replaced, with the free-block list, the cue pool and the open show to go with it, keeps the library
within its tables: the blocks are exchanged, and BUILDING goes with the open show. -/
theorem wf.withShow (h : lib.wf) (i : Fin 32) {r : ShowRec} {free : List Nat} {pool : List (Nat × Cue)}
    {opened : Option (Fin 32)} (hr : r.wf = true)
    (hb : (free ++ r.blocks).Perm (lib.free ++ (lib.showRec i).blocks)) (hp : poolWf 0 pool = true)
    (ho : ∀ j, opened = some j ↔ if i = j then r.state = .building else lib.openShow = some j) :
    (⟨lib.looks, lib.shows.set i r, pool, free, opened⟩ : Library).wf where
  lookZero := h.lookZero
  fades := h.fades
  shows j := by
    rw [showRec, Tab.get_set]
    split
    · exact hr
    · exact h.shows j
  blocks := by
    have old := h.blocks
    have exchanged := lib.shows.flatMap_set_perm i r (·.blocks)
    rw [List.perm_iff_count] at *
    intro b
    have hb := hb b
    have old := old b
    have exchanged := exchanged b
    simp only [List.count_append, showRec] at *
    omega
  pool := hp
  building j := by
    rw [showRec, Tab.get_set, ho]
    split
    · rfl
    · exact h.building j

/-! ## The cue blocks, each owned once (R20) -/

theorem wf.owned_nodup (h : lib.wf) : (lib.free ++ lib.shows.list.flatMap (·.blocks)).Nodup :=
  h.blocks.nodup_iff.mpr List.nodup_range

theorem mem_owned {b : Nat} (n : Fin 32) (hb : b ∈ (lib.showRec n).blocks) :
    b ∈ lib.shows.list.flatMap (·.blocks) :=
  List.mem_flatMap.mpr ⟨_, List.getElem_mem _, hb⟩

/-- A show's blocks are of the pool's 128. -/
theorem wf.block_lt (h : lib.wf) (n : Fin 32) {b : Nat} (hb : b ∈ (lib.showRec n).blocks) : b < 128 :=
  List.mem_range.mp (h.blocks.mem_iff.mp (List.mem_append_right _ (mem_owned n hb)))

theorem wf.free_lt (h : lib.wf) {b : Nat} (hb : b ∈ lib.free) : b < 128 :=
  List.mem_range.mp (h.blocks.mem_iff.mp (List.mem_append_left _ hb))

/-- A show owns each of its blocks once. -/
theorem wf.blocks_nodup (h : lib.wf) (n : Fin 32) : (lib.showRec n).blocks.Nodup :=
  (List.nodup_flatMap.mp h.owned_nodup.of_append_right).1 _ (List.getElem_mem _)

/-- Two shows have no block in common. -/
theorem wf.blocks_disjoint (h : lib.wf) {m n : Fin 32} (hn : m ≠ n) :
    (lib.showRec m).blocks.Disjoint (lib.showRec n).blocks := by
  have apart := (List.nodup_flatMap.mp h.owned_nodup.of_append_right).2
  rw [List.pairwise_iff_getElem] at apart
  have at_ (i j : Fin 32) (hij : i.val < j.val) :
      (lib.showRec i).blocks.Disjoint (lib.showRec j).blocks :=
    apart i.val j.val (by rw [lib.shows.len]; exact i.isLt) (by rw [lib.shows.len]; exact j.isLt) hij
  rcases Nat.lt_or_gt_of_ne (Fin.val_ne_of_ne hn) with hlt | hgt
  · exact at_ m n hlt
  · exact (at_ n m hgt).symm

end Library

end Sys2Proof.Machine
end

section
/-! SUPPORT. The requests on the Show Library case by case (R17, R21 to R29), and that each keeps the library within
its tables. -/

namespace Sys2Proof.Machine

/-! ## Numbers of looks and shows -/

@[simp] theorem index?_val {n : Nat} (i : Fin n) : index? n i.val = some i := dif_pos i.isLt

theorem index?_none {n i : Nat} (h : n ≤ i) : index? n i = none := dif_neg (Nat.not_lt.mpr h)

/-- Show `n` stands at place `n - 1`. -/
@[simp] theorem show?_place (i : Fin 32) : show? (i.val + 1) = some i :=
  (if_neg (Nat.succ_ne_zero _)).trans (index?_val i)

theorem show?_none {n : Nat} (h : n = 0 ∨ 32 < n) : show? n = none := by
  unfold show?
  split
  · rfl
  · exact index?_none (by omega)

namespace Library

variable (lib : Library)

theorem forShow_none {n : Nat} (h : n = 0 ∨ 32 < n) (k : Fin 32 → ShowRec → Library × Answer) :
    lib.forShow n k = (lib, .badField 0) := by
  unfold forShow
  rw [show?_none h]

theorem forShow_place (i : Fin 32) (k : Fin 32 → ShowRec → Library × Answer) :
    lib.forShow (i.val + 1) k = k i (lib.showRec i) := by
  unfold forShow
  rw [show?_place]

/-- What a show request of every show keeps, the request of any number keeps. -/
theorem forShow_keeps {P : Library → Prop} {k : Fin 32 → ShowRec → Library × Answer} (n : Nat) (h : P lib)
    (hk : ∀ i, P (k i (lib.showRec i)).1) : P (lib.forShow n k).1 := by
  unfold forShow
  split
  · exact h
  · exact hk _

/-! ## Looks (R17) -/

theorem putLook_number {n : Nat} (v : LookVal) (h : n = 0 ∨ 256 ≤ n) :
    lib.putLook n v = (lib, .badField 0) := by
  unfold putLook
  rcases h with rfl | h
  · rfl
  · rw [index?_none h]

theorem putLook_fade {i : Fin 256} {v : LookVal} (hi : i ≠ 0) (hf : 3000 < v.fade) :
    lib.putLook i.val v = (lib, .badField 5) := by
  unfold putLook
  rw [index?_val]
  exact (if_neg (Fin.val_ne_of_ne hi)).trans (if_pos hf)

theorem putLook_set {i : Fin 256} {v : LookVal} (hi : i ≠ 0) (hf : v.fade ≤ 3000) :
    lib.putLook i.val v = ({ lib with looks := lib.looks.set i v }, .ok []) := by
  unfold putLook
  rw [index?_val]
  exact (if_neg (Fin.val_ne_of_ne hi)).trans (if_neg (Nat.not_lt.mpr hf))

/-! ## OPEN_SHOW (R21) -/

theorem openShowAs_nonempty {i : Fin 32} (name : List Byte) (h : (lib.showRec i).state ≠ .empty) :
    lib.openShowAs (i.val + 1) name = (lib, .no .wrongState) :=
  (lib.forShow_place i _).trans (if_pos h)

theorem openShowAs_inUse {i m : Fin 32} (name : List Byte) (h : (lib.showRec i).state = .empty)
    (hm : lib.openShow = some m) (hi : m ≠ i) : lib.openShowAs (i.val + 1) name = (lib, .no .inUse) := by
  have other : lib.openShow.any (· != i) = true := by rw [hm]; exact bne_iff_ne.mpr hi
  exact (lib.forShow_place i _).trans ((if_neg (not_not.mpr h)).trans (if_pos other))

theorem openShowAs_opens {i : Fin 32} (name : List Byte) (h : (lib.showRec i).state = .empty)
    (ho : lib.openShow = none ∨ lib.openShow = some i) : lib.openShowAs (i.val + 1) name =
      ({ lib with shows := lib.shows.set i ⟨.building, name, [], [], 0, none⟩, openShow := some i }, .ok []) := by
  have none_other : ¬lib.openShow.any (· != i) = true := by rcases ho with ho | ho <;> simp [ho]
  exact (lib.forShow_place i _).trans ((if_neg (not_not.mpr h)).trans (if_neg none_other))

/-! ## ADD_SECTION (R22, R23) -/

theorem kind?_none {k : Nat} (h : 2 < k) : kind? k = none := by
  obtain ⟨n, rfl⟩ := Nat.exists_eq_add_of_le' h
  rfl

section
variable {i : Fin 32} {k length passes : Nat}

theorem addSection_closed (h : (lib.showRec i).state ≠ .building) :
    lib.addSection (i.val + 1) k length passes = (lib, .no .wrongState) :=
  (lib.forShow_place i _).trans (if_pos h)

variable (h : (lib.showRec i).state = .building)
include h

theorem addSection_kind (hk : kind? k = none) :
    lib.addSection (i.val + 1) k length passes = (lib, .badField 1) := by
  refine (lib.forShow_place i _).trans ((if_neg (not_not.mpr h)).trans ?_)
  rw [hk]

theorem addSection_length {x : SectionKind} (hk : kind? k = some x) :
    lib.addSection (i.val + 1) k 0 passes = (lib, .badField 2) := by
  refine (lib.forShow_place i _).trans ((if_neg (not_not.mpr h)).trans ?_)
  rw [hk]
  rfl

theorem addSection_full {x : SectionKind} (hk : kind? k = some x) (hl : 0 < length)
    (hf : 16 ≤ (lib.showRec i).parts.length) :
    lib.addSection (i.val + 1) k length passes = (lib, .no .noRoom) := by
  refine (lib.forShow_place i _).trans ((if_neg (not_not.mpr h)).trans ?_)
  rw [hk]
  exact (if_neg hl.ne').trans (if_pos hf)

theorem addSection_adds {x : SectionKind} (hk : kind? k = some x) (hl : 0 < length)
    (hf : (lib.showRec i).parts.length < 16) : lib.addSection (i.val + 1) k length passes =
      (let r := lib.showRec i
      { lib with shows := lib.shows.set i { r with parts := r.parts ++ [⟨x, length, passes, r.cues, 0⟩] } },
        .ok [byteOf (lib.showRec i).parts.length]) := by
  refine (lib.forShow_place i _).trans ((if_neg (not_not.mpr h)).trans ?_)
  rw [hk]
  exact (if_neg hl.ne').trans (if_neg (Nat.not_le.mpr hf))

end

/-! ## ADD_CUES (R24, R25) -/

theorem growLast_append (n : Nat) (front : List SectionRec) (last : SectionRec) :
    growLast n (front ++ [last]) = front ++ [{ last with count := last.count + n }] := by
  induction front with
  | nil => rfl
  | cons x rest ih =>
    cases rest with
    | nil => rfl
    | cons y rest => exact congrArg (x :: ·) ih

end Library

/-- A show with a batch of cues appended, and the blocks that they fill (R25). -/
def ShowRec.grown (r : ShowRec) (more : List Nat) (n : Nat) : ShowRec :=
  { r with blocks := r.blocks ++ more, cues := r.cues + n, parts := growLast n r.parts }

/-- The blocks that a show takes for a batch beside its own (R25). -/
def ShowRec.needs (r : ShowRec) (n : Nat) : Nat := (r.cues + n + 63) / 64 - r.blocks.length

/-- A cue of a batch within a section of that length (R24). -/
def cueFits (length : Nat) (c : CueField) : Prop := c.offset < length ∧ c.part < 16 ∧ c.look < 256

section
variable {length : Nat}

/-- A batch that fits becomes the cues of its fields. -/
theorem batch?_fits (pos : Nat) (cues : List CueField) (h : ∀ c ∈ cues, cueFits length c) :
    ∃ batch, batch? length pos cues = .ok batch
      ∧ batch.map (fun q => (q.offset, q.part.val, q.look.val)) = cues.map fun c => (c.offset, c.part, c.look) := by
  induction cues generalizing pos with
  | nil => exact ⟨[], rfl, rfl⟩
  | cons c rest ih =>
    obtain ⟨ho, hp, hl⟩ := h c List.mem_cons_self
    obtain ⟨batch, hb, fields⟩ := ih (pos + 1) fun x hx => h x (List.mem_cons_of_mem _ hx)
    refine ⟨⟨c.offset, ⟨c.part, hp⟩, ⟨c.look, hl⟩⟩ :: batch, ?_, congrArg _ fields⟩
    simp only [batch?, if_neg (Nat.not_le.mpr ho), index?, dif_pos hp, dif_pos hl, hb]

/-- The cues before the first that fails only count its position. -/
theorem batch?_front (pos : Nat) (front rest : List CueField) {e : Nat × Nat} (h : ∀ c ∈ front, cueFits length c)
    (he : batch? length (pos + front.length) rest = .error e) :
    batch? length pos (front ++ rest) = .error e := by
  induction front generalizing pos with
  | nil => exact he
  | cons c front ih =>
    obtain ⟨ho, hp, hl⟩ := h c List.mem_cons_self
    have later := ih (pos + 1) (fun x hx => h x (List.mem_cons_of_mem _ hx)) (by
      rw [← he, List.length_cons]
      congr 1
      omega)
    simp only [List.cons_append, batch?, if_neg (Nat.not_le.mpr ho), index?, dif_pos hp, dif_pos hl, later]

theorem batch?_offset (pos : Nat) {c : CueField} (rest : List CueField) (h : length ≤ c.offset) :
    batch? length pos (c :: rest) = .error (pos, 2 + 4 * pos) := if_pos h

theorem batch?_part (pos : Nat) {c : CueField} (rest : List CueField) (ho : c.offset < length)
    (h : 16 ≤ c.part) : batch? length pos (c :: rest) = .error (pos, 2 + 4 * pos + 2) := by
  simp only [batch?, if_neg (Nat.not_le.mpr ho), index?_none h]

end

namespace Library

variable (lib : Library) {i : Fin 32} {cues : List CueField}

theorem addCues_closed (h : (lib.showRec i).state ≠ .building ∨ (lib.showRec i).parts = []) :
    lib.addCues (i.val + 1) cues = (lib, .no .wrongState) := by
  refine (lib.forShow_place i _).trans ?_
  by_cases hb : (lib.showRec i).state = .building
  · rw [if_neg (not_not.mpr hb), h.resolve_left (not_not.mpr hb)]
    rfl
  · exact if_pos hb

section
variable {last : SectionRec} (h : (lib.showRec i).state = .building)
  (hl : (lib.showRec i).parts.getLast? = some last)
include h hl

theorem addCues_count (hc : cues.length = 0 ∨ 16 < cues.length) :
    lib.addCues (i.val + 1) cues = (lib, .badField 1) := by
  refine (lib.forShow_place i _).trans ((if_neg (not_not.mpr h)).trans ?_)
  rw [hl]
  exact if_pos hc

theorem addCues_field (hc : ¬(cues.length = 0 ∨ 16 < cues.length)) {pos off : Nat}
    (hb : batch? last.length 0 cues = .error (pos, off)) :
    lib.addCues (i.val + 1) cues = (lib, .badField off (some pos)) := by
  refine (lib.forShow_place i _).trans ((if_neg (not_not.mpr h)).trans ?_)
  rw [hl]
  refine (if_neg hc).trans ?_
  rw [hb]

variable {batch : List Cue} (hc : ¬(cues.length = 0 ∨ 16 < cues.length))
  (hb : batch? last.length 0 cues = .ok batch)
include hc hb

theorem addCues_full (hf : 1024 < (lib.showRec i).cues + batch.length
      ∨ lib.free.length < (lib.showRec i).needs batch.length) :
    lib.addCues (i.val + 1) cues = (lib, .no .noRoom) := by
  refine (lib.forShow_place i _).trans ((if_neg (not_not.mpr h)).trans ?_)
  rw [hl]
  refine (if_neg hc).trans ?_
  rw [hb]
  by_cases total : 1024 < (lib.showRec i).cues + batch.length
  · exact if_pos total
  · exact (if_neg total).trans (if_pos (hf.resolve_left total))

/-- An accepted batch: the show grown, its blocks taken from the head of the free-block list, and the cues written
at the next show-wide indexes. -/
theorem addCues_writes (ht : (lib.showRec i).cues + batch.length ≤ 1024)
    (hf : (lib.showRec i).needs batch.length ≤ lib.free.length) :
    lib.addCues (i.val + 1) cues =
      (let r := lib.showRec i
      let need := r.needs batch.length
      let r' := r.grown (lib.free.take need) batch.length
      (⟨lib.looks, lib.shows.set i r', writeCues r'.blocks r.cues batch lib.pool, lib.free.drop need,
          lib.openShow⟩,
        .ok (bigEndian 2 (r.cues + batch.length) ++ bigEndian 2 r.cues ++ [byteOf (lib.free.length - need)]))) := by
  refine (lib.forShow_place i _).trans ((if_neg (not_not.mpr h)).trans ?_)
  rw [hl]
  refine (if_neg hc).trans ?_
  rw [hb]
  exact (if_neg (Nat.not_lt.mpr ht)).trans (if_neg (Nat.not_lt.mpr hf))

end

/-! ## CLOSE_SHOW (R26, R27) -/

theorem closeShow_unopened (h : (lib.showRec i).state ≠ .building) :
    lib.closeShow (i.val + 1) = (lib, .no .wrongState) :=
  (lib.forShow_place i _).trans (if_pos h)

theorem closeShow_fails (h : (lib.showRec i).state = .building) {why : Reason} {a c : Option Nat}
    (hf : showFault lib (lib.showRec i) = some (why, a, c)) :
    lib.closeShow (i.val + 1) = (lib, .invalid why a c) := by
  refine (lib.forShow_place i _).trans ((if_neg (not_not.mpr h)).trans ?_)
  rw [hf]

theorem closeShow_closes (h : (lib.showRec i).state = .building)
    (hf : showFault lib (lib.showRec i) = none) : lib.closeShow (i.val + 1) =
      (let r := lib.showRec i
      let length := some (finiteLength r.parts)
      ({ lib with shows := lib.shows.set i { r with state := .closed, length := length }, openShow := none },
        .ok (bigEndian 2 r.cues ++ lengthBytes length))) := by
  refine (lib.forShow_place i _).trans ((if_neg (not_not.mpr h)).trans ?_)
  rw [hf]
  rfl

/-! ## DROP_SHOW (R28, R29) -/

variable {inUse : Fin 32 → Bool}

theorem dropShow_empty (h : (lib.showRec i).state = .empty) :
    lib.dropShow (i.val + 1) inUse = (lib, .no .notFound) :=
  (lib.forShow_place i _).trans (if_pos h)

theorem dropShow_inUse (h : (lib.showRec i).state ≠ .empty) (hu : inUse i = true) :
    lib.dropShow (i.val + 1) inUse = (lib, .no .inUse) :=
  (lib.forShow_place i _).trans ((if_neg h).trans (if_pos hu))

theorem dropShow_clears (h : (lib.showRec i).state ≠ .empty) (hu : inUse i = false) :
    lib.dropShow (i.val + 1) inUse = (lib.clearShow i, .ok [byteOf (lib.clearShow i).free.length]) :=
  (lib.forShow_place i _).trans ((if_neg h).trans (if_neg (by rw [hu]; decide)))

end Library
end Sys2Proof.Machine
end

section
/-! SUPPORT. Every request on the Show Library, and the warm restart, keeps it within its tables. -/

namespace Sys2Proof.Machine

/-- The cues counted by the sections grow by the batch (R25). -/
theorem growLast_sum (n : Nat) {parts : List SectionRec} (h : parts ≠ []) :
    ((growLast n parts).map (·.count)).sum = (parts.map (·.count)).sum + n := by
  rw [← List.dropLast_append_getLast h, Library.growLast_append]
  simp only [List.map_append, List.sum_append, List.map_cons, List.map_nil, List.sum_cons, List.sum_nil]
  omega

theorem growLast_length (n : Nat) {parts : List SectionRec} (h : parts ≠ []) :
    (growLast n parts).length = parts.length := by
  rw [← List.dropLast_append_getLast h, Library.growLast_append]
  simp only [List.length_append, List.length_cons, List.length_nil]

/-- A show just opened (R21). -/
theorem ShowRec.opened_wf (name : List Byte) : (⟨.building, name, [], [], 0, none⟩ : ShowRec).wf = true := by
  simp [wf_iff]

/-- A show grown by a batch that its blocks hold stays within its table. -/
theorem ShowRec.grown_wf {r : ShowRec} {more : List Nat} {n : Nat} (h : r.wf = true) (hs : r.state = .building)
    (hp : r.parts ≠ []) (ht : r.cues + n ≤ 1024) (hm : more.length = r.needs n) :
    (r.grown more n).wf = true := by
  obtain ⟨parts, -, blocks, sum, closed, -⟩ := r.wf_iff.mp h
  refine (wf_iff _).mpr ⟨?_, ht, ?_, ?_, closed, ?_⟩
  · exact (growLast_length n hp).trans_le parts
  · have filled : (r.blocks ++ more).length = _ := List.length_append
    unfold needs at hm
    dsimp only [grown]
    omega
  · rw [grown, growLast_sum n hp, sum]
  · intro he
    exact absurd (hs.symm.trans he) (by decide)

namespace Library

variable {lib : Library}

/-- What replaces a show without changing its state leaves the open show. -/
theorem wf.opened (h : lib.wf) (i : Fin 32) {r : ShowRec} (hr : r.state = (lib.showRec i).state) (j : Fin 32) :
    lib.openShow = some j ↔ if i = j then r.state = .building else lib.openShow = some j := by
  split
  · next hj => rw [← hj, hr]; exact (h.building i).symm
  · rfl

theorem wf.putLook (h : lib.wf) (n : Nat) (v : LookVal) : (lib.putLook n v).1.wf := by
  unfold Library.putLook
  split
  · exact h
  · next i hi =>
    split
    · exact h
    · next hn =>
      split
      · exact h
      · next hf =>
        have hi0 : i ≠ 0 := by
          rintro rfl
          unfold index? at hi
          split at hi
          · exact hn (congrArg Fin.val (Option.some.inj hi))
          · cases hi
        refine ⟨(Tab.get_set_ne _ _ hi0).trans h.lookZero, fun j => ?_, h.shows, h.blocks, h.pool, h.building⟩
        rw [Tab.get_set]
        split
        · exact Nat.not_lt.mp hf
        · exact h.fades j

theorem wf.openShowAs (h : lib.wf) (n : Nat) (name : List Byte) : (lib.openShowAs n name).1.wf := by
  refine lib.forShow_keeps n h fun i => ?_
  split
  · exact h
  · next he =>
    split
    · exact h
    · next ho =>
      have empty := not_not.mp he
      have closed (j : Fin 32) : lib.openShow ≠ some j := by
        intro hj
        by_cases hi : j = i
        · rw [hi] at hj
          exact absurd (((h.building i).mpr hj).symm.trans empty) (by decide)
        · exact ho (by rw [hj]; exact bne_iff_ne.mpr hi)
      refine h.withShow i (ShowRec.opened_wf name) ?_ h.pool fun j => ?_
      · rw [ShowRec.empty_blocks (h.shows i) empty]
        exact .refl _
      · simp [closed j]

theorem wf.addSection (h : lib.wf) (n kind length passes : Nat) :
    (lib.addSection n kind length passes).1.wf := by
  refine lib.forShow_keeps n h fun i => ?_
  split
  · exact h
  · next hs =>
    split
    · exact h
    · next k _ =>
      split
      · exact h
      · split
        · exact h
        · next hp =>
          obtain ⟨-, cues, blocks, sum, closed, -⟩ := (lib.showRec i).wf_iff.mp (h.shows i)
          have building := not_not.mp hs
          refine h.withShow i ((ShowRec.wf_iff _).mpr ⟨?_, cues, blocks, ?_, closed, ?_⟩) (.refl _) h.pool
            (h.opened i rfl)
          · exact List.length_append.trans_le (Nat.not_le.mp hp)
          · rw [List.map_append, List.sum_append]
            exact sum
          · intro he
            exact absurd (building.symm.trans he) (by decide)

/-- A batch written to a show within the pool's bounds (R25). -/
theorem wf.grows (h : lib.wf) {i : Fin 32} {batch : List Cue} (hs : (lib.showRec i).state = .building)
    (hp : (lib.showRec i).parts ≠ []) (ht : (lib.showRec i).cues + batch.length ≤ 1024)
    (hf : (lib.showRec i).needs batch.length ≤ lib.free.length) :
    let r := lib.showRec i
    let need := r.needs batch.length
    let r' := r.grown (lib.free.take need) batch.length
    (⟨lib.looks, lib.shows.set i r', writeCues r'.blocks r.cues batch lib.pool, lib.free.drop need,
      lib.openShow⟩ : Library).wf := by
  intro r need r'
  have taken := List.length_take_of_le hf
  have exchanged : (lib.free.drop need ++ (r.blocks ++ lib.free.take need)).Perm (lib.free ++ r.blocks) := by
    rw [List.perm_iff_count]
    intro b
    have split_ : (lib.free.take need).count b + (lib.free.drop need).count b = lib.free.count b := by
      rw [← List.count_append, List.take_append_drop]
    simp only [List.count_append]
    omega
  refine h.withShow i (ShowRec.grown_wf (h.shows i) hs hp ht taken) exchanged ?_ (h.opened i rfl)
  refine writeCues_wf _ (fun b hb => ?_) _ _ _ h.pool
  rcases List.mem_append.mp hb with own | fresh
  · exact h.block_lt i own
  · exact h.free_lt (List.mem_of_mem_take fresh)

theorem wf.addCues (h : lib.wf) (n : Nat) (cues : List CueField) : (lib.addCues n cues).1.wf := by
  refine lib.forShow_keeps n h fun i => ?_
  split
  · exact h
  · next hs =>
    split
    · exact h
    · next last hl =>
      split
      · exact h
      · split
        · exact h
        · next batch _ =>
          dsimp only
          split
          · exact h
          · next ht =>
            split
            · exact h
            · next hf =>
              have some_part : (lib.showRec i).parts ≠ [] := by
                intro none
                rw [none] at hl
                cases hl
              exact h.grows (not_not.mp hs) some_part (Nat.not_lt.mp ht) (Nat.not_lt.mp hf)

theorem wf.closeShow (h : lib.wf) (n : Nat) : (lib.closeShow n).1.wf := by
  refine lib.forShow_keeps n h fun i => ?_
  split
  · exact h
  · next hs =>
    split
    · exact h
    · obtain ⟨parts, cues, blocks, sum, -, -⟩ := (lib.showRec i).wf_iff.mp (h.shows i)
      have opened := (h.building i).mp (not_not.mp hs)
      refine h.withShow i ((ShowRec.wf_iff _).mpr ⟨parts, cues, blocks, sum, ?_, ?_⟩) (.refl _) h.pool fun j => ?_
      · exact ⟨fun _ => rfl, fun _ => rfl⟩
      · intro he
        cases he
      · rw [opened]
        split
        · simp
        · next hj => simp [hj]

/-- A show emptied gives its blocks back (R29). -/
theorem wf.clearShow (h : lib.wf) (i : Fin 32) : (lib.clearShow i).wf := by
  refine h.withShow i (r := ShowRec.blank) ShowRec.blank_wf ?_ (poolErase_wf _ 0 _ h.pool) fun j => ?_
  · exact (List.append_nil _).symm ▸ .refl _
  · simp only [h.building i, or_self]
    by_cases hi : lib.openShow = some i
    · rw [if_pos hi, hi]
      split
      · simp [ShowRec.blank]
      · next hj => simp [hj]
    · rw [if_neg hi]
      split
      · next hj => simp [← hj, hi, ShowRec.blank]
      · rfl

theorem wf.dropShow (h : lib.wf) (n : Nat) (inUse : Fin 32 → Bool) : (lib.dropShow n inUse).1.wf := by
  refine lib.forShow_keeps n h fun i => ?_
  split
  · exact h
  · split
    · exact h
    · exact h.clearShow i

theorem wf.warm (h : lib.wf) : lib.warm.wf := by
  unfold Library.warm
  split
  · exact h
  · exact h.clearShow _

/-- The library after a cold start (TABLE 2-7). -/
theorem cold_wf : Library.cold.wf where
  lookZero := Tab.get_fill _ _
  fades i := by rw [cold, Tab.get_fill]; exact Nat.zero_le _
  shows i := by rw [showRec, cold, Tab.get_fill]; exact ShowRec.blank_wf
  blocks := by
    have unowned : cold.shows.list.flatMap (·.blocks) = [] := by
      rw [List.flatMap_eq_nil_iff]
      intro r hr
      rw [List.eq_of_mem_replicate hr]
      rfl
    rw [unowned, List.append_nil]
    exact .refl _
  pool := rfl
  building i := by
    rw [showRec, cold, Tab.get_fill]
    constructor <;> intro h <;> cases h

end Library
end Sys2Proof.Machine
end

section
/-! SUPPORT. What an event leaves of the three invariants: the Time Base and the library stay within their tables,
and the port changes its output at most (`State.Keeps`). Settling, the tick, the pulse, the settings of the time and
every request are such events. -/

namespace Sys2Proof.Machine

/-! ## The Time Base (TABLE 1-1) -/

theorem satUp_le {top n : Nat} (h : n ≤ top) : satUp top n ≤ top := by
  rw [satUp_min h]
  exact Nat.min_le_left _ _

/-- A forward step of at most a day stays in the calendar (R8). -/
theorem TimeBase.forward_wf {t : TimeBase} (h : t.wf = true) {n : Nat} (hn : n ≤ 8640000) :
    (t.forward n).wf = true := by
  obtain ⟨date, tod, rest⟩ := t.wf_iff.mp h
  unfold forward
  split
  · exact h
  · split
    · next ht => exact (wf_iff _).mpr ⟨date, ht, rest⟩
    · split
      · exact (wf_iff _).mpr ⟨date, by dsimp only; omega, rest⟩
      · next hl => exact (wf_iff _).mpr ⟨Date.next_valid date hl, by dsimp only; omega, rest⟩

/-- An earlier time of day of the date (R9). -/
theorem TimeBase.back_wf {t : TimeBase} (h : t.wf = true) (n : Nat) :
    ({ t with tod := t.tod - n } : TimeBase).wf = true := by
  obtain ⟨date, tod, rest⟩ := t.wf_iff.mp h
  exact (wf_iff _).mpr ⟨date, (Nat.sub_le _ _).trans_lt tod, rest⟩

/-- No phase fault (R5, R7). -/
theorem TimeBase.faultless_wf {t : TimeBase} (h : t.wf = true) :
    ({ t with faults := 0 } : TimeBase).wf = true := by
  obtain ⟨date, tod, -, rest⟩ := t.wf_iff.mp h
  exact (wf_iff _).mpr ⟨date, tod, Nat.zero_le _, rest⟩

/-- A pulse's phase error recorded (R4). -/
theorem TimeBase.pulsed_wf {t : TimeBase} (h : t.wf = true) :
    ({ t with lastError := some (phaseError t.tod), silence := 0 } : TimeBase).wf = true := by
  obtain ⟨date, tod, faults, -, -⟩ := t.wf_iff.mp h
  obtain ⟨low, high, -⟩ := phaseError_bounds t.tod
  exact (wf_iff _).mpr ⟨date, tod, faults, Nat.zero_le _, by simp [low, high]⟩

theorem TimeBase.warm_wf {t : TimeBase} (h : t.wf = true) : t.warm.wf = true := by
  obtain ⟨date, tod, -, -, error⟩ := t.wf_iff.mp h
  exact (wf_iff _).mpr ⟨date, tod, Nat.zero_le _, Nat.zero_le _, error⟩

/-! ## The port (TABLE 10-2) -/

/-- The port's lists and counts within TABLE 10-2. -/
structure Port.Counted (p : Port) : Prop where
  queue : p.queue.length ≤ 4
  overruns : p.overruns.length ≤ 4
  checkErrors : p.checkErrors ≤ 65535
  overrunCount : p.overrunCount ≤ 65535

/-- A reply being sent is the one in the reply slot (R191). -/
def Port.sendsSlot (p : Port) : Prop := ∀ r, p.out = some (.reply r) → p.slot = some r

theorem Port.wf_iff (p : Port) : p.wf = true ↔ p.Counted ∧ (p.slot = none → p.queue = []) ∧ p.sendsSlot := by
  have ordered : (p.slot.isSome || p.queue.isEmpty) = true ↔ (p.slot = none → p.queue = []) := by
    rw [Bool.or_eq_true, List.isEmpty_iff]
    cases p.slot <;> simp
  unfold wf
  rw [Bool.and_eq_true, ← and_assoc]
  refine and_congr ?_ ?_
  · simp only [Bool.and_eq_true, ordered, decide_eq_true_eq]
    exact ⟨fun ⟨⟨⟨⟨q, o⟩, v⟩, c⟩, n⟩ => ⟨⟨q, v, c, n⟩, o⟩, fun ⟨⟨q, v, c, n⟩, o⟩ => ⟨⟨⟨⟨q, o⟩, v⟩, c⟩, n⟩⟩
  · unfold sendsSlot
    split <;> simp_all

/-- What carrying out an event leaves of the port: requests and the reply slot as they were, the lists and counts
within their bounds, and no reply begun but the one in the slot. -/
structure Port.Serves (p q : Port) : Prop where
  queue : q.queue = p.queue
  slot : q.slot = p.slot
  counted : p.Counted → q.Counted
  sends : p.sendsSlot → q.sendsSlot

namespace Port.Serves

variable {p q r : Port}

theorem refl (p : Port) : p.Serves p := ⟨rfl, rfl, id, id⟩

theorem trans (h : p.Serves q) (k : q.Serves r) : p.Serves r :=
  ⟨k.queue.trans h.queue, k.slot.trans h.slot, k.counted ∘ h.counted, k.sends ∘ h.sends⟩

theorem choose (t : Tab Notice 16) (p : Port) : p.Serves (p.choose t) where
  queue := p.choose_queue t
  slot := p.choose_slot t
  counted h := by
    refine ⟨(p.choose_queue t).symm ▸ h.queue, ?_, (p.choose_checkErrors t).symm ▸ h.checkErrors,
      (p.choose_overrunCount t).symm ▸ h.overrunCount⟩
    have bound := h.overruns
    unfold Port.choose
    split
    · exact bound
    · next _ heq =>
      rw [heq] at bound
      exact (Nat.le_succ _).trans bound
    · exact bound
    · exact bound
  sends h := by
    intro r hr
    rw [p.choose_slot t]
    unfold Port.choose at hr
    split at hr
    · exact h r hr
    · cases hr
    · next heq => cases hr; exact heq
    · obtain ⟨k, -, hk⟩ := Option.map_eq_some_iff.mp hr
      cases hk

theorem wf (h : p.Serves q) (hp : p.wf = true) : q.wf = true := by
  obtain ⟨counted, ordered, sends⟩ := p.wf_iff.mp hp
  exact q.wf_iff.mpr ⟨h.counted counted, fun hs => h.queue.trans (ordered (h.slot.symm.trans hs)), h.sends sends⟩

end Port.Serves

/-! ## Events -/

/-- What an event keeps: the Time Base and the library within their tables, and the port but for its output. -/
structure State.Keeps (s t : State) : Prop where
  time : s.time.wf = true → t.time.wf = true
  lib : s.lib.wf → t.lib.wf
  port : s.port.Serves t.port

namespace State.Keeps

variable {s t u : State}

theorem refl (s : State) : s.Keeps s := ⟨id, id, .refl _⟩

theorem trans (h : s.Keeps t) (k : t.Keeps u) : s.Keeps u :=
  ⟨k.time ∘ h.time, k.lib ∘ h.lib, h.port.trans k.port⟩

theorem wf (h : s.Keeps t) (hs : s.wf) : t.wf := ⟨h.time hs.time, h.lib hs.lib, h.port.wf hs.port⟩

/-- An event of the other blocks. -/
theorem of_same (ht : t.time = s.time) (hl : t.lib = s.lib) (hp : t.port = s.port) : s.Keeps t :=
  ⟨fun h => ht ▸ h, fun h => hl ▸ h, hp ▸ .refl _⟩

/-- An event of the Time Base. -/
theorem of_time (ht : s.time.wf = true → t.time.wf = true) (hl : t.lib = s.lib) (hp : t.port = s.port) :
    s.Keeps t := ⟨ht, fun h => hl ▸ h, hp ▸ .refl _⟩

theorem choose (h : s.Keeps t) : s.Keeps t.choose := h.trans ⟨id, id, .choose _ _⟩

theorem onWorld (h : s.Keeps t) (f : Env → World → World) : s.Keeps (t.onWorld f) :=
  h.trans (of_same rfl rfl rfl)

theorem withReach (h : s.Keeps t) (b : Bool) : s.Keeps { t with reachOpen := b } :=
  h.trans (of_same rfl rfl rfl)

theorem withFree (h : s.Keeps t) (n : Nat) : s.Keeps { t with freeCount := n } :=
  h.trans (of_same rfl rfl rfl)

theorem withWorld (h : s.Keeps t) (w : World) : s.Keeps { t with world := w } :=
  h.trans (of_same rfl rfl rfl)

theorem withTime (h : s.Keeps t) {x : TimeBase} (hx : t.time.wf = true → x.wf = true) :
    s.Keeps { t with time := x } := h.trans (of_time hx rfl rfl)

theorem foldl {α : Type} (f : State → α → State) (hf : ∀ t a, s.Keeps t → s.Keeps (f t a))
    (xs : List α) (h : s.Keeps t) : s.Keeps (xs.foldl f t) := by
  induction xs generalizing t with
  | nil => exact h
  | cons x xs ih => exact ih (hf t x h)

theorem enterTime (h : s.Keeps t) (x : TimeState) : s.Keeps (t.enterTime x) :=
  h.trans (of_time (fun ht => by rw [t.enterTime_time x]; exact (TimeBase.wf_iff _).mpr ((TimeBase.wf_iff _).mp ht))
    (t.enterTime_lib x) (t.enterTime_port x))

theorem raise (h : s.Keeps t) (k : NoticeKind) : s.Keeps (t.raise k) := h.trans (of_same rfl rfl rfl)

/-! ### What a tick event left due -/

theorem silenceHoldover (h : s.Keeps t) : s.Keeps t.silenceHoldover := by
  unfold State.silenceHoldover
  split
  · exact h.enterTime _
  · exact h

theorem closeReach (h : s.Keeps t) : s.Keeps t.closeReach := by
  unfold State.closeReach
  split
  · exact (h.onWorld _).withReach false
  · exact h

theorem scanFreely (h : s.Keeps t) : s.Keeps t.scanFreely := by
  unfold State.scanFreely
  split
  · exact (h.onWorld _).withFree _
  · exact h

theorem convertFreely (h : s.Keeps t) : s.Keeps t.convertFreely := by
  unfold State.convertFreely
  split
  · exact h
  · exact (h.onWorld _).withFree _

theorem meetHoldover (h : s.Keeps t) : s.Keeps t.meetHoldover := h.silenceHoldover.choose

theorem meet (h : s.Keeps t) : s.Keeps t.meet := h.meetHoldover.closeReach.choose

theorem settle (h : s.Keeps t) : s.Keeps t.settle := by
  have links := Keeps.foldl (fun u l => (u.onWorld fun e => World.settleLink e l).choose)
    (fun u _ hu => (hu.onWorld _).choose) (upTo 4) h.meetHoldover
  have scans := Keeps.foldl (fun u _ => u.convertFreely.choose) (fun u _ hu => hu.convertFreely.choose)
    (upTo 4) links.scanFreely.choose
  exact (scans.onWorld _).choose.closeReach.choose

/-! ### The tick event (R1, R2) -/

/-- One more tick of pulse silence (R6), the blocks changed beside it. -/
theorem silent (h : s.Keeps t) (w : World) : s.Keeps { t with
    time := { t.time with silence := satUp Config.counterMax t.time.silence }, world := w } := by
  refine (h.withTime fun ht => ?_).withWorld w
  obtain ⟨date, tod, faults, silence, error⟩ := (TimeBase.wf_iff _).mp ht
  exact (TimeBase.wf_iff _).mpr ⟨date, tod, faults, satUp_le silence, error⟩

theorem counted (h : s.Keeps t) : s.Keeps t.counted := by
  unfold State.counted
  exact h.settle.silent _

theorem advance (h : s.Keeps t) : s.Keeps t.advance := by
  unfold State.advance
  split
  · exact h
  · split
    · next hd =>
      refine ((h.withTime fun ht => ?_).withWorld _).withReach true
      obtain ⟨date, -, rest⟩ := (TimeBase.wf_iff _).mp ht
      exact (TimeBase.wf_iff _).mpr ⟨date, hd, rest⟩
    · split
      · exact h.enterTime _
      · next hl =>
        refine ((h.withTime fun ht => ?_).onWorld _).withReach true
        obtain ⟨date, -, rest⟩ := (TimeBase.wf_iff _).mp ht
        exact (TimeBase.wf_iff _).mpr ⟨Date.next_valid date hl, Nat.zero_lt_succ _, rest⟩

theorem tick (h : s.Keeps t) : s.Keeps t.tick := by
  rw [tick_eq]
  exact h.counted.advance

/-! ### Steps, the pulse and settings (R4, R5, R7 to R12) -/

theorem stepBy (h : s.Keeps t) {d : Int} (hd : d.natAbs ≤ 100) : s.Keeps (t.stepBy d) := by
  unfold State.stepBy
  split
  · refine h.trans (of_time (fun ht => ?_) (stepForward_lib _ _) (stepForward_port _ _))
    rw [stepForward_time]
    exact TimeBase.forward_wf ht (by omega)
  · exact h.withTime fun ht => TimeBase.back_wf ht _

theorem faultless (h : s.Keeps t) : s.Keeps { t with time := { t.time with faults := 0 } } :=
  h.withTime TimeBase.faultless_wf

theorem pulse (h : s.Keeps t) : s.Keeps t.pulse := by
  have pulsed : s.Keeps t.pulsed := h.withTime TimeBase.pulsed_wf
  obtain ⟨low, high, -⟩ := phaseError_bounds t.time.tod
  have locked := ((pulsed.stepBy (d := -phaseError t.time.tod) (by omega)).faultless).enterTime .locked
  unfold State.pulse
  dsimp only
  split
  · split
    · exact locked.raise _
    · exact locked
  · split
    · next hf =>
      refine pulsed.withTime fun ht => ?_
      obtain ⟨date, tod, -, rest⟩ := (TimeBase.wf_iff _).mp ht
      exact (TimeBase.wf_iff _).mpr ⟨date, tod, hf, rest⟩
    · exact locked.raise _

theorem trim (h : s.Keeps t) {d : Int} (hd : d.natAbs ≤ 100) : s.Keeps (t.trim d) := by
  have trimmed := ((h.stepBy hd).faultless).enterTime .free
  unfold State.trim
  dsimp only
  split
  · exact trimmed.raise _
  · exact trimmed

theorem jump (h : s.Keeps t) {d : Date} {tod : Nat} (hv : d.valid = true) (ht : tod < 8640000) :
    s.Keeps (t.jump d tod) := by
  refine h.trans (of_time (fun hw => ?_) (jump_lib _ _ _) ?_)
  · obtain ⟨-, -, -, -, error⟩ := (TimeBase.wf_iff _).mp hw
    rw [jump_time]
    exact (TimeBase.wf_iff _).mpr ⟨hv, ht, Nat.zero_le _, Nat.zero_le _, error⟩
  · rw [jump_eq]
    split <;> exact enterStepped_port _ _ _

theorem setTo (h : s.Keeps t) {d : Date} {tod : Nat} (hv : d.valid = true) (ht : tod < 8640000) :
    s.Keeps (t.setTo d tod).1 := by
  unfold State.setTo
  dsimp only
  split
  · exact h
  · split
    · next hd => exact h.trim hd.2
    · exact h.jump hv ht

theorem putTime (h : s.Keeps t) (y m d tod : Nat) : s.Keeps (t.putTime y m d tod).1 := by
  unfold State.putTime
  dsimp only
  split
  · exact h
  · split
    · exact h
    · split
      · exact h
      · next hv =>
        split
        · exact h
        · next ht =>
          exact h.meet.setTo (by simpa using hv) (Nat.not_le.mp ht)

theorem putPulse (h : s.Keeps t) (e p : Nat) : s.Keeps (t.putPulse e p).1 := by
  unfold State.putPulse
  split
  · exact h
  · exact h
  · have set (x : TimeBase) (hx : t.meetHoldover.time.wf = true → x.wf = true) :
        s.Keeps { t.meetHoldover with time := x } := h.meetHoldover.withTime hx
    have still (on : Bool) (edge : Edge) (ht : t.meetHoldover.time.wf = true) :
        ({ t.meetHoldover.time with
          enabled := on, polarity := edge, faults := 0, silence := 0 } : TimeBase).wf = true := by
      obtain ⟨date, tod, -, -, error⟩ := (TimeBase.wf_iff _).mp ht
      exact (TimeBase.wf_iff _).mpr ⟨date, tod, Nat.zero_le _, Nat.zero_le _, error⟩
    dsimp only
    split
    · exact (set _ (still _ _)).enterTime _
    · exact set _ (still _ _)

/-! ### Requests (TABLE 0-6) -/

theorem change (f : Env → World → World × Answer) : s.Keeps (s.change f).1 := of_same rfl rfl rfl

theorem onLib {f : Library → Library × Answer} (hf : s.lib.wf → (f s.lib).1.wf) : s.Keeps (s.onLib f).1 :=
  ⟨id, hf, .refl _⟩

/-- A notice's sent mark withheld changes no reply being sent (R195). -/
theorem clearNotices (mask : Nat) : s.Keeps (s.clearNotices mask).1 := by
  refine ⟨id, id, rfl, rfl, fun h => ⟨h.queue, h.overruns, h.checkErrors, h.overrunCount⟩, fun h r hr => ?_⟩
  obtain ⟨f, hf, heq⟩ := Option.map_eq_some_iff.mp hr
  split at heq
  · cases heq
  · exact h r (hf.trans (congrArg some heq))

theorem subscribe (mask : Nat) : s.Keeps (s.subscribe mask).1 :=
  ⟨id, id, rfl, rfl, fun h => ⟨h.queue, h.overruns, h.checkErrors, h.overrunCount⟩, id⟩

/-- Each request at its block (R190 step 3). -/
theorem serveRequest (r : Request) (s : State) : s.Keeps (serveRequest r s).1 := by
  cases r with
  | setTime => exact (refl s).putTime _ _ _ _
  | setPulse => exact (refl s).putPulse _ _
  | putLook => exact onLib fun h => h.putLook _ _
  | openShow => exact onLib fun h => h.openShowAs _ _
  | addSection => exact onLib fun h => h.addSection _ _ _ _
  | addCues => exact onLib fun h => h.addCues _ _
  | closeShow => exact onLib fun h => h.closeShow _
  | dropShow => exact onLib fun h => h.dropShow _ _
  | clearNotices => exact clearNotices _
  | subscribe => exact subscribe _
  | _ => exact of_same rfl rfl rfl

/-- A frame judged and served (R190). -/
theorem serve (f : HostFrame) (s : State) : s.Keeps (f.serve s).1 := by
  unfold HostFrame.serve
  split
  · exact refl s
  · exact refl s
  · exact serveRequest _ s

end State.Keeps
end Sys2Proof.Machine
end

section
/-! SUPPORT. The Host Line Port's events (R188 to R192, R185, R186) keep the three invariants, and so every step
does. -/

namespace Sys2Proof.Machine

namespace State

variable {s t : State}

/-- The invariant, by the parts of the port's. -/
theorem wf_iff : s.wf ↔ s.time.wf = true ∧ s.lib.wf ∧ s.port.Counted ∧ (s.port.slot = none → s.port.queue = [])
    ∧ s.port.sendsSlot := by
  rw [← Port.wf_iff]
  exact ⟨fun h => ⟨h.time, h.lib, h.port⟩, fun h => ⟨h.1, h.2.1, h.2.2⟩⟩

/-- Taking the next request from a queue that waits beside an empty slot leaves none waiting so (R190). -/
theorem takeNext_wf (ht : s.time.wf = true) (hl : s.lib.wf) (hc : s.port.Counted) :
    s.takeNext.time.wf = true ∧ s.takeNext.lib.wf ∧ s.takeNext.port.Counted
      ∧ (s.takeNext.port.slot = none → s.takeNext.port.queue = [])
      ∧ (s.port.sendsSlot → s.takeNext.port.sendsSlot) := by
  unfold takeNext
  split
  · next f rest hs hq =>
    have keeps := Keeps.serve f { s with port := { s.port with queue := rest } }
    have shorter : rest.length ≤ 4 := by
      have whole := hc.queue
      rw [hq] at whole
      exact (Nat.le_succ _).trans whole
    obtain ⟨queue, overruns, checkErrors, overrunCount⟩ := keeps.port.counted
      ⟨shorter, hc.overruns, hc.checkErrors, hc.overrunCount⟩
    refine ⟨keeps.time ht, keeps.lib hl, ⟨queue, overruns, checkErrors, overrunCount⟩, fun none => ?_,
      fun sends r hr => ?_⟩
    · cases none
    · have sent := keeps.port.sends sends r hr
      rw [keeps.port.slot] at sent
      cases hs.symm.trans sent
  · next hne =>
    refine ⟨ht, hl, hc, fun hs => ?_, id⟩
    cases hq : s.port.queue with
    | nil => rfl
    | cons f rest => exact absurd hq (hne f rest hs)

theorem wf.choose (h : s.wf) : s.choose.wf := (Keeps.refl s).choose.wf h

theorem wf.whole (h : s.wf) (f : HostFrame) : (s.whole f).wf := by
  obtain ⟨time, lib, counted, ordered, sends⟩ := wf_iff.mp h
  unfold State.whole
  dsimp only
  split
  · next hlen =>
    refine wf.choose ?_
    have longer : (s.port.queue ++ [f]).length ≤ 4 := List.length_append.trans_le hlen
    obtain ⟨time, lib, counted, ordered, sent⟩ :=
      takeNext_wf (s := { s with port := { s.port with queue := s.port.queue ++ [f] } }) time lib
        ⟨longer, counted.overruns, counted.checkErrors, counted.overrunCount⟩
    exact wf_iff.mpr ⟨time, lib, counted, ordered, sent sends⟩
  · refine wf.choose (wf_iff.mpr ⟨time, lib, ⟨counted.queue, ?_, counted.checkErrors,
      satUp_le counted.overrunCount⟩, ordered, sends⟩)
    dsimp only
    split
    · next hlen => exact List.length_append.trans_le hlen
    · exact counted.overruns

/-- The receive side and its error count are beside the rest of the port. -/
theorem wf.receiving (h : s.wf) (rx : Rx) {n : Nat} (hn : n ≤ 65535) :
    ({ s with port := { s.port with rx := rx, checkErrors := n } } : State).wf := by
  obtain ⟨time, lib, counted, ordered, sends⟩ := wf_iff.mp h
  exact wf_iff.mpr ⟨time, lib, ⟨counted.queue, counted.overruns, hn, counted.overrunCount⟩, ordered, sends⟩

theorem wf.errors (h : s.wf) : s.port.checkErrors ≤ 65535 := (Port.wf_iff _).mp h.port |>.1.checkErrors

theorem wf.arrive (h : s.wf) (f : HostFrame) : (s.arrive f).wf := by
  unfold State.arrive
  split
  · exact h
  · split
    · exact h.whole f
    · exact (h.receiving .hunt (satUp_le h.errors)).whole f

theorem wf.hostByte (h : s.wf) (x : RxByte) : (s.hostByte x).wf := by
  unfold State.hostByte
  rcases rxByte s.port.rx x with ⟨rx, ev⟩
  have received := h.receiving rx h.errors
  cases ev with
  | nothing => exact received
  | failed => exact h.receiving rx (satUp_le h.errors)
  | whole kind tag body => exact received.whole _

theorem wf.hostBytes (h : s.wf) (bytes : List RxByte) : (s.hostBytes bytes).wf := by
  unfold State.hostBytes
  split
  · exact h
  · exact List.foldlRecOn bytes State.hostByte h fun t ht x _ => ht.hostByte x

theorem wf.warmRestart (ht : s.time.wf = true) (hl : s.lib.wf) (hc : s.port.Counted) : s.warmRestart.wf := by
  have keeps := (Keeps.refl s).closeReach
  refine wf_iff.mpr ⟨TimeBase.warm_wf (keeps.time ht), (keeps.lib hl).warm, ?_, fun _ => rfl, fun _ hr => ?_⟩
  · obtain ⟨-, -, checkErrors, overrunCount⟩ := keeps.port.counted hc
    exact ⟨Nat.zero_le _, Nat.zero_le _, checkErrors, overrunCount⟩
  · cases hr

theorem wf.hostFrameSent (h : s.wf) : s.hostFrameSent.wf := by
  obtain ⟨time, lib, counted, ordered, sends⟩ := wf_iff.mp h
  obtain ⟨queue, overruns, checkErrors, overrunCount⟩ := counted
  have quiet : ({ s with port := { s.port with out := none } } : State).wf :=
    wf_iff.mpr ⟨time, lib, ⟨queue, overruns, checkErrors, overrunCount⟩, ordered, fun _ hr => by cases hr⟩
  unfold State.hostFrameSent
  dsimp only
  split
  · exact h
  · exact quiet.choose
  · refine wf.choose (Keeps.wf ?_ quiet)
    unfold noticeSent
    split
    · exact .of_same rfl rfl rfl
    · exact .refl _
  · split
    · exact wf.choose (wf.warmRestart (by exact time) (by exact lib)
        ⟨queue, overruns, checkErrors, overrunCount⟩)
    · obtain ⟨time, lib, ⟨queue, overruns, checkErrors, overrunCount⟩, ordered, -⟩ :=
        takeNext_wf (s := { s with port := { s.port with slot := none } }) time lib
          ⟨queue, overruns, checkErrors, overrunCount⟩
      exact wf.choose (wf_iff.mpr ⟨time, lib, ⟨queue, overruns, checkErrors, overrunCount⟩, ordered,
        fun _ hr => by cases hr⟩)

theorem wf.hostBreak (h : s.wf) : s.hostBreak.wf := by
  obtain ⟨time, lib, ⟨-, -, checkErrors, overrunCount⟩, -, -⟩ := wf_iff.mp h
  unfold State.hostBreak
  split
  · exact h
  · refine wf.choose ?_
    split
    · exact wf.warmRestart time lib ⟨Nat.zero_le _, Nat.zero_le _, checkErrors, overrunCount⟩
    · exact wf_iff.mpr ⟨time, lib, ⟨Nat.zero_le _, Nat.zero_le _, checkErrors, overrunCount⟩, fun _ => rfl,
        fun _ hr => by cases hr⟩

theorem wf.breakEnd (h : s.wf) : s.breakEnd.wf := by
  obtain ⟨time, lib, ⟨queue, overruns, checkErrors, overrunCount⟩, ordered, sends⟩ := wf_iff.mp h
  exact wf_iff.mpr ⟨time, lib, ⟨queue, overruns, checkErrors, overrunCount⟩, ordered, sends⟩

theorem wf.holdReset (h : s.wf) : s.holdReset.wf := by
  obtain ⟨time, lib, ⟨queue, overruns, checkErrors, overrunCount⟩, ordered, -⟩ := wf_iff.mp h
  exact wf_iff.mpr ⟨time, lib, ⟨queue, overruns, checkErrors, overrunCount⟩, ordered, fun _ hr => by cases hr⟩

/-! ## Commands -/

/-- An event's next state meets the invariant when the event keeps it. -/
theorem wf.event (h : s.wf) {f : State → State} (hf : (f s).wf) (he : s.event f = .next t) : t.wf := by
  unfold State.event at he
  cases he
  split
  · exact h
  · exact hf.choose

theorem wf.dueEvent (h : s.wf) {due : State → Bool} {f : Env → World → World}
    (he : s.dueEvent due f = .next t) : t.wf := by
  refine h.event ?_ he
  split
  · exact ((Keeps.refl s).onWorld _).wf h
  · exact h

theorem wf.pointEvent (h : s.wf) {p : Fin 8} {k : PointKind} {ok : Env → Player → Bool}
    (he : s.pointEvent p k ok = .next t) : t.wf := wf.dueEvent h he

theorem wf.linkEvent (h : s.wf) {l : Fin 4} {due : World → Bool} {f : Env → World → World}
    (he : s.linkEvent l due f = .next t) : t.wf := by
  refine h.event ?_ he
  split
  · exact ((Keeps.refl s).onWorld _).wf h
  · exact h

/-- Every command keeps the invariant. -/
theorem wf.exec (h : s.wf) (c : Instr) (he : exec c s = .next t) : t.wf := by
  cases hc : c.request with
  | some x =>
    rw [exec_request s c x.1 x.2 hc] at he
    exact h.event (h.arrive _) he
  | none =>
    cases c with
    | tickEvent => exact h.event ((Keeps.refl s).tick.wf h) he
    | pulse edge =>
      rw [exec_pulse] at he
      refine h.event ?_ he
      split
      · exact (Keeps.refl s).meet.pulse.wf h
      · exact h
    | pulseSilenceHoldover => exact h.event ((Keeps.refl s).silenceHoldover.wf h) he
    | coldStart high =>
      cases he
      exact wf_iff.mpr ⟨rfl, Library.cold_wf, ⟨Nat.zero_le _, Nat.zero_le _, Nat.zero_le _, Nat.zero_le _⟩,
        fun _ => rfl, fun _ hr => by cases hr⟩
    | resetAsserted =>
      cases he
      exact h.holdReset
    | hostFrameReceived bytes => exact h.event (h.hostBytes bytes) he
    | badKindRequest kind tag body => exact h.event (h.arrive _) he
    | hostFrameSent => exact h.event h.hostFrameSent he
    | hostBreak => exact h.event h.hostBreak he
    | breakEnd => exact h.event h.breakEnd he
    | armPoint => exact h.dueEvent ((exec_armPoint s).symm.trans he)
    | claimPoint p => exact h.pointEvent ((exec_claimPoint s p).symm.trans he)
    | startPoint p => exact h.pointEvent ((exec_startPoint s p).symm.trans he)
    | windowEnd p => exact h.pointEvent ((exec_windowEnd s p).symm.trans he)
    | endCut p => exact h.pointEvent ((exec_endCut s p).symm.trans he)
    | handPoint p => exact h.pointEvent ((exec_handPoint s p).symm.trans he)
    | duePoint p => exact h.pointEvent ((exec_duePoint s p).symm.trans he)
    | releasePoint p => exact h.pointEvent ((exec_releasePoint s p).symm.trans he)
    | sendTick l => exact h.dueEvent ((exec_sendTick s l).symm.trans he)
    | expiryPoint p => exact h.dueEvent ((exec_expiryPoint s p).symm.trans he)
    | scanStart c0 c1 c2 c3 => exact h.dueEvent ((exec_scanStart s c0 c1 c2 c3).symm.trans he)
    | conversionEnd reading => exact h.dueEvent ((exec_conversionEnd s reading).symm.trans he)
    | darkGuardExpiry => exact h.dueEvent ((exec_darkGuardExpiry s).symm.trans he)
    | linkFrameSent l => exact h.linkEvent ((exec_linkFrameSent s l).symm.trans he)
    | driverReply l bytes roundTrip => exact h.linkEvent ((exec_driverReply s l bytes roundTrip).symm.trans he)
    | transferTimeout l => exact h.linkEvent ((exec_transferTimeout s l).symm.trans he)
    | backoffExpiry l a => exact h.linkEvent ((exec_backoffExpiry s l a).symm.trans he)
    | errorAgeExpiry l => exact h.linkEvent ((exec_errorAgeExpiry s l).symm.trans he)
    | warmUpEnd l => exact h.linkEvent ((exec_warmUpEnd s l).symm.trans he)
    | lostDriverPollDue l a => exact h.linkEvent ((exec_lostDriverPollDue s l a).symm.trans he)
    | refreshDue l a => exact h.linkEvent ((exec_refreshDue s l a).symm.trans he)
    | faultRestEnd l => exact h.linkEvent ((exec_faultRestEnd s l).symm.trans he)
    | quiesceWaitEnd l => exact h.linkEvent ((exec_quiesceWaitEnd s l).symm.trans he)
    | _ => cases hc

end State

/-- Settles O57: every command keeps the invariant, and so does the part that idles. -/
theorem everyStepKeepsWf : Obligations.EveryStepKeepsWf := by
  intro s t h he
  cases hp : s.pending with
  | nil =>
    rw [step_idle s hp] at he
    cases he
    exact h
  | cons c rest =>
    rw [step_front s c rest hp] at he
    have front : ({ s with pending := rest } : State).wf := ⟨h.time, h.lib, h.port⟩
    exact front.exec c he

end Sys2Proof.Machine
end

section
/-! SUPPORT. The requests on looks and on a show being built (R17, R18, R20 to R25). -/

namespace Sys2Proof.Machine

/-! ## A request on the library to an idle part -/

section
variable {s : State} (hs : s.idle = true)
include hs

theorem exec_putLook_idle (tag n l0 l1 l2 l3 fade : Nat) : exec (.putLook tag n l0 l1 l2 l3 fade) s =
    .next (State.replied 0x10 tag (s.onLib (·.putLook n ⟨l0, l1, l2, l3, fade⟩))) :=
  exec_request_idle s _ tag (.putLook n l0 l1 l2 l3 fade) rfl hs

theorem exec_openShow_idle (tag n : Nat) (name : List Byte) : exec (.openShow tag n name) s =
    .next (State.replied 0x12 tag (s.onLib (·.openShowAs n name))) :=
  exec_request_idle s _ tag (.openShow n name) rfl hs

theorem exec_addSection_idle (tag n kind length passes : Nat) : exec (.addSection tag n kind length passes) s =
    .next (State.replied 0x13 tag (s.onLib (·.addSection n kind length passes))) :=
  exec_request_idle s _ tag (.addSection n kind length passes) rfl hs

theorem exec_addCues_idle (tag n : Nat) (cues : List CueField) : exec (.addCues tag n cues) s =
    .next (State.replied 0x14 tag (s.onLib (·.addCues n cues))) :=
  exec_request_idle s _ tag (.addCues n cues) rfl hs

theorem exec_closeShow_idle (tag n : Nat) : exec (.closeShow tag n) s =
    .next (State.replied 0x15 tag (s.onLib (·.closeShow n))) :=
  exec_request_idle s _ tag (.closeShow n) rfl hs

theorem exec_dropShow_idle (tag n : Nat) : exec (.dropShow tag n) s =
    .next (State.replied 0x16 tag (s.onLib (·.dropShow n s.world.usesShow))) :=
  exec_request_idle s _ tag (.dropShow n) rfl hs

end

/-- The library after the request, and its answer. -/
theorem exec_onLib {s : State} {i : Instr} {k tag : Nat} {f : Library → Library × Answer} {lib : Library}
    {a : Answer} (he : exec i s = .next (State.replied k tag (s.onLib f))) (hf : f s.lib = (lib, a)) :
    exec i s = .next (State.replied k tag ({ s with lib := lib }, a)) := by
  rw [he, State.onLib, hf]

/-! ## Looks (R17, R18) -/

theorem exec_putLook_set (s : State) (tag l0 l1 l2 l3 : Nat) {fade : Nat} {i : Fin 256} (hs : s.idle = true)
    (hi : i ≠ 0) (hf : fade ≤ 3000) :
    exec (.putLook tag i.val l0 l1 l2 l3 fade) s = .next (State.replied 0x10 tag
      ({ s with lib := { s.lib with looks := s.lib.looks.set i ⟨l0, l1, l2, l3, fade⟩ } }, .ok [])) :=
  exec_onLib (exec_putLook_idle hs _ _ _ _ _ _ _) (s.lib.putLook_set hi hf)

/-- Settles O12: the three cases of PUT_LOOK. -/
theorem putLookReplacesLook : Obligations.PutLookReplacesLook := by
  intro s tag look l0 l1 l2 l3 fade hs
  refine ⟨fun h => ?_, ?_, ?_⟩
  · exact exec_onLib (exec_putLook_idle hs _ _ _ _ _ _ _) (s.lib.putLook_number ⟨l0, l1, l2, l3, fade⟩ h)
  · rintro i rfl hi hf
    exact exec_onLib (exec_putLook_idle hs _ _ _ _ _ _ _) (s.lib.putLook_fade hi hf)
  · rintro i rfl hi hf
    exact exec_putLook_set s tag l0 l1 l2 l3 hs hi hf

theorem Library.getLook_val (lib : Library) (i : Fin 256) :
    lib.getLook i.val = .ok (lib.copyLook i).bytes := by
  unfold getLook
  rw [index?_val]

/-- Settles O13: GET_LOOK reads the record, dark for look 0 and set by the PUT_LOOK before. -/
theorem getLookReadsTable : Obligations.GetLookReadsTable := by
  have reads (s : State) (tag : Nat) (i : Fin 256) (hs : s.idle = true) :
      exec (.getLook tag i.val) s = .next (State.replied 0x11 tag (s, .ok (s.lib.copyLook i).bytes)) := by
    rw [exec_request_idle s _ tag (.getLook i.val) rfl hs, ← s.lib.getLook_val]
    rfl
  refine ⟨fun s tag i hs => reads s tag i hs, fun s tag hs hw => ?_, ?_⟩
  · rw [show (0 : Nat) = (0 : Fin 256).val from rfl, reads s tag 0 hs, Library.copyLook, hw.lookZero]
    rfl
  · intro s t tag l0 l1 l2 l3 fade i hs hi hf ht
    cases (exec_putLook_set s tag l0 l1 l2 l3 hs hi hf).symm.trans ht
    exact Tab.get_set_self _ _ _

/-! ## OPEN_SHOW and ADD_SECTION (R21 to R23) -/

theorem kind?_some {k : Nat} (h : k ≤ 2) : ∃ x, kind? k = some x := by
  interval_cases k <;> exact ⟨_, rfl⟩

/-- Settles O14: the cases of OPEN_SHOW and of ADD_SECTION. -/
theorem showOpenedAndSectioned : Obligations.ShowOpenedAndSectioned := by
  refine ⟨fun s tag n hs hn => ⟨fun name => ?_, fun kind length passes => ?_⟩, fun s tag n name hs => ⟨?_, ?_, ?_⟩,
    fun s tag n kind length passes hs => ⟨?_, ?_, ?_, ?_, ?_⟩⟩
  · exact exec_onLib (exec_openShow_idle hs _ _ _) (s.lib.forShow_none hn _)
  · exact exec_onLib (exec_addSection_idle hs _ _ _ _ _) (s.lib.forShow_none hn _)
  · intro he
    exact exec_onLib (exec_openShow_idle hs _ _ _) (s.lib.openShowAs_nonempty name he)
  · rintro he ⟨m, hm, hn⟩
    exact exec_onLib (exec_openShow_idle hs _ _ _) (s.lib.openShowAs_inUse name he hm hn)
  · intro he ho
    exact exec_onLib (exec_openShow_idle hs _ _ _) (s.lib.openShowAs_opens name he ho)
  · intro hb
    exact exec_onLib (exec_addSection_idle hs _ _ _ _ _) (s.lib.addSection_closed hb)
  · intro hb hk
    exact exec_onLib (exec_addSection_idle hs _ _ _ _ _) (s.lib.addSection_kind hb (Library.kind?_none hk))
  · rintro hb hk rfl
    obtain ⟨x, hx⟩ := kind?_some hk
    exact exec_onLib (exec_addSection_idle hs _ _ _ _ _) (s.lib.addSection_length hb hx)
  · intro hb hk hl hf
    obtain ⟨x, hx⟩ := kind?_some hk
    exact exec_onLib (exec_addSection_idle hs _ _ _ _ _) (s.lib.addSection_full hb hx hl hf)
  · intro k hb hk hl hf
    exact exec_onLib (exec_addSection_idle hs _ _ _ _ _) (s.lib.addSection_adds hb hk hl hf)

/-! ## ADD_CUES (R20, R24, R25) -/

/-- The slot of an index lies in one of the blocks. -/
theorem slotOf_block {blocks : List Nat} {i t : Nat} (h : slotOf blocks i = some t) :
    ∃ b, blocks[i / 64]? = some b ∧ t = b * 64 + i % 64 := by
  obtain ⟨b, hb, ht⟩ := Option.map_eq_some_iff.mp h
  exact ⟨b, hb, ht.symm⟩

theorem slotOf_mem {blocks : List Nat} {i t : Nat} (h : slotOf blocks i = some t) : t / 64 ∈ blocks := by
  obtain ⟨b, hb, rfl⟩ := slotOf_block h
  rw [show (b * 64 + i % 64) / 64 = b by omega]
  exact List.mem_of_getElem? hb

/-- Two indexes of a show have two slots. -/
theorem slotOf_inj {blocks : List Nat} (hn : blocks.Nodup) {i j t : Nat} (hi : slotOf blocks i = some t)
    (hj : slotOf blocks j = some t) : i = j := by
  obtain ⟨b, hb, rfl⟩ := slotOf_block hi
  obtain ⟨c, hc, ht⟩ := slotOf_block hj
  have same : c = b := by omega
  rw [same] at hc
  have index := (List.getElem?_inj (List.getElem?_eq_some_iff.mp hb).1 hn).mp (hb.trans hc.symm)
  omega

theorem slotOf_lt {blocks : List Nat} (hb : ∀ b ∈ blocks, b < 128) {i t : Nat} (h : slotOf blocks i = some t) :
    t < 8192 := by
  have := hb _ (slotOf_mem h)
  omega

theorem slotOf_isSome {blocks : List Nat} {i : Nat} (h : i < 64 * blocks.length) : ∃ t, slotOf blocks i = some t := by
  have hi : i / 64 < blocks.length := by omega
  exact ⟨_, by rw [slotOf, List.getElem?_eq_getElem hi]; rfl⟩

/-- The slots of a show's indexes stay when it takes more blocks. -/
theorem slotOf_append {blocks : List Nat} (more : List Nat) {i : Nat} (h : i < 64 * blocks.length) :
    slotOf (blocks ++ more) i = slotOf blocks i := by
  rw [slotOf, List.getElem?_append_left (by omega), slotOf]

section
variable {blocks : List Nat} (hb : ∀ b ∈ blocks, b < 128)
include hb

/-- A slot that none of the written indexes has is as it was. -/
theorem writeCues_other (i : Nat) (cues : List Cue) {pool : List (Nat × Cue)} (hp : poolWf 0 pool = true) {t : Nat}
    (h : ∀ k, k < cues.length → slotOf blocks (i + k) ≠ some t) :
    poolGet t (writeCues blocks i cues pool) = poolGet t pool := by
  induction cues generalizing i pool with
  | nil => rfl
  | cons c rest ih =>
    have later (k : Nat) (hk : k < rest.length) : slotOf blocks (i + 1 + k) ≠ some t := by
      rw [show i + 1 + k = i + (k + 1) by omega]
      exact h (k + 1) (Nat.succ_lt_succ hk)
    unfold writeCues
    cases hs : slotOf blocks i with
    | none => exact ih (i + 1) hp later
    | some u =>
      have apart : t ≠ u := by
        rintro rfl
        exact h 0 (Nat.succ_pos _) hs
      rw [ih (i + 1) (poolPut_wf u c 0 pool (slotOf_lt hb hs) (Nat.zero_le _) hp) later,
        poolGet_put u t c 0 pool hp, if_neg apart]

/-- A written index holds its cue. -/
theorem writeCues_written (hn : blocks.Nodup) (i : Nat) (cues : List Cue) {pool : List (Nat × Cue)}
    (hp : poolWf 0 pool = true) {k t : Nat} {c : Cue} (hc : cues[k]? = some c)
    (ht : slotOf blocks (i + k) = some t) : poolGet t (writeCues blocks i cues pool) = some c := by
  induction cues generalizing i k pool with
  | nil => cases hc
  | cons d rest ih =>
    unfold writeCues
    cases k with
    | zero =>
      cases hc
      have ht : slotOf blocks i = some t := ht
      rw [ht, writeCues_other hb (i + 1) rest
        (poolPut_wf t c 0 pool (slotOf_lt hb ht) (Nat.zero_le _) hp) fun k _ hk => ?_, poolGet_put t t c 0 pool hp,
        if_pos rfl]
      have same := slotOf_inj hn ht hk
      omega
    | succ k =>
      have ht : slotOf blocks (i + 1 + k) = some t := by
        rw [← ht]
        congr 1
        omega
      refine ih (i + 1) ?_ hc ht
      split
      · exact hp
      · next u hu => exact poolPut_wf u d 0 pool (slotOf_lt hb hu) (Nat.zero_le _) hp

end

namespace Library

variable {lib : Library}

/-- The blocks of a show hold its cues (R25). -/
theorem wf.cues_held (h : lib.wf) (n : Fin 32) : (lib.showRec n).cues ≤ 64 * (lib.showRec n).blocks.length := by
  obtain ⟨-, -, blocks, -⟩ := (lib.showRec n).wf_iff.mp (h.shows n)
  omega

/-- The library once a batch has been written to show `n` (R25). -/
def written (lib : Library) (n : Fin 32) (batch : List Cue) : Library :=
  let r := lib.showRec n
  let need := r.needs batch.length
  let r' := r.grown (lib.free.take need) batch.length
  ⟨lib.looks, lib.shows.set n r', writeCues r'.blocks r.cues batch lib.pool, lib.free.drop need, lib.openShow⟩

theorem written_showRec (n : Fin 32) (batch : List Cue) : (lib.written n batch).showRec n =
    (lib.showRec n).grown (lib.free.take ((lib.showRec n).needs batch.length)) batch.length :=
  Tab.get_set_self _ _ _

theorem written_other {n m : Fin 32} (batch : List Cue) (hm : m ≠ n) :
    (lib.written n batch).showRec m = lib.showRec m := Tab.get_set_ne _ _ hm.symm

section
variable {n : Fin 32} {batch : List Cue} (h : lib.wf) (hw : (lib.written n batch).wf)
include h hw

/-- A cue of the batch at the next show-wide index (R24). -/
theorem wf.written_new {k : Nat} {c : Cue} (hc : batch[k]? = some c) :
    (lib.written n batch).cueAt ((lib.written n batch).showRec n) ((lib.showRec n).cues + k) = some c := by
  have held := hw.cues_held n
  have nodup := hw.blocks_nodup n
  have bound (b : Nat) := hw.block_lt n (b := b)
  have hk := (List.getElem?_eq_some_iff.mp hc).1
  have total : ((lib.written n batch).showRec n).cues = (lib.showRec n).cues + batch.length := by
    rw [written_showRec]; rfl
  have inside := total ▸ Nat.add_lt_add_left hk (lib.showRec n).cues
  obtain ⟨t, ht⟩ := slotOf_isSome (inside.trans_le held)
  rw [cueAt, ht, Option.bind_some]
  rw [written_showRec] at ht nodup bound
  exact writeCues_written bound nodup _ batch h.pool hc ht

/-- A cue that stood before stands as it was (R25). -/
theorem wf.written_old {i : Nat} (hi : i < (lib.showRec n).cues) :
    (lib.written n batch).cueAt ((lib.written n batch).showRec n) i = lib.cueAt (lib.showRec n) i := by
  have nodup := hw.blocks_nodup n
  have bound (b : Nat) := hw.block_lt n (b := b)
  have held := h.cues_held n
  rw [written_showRec] at nodup bound ⊢
  have same := slotOf_append (lib.free.take ((lib.showRec n).needs batch.length)) (hi.trans_le held)
  rw [cueAt, cueAt, ← same]
  refine Option.bind_congr fun t ht => writeCues_other bound _ batch h.pool fun k _ hk => ?_
  have index := slotOf_inj nodup ht hk
  omega

/-- A cue of another show stands as it was (R20). -/
theorem wf.written_others {m : Fin 32} (hm : m ≠ n) (i : Nat) :
    (lib.written n batch).cueAt ((lib.written n batch).showRec m) i = lib.cueAt (lib.showRec m) i := by
  have bound (b : Nat) := hw.block_lt n (b := b)
  have apart := hw.blocks_disjoint hm
  rw [written_other batch hm] at apart ⊢
  rw [cueAt, cueAt]
  refine Option.bind_congr fun t ht => ?_
  rw [written_showRec] at bound apart
  exact writeCues_other bound _ batch h.pool fun k _ hk => apart (slotOf_mem ht) (slotOf_mem hk)

end

end Library

/-- An accepted ADD_CUES (R24, R25). -/
theorem exec_addCues_written {s : State} (hs : s.idle = true) (tag : Nat) {n : Fin 32} {cues : List CueField}
    {batch : List Cue} {last : SectionRec} (hb : (s.lib.showRec n).state = .building)
    (hl : (s.lib.showRec n).parts.getLast? = some last) (hc : ¬(cues.length = 0 ∨ 16 < cues.length))
    (hok : batch? last.length 0 cues = .ok batch) (ht : (s.lib.showRec n).cues + batch.length ≤ 1024)
    (hf : (s.lib.showRec n).needs batch.length ≤ s.lib.free.length) :
    exec (.addCues tag (n.val + 1) cues) s = .next (State.replied 0x14 tag ({ s with lib := s.lib.written n batch },
      .ok (bigEndian 2 ((s.lib.showRec n).cues + batch.length) ++ bigEndian 2 (s.lib.showRec n).cues
        ++ [byteOf (s.lib.free.drop ((s.lib.showRec n).needs batch.length)).length]))) := by
  rw [List.length_drop]
  exact exec_onLib (exec_addCues_idle hs _ _ _) (s.lib.addCues_writes hb hl hc hok ht hf)

/-- Settles O15: an accepted batch is read back from the slots it was written to, every other slot being as it was;
the refusals are the cases of the request. -/
theorem cuesAppended : Obligations.CuesAppended := by
  refine ⟨fun s tag n cues hs hn => exec_onLib (exec_addCues_idle hs _ _ _) (s.lib.forShow_none hn _), ?_, ?_⟩
  · intro s tag n cues front last hs hw r blocks hb hp h1 h16 hfit ht hf
    obtain ⟨batch, hok, fields⟩ := batch?_fits 0 cues hfit
    have size : batch.length = cues.length := by simpa using congrArg List.length fields
    have hl : (s.lib.showRec n).parts.getLast? = some last := by rw [hp, List.getLast?_concat]
    rw [← size] at ht
    have need : (s.lib.showRec n).needs batch.length ≤ s.lib.free.length := by rw [size]; exact hf
    have some_part : (s.lib.showRec n).parts ≠ [] := by rw [hp]; simp
    have hw' : (s.lib.written n batch).wf := hw.grows hb some_part ht need
    have grown : (s.lib.showRec n).grown (s.lib.free.take ((s.lib.showRec n).needs cues.length)) cues.length =
        { r with
          blocks := r.blocks ++ s.lib.free.take (blocks - r.blocks.length)
          cues := r.cues + cues.length
          parts := front ++ [{ last with count := last.count + cues.length }] } := by
      rw [← Library.growLast_append, ← hp]
      rfl
    refine ⟨s.lib.written n batch, ?_, rfl, rfl, ?_, ?_, fun i c hc => ?_, fun i hi => hw.written_old hw' hi,
      fun m hm => hw.written_others hw' hm⟩
    · rw [← size]
      exact exec_addCues_written hs tag hb hl (by omega) hok ht need
    · show _ = s.lib.free.drop ((s.lib.showRec n).needs cues.length)
      rw [← size]
      rfl
    · rw [← grown, ← size]
      rfl
    · have field := congrArg (·[i]?) fields
      simp only [List.getElem?_map, hc, Option.map_some] at field
      obtain ⟨q, hq, same⟩ := Option.map_eq_some_iff.mp field
      rw [hw.written_new hw' hq, ← same]
      rfl
  · intro s tag n cues hs r refused
    have answers {a : Answer} (h : s.lib.addCues (n.val + 1) cues = (s.lib, a)) : refused a :=
      exec_onLib (exec_addCues_idle hs _ _ _) h
    refine ⟨fun h => answers (s.lib.addCues_closed h), fun last hb hl => ⟨fun hc => ?_,
      fun h16 front rest c hcues hfront => ?_, fun h1 h16 hfit hfull => ?_⟩⟩
    · exact answers (s.lib.addCues_count hb hl (hc.imp_left List.length_eq_zero_iff.mpr))
    · have filled : ¬(cues.length = 0 ∨ 16 < cues.length) := by
        rw [hcues, List.length_append, List.length_cons] at h16 ⊢
        omega
      have fails {off : Nat} (he : batch? last.length front.length (c :: rest) = .error (front.length, off)) :
          refused (.badField off (some front.length)) := by
        refine answers (s.lib.addCues_field hb hl filled ?_)
        rw [hcues]
        exact batch?_front 0 front (c :: rest) hfront (by rwa [Nat.zero_add])
      exact ⟨fun ho => fails (batch?_offset _ rest ho), fun ho hp => fails (batch?_part _ rest ho hp)⟩
    · obtain ⟨batch, hok, fields⟩ := batch?_fits 0 cues hfit
      have size : batch.length = cues.length := by simpa using congrArg List.length fields
      rw [← size] at hfull
      exact answers (s.lib.addCues_full hb hl (by omega) hok hfull)

end Sys2Proof.Machine
end

section
/-! SUPPORT. CLOSE_SHOW's validation (R26, R32): each test by the places where it fails, the first failure of a
show, and the finite length. DROP_SHOW (R28, R29). -/

namespace Sys2Proof.Machine

/-! ## The order of a section's cues -/

/-- The cue after the one at a place has a lesser offset. -/
def fallsAt (cues : List Cue) (i : Nat) : Prop :=
  ∃ a b, cues[i]? = some a ∧ cues[i + 1]? = some b ∧ b.offset < a.offset

theorem fallsAt_zero (a b : Cue) (rest : List Cue) : fallsAt (a :: b :: rest) 0 ↔ b.offset < a.offset := by
  constructor
  · rintro ⟨x, y, hx, hy, h⟩
    cases hx
    cases hy
    exact h
  · exact fun h => ⟨a, b, rfl, rfl, h⟩

theorem fallsAt_succ (a : Cue) (rest : List Cue) (i : Nat) : fallsAt (a :: rest) (i + 1) ↔ fallsAt rest i := .rfl

theorem not_fallsAt_single (a : Cue) (i : Nat) : ¬fallsAt [a] i := by
  rintro ⟨x, y, -, hy, -⟩
  cases hy

theorem fallsAt_iff_pairwise (cues : List Cue) :
    (∀ i, ¬fallsAt cues i) ↔ cues.Pairwise fun a b => a.offset ≤ b.offset := by
  have le_trans : IsTrans Cue fun a b => a.offset ≤ b.offset := ⟨fun _ _ _ => Nat.le_trans⟩
  rw [← List.isChain_iff_pairwise, List.isChain_iff_getElem]
  constructor
  · intro h i hi
    have no := h i
    refine Nat.not_lt.mp fun hlt => no ⟨_, _, List.getElem?_eq_getElem _, List.getElem?_eq_getElem hi, hlt⟩
  · rintro h i ⟨a, b, ha, hb, hlt⟩
    obtain ⟨_, rfl⟩ := List.getElem?_eq_some_iff.mp ha
    obtain ⟨hi, rfl⟩ := List.getElem?_eq_some_iff.mp hb
    exact absurd (h i hi) (Nat.not_le.mpr hlt)

theorem orderFault_none (n : Nat) (cues : List Cue) (h : ∀ i, ¬fallsAt cues i) : orderFault n cues = none := by
  induction cues generalizing n with
  | nil => rfl
  | cons a rest ih =>
    cases rest with
    | nil => rfl
    | cons b rest =>
      rw [orderFault, if_neg fun hlt => h 0 ((fallsAt_zero a b rest).mpr hlt)]
      exact ih (n + 1) fun i => h (i + 1)

theorem orderFault_first (n : Nat) (cues : List Cue) {i : Nat} (h : fallsAt cues i) (hi : ∀ j < i, ¬fallsAt cues j) :
    orderFault n cues = some (n + i + 1) := by
  induction cues generalizing n i with
  | nil => obtain ⟨a, b, ha, -⟩ := h; cases ha
  | cons a rest ih =>
    cases rest with
    | nil => exact absurd h (not_fallsAt_single a i)
    | cons b rest =>
      rw [orderFault]
      cases i with
      | zero => exact if_pos ((fallsAt_zero a b rest).mp h)
      | succ i =>
        rw [if_neg fun hlt => hi 0 (Nat.succ_pos _) ((fallsAt_zero a b rest).mpr hlt),
          ih (n + 1) h fun j hj => hi (j + 1) (Nat.succ_lt_succ hj)]
        congr 1
        omega

/-! ## A part twice at one offset -/

/-- The cue at a place has the offset and the part of an earlier one. -/
def againAt (cues : List Cue) (i : Nat) : Prop :=
  ∃ j a b, j < i ∧ cues[j]? = some a ∧ cues[i]? = some b ∧ a.offset = b.offset ∧ a.part = b.part

/-- The cue at a place has an offset and a part already seen, or those of an earlier one. -/
def seenAt (seen : List (Nat × Fin 16)) (cues : List Cue) (i : Nat) : Prop :=
  (∃ b, cues[i]? = some b ∧ (b.offset, b.part) ∈ seen) ∨ againAt cues i

theorem seenAt_nil (cues : List Cue) (i : Nat) : seenAt [] cues i ↔ againAt cues i := by simp [seenAt]

theorem seenAt_zero (seen : List (Nat × Fin 16)) (c : Cue) (rest : List Cue) :
    seenAt seen (c :: rest) 0 ↔ (c.offset, c.part) ∈ seen := by simp [seenAt, againAt]

theorem seenAt_succ (seen : List (Nat × Fin 16)) (c : Cue) (rest : List Cue) (i : Nat) :
    seenAt seen (c :: rest) (i + 1) ↔ seenAt ((c.offset, c.part) :: seen) rest i := by
  constructor
  · rintro (⟨b, hb, hs⟩ | ⟨j, a, b, hj, ha, hb, ho, hp⟩)
    · exact .inl ⟨b, hb, List.mem_cons_of_mem _ hs⟩
    · cases j with
      | zero =>
        cases ha
        exact .inl ⟨b, hb, by rw [ho, hp]; exact List.mem_cons_self⟩
      | succ j => exact .inr ⟨j, a, b, Nat.lt_of_succ_lt_succ hj, ha, hb, ho, hp⟩
  · rintro (⟨b, hb, hs⟩ | ⟨j, a, b, hj, ha, hb, ho, hp⟩)
    · rcases List.mem_cons.mp hs with same | old
      · obtain ⟨ho, hp⟩ := Prod.mk.inj same
        exact .inr ⟨0, c, b, Nat.succ_pos _, rfl, hb, ho.symm, hp.symm⟩
      · exact .inl ⟨b, hb, old⟩
    · exact .inr ⟨j + 1, a, b, Nat.succ_lt_succ hj, ha, hb, ho, hp⟩

theorem againAt_iff_pairwise (cues : List Cue) :
    (∀ i, ¬againAt cues i) ↔ cues.Pairwise fun a b => ¬(a.offset = b.offset ∧ a.part = b.part) := by
  rw [List.pairwise_iff_getElem]
  constructor
  · rintro h i j hi hj hij ⟨ho, hp⟩
    exact h j ⟨i, _, _, hij, List.getElem?_eq_getElem hi, List.getElem?_eq_getElem hj, ho, hp⟩
  · rintro h i ⟨j, a, b, hj, ha, hb, same⟩
    obtain ⟨hj', rfl⟩ := List.getElem?_eq_some_iff.mp ha
    obtain ⟨hi', rfl⟩ := List.getElem?_eq_some_iff.mp hb
    exact h j i hj' hi' hj same

theorem twiceFault_none (seen : List (Nat × Fin 16)) (n : Nat) (cues : List Cue) (h : ∀ i, ¬seenAt seen cues i) :
    twiceFault seen n cues = none := by
  induction cues generalizing seen n with
  | nil => rfl
  | cons c rest ih =>
    rw [twiceFault, if_neg]
    · exact ih _ _ fun i hi => h (i + 1) ((seenAt_succ seen c rest i).mpr hi)
    · rw [List.contains_iff_mem]
      exact mt (seenAt_zero seen c rest).mpr (h 0)

theorem twiceFault_first (seen : List (Nat × Fin 16)) (n : Nat) (cues : List Cue) {i : Nat} (h : seenAt seen cues i)
    (hi : ∀ j < i, ¬seenAt seen cues j) : twiceFault seen n cues = some (n + i) := by
  induction cues generalizing seen n i with
  | nil => rcases h with ⟨b, hb, -⟩ | ⟨j, a, b, -, ha, -⟩ <;> [cases hb; cases ha]
  | cons c rest ih =>
    rw [twiceFault]
    cases i with
    | zero => exact if_pos (List.contains_iff_mem.mpr ((seenAt_zero seen c rest).mp h))
    | succ i =>
      rw [if_neg, ih _ (n + 1) ((seenAt_succ seen c rest i).mp h) fun j hj hs =>
        hi (j + 1) (Nat.succ_lt_succ hj) ((seenAt_succ seen c rest j).mpr hs)]
      · congr 1
        omega
      · rw [List.contains_iff_mem]
        exact mt (seenAt_zero seen c rest).mpr (hi 0 (Nat.succ_pos _))

/-! ## The tests of a section (R26) -/

/-- A PREROLL that is not the first section, or a CODA that is not the last. -/
def misplaced (n k : Nat) (sec : SectionRec) : Prop :=
  (sec.kind = .preroll ∧ k ≠ 0) ∨ (sec.kind = .coda ∧ k + 1 ≠ n)

/-- A PREROLL whose passes are not ENDLESS, or a CODA of another number than 1. -/
def badPasses (sec : SectionRec) : Prop :=
  (sec.kind = .preroll ∧ sec.passes ≠ 0) ∨ (sec.kind = .coda ∧ sec.passes ≠ 1)

/-- The cues of a section. -/
def Library.cuesOf (lib : Library) (r : ShowRec) (sec : SectionRec) : List Cue :=
  lib.cuesFrom r sec.count sec.first

/-- A section that passes its tests. -/
def Library.passes (lib : Library) (r : ShowRec) (n k : Nat) (sec : SectionRec) : Prop :=
  ¬misplaced n k sec ∧ ¬badPasses sec ∧ sec.count ≠ 0 ∧ (∀ i, ¬fallsAt (lib.cuesOf r sec) i)
    ∧ ∀ i, ¬againAt (lib.cuesOf r sec) i

section
variable {lib : Library} {r : ShowRec} {n k : Nat} {sec : SectionRec}

theorem sectionFault_misplaced (h : misplaced n k sec) :
    sectionFault lib r n k sec = some (.sectionOrder, some k, none) := if_pos h

theorem sectionFault_passes (h : ¬misplaced n k sec) (hp : badPasses sec) :
    sectionFault lib r n k sec = some (.sectionPasses, some k, none) := (if_neg h).trans (if_pos hp)

theorem sectionFault_empty (h : ¬misplaced n k sec) (hp : ¬badPasses sec) (hc : sec.count = 0) :
    sectionFault lib r n k sec = some (.emptySection, some k, none) :=
  (if_neg h).trans ((if_neg hp).trans (if_pos hc))

section
variable (h : ¬misplaced n k sec) (hp : ¬badPasses sec) (hc : sec.count ≠ 0)
include h hp hc

theorem sectionFault_falls {i : Nat} (hf : fallsAt (lib.cuesOf r sec) i)
    (hi : ∀ j < i, ¬fallsAt (lib.cuesOf r sec) j) :
    sectionFault lib r n k sec = some (.cueOrder, some k, some (sec.first + i + 1)) := by
  refine (if_neg h).trans ((if_neg hp).trans ((if_neg hc).trans ?_))
  rw [← Library.cuesOf, orderFault_first sec.first _ hf hi]

theorem sectionFault_again (hf : ∀ i, ¬fallsAt (lib.cuesOf r sec) i) {i : Nat} (ha : againAt (lib.cuesOf r sec) i)
    (hi : ∀ j < i, ¬againAt (lib.cuesOf r sec) j) :
    sectionFault lib r n k sec = some (.partTwice, some k, some (sec.first + i)) := by
  refine (if_neg h).trans ((if_neg hp).trans ((if_neg hc).trans ?_))
  rw [← Library.cuesOf, orderFault_none sec.first _ hf]
  dsimp only
  rw [twiceFault_first [] sec.first _ ((seenAt_nil _ i).mpr ha) fun j hj => mt (seenAt_nil _ j).mp (hi j hj)]

end

theorem sectionFault_none (h : lib.passes r n k sec) : sectionFault lib r n k sec = none := by
  obtain ⟨placed, passes, filled, ordered, once⟩ := h
  refine (if_neg placed).trans ((if_neg passes).trans ((if_neg filled).trans ?_))
  rw [← Library.cuesOf, orderFault_none sec.first _ ordered]
  dsimp only
  rw [twiceFault_none [] sec.first _ fun i => mt (seenAt_nil _ i).mp (once i)]

/-- A section that does not pass has a failure. -/
theorem sectionFault_some (h : ¬lib.passes r n k sec) : ∃ f, sectionFault lib r n k sec = some f := by
  by_cases placed : misplaced n k sec
  · exact ⟨_, sectionFault_misplaced placed⟩
  by_cases bad : badPasses sec
  · exact ⟨_, sectionFault_passes placed bad⟩
  by_cases filled : sec.count = 0
  · exact ⟨_, sectionFault_empty placed bad filled⟩
  by_cases falls : ∃ i, fallsAt (lib.cuesOf r sec) i
  · classical
    exact ⟨_, sectionFault_falls placed bad filled (Nat.find_spec falls) fun j => Nat.find_min falls⟩
  by_cases again : ∃ i, againAt (lib.cuesOf r sec) i
  · classical
    exact ⟨_, sectionFault_again placed bad filled (not_exists.mp falls) (Nat.find_spec again)
      fun j => Nat.find_min again⟩
  exact absurd ⟨placed, bad, filled, not_exists.mp falls, not_exists.mp again⟩ h

end

/-! ## The first failure of a show -/

section
variable {lib : Library} {r : ShowRec} {n : Nat}

theorem sectionsFault_none (k : Nat) (parts : List SectionRec)
    (h : ∀ j sec, parts[j]? = some sec → lib.passes r n (k + j) sec) : sectionsFault lib r n k parts = none := by
  induction parts generalizing k with
  | nil => rfl
  | cons x rest ih =>
    have head : lib.passes r n k x := h 0 x rfl
    rw [sectionsFault, sectionFault_none head]
    refine ih (k + 1) fun j sec hj => ?_
    rw [show k + 1 + j = k + (j + 1) by omega]
    exact h (j + 1) sec hj

theorem sectionsFault_first (k : Nat) (parts : List SectionRec) {j : Nat} {sec : SectionRec} {f : ShowFault}
    (hj : parts[j]? = some sec) (before : ∀ i x, i < j → parts[i]? = some x → lib.passes r n (k + i) x)
    (hf : sectionFault lib r n (k + j) sec = some f) : sectionsFault lib r n k parts = some f := by
  induction parts generalizing k j with
  | nil => cases hj
  | cons x rest ih =>
    rw [sectionsFault]
    cases j with
    | zero =>
      cases hj
      have head : sectionFault lib r n k sec = some f := hf
      rw [head]
    | succ j =>
      have head : lib.passes r n k x := before 0 x (Nat.succ_pos _) rfl
      rw [sectionFault_none head]
      rw [show k + (j + 1) = k + 1 + j by omega] at hf
      refine ih (k + 1) hj (fun i y hi hy => ?_) hf
      rw [show k + 1 + i = k + (i + 1) by omega]
      exact before (i + 1) y (Nat.succ_lt_succ hi) hy

/-- Every section of the show passes its tests. -/
def Library.allPass (lib : Library) (r : ShowRec) : Prop :=
  ∀ (k : Nat) (sec : SectionRec), r.parts[k]? = some sec → lib.passes r r.parts.length k sec

theorem showFault_first {k : Nat} {sec : SectionRec} {f : ShowFault} (hk : r.parts[k]? = some sec)
    (before : ∀ j x, j < k → r.parts[j]? = some x → lib.passes r r.parts.length j x)
    (hf : sectionFault lib r r.parts.length k sec = some f) : showFault lib r = some f := by
  have first := sectionsFault_first (lib := lib) (r := r) (n := r.parts.length) 0 r.parts hk
    (by simpa only [Nat.zero_add] using before) (by rwa [Nat.zero_add])
  rw [showFault, first]

theorem showFault_noMain (h : lib.allPass r) (hm : ∀ sec ∈ r.parts, sec.kind ≠ .main) :
    showFault lib r = some (.noMain, none, none) := by
  have passed := sectionsFault_none (lib := lib) (r := r) (n := r.parts.length) 0 r.parts
    fun k sec hk => by simpa only [Nat.zero_add] using h k sec hk
  rw [showFault, passed]
  refine if_neg ?_
  simpa using hm

theorem showFault_none (h : lib.allPass r) (hm : ∃ sec ∈ r.parts, sec.kind = .main) : showFault lib r = none := by
  have passed := sectionsFault_none (lib := lib) (r := r) (n := r.parts.length) 0 r.parts
    fun k sec hk => by simpa only [Nat.zero_add] using h k sec hk
  rw [showFault, passed]
  refine if_pos ?_
  simpa using hm

/-- A show that is not sound has a failure. -/
theorem showFault_some (h : ¬(lib.allPass r ∧ ∃ sec ∈ r.parts, sec.kind = .main)) :
    ∃ f, showFault lib r = some f := by
  by_cases passed : lib.allPass r
  · refine ⟨_, showFault_noMain passed fun sec hs hk => h ⟨passed, sec, hs, hk⟩⟩
  · have failing : ∃ k, ∃ sec, r.parts[k]? = some sec ∧ ¬lib.passes r r.parts.length k sec := by
      simpa [Library.allPass] using passed
    classical
    obtain ⟨sec, hk, fails⟩ := Nat.find_spec failing
    obtain ⟨f, hf⟩ := sectionFault_some fails
    exact ⟨f, showFault_first hk (fun j x hj hx => by_contra fun hn => Nat.find_min failing hj ⟨x, hx, hn⟩) hf⟩

end

/-- A section's tests as R26 lists them. -/
theorem passes_iff (lib : Library) (r : ShowRec) (n k : Nat) (sec : SectionRec) : lib.passes r n k sec ↔
    (sec.kind = .preroll → k = 0 ∧ sec.passes = 0) ∧ (sec.kind = .coda → k + 1 = n ∧ sec.passes = 1)
      ∧ sec.count ≠ 0 ∧ (lib.cuesOf r sec).Pairwise (fun a b => a.offset ≤ b.offset)
      ∧ (lib.cuesOf r sec).Pairwise fun a b => ¬(a.offset = b.offset ∧ a.part = b.part) := by
  rw [Library.passes, fallsAt_iff_pairwise, againAt_iff_pairwise, misplaced, badPasses]
  tauto

/-! ## The finite length (R32) -/

theorem finiteLength_sum (parts : List SectionRec) :
    (parts.map fun s => match s.kind with
      | .preroll => 0
      | .main => s.passes * s.length
      | .coda => s.length).sum
    = ((parts.filter fun x => x.kind == .main).map fun x => x.passes * x.length).sum
      + ((parts.filter fun x => x.kind == .coda).map (·.length)).sum := by
  induction parts with
  | nil => rfl
  | cons x rest ih =>
    rw [List.map_cons, List.sum_cons, ih]
    cases hk : x.kind <;> simp [hk] <;> omega

/-- A length by its ticks, ENDLESS for none. -/
def ShowLength.ofTicks : Option Nat → ShowLength
  | none => .endless
  | some n => .ticks n

theorem lengthBytes_ofTicks (x : Option Nat) : lengthBytes (some (.ofTicks x)) = bigEndian 4 (x.getD 0) := by
  cases x <;> rfl

theorem finiteLength_eq (parts : List SectionRec) :
    let mains := parts.filter fun x => x.kind == .main
    let codas := parts.filter fun x => x.kind == .coda
    finiteLength parts = .ofTicks (if ∃ x ∈ mains, x.passes = 0 then none
      else some ((mains.map fun x => x.passes * x.length).sum + (codas.map (·.length)).sum)) := by
  intro mains codas
  have endless_iff : (parts.any fun s => s.kind == .main && s.passes == 0) = true ↔ ∃ x ∈ mains, x.passes = 0 := by
    simp only [List.any_eq_true, Bool.and_eq_true, beq_iff_eq, mains, List.mem_filter, and_assoc]
  by_cases endless : ∃ x ∈ mains, x.passes = 0
  · rw [if_pos endless]
    exact if_pos (endless_iff.mpr endless)
  · rw [if_neg endless, ← finiteLength_sum]
    exact if_neg (mt endless_iff.mp endless)

/-! ## A show dropped (R28, R29) -/

/-- What refers to a show: a booking of a bank in use, or the copy of a player that is not FREE (R28). -/
theorem World.usesShow_iff (w : World) (i : Fin 32) : w.usesShow i = true ↔
    (∃ bk, ((w.bank bk).state = .loading ∨ (w.bank bk).state = .ready ∨ (w.bank bk).state = .active
        ∨ (w.bank bk).state = .lapsed) ∧ ∃ x ∈ (w.bank bk).list, x.booking.showNo = i)
      ∨ ∃ p c, (w.player p).state ≠ .free ∧ (w.player p).copy = some c ∧ c.booking.showNo = i := by
  have held : (w.players.any fun p => p.state != .free && p.copy.any (·.booking.showNo == i)) = true ↔
      ∃ p c, (w.player p).state ≠ .free ∧ (w.player p).copy = some c ∧ c.booking.showNo = i := by
    rw [Tab.any_iff]
    simp only [Bool.and_eq_true, bne_iff_ne, Option.any_eq_true, beq_iff_eq, World.player, exists_and_left]
  have banks (f : BankRec → Bool) : [w.plans.bankA, w.plans.bankB].any f = true ↔ ∃ bk, f (w.bank bk) = true := by
    simp only [List.any_cons, List.any_nil, Bool.or_false, Bool.or_eq_true]
    exact ⟨fun h => h.elim (⟨.a, ·⟩) (⟨.b, ·⟩), fun ⟨bk, h⟩ => by cases bk; exacts [.inl h, .inr h]⟩
  rw [usesShow, Bool.or_eq_true, held, banks]
  simp only [Bool.and_eq_true, Bool.or_eq_true, beq_iff_eq, List.any_eq_true, or_assoc]

namespace Library

variable {lib : Library}

theorem wf.clearShow_openShow (h : lib.wf) (i : Fin 32) : (lib.clearShow i).openShow =
    if (lib.showRec i).state = .building then none else lib.openShow := by
  have open_ := h.building i
  show (if lib.openShow = some i ∨ (lib.showRec i).state = .building then none else lib.openShow) = _
  simp only [open_, or_self]

/-- The cues of the other shows stay (R20). -/
theorem wf.clearShow_cueAt (h : lib.wf) {i m : Fin 32} (hm : m ≠ i) (k : Nat) :
    (lib.clearShow i).cueAt ((lib.clearShow i).showRec m) k = lib.cueAt (lib.showRec m) k := by
  rw [clearShow_showRec, if_neg hm.symm, cueAt, cueAt]
  refine Option.bind_congr fun t ht => (poolGet_erase _ t _).trans (if_neg fun hb => ?_)
  exact h.blocks_disjoint hm (slotOf_mem ht) hb

end Library

/-! ## The requests -/

/-- A sound show closed, with its length (R26, R32). -/
theorem exec_closeShow_closed {s : State} (hs : s.idle = true) (tag : Nat) {n : Fin 32} {x : Option Nat}
    (hb : (s.lib.showRec n).state = .building) (hf : showFault s.lib (s.lib.showRec n) = none)
    (hx : finiteLength (s.lib.showRec n).parts = .ofTicks x) :
    exec (.closeShow tag (n.val + 1)) s = .next (State.replied 0x15 tag
      ({ s with lib := { s.lib with
          shows := s.lib.shows.set n { s.lib.showRec n with state := .closed, length := some (.ofTicks x) }
          openShow := none } },
        .ok (bigEndian 2 (s.lib.showRec n).cues ++ bigEndian 4 (x.getD 0)))) := by
  rw [← lengthBytes_ofTicks, ← hx]
  exact exec_onLib (exec_closeShow_idle hs _ _) (s.lib.closeShow_closes hb hf)

/-- Settles O16: CLOSE_SHOW by the first failure of the validation, DROP_SHOW by its cases. -/
theorem showClosedAndDropped : Obligations.ShowClosedAndDropped := by
  refine ⟨fun s tag n hs hn => ⟨?_, ?_⟩, fun s tag n hs => ?_, fun s tag n hs => ?_⟩
  · exact exec_onLib (exec_closeShow_idle hs _ _) (s.lib.forShow_none hn _)
  · exact exec_onLib (exec_dropShow_idle hs _ _) (s.lib.forShow_none hn _)
  · intro r cues sound
    have sound_iff : sound ↔ s.lib.allPass r ∧ ∃ sec ∈ r.parts, sec.kind = .main :=
      and_congr_left' (forall₃_congr fun k sec _ => (passes_iff s.lib r _ k sec).symm)
    have fails (hb : r.state = .building) {why : Reason} {a i : Option Nat}
        (hf : showFault s.lib r = some (why, a, i)) :
        exec (.closeShow tag (n.val + 1)) s = .next (State.replied 0x15 tag (s, .invalid why a i)) :=
      exec_onLib (exec_closeShow_idle hs _ _) (s.lib.closeShow_fails hb hf)
    refine ⟨fun hb => ?_, fun hb hn => ?_, ?_, fun hb hok => ?_⟩
    · exact exec_onLib (exec_closeShow_idle hs _ _) (s.lib.closeShow_unopened hb)
    · obtain ⟨⟨why, a, i⟩, hf⟩ := showFault_some (mt sound_iff.mpr hn)
      exact ⟨why, a, i, fails hb hf⟩
    · intro misplaced badPasses falls again passes answers hb
      refine ⟨fun k sec hk before => ?_, fun all noMain => fails hb (showFault_noMain all noMain)⟩
      have first {why : Reason} {a i : Option Nat}
          (hf : sectionFault s.lib r r.parts.length k sec = some (why, a, i)) : answers why a i :=
        fails hb (showFault_first hk before hf)
      exact ⟨fun hm => first (sectionFault_misplaced hm), fun hm hp => first (sectionFault_passes hm hp),
        fun hm hp hc => first (sectionFault_empty hm hp hc), fun hm hp hc =>
          ⟨fun i hf hi => first (sectionFault_falls hm hp hc hf hi),
            fun hf i ha hi => first (sectionFault_again hm hp hc hf ha hi)⟩⟩
    · intro mains codas length
      obtain ⟨all, main⟩ := sound_iff.mp hok
      exact exec_closeShow_closed hs tag hb (showFault_none all main) (finiteLength_eq r.parts)
  · intro r inUse
    have used : s.world.usesShow n = true ↔ inUse := s.world.usesShow_iff n
    refine ⟨fun he => ?_, fun he hu => ?_, fun hw he hu => ?_⟩
    · exact exec_onLib (exec_dropShow_idle hs _ _) (s.lib.dropShow_empty he)
    · exact exec_onLib (exec_dropShow_idle hs _ _) (s.lib.dropShow_inUse he (used.mpr hu))
    · exact ⟨s.lib.clearShow n, exec_onLib (exec_dropShow_idle hs _ _)
        (s.lib.dropShow_clears he (eq_false_of_ne_true (mt used.mp hu))), rfl, rfl, rfl,
        hw.clearShow_openShow n, fun m hm => hw.clearShow_cueAt hm⟩

end Sys2Proof.Machine
end

section
/-! SUPPORT. The reads of the library and of the plans (R33, R34, R56, R57): each record's bytes as section 11.3
lists them. -/

namespace Sys2Proof.Machine

/-! ## Records in replies (section 11.3) -/

/-- A read of an idle part: the part as it was, and the answer. -/
theorem exec_read {s : State} (hs : s.idle = true) {i : Instr} {tag k : Nat} {r : Request} {a : Answer}
    (h : i.request = some (tag, r)) (hk : r.kind = k) (hr : serveRequest r s = (s, a)) :
    exec i s = .next (State.replied k tag (s, a)) := by
  rw [exec_request_idle s i tag r h hs, hr, hk]

theorem SectionRec.bytes_eq (x : SectionRec) : x.bytes =
    (match x.kind with
      | .preroll => 0#8
      | .main => 1#8
      | .coda => 2#8) :: bigEndian 2 x.length ++ byteOf x.passes :: bigEndian 2 x.first ++ bigEndian 2 x.count := by
  unfold bytes
  cases x.kind <;> rfl

theorem ShowState.code_eq (x : ShowState) : x.code = (match x with
    | .empty => 0#8
    | .building => 1#8
    | .closed => 2#8) := by
  cases x <;> rfl

theorem lengthBytes_eq (x : Option ShowLength) : lengthBytes x = (match x with
    | none => [0xFF#8, 0xFF#8, 0xFF#8, 0xFF#8]
    | some .endless => [0#8, 0#8, 0#8, 0#8]
    | some (.ticks n) => bigEndian 4 n) := by
  rcases x with _ | _ | n <;> rfl

/-- A counted list of one byte each. -/
theorem listBytes_bytes {α : Type} (f : α → Byte) (xs : List α) :
    listBytes (fun x => [f x]) xs = byteOf xs.length :: xs.map f :=
  congrArg (byteOf xs.length :: ·) List.map_eq_flatMap.symm

theorem PartEntry.bytes_eq (m : PartEntry) :
    m.bytes = [byteOf m.part.val, byteOf m.zones.length] ++ m.zones.map fun z => byteOf z.val := by
  rw [bytes, listBytes_bytes]
  rfl

theorem Booking.bytes_eq (k : Booking) : k.bytes =
    [byteOf k.id, byteOf (k.showNo.val + 1)] ++ bigEndian 3 k.start
      ++ (match k.mode with
        | .atTime => [0#8, 0xFF#8, 0xFF#8, 0xFF#8, 0xFF#8]
        | .onCondition ch window => [1#8, byteOf ch.val] ++ bigEndian 3 window)
      ++ (match k.endTime with
        | none => [0xFF#8, 0xFF#8, 0xFF#8, 0#8]
        | some v => bigEndian 3 v.tod ++ [if v.nextDay then 1#8 else 0#8])
      ++ [(match k.stopCond with
          | none => 0xFF#8
          | some ch => byteOf ch.val),
        byteOf k.cls, byteOf k.sub,
        match k.policy with
          | .skip => 0#8
          | .join => 1#8
          | .restart => 2#8]
      ++ byteOf k.zmap.length :: k.zmap.flatMap (fun m =>
          [byteOf m.part.val, byteOf m.zones.length] ++ m.zones.map fun z => byteOf z.val) := by
  obtain ⟨id, showNo, start, mode, stop, stopCond, cls, sub, policy, zmap⟩ := k
  have stopBytes : optBytes 1 (stopCond.map (·.val)) = [match stopCond with
        | none => 0xFF#8
        | some ch => byteOf ch.val] := by
    cases stopCond with
    | none => rfl
    | some ch => simp [optBytes, bigEndian]
  have policyByte : policy.code = (match policy with
        | .skip => 0#8
        | .join => 1#8
        | .restart => 2#8) := by
    cases policy <;> rfl
  have parts : zmap.flatMap PartEntry.bytes = zmap.flatMap fun m =>
      [byteOf m.part.val, byteOf m.zones.length] ++ m.zones.map fun z => byteOf z.val :=
    congrArg zmap.flatMap (funext PartEntry.bytes_eq)
  unfold bytes listBytes
  dsimp only
  rw [parts, stopBytes, policyByte]
  cases mode <;> cases stop <;> rfl

theorem Report.bytes_eq (r : Report) : r.bytes =
    [r.progress.code, if r.abrupt then 1#8 else 0#8] ++ optBytes 5 r.startTick ++ optBytes 5 r.endTick
      ++ bigEndian 2 r.counters.late ++ bigEndian 2 r.counters.discarded ++ bigEndian 2 r.counters.preempted
      ++ bigEndian 2 r.counters.undeliverable := by
  unfold bytes flagByte Counters.bytes
  simp only [List.append_assoc]

/-! ## GET_SHOW and GET_POOL (R33, R34) -/

namespace Library

variable (lib : Library)

theorem getPool_eq : lib.getPool = .ok (byteOf lib.free.length :: lib.free.map byteOf
    ++ [match lib.openShow with
      | none => 0xFF#8
      | some n => byteOf (n.val + 1)]) := by
  rw [getPool, listBytes_bytes]
  cases lib.openShow with
  | none => rfl
  | some n => simp [optBytes, bigEndian]

theorem getShow_number {n : Nat} (first : Nat) (h : n = 0 ∨ 32 < n) : lib.getShow n first = .badField 0 := by
  unfold getShow
  rw [show?_none h]

theorem getShow_first (n : Fin 32) {first : Nat} (h : 1023 < first) :
    lib.getShow (n.val + 1) first = .badField 1 := by
  unfold getShow
  rw [show?_place]
  exact if_pos h

theorem getShow_reads (n : Fin 32) {first : Nat} (h : first ≤ 1023) : lib.getShow (n.val + 1) first = .ok
    (let r := lib.showRec n
    r.state.code :: r.name ++ listBytes SectionRec.bytes r.parts ++ listBytes (fun x => [byteOf x]) r.blocks
      ++ bigEndian 2 r.cues ++ lengthBytes r.length
      ++ listBytes Cue.bytes (lib.cuesFrom r (min 16 (r.cues - first)) first)) := by
  unfold getShow
  rw [show?_place]
  exact if_neg (Nat.not_lt.mpr h)

end Library

/-! ## GET_BOOKING and GET_PLAN (R56, R57) -/

namespace World

variable (w : World) {n : Nat}

theorem getBooking_bank (id : Nat) (h : bank? n = none) : w.getBooking n id = .badField 0 := by
  unfold getBooking
  rw [h]

theorem getPlan_bank (page : Option Nat) (h : bank? n = none) : w.getPlan n page = .badField 0 := by
  unfold getPlan
  rw [h]

variable {bk : Bank} (h : bank? n = some bk)
include h

theorem getBooking_missing {id : Nat} (hx : (w.bank bk).find id = none) :
    w.getBooking n id = .no .notFound := by
  unfold getBooking
  rw [h]
  dsimp only
  rw [hx]

theorem getBooking_reads {id : Nat} {x : BankEntry} (hx : (w.bank bk).find id = some x) :
    w.getBooking n id = .ok (x.booking.bytes ++ x.outcome.bytes) := by
  unfold getBooking
  rw [h]
  dsimp only
  rw [hx]

theorem getPlan_waiting {page : Option Nat} (hp : page = none ∨ page = some 0) : w.getPlan n page =
    .ok ((w.bank bk).state.code :: (w.bank bk).date.bytes ++ [byteOf (w.bank bk).list.length]
      ++ listBytes (fun id => [byteOf id]) w.plans.wait ++ bigEndian 4 w.plans.armSeq) := by
  unfold getPlan
  rw [h]
  rcases hp with rfl | rfl <;> rfl

theorem getPlan_first : w.getPlan n (some 1) =
    .ok ((w.bank bk).state.code :: (w.bank bk).date.bytes ++ [byteOf (w.bank bk).list.length]
      ++ listBytes BankEntry.brief ((w.bank bk).list.take 24)) := by
  unfold getPlan
  rw [h]
  rfl

theorem getPlan_second : w.getPlan n (some 2) =
    .ok ((w.bank bk).state.code :: (w.bank bk).date.bytes ++ [byteOf (w.bank bk).list.length]
      ++ listBytes BankEntry.brief (((w.bank bk).list.drop 24).take 24)) := by
  unfold getPlan
  rw [h]
  rfl

theorem getPlan_over {page : Nat} (hp : 2 < page) : w.getPlan n (some page) = .badField 1 := by
  obtain ⟨k, rfl⟩ := Nat.exists_eq_add_of_le' hp
  unfold getPlan
  rw [h]
  rfl

end World

/-- Settles O31: the reads of the library. -/
theorem libraryAndPlanReads : Obligations.LibraryAndPlanReads := by
  intro s tag hs
  refine ⟨fun n first hn => ?_, fun n first hf => ?_, fun n first hf => ?_, ?_, fun n hn => ⟨fun id => ?_,
    fun page => ?_⟩, fun n id bk hb => ⟨fun hx => ?_, fun x hx => ?_⟩, fun n bk hb => ?_⟩
  · exact exec_read hs rfl rfl (congrArg _ (s.lib.getShow_number first hn))
  · exact exec_read hs rfl rfl (congrArg _ (s.lib.getShow_first n hf))
  · refine exec_read hs rfl rfl (congrArg (Prod.mk s) ((s.lib.getShow_reads n hf).trans ?_))
    dsimp only
    rw [lengthBytes_eq, ShowState.code_eq, listBytes_bytes, listBytes, listBytes,
      funext SectionRec.bytes_eq] <;> rfl
  · exact exec_read hs rfl rfl (congrArg (Prod.mk s) s.lib.getPool_eq)
  · exact exec_read hs rfl rfl (congrArg _ (s.world.getBooking_bank id hn))
  · exact exec_read hs rfl rfl (congrArg _ (s.world.getPlan_bank page hn))
  · exact exec_read hs rfl rfl (congrArg _ (s.world.getBooking_missing hb hx))
  · refine exec_read hs rfl rfl (congrArg _ ((s.world.getBooking_reads hb hx).trans ?_))
    rw [Booking.bytes_eq, Report.bytes_eq]
    simp only [List.append_assoc] <;> rfl
  · intro r head brief answered
    have answers {page : Option Nat} {a : Answer} (h : s.world.getPlan n page = a) :
        exec (.getPlan tag n page) s = .next (State.replied 0x28 tag (s, a)) :=
      exec_read hs rfl rfl (congrArg _ h)
    refine ⟨fun page hp => answers ((s.world.getPlan_waiting hb hp).trans ?_),
      answers (s.world.getPlan_first hb), answers (s.world.getPlan_second hb),
      fun page hp => answers (s.world.getPlan_over hb hp)⟩
    rw [listBytes_bytes]
    exact congrArg Answer.ok (List.append_assoc _ _ _)

end Sys2Proof.Machine
end

section
/-! SUPPORT. A player's points and their order (R61, TABLE 4-4). -/

namespace Sys2Proof.Machine

/-! ## The points of a player (TABLE 4-4) -/

/-- The walking states (TABLE 4-4). -/
theorem Player.walking_iff (c : Player) :
    c.walking = true ↔ c.state = .waiting ∨ c.state = .running ∨ c.state = .ending := by
  simp only [walking, Bool.or_eq_true, beq_iff_eq, or_assoc]

namespace Env

variable (e : Env) (c : Player)

/-- A FREE player holds no point. -/
theorem points_free (h : c.state = .free) : e.points c = [] := by
  have still : c.walking = false := by simp [Player.walking, h]
  simp only [points, h, still]
  rfl

/-- An ARMED player begins at its claim point AT_TIME, or before a PREROLL (TABLE 4-4). -/
theorem claimsFirst_iff {m : StartMode} (h : c.mode? = some m) : e.claimsFirst c = true ↔
    m = .atTime ∨ hasPreroll (e.showOf c) = true := by
  unfold claimsFirst
  rw [h]
  cases m <;> simp

/-- A hand point at or before NOW (TABLE 4-4). -/
theorem handDue_iff : e.handDue c = true ↔
    c.walking = true ∧ ∃ a, e.walkAt c = some a ∧ a.2.2 ≤ e.now + 150 := by
  unfold handDue
  rw [Bool.and_eq_true, Option.any_eq_true]
  simp only [decide_eq_true_eq, Config.horizon]

/-- Where a walk stands (R69). -/
theorem walkAt_iff (g : GroupId) (sec : SectionRec) (due : Nat) : e.walkAt c = some (g, sec, due) ↔
    c.walk = some (.stands g) ∧ (e.showOf c).parts[g.sec]? = some sec
      ∧ due = c.epoch.getD 0 + e.lib.offsetAt (e.showOf c) g.cue := by
  unfold walkAt
  split
  · next q hq =>
    rw [hq, Option.map_eq_some_iff]
    constructor
    · rintro ⟨x, hx, heq⟩
      cases heq
      exact ⟨rfl, hx, rfl⟩
    · rintro ⟨hg, hx, rfl⟩
      cases hg
      exact ⟨sec, hx, rfl⟩
  · next hn =>
    constructor
    · intro h
      cases h
    · rintro ⟨hw, -⟩
      exact absurd hw (hn g)

/-- The points a player holds, by their kinds, each with its civic tick + 150 (TABLE 4-4). -/
theorem mem_points (x : Nat × PointKind) : x ∈ e.points c ↔
    (x.2 = .start ∧ c.state = .armed ∧ x.1 = c.startPoint + (if e.claimsFirst c then 0 else 150))
    ∨ (x.2 = .windowEnd ∧ c.state = .waiting
      ∧ ∃ ch n, c.mode? = some (.onCondition ch n) ∧ x.1 = c.startPoint + n + 150)
    ∨ (x.2 = .endCut ∧ c.state ≠ .free ∧ c.state ≠ .ending ∧ c.copy.bind (·.endPoint) = some x.1
      ∧ c.cutFresh = false)
    ∨ (x.2 = .due ∧ c.walking = true ∧ ∃ h, c.hands.head? = some h ∧ x.1 = h.due + 150)
    ∨ (x.2 = .hand ∧ c.walking = true ∧ ∃ g sec, e.walkAt c = some (g, sec, x.1))
    ∨ (x.2 = .release ∧ (c.state = .running ∨ c.state = .ending) ∧ ∃ r, c.release = some r ∧ x.1 = r + 150) := by
  have horizon : Config.horizon = 150 := rfl
  unfold points
  simp only [List.mem_append, or_assoc, horizon]
  refine or_congr ?start (or_congr ?windowEnd (or_congr ?endCut (or_congr ?due (or_congr ?hand ?release))))
  case start =>
    split
    · next h => simp [h, Prod.ext_iff, and_comm]
    · next h => exact iff_of_false List.not_mem_nil fun ⟨_, hs, _⟩ => h hs
  case windowEnd =>
    split
    · next hs hm => simp [hs, hm, Prod.ext_iff, and_comm]
    · next h => exact iff_of_false List.not_mem_nil fun ⟨_, hs, ch, n, hm, _⟩ => h ch n hs hm
  case endCut =>
    split
    · next h => simp [h]
    · next h => simp [h]
    · next t ht hf he =>
      have hf : c.state ≠ .free := hf
      have he : c.state ≠ .ending := he
      cases c.cutFresh <;> simp [ht, hf, he, Prod.ext_iff, and_comm, eq_comm]
    · next ht _ _ => exact iff_of_false List.not_mem_nil fun ⟨_, _, _, hc, _⟩ => by cases ht.symm.trans hc
  case due =>
    split
    · next hw hh => simp [hw, hh, Prod.ext_iff, and_comm]
    · next h =>
      refine iff_of_false List.not_mem_nil fun ⟨_, hw, first, hh, _⟩ => ?_
      obtain ⟨rest, hr⟩ := List.head?_eq_some_iff.mp hh
      exact h first rest hw hr
  case hand =>
    split
    · next hw hh => simp [hw, hh, Prod.ext_iff, and_comm, eq_comm]
    · next h => exact iff_of_false List.not_mem_nil fun ⟨_, hw, g, sec, ha⟩ => h g sec x.1 hw ha
  case release =>
    split
    · next hs hr => simp [hs, hr, Prod.ext_iff, and_comm]
    · next hs hr => simp [hs, hr, Prod.ext_iff, and_comm]
    · next hr he =>
      refine iff_of_false List.not_mem_nil fun ⟨_, hs, t, ht, _⟩ => ?_
      exact hs.elim (hr t · ht) (he t · ht)

/-! ## The first point (R61) -/

end Env

/-- A point comes before another, or is of one tick and rank with it (R61). -/
def notAfter (x y : Nat × PointKind) : Prop := x.1 < y.1 ∨ (x.1 = y.1 ∧ x.2.rank ≤ y.2.rank)

theorem notAfter_trans {x y z : Nat × PointKind} (h : notAfter x y) (k : notAfter y z) : notAfter x z := by
  unfold notAfter at *
  omega

theorem earlier_notAfter (x y : Nat × PointKind) : notAfter (earlier x y) x ∧ notAfter (earlier x y) y := by
  unfold earlier notAfter
  split <;> omega

theorem earlier_cases (x y : Nat × PointKind) : earlier x y = x ∨ earlier x y = y := by
  unfold earlier
  split
  · exact .inr rfl
  · exact .inl rfl

/-- The earliest of a list of points is one of them, and none comes before it. -/
theorem foldl_earlier (x : Nat × PointKind) (rest : List (Nat × PointKind)) :
    rest.foldl earlier x ∈ x :: rest ∧ ∀ y ∈ x :: rest, notAfter (rest.foldl earlier x) y := by
  induction rest generalizing x with
  | nil =>
    refine ⟨List.mem_cons_self, fun y hy => ?_⟩
    rw [List.mem_singleton.mp hy]
    exact .inr ⟨rfl, le_rfl⟩
  | cons z rest ih =>
    obtain ⟨mem, least⟩ := ih (earlier x z)
    obtain ⟨before_x, before_z⟩ := earlier_notAfter x z
    have first := least _ List.mem_cons_self
    refine ⟨?_, fun y hy => ?_⟩
    · rcases List.mem_cons.mp mem with head | tail
      · rw [List.foldl_cons, head]
        rcases earlier_cases x z with hx | hz
        · rw [hx]; exact List.mem_cons_self
        · rw [hz]; exact List.mem_cons_of_mem _ List.mem_cons_self
      · exact List.mem_cons_of_mem _ (List.mem_cons_of_mem _ tail)
    · rcases List.mem_cons.mp hy with rfl | hy
      · exact notAfter_trans first before_x
      · rcases List.mem_cons.mp hy with rfl | hy
        · exact notAfter_trans first before_z
        · exact least y (List.mem_cons_of_mem _ hy)

namespace Env

variable (e : Env) (c : Player)

theorem firstPoint_none_iff : e.firstPoint c = none ↔ ∀ x ∈ e.points c, e.now + 150 < x.1 := by
  have none_due : (e.points c).filter (fun x => x.1 ≤ e.now + Config.horizon) = [] ↔
      ∀ x ∈ e.points c, e.now + 150 < x.1 := by
    simp [List.filter_eq_nil_iff, Config.horizon]
  rw [← none_due]
  unfold firstPoint
  split
  · next h => exact iff_of_true rfl h
  · next h => rw [h]; simp

/-- The first point is one that is due, and no point comes before it. -/
theorem firstPoint_some {k : PointKind} (h : e.firstPoint c = some k) : ∃ t, (t, k) ∈ e.points c
    ∧ t ≤ e.now + 150 ∧ ∀ x ∈ e.points c, notAfter (t, k) x := by
  unfold firstPoint at h
  split at h
  · cases h
  · next x rest due =>
    obtain ⟨mem, least⟩ := foldl_earlier x rest
    rw [← due] at mem least
    obtain ⟨point, reached⟩ := List.mem_filter.mp mem
    have reached : (rest.foldl earlier x).1 ≤ e.now + 150 := of_decide_eq_true reached
    cases h
    refine ⟨_, point, reached, fun y hy => ?_⟩
    by_cases hd : y.1 ≤ e.now + 150
    · exact least y (List.mem_filter.mpr ⟨hy, decide_eq_true hd⟩)
    · exact .inl (by dsimp only; omega)

end Env

/-! ## A reach takes the points in their order (R61, R72) -/

namespace World

variable (w : World) (e : Env) (p : Fin 8) (n : Nat)

theorem pointsFor_none (h : e.firstPoint (w.player p) = none) : w.pointsFor e p n = w := by
  cases n with
  | zero => rfl
  | succ n => rw [pointsFor, h]

theorem pointsFor_some {k : PointKind} (h : e.firstPoint (w.player p) = some k) :
    w.pointsFor e p (n + 1) = (w.act e p k).pointsFor e p n := by
  rw [pointsFor, h]

theorem handReachFor_stop (h : e.firstPoint (w.player p) ≠ some .hand) : w.handReachFor e p n = w := by
  cases n with
  | zero => rfl
  | succ n => exact if_neg h

theorem handReachFor_hand (h : e.firstPoint (w.player p) = some .hand) :
    w.handReachFor e p (n + 1) = (w.handOn e p).handReachFor e p n := if_pos h

theorem handFor_stop (h : e.handDue (w.player p) = false) : w.handFor e p n = w := by
  cases n with
  | zero => rfl
  | succ n => exact if_neg (by rw [h]; decide)

theorem handFor_due (h : e.handDue (w.player p) = true) :
    w.handFor e p (n + 1) = (w.handOn e p).handFor e p n := if_pos h

end World
end Sys2Proof.Machine
end

section
/-! SUPPORT. A group handed on and the walk moved (R69), the pass turn (R70, R77), the state the walk enters, and a
group's play (R71). -/

namespace Sys2Proof.Machine

/-! ## The pass turn (R70, R77) -/

namespace Player

variable (shown : ShowRec) (sec : SectionRec) (g : GroupId) (c : Player)

/-- Another pass of the same section. -/
def again (sec : SectionRec) (g : GroupId) (c : Player) : Player :=
  { c with
    epoch := some (c.epoch.getD 0 + sec.length)
    walk := some (.stands ⟨g.sec, (g.pass + 1) % 65536, sec.first⟩) }

/-- The end of a section's last pass: the next section entered, or the show's end (R70, R77). -/
def turnOver (shown : ShowRec) (sec : SectionRec) (g : GroupId) (c : Player) : Player :=
  let epoch := c.epoch.getD 0 + sec.length
  match shown.parts[g.sec + 1]? with
  | some next =>
    let c := c.walkFrom shown (g.sec + 1) epoch
    if next.kind = .coda then { c with cause := some .completed, release := some (epoch + next.length) } else c
  | none =>
    let c := { c with epoch := some epoch, walk := some .past }
    if sec.kind = .coda then c else { c with cause := some .completed, release := some epoch }

theorem passTurn_endless (h : c.passes = some .endless) : c.passTurn shown sec g = c.again sec g := by
  unfold passTurn
  split
  · next hn => cases h.symm.trans hn
  · rfl

/-- A pass turn with a number of passes left: another pass, or the latched number, or what follows the section. -/
theorem passTurn_left {n : Nat} (h : c.passes = some (.left n)) : c.passTurn shown sec g =
    if 2 ≤ n then { c.again sec g with passes := some (.left (n - 1)) }
    else match c.latch with
      | some m => { c.again sec g with passes := some (.left m), latch := none }
      | none => c.turnOver shown sec g := by
  unfold passTurn turnOver
  split
  · next hn =>
    cases h.symm.trans hn
    rfl
  · next hn => exact absurd h (hn n)

theorem passTurn_more {n : Nat} (h : c.passes = some (.left n)) (hn : 2 ≤ n) :
    c.passTurn shown sec g = { c.again sec g with passes := some (.left (n - 1)) } :=
  (passTurn_left shown sec g c h).trans (if_pos hn)

theorem passTurn_latched {m : Nat} (h : c.passes = some (.left 1)) (hm : c.latch = some m) :
    c.passTurn shown sec g = { c.again sec g with passes := some (.left m), latch := none } := by
  rw [passTurn_left shown sec g c h, if_neg (by decide)]
  split
  · next n hn =>
    cases hm.symm.trans hn
    rfl
  · next hn => cases hm.symm.trans hn

theorem passTurn_over (h : c.passes = some (.left 1)) (hl : c.latch = none) :
    c.passTurn shown sec g = c.turnOver shown sec g := by
  rw [passTurn_left shown sec g c h, if_neg (by decide), hl]

theorem turnOver_next {next : SectionRec} (hn : shown.parts[g.sec + 1]? = some next) :
    c.turnOver shown sec g =
      (let epoch := c.epoch.getD 0 + sec.length
      let moved : Player := { c with
        walk := some (.stands ⟨g.sec + 1, 0, next.first⟩), epoch := some epoch, passes := some (passesOf next) }
      if next.kind = .coda then
        { moved with cause := some .completed, release := some (epoch + next.length) }
      else moved) := by
  unfold turnOver walkFrom
  rw [hn]

theorem turnOver_last (hn : shown.parts[g.sec + 1]? = none) :
    c.turnOver shown sec g =
      (let epoch := c.epoch.getD 0 + sec.length
      let past : Player := { c with epoch := some epoch, walk := some .past }
      if sec.kind = .coda then past else { past with cause := some .completed, release := some epoch }) := by
  unfold turnOver
  rw [hn]

/-- What a move of the walk leaves: the state, the parts' looks and the play. -/
structure Walks (c d : Player) : Prop where
  state : d.state = c.state
  looks : d.looks = c.looks
  play : d.play = c.play
  hands : d.hands = c.hands

theorem passTurn_walks : c.Walks (c.passTurn shown sec g) := by
  unfold passTurn walkFrom
  repeat' split
  all_goals exact ⟨rfl, rfl, rfl, rfl⟩

theorem advance_walks (n : Nat) : c.Walks (c.advance shown sec g n) := by
  unfold advance
  split
  · exact ⟨rfl, rfl, rfl, rfl⟩
  · exact passTurn_walks shown sec g c

/-- A pass turn does not look at the hand-on list or the counters. -/
theorem passTurn_beside (hands : List HandRec) (k : Counters) :
    { c with hands := hands, counters := k }.passTurn shown sec g
      = { c.passTurn shown sec g with hands := hands, counters := k } := by
  unfold passTurn walkFrom
  dsimp only
  repeat' split
  all_goals rfl

end Player

/-! ## A group handed on (R69) -/

/-- What the hand-on list records of the group at a walk position (TABLE 4-2). -/
def Env.handRec (e : Env) (c : Player) (g : GroupId) (sec : SectionRec) (due : Nat) : HandRec :=
  ⟨g, due, e.copyCues (e.lib.group (e.showOf c) sec g.cue), ⟨g, c.epoch.getD 0, c.passes.getD .endless, c.latch⟩⟩

theorem Player.dry_eq (c : Player) : c.dry = c.copy.any (·.booking.cls == 0) := by
  unfold dry booking?
  rw [Option.any_map]

theorem Player.zmap_eq (c : Player) : c.zmap = (c.copy.map (·.booking.zmap)).getD [] := by
  unfold zmap booking?
  rw [Option.map_map]
  rfl

theorem codaOf_iff (s : ShowRec) (i : Nat) (coda : SectionRec) : codaOf s = some (i, coda) ↔
    s.parts.getLast? = some coda ∧ coda.kind = .coda ∧ i + 1 = s.parts.length := by
  unfold codaOf
  split
  · next sec hl =>
    have filled : 0 < s.parts.length := List.length_pos_iff.mpr (by rintro none; rw [none] at hl; cases hl)
    rw [hl]
    by_cases hk : sec.kind = .coda
    · rw [if_pos hk]
      simp only [Option.some.injEq, Prod.mk.injEq]
      constructor
      · rintro ⟨rfl, rfl⟩
        exact ⟨rfl, hk, by omega⟩
      · rintro ⟨rfl, -, hi⟩
        exact ⟨by omega, rfl⟩
    · rw [if_neg hk]
      refine iff_of_false (fun h => by cases h) ?_
      rintro ⟨heq, hc, -⟩
      cases heq
      exact hk hc
  · next hl =>
    refine iff_of_false (fun h => by cases h) ?_
    rintro ⟨heq, -⟩
    cases hl.symm.trans heq

/-- A walk in the CODA stands in it, or has passed the end of a show that has one (R77). -/
theorem inCoda_iff (s : ShowRec) (walk : Option Walk) : walk.any (Walk.inCoda s) = true ↔
    ∃ coda, s.parts.getLast? = some coda ∧ coda.kind = .coda
      ∧ (walk = some .past ∨ ∃ q, walk = some (.stands q) ∧ q.sec + 1 = s.parts.length) := by
  rcases walk with _ | g | _
  · simp
  · simp only [Option.any_some, Walk.inCoda, Option.any_eq_true, Prod.exists, codaOf_iff, beq_iff_eq]
    constructor
    · rintro ⟨i, coda, ⟨hl, hk, hi⟩, rfl⟩
      exact ⟨coda, hl, hk, .inr ⟨g, rfl, hi⟩⟩
    · rintro ⟨coda, hl, hk, ⟨⟨⟩⟩ | ⟨q, ⟨⟩, hq⟩⟩
      exact ⟨_, coda, ⟨hl, hk, hq⟩, rfl⟩
  · simp only [Option.any_some, Walk.inCoda, Option.isSome_iff_exists, Prod.exists, codaOf_iff]
    constructor
    · rintro ⟨i, coda, hl, hk, -⟩
      exact ⟨coda, hl, hk, .inl trivial⟩
    · rintro ⟨coda, hl, hk, -⟩
      have filled : 0 < s.parts.length := List.length_pos_iff.mpr (by rintro none; rw [none] at hl; cases hl)
      exact ⟨s.parts.length - 1, coda, hl, hk, by omega⟩

/-- The head of the hand-on list plays (R71). -/
theorem Player.playHead_cons {c : Player} {h : HandRec} {rest : List HandRec} (hh : c.hands = h :: rest) :
    c.playHead = { c with looks := playCues h.cues c.looks, play := some ⟨h.id, h.due⟩, hands := rest } := by
  unfold playHead
  rw [hh]
  rfl

namespace World

variable (w : World) (e : Env) (p : Fin 8)

/-- Two changes that agree on a player are one change of it. -/
theorem onPlayer_congr {f g : Player → Player} (h : f (w.player p) = g (w.player p)) :
    w.onPlayer p f = w.onPlayer p g :=
  congrArg (fun x => { w with players := w.players.set p x }) h

/-- What wires and dispatcher leave of a player: all but its counters. -/
theorem Kept.player_eq {w v : World} (h : w.Kept v) (p : Fin 8) :
    v.player p = { w.player p with counters := (v.player p).counters } := by
  rw [← h.players p]

theorem reportOn_player (f : Report → Report) (q : Fin 8) : (w.reportOn p f).player q = w.player q := by
  unfold reportOn
  split <;> rfl

/-- The state that a walk enters: ENDING for a RUNNING player in the CODA, and nothing else of the player (R77). -/
theorem walkEnds_player (s : ShowRec) : (w.walkEnds s p).player p = { w.player p with
    state := if (w.player p).state = .running ∧ (w.player p).walk.any (Walk.inCoda s) = true then .ending
      else (w.player p).state } := by
  unfold walkEnds
  dsimp only
  split
  · rw [enterState, reportOn_player, onPlayer_player, if_pos rfl]
  · rfl

/-- A group recorded on the hand-on list and, but by a DRY player, given to the dispatcher (R38, R69). -/
def told (g : GroupId) (sec : SectionRec) (due : Nat) : World :=
  let made := e.handRec (w.player p) g sec due
  let kept := w.onPlayer p fun c => { c with hands := c.hands ++ [made] }
  if (w.player p).dry then kept else kept.takeGroup e p g due (cueItems (w.player p).zmap made.cues)

theorem handOn_stands {g : GroupId} {sec : SectionRec} {due : Nat}
    (h : e.walkAt (w.player p) = some (g, sec, due)) : w.handOn e p =
      ((w.told e p g sec due).onPlayer p (Player.advance (e.showOf (w.player p)) sec g
        (e.lib.group (e.showOf (w.player p)) sec g.cue).length)).walkEnds (e.showOf (w.player p)) p := by
  unfold handOn
  dsimp only
  rw [h]
  rfl

/-- The dispatcher changes the player's counters alone (R86). -/
theorem told_player (g : GroupId) (sec : SectionRec) (due : Nat) : ∃ k, (w.told e p g sec due).player p =
    { w.player p with
      hands := (w.player p).hands ++ [e.handRec (w.player p) g sec due]
      counters := k } := by
  have recorded : (w.onPlayer p fun c => { c with hands := c.hands ++ [e.handRec (w.player p) g sec due] }).player p
      = { w.player p with hands := (w.player p).hands ++ [e.handRec (w.player p) g sec due] } := by
    rw [onPlayer_player, if_pos rfl]
  unfold told
  dsimp only
  split
  · exact ⟨_, recorded⟩
  · have kept := Kept.player_eq ((Kept.refl (w.onPlayer p fun c =>
      { c with hands := c.hands ++ [e.handRec (w.player p) g sec due] })).takeGroup e p g due
        (cueItems (w.player p).zmap (e.handRec (w.player p) g sec due).cues)) p
    rw [recorded] at kept
    exact ⟨_, kept⟩

/-- A player after its group is handed on: the record at the end of the hand-on list, the walk moved, and the state
it enters. -/
theorem handOn_player {g : GroupId} {sec : SectionRec} {due : Nat} (h : e.walkAt (w.player p) = some (g, sec, due)) :
    let c := w.player p
    let shown := e.showOf c
    ∃ k,
      let recorded := { c with hands := c.hands ++ [e.handRec c g sec due], counters := k }
      let d := recorded.advance shown sec g (e.lib.group shown sec g.cue).length
      (w.handOn e p).player p = { d with
        state := if d.state = .running ∧ d.walk.any (Walk.inCoda shown) = true then .ending else d.state } := by
  obtain ⟨k, told⟩ := w.told_player e p g sec due
  refine ⟨k, ?_⟩
  rw [handOn_stands w e p h, walkEnds_player, onPlayer_player, if_pos rfl, told]

section
variable {w e p} {g : GroupId} {sec : SectionRec} {due : Nat} (h : e.walkAt (w.player p) = some (g, sec, due))
include h

/-- The group is recorded at the end of the hand-on list, and nothing plays yet. -/
theorem handOn_hands : ((w.handOn e p).player p).hands = (w.player p).hands ++ [e.handRec (w.player p) g sec due]
    ∧ ((w.handOn e p).player p).looks = (w.player p).looks ∧ ((w.handOn e p).player p).play = (w.player p).play := by
  obtain ⟨k, player⟩ := w.handOn_player e p h
  rw [player]
  have walks := Player.advance_walks (e.showOf (w.player p)) sec g
    { w.player p with hands := (w.player p).hands ++ [e.handRec (w.player p) g sec due], counters := k }
    (e.lib.group (e.showOf (w.player p)) sec g.cue).length
  exact ⟨walks.hands, walks.looks, walks.play⟩

/-- Within the section the walk stands at the next group. -/
theorem handOn_within
    (hn : g.cue + (e.lib.group (e.showOf (w.player p)) sec g.cue).length < sec.first + sec.count) :
    ((w.handOn e p).player p).walk =
        some (.stands ⟨g.sec, g.pass, g.cue + (e.lib.group (e.showOf (w.player p)) sec g.cue).length⟩)
      ∧ ((w.handOn e p).player p).epoch = (w.player p).epoch
      ∧ ((w.handOn e p).player p).passes = (w.player p).passes
      ∧ ((w.handOn e p).player p).latch = (w.player p).latch := by
  obtain ⟨k, player⟩ := w.handOn_player e p h
  rw [player, Player.advance, if_pos hn]
  exact ⟨rfl, rfl, rfl, rfl⟩

/-- At the end of the section the walk takes the pass turn. -/
theorem handOn_turns
    (hn : sec.first + sec.count ≤ g.cue + (e.lib.group (e.showOf (w.player p)) sec g.cue).length) :
    let d := (w.player p).passTurn (e.showOf (w.player p)) sec g
    ((w.handOn e p).player p).walk = d.walk ∧ ((w.handOn e p).player p).epoch = d.epoch
      ∧ ((w.handOn e p).player p).passes = d.passes ∧ ((w.handOn e p).player p).latch = d.latch
      ∧ ((w.handOn e p).player p).cause = d.cause ∧ ((w.handOn e p).player p).release = d.release := by
  obtain ⟨k, player⟩ := w.handOn_player e p h
  have turned : Player.advance (e.showOf (w.player p)) sec g _ _ = _ := (if_neg (Nat.not_lt.mpr hn)).trans
    (Player.passTurn_beside _ sec g (w.player p) ((w.player p).hands ++ [e.handRec (w.player p) g sec due]) k)
  dsimp only at player
  rw [player, turned]
  exact ⟨rfl, rfl, rfl, rfl, rfl, rfl⟩

/-- A RUNNING player whose walk has entered the CODA is ENDING, and every other state stays (R77). -/
theorem handOn_state : ((w.handOn e p).player p).state =
    if (w.player p).state = .running ∧ ((w.handOn e p).player p).walk.any (Walk.inCoda (e.showOf (w.player p))) = true
    then .ending else (w.player p).state := by
  obtain ⟨k, player⟩ := w.handOn_player e p h
  rw [player]
  have walks := Player.advance_walks (e.showOf (w.player p)) sec g
    { w.player p with hands := (w.player p).hands ++ [e.handRec (w.player p) g sec due], counters := k }
    (e.lib.group (e.showOf (w.player p)) sec g.cue).length
  dsimp only
  rw [walks.state]

end

end World

/-! ## The commands -/

namespace State

variable {s : State} {p : Fin 8}

/-- A point of a player that the open reach makes due first (R61). -/
theorem pointEvent_after {k : PointKind} (hh : s.held = false) (hr : s.reachOpen = true)
    (hk : s.env.firstPoint (s.world.player p) = some k) :
    ∃ t, s.pointEvent p k (fun _ _ => true) = .next t ∧ s.After (s.world.act s.env p k) t :=
  dueEvent_after _ _ hh (by rw [hr, hk]; simp)

end State

/-- Settles O29: the hand point and the due point as their actions on the player, the pass turn by its cases, and the
points by their list. -/
theorem groupsHandedOnAndPlayed : Obligations.GroupsHandedOnAndPlayed := by
  refine ⟨fun s p g sec due hh hr => ?_, fun shown sec g c => ?_, fun s p h rest hh hr hk hhands => ?_,
    ⟨rfl, fun e c => ⟨e.points_free c, fun copy hc => ?_⟩⟩, fun e c => ⟨e.firstPoint_none_iff c, fun k hk => ?_⟩,
    fun w e p n => ?_⟩
  · intro c shown group hk hw w
    obtain ⟨t, ht, after⟩ := State.pointEvent_after hh hr hk
    obtain ⟨hands, looks, play⟩ := World.handOn_hands hw
    have state := World.handOn_state hw
    have coda := inCoda_iff shown (w.player p).walk
    have reached : s.world.act s.env p .hand = w.handReachFor s.env p (s.time.civic + 150) :=
      s.world.handReachFor_hand s.env p (s.time.civic + 150) hk
    refine ⟨t, ht, reached ▸ after, hands, looks, play, World.handOn_within hw, World.handOn_turns hw,
      fun hrun hin => state.trans (if_pos ⟨hrun, coda.mpr hin⟩),
      fun hout => state.trans (if_neg fun ⟨hrun, hin⟩ => hout ⟨hrun, coda.mp hin⟩)⟩
  · intro epoch again
    refine ⟨Player.passTurn_endless shown sec g c, fun n => Player.passTurn_more shown sec g c,
      fun m => Player.passTurn_latched shown sec g c, fun hp hl => ⟨fun next hn => ?_, fun hn hk => ?_, fun hn hk => ?_⟩⟩
    · rw [Player.passTurn_over shown sec g c hp hl, Player.turnOver_next shown sec g c hn]
      rfl
    · rw [Player.passTurn_over shown sec g c hp hl, Player.turnOver_last shown sec g c hn]
      exact if_neg hk
    · rw [Player.passTurn_over shown sec g c hp hl, Player.turnOver_last shown sec g c hn]
      exact if_pos hk
  · obtain ⟨t, ht, after⟩ := State.pointEvent_after hh hr hk
    refine ⟨t, ht, ?_⟩
    have played : s.world.act s.env p .due = s.world.onPlayer p fun c => { c with
        looks := h.cues.foldl (fun looks q => looks.set q.part (some q.look)) c.looks
        play := some ⟨h.id, h.due⟩
        hands := rest } := World.onPlayer_congr _ p (Player.playHead_cons hhands)
    exact played ▸ after
  · intro shown claims walks
    have booking : c.booking? = some copy.booking := by rw [Player.booking?, hc]; rfl
    have mode : c.mode? = some copy.booking.mode := by rw [Player.mode?, booking]; rfl
    have show_ : e.showOf c = shown := by rw [Env.showOf, booking]
    have start : c.startPoint = copy.startPoint := by rw [Player.startPoint, hc]; rfl
    have kinds (t : Nat) (k : PointKind) := e.mem_points c (t, k)
    simp only [Player.walking_iff, start, mode, hc, Option.bind_some] at kinds
    refine ⟨show_, fun g sec due => ?_, fun t => ⟨?_, ?_, ?_, ?_, ?_, ?_⟩⟩
    · rw [e.walkAt_iff, show_]
      exact Iff.rfl
    · have claimsFirst : e.claimsFirst c = true ↔ claims := by
        rw [e.claimsFirst_iff c mode, show_]
        exact Iff.rfl
      rw [kinds]
      by_cases hf : e.claimsFirst c = true
      · simp [hf, claimsFirst.mp hf]
      · simp [hf, mt claimsFirst.mpr hf]
    · simp [kinds]
    · simp [kinds]
    · simp [kinds, walks]
    · simp [kinds, walks]
    · simp [kinds]
  · exact e.firstPoint_some c hk
  · refine ⟨w.pointsFor_none e p n, fun k => w.pointsFor_some e p n, w.handReachFor_stop e p n,
      w.handReachFor_hand e p n, fun g sec due hw => ?_, ?_, rfl, rfl⟩
    · intro c shown group copies kept zmap mapped told
      have told_eq : w.told e p g sec due = told := by
        unfold World.told
        dsimp only
        rw [Player.dry_eq, Player.zmap_eq]
        rfl
      rw [w.handOn_stands e p hw, told_eq]
      rfl
    · intro due
      have due_iff : e.handDue (w.player p) = true ↔ due := e.handDue_iff _
      exact ⟨fun h => w.handFor_stop e p n (eq_false_of_ne_true (mt due_iff.mp h)),
        fun h => w.handFor_due e p n (due_iff.mpr h)⟩

end Sys2Proof.Machine
end

section
/-! SUPPORT. The requests on the Plan Banks: what a refusal leaves, what an accepted request leaves, and the tests on
the bank (section 3.1). -/

namespace Sys2Proof.Machine

@[simp] theorem Answer.no_code (c : Code) : (Answer.no c).code = c := rfl
@[simp] theorem Answer.badField_code (off : Nat) (a : Option Nat) : (Answer.badField off a).code = .badField := rfl
@[simp] theorem Answer.invalid_code (r : Reason) (a i : Option Nat) : (Answer.invalid r a i).code = .badField := rfl

namespace State
variable {s : State} {i : Instr} {k tag : Nat} {f : Env → World → World × Answer}

/-- A request that a block refuses changes nothing but the reply slot. -/
theorem exec_refused {a : Answer} (hi : exec i s = .next (replied k tag (s.change f)))
    (h : f s.env s.world = (s.world, a)) (ha : ¬(a.code = .ok ∨ a.code = .started) := by simp) :
    exec i s = .next (replied k tag (s, a)) := by
  rw [hi, State.change, h]
  simp only [if_neg ha]

/-- A request that a block accepts: the blocks as it leaves them, the links then choosing their frames (R143). -/
theorem exec_accepted {w : World} {body : List Byte}
    (hi : exec i s = .next (replied k tag (s.change f)))
    (h : f s.env s.world = (w, .ok body)) :
    ∃ t, exec i s = .next t ∧ s.AfterReply w ⟨k, tag, .ok, body⟩ t := by
  refine ⟨_, hi, ?_⟩
  have := change_after (s := s) k tag f (by rw [h]; exact Or.inl rfl)
  rwa [h] at this

end State

variable {s : State}

theorem exec_openPlan_idle (tag n y m d : Nat) (hs : s.idle = true) : exec (.openPlan tag n y m d) s =
    .next (State.replied 0x20 tag (s.change fun _ => World.openPlan n ⟨y, m, d⟩)) :=
  exec_request_idle s _ tag (.openPlan n y m d) rfl hs

theorem exec_addBooking_idle (tag n : Nat) (f : BookingField) (hs : s.idle = true) :
    exec (.addBooking tag n f) s =
      .next (State.replied 0x21 tag (s.change fun e => World.addBooking e n f)) :=
  exec_request_idle s _ tag (.addBooking n f) rfl hs

theorem exec_sealPlan_idle (tag n : Nat) (hs : s.idle = true) : exec (.sealPlan tag n) s =
    .next (State.replied 0x22 tag (s.change fun e => World.sealPlan e n)) :=
  exec_request_idle s _ tag (.sealPlan n) rfl hs

theorem exec_activatePlan_idle (tag n : Nat) (hs : s.idle = true) : exec (.activatePlan tag n) s =
    .next (State.replied 0x23 tag (s.change fun e =>
      World.activatePlan e (s.time.state == .unset) s.time.date n)) :=
  exec_request_idle s _ tag (.activatePlan n) rfl hs

theorem exec_clearPlan_idle (tag n : Nat) (hs : s.idle = true) : exec (.clearPlan tag n) s =
    .next (State.replied 0x24 tag (s.change fun _ => World.clearPlan n)) :=
  exec_request_idle s _ tag (.clearPlan n) rfl hs

theorem exec_cancelBooking_idle (tag n id abrupt : Nat) (hs : s.idle = true) :
    exec (.cancelBooking tag n id abrupt) s =
      .next (State.replied 0x25 tag (s.change fun e => World.cancelBooking e n id abrupt)) :=
  exec_request_idle s _ tag (.cancelBooking n id abrupt) rfl hs

theorem exec_amendEnd_idle (tag n id tod next : Nat) (hs : s.idle = true) :
    exec (.amendEnd tag n id tod next) s =
      .next (State.replied 0x26 tag (s.change fun e => World.amendEnd e n id tod next)) :=
  exec_request_idle s _ tag (.amendEnd n id tod next) rfl hs

theorem forBank_none {w : World} {n : Nat} {k : Bank → World × Answer} (h : bank? n = none) :
    forBank w n k = (w, .badField 0) := by rw [forBank, h]

theorem forBank_some {w : World} {n : Nat} {k : Bank → World × Answer} {bk : Bank}
    (h : bank? n = some bk) : forBank w n k = k bk := by rw [forBank, h]

/-! ## Opening and clearing a bank (R40, R49) -/

theorem World.refersTo_iff (w : World) (bk : Bank) : w.refersTo bk = true ↔
    ∃ p id, (w.player p).state ≠ .free ∧ (w.player p).ref = some (bk, id) := by
  rw [World.refersTo, Tab.any_iff]
  simp [World.player, Option.any_eq_true, exists_and_left]

section
variable {w : World} {n : Nat} {d : Date} {bk : Bank}

/-- The offset of the first bad field of a date (R40; log entry 17). -/
theorem openPlan_invalid (hb : bank? n = some bk) (hd : d.valid = false) : w.openPlan n d =
    (w, .badField (if d.year < 2000 ∨ 2099 < d.year then 1
      else if d.month = 0 ∨ 12 < d.month then 3 else 4)) := by
  simp [World.openPlan, forBank_some hb, hd]

theorem openPlan_wrongState (hb : bank? n = some bk) (hd : d.valid = true)
    (hr : (w.bank bk).state = .loading ∨ (w.bank bk).state = .ready ∨ (w.bank bk).state = .active) :
    w.openPlan n d = (w, .no .wrongState) := by
  simp [World.openPlan, forBank_some hb, hd, hr]

theorem openPlan_inUse (hb : bank? n = some bk) (hd : d.valid = true)
    (hr : (w.bank bk).state = .empty ∨ (w.bank bk).state = .lapsed ∨ (w.bank bk).state = .spent)
    (hu : w.refersTo bk = true) : w.openPlan n d = (w, .no .inUse) := by
  have hn : ¬((w.bank bk).state = .loading ∨ (w.bank bk).state = .ready
      ∨ (w.bank bk).state = .active) := by
    rcases hr with h | h | h <;> simp [h]
  simp [World.openPlan, forBank_some hb, hd, hn, hu]

theorem openPlan_opens (hb : bank? n = some bk) (hd : d.valid = true)
    (hr : (w.bank bk).state = .empty ∨ (w.bank bk).state = .lapsed ∨ (w.bank bk).state = .spent)
    (hu : ¬w.refersTo bk = true) :
    w.openPlan n d = (w.onBank bk fun _ => ⟨.loading, d, []⟩, .ok []) := by
  have hn : ¬((w.bank bk).state = .loading ∨ (w.bank bk).state = .ready
      ∨ (w.bank bk).state = .active) := by
    rcases hr with h | h | h <;> simp [h]
  simp [World.openPlan, forBank_some hb, hd, hn, hu]

theorem clearPlan_wrongState (hb : bank? n = some bk) (hr : (w.bank bk).state = .active) :
    w.clearPlan n = (w, .no .wrongState) := by
  simp [World.clearPlan, forBank_some hb, hr]

theorem clearPlan_inUse (hb : bank? n = some bk) (hr : (w.bank bk).state ≠ .active)
    (hu : w.refersTo bk = true) : w.clearPlan n = (w, .no .inUse) := by
  simp [World.clearPlan, forBank_some hb, hr, hu]

theorem clearPlan_clears (hb : bank? n = some bk) (hr : (w.bank bk).state ≠ .active)
    (hu : ¬w.refersTo bk = true) :
    w.clearPlan n = (w.onBank bk fun r => { r with state := .empty, list := [] }, .ok []) := by
  simp [World.clearPlan, forBank_some hb, hr, hu]

end

/-- Settles O17: the refusals of the two requests in the order of their tests, and the bank they leave. -/
theorem planOpenedAndCleared : Obligations.PlanOpenedAndCleared := by
  refine ⟨fun s tag n hs hb => ⟨fun y m d => ?_, ?_⟩, fun s tag n y m d bk hs hb => ?_,
    fun s tag n bk hs hb => ?_⟩
  · exact State.exec_refused (exec_openPlan_idle tag n y m d hs) (forBank_none hb)
  · exact State.exec_refused (exec_clearPlan_idle tag n hs) (forBank_none hb)
  · have hi := exec_openPlan_idle tag n y m d hs
    refine ⟨fun hd => State.exec_refused hi (openPlan_invalid hb hd),
      fun hd hr => State.exec_refused hi (openPlan_wrongState hb hd hr),
      fun hd hr => ⟨fun hu => ?_, fun hu => ?_⟩⟩
    · exact State.exec_refused hi (openPlan_inUse hb hd hr ((World.refersTo_iff ..).2 hu))
    · exact State.exec_accepted hi (openPlan_opens hb hd hr fun h => hu ((World.refersTo_iff ..).1 h))
  · have hi := exec_clearPlan_idle tag n hs
    refine ⟨fun hr => State.exec_refused hi (clearPlan_wrongState hb hr),
      fun hr hu => State.exec_refused hi (clearPlan_inUse hb hr ((World.refersTo_iff ..).2 hu)),
      fun hr hu => ?_⟩
    exact State.exec_accepted hi (clearPlan_clears hb hr fun h => hu ((World.refersTo_iff ..).1 h))

end Sys2Proof.Machine
end

section
/-! SUPPORT. The seal (R43, R44): the tests of one booking, and the first booking of a bank that fails them. -/

namespace Sys2Proof.Machine

/-- A channel that a booking names, for its start or its stop, is not enabled (R43). -/
def World.channelOff (w : World) (k : Booking) : Prop :=
  ∃ ch, (w.monitor.channels.get ch).enabled = false
    ∧ ((∃ n, k.mode = .onCondition ch n) ∨ k.stopCond = some ch)

/-- A zone of a booking's map is not configured (R43). -/
def World.zoneBare (w : World) (k : Booking) : Prop :=
  ∃ p ∈ k.zmap, ∃ z ∈ p.zones, (w.zone z).configured = false

/-- A show that nothing ends (R43). -/
def Library.noEnd (lib : Library) (k : Booking) : Prop :=
  (lib.showRec k.showNo).length = some .endless ∧ k.endTime = none ∧ k.stopCond = none

section
variable {lib : Library} {w : World} {k : Booking}

theorem channelOff_iff : w.channelOff k ↔
    ((match k.mode with
      | .atTime => false
      | .onCondition ch _ => !(w.monitor.channels.get ch).enabled)
      || k.stopCond.any fun ch => !(w.monitor.channels.get ch).enabled) = true := by
  unfold World.channelOff
  cases k.mode with
  | atTime => cases k.stopCond <;> simp
  | onCondition ch n => cases k.stopCond <;> simp [and_or_left, exists_or]

theorem zoneBare_iff : w.zoneBare k ↔
    (k.zmap.any fun m => m.zones.any fun z => !(w.zone z).configured) = true := by
  simp [World.zoneBare]

/-- The tests of R43 in their order. -/
theorem sealFault_eq [Decidable (w.channelOff k)] [Decidable (w.zoneBare k)]
    [Decidable (lib.noEnd k)] : w.sealFault lib k =
    if (lib.showRec k.showNo).state ≠ .closed then some .showNotClosed
    else if w.channelOff k then some .conditionOff
    else if w.zoneBare k then some .zoneUnconfigured
    else if lib.noEnd k then some .noEnd else none := by
  simp only [channelOff_iff, zoneBare_iff, World.sealFault, Library.noEnd]
  congr

open Classical in
theorem sealFault_none : w.sealFault lib k = none ↔ (lib.showRec k.showNo).state = .closed
    ∧ ¬w.channelOff k ∧ ¬w.zoneBare k ∧ ¬lib.noEnd k := by
  rw [sealFault_eq]
  split_ifs <;> simp_all

theorem not_channelOff : ¬w.channelOff k ↔
    (∀ ch n, k.mode = .onCondition ch n → (w.monitor.channels.get ch).enabled = true)
      ∧ ∀ ch, k.stopCond = some ch → (w.monitor.channels.get ch).enabled = true := by
  simp only [World.channelOff, not_exists, not_and, not_or, ← Bool.not_eq_true]
  grind

theorem not_zoneBare : ¬w.zoneBare k ↔ ∀ p ∈ k.zmap, ∀ z ∈ p.zones, (w.zone z).configured = true := by
  simp [World.zoneBare]

open Classical in
theorem sealFault_showNotClosed (h : (lib.showRec k.showNo).state ≠ .closed) :
    w.sealFault lib k = some .showNotClosed := by
  rw [sealFault_eq, if_pos h]

open Classical in
theorem sealFault_conditionOff (h : (lib.showRec k.showNo).state = .closed) (ho : w.channelOff k) :
    w.sealFault lib k = some .conditionOff := by
  rw [sealFault_eq, if_neg (not_not.2 h), if_pos ho]

open Classical in
theorem sealFault_zoneUnconfigured (h : (lib.showRec k.showNo).state = .closed) (ho : ¬w.channelOff k)
    (hz : w.zoneBare k) : w.sealFault lib k = some .zoneUnconfigured := by
  rw [sealFault_eq, if_neg (not_not.2 h), if_neg ho, if_pos hz]

open Classical in
theorem sealFault_noEnd (h : (lib.showRec k.showNo).state = .closed) (ho : ¬w.channelOff k)
    (hz : ¬w.zoneBare k) (he : lib.noEnd k) : w.sealFault lib k = some .noEnd := by
  rw [sealFault_eq, if_neg (not_not.2 h), if_neg ho, if_neg hz, if_pos he]

/-- A booking passes the seal: it is CANCELLED, or none of R43's tests fails. -/
def BankEntry.seals (lib : Library) (w : World) (x : BankEntry) : Prop :=
  x.outcome.progress = .cancelled ∨ w.sealFault lib x.booking = none

theorem sealFrom_none (i : Nat) (xs : List BankEntry) (h : ∀ x ∈ xs, x.seals lib w) :
    w.sealFrom lib i xs = none := by
  induction xs generalizing i with
  | nil => rfl
  | cons x xs ih =>
    have rest := ih (i + 1) fun y hy => h y (List.mem_cons_of_mem _ hy)
    rw [World.sealFrom]
    split
    · exact rest
    · next hc =>
      rw [(h x List.mem_cons_self).resolve_left hc]
      exact rest

/-- The first booking that fails is named with its reason and its position (R43). -/
theorem sealFrom_first (i : Nat) (front rest : List BankEntry) {x : BankEntry} {why : Reason}
    (h : ∀ y ∈ front, y.seals lib w) (hc : x.outcome.progress ≠ .cancelled)
    (hx : w.sealFault lib x.booking = some why) :
    w.sealFrom lib i (front ++ x :: rest) = some (why, x.booking.id, i + front.length) := by
  induction front generalizing i with
  | nil => simp [World.sealFrom, hc, hx]
  | cons y ys ih =>
    have later := ih (i + 1) fun z hz => h z (List.mem_cons_of_mem _ hz)
    rw [List.length_cons, ← Nat.add_assoc, Nat.add_right_comm, List.cons_append, World.sealFrom]
    split
    · exact later
    · next hy =>
      rw [(h y List.mem_cons_self).resolve_left hy]
      exact later

end

section
variable {e : Env} {w : World} {n : Nat} {bk : Bank}

theorem sealPlan_wrongState (hb : bank? n = some bk) (hr : (w.bank bk).state ≠ .loading) :
    w.sealPlan e n = (w, .no .wrongState) := by
  simp [World.sealPlan, forBank_some hb, hr]

theorem sealPlan_inUse (hb : bank? n = some bk) (hr : (w.bank bk).state = .loading)
    (ho : (w.bank bk.other).state = .ready) (hd : (w.bank bk.other).date = (w.bank bk).date) :
    w.sealPlan e n = (w, .no .inUse) := by
  simp [World.sealPlan, forBank_some hb, hr, ho, hd]

/-- Past the tests on the bank, the answer is that of the bookings' own tests. -/
theorem sealPlan_tests (hb : bank? n = some bk) (hr : (w.bank bk).state = .loading)
    (ho : ¬((w.bank bk.other).state = .ready ∧ (w.bank bk.other).date = (w.bank bk).date)) :
    w.sealPlan e n = (match w.sealFrom e.lib 0 (w.bank bk).list with
      | some (why, id, i) => (w, .invalid why (some id) (some i))
      | none => (w.onBank bk fun r => { r with state := .ready },
        .ok [byteOf (w.bank bk).list.length])) := by
  simp only [World.sealPlan, forBank_some hb, hr, ho, ne_eq, not_true_eq_false, if_false] <;> rfl

end

/-- Settles O20: the tests of R43 as the model orders them, and the bank scanned from its first booking. -/
theorem planSealed : Obligations.PlanSealed := by
  refine ⟨fun s tag n hs hb => ?_, fun lib w k => ?_,
    fun lib w k => ⟨sealFault_showNotClosed, sealFault_conditionOff,
      sealFault_zoneUnconfigured, fun h ho hz hl he hc => sealFault_noEnd h ho hz ⟨hl, he, hc⟩⟩,
    fun s tag n bk hs hb => ?_⟩
  · exact State.exec_refused (exec_sealPlan_idle tag n hs) (forBank_none hb)
  · rw [sealFault_none, not_channelOff, not_zoneBare, and_assoc]
    rfl
  · have hi := exec_sealPlan_idle tag n hs
    refine ⟨fun hr => State.exec_refused hi (sealPlan_wrongState hb hr),
      fun hr ho hd => State.exec_refused hi (sealPlan_inUse hb hr ho hd), fun hr ho =>
        ⟨fun front rest x why hl hf hc hx => State.exec_refused hi ?_, fun h => State.exec_accepted hi ?_⟩⟩
    · rw [sealPlan_tests hb hr ho, hl, State.env, sealFrom_first 0 front rest hf hc hx, Nat.zero_add]
    · rw [sealPlan_tests hb hr ho, State.env, sealFrom_none 0 _ h]

end Sys2Proof.Machine
end

section
/-! SUPPORT. An end amended (R55, R78): the end time's field, and the record and the copy that take it. -/

namespace Sys2Proof.Machine

@[simp] theorem field_some {α : Type} (off : Nat) (a : α) : field off (some a) = .ok a := rfl
@[simp] theorem field_none {α : Type} (off : Nat) : field off (none : Option α) = .error off := rfl

theorem demand_ok {c : Bool} {off : Nat} (h : c = true) : demand c off = .ok () := if_pos h

theorem demand_error {c : Bool} {off : Nat} (h : c = false) : demand c off = .error off := by
  rw [demand, h]; rfl

theorem flag?_none {n : Nat} (h : 1 < n) : flag? n = none := by
  match n, h with
  | n + 2, _ => rfl

theorem flag?_le {n : Nat} (h : n ≤ 1) : flag? n = some (n == 1) := by
  interval_cases n <;> rfl

section
variable {off tod nextDay start : Nat}

theorem endTime?_absent (h : nextDay ≤ 1) : endTime? off noTime nextDay start = .ok none := by
  simp only [endTime?, if_true, flag?_le h, field_some]
  rfl

theorem endTime?_absent_flag (h : 1 < nextDay) : endTime? off noTime nextDay start = .error (off + 3) := by
  simp only [endTime?, if_true, flag?_none h, field_none]
  rfl

theorem endTime?_range (hn : tod ≠ noTime) (h : 8640000 ≤ tod) :
    endTime? off tod nextDay start = .error off := by
  rw [endTime?, if_neg hn, demand_error (by simpa [Config.ticksPerDay] using h)]
  rfl

theorem endTime?_flag (h : tod < 8640000) (hf : 1 < nextDay) :
    endTime? off tod nextDay start = .error (off + 3) := by
  rw [endTime?, if_neg (by simp only [noTime]; omega),
    demand_ok (by simpa [Config.ticksPerDay] using h), flag?_none hf]
  rfl

/-- The end point a day on, as the flag says. -/
theorem nextDay_ticks (h : nextDay ≤ 1) :
    (if (nextDay == 1) = true then Config.ticksPerDay else 0) = 8640000 * nextDay := by
  interval_cases nextDay <;> rfl

theorem endTime?_late (h : tod < 8640000) (hf : nextDay ≤ 1)
    (hl : nextDay = 1 ∧ 2160000 < tod ∨ tod + 8640000 * nextDay ≤ start) :
    endTime? off tod nextDay start = .error off := by
  rw [endTime?, if_neg (by simp only [noTime]; omega),
    demand_ok (by simpa [Config.ticksPerDay] using h), flag?_le hf]
  change (demand (!(nextDay == 1) || decide (tod ≤ 2160000)) off >>= fun _ =>
    demand (decide (start < tod + (if (nextDay == 1) = true then Config.ticksPerDay else 0))) off
      >>= fun _ => .ok (some (⟨tod, nextDay == 1⟩ : EndTime))) = _
  rw [nextDay_ticks hf]
  by_cases hr : nextDay = 1 ∧ 2160000 < tod
  · rw [demand_error (by simp [hr])]
    rfl
  · rw [demand_ok (by simp; omega), demand_error (by simp; omega)]
    rfl

theorem endTime?_present (h : tod < 8640000) (hf : nextDay ≤ 1) (hr : nextDay = 1 → tod ≤ 2160000)
    (hs : start < tod + 8640000 * nextDay) :
    endTime? off tod nextDay start = .ok (some ⟨tod, nextDay == 1⟩) := by
  rw [endTime?, if_neg (by simp only [noTime]; omega),
    demand_ok (by simpa [Config.ticksPerDay] using h), flag?_le hf]
  change (demand (!(nextDay == 1) || decide (tod ≤ 2160000)) off >>= fun _ =>
    demand (decide (start < tod + (if (nextDay == 1) = true then Config.ticksPerDay else 0))) off
      >>= fun _ => .ok (some (⟨tod, nextDay == 1⟩ : EndTime))) = _
  rw [nextDay_ticks hf, demand_ok (by simp; omega), demand_ok (by simpa using hs)]
  rfl

end

/-! ## The tests that CANCEL_BOOKING and AMEND_END share (R54, R55) -/

/-- A booking that can still be cancelled or amended (R54, R55). -/
def BankEntry.changeable (r : BankRec) (x : BankEntry) : Prop :=
  x.outcome.progress.final = false ∧ (r.state = .spent → x.outcome.progress.inPlayer = true)

section
variable {w : World} {bk : Bank} {id : Nat} {x : BankEntry} {k : BankEntry → World × Answer}

theorem forBooking_notFound (h : (w.bank bk).find id = none) :
    w.forBooking bk id k = (w, .no .notFound) := by rw [World.forBooking, h]

theorem forBooking_wrongState (h : (w.bank bk).find id = some x)
    (hx : x.outcome.progress.final = true
      ∨ ((w.bank bk).state = .spent ∧ x.outcome.progress.inPlayer = false)) :
    w.forBooking bk id k = (w, .no .wrongState) := by
  rw [World.forBooking, h]
  exact if_pos (by simpa using hx)

theorem forBooking_open (h : (w.bank bk).find id = some x) (hx : x.changeable (w.bank bk)) :
    w.forBooking bk id k = k x := by
  obtain ⟨hf, hs⟩ := hx
  rw [World.forBooking, h]
  refine if_neg ?_
  rintro (hc | ⟨hc, hp⟩)
  · rw [hf] at hc; cases hc
  · rw [hs hc] at hp; cases hp

end

/-! ## AMEND_END -/

/-- The end point of an end time in a bank of a date (R37). -/
theorem endPoint_eq (k : Booking) (d : Date) : k.endPoint d =
    k.endTime.map fun v => civic d v.tod + if v.nextDay then 8640000 else 0 := by
  rw [Booking.endPoint]
  congr 1
  funext v
  cases v.nextDay <;> simp [Config.ticksPerDay]

/-- The blocks once an end time has been amended: the record, and the copy of the player that holds it. -/
def World.amended (w : World) (now : Nat) (bk : Bank) (id : Nat) (k : Booking) (stop : Option EndTime) :
    World :=
  let stopAt := { k with endTime := stop }.endPoint (w.bank bk).date
  let v := w.onEntry bk id fun y => { y with booking := { y.booking with endTime := stop } }
  match w.playerOf bk id with
  | none => v
  | some p => v.onPlayer p fun c => { c with
      cutFresh := stopAt.any (· ≤ now + Config.horizon)
      copy := c.copy.map fun y =>
        { y with booking := { y.booking with endTime := stop }, endPoint := stopAt } }

section
variable {e : Env} {w : World} {n id endTime nextDay off : Nat} {bk : Bank} {x : BankEntry}

/-- AMEND_END past the tests on the bank and the booking: the end time's own tests. -/
theorem amendEnd_open (hb : bank? n = some bk) (h : (w.bank bk).find id = some x)
    (hx : x.changeable (w.bank bk)) : w.amendEnd e n id endTime nextDay =
      (match endTime? 2 endTime nextDay x.booking.start with
      | .error off => (w, .badField off)
      | .ok stop =>
        if stop.isNone && nextDay != 0 then (w, .badField 5)
        else if stop.isNone && needsEnd e.lib x.booking then (w, .badField 2)
        else (w.amended e.now bk id x.booking stop, .ok [])) := by
  rw [World.amendEnd, forBank_some hb, forBooking_open h hx]
  rfl

theorem amendEnd_error (hb : bank? n = some bk) (h : (w.bank bk).find id = some x)
    (hx : x.changeable (w.bank bk)) (ht : endTime? 2 endTime nextDay x.booking.start = .error off) :
    w.amendEnd e n id endTime nextDay = (w, .badField off) := by
  rw [amendEnd_open hb h hx, ht]

theorem needsEnd_iff (lib : Library) (k : Booking) : needsEnd lib k = true ↔
    (lib.showRec k.showNo).state = .closed ∧ (lib.showRec k.showNo).length = some .endless
      ∧ k.stopCond = none := by
  simp [needsEnd, and_assoc]

/-- A NONE with a flag beside it is refused, whatever the flag (log entry 17). -/
theorem amendEnd_absent_flag (hb : bank? n = some bk) (h : (w.bank bk).find id = some x)
    (hx : x.changeable (w.bank bk)) (hn : nextDay ≠ 0) :
    w.amendEnd e n id noTime nextDay = (w, .badField 5) := by
  by_cases hf : nextDay ≤ 1
  · rw [amendEnd_open hb h hx, endTime?_absent hf]
    simp [hn]
  · exact amendEnd_error hb h hx (endTime?_absent_flag (by omega))

theorem amendEnd_needsEnd (hb : bank? n = some bk) (h : (w.bank bk).find id = some x)
    (hx : x.changeable (w.bank bk)) (hn : needsEnd e.lib x.booking = true) :
    w.amendEnd e n id noTime 0 = (w, .badField 2) := by
  rw [amendEnd_open hb h hx, endTime?_absent (by omega)]
  simp [hn]

/-- An end time as its field gives it. -/
theorem endTime?_field {start : Nat} (stop : Option EndTime)
    (ht : ∀ v, stop = some v → v.tod < 8640000 ∧ (v.nextDay = true → v.tod ≤ 2160000)
      ∧ start < v.tod + (if v.nextDay then 8640000 else 0)) :
    endTime? off ((stop.map (·.tod)).getD noTime) (if stop.any (·.nextDay) then 1 else 0) start
      = .ok stop := by
  cases stop with
  | none => exact endTime?_absent (by simp)
  | some v =>
    obtain ⟨tod, next⟩ := v
    obtain ⟨hr, hd, hs⟩ := ht _ rfl
    cases next with
    | false => exact endTime?_present hr (by simp) (by simp) (by simpa using hs)
    | true => exact endTime?_present hr (by simp) (by simpa using hd) (by simpa using hs)

theorem amendEnd_taken (hb : bank? n = some bk) (h : (w.bank bk).find id = some x)
    (hx : x.changeable (w.bank bk)) (stop : Option EndTime)
    (ht : ∀ v, stop = some v → v.tod < 8640000 ∧ (v.nextDay = true → v.tod ≤ 2160000)
      ∧ x.booking.start < v.tod + (if v.nextDay then 8640000 else 0))
    (hn : ¬(stop = none ∧ needsEnd e.lib x.booking = true)) :
    w.amendEnd e n id ((stop.map (·.tod)).getD noTime) (if stop.any (·.nextDay) then 1 else 0)
      = (w.amended e.now bk id x.booking stop, .ok []) := by
  rw [amendEnd_open hb h hx, endTime?_field stop ht]
  cases stop with
  | none => simpa using fun hc => absurd ⟨rfl, hc⟩ hn
  | some v => rfl

end

/-- Settles O23: the request's own tests in their order, and the one record and copy it changes. -/
theorem bookingEndAmended : Obligations.BookingEndAmended := by
  refine ⟨fun s tag n id tod next hs hb => ?_, fun s tag n id bk x stop hs hb hx hf hp ht hn => ?_,
    fun s tag n id tod next bk hs hb => ⟨fun hx => ?_, fun x hx => ⟨fun hw => ?_,
      fun hf hp ht => ⟨fun hr => ?_, fun hr hd => ?_, fun hr hd hl => ?_⟩,
      fun hf hp ht => ⟨fun hd => ?_, fun hd hc hl hstop => ?_⟩⟩⟩⟩
  · exact State.exec_refused (exec_amendEnd_idle tag n id tod next hs) (forBank_none hb)
  · have taken := amendEnd_taken (e := s.env) hb hx ⟨hf, hp⟩ stop ht
      fun ⟨h, hc⟩ => hn ⟨h, (needsEnd_iff ..).1 hc⟩
    have := State.exec_accepted (exec_amendEnd_idle tag n id _ _ hs) taken
    simp only [World.amended, endPoint_eq] at this
    exact this
  all_goals refine State.exec_refused (exec_amendEnd_idle tag n id tod next hs) ?_
  · rw [World.amendEnd, forBank_some hb, forBooking_notFound hx]
  · rw [World.amendEnd, forBank_some hb, forBooking_wrongState hx hw]
  · exact amendEnd_error hb hx ⟨hf, hp⟩ (endTime?_range ht hr)
  · exact amendEnd_error hb hx ⟨hf, hp⟩ (endTime?_flag hr hd)
  · exact amendEnd_error hb hx ⟨hf, hp⟩ (endTime?_late hr hd hl)
  · subst ht
    exact amendEnd_absent_flag hb hx ⟨hf, hp⟩ hd
  · subst ht hd
    exact amendEnd_needsEnd hb hx ⟨hf, hp⟩ ((needsEnd_iff ..).2 ⟨hc, hl, hstop⟩)

end Sys2Proof.Machine
end

section
/-! SUPPORT. One booking's record in its bank, what a report to it leaves, and a player's claims, zone by zone (R62, R87,
R93). -/

namespace Sys2Proof.Machine

/-! ## A booking's record -/

namespace BankRec
variable {r : BankRec} {id : Nat} {x : BankEntry} {f : BankEntry → BankEntry}

theorem find_id (h : r.find id = some x) : x.booking.id = id := by
  simpa using List.find?_some h

theorem find_mem (h : r.find id = some x) : x ∈ r.list := List.mem_of_find?_eq_some h

/-- A change of one booking that keeps the ids, as every other booking is found. -/
theorem find_onEntry (hf : ∀ k, (f k).booking.id = k.booking.id) (j : Nat) :
    (r.onEntry id f).find j = (r.find j).map fun k => if k.booking.id = id then f k else k := by
  rw [find, onEntry, List.find?_map]
  have same : ((fun k : BankEntry => k.booking.id == j) ∘ fun k => if k.booking.id = id then f k else k)
      = fun k => k.booking.id == j := by
    funext k
    simp only [Function.comp]
    split <;> simp [hf]
  rw [same, find]

theorem find_onEntry_self (hf : ∀ k, (f k).booking.id = k.booking.id) :
    (r.onEntry id f).find id = (r.find id).map f := by
  rw [find_onEntry hf]
  cases h : r.find id with
  | none => rfl
  | some x => simp [find_id h]

/-- A change that keeps the bookings is seen as none by what reads the bookings alone. -/
theorem find_booking (hf : ∀ k, (f k).booking = k.booking) (j : Nat) :
    ((r.onEntry id f).find j).map (·.booking) = (r.find j).map (·.booking) := by
  rw [find_onEntry fun k => by rw [hf]]
  cases r.find j with
  | none => rfl
  | some x =>
    simp only [Option.map_some, Option.some.injEq]
    split
    · exact hf x
    · rfl

end BankRec

namespace World

section
variable {w : World} {bk : Bank} {id : Nat}

theorem find_onEntry {f : BankEntry → BankEntry} (hf : ∀ k, (f k).booking.id = k.booking.id) :
    ((w.onEntry bk id f).bank bk).find id = ((w.bank bk).find id).map f := by
  rw [onEntry, onBank_bank, BankRec.find_onEntry_self hf]

theorem find_onOutcome (f : Report → Report) : ((w.onOutcome bk id f).bank bk).find id =
    ((w.bank bk).find id).map fun x => { x with outcome := f x.outcome } := find_onEntry fun _ => rfl

end

/-! ## A report on a player's booking -/

section
variable (w : World) (p : Fin 8) (f : Report → Report)

/-- A report changes the plans alone. -/
theorem reportOn_eq : w.reportOn p f = { w with plans := (w.reportOn p f).plans } := by
  unfold reportOn
  split <;> rfl

@[simp] theorem reportOn_players : (w.reportOn p f).players = w.players := by rw [reportOn_eq]
@[simp] theorem reportOn_zones : (w.reportOn p f).zones = w.zones := by rw [reportOn_eq]
@[simp] theorem reportOn_links : (w.reportOn p f).links = w.links := by rw [reportOn_eq]
@[simp] theorem reportOn_groups : (w.reportOn p f).groups = w.groups := by rw [reportOn_eq]
@[simp] theorem reportOn_monitor : (w.reportOn p f).monitor = w.monitor := by rw [reportOn_eq]
@[simp] theorem reportOn_ctl : (w.reportOn p f).ctl = w.ctl := by rw [reportOn_eq]
@[simp] theorem reportOn_notices : (w.reportOn p f).notices = w.notices := by rw [reportOn_eq]

end

section
variable {w : World} {p : Fin 8}

theorem reportOn_some {f : Report → Report} {bk : Bank} {id : Nat} (h : (w.player p).ref = some (bk, id)) :
    w.reportOn p f = w.onOutcome bk id f := by rw [reportOn, h]

theorem find_reportOn {f : Report → Report} {bk : Bank} {id : Nat} (h : (w.player p).ref = some (bk, id)) :
    ((w.reportOn p f).bank bk).find id =
      ((w.bank bk).find id).map fun x => { x with outcome := f x.outcome } := by
  rw [reportOn_some h, find_onOutcome]

/-- A state entered is the player's, and nothing else of it. -/
@[simp] theorem enterState_player (s : PlayerState) :
    (w.enterState p s).player p = { w.player p with state := s } := by
  rw [enterState, reportOn_player, onPlayer_player, if_pos rfl]

@[simp] theorem setStart_player (tick : Nat) :
    (w.setStart p tick).player p = { w.player p with startTick := some tick } := by
  rw [setStart, reportOn_player, onPlayer_player, if_pos rfl]

@[simp] theorem enterState_zones (s : PlayerState) : (w.enterState p s).zones = w.zones := by
  simp [enterState]
@[simp] theorem enterState_monitor (s : PlayerState) : (w.enterState p s).monitor = w.monitor := by
  simp [enterState]
@[simp] theorem setStart_zones (tick : Nat) : (w.setStart p tick).zones = w.zones := by simp [setStart]
@[simp] theorem setStart_monitor (tick : Nat) : (w.setStart p tick).monitor = w.monitor := by
  simp [setStart]

theorem find_enterState {s : PlayerState} {bk : Bank} {id : Nat} (h : (w.player p).ref = some (bk, id)) :
    ((w.enterState p s).bank bk).find id = ((w.bank bk).find id).map fun x =>
      { x with outcome := { x.outcome with progress := s.progress } } :=
  find_reportOn (by rw [onPlayer_player, if_pos rfl]; exact h)

theorem find_setStart {tick : Nat} {bk : Bank} {id : Nat} (h : (w.player p).ref = some (bk, id)) :
    ((w.setStart p tick).bank bk).find id = ((w.bank bk).find id).map fun x =>
      { x with outcome := { x.outcome with startTick := some tick } } :=
  find_reportOn (by rw [onPlayer_player, if_pos rfl]; exact h)

end

/-! ## What claims and releases spare -/

/-- What the claims and the releases of a player leave as it was: the plans, the monitor, every player but for
its counters, a notice once pending, and the operating state. -/
structure Spared (w v : World) : Prop where
  plans : v.plans = w.plans
  monitor : v.monitor = w.monitor
  players : ∀ p, { v.player p with counters := (w.player p).counters } = w.player p
  raised : ∀ k, (w.notices.get k).pending = true → (v.notices.get k).pending = true
  opState : v.ctl.state = w.ctl.state

namespace Spared
variable {u v w : World}

theorem refl (w : World) : w.Spared w := ⟨rfl, rfl, fun _ => rfl, fun _ h => h, rfl⟩

theorem trans (h : u.Spared v) (k : v.Spared w) : u.Spared w where
  plans := k.plans.trans h.plans
  monitor := k.monitor.trans h.monitor
  players p := by rw [← h.players p, ← k.players p]
  raised n hn := k.raised n (h.raised n hn)
  opState := k.opState.trans h.opState

theorem of_kept (h : w.Kept v) : w.Spared v := ⟨h.plans, h.monitor, h.players, h.raised, h.opState⟩

theorem keep (h : u.Spared w) (k : w.Kept v) : u.Spared v := h.trans (of_kept k)

theorem onZone (h : u.Spared w) (z : Fin 64) (f : Zone → Zone) : u.Spared (w.onZone z f) :=
  h.trans ⟨rfl, rfl, fun _ => rfl, fun _ h => h, rfl⟩

theorem each (h : u.Spared w) {α : Type} (xs : List α) (f : α → World → World)
    (hf : ∀ x v, u.Spared v → u.Spared (f x v)) : u.Spared (w.each xs f) :=
  each_induct (fun v => u.Spared v) f hf xs w h

theorem claim (h : u.Spared w) (e : Env) (z : Fin 64) (c : Claim) : u.Spared (w.claim e z c) := by
  unfold World.claim
  dsimp only
  refine keep ?_ ((Kept.refl _).claimReaches e _)
  split
  · exact h.onZone z _
  · split
    · exact (h.onZone z _).keep ((Kept.refl _).gain e z)
    · next old _ =>
      have k := ((Kept.refl w).withdrawZone e old z).count old Counters.addPreempted
      exact ((h.keep k).onZone z _).keep ((Kept.refl _).gain e z)

theorem releaseZone (h : u.Spared w) (e : Env) (p : Fin 8) (z : Fin 64) :
    u.Spared (w.releaseZone e p z) := by
  unfold World.releaseZone
  dsimp only
  split
  · exact h
  · split
    · exact h.onZone z _
    · split
      · exact (h.onZone z _).keep ((Kept.refl _).fallbackTake e z)
      · exact (h.onZone z _).keep ((Kept.refl _).gain e z)

theorem sendClaims (h : u.Spared w) (e : Env) (p : Fin 8) : u.Spared (w.sendClaims e p) := by
  unfold World.sendClaims
  dsimp only
  split
  · exact h
  · split
    · exact h
    · refine h.each _ _ fun z v hv => ?_
      split
      · exact hv
      · exact hv.claim e z _

/-- All of a player but its counters. -/
theorem player_eq (h : w.Spared v) (p : Fin 8) :
    v.player p = { w.player p with counters := (v.player p).counters } := by
  rw [← h.players p]

theorem copy (h : w.Spared v) (p : Fin 8) : (v.player p).copy = (w.player p).copy := by
  rw [h.player_eq p]

theorem ref (h : w.Spared v) (p : Fin 8) : (v.player p).ref = (w.player p).ref := by
  rw [h.player_eq p]

end Spared

/-! ## Claims (R62, R93) -/

section
variable {w : World} {e : Env}

/-- A claim enters its zone's list and no other (R93). -/
theorem claim_claims (z y : Fin 64) (c : Claim) : ((w.claim e z c).zone y).claims =
    if z = y then enterClaim c (w.zone y).claims else (w.zone y).claims := by
  have entered {v u : World} (hv : ∀ x, (v.zone x).claims = (w.zone x).claims)
      (hu : (v.onZone z fun r => { r with claims := enterClaim c r.claims }).Kept u) :
      (u.zone y).claims = if z = y then enterClaim c (w.zone y).claims else (w.zone y).claims := by
    rw [hu.claims y, onZone_zone]
    split
    · rw [← hv y]
    · exact hv y
  unfold World.claim
  dsimp only
  split
  · exact entered (fun _ => rfl) ((Kept.refl _).claimReaches e _)
  · split
    · exact entered (fun _ => rfl) (((Kept.refl _).gain e z).claimReaches e _)
    · next old _ =>
      have k := ((Kept.refl w).withdrawZone e old z).count old Counters.addPreempted
      exact entered k.claims (((Kept.refl _).gain e z).claimReaches e _)

/-- One claim of a player for each zone of a list. -/
theorem eachClaim_claims (zmap : List PartEntry) (c : Fin 16 → Claim) (y : Fin 64) (zs : List (Fin 64))
    (hz : zs.Nodup) (w : World) :
    ((w.each zs fun z v => match partOf zmap z with
      | none => v
      | some part => v.claim e z (c part)).zone y).claims =
    if y ∈ zs then (match partOf zmap y with
      | none => (w.zone y).claims
      | some part => enterClaim (c part) (w.zone y).claims) else (w.zone y).claims := by
  induction zs generalizing w with
  | nil => rfl
  | cons z zs ih =>
    obtain ⟨hn, hz⟩ := List.nodup_cons.1 hz
    rw [each_cons, ih hz]
    by_cases h : y = z
    · subst h
      simp only [hn, if_false, List.mem_cons, true_or, if_true]
      cases hp : partOf zmap y with
      | none => rfl
      | some part => simp only [claim_claims, if_true]
    · have first : ((match partOf zmap z with
          | none => w
          | some part => w.claim e z (c part)).zone y).claims = (w.zone y).claims := by
        cases partOf zmap z with
        | none => rfl
        | some part => simp only [claim_claims, if_neg (Ne.symm h)]
      rw [first]
      simp only [List.mem_cons, h, false_or]

variable {p : Fin 8} {copy : BookingCopy}

/-- The claims of a player that holds a copy (R62). -/
theorem sendClaims_copy (h : (w.player p).copy = some copy) : w.sendClaims e p =
    if copy.booking.cls = 0 then w
    else w.each (mapZones copy.booking.zmap) fun z v =>
      match partOf copy.booking.zmap z with
      | none => v
      | some part =>
        v.claim e z ⟨p, copy.booking.cls, copy.booking.sub, (w.player p).armSeq, part⟩ := by
  simp only [sendClaims, Player.booking?, Player.dry, h, Option.map_some, Option.any_some, beq_iff_eq] <;> rfl

theorem mem_mapZones {zmap : List PartEntry} {z : Fin 64} :
    z ∈ mapZones zmap ↔ (partOf zmap z).isSome = true := by
  simp [mapZones]

theorem mapZones_nodup (zmap : List PartEntry) : (mapZones zmap).Nodup := (List.nodup_finRange 64).filter _

/-- A zone's claims once a player has claimed (R62): with its own claim where its map has the zone, unless it is
DRY. -/
def claimsWith (w : World) (p : Fin 8) (copy : BookingCopy) (z : Fin 64) : List Claim :=
  match partOf copy.booking.zmap z with
  | none => (w.zone z).claims
  | some part =>
    if copy.booking.cls = 0 then (w.zone z).claims
    else enterClaim ⟨p, copy.booking.cls, copy.booking.sub, (w.player p).armSeq, part⟩ (w.zone z).claims

theorem sendClaims_claims (h : (w.player p).copy = some copy) (z : Fin 64) :
    ((w.sendClaims e p).zone z).claims = w.claimsWith p copy z := by
  unfold claimsWith
  rw [sendClaims_copy h]
  by_cases hd : copy.booking.cls = 0
  · simp only [hd, if_true]
    cases partOf copy.booking.zmap z <;> rfl
  · rw [if_neg hd, eachClaim_claims copy.booking.zmap
      (fun part => ⟨p, copy.booking.cls, copy.booking.sub, (w.player p).armSeq, part⟩) z _ (mapZones_nodup _)]
    cases hp : partOf copy.booking.zmap z <;> simp [mem_mapZones, hp, hd]

end
end World

end Sys2Proof.Machine
end

section
/-! SUPPORT. Beginning a show (R62 to R65): the claims, the walk from a section's first cue, the state and start tick
reported, and the conditions read. -/

namespace Sys2Proof.Machine

theorem walkFrom_some {shown : ShowRec} {i epoch : Nat} {sec : SectionRec} (c : Player)
    (h : shown.parts[i]? = some sec) : c.walkFrom shown i epoch = { c with
      walk := some (.stands ⟨i, 0, sec.first⟩)
      epoch := some epoch
      passes := some (if sec.passes = 0 then .endless else .left sec.passes) } := by
  rw [Player.walkFrom, h]
  rfl

theorem walkFrom_none {shown : ShowRec} {i epoch : Nat} (c : Player) (h : shown.parts[i]? = none) :
    c.walkFrom shown i epoch = c := by rw [Player.walkFrom, h]

section
variable {e : Env} {c : Player} {copy : BookingCopy} (h : c.copy = some copy)
include h

theorem showOf_copy : e.showOf c = e.lib.showRec copy.booking.showNo := by
  rw [Env.showOf, Player.booking?, h]
  rfl

theorem startPoint_copy : c.startPoint = copy.startPoint := by rw [Player.startPoint, h]; rfl

theorem mode?_copy : c.mode? = some copy.booking.mode := by rw [Player.mode?, Player.booking?, h]; rfl

end

namespace World

/-- A booking's stop condition is TRUE (R76, R169). -/
def stopTrue (w : World) (k : Booking) : Prop :=
  ∃ ch, k.stopCond = some ch ∧ (w.monitor.channels.get ch).value = .yes

theorem holds_iff (w : World) (ch : Fin 8) :
    w.holds ch = true ↔ (w.monitor.channels.get ch).value = .yes := by simp [holds]

section
variable {w : World} {e : Env} {p : Fin 8} {copy : BookingCopy} (hc : (w.player p).copy = some copy)
include hc

theorem checkStop_true (hs : (w.player p).state = .running) (h : w.stopTrue copy.booking) :
    w.checkStop e p = w.endGracefully e p (e.now + 150) .stopped false := by
  obtain ⟨ch, hk, hv⟩ := h
  simp only [checkStop, Player.booking?, hc, Option.map_some, Option.bind_some, hk, hs, holds_iff, hv,
    and_self, if_true, Config.horizon]

/-- Another state, or a stop condition that is not TRUE, and nothing ends. -/
theorem checkStop_stays (h : ¬((w.player p).state = .running ∧ w.stopTrue copy.booking)) :
    w.checkStop e p = w := by
  simp only [checkStop, Player.booking?, hc, Option.map_some, Option.bind_some]
  split
  · next ch hk => exact if_neg fun ⟨hv, hs⟩ => h ⟨hs, ch, hk, (holds_iff w ch).1 hv⟩
  · rfl

variable {ch : Fin 8} {n : Nat} (hm : copy.booking.mode = .onCondition ch n)
include hm

theorem readStart_true (h : (w.monitor.channels.get ch).value = .yes) :
    w.readStart e p = w.mainStart e p := by
  rw [readStart, mode?_copy hc, hm]
  exact if_pos ((holds_iff w ch).2 h)

theorem readStart_stays (h : (w.monitor.channels.get ch).value ≠ .yes) : w.readStart e p = w := by
  rw [readStart, mode?_copy hc, hm]
  exact if_neg fun hv => h ((holds_iff w ch).1 hv)

end

/-! ## Claims, then a walk -/

/-- The claims taken, and the walk at the first cue of a section (R62, R63). -/
def walked (e : Env) (p : Fin 8) (i epoch : Nat) (sec : SectionRec) (w : World) : World :=
  (w.sendClaims e p).onPlayer p fun d => { d with
    walk := some (.stands ⟨i, 0, sec.first⟩)
    epoch := some epoch
    passes := some (if sec.passes = 0 then .endless else .left sec.passes) }

section
variable (w : World) (e : Env) (p : Fin 8) (i epoch : Nat) (sec : SectionRec)

theorem walked_player : (w.walked e p i epoch sec).player p = { w.player p with
    walk := some (.stands ⟨i, 0, sec.first⟩)
    epoch := some epoch
    passes := some (if sec.passes = 0 then .endless else .left sec.passes)
    counters := ((w.sendClaims e p).player p).counters } := by
  rw [walked, onPlayer_player, if_pos rfl, ((Spared.refl w).sendClaims e p).player_eq p]

@[simp] theorem walked_ref : ((w.walked e p i epoch sec).player p).ref = (w.player p).ref := by
  rw [walked_player]

@[simp] theorem walked_bank (bk : Bank) : (w.walked e p i epoch sec).bank bk = w.bank bk :=
  congrArg (Plans.bank · bk) ((Spared.refl w).sendClaims e p).plans

theorem walked_monitor : (w.walked e p i epoch sec).monitor = w.monitor :=
  ((Spared.refl w).sendClaims e p).monitor

theorem walked_zones : (w.walked e p i epoch sec).zones = (w.sendClaims e p).zones := rfl

end

section
variable {w : World} {e : Env} {p : Fin 8} {copy : BookingCopy} {i epoch : Nat} {sec : SectionRec}
  (hc : (w.player p).copy = some copy)
include hc

/-- The section is the copy's show's. -/
theorem sendClaims_walkFrom (hs : (e.lib.showRec copy.booking.showNo).parts[i]? = some sec) :
    (w.sendClaims e p).onPlayer p (Player.walkFrom (e.showOf (w.player p)) i epoch)
      = w.walked e p i epoch sec := by
  rw [walked, showOf_copy hc]
  exact congrArg (fun f => onPlayer p f _) (funext fun d => walkFrom_some d hs)

/-! ## RUNNING from an epoch (R63) -/

theorem runFrom_eq
    (hi : i = if (e.lib.showRec copy.booking.showNo).parts.head?.any (·.kind == .preroll) then 1 else 0)
    (hs : (e.lib.showRec copy.booking.showNo).parts[i]? = some sec) :
    w.runFrom e p epoch = ((w.walked e p i epoch sec).setStart p epoch).enterState p .running := by
  have main : firstMain (e.showOf (w.player p)) = i := by
    rw [showOf_copy hc, hi]
    rfl
  rw [runFrom]
  rw [main, sendClaims_walkFrom hc hs]

variable
  (hi : i = if (e.lib.showRec copy.booking.showNo).parts.head?.any (·.kind == .preroll) then 1 else 0)
  (hs : (e.lib.showRec copy.booking.showNo).parts[i]? = some sec)
include hi hs

theorem runFrom_player : { (w.runFrom e p epoch).player p with counters := (w.player p).counters } =
    { w.player p with
      state := .running
      startTick := some epoch
      epoch := some epoch
      walk := some (.stands ⟨i, 0, sec.first⟩)
      passes := some (if sec.passes = 0 then .endless else .left sec.passes) } := by
  rw [runFrom_eq hc hi hs, enterState_player, setStart_player, walked_player]

theorem runFrom_monitor : (w.runFrom e p epoch).monitor = w.monitor := by
  rw [runFrom_eq hc hi hs, enterState_monitor, setStart_monitor, walked_monitor]

theorem runFrom_copy : ((w.runFrom e p epoch).player p).copy = some copy := by
  have := congrArg Player.copy (runFrom_player (epoch := epoch) hc hi hs)
  exact this.trans hc

theorem runFrom_running : ((w.runFrom e p epoch).player p).state = .running :=
  (congrArg Player.state (runFrom_player (epoch := epoch) hc hi hs) :)

theorem runFrom_find {bk : Bank} {id : Nat} {x : BankEntry} (hr : (w.player p).ref = some (bk, id))
    (hx : (w.bank bk).find id = some x) : ((w.runFrom e p epoch).bank bk).find id =
      some { x with outcome := { x.outcome with progress := .running, startTick := some epoch } } := by
  rw [runFrom_eq hc hi hs, find_enterState (by rw [setStart_player, walked_player]; exact hr),
    find_setStart (by rw [walked_ref, hr]), walked_bank, hx]
  rfl

theorem runFrom_claims (z : Fin 64) : ((w.runFrom e p epoch).zone z).claims =
    w.claimsWith p copy z := by
  rw [← sendClaims_claims (e := e) hc, runFrom_eq hc hi hs, zone, zone, enterState_zones,
    setStart_zones, walked_zones]

end

/-! ## WAITING (R64) -/

section
variable {w : World} {e : Env} {p : Fin 8} {copy : BookingCopy} {epoch : Nat} {sec : SectionRec}
  (hc : (w.player p).copy = some copy)
include hc

theorem enterWaiting_bare
    (hp : (e.lib.showRec copy.booking.showNo).parts.head?.any (·.kind == .preroll) = false) :
    w.enterWaiting e p epoch = w.enterState p .waiting := by
  rw [enterWaiting]
  refine if_neg ?_
  rw [showOf_copy hc, hasPreroll, hp]
  exact Bool.false_ne_true

variable (hp : (e.lib.showRec copy.booking.showNo).parts.head?.any (·.kind == .preroll) = true)
  (hs : (e.lib.showRec copy.booking.showNo).parts[0]? = some sec)
include hp hs

theorem enterWaiting_eq :
    w.enterWaiting e p epoch = (w.walked e p 0 epoch sec).enterState p .waiting := by
  rw [enterWaiting]
  rw [sendClaims_walkFrom hc hs]
  refine if_pos ?_
  rw [showOf_copy hc, hasPreroll, hp]

theorem enterWaiting_player :
    { (w.enterWaiting e p epoch).player p with counters := (w.player p).counters } =
    { w.player p with
      state := .waiting
      epoch := some epoch
      walk := some (.stands ⟨0, 0, sec.first⟩)
      passes := some (if sec.passes = 0 then .endless else .left sec.passes) } := by
  rw [enterWaiting_eq hc hp hs, enterState_player, walked_player]

theorem enterWaiting_monitor : (w.enterWaiting e p epoch).monitor = w.monitor := by
  rw [enterWaiting_eq hc hp hs, enterState_monitor, walked_monitor]

theorem enterWaiting_copy : ((w.enterWaiting e p epoch).player p).copy = some copy := by
  have := congrArg Player.copy (enterWaiting_player (epoch := epoch) hc hp hs)
  exact this.trans hc

theorem enterWaiting_find {bk : Bank} {id : Nat} {x : BankEntry} (hr : (w.player p).ref = some (bk, id))
    (hx : (w.bank bk).find id = some x) : ((w.enterWaiting e p epoch).bank bk).find id =
      some { x with outcome := { x.outcome with progress := .waiting } } := by
  rw [enterWaiting_eq hc hp hs, find_enterState (by rw [walked_ref, hr]), walked_bank, hx]
  rfl

theorem enterWaiting_claims (z : Fin 64) : ((w.enterWaiting e p epoch).zone z).claims =
    w.claimsWith p copy z := by
  rw [← sendClaims_claims (e := e) hc, enterWaiting_eq hc hp hs, zone, zone, enterState_zones,
    walked_zones]

end

/-! ## The claim point (R63, R64) -/

section
variable {w : World} {e : Env} {p : Fin 8} {copy : BookingCopy} (hc : (w.player p).copy = some copy)
include hc

theorem beginShow_atTime (hm : copy.booking.mode = .atTime) :
    w.beginShow e p = (w.runFrom e p copy.startPoint).checkStop e p := by
  rw [beginShow]
  rw [mode?_copy hc, hm, startPoint_copy hc]

theorem beginShow_onCondition {ch : Fin 8} {n : Nat} (hm : copy.booking.mode = .onCondition ch n) :
    w.beginShow e p = (w.enterWaiting e p copy.startPoint).readStart e p := by
  rw [beginShow]
  rw [mode?_copy hc, hm, startPoint_copy hc]

end

end World

/-- The claim point as the player's first due point (R61). -/
theorem exec_claimPoint_after {s : State} {p : Fin 8} (hh : s.held = false) (hr : s.reachOpen = true)
    (hk : s.env.firstPoint (s.world.player p) = some .start)
    (hf : s.env.claimsFirst (s.world.player p) = true) : ∃ t, exec (.claimPoint p) s = .next t
      ∧ s.After ((s.world.beginShow s.env p).handReached s.env p) t := by
  rw [exec_claimPoint]
  exact State.dueEvent_after _ _ hh (by simp [hr, hk, hf])

/-- The first section of a show that begins with a PREROLL. -/
theorem preroll_of_first {shown : ShowRec} {sec : SectionRec} (h : shown.parts[0]? = some sec)
    (hk : sec.kind = .preroll) : shown.parts.head?.any (·.kind == .preroll) = true := by
  rw [List.head?_eq_getElem?, h]
  simp [hk]

/-- Settles O25: the claim point by the start mode, and each of its steps as it stands. -/
theorem claimPointBegins : Obligations.ClaimPointBegins := by
  refine ⟨fun s p copy sec hh hr => ?_, fun s p copy ch n sec hh hr => ?_, fun w e p copy epoch => ?_,
    fun w p tick st now => ?_⟩
  · intro c shown i hk hc hm hs stop w
    have first : s.env.claimsFirst c = true :=
      (Env.claimsFirst_iff s.env _ (mode?_copy hc)).2 (Or.inl hm)
    obtain ⟨t, ht, after⟩ := exec_claimPoint_after hh hr hk first
    rw [World.beginShow_atTime hc hm] at after
    have monitor : w.monitor = s.world.monitor := World.runFrom_monitor hc rfl hs
    have copied : (w.player p).copy = some copy := World.runFrom_copy hc rfl hs
    have stops : w.stopTrue copy.booking ↔ stop := by rw [World.stopTrue, monitor]
    refine ⟨t, ht, fun hn => ?_, fun hy => ?_, fun bk id x => World.runFrom_find hc rfl hs,
      World.runFrom_player hc rfl hs, World.runFrom_claims hc rfl hs⟩
    · rwa [World.checkStop_stays copied fun ⟨_, h⟩ => hn (stops.1 h)] at after
    · rwa [World.checkStop_true copied (World.runFrom_running hc rfl hs) (stops.2 hy)] at after
  · intro c shown hk hc hm hs hsec w
    have pre := preroll_of_first hs hsec
    have first : s.env.claimsFirst c = true := (Env.claimsFirst_iff s.env _ (mode?_copy hc)).2
      (Or.inr (by rw [showOf_copy hc]; exact pre))
    obtain ⟨t, ht, after⟩ := exec_claimPoint_after hh hr hk first
    rw [World.beginShow_onCondition hc hm] at after
    have monitor : w.monitor = s.world.monitor := World.enterWaiting_monitor hc pre hs
    have copied : (w.player p).copy = some copy := World.enterWaiting_copy hc pre hs
    refine ⟨t, ht, fun hn => ?_, fun hy => ?_, fun bk id x => World.enterWaiting_find hc pre hs,
      World.enterWaiting_player hc pre hs, World.enterWaiting_claims hc pre hs⟩
    · rwa [World.readStart_stays copied hm (by rw [monitor]; exact hn)] at after
    · rwa [World.readStart_true copied hm (by rw [monitor]; exact hy)] at after
  · intro c shown preroll k begun hc
    refine ⟨fun hd => ?_, fun hd => ?_, fun sec hs => World.runFrom_eq hc rfl hs,
      fun sec hp hs => World.enterWaiting_eq hc hp hs, fun hp => World.enterWaiting_bare hc hp⟩
    · rw [World.sendClaims_copy hc, if_pos hd]
    · rw [World.sendClaims_copy hc, if_neg hd]
      rfl
  · intro reported hst
    have reported_eq (f : Player → Player) (g : Report → Report) (hf : (f (w.player p)).ref = (w.player p).ref) :
        (w.onPlayer p f).reportOn p g = reported (w.onPlayer p f) g := by
      rw [World.reportOn, World.onPlayer_player, if_pos rfl, hf]
    refine ⟨?_, reported_eq _ _ rfl⟩
    have progress : st.progress = now := by
      fin_cases hst <;> rfl
    rw [← progress]
    exact reported_eq _ _ rfl

end Sys2Proof.Machine
end

section
/-! SUPPORT. A booking's end (R85) as its bank and its player take it, a graceful end and the groups handed on after it
(R75, R79), and a cancel by the booking's progress (R54). -/

namespace Sys2Proof.Machine
namespace World

/-! ## The automatic dark test leaves the players, the plans and the zones (R178, R179) -/

section
variable (w : World) (e : Env)

/-- What the test and the entry of DARK leave alone holds of `autoDark`. -/
theorem autoDark_induct {P : World → Prop} (hw : P w)
    (hc : ∀ c : Controller, P { w with ctl := c })
    (hd : ∀ c : Controller, P (({ w with ctl := c } : World).enterDark e .auto)) : P (w.autoDark e) := by
  unfold autoDark
  dsimp only
  split
  · split
    · exact hd _
    · exact hc _
  · exact hw

@[simp] theorem autoDark_players : (w.autoDark e).players = w.players :=
  w.autoDark_induct e (P := fun v => v.players = w.players) rfl (fun _ => rfl)
    fun _ => enterDark_players _ e _

@[simp] theorem autoDark_plans : (w.autoDark e).plans = w.plans :=
  w.autoDark_induct e (P := fun v => v.plans = w.plans) rfl (fun _ => rfl) fun _ => enterDark_plans _ e _

@[simp] theorem autoDark_zones : (w.autoDark e).zones = w.zones :=
  w.autoDark_induct e (P := fun v => v.zones = w.zones) rfl (fun _ => rfl) fun _ => enterDark_zones _ e _

theorem raise_raised (k n : NoticeKind) (h : (w.notices.get n.no).pending = true) :
    ((w.raise e k).notices.get n.no).pending = true := ((Kept.refl w).raise e k).raised _ h

theorem autoDark_raised (n : NoticeKind) (h : (w.notices.get n.no).pending = true) :
    ((w.autoDark e).notices.get n.no).pending = true := by
  refine w.autoDark_induct e (P := fun v => (v.notices.get n.no).pending = true) h (fun _ => h) fun c => ?_
  have kept : (({ w with ctl := c } : World).changeState e .dark .auto).Kept
      (({ w with ctl := c } : World).enterDark e .auto) :=
    (Kept.refl _).each _ _ fun l _ hv => hv.quiesceOrder e l
  exact kept.raised _ (raise_raised _ e .operatingState n h)

end

/-! ## A booking's end -/

/-- The blocks once a player's takes are withdrawn and its claims released, unless it is DRY (R85). -/
def cleared (e : Env) (p : Fin 8) (w : World) : World :=
  if (w.player p).dry then w
  else (w.withdrawPlayer e p).each (mapZones (w.player p).zmap) (World.releaseZone e p)

section
variable (w : World) (e : Env) (p : Fin 8) (final : Progress) (abrupt : Bool)

theorem cleared_spared : w.Spared (w.cleared e p) := by
  unfold cleared
  split
  · exact Spared.refl w
  · exact ((Spared.refl w).keep ((Kept.refl w).withdrawPlayer e p)).each _ _ fun z _ hv =>
      hv.releaseZone e p z

theorem endBooking_eq : w.endBooking e p final abrupt =
    (((w.cleared e p).reportOn p fun _ =>
      { progress := final, abrupt := abrupt, startTick := ((w.cleared e p).player p).startTick
        endTick := ((w.cleared e p).player p).startTick.map fun _ => e.now
        counters := ((w.cleared e p).player p).counters }).raise e (endNotice final)).onPlayer p
      fun _ => Player.free := rfl

@[simp] theorem endBooking_player : (w.endBooking e p final abrupt).player p = Player.free := by
  rw [endBooking_eq, onPlayer_player, if_pos rfl]

theorem endBooking_raises :
    ((w.endBooking e p final abrupt).notices.get (endNotice final).no).pending = true := by
  rw [endBooking_eq]
  exact raise_pending _ e _

/-- The outcome that a player's end writes: its counters are those that stand once its takes are gone (R85). -/
theorem endBooking_find {bk : Bank} {id : Nat} {x : BankEntry} (hr : (w.player p).ref = some (bk, id))
    (hx : (w.bank bk).find id = some x) : ((w.endBooking e p final abrupt).bank bk).find id =
      some { x with outcome := ⟨final, abrupt, (w.player p).startTick,
        (w.player p).startTick.map fun _ => e.now, ((w.cleared e p).player p).counters⟩ } := by
  have spared := w.cleared_spared e p
  have bank : (w.cleared e p).bank bk = w.bank bk := congrArg (Plans.bank · bk) spared.plans
  have tick : ((w.cleared e p).player p).startTick = (w.player p).startTick := by
    rw [spared.player_eq p]
  rw [endBooking_eq, tick]
  change ((World.reportOn p _ (w.cleared e p)).bank bk).find id = _
  rw [find_reportOn ((spared.ref p).trans hr), bank, hx]
  rfl

end

/-! ## A graceful end -/

section
variable (w : World) (e : Env) (p : Fin 8) (t : Nat)

/-- Hands cut: the later records leave the list, and nothing else of the player but its counters changes (R75). -/
theorem cutHands_player : ∃ k, (w.cutHands e p t).player p = { w.player p with
    hands := (w.player p).hands.filter fun h => h.due < t, counters := k } := by
  have kept : (w.onPlayer p fun c => { c with hands := c.hands.filter fun h => h.due < t }).Kept
      (w.cutHands e p t) := (Kept.refl _).each _ _ fun h _ hv => hv.withdrawGroup e p h.id
  refine ⟨((w.cutHands e p t).player p).counters, ?_⟩
  rw [Kept.player_eq kept p, onPlayer_player, if_pos rfl]

end

end World

/-- A player on its way to its release: ENDING, its release point set and no passes latched, with the hold tick
`held` (R75, R79). -/
structure Player.Ends (held : Option Nat) (c : Player) : Prop where
  state : c.state = .ending
  latch : c.latch = none
  release : c.release.isSome = true
  holdTick : c.holdTick = held

namespace Player
variable {c : Player} {held : Option Nat} {shown : ShowRec} {sec : SectionRec} {g : GroupId}

theorem Ends.again (h : c.Ends held) : (c.again sec g).Ends held :=
  ⟨h.state, h.latch, h.release, h.holdTick⟩

/-- The section's last pass over, an ending player still ends: a new release point is a release point too. -/
theorem Ends.turnOver (h : c.Ends held) : (c.turnOver shown sec g).Ends held := by
  obtain ⟨hs, hl, hr, ht⟩ := h
  cases hn : shown.parts[g.sec + 1]? with
  | some next =>
    rw [turnOver_next shown sec g c hn]
    dsimp only
    split
    · exact ⟨hs, hl, rfl, ht⟩
    · exact ⟨hs, hl, hr, ht⟩
  | none =>
    rw [turnOver_last shown sec g c hn]
    dsimp only
    split
    · exact ⟨hs, hl, hr, ht⟩
    · exact ⟨hs, hl, rfl, ht⟩

theorem Ends.passTurn (h : c.Ends held) : (c.passTurn shown sec g).Ends held := by
  cases hp : c.passes with
  | none =>
    have same : c.passTurn shown sec g = c.again sec g := by
      unfold Player.passTurn
      split
      · next hn => cases hp.symm.trans hn
      · rfl
    rw [same]
    exact h.again
  | some k =>
    cases k with
    | endless =>
      rw [passTurn_endless shown sec g c hp]
      exact h.again
    | left n =>
      rw [passTurn_left shown sec g c hp, h.latch]
      split
      · exact ⟨h.state, h.latch, h.release, h.holdTick⟩
      · exact h.turnOver

theorem Ends.advance (h : c.Ends held) (n : Nat) : (c.advance shown sec g n).Ends held := by
  unfold Player.advance
  split
  · exact ⟨h.state, h.latch, h.release, h.holdTick⟩
  · exact h.passTurn

/-- A cut ends a show from any state that is then entered as ENDING (R75, R79). -/
theorem cutAt_ends (t : Nat) (cause : EndCause) (fresh : Bool) (c : Player) :
    { c.cutAt shown t cause fresh with state := .ending }.Ends c.holdTick := by
  unfold cutAt
  split
  · refine ⟨rfl, rfl, rfl, ?_⟩
    unfold walkFrom
    split <;> rfl
  · dsimp only
    split <;> exact ⟨rfl, rfl, rfl, rfl⟩

end Player

namespace World
variable {w : World} {e : Env} {p : Fin 8} {held : Option Nat}

/-- A group handed on leaves an ending player to its end. -/
theorem handOn_ends (h : ((w.player p).Ends held)) : ((w.handOn e p).player p).Ends held := by
  cases ha : e.walkAt (w.player p) with
  | none =>
    have same : w.handOn e p = w := by
      unfold handOn
      dsimp only
      rw [ha]
    rwa [same]
  | some a =>
    obtain ⟨g, sec, due⟩ := a
    obtain ⟨k, player⟩ := handOn_player w e p ha
    dsimp only at player
    have recorded : { w.player p with
        hands := (w.player p).hands ++ [e.handRec (w.player p) g sec due], counters := k }.Ends held :=
      ⟨h.state, h.latch, h.release, h.holdTick⟩
    have moved := recorded.advance (shown := e.showOf (w.player p)) (sec := sec) (g := g)
      (e.lib.group (e.showOf (w.player p)) sec g.cue).length
    rw [player]
    exact ⟨by simp [moved.state], moved.latch, moved.release, moved.holdTick⟩

theorem handAll_ends (h : (w.player p).Ends held) : ((w.handAll e p).player p).Ends held := by
  unfold handAll
  generalize e.now + 151 = n
  induction n generalizing w with
  | zero => exact h
  | succ n ih =>
    unfold handFor
    split
    · exact ih (handOn_ends h)
    · exact h

theorem endGracefully_ends (t : Nat) (cause : EndCause) (fresh : Bool) :
    ((w.endGracefully e p t cause fresh).player p).Ends (w.player p).holdTick := by
  obtain ⟨k, cut⟩ := w.cutHands_player e p t
  have ends := Player.cutAt_ends (shown := e.showOf (w.player p)) t cause fresh ((w.cutHands e p t).player p)
  have held : ((w.cutHands e p t).player p).holdTick = (w.player p).holdTick := by rw [cut]
  rw [held] at ends
  unfold endGracefully
  rw [enterState_player, onPlayer_player, if_pos rfl]
  exact ends

/-! ## CANCEL_BOOKING (R54, R79, R80) -/

theorem playerOf_ref {bk : Bank} {id : Nat} (h : w.playerOf bk id = some p) :
    (w.player p).ref = some (bk, id) := by
  simpa using List.find?_some h

section
variable {n id abrupt : Nat} {bk : Bank} {x : BankEntry}

theorem cancelBooking_flag (hb : bank? n = some bk) (ha : 1 < abrupt) :
    w.cancelBooking e n id abrupt = (w, .badField 2) := by
  rw [cancelBooking, forBank_some hb, flag?_none ha]

theorem cancelBooking_notFound (hb : bank? n = some bk) (ha : abrupt ≤ 1)
    (hx : (w.bank bk).find id = none) : w.cancelBooking e n id abrupt = (w, .no .notFound) := by
  rw [cancelBooking, forBank_some hb, flag?_le ha]
  exact forBooking_notFound hx

theorem cancelBooking_wrongState (hb : bank? n = some bk) (ha : abrupt ≤ 1)
    (hx : (w.bank bk).find id = some x)
    (hs : x.outcome.progress.final = true
      ∨ ((w.bank bk).state = .spent ∧ x.outcome.progress.inPlayer = false)) :
    w.cancelBooking e n id abrupt = (w, .no .wrongState) := by
  rw [cancelBooking, forBank_some hb, flag?_le ha]
  exact forBooking_wrongState hx hs

theorem cancelBooking_taken (hb : bank? n = some bk) (ha : abrupt ≤ 1)
    (hx : (w.bank bk).find id = some x) (hs : x.changeable (w.bank bk)) :
    w.cancelBooking e n id abrupt = (w.cancelTaken e bk id (abrupt == 1) x, .ok []) := by
  rw [cancelBooking, forBank_some hb, flag?_le ha]
  exact forBooking_open hx hs

/-- A booking in a player can be cancelled in any state of its bank. -/
theorem changeable_inPlayer {r : BankRec} (h : x.outcome.progress.inPlayer = true) : x.changeable r := by
  refine ⟨?_, fun _ => h⟩
  revert h
  cases x.outcome.progress <;> simp [Progress.inPlayer, Progress.final]

theorem cancelTaken_inPlayer {hard : Bool} (h : x.outcome.progress.inPlayer = true)
    (hp : w.playerOf bk id = some p) : w.cancelTaken e bk id hard x =
      if hard then w.finish e p .cancelled true else w.cancelGracefully e p := by
  have other : x.outcome.progress ≠ .pending ∧ x.outcome.progress ≠ .waitlisted := by
    revert h
    cases x.outcome.progress <;> simp [Progress.inPlayer]
  unfold cancelTaken
  dsimp only
  rw [hp]
  split
  · next hc => exact absurd hc other.1
  · next hc => exact absurd hc other.2
  · rfl

/-- A cancel of a booking in a player: what the request leaves. -/
theorem cancelBooking_inPlayer (hb : bank? n = some bk) (ha : abrupt ≤ 1)
    (hx : (w.bank bk).find id = some x) (hi : x.outcome.progress.inPlayer = true)
    (hp : w.playerOf bk id = some p) : w.cancelBooking e n id abrupt =
      (if (abrupt == 1) = true then w.finish e p .cancelled true else w.cancelGracefully e p, .ok []) := by
  rw [cancelBooking_taken hb ha hx (changeable_inPlayer hi), cancelTaken_inPlayer hi hp]

theorem cancelGracefully_running (h : (w.player p).state = .running) : w.cancelGracefully e p =
    (w.endGracefully e p (e.now + 150) .cancelled false).handAll e p := by
  rw [cancelGracefully, h]

theorem cancelGracefully_held (h : (w.player p).state = .held) : w.cancelGracefully e p =
    ((w.endGracefully e p (e.now + 150) .cancelled true).onPlayer p fun c =>
      { c with holdTick := none }).handAll e p := by
  rw [cancelGracefully, h]

theorem cancelGracefully_ending (h : (w.player p).state = .ending) : w.cancelGracefully e p = w := by
  rw [cancelGracefully, h]

/-- In every other state a graceful cancel ends the booking at once (R79). -/
theorem cancelGracefully_else (hf : (w.player p).state ≠ .free)
    (h : ¬((w.player p).state = .running ∨ (w.player p).state = .held ∨ (w.player p).state = .ending)) :
    w.cancelGracefully e p = w.finish e p .cancelled false := by
  unfold cancelGracefully
  split
  · next hs => exact absurd (Or.inl hs) h
  · next hs => exact absurd (Or.inr (Or.inl hs)) h
  · next hs => exact absurd (Or.inr (Or.inr hs)) h
  · next hs => exact absurd hs hf
  · rfl

end

end World

/-- After an accepted request the reply stands in the slot. -/
theorem State.AfterReply.slot {s t : State} {w : World} {r : Reply} (h : s.AfterReply w r t) :
    t.port.slot = some r := by
  rw [h.2, Port.choose_slot]

/-- An ending player after a graceful cancel still ends once the links have chosen. -/
theorem State.AfterReply.ends {s t : State} {w : World} {r : Reply} {p : Fin 8} {held : Option Nat}
    (h : s.AfterReply w r t) (hp : (w.player p).Ends held) : (t.world.player p).Ends held := by
  have same := h.1.kept.player_eq p
  exact ⟨by rw [same]; exact hp.state, by rw [same]; exact hp.latch, by rw [same]; exact hp.release,
    by rw [same]; exact hp.holdTick⟩

/-- Settles O22: a cancel by the booking's progress and its player's state. -/
theorem bookingCancelled : Obligations.BookingCancelled := by
  refine ⟨fun s tag n id abrupt hs => ⟨fun hb => ?_, fun bk hb ha => ?_⟩,
    fun s tag n id abrupt bk hs hb ha => ?_, fun s tag n id abrupt bk x p hs hb ha hx hi hp hw => ?_,
    fun s tag n id bk x p hs hb hx hi hp => ?_⟩
  · exact State.exec_refused (exec_cancelBooking_idle tag n id abrupt hs) (forBank_none hb)
  · exact State.exec_refused (exec_cancelBooking_idle tag n id abrupt hs) (World.cancelBooking_flag hb ha)
  · have hi := exec_cancelBooking_idle tag n id abrupt hs
    refine ⟨fun hx => State.exec_refused hi (World.cancelBooking_notFound hb ha hx),
      fun x hx => ⟨fun h => State.exec_refused hi (World.cancelBooking_wrongState hb ha hx h),
        fun hr hp => State.exec_accepted hi ?_, fun hr hp => State.exec_accepted hi ?_⟩⟩
    all_goals
      rw [World.cancelBooking_taken hb ha hx ⟨by rw [hp]; rfl, fun h => absurd h hr⟩,
        World.cancelTaken, hp]
  · intro c graceful
    have hex := exec_cancelBooking_idle tag n id abrupt hs
    have taken := World.cancelBooking_inPlayer (e := s.env) hb ha hx hi hp
    refine ⟨fun hf hg => ?_, fun ha hc => ?_, fun ha hc => ?_⟩
    · have ended : s.world.cancelBooking s.env n id abrupt
          = ((s.world.endBooking s.env p .cancelled (abrupt == 1)).autoDark s.env, .ok []) := by
        rw [taken, ← World.finish_unwaited _ _ _ _ _ hw]
        by_cases h1 : abrupt = 1
        · simp [h1]
        · have h0 : abrupt = 0 := by omega
          have live : ¬(c.state = .running ∨ c.state = .held ∨ c.state = .ending) := fun h => hg ⟨h0, h⟩
          simp [h0, World.cancelGracefully_else hf live]
      obtain ⟨t, ht, after⟩ := State.exec_accepted hex ended
      have kept := after.1.kept
      have free : (((s.world.endBooking s.env p .cancelled (abrupt == 1)).autoDark s.env).player p)
          = Player.free := by
        rw [World.player, World.autoDark_players]
        exact World.endBooking_player ..
      refine ⟨t, ht, after.slot, (kept.free p (by rw [free]; rfl)).trans free,
        kept.raised _ (World.autoDark_raised _ _ .bookingEnded (World.endBooking_raises ..)), ?_⟩
      have found := s.world.endBooking_find s.env p .cancelled (abrupt == 1) (World.playerOf_ref hp) hx
      have bank : t.world.bank bk = (s.world.endBooking s.env p .cancelled (abrupt == 1)).bank bk := by
        rw [World.bank, kept.plans, World.autoDark_plans, World.bank]
      exact ⟨_, (congrArg (BankRec.find · id) bank).trans found, rfl, rfl, rfl, rfl, rfl⟩
    · subst ha
      rcases hc with hc | hc
      · obtain ⟨t, ht, after⟩ := State.exec_accepted hex
          (taken.trans (congrArg (·, Answer.ok []) (World.cancelGracefully_running hc)))
        have ends := after.ends (World.handAll_ends (World.endGracefully_ends _ _ _))
        refine ⟨t, ht, after.slot, ends.state, ?_, ends.latch, ends.release⟩
        rw [ends.holdTick, if_neg (by rw [hc]; decide)]
      · obtain ⟨t, ht, after⟩ := State.exec_accepted hex
          (taken.trans (congrArg (·, Answer.ok []) (World.cancelGracefully_held hc)))
        have cut := World.endGracefully_ends (w := s.world) (e := s.env) (p := p) (s.env.now + 150)
          .cancelled true
        have ends := after.ends (held := none) (World.handAll_ends (by
          rw [World.onPlayer_player, if_pos rfl]
          exact ⟨cut.state, cut.latch, cut.release, rfl⟩))
        refine ⟨t, ht, after.slot, ends.state, ?_, ends.latch, ends.release⟩
        rw [ends.holdTick, if_pos hc]
    · subst ha
      exact State.exec_accepted hex
        (taken.trans (congrArg (·, Answer.ok []) (World.cancelGracefully_ending hc)))
  · intro after
    have hex := exec_cancelBooking_idle tag n id 0 hs
    have taken := World.cancelBooking_inPlayer (e := s.env) hb (by omega) hx hi hp (abrupt := 0)
    exact ⟨fun hc => State.exec_accepted hex
        (taken.trans (congrArg (·, Answer.ok []) (World.cancelGracefully_running hc))),
      fun hc => State.exec_accepted hex
        (taken.trans (congrArg (·, Answer.ok []) (World.cancelGracefully_held hc)))⟩

end Sys2Proof.Machine
end

section
/-! SUPPORT. ADD_BOOKING (R41, R42), and one booking of an arming event (R50, R51, R53). -/

namespace Sys2Proof.Machine

/-! ## A place in an order -/

/-- What is put into a list stands after a front that it does not come before, and before what it comes before. -/
theorem insertBy_split {α : Type} (before : α → α → Bool) (x : α) (l : List α) :
    ∃ front back, l = front ++ back ∧ insertBy before x l = front ++ x :: back
      ∧ (∀ y ∈ front, before x y = false) ∧ ∀ y, back.head? = some y → before x y = true := by
  induction l with
  | nil => exact ⟨[], [], rfl, rfl, by simp, by simp⟩
  | cons y rest ih =>
    rw [insertBy]
    cases hb : before x y with
    | true => exact ⟨[], y :: rest, rfl, rfl, by simp, fun z hz => by cases hz; exact hb⟩
    | false =>
      obtain ⟨front, back, hl, hi, hf, hk⟩ := ih
      refine ⟨y :: front, back, by rw [hl, List.cons_append], ?_, ?_, hk⟩
      · rw [hi, if_neg Bool.false_ne_true, List.cons_append]
      · intro z hz
        rcases List.mem_cons.1 hz with rfl | hz
        · exact hb
        · exact hf z hz

namespace World
variable {w : World} {e : Env} {bk : Bank} {k : Booking}

/-! ## The lowest-numbered FREE player (R50) -/

theorem freePlayer_some {p : Fin 8} (hp : (w.player p).state = .free)
    (hq : ∀ q, q < p → (w.player q).state ≠ .free) : w.freePlayer = some p := by
  rw [freePlayer, List.find?_eq_some_iff_getElem]
  refine ⟨by rw [hp]; rfl, p.val, by simp, by simp, fun j hj => ?_⟩
  simpa using hq ⟨j, by omega⟩ hj

theorem freePlayer_none (h : ∀ q, (w.player q).state ≠ .free) : w.freePlayer = none := by
  simpa [freePlayer] using h

/-! ## One booking of an arming event -/

/-- The blocks once a booking's arm point has been acted on (R50). -/
def acted (w : World) (bk : Bank) (id : Nat) : World := w.onEntry bk id fun x => { x with armHeld := false }

@[simp] theorem acted_ctl (id : Nat) : (w.acted bk id).ctl = w.ctl := rfl
@[simp] theorem acted_players (id : Nat) : (w.acted bk id).players = w.players := rfl
@[simp] theorem acted_player (id : Nat) (p : Fin 8) : (w.acted bk id).player p = w.player p := rfl
@[simp] theorem acted_wait (id : Nat) : (w.acted bk id).plans.wait = w.plans.wait := onBank_wait _ _ _
@[simp] theorem acted_armSeq (id : Nat) : (w.acted bk id).plans.armSeq = w.plans.armSeq :=
  onBank_armSeq _ _ _

@[simp] theorem acted_date (id : Nat) : ((w.acted bk id).bank bk).date = (w.bank bk).date := by
  rw [acted, onEntry, onBank_bank]
  rfl

/-- The bookings are found as before. -/
theorem acted_booking (id j : Nat) :
    (((w.acted bk id).bank bk).find j).map (·.booking) = ((w.bank bk).find j).map (·.booking) := by
  rw [acted, onEntry, onBank_bank]
  exact BankRec.find_booking (f := fun x => { x with armHeld := false }) (fun _ => rfl) j

/-- The judgement of a booking of the bank (R53). -/
def late (w : World) (e : Env) (bk : Bank) (k : Booking) : Option LateMark :=
  lateMark e.now (civic (w.bank bk).date k.start) k (k.endPoint (w.bank bk).date)
    (e.lib.showRec k.showNo).length

theorem acted_judgeLate (id : Nat) : (w.acted bk id).judgeLate e bk k = w.late e bk k := by
  rw [judgeLate, acted_date]
  rfl

theorem armOne_parked (h : w.ctl.state = .parked) : w.armOne e bk k = w.acted bk k.id := if_pos h

/-- But while PARKED, a booking is judged at its arming (R50, R53). -/
theorem armOne_judged (h : w.ctl.state ≠ .parked) :
    w.armOne e bk k = (w.acted bk k.id).armJudged e bk k (w.late e bk k) := by
  rw [armOne, ← acted_judgeLate k.id]
  exact if_neg h

theorem armOne_skipped (h : w.ctl.state ≠ .parked) (hm : w.late e bk k = none) :
    w.armOne e bk k = (w.acted bk k.id).skipLate e bk k.id := by
  rw [armOne_judged h, hm]
  rfl

theorem armOne_armed (h : w.ctl.state ≠ .parked) {m : LateMark} (hm : w.late e bk k = some m) {p : Fin 8}
    (hp : (w.player p).state = .free) (hq : ∀ q, q < p → (w.player q).state ≠ .free) :
    w.armOne e bk k = ((w.acted bk k.id).armInto e p bk k m).freedAtOnce e p := by
  have free : (w.acted bk k.id).freePlayer = some p := freePlayer_some hp hq
  rw [armOne_judged h, hm, armJudged, armOrWait, free]

theorem armOne_waits (h : w.ctl.state ≠ .parked) {m : LateMark} (hm : w.late e bk k = some m)
    (hq : ∀ q, (w.player q).state ≠ .free) : w.armOne e bk k = (w.acted bk k.id).joinWait e bk k := by
  have free : (w.acted bk k.id).freePlayer = none := freePlayer_none hq
  rw [armOne_judged h, hm, armJudged, armOrWait, free]

/-- The wait list with a booking in it. -/
def withWait (w : World) (wait : List Nat) : World := { w with plans := { w.plans with wait := wait } }

/-- The order of the wait list by the bookings of a bank (R51). -/
def comesBefore (w : World) (bk : Bank) (x y : Nat) : Bool :=
  match (w.bank bk).find x, (w.bank bk).find y with
  | some a, some c => a.booking.before c.booking
  | _, _ => false

theorem joinWait_eq : w.joinWait e bk k = ((w.withWait (insertBy (w.comesBefore bk) k.id w.plans.wait)).onOutcome
    bk k.id fun r => { r with progress := .waitlisted }).raise e .playerWait := rfl

/-- A booking joins the wait list behind what it does not come before (R51). -/
theorem joinWait_split {x : BankEntry} (hx : (w.bank bk).find k.id = some x) (hk : x.booking = k) :
    ∃ front back, w.plans.wait = front ++ back
      ∧ w.joinWait e bk k = ((w.withWait (front ++ k.id :: back)).onOutcome bk k.id
        fun r => { r with progress := .waitlisted }).raise e .playerWait
      ∧ (∀ id y, id ∈ front → (w.bank bk).find id = some y → k.before y.booking = false)
      ∧ ∀ id y, back.head? = some id → (w.bank bk).find id = some y → k.before y.booking = true := by
  obtain ⟨front, back, hl, hi, hf, hb⟩ := insertBy_split (w.comesBefore bk) k.id w.plans.wait
  have order {id : Nat} {y : BankEntry} (hy : (w.bank bk).find id = some y) :
      w.comesBefore bk k.id id = k.before y.booking := by
    simp only [comesBefore, hx, hy, hk]
  exact ⟨front, back, hl, by rw [joinWait_eq, hi], fun id y hm hy => (order hy).symm.trans (hf id hm),
    fun id y hh hy => (order hy).symm.trans (hb id hh)⟩

end World

theorem armPassed_iff (now : Nat) (d : Date) (k : Booking) :
    armPassed now d k = true ↔ civic d k.start ≤ now + 6000 := decide_eq_true_iff

namespace World
variable {w : World} {e : Env} {bk : Bank} {k : Booking}

/-! ## ADD_BOOKING (R41, R42) -/

/-- The blocks with a booking at the end of a bank's list. -/
def added (w : World) (bk : Bank) (k : Booking) : World :=
  w.onBank bk fun r => { r with list := r.list ++ [⟨k, Report.fresh, true⟩] }

theorem find_new (hk : ∀ x ∈ (w.bank bk).list, x.booking.id ≠ k.id) :
    ((w.bank bk).find k.id).isSome = false := by
  simpa [BankRec.find] using hk

section
variable {n : Nat} {f : BookingField}

theorem addBooking_wrongState (hb : bank? n = some bk) (hl : (w.bank bk).state ≠ .loading)
    (ha : (w.bank bk).state ≠ .active) : w.addBooking e n f = (w, .no .wrongState) := by
  rw [addBooking, forBank_some hb]
  exact if_pos ⟨hl, ha⟩

section
variable (hb : bank? n = some bk) (hs : (w.bank bk).state = .loading ∨ (w.bank bk).state = .active)
include hb hs

/-- Past the test on the bank's state, the answer turns on the booking. -/
theorem addBooking_state : w.addBooking e n f = (match booking? f with
    | .error off => (w, .badField off)
    | .ok k =>
      if ((w.bank bk).find k.id).isSome then (w, .no .inUse)
      else if 48 ≤ (w.bank bk).list.length then (w, .no .noRoom)
      else
        let done (v : World) := (v, Answer.ok [byteOf ((w.bank bk).list.length + 1)])
        if (w.bank bk).state = .loading then done (w.added bk k)
        else match w.sealFault e.lib k with
          | some why => (w, .invalid why none none)
          | none => done (if armPassed e.now (w.bank bk).date k then (w.added bk k).armOne e bk k
            else w.added bk k)) := by
  rw [addBooking, forBank_some hb]
  exact if_neg fun ⟨hl, ha⟩ => hs.elim hl ha

theorem addBooking_badField {off : Nat} (hf : booking? f = .error off) :
    w.addBooking e n f = (w, .badField off) := by rw [addBooking_state hb hs, hf]

theorem addBooking_inUse (hf : booking? f = .ok k) (hk : ∃ x ∈ (w.bank bk).list, x.booking.id = k.id) :
    w.addBooking e n f = (w, .no .inUse) := by
  rw [addBooking_state hb hs, hf]
  refine if_pos ?_
  simpa [BankRec.find] using hk

variable (hk : ∀ x ∈ (w.bank bk).list, x.booking.id ≠ k.id)
include hk

theorem addBooking_noRoom (hf : booking? f = .ok k) (hn : 48 ≤ (w.bank bk).list.length) :
    w.addBooking e n f = (w, .no .noRoom) := by
  rw [addBooking_state hb hs, hf]
  simp only [find_new hk, hn, Bool.false_eq_true, if_false, if_true]

variable (hn : (w.bank bk).list.length < 48)
include hn

theorem addBooking_room (hf : booking? f = .ok k) : w.addBooking e n f =
    (let done (v : World) := (v, Answer.ok [byteOf ((w.bank bk).list.length + 1)])
    if (w.bank bk).state = .loading then done (w.added bk k)
    else match w.sealFault e.lib k with
      | some why => (w, .invalid why none none)
      | none => done (if armPassed e.now (w.bank bk).date k then (w.added bk k).armOne e bk k
        else w.added bk k)) := by
  rw [addBooking_state hb hs, hf]
  have room : ¬48 ≤ (w.bank bk).list.length := by omega
  simp only [find_new hk, room, Bool.false_eq_true, if_false]

theorem addBooking_loading (hf : booking? f = .ok k) (hl : (w.bank bk).state = .loading) :
    w.addBooking e n f = (w.added bk k, .ok [byteOf ((w.bank bk).list.length + 1)]) := by
  rw [addBooking_room hb hs hk hn hf]
  exact if_pos hl

theorem addBooking_invalid (hf : booking? f = .ok k) (ha : (w.bank bk).state = .active) {why : Reason}
    (hw : w.sealFault e.lib k = some why) : w.addBooking e n f = (w, .invalid why none none) := by
  rw [addBooking_room hb hs hk hn hf, hw]
  exact if_neg (by rw [ha]; decide)

theorem addBooking_active (hf : booking? f = .ok k) (ha : (w.bank bk).state = .active)
    (hw : w.sealFault e.lib k = none) : w.addBooking e n f =
      (if armPassed e.now (w.bank bk).date k then (w.added bk k).armOne e bk k else w.added bk k,
        .ok [byteOf ((w.bank bk).list.length + 1)]) := by
  rw [addBooking_room hb hs hk hn hf, hw]
  exact if_neg (by rw [ha]; decide)

end
end

end World

/-- Settles O19: the request's tests in their order, what it appends, and one booking of an arming event. -/
theorem addBookingAppends : Obligations.AddBookingAppends := by
  refine ⟨fun s tag n f hs hb => ?_, fun s tag n f bk hs hb => ?_, fun w e bk k => ?_⟩
  · exact State.exec_refused (exec_addBooking_idle tag n f hs) (forBank_none hb)
  · have hi := exec_addBooking_idle tag n f hs
    refine ⟨fun hl ha => State.exec_refused hi (World.addBooking_wrongState hb hl ha), fun hst =>
      ⟨fun off hf => State.exec_refused hi (World.addBooking_badField hb hst hf), fun k hf =>
        ⟨fun hx => State.exec_refused hi (World.addBooking_inUse hb hst hf hx),
          fun hx hn => State.exec_refused hi (World.addBooking_noRoom hb hst hx hf hn), fun hx hn =>
            ⟨fun hl => State.exec_accepted hi (World.addBooking_loading hb hst hx hn hf hl), fun ha =>
              ⟨fun why hw => State.exec_refused hi (World.addBooking_invalid hb hst hx hn hf ha hw),
                fun hw => ⟨fun hp => State.exec_accepted hi ?_, fun hp => ?_⟩⟩⟩⟩⟩⟩
    · have taken := World.addBooking_active (e := s.env) hb hst hx hn hf ha hw
      rwa [if_neg fun h => Nat.not_le.2 hp ((armPassed_iff s.env.now ..).1 h)] at taken
    · have taken := World.addBooking_active (e := s.env) hb hst hx hn hf ha hw
      rw [if_pos ((armPassed_iff s.env.now ..).2 hp)] at taken
      obtain ⟨t, ht, after⟩ := State.exec_accepted hi taken
      have kept := ((World.Moves.refl (bks := false) (s.world.added bk k)).armOne s.env bk k).plansKept
      have bank : t.world.plans = ((s.world.added bk k).armOne s.env bk k).plans := after.1.kept.plans
      refine ⟨t, ht, after.slot, after, ?_, ?_⟩
      · rw [World.bank, bank, kept.state]
        exact (congrArg BankRec.state (World.onBank_bank ..)).trans ha
      · rw [World.bank, bank, kept.ids]
        refine (congrArg (fun r : BankRec => r.list.map (·.booking.id)) (World.onBank_bank ..)).trans ?_
        rw [List.map_append]
        rfl
  · intro acted d mark outcome
    refine ⟨World.armOne_parked, fun hp => ⟨World.armOne_skipped hp, fun m hm =>
      ⟨fun p hf hq => World.armOne_armed hp hm hf hq, fun hq x hx hk => ?_⟩⟩⟩
    have same {id : Nat} {z : BankEntry} (hz : (w.bank bk).find id = some z) :
        ∃ u, ((w.acted bk k.id).bank bk).find id = some u ∧ u.booking = z.booking := by
      have := w.acted_booking (bk := bk) k.id id
      rw [hz, Option.map_some] at this
      exact Option.map_eq_some_iff.1 this
    obtain ⟨y, hy, hyx⟩ := same hx
    obtain ⟨front, back, hw, hj, hf, hbk⟩ := World.joinWait_split (e := e) hy (hyx.trans hk)
    rw [World.acted_wait] at hw
    refine ⟨front, back, hw, (World.armOne_waits hp hm hq).trans hj, fun id z hid hz => ?_,
      fun id z hid hz => ?_⟩
    · obtain ⟨u, hu, huz⟩ := same hz
      rw [← huz]
      exact hf id u hid hu
    · obtain ⟨u, hu, huz⟩ := same hz
      rw [← huz]
      exact hbk id u hid hu

end Sys2Proof.Machine
end

section
/-! SUPPORT. A plan that comes into force or leaves it, at ACTIVATE_PLAN and at the day roll (R45, R46, R48). -/

namespace Sys2Proof.Machine

/-- The outcomes of the bookings of some ids changed. -/
def BankRec.onOutcomes (ids : List Nat) (f : Report → Report) (r : BankRec) : BankRec :=
  { r with list := r.list.map fun x =>
      if x.booking.id ∈ ids then { x with outcome := f x.outcome } else x }

namespace World

theorem onBank_onBank (w : World) (bk : Bank) (f g : BankRec → BankRec) :
    (w.onBank bk f).onBank bk g = w.onBank bk (g ∘ f) := by cases bk <;> rfl

theorem onBank_id (w : World) (bk : Bank) : w.onBank bk id = w := by cases bk <;> rfl

/-- Outcomes changed one after another are changed together, where a second change of one adds nothing. -/
theorem each_onOutcome (bk : Bank) (f : Report → Report) (hf : ∀ r, f (f r) = f r) (ids : List Nat)
    (w : World) : (w.each ids fun id v => v.onOutcome bk id f) = w.onBank bk (BankRec.onOutcomes ids f) := by
  induction ids generalizing w with
  | nil =>
    have none_changed : BankRec.onOutcomes [] f = id := by
      funext r
      simp [BankRec.onOutcomes]
    rw [none_changed, onBank_id, each_nil]
  | cons i ids ih =>
    rw [each_cons, ih, onOutcome, onEntry, onBank_onBank]
    congr 1
    funext r
    simp only [Function.comp, BankRec.onOutcomes, BankRec.onEntry, List.map_map, List.mem_cons]
    congr 1
    refine List.map_congr_left fun x _ => ?_
    simp only [Function.comp]
    by_cases hi : x.booking.id = i <;> by_cases hm : x.booking.id ∈ ids <;> simp [hi, hm, hf]

variable (w : World) (e : Env)

/-! ## Leaving the plan in force (R46, R48) -/

section
variable (bk : Bank) (next : BankState)

theorem leaveForce_apart (ha : (w.bank bk).state ≠ .active) (hl : (w.bank bk).state ≠ .lapsed) :
    w.leaveForce e bk next = w := (if_neg ha).trans (if_neg hl)

theorem leaveForce_lapsed (hl : (w.bank bk).state = .lapsed) :
    w.leaveForce e bk next = w.onBank bk fun r => { r with state := next } :=
  (if_neg (by rw [hl]; decide)).trans (if_pos hl)

theorem leaveForce_active (ha : (w.bank bk).state = .active) : w.leaveForce e bk next =
    (w.onBank bk fun r => { r with state := next }).flushWait e bk := if_pos ha

theorem flushWait_nil (h : w.plans.wait = []) : w.flushWait e bk = w := by
  rw [flushWait, h]
  rfl

/-- A wait list that is not empty is emptied with one notice, its bookings SKIPPED_LATE (R48). -/
theorem flushWait_cons (h : w.plans.wait ≠ []) : w.flushWait e bk =
    ((w.onBank bk (BankRec.onOutcomes w.plans.wait fun r => { r with progress := .skippedLate })).withWait
      []).raise e .bookingNotStarted := by
  have waiting : w.plans.wait.isEmpty = false := by simpa using h
  rw [flushWait, waiting]
  dsimp only
  rw [each_onOutcome bk (fun r => { r with progress := .skippedLate }) (fun _ => rfl)]
  rfl

/-- The plan in force left while bookings wait (R48). -/
theorem leaveForce_flushes (ha : (w.bank bk).state = .active) (h : w.plans.wait ≠ []) :
    w.leaveForce e bk next = ((w.onBank bk (BankRec.onOutcomes w.plans.wait
      (fun r => { r with progress := .skippedLate }) ∘ fun r => { r with state := next })).withWait
        []).raise e .bookingNotStarted := by
  have waiting : (w.onBank bk fun r => { r with state := next }).plans.wait = w.plans.wait :=
    onBank_wait ..
  rw [leaveForce_active w e bk next ha, flushWait_cons _ e bk (by rwa [waiting]), waiting, onBank_onBank]

theorem leaveForce_raises (ha : (w.bank bk).state = .active) (h : w.plans.wait ≠ []) :
    ((w.leaveForce e bk next).notices.get NoticeKind.bookingNotStarted.no).pending = true := by
  rw [leaveForce_flushes w e bk next ha h]
  exact raise_pending _ e _

end

/-! ## Coming into force (R45, R50) -/

/-- The bank's state and its arm points, before those that have passed are acted on. -/
def forced (e : Env) (bk : Bank) (w : World) : World :=
  (w.leaveForce e bk.other .spent).onBank bk fun r =>
    { r with state := .active, list := r.list.map fun x => { x with armHeld := true } }

theorem forced_activeBank (bk : Bank) : (w.forced e bk).activeBank = some bk := by
  refine activeBank_only ?_ ?_
  · rw [forced, onBank_bank]
  · rw [forced, onBank_bank_other, (w.leaveForce_state e bk.other .spent).1]
    split
    · decide
    · next h => exact fun ha => h (Or.inl ha)

theorem comeIntoForce_eq (bk : Bank) : w.comeIntoForce e bk =
    (w.forced e bk).each (((w.forced e bk).bank bk).armable e.now true) (World.armOne e bk) := by
  have batch : w.comeIntoForce e bk = (w.forced e bk).armBatch e true := rfl
  rw [batch, armBatch, forced_activeBank]

/-- What leaving the other bank raises stays raised once the plan is in force. -/
theorem comeIntoForce_raised (bk : Bank) (k : Fin 16)
    (h : ((w.leaveForce e bk.other .spent).notices.get k).pending = true) :
    ((w.comeIntoForce e bk).notices.get k).pending = true := by
  rw [comeIntoForce]
  exact (((Moves.refl (bks := true) _).onBank bk _).armBatch e true).raised k h

/-! ## The day roll (R46) -/

section
variable (d : Date)

theorem dayRoll_kept : (w.swapBanks e d).plans.Kept (w.dayRoll e d).plans :=
  autoDark_kept ((w.swapBanks e d).raise e .dayRoll) e

/-- The day roll leaves each bank's date and bookings. -/
theorem dayRoll_sameLists : w.plans.SameLists (w.dayRoll e d).plans := by
  have noted : (w.forDate e d).plans.Kept (w.swapBanks e d).plans :=
    ((Moves.refl (bks := false) _).noteMissing e).plansKept
  exact ((w.forDate_sameLists e d).trans noted.sameLists).trans (w.dayRoll_kept e d).sameLists

/-- The states after a day roll that brings a plan into force. -/
theorem dayRoll_ready_state {bk : Bank} (hr : (w.bank bk).state = .ready ∧ (w.bank bk).date = d)
    (ho : ¬((w.bank bk.other).state = .ready ∧ (w.bank bk.other).date = d)) :
    ((w.dayRoll e d).bank bk).state = .active ∧ ((w.dayRoll e d).bank bk.other).state =
      if (w.bank bk.other).state = .active ∨ (w.bank bk.other).state = .lapsed then .spent
      else (w.bank bk.other).state := by
  have kept := w.dayRoll_kept e d
  rw [w.swapBanks_ready e d hr ho] at kept
  obtain ⟨self, other⟩ := w.comeIntoForce_state e bk
  exact ⟨(kept.state bk).trans self, (kept.state bk.other).trans other⟩

section
variable (hn : ∀ x, ¬((w.bank x).state = .ready ∧ (w.bank x).date = d))
  (hb : ¬((w.bank .a).state = .active ∧ (w.bank .b).state = .active))
include hn hb

/-- The states after a day roll for which no plan is ready: the one in force has lapsed. -/
theorem dayRoll_missing_state (x : Bank) : ((w.dayRoll e d).bank x).state =
    if (w.bank x).state = .active then .lapsed else (w.bank x).state := by
  have kept := (w.dayRoll_kept e d).state x
  refine kept.trans ?_
  cases hw : w.activeBank with
  | none =>
    have inactive := w.activeBank_none_iff.mp hw
    rw [w.swapBanks_missing e d hn inactive, if_neg (inactive x)]
    rfl
  | some bk =>
    have active := activeBank_active hw
    have inactive := other_inactive hb active
    obtain ⟨self, other⟩ := w.leaveForce_state e bk .lapsed
    rw [w.swapBanks_lapse e d hn active inactive]
    rcases bk.eq_or_other x with rfl | rfl
    · rw [if_pos active]
      exact self.trans (if_pos (.inl active))
    · rw [if_neg inactive]
      exact other

theorem dayRoll_missing_raises :
    ((w.dayRoll e d).notices.get NoticeKind.planMissing.no).pending = true := by
  refine autoDark_raised _ e _ (raise_raised _ e _ .planMissing ?_)
  cases hw : w.activeBank with
  | none =>
    rw [w.swapBanks_missing e d hn (w.activeBank_none_iff.mp hw)]
    exact raise_pending _ e _
  | some bk =>
    rw [w.swapBanks_lapse e d hn (activeBank_active hw) (other_inactive hb (activeBank_active hw))]
    exact raise_pending _ e _

end
end

/-! ## ACTIVATE_PLAN (R45) -/

section
variable {w e} {unset : Bool} {today : Date} {n : Nat} {bk : Bank}

theorem activatePlan_unset (hb : bank? n = some bk) (hu : unset = true) :
    w.activatePlan e unset today n = (w, .no .timeUnset) := by
  simp [activatePlan, forBank_some hb, hu]

theorem activatePlan_wrongState (hb : bank? n = some bk) (hu : unset = false)
    (hr : (w.bank bk).state ≠ .ready ∨ (w.bank bk).date ≠ today) :
    w.activatePlan e unset today n = (w, .no .wrongState) := by
  by_cases hs : (w.bank bk).state = .ready
  · simp [activatePlan, forBank_some hb, hu, hs, hr.resolve_left (not_not.2 hs)]
  · simp [activatePlan, forBank_some hb, hu, hs]

theorem activatePlan_taken (hb : bank? n = some bk) (hu : unset = false) (hs : (w.bank bk).state = .ready)
    (hd : (w.bank bk).date = today) :
    w.activatePlan e unset today n = ((w.comeIntoForce e bk).autoDark e, .ok []) := by
  simp [activatePlan, forBank_some hb, hu, hs, hd]

end
end World

/-! ## The tick event at the end of a date -/

/-- The blocks once every duration has ticked and the day has rolled: the links have chosen, and the reach is
open (R1, R46). -/
def World.rolled (e : Env) (d : Date) (w : World) : World := ((w.tick.dayRoll e d).pumpAll e).openReach

namespace World
variable (w : World) (e : Env) (d : Date)

@[simp] theorem openReach_plans : w.openReach.plans = w.plans := rfl

theorem rolled_bank (x : Bank) : (w.rolled e d).bank x = (w.tick.dayRoll e d).bank x := by
  rw [World.bank, rolled, openReach_plans, ((Kept.refl (w.tick.dayRoll e d)).pumpAll e).plans, World.bank]

theorem rolled_pending (k : NoticeKind)
    (h : ((w.tick.dayRoll e d).notices.get k.no).pending = true) :
    ((w.rolled e d).notices.get k.no).pending = true := pumpAll_openReach_pending _ _ _ h

theorem rolled_sameLists (x : Bank) : ((w.rolled e d).bank x).date = (w.bank x).date
    ∧ ((w.rolled e d).bank x).list.map (·.booking.id) = (w.bank x).list.map (·.booking.id) := by
  rw [rolled_bank]
  exact w.tick.dayRoll_sameLists e d x

theorem rolled_ready_state {bk : Bank} (hr : (w.bank bk).state = .ready ∧ (w.bank bk).date = d)
    (ho : ¬((w.bank bk.other).state = .ready ∧ (w.bank bk.other).date = d)) :
    ((w.rolled e d).bank bk).state = .active ∧ ((w.rolled e d).bank bk.other).state =
      if (w.bank bk.other).state = .active ∨ (w.bank bk.other).state = .lapsed then .spent
      else (w.bank bk.other).state := by
  rw [rolled_bank, rolled_bank]
  exact w.tick.dayRoll_ready_state e d hr ho

theorem rolled_missing (hn : ∀ x, ¬((w.bank x).state = .ready ∧ (w.bank x).date = d))
    (hb : ¬((w.bank .a).state = .active ∧ (w.bank .b).state = .active)) :
    (∀ x, ((w.rolled e d).bank x).state = if (w.bank x).state = .active then .lapsed else (w.bank x).state)
    ∧ ((w.rolled e d).notices.get NoticeKind.planMissing.no).pending = true := by
  refine ⟨fun x => ?_, w.rolled_pending e d .planMissing (w.tick.dayRoll_missing_raises e d hn hb)⟩
  rw [rolled_bank]
  exact w.tick.dayRoll_missing_state e d hn hb x

end World

/-- The tick event at the end of a date: all that is due settled and every duration counted, then the day roll, the
links' choice and the reach (R1, R46; log entry 2). -/
theorem exec_tickEvent_rolls {s : State} (hh : s.held = false) (hu : s.time.state ≠ .unset)
    (ht : s.time.tod = 8639999) (hd : s.time.date ≠ ⟨2099, 12, 31⟩) :
    ∃ t, exec .tickEvent s = .next t
      ∧ t.world = s.settle.world.rolled ⟨civic s.time.date.next 0, s.lib⟩ s.time.date.next := by
  refine ⟨_, State.exec_tickEvent_free hh, ?_⟩
  have env : s.counted.atNextDate.env = ⟨civic s.time.date.next 0, s.lib⟩ := by
    rw [← State.counted_lib s, ← State.counted_date s]
    rfl
  rw [State.choose_world, State.advance_roll (mt State.counted_unset.mp hu)
    (by rw [State.counted_tod, ht]) (by rwa [State.counted_date]), env, State.counted_world,
    State.counted_date, World.rolled]

/-- Settles O21: the plan in force by the bank's state, at the request and at the day roll. -/
theorem planComesIntoForce : Obligations.PlanComesIntoForce := by
  refine ⟨fun s tag n hs hb => ?_, fun s tag n bk hs hb => ?_, fun w e bk => World.comeIntoForce_eq w e bk,
    fun w e bk next => ⟨World.leaveForce_apart w e bk next, World.leaveForce_lapsed w e bk next,
      fun ha hw => ?_, fun ha hw => ?_⟩, fun w e d => ⟨fun bk hr ho => ?_, fun bk hn ha ho => ?_,
        fun hn ha => ?_⟩, fun s hh _ hu ht hd => ?_⟩
  · exact State.exec_refused (exec_activatePlan_idle tag n hs) (forBank_none hb)
  · have hi := exec_activatePlan_idle tag n hs
    refine ⟨fun hu => State.exec_refused hi (World.activatePlan_unset hb (by simpa using hu)),
      fun hu hr => State.exec_refused hi (World.activatePlan_wrongState hb (by simpa using hu) hr),
      fun hu hr hd => ?_⟩
    obtain ⟨t, ht, after⟩ := State.exec_accepted hi
      (World.activatePlan_taken hb (by simpa using hu) hr hd)
    have plans : t.world.plans = (s.world.comeIntoForce s.env bk).plans := by
      rw [after.1.kept.plans, World.autoDark_plans]
    obtain ⟨self, other⟩ := s.world.comeIntoForce_state s.env bk
    have lists := s.world.comeIntoForce_sameLists s.env bk
    rw [← plans] at lists
    have bank (x : Bank) : t.world.bank x = (s.world.comeIntoForce s.env bk).bank x :=
      congrArg (Plans.bank · x) plans
    refine ⟨t, ht, after.1.base, after.slot, by rw [bank, self], (lists bk).1, (lists bk).2,
      by rw [bank, other], (lists bk.other).1, (lists bk.other).2, fun ha hw => ?_, after⟩
    exact after.1.kept.raised _ (World.autoDark_raised _ _ .bookingNotStarted
      (World.comeIntoForce_raised _ _ _ _ (World.leaveForce_raises _ _ _ _ ha hw)))
  · rw [World.leaveForce_active w e bk next ha]
    exact World.flushWait_nil _ e bk ((World.onBank_wait ..).trans hw)
  · have flushed := World.leaveForce_flushes w e bk next ha hw
    dsimp only
    rw [flushed]
    cases bk <;> exact ⟨rfl, rfl, rfl, rfl, rfl⟩
  · rw [World.dayRoll, World.swapBanks_ready w e d hr ho]
  · rw [World.dayRoll, World.swapBanks_lapse w e d hn ha ho]
  · rw [World.dayRoll, World.swapBanks_missing w e d hn ha]
  · obtain ⟨t, ht, world⟩ := exec_tickEvent_rolls hh hu ht hd
    refine ⟨t, ht, world, ?_⟩
    rw [world]
    generalize s.settle.world = u
    exact ⟨u.rolled_pending _ _ .dayRoll (World.dayRoll_pending _ _ _), u.rolled_sameLists _ _,
      fun bk hr hd ho => u.rolled_ready_state _ _ ⟨hr, hd⟩ ho, fun hn hb => u.rolled_missing _ _ hn hb⟩

end Sys2Proof.Machine
end

section
/-! SUPPORT. The fields of a booking (R41 test 2): each field as a test with its offset, the tests in body order, and the
zone map part by part. -/

namespace Sys2Proof.Machine

/-! ## Tests in order -/

section
variable {α β : Type}

open Classical in
/-- What follows a run of tests, each with the offset that it answers when it fails: a test's proposition is that
of its failure. -/
noncomputable def guarded (tests : List (Prop × Nat)) (k : Except Nat α) : Except Nat α :=
  tests.foldr (fun t r => if t.1 then .error t.2 else r) k

theorem guarded_append (ts us : List (Prop × Nat)) (k : Except Nat α) :
    guarded (ts ++ us) k = guarded ts (guarded us k) := List.foldr_append

theorem guarded_cons (t : Prop × Nat) (ts : List (Prop × Nat)) (k : Except Nat α) [Decidable t.1] :
    guarded (t :: ts) k = if t.1 then .error t.2 else guarded ts k := by
  simp only [guarded, List.foldr_cons]
  congr

theorem guarded_pass {ts : List (Prop × Nat)} (h : ∀ t ∈ ts, ¬t.1) (k : Except Nat α) :
    guarded ts k = k := by
  induction ts with
  | nil => rfl
  | cons t ts ih =>
    classical
    rw [guarded_cons, if_neg (h t List.mem_cons_self)]
    exact ih fun u hu => h u (List.mem_cons_of_mem _ hu)

/-- The first test that fails gives its offset. -/
theorem guarded_first {front : List (Prop × Nat)} {bad : Prop} (off : Nat) (rest : List (Prop × Nat))
    (k : Except Nat α) (hf : ∀ t ∈ front, ¬t.1) (hb : bad) :
    guarded (front ++ (bad, off) :: rest) k = .error off := by
  classical
  rw [guarded_append, guarded_pass hf, guarded_cons, if_pos hb]

theorem guarded_ok {ts : List (Prop × Nat)} {k : Except Nat α} {a : α} :
    guarded ts k = .ok a ↔ (∀ t ∈ ts, ¬t.1) ∧ k = .ok a := by
  classical
  induction ts with
  | nil => simp [guarded]
  | cons t ts ih =>
    rw [guarded_cons]
    by_cases h : t.1 <;> simp [h, ih]

theorem guarded_bind (ts : List (Prop × Nat)) (x : Except Nat α) (k : α → Except Nat β) :
    (guarded ts x >>= k) = guarded ts (x >>= k) := by
  classical
  induction ts with
  | nil => rfl
  | cons t ts ih =>
    rw [guarded_cons, guarded_cons, ← ih]
    split <;> rfl

@[simp] theorem ok_bind (a : α) (k : α → Except Nat β) : (Except.ok a >>= k) = k a := rfl

theorem demand_guarded {c : Bool} {P : Prop} (off : Nat) (h : c = false ↔ P) :
    demand c off = guarded [(P, off)] (.ok ()) := by
  classical
  rw [guarded_cons, demand]
  cases c <;> simp [← h, guarded]

theorem field_guarded {o : Option α} {P : Prop} (off : Nat) (d : α) (h : o = none ↔ P) :
    field off o = guarded [(P, off)] (.ok (o.getD d)) := by
  classical
  rw [guarded_cons]
  cases o <;> simp [← h, guarded]

end

theorem index?_eq_none {n i : Nat} : index? n i = none ↔ n ≤ i := by
  rw [index?]
  split <;> simp_all

theorem index?_eq_some {n i : Nat} {x : Fin n} : index? n i = some x ↔ x.val = i := by
  rw [index?]
  split
  · next h => simp [Fin.ext_iff, eq_comm]
  · next h =>
    constructor
    · intro hc
      cases hc
    · intro hx
      exact absurd (hx ▸ x.isLt) h

/-! ## The booking that the fields give -/

/-- The start mode of fields that pass their tests. -/
def StartMode.ofFields (f : BookingField) : StartMode :=
  if f.mode = 0 then .atTime else .onCondition ((index? 8 f.startCond).getD 0) f.window

/-- The end time of fields that pass their tests. -/
def EndTime.ofFields (f : BookingField) : Option EndTime :=
  if f.endTime = noTime then none else some ⟨f.endTime, f.nextDay == 1⟩

/-- The booking of fields that pass their tests, with a zone map. -/
def Booking.ofFields (f : BookingField) (zmap : List PartEntry) : Booking :=
  ⟨f.id, (show? f.showNo).getD 0, f.start, (StartMode.ofFields f), EndTime.ofFields f, (channel? f.stopCond).getD none, f.cls, f.sub,
    (policy? f.policy).getD .skip, zmap⟩

/-- The tests before the zone map's parts, in body order, each with the offset of its field. -/
def bookingTests (f : BookingField) : List (Prop × Nat) :=
  [(f.id = 0, 1), (f.showNo = 0 ∨ 32 < f.showNo, 2), (8640000 ≤ f.start, 3), (1 < f.mode, 6),
    ((f.mode = 0 ∧ f.startCond ≠ 0xFF) ∨ (f.mode = 1 ∧ 7 < f.startCond), 7),
    ((f.mode = 0 ∧ f.window ≠ 0xFFFFFF) ∨ (f.mode = 1 ∧ (f.window = 0 ∨ 360000 < f.window)), 8),
    (f.endTime ≠ 0xFFFFFF ∧ 8640000 ≤ f.endTime, 11), (1 < f.nextDay, 14),
    (f.endTime ≠ 0xFFFFFF ∧ ((f.nextDay = 1 ∧ 2160000 < f.endTime)
      ∨ f.endTime + 8640000 * f.nextDay ≤ f.start), 11),
    (f.stopCond ≠ 0xFF ∧ 7 < f.stopCond, 15), (7 < f.cls, 16), (3 < f.sub, 17), (2 < f.policy, 18),
    (f.zmap = [] ∨ 16 < f.zmap.length, 19)]

section
variable (f : BookingField)

theorem show?_eq_none (n : Nat) : show? n = none ↔ n = 0 ∨ 32 < n := by
  rw [show?]
  split
  · next h => simp [h]
  · next h =>
    rw [index?_eq_none]
    omega

theorem policy?_eq_none (n : Nat) : policy? n = none ↔ 2 < n := by
  match n with
  | 0 | 1 | 2 => simp [policy?]
  | n + 3 => simp [policy?]

theorem channel?_eq (n : Nat) : channel? n = if n ≠ 0xFF ∧ 7 < n then none else some (index? 8 n) := by
  rw [channel?]
  by_cases h : n = 0xFF
  · subst h
    rfl
  · by_cases h7 : 7 < n
    · simp [h, h7, index?_eq_none.2 (Nat.succ_le_of_lt h7)]
    · obtain ⟨c, hc⟩ : ∃ c, index? 8 n = some c := ⟨⟨n, by omega⟩, index?_eq_some.2 rfl⟩
      simp [h, h7, hc]

theorem startMode?_guarded : startMode? f = guarded [(1 < f.mode, 6),
    ((f.mode = 0 ∧ f.startCond ≠ 0xFF) ∨ (f.mode = 1 ∧ 7 < f.startCond), 7),
    ((f.mode = 0 ∧ f.window ≠ 0xFFFFFF) ∨ (f.mode = 1 ∧ (f.window = 0 ∨ 360000 < f.window)), 8)]
    (.ok (StartMode.ofFields f)) := by
  classical
  unfold startMode?
  split
  · next h =>
    rw [demand_guarded (P := f.startCond ≠ 0xFF) 7 (by simp),
      demand_guarded (P := f.window ≠ 0xFFFFFF) 8 (by simp), guarded_bind, ok_bind, guarded_bind, ok_bind]
    simp [guarded, h, StartMode.ofFields]
    rfl
  · next h =>
    rw [field_guarded (P := 7 < f.startCond) 7 0 (index?_eq_none.trans Nat.succ_le_iff),
      demand_guarded (P := f.window = 0 ∨ 360000 < f.window) 8 (by
        simp only [Bool.and_eq_false_iff, decide_eq_false_iff_not]; omega), guarded_bind, ok_bind,
      guarded_bind, ok_bind]
    simp [guarded, h, StartMode.ofFields]
    rfl
  · next h0 h1 =>
    have other : 1 < f.mode := by
      have n0 : f.mode ≠ 0 := h0
      have n1 : f.mode ≠ 1 := h1
      omega
    simp [guarded_cons, other]

theorem endTime?_guarded : endTime? 11 f.endTime f.nextDay f.start = guarded
    [(f.endTime ≠ 0xFFFFFF ∧ 8640000 ≤ f.endTime, 11), (1 < f.nextDay, 14),
      (f.endTime ≠ 0xFFFFFF ∧ ((f.nextDay = 1 ∧ 2160000 < f.endTime)
        ∨ f.endTime + 8640000 * f.nextDay ≤ f.start), 11)] (.ok (EndTime.ofFields f)) := by
  classical
  by_cases hn : f.endTime = noTime
  · rw [EndTime.ofFields, if_pos hn, hn]
    by_cases hd : f.nextDay ≤ 1
    · rw [endTime?_absent hd, guarded_pass]
      simp [hd]
    · rw [endTime?_absent_flag (Nat.lt_of_not_le hd)]
      simp [guarded_cons, Nat.lt_of_not_le hd]
  · rw [EndTime.ofFields, if_neg hn]
    by_cases hr : 8640000 ≤ f.endTime
    · rw [endTime?_range hn hr]
      simp [guarded_cons, hr, show f.endTime ≠ 16777215 from hn]
    · by_cases hd : f.nextDay ≤ 1
      · by_cases hl : f.nextDay = 1 ∧ 2160000 < f.endTime ∨ f.endTime + 8640000 * f.nextDay ≤ f.start
        · rw [endTime?_late (by omega) hd hl]
          simp [guarded_cons, hr, Nat.not_lt.2 hd, hl, show f.endTime ≠ 16777215 from hn]
        · rw [endTime?_present (by omega) hd (by omega) (by omega), guarded_pass]
          simp only [List.mem_cons, List.not_mem_nil, or_false, forall_eq_or_imp, forall_eq]
          exact ⟨fun h => hr h.2, Nat.not_lt.2 hd, fun h => hl h.2⟩
      · rw [endTime?_flag (by omega) (by omega)]
        simp [guarded_cons, hr, Nat.lt_of_not_le hd]

theorem booking?_eq : booking? f = guarded (bookingTests f) ((zmap? 20 [] [] f.zmap).map (Booking.ofFields f)) := by
  classical
  unfold booking?
  rw [demand_guarded (P := f.id = 0) 1 (by simp), field_guarded 2 0 (show?_eq_none f.showNo),
    demand_guarded (P := 8640000 ≤ f.start) 3 (by simp [Config.ticksPerDay]), startMode?_guarded,
    endTime?_guarded,
    field_guarded (P := f.stopCond ≠ 0xFF ∧ 7 < f.stopCond) 15 none (by rw [channel?_eq]; simp),
    demand_guarded (P := 7 < f.cls) 16 (by simp), demand_guarded (P := 3 < f.sub) 17 (by simp),
    field_guarded 18 .skip (policy?_eq_none f.policy),
    demand_guarded (P := f.zmap = [] ∨ 16 < f.zmap.length) 19 (by
      cases f.zmap <;> simp)]
  simp only [guarded_bind, ok_bind, ← guarded_append]
  cases zmap? 20 [] [] f.zmap <;> rfl

end

/-! ## The zones of a part -/

section
variable {off : Nat} {seen : List (Fin 64)}

theorem zones?_range {z : Nat} (rest : List Nat) (h : 63 < z) : zones? off seen (z :: rest) = .error off := by
  rw [zones?, index?_none h]
  rfl

theorem zones?_seen {z : Fin 64} (rest : List Nat) (h : z ∈ seen) :
    zones? off seen (z.val :: rest) = .error off := by
  rw [zones?, index?_val, field_some, ok_bind, demand_error (by simpa using h)]
  rfl

theorem zones?_next {z : Fin 64} (rest : List Nat) (h : z ∉ seen) :
    zones? off seen (z.val :: rest) = (zones? (off + 1) (z :: seen) rest).map (z :: ·) := by
  rw [zones?, index?_val, field_some, ok_bind, demand_ok (by simpa using h), ok_bind]
  cases zones? (off + 1) (z :: seen) rest <;> rfl

/-- The zones that are taken: each is a zone, and none comes twice. -/
theorem zones?_ok (zs : List Nat) (r : List (Fin 64)) : zones? off seen zs = .ok r ↔
    r.map (·.val) = zs ∧ r.Nodup ∧ ∀ z ∈ r, z ∉ seen := by
  induction zs generalizing off seen r with
  | nil => cases r <;> simp [zones?]
  | cons n rest ih =>
    by_cases hn : 63 < n
    · rw [zones?_range rest hn]
      refine ⟨fun h => (by cases h), fun ⟨h, _⟩ => ?_⟩
      have : n ∈ r.map (·.val) := by simp [h]
      obtain ⟨z, -, hz⟩ := List.mem_map.1 this
      omega
    · obtain ⟨z, rfl⟩ : ∃ z : Fin 64, z.val = n := ⟨⟨n, by omega⟩, rfl⟩
      by_cases hs : z ∈ seen
      · rw [zones?_seen rest hs]
        refine ⟨fun h => (by cases h), fun ⟨hm, _, hd⟩ => ?_⟩
        cases r with
        | nil => cases hm
        | cons y ys =>
          have hy : y = z := Fin.ext (List.cons.inj hm).1
          exact absurd (hy ▸ hs) (hd y List.mem_cons_self)
      · rw [zones?_next rest hs]
        cases r with
        | nil =>
          refine ⟨fun h => ?_, fun ⟨hm, _⟩ => by cases hm⟩
          cases hc : zones? (off + 1) (z :: seen) rest <;> rw [hc] at h <;> cases h
        | cons y ys =>
          have taken : (zones? (off + 1) (z :: seen) rest).map (z :: ·) = .ok (y :: ys) ↔
              y = z ∧ zones? (off + 1) (z :: seen) rest = .ok ys := by
            cases zones? (off + 1) (z :: seen) rest <;> simp [Except.map, eq_comm]
          rw [taken, ih]
          simp only [List.map_cons, List.cons.injEq, ← Fin.ext_iff, List.nodup_cons, List.mem_cons,
            forall_eq_or_imp, not_or]
          constructor
          · rintro ⟨rfl, hm, hd, hn⟩
            exact ⟨⟨rfl, hm⟩, ⟨fun h => (hn y h).1 rfl, hd⟩, hs, fun x hx => (hn x hx).2⟩
          · rintro ⟨⟨rfl, hm⟩, ⟨hy, hd⟩, -, hn⟩
            exact ⟨rfl, hm, hd, fun x hx => ⟨fun h => hy (h ▸ hx), hn x hx⟩⟩

/-- The first zone that is none or comes twice fails at its own place. -/
theorem zones?_first (zs : List (Fin 64)) (hd : zs.Nodup) (hs : ∀ z ∈ zs, z ∉ seen) {n : Nat}
    (rest : List Nat) (hn : 63 < n ∨ ∃ z : Fin 64, z.val = n ∧ (z ∈ seen ∨ z ∈ zs)) :
    zones? off seen (zs.map (·.val) ++ n :: rest) = .error (off + zs.length) := by
  induction zs generalizing off seen with
  | nil =>
    rcases hn with hn | ⟨z, rfl, hz⟩
    · exact zones?_range rest hn
    · exact zones?_seen rest (by simpa using hz)
  | cons z zs ih =>
    obtain ⟨hz, hd⟩ := List.nodup_cons.1 hd
    have later := ih (off := off + 1) (seen := z :: seen) hd
      (fun y hy => by
        rw [List.mem_cons, not_or]
        exact ⟨fun h => hz (h ▸ hy), hs y (List.mem_cons_of_mem _ hy)⟩)
      (hn.imp_right fun ⟨y, hy, hm⟩ => ⟨y, hy, by simp only [List.mem_cons] at hm ⊢; tauto⟩)
    rw [List.map_cons, List.cons_append, zones?_next _ (hs z List.mem_cons_self), later, List.length_cons,
      ← Nat.add_assoc, Nat.add_right_comm]
    rfl

end

/-! ## The zone map -/

/-- The fields of a part entry. -/
def PartEntry.field (m : PartEntry) : PartField := ⟨m.part.val, m.zones.map (·.val)⟩

section
variable {off : Nat} {parts : List (Fin 16)} {seen : List (Fin 64)} {p : PartField}

theorem zmap?_range (rest : List PartField) (h : 15 < p.part) :
    zmap? off parts seen (p :: rest) = .error off := by
  rw [zmap?, index?_none h]
  rfl

theorem zmap?_twice {part : Fin 16} (rest : List PartField) (hp : part.val = p.part) (h : part ∈ parts) :
    zmap? off parts seen (p :: rest) = .error off := by
  rw [zmap?, ← hp, index?_val, field_some, ok_bind, demand_error (by simpa using h)]
  rfl

section
variable {part : Fin 16} (rest : List PartField) (hp : part.val = p.part) (h : part ∉ parts)
include hp h

theorem zmap?_count (hl : p.zones = [] ∨ 64 < p.zones.length) :
    zmap? off parts seen (p :: rest) = .error (off + 1) := by
  have count : (decide (1 ≤ p.zones.length) && decide (p.zones.length ≤ 64)) = false := by
    rcases hl with hl | hl
    · simp [hl]
    · simp [Nat.not_le.2 hl]
  rw [zmap?, ← hp, index?_val, field_some, ok_bind, demand_ok (by simpa using h), ok_bind,
    demand_error count]
  rfl

variable (h1 : 1 ≤ p.zones.length) (h64 : p.zones.length ≤ 64)
include h1 h64

theorem zmap?_zones {o : Nat} (hz : zones? (off + 2) seen p.zones = .error o) :
    zmap? off parts seen (p :: rest) = .error o := by
  rw [zmap?, ← hp, index?_val, field_some, ok_bind, demand_ok (by simpa using h), ok_bind,
    demand_ok (by simp [h1, h64]), ok_bind, hz]
  rfl

theorem zmap?_next {zs : List (Fin 64)} (hz : zones? (off + 2) seen p.zones = .ok zs) :
    zmap? off parts seen (p :: rest) =
      (zmap? (off + 2 + p.zones.length) (part :: parts) (zs ++ seen) rest).map (⟨part, zs⟩ :: ·) := by
  rw [zmap?, ← hp, index?_val, field_some, ok_bind, demand_ok (by simpa using h), ok_bind,
    demand_ok (by simp [h1, h64]), ok_bind, hz, ok_bind]
  cases zmap? (off + 2 + p.zones.length) (part :: parts) (zs ++ seen) rest <;> rfl

end

/-- A zone map beside the parts and the zones already taken: no part and no zone comes twice, and each part has 1
to 64 zones (section 3.2). -/
structure ZmapFits (parts : List (Fin 16)) (seen : List (Fin 64)) (r : List PartEntry) : Prop where
  partsOnce : (r.map (·.part)).Nodup
  fresh : ∀ m ∈ r, m.part ∉ parts
  counts : ∀ m ∈ r, 1 ≤ m.zones.length ∧ m.zones.length ≤ 64
  zonesOnce : (r.flatMap (·.zones)).Nodup
  unseen : ∀ z ∈ r.flatMap (·.zones), z ∉ seen

theorem zmapFits_cons {m : PartEntry} {r : List PartEntry} : ZmapFits parts seen (m :: r) ↔
    m.part ∉ parts ∧ 1 ≤ m.zones.length ∧ m.zones.length ≤ 64 ∧ m.zones.Nodup ∧ (∀ z ∈ m.zones, z ∉ seen)
      ∧ ZmapFits (m.part :: parts) (m.zones ++ seen) r := by
  constructor
  · rintro ⟨hp, hf, hc, hz, hu⟩
    simp only [List.map_cons, List.nodup_cons, List.flatMap_cons, List.nodup_append, List.mem_cons,
      forall_eq_or_imp, List.mem_append] at hp hf hc hz hu
    refine ⟨hf.1, hc.1.1, hc.1.2, hz.1, fun z hm => hu z (Or.inl hm), hp.2, fun x hx => ?_, hc.2, hz.2.1,
      fun z hm => ?_⟩
    · rw [List.mem_cons, not_or]
      exact ⟨fun h => hp.1 (h ▸ List.mem_map_of_mem hx), hf.2 x hx⟩
    · rw [List.mem_append, not_or]
      exact ⟨fun h => hz.2.2 z h z hm rfl, hu z (Or.inr hm)⟩
  · rintro ⟨hm, h1, h64, hd, hs, hp, hf, hc, hz, hu⟩
    simp only [List.mem_cons, not_or, List.mem_append] at hf hu
    refine ⟨?_, ?_, ?_, ?_, ?_⟩
    · rw [List.map_cons, List.nodup_cons]
      refine ⟨fun h => ?_, hp⟩
      obtain ⟨x, hx, he⟩ := List.mem_map.1 h
      exact (hf x hx).1 he
    · simp only [List.mem_cons, forall_eq_or_imp]
      exact ⟨hm, fun x hx => (hf x hx).2⟩
    · simp only [List.mem_cons, forall_eq_or_imp]
      exact ⟨⟨h1, h64⟩, hc⟩
    · rw [List.flatMap_cons, List.nodup_append]
      exact ⟨hd, hz, fun a ha b hb he => (hu b hb).1 (he ▸ ha)⟩
    · simp only [List.flatMap_cons, List.mem_append]
      rintro z (hz | hz)
      · exact hs z hz
      · exact (hu z hz).2

/-- A front of a zone map that fits is taken, and the rest is read beside its parts and zones. -/
theorem zmap?_front (r : List PartEntry) (rest : List PartField) (h : ZmapFits parts seen r) :
    ∃ parts' seen', (∀ x, x ∈ parts' ↔ x ∈ parts ∨ x ∈ r.map (·.part))
      ∧ (∀ z, z ∈ seen' ↔ z ∈ seen ∨ z ∈ r.flatMap (·.zones))
      ∧ zmap? off parts seen (r.map PartEntry.field ++ rest) =
        (zmap? (off + (r.map fun m => 2 + m.zones.length).sum) parts' seen' rest).map (r ++ ·) := by
  induction r generalizing off parts seen with
  | nil =>
    refine ⟨parts, seen, by simp, by simp, ?_⟩
    simp only [List.map_nil, List.nil_append, List.sum_nil, Nat.add_zero]
    cases zmap? off parts seen rest <;> rfl
  | cons m r ih =>
    obtain ⟨hm, h1, h64, hd, hs, hr⟩ := zmapFits_cons.1 h
    obtain ⟨parts', seen', hp, hz, hmap⟩ := ih (off := off + 2 + m.zones.length) hr
    refine ⟨parts', seen', fun x => ?_, fun z => ?_, ?_⟩
    · rw [hp, List.mem_cons, List.map_cons, List.mem_cons]
      tauto
    · rw [hz, List.mem_append, List.flatMap_cons, List.mem_append]
      tauto
    · have zones : zones? (off + 2) seen m.field.zones = .ok m.zones := (zones?_ok _ _).2 ⟨rfl, hd, hs⟩
      have count : m.field.zones.length = m.zones.length := List.length_map ..
      rw [List.map_cons, List.cons_append,
        zmap?_next (r.map PartEntry.field ++ rest) (part := m.part) rfl hm (by rw [count]; exact h1)
          (by rw [count]; exact h64) zones, count, hmap, List.map_cons, List.sum_cons,
        ← Nat.add_assoc, ← Nat.add_assoc]
      cases zmap? (off + 2 + m.zones.length + (r.map fun m => 2 + m.zones.length).sum) parts' seen' rest <;>
        rfl

/-- The zone maps that are taken. -/
theorem zmap?_ok (ps : List PartField) (r : List PartEntry) :
    zmap? off parts seen ps = .ok r ↔ r.map PartEntry.field = ps ∧ ZmapFits parts seen r := by
  constructor
  · intro h
    induction ps generalizing off parts seen r with
    | nil =>
      cases h
      exact ⟨rfl, by simp, by simp, by simp, by simp, by simp⟩
    | cons p rest ih =>
      by_cases hp : 15 < p.part
      · rw [zmap?_range rest hp] at h
        cases h
      obtain ⟨part, hpart⟩ : ∃ part : Fin 16, part.val = p.part := ⟨⟨p.part, by omega⟩, rfl⟩
      by_cases hm : part ∈ parts
      · rw [zmap?_twice rest hpart hm] at h
        cases h
      by_cases hc : p.zones = [] ∨ 64 < p.zones.length
      · rw [zmap?_count rest hpart hm hc] at h
        cases h
      have h1 : 1 ≤ p.zones.length := by
        rw [Nat.one_le_iff_ne_zero, ne_eq, List.length_eq_zero_iff]
        exact fun he => hc (Or.inl he)
      have h64 : p.zones.length ≤ 64 := by omega
      cases hz : zones? (off + 2) seen p.zones with
      | error o =>
        rw [zmap?_zones rest hpart hm h1 h64 hz] at h
        cases h
      | ok zs =>
        rw [zmap?_next rest hpart hm h1 h64 hz] at h
        cases hr : zmap? (off + 2 + p.zones.length) (part :: parts) (zs ++ seen) rest with
        | error o =>
          rw [hr] at h
          cases h
        | ok es =>
          rw [hr] at h
          cases h
          obtain ⟨hes, fits⟩ := ih es hr
          obtain ⟨hzs, hd, hs⟩ := (zones?_ok _ _).1 hz
          have count : zs.length = p.zones.length := by rw [← hzs, List.length_map]
          refine ⟨?_, zmapFits_cons.2 ⟨hm, count ▸ h1, count ▸ h64, hd, hs, fits⟩⟩
          rw [List.map_cons, hes, PartEntry.field, hpart, hzs]
  · rintro ⟨rfl, fits⟩
    obtain ⟨parts', seen', -, -, h⟩ := zmap?_front (off := off) r [] fits
    rw [List.append_nil] at h
    rw [h, zmap?, Except.map, List.append_nil]

end

/-! ## Zone maps as their fields -/

theorem exists_zones {zs : List Nat} (h : ∀ z ∈ zs, z < 64) : ∃ r : List (Fin 64), r.map (·.val) = zs := by
  refine Set.mem_range.1 ((Set.range_list_map (Fin.val : Fin 64 → Nat)).symm ▸ fun z hz => ?_)
  exact ⟨⟨z, h z hz⟩, rfl⟩

theorem exists_parts {ps : List PartField} (h : ∀ p ∈ ps, p.part < 16 ∧ ∀ z ∈ p.zones, z < 64) :
    ∃ r : List PartEntry, r.map PartEntry.field = ps := by
  refine Set.mem_range.1 ((Set.range_list_map PartEntry.field).symm ▸ fun p hp => ?_)
  obtain ⟨hn, hz⟩ := h p hp
  obtain ⟨zs, hzs⟩ := exists_zones hz
  exact ⟨⟨⟨p.part, hn⟩, zs⟩, by rw [PartEntry.field, hzs]⟩

theorem field_parts (r : List PartEntry) :
    (r.map PartEntry.field).map (·.part) = (r.map (·.part)).map (·.val) := by
  simp [PartEntry.field]

theorem field_zones (r : List PartEntry) :
    (r.map PartEntry.field).flatMap (·.zones) = (r.flatMap (·.zones)).map (·.val) := by
  simp [PartEntry.field, List.map_flatMap, List.flatMap_map]

theorem field_counts (r : List PartEntry) : ((r.map PartEntry.field).map fun x => 2 + x.zones.length)
    = r.map fun m => 2 + m.zones.length := by
  simp [PartEntry.field]

/-- A zone map that fits, by its fields. -/
theorem zmapFits_iff (r : List PartEntry) : ZmapFits [] [] r ↔
    (∀ p ∈ r.map PartEntry.field, 1 ≤ p.zones.length ∧ p.zones.length ≤ 64)
      ∧ ((r.map PartEntry.field).map (·.part)).Nodup
      ∧ ((r.map PartEntry.field).flatMap (·.zones)).Nodup := by
  rw [field_parts, field_zones, List.nodup_map_iff Fin.val_injective,
    List.nodup_map_iff Fin.val_injective]
  constructor
  · rintro ⟨hp, -, hc, hz, -⟩
    refine ⟨fun p h => ?_, hp, hz⟩
    obtain ⟨m, hm, rfl⟩ := List.mem_map.1 h
    simpa [PartEntry.field] using hc m hm
  · rintro ⟨hc, hp, hz⟩
    refine ⟨hp, by simp, fun m hm => ?_, hz, by simp⟩
    simpa [PartEntry.field] using hc _ (List.mem_map_of_mem hm)

/-! ## The booking's fields -/

section
variable {f : BookingField}

theorem bookingTests_pass : (∀ x ∈ bookingTests f, ¬x.1) ↔
    1 ≤ f.id ∧ 1 ≤ f.showNo ∧ f.showNo ≤ 32 ∧ f.start ≤ 8639999
      ∧ ((f.mode = 0 ∧ f.startCond = 0xFF ∧ f.window = 0xFFFFFF)
        ∨ (f.mode = 1 ∧ f.startCond ≤ 7 ∧ 1 ≤ f.window ∧ f.window ≤ 360000))
      ∧ f.nextDay ≤ 1
      ∧ (f.endTime = 0xFFFFFF
        ∨ (f.endTime ≤ 8639999 ∧ (f.nextDay = 1 → f.endTime ≤ 2160000)
          ∧ f.start < f.endTime + 8640000 * f.nextDay))
      ∧ (f.stopCond = 0xFF ∨ f.stopCond ≤ 7)
      ∧ f.cls ≤ 7 ∧ f.sub ≤ 3 ∧ f.policy ≤ 2 ∧ 1 ≤ f.zmap.length ∧ f.zmap.length ≤ 16 := by
  simp only [bookingTests, List.mem_cons, List.not_mem_nil, or_false, forall_eq_or_imp, forall_eq,
    ← List.length_eq_zero_iff]
  omega

theorem booking?_ok {k : Booking} : booking? f = .ok k ↔ (∀ x ∈ bookingTests f, ¬x.1)
    ∧ ∃ r, r.map PartEntry.field = f.zmap ∧ ZmapFits [] [] r ∧ Booking.ofFields f r = k := by
  rw [booking?_eq, guarded_ok]
  refine and_congr_right fun _ => ?_
  have mapped (x : Except Nat (List PartEntry)) :
      x.map (Booking.ofFields f) = .ok k ↔ ∃ r, x = .ok r ∧ Booking.ofFields f r = k := by
    cases x <;> simp [Except.map]
  rw [mapped]
  simp only [zmap?_ok, and_assoc]

/-- Past the fields' tests, a fault of the zone map is the booking's. -/
theorem booking?_zmap {off : Nat} (h : ∀ x ∈ bookingTests f, ¬x.1)
    (hz : zmap? 20 [] [] f.zmap = .error off) : booking? f = .error off := by
  rw [booking?_eq, guarded_pass h, hz]
  rfl

/-- A fault of a part behind a front that fits is read beside the front's parts and zones. -/
theorem booking?_part {r : List PartEntry} {rest : List PartField} {p : PartField}
    (h : ∀ x ∈ bookingTests f, ¬x.1) (hz : f.zmap = r.map PartEntry.field ++ p :: rest)
    (hr : ZmapFits [] [] r) : ∃ parts seen, (∀ x, x ∈ parts ↔ x ∈ r.map (·.part))
      ∧ (∀ z, z ∈ seen ↔ z ∈ r.flatMap (·.zones))
      ∧ ∀ off, zmap? (20 + (r.map fun m => 2 + m.zones.length).sum) parts seen (p :: rest) = .error off →
        booking? f = .error off := by
  obtain ⟨parts, seen, hp, hs, hmap⟩ := zmap?_front (off := 20) r (p :: rest) hr
  refine ⟨parts, seen, by simpa using hp, by simpa using hs, fun off ho => booking?_zmap h ?_⟩
  rw [hz, hmap, ho]
  rfl

end

/-! ## What the fields give -/

theorem show?_val {n : Nat} (h : 1 ≤ n) (h32 : n ≤ 32) : ((show? n).getD 0).val + 1 = n := by
  obtain ⟨i, rfl⟩ : ∃ i : Fin 32, n = i.val + 1 := ⟨⟨n - 1, by omega⟩, by simp only; omega⟩
  rw [show?_place]
  rfl

theorem startMode_onCondition {f : BookingField} (hm : f.mode = 1) (hc : f.startCond ≤ 7) :
    ∃ ch : Fin 8, ch.val = f.startCond ∧ StartMode.ofFields f = .onCondition ch f.window := by
  obtain ⟨ch, hv⟩ : ∃ ch : Fin 8, ch.val = f.startCond := ⟨⟨f.startCond, by omega⟩, rfl⟩
  refine ⟨ch, hv, ?_⟩
  rw [StartMode.ofFields, if_neg (by omega), ← hv, index?_val]
  rfl

theorem channel?_val {n : Nat} (h : n = 0xFF ∨ n ≤ 7) :
    ((channel? n).getD none).map (·.val) = if n = 0xFF then none else some n := by
  rcases h with rfl | h
  · rfl
  · obtain ⟨ch, rfl⟩ : ∃ ch : Fin 8, n = ch.val := ⟨⟨n, by omega⟩, rfl⟩
    have absent : ch.val ≠ 0xFF := by omega
    simp [channel?, absent]

theorem policy?_val {n : Nat} (h : n ≤ 2) : (policy? n).getD .skip =
    if n = 0 then .skip else if n = 1 then .join else .restart := by
  interval_cases n <;> rfl

/-- The zone maps for which there is a booking (section 3.2). -/
theorem exists_zmap (f : BookingField) : (∃ k r, r.map PartEntry.field = f.zmap ∧ ZmapFits [] [] r
      ∧ Booking.ofFields f r = k) ↔
    (∀ p ∈ f.zmap, p.part ≤ 15 ∧ 1 ≤ p.zones.length ∧ p.zones.length ≤ 64 ∧ ∀ z ∈ p.zones, z ≤ 63)
      ∧ (f.zmap.map (·.part)).Nodup ∧ (f.zmap.flatMap (·.zones)).Nodup := by
  constructor
  · rintro ⟨k, r, hr, fits, -⟩
    rw [zmapFits_iff, hr] at fits
    obtain ⟨hc, hp, hz⟩ := fits
    refine ⟨fun p h => ?_, hp, hz⟩
    obtain ⟨m, -, rfl⟩ := List.mem_map.1 (hr ▸ h)
    refine ⟨by change m.part.val ≤ 15; omega, (hc _ h).1, (hc _ h).2, fun z hz => ?_⟩
    obtain ⟨y, -, rfl⟩ := List.mem_map.1 hz
    omega
  · rintro ⟨hc, hp, hz⟩
    obtain ⟨r, hr⟩ := exists_parts fun p h =>
      ⟨Nat.lt_succ_of_le (hc p h).1, fun z hz => Nat.lt_succ_of_le ((hc p h).2.2.2 z hz)⟩
    refine ⟨_, r, hr, (zmapFits_iff r).2 ?_, rfl⟩
    rw [hr]
    exact ⟨fun p h => ⟨(hc p h).2.1, (hc p h).2.2.1⟩, hp, hz⟩

/-- Settles O18: the fields as a run of tests, then the zone map part by part. -/
theorem bookingFieldsChecked : Obligations.BookingFieldsChecked := by
  refine ⟨fun f => ?_, fun f => ⟨fun front bad off rest hf hb hbad => ?_, fun front rest p hf hz hr hp hn => ?_⟩,
    fun f k hk => ?_⟩
  · simp only [booking?_ok, exists_and_left, bookingTests_pass, and_assoc]
    repeat' refine and_congr_right fun _ => ?_
    exact exists_zmap f
  · have tests : bookingTests f = front ++ (bad, off) :: rest := hf
    rw [booking?_eq, tests, guarded_first off rest _ hb hbad]
  · obtain ⟨r, rfl⟩ := exists_parts fun x hx => ⟨(hr x hx).1, (hr x hx).2.2.2⟩
    have fits : ZmapFits [] [] r := (zmapFits_iff r).2
      ⟨fun x hx => ⟨(hr x hx).2.1, (hr x hx).2.2.1⟩, hp, hn⟩
    obtain ⟨parts, seen, hparts, hseen, fault⟩ := booking?_part hf hz fits
    rw [field_parts, field_zones, field_counts]
    intro off fitting
    have fresh (h : fitting) : ∃ part : Fin 16, part.val = p.part ∧ part ∉ parts :=
      ⟨⟨p.part, h.1⟩, rfl, fun hm => h.2 (List.mem_map.2 ⟨_, (hparts _).1 hm, rfl⟩)⟩
    refine ⟨fun h => fault _ ?_, fun h hc => fault _ ?_, fun h hc zs more z hpz hzs hd hbad => fault _ ?_⟩
    · by_cases hpart : p.part < 16
      · have taken := not_and.1 h hpart
        obtain ⟨part, hm, hv⟩ := List.mem_map.1 (not_not.1 taken)
        exact zmap?_twice rest hv ((hparts part).2 hm)
      · exact zmap?_range rest (by omega)
    · obtain ⟨part, hv, hm⟩ := fresh h
      exact zmap?_count rest hv hm hc
    · obtain ⟨part, hv, hm⟩ := fresh h
      obtain ⟨ys, rfl⟩ := exists_zones hzs
      rw [← List.map_append] at hd hbad
      have once := List.Nodup.of_map _ hd
      rw [List.nodup_append] at once
      refine zmap?_zones rest hv hm (by simp only [hpz, List.length_append, List.length_cons]; omega) hc ?_
      rw [hpz, List.length_map]
      refine zones?_first ys once.2.1 (fun y hy hs => once.2.2 y ((hseen y).1 hs) y hy rfl) more
        (hbad.imp_right fun hm => ?_)
      obtain ⟨y, hy, rfl⟩ := List.mem_map.1 hm
      exact ⟨y, rfl, (List.mem_append.1 hy).imp_left (hseen y).2⟩
  · obtain ⟨tests, r, hr, -, rfl⟩ := booking?_ok.1 hk
    obtain ⟨h1, h2, h3, h4, h5, h6, h7, h8, h9, h10, h11, h12, h13⟩ := bookingTests_pass.1 tests
    refine ⟨rfl, ?_, rfl, fun hm => if_pos hm, fun hm => ?_, rfl, ?_, rfl, rfl, ?_, ?_⟩
    · exact show?_val h2 h3
    · obtain ⟨h0, -⟩ | ⟨-, hc, -⟩ := h5
      · omega
      · obtain ⟨ch, hv, hmode⟩ := startMode_onCondition hm hc
        exact ⟨ch, hv, hmode⟩
    · exact channel?_val h8
    · exact policy?_val h11
    · change r.map _ = _
      rw [← hr]
      simp [PartEntry.field]
end Sys2Proof.Machine
end

section
/-! SUPPORT. The bookings of an arming event in their order (R50, R51), and the late judgement (R53). -/

namespace Sys2Proof.Machine

/-! ## The order of R51 -/

theorem Booking.before_iff (x y : Booking) : x.before y = true ↔ y.cls < x.cls ∨ (x.cls = y.cls
    ∧ (y.sub < x.sub ∨ (x.sub = y.sub ∧ (x.start < y.start ∨ (x.start = y.start ∧ x.id < y.id))))) := by
  simp [Booking.before]

theorem Booking.before_trans {x y z : Booking} (h : x.before y = true) (k : y.before z = true) :
    x.before z = true := by
  rw [before_iff] at *
  omega

/-- Of two bookings of different ids one comes before the other. -/
theorem Booking.before_total {x y : Booking} (hn : x.id ≠ y.id) (h : x.before y = false) :
    y.before x = true := by
  rw [← Bool.not_eq_true, before_iff] at h
  rw [before_iff]
  omega

/-- An insertion keeps a list in order, beside a booking of another id. -/
theorem insertBy_sorted (k : Booking) (ks : List Booking) (hs : ks.Pairwise fun a b => a.before b = true)
    (hn : ∀ y ∈ ks, k.id ≠ y.id) :
    (insertBy Booking.before k ks).Pairwise fun a b => a.before b = true := by
  induction ks with
  | nil => exact List.pairwise_singleton _ _
  | cons y rest ih =>
    obtain ⟨hy, hr⟩ := List.pairwise_cons.1 hs
    rw [insertBy]
    split
    · next hb =>
      refine List.pairwise_cons.2 ⟨fun z hz => ?_, hs⟩
      rcases List.mem_cons.1 hz with rfl | hz
      · exact hb
      · exact Booking.before_trans hb (hy z hz)
    · next hb =>
      refine List.pairwise_cons.2 ⟨fun z hz => ?_, ih hr fun z hz => hn z (List.mem_cons_of_mem _ hz)⟩
      rcases (World.Holds.mem_insertBy _ _ _ _).1 hz with rfl | hz
      · exact Booking.before_total (hn y List.mem_cons_self) (eq_false_of_ne_true hb)
      · exact hy z hz

/-- Insertions one after another. -/
theorem mem_foldr_insertBy (k : Booking) (ks : List Booking) :
    k ∈ ks.foldr (insertBy Booking.before) [] ↔ k ∈ ks := by
  induction ks with
  | nil => rfl
  | cons y rest ih => rw [List.foldr_cons, World.Holds.mem_insertBy, ih, List.mem_cons]

theorem foldr_insertBy_sorted (ks : List Booking) (hn : (ks.map (·.id)).Nodup) :
    (ks.foldr (insertBy Booking.before) []).Pairwise fun a b => a.before b = true := by
  induction ks with
  | nil => exact List.Pairwise.nil
  | cons y rest ih =>
    rw [List.map_cons, List.nodup_cons] at hn
    refine insertBy_sorted y _ (ih hn.2) fun z hz he => hn.1 ?_
    rw [he]
    exact List.mem_map_of_mem ((mem_foldr_insertBy _ _).1 hz)

section
variable {r : BankRec} {now : Nat} {all : Bool}

/-- The bookings of an arming event (R50). -/
theorem mem_armable {k : Booking} : k ∈ r.armable now all ↔ ∃ x ∈ r.list, x.booking = k
    ∧ x.outcome.progress = .pending ∧ (all = true ∨ x.armHeld = true) ∧ civic r.date k.start ≤ now + 6000 := by
  rw [BankRec.armable, mem_foldr_insertBy, List.mem_map]
  constructor
  · rintro ⟨x, hx, rfl⟩
    rw [List.mem_filter] at hx
    obtain ⟨hm, hp⟩ := hx
    simp only [Bool.and_eq_true, beq_iff_eq, Bool.or_eq_true, armPassed_iff] at hp
    exact ⟨x, hm, rfl, hp.1.1, hp.1.2, hp.2⟩
  · rintro ⟨x, hm, rfl, hp, ha, hs⟩
    refine ⟨x, List.mem_filter.2 ⟨hm, ?_⟩, rfl⟩
    simp only [Bool.and_eq_true, beq_iff_eq, Bool.or_eq_true, armPassed_iff]
    exact ⟨⟨hp, ha⟩, hs⟩

theorem armable_sorted (hn : (r.list.map (·.booking.id)).Nodup) :
    (r.armable now all).Pairwise fun a b => a.before b = true := by
  refine foldr_insertBy_sorted _ ?_
  rw [List.map_map]
  exact hn.sublist (List.filter_sublist.map _)

/-- A booking of the bank is found by its id. -/
theorem find_of_mem (hn : (r.list.map (·.booking.id)).Nodup) {x : BankEntry} (hx : x ∈ r.list) :
    r.find x.booking.id = some x := by
  rw [BankRec.find]
  generalize r.list = l at hn hx
  induction l with
  | nil => cases hx
  | cons y rest ih =>
    rw [List.map_cons, List.nodup_cons] at hn
    rw [List.find?_cons]
    rcases List.mem_cons.1 hx with rfl | hx
    · simp
    · have other : y.booking.id ≠ x.booking.id := fun he =>
        hn.1 (he ▸ List.mem_map_of_mem (f := fun x : BankEntry => x.booking.id) hx)
      rw [beq_false_of_ne other]
      exact ih hn.2 hx

end

/-! ## The late judgement (R53) -/

section
variable {now start : Nat} {k : Booking} {endPoint : Option Nat} {length : Option ShowLength}

/-- The end point has passed but for the horizon. -/
def endOver (now : Nat) (endPoint : Option Nat) : Prop := ∃ e, endPoint = some e ∧ e ≤ now + 150

/-- A booking without an end point whose show has played to its end. -/
def showOver (now start : Nat) (endPoint : Option Nat) (length : Option ShowLength) : Prop :=
  endPoint = none ∧ ∃ n, length = some (.ticks n) ∧ n ≤ now + 150 - start

/-- The window of an ON_CONDITION booking has passed. -/
def windowPast (now start : Nat) (k : Booking) : Prop :=
  ∃ ch n, k.mode = .onCondition ch n ∧ start + n ≤ now

theorem windowOver_iff : windowOver k start now = true ↔ windowPast now start k := by
  unfold windowOver windowPast
  cases k.mode with
  | atTime => simp
  | onCondition ch n => simp

theorem endOver_iff : (endPoint.any (· ≤ now + Config.horizon)) = true ↔ endOver now endPoint := by
  cases endPoint <;> simp [endOver, Config.horizon]

theorem showOver_iff (hs : start < now + 150) : (endPoint.isNone && match length with
    | some (.ticks n) => decide (start + n ≤ now + Config.horizon)
    | _ => false) = true ↔ showOver now start endPoint length := by
  unfold showOver
  rw [Bool.and_eq_true, Option.isNone_iff_eq_none]
  refine and_congr_right fun _ => ?_
  split
  · next n =>
    simp only [Option.some.injEq, ShowLength.ticks.injEq, exists_eq_left', decide_eq_true_eq,
      Config.horizon]
    omega
  · next h => simpa using fun n hn => absurd hn (h n)

theorem lateMark_timely (h : now + 150 ≤ start) : lateMark now start k endPoint length = some .none :=
  if_pos h

variable (hs : start < now + 150)
include hs

theorem lateMark_late : lateMark now start k endPoint length = (match k.policy with
    | .skip => none
    | .join =>
      if endPoint.any (· ≤ now + Config.horizon)
          || (endPoint.isNone && match length with
            | some (.ticks n) => decide (start + n ≤ now + Config.horizon)
            | _ => false)
          || windowOver k start now then none
      else some .join
    | .restart =>
      if endPoint.any (· ≤ now + Config.horizon) || windowOver k start now then none
      else some .restart) := if_neg (Nat.not_le.2 hs)

theorem lateMark_skip (hp : k.policy = .skip) : lateMark now start k endPoint length = none := by
  rw [lateMark_late hs, hp]

open Classical in
theorem lateMark_join (hp : k.policy = .join) : lateMark now start k endPoint length =
    if endOver now endPoint ∨ showOver now start endPoint length ∨ windowPast now start k then none
    else some .join := by
  rw [lateMark_late hs, hp]
  refine if_congr ?_ rfl rfl
  rw [Bool.or_eq_true, Bool.or_eq_true, endOver_iff, showOver_iff hs, windowOver_iff, or_assoc]

open Classical in
theorem lateMark_restart (hp : k.policy = .restart) : lateMark now start k endPoint length =
    if endOver now endPoint ∨ windowPast now start k then none else some .restart := by
  rw [lateMark_late hs, hp]
  refine if_congr ?_ rfl rfl
  rw [Bool.or_eq_true, endOver_iff, windowOver_iff]

end

/-- The late judgement by the policy. -/
theorem lateMark_cases (now start : Nat) (k : Booking) (endPoint : Option Nat) (length : Option ShowLength) :
    (now + 150 ≤ start → lateMark now start k endPoint length = some .none)
    ∧ (start < now + 150 →
      (k.policy = .skip → lateMark now start k endPoint length = none)
      ∧ (k.policy = .join →
        (endOver now endPoint ∨ showOver now start endPoint length ∨ windowPast now start k →
          lateMark now start k endPoint length = none)
        ∧ (¬(endOver now endPoint ∨ showOver now start endPoint length ∨ windowPast now start k) →
          lateMark now start k endPoint length = some .join))
      ∧ (k.policy = .restart →
        (endOver now endPoint ∨ windowPast now start k → lateMark now start k endPoint length = none)
        ∧ (¬(endOver now endPoint ∨ windowPast now start k) →
          lateMark now start k endPoint length = some .restart))) := by
  classical
  refine ⟨lateMark_timely, fun hs => ⟨lateMark_skip hs, fun hp => ?_, fun hp => ?_⟩⟩
  · rw [lateMark_join hs hp]
    exact ⟨fun h => if_pos h, fun h => if_neg h⟩
  · rw [lateMark_restart hs hp]
    exact ⟨fun h => if_pos h, fun h => if_neg h⟩

end Sys2Proof.Machine
end

section
/-! SUPPORT. An arming into a player (R60, R180), and the arm point (R50 to R53). -/

namespace Sys2Proof.Machine

/-- A link once a wake order has reached it (R156). -/
def Link.woken (k : Link) : Link :=
  { k with wakeOwed := k.wakeOwed || k.state == .asleep || k.state == .quiescing }

namespace World

/-! ## The wake (R156, R180) -/

section
variable (w : World) (e : Env)

theorem wakeOrder_eq (l : Fin 4) : w.wakeOrder l = w.onLink l Link.woken := by
  unfold wakeOrder
  split
  · next h =>
    refine congrArg (fun k => { w with links := w.links.set l k }) ?_
    rcases h with h | h
    · change { w.link l with wakeOwed := true } = (w.link l).woken
      simp [Link.woken, h]
    · change { w.link l with wakeOwed := true } = (w.link l).woken
      simp [Link.woken, h]
  · next h =>
    obtain ⟨ha, hq⟩ := not_or.1 h
    have same : (w.link l).woken = w.link l := by
      have a : ((w.link l).state == .asleep) = false := beq_false_of_ne ha
      have q : ((w.link l).state == .quiescing) = false := beq_false_of_ne hq
      simp only [Link.woken, a, q, Bool.or_false]
    have links : w.links.upd l Link.woken = w.links := by
      refine Tab.ext_get fun m => ?_
      rw [Tab.get_upd]
      split
      · next hm => subst hm; exact same
      · rfl
    rw [onLink, links]

/-- Wake orders to several links change the links alone. -/
theorem wakeEach_rest (ls : List (Fin 4)) :
    w.each ls World.wakeOrder = { w with links := (w.each ls World.wakeOrder).links } := by
  induction ls generalizing w with
  | nil => rfl
  | cons l ls ih => rw [each_cons, ih, wakeOrder_eq]; rfl

theorem wakeEach_link (ls : List (Fin 4)) (hn : ls.Nodup) (m : Fin 4) :
    (w.each ls World.wakeOrder).link m = if m ∈ ls then (w.link m).woken else w.link m := by
  induction ls generalizing w with
  | nil => rfl
  | cons l ls ih =>
    obtain ⟨hl, hn⟩ := List.nodup_cons.1 hn
    rw [each_cons, ih _ hn, wakeOrder_eq, onLink_link]
    by_cases hm : l = m
    · subst hm
      simp [hl]
    · simp [hm, Ne.symm hm]

theorem wakeLinks_link (m : Fin 4) : w.wakeLinks.link m = (w.link m).woken := by
  rw [wakeLinks, wakeEach_link w _ (List.nodup_finRange 4), if_pos (List.mem_finRange m)]

theorem wakeLinks_rest : w.wakeLinks = { w with links := w.wakeLinks.links } := wakeEach_rest w _

theorem changeState_pending (s : OpState) (c : ChangeCause) :
    ((w.changeState e s c).notices.get NoticeKind.operatingState.no).pending = true := by
  rw [changeState]
  exact raise_pending _ e _

theorem wakeLinks_notices : w.wakeLinks.notices = w.notices := by rw [wakeLinks_rest]

theorem clearAsleep_notices : w.clearAsleep.notices = w.notices := rfl

theorem wakeCause_awake (c : ChangeCause) (h : w.ctl.state ≠ .dark) : w.wakeCause e c = w := if_neg h

section
variable {w e} {c : ChangeCause} (h : w.ctl.state = .dark)
include h

theorem wakeCause_dark : w.wakeCause e c = (w.changeState e .active c).clearAsleep.wakeLinks := if_pos h

theorem wakeCause_ctl : (w.wakeCause e c).ctl = { w.ctl with
    state := .active, guard := 0, asleep := Tab.fill 4 false, lastChange := some ⟨e.now, .active, c⟩ } := by
  rw [wakeCause_dark h, wakeLinks_rest]
  rfl

theorem wakeCause_link (l : Fin 4) : (w.wakeCause e c).link l = (w.link l).woken := by
  rw [wakeCause_dark h, wakeLinks_link]
  rfl

theorem wakeCause_pending :
    ((w.wakeCause e c).notices.get NoticeKind.operatingState.no).pending = true := by
  rw [wakeCause_dark h, wakeLinks_notices, clearAsleep_notices]
  exact changeState_pending w e _ c

end

/-- Once woken the part is ACTIVE, but for a PARKED one (R180). -/
theorem wakeCause_active {w : World} {e : Env} {c : ChangeCause} (h : w.ctl.state ≠ .parked) :
    (w.wakeCause e c).ctl.state = .active := by
  cases hc : w.ctl.state with
  | active =>
    rw [wakeCause_awake w e c (by rw [hc]; decide)]
    exact hc
  | dark => rw [wakeCause_ctl hc]
  | parked => exact absurd hc h

/-- A wake leaves every block but the controller, the links and the notices. -/
theorem wakeCause_rest (c : ChangeCause) : w.wakeCause e c = { w with
    ctl := (w.wakeCause e c).ctl, links := (w.wakeCause e c).links, notices := (w.wakeCause e c).notices } := by
  by_cases h : w.ctl.state = .dark
  · rw [wakeCause_dark h, wakeLinks_rest]
    rfl
  · rw [wakeCause_awake w e c h]

@[simp] theorem wakeCause_players (c : ChangeCause) : (w.wakeCause e c).players = w.players := by
  rw [wakeCause_rest]
@[simp] theorem wakeCause_plans (c : ChangeCause) : (w.wakeCause e c).plans = w.plans := by
  rw [wakeCause_rest]
@[simp] theorem wakeCause_zones (c : ChangeCause) : (w.wakeCause e c).zones = w.zones := by
  rw [wakeCause_rest]

end

/-! ## An arming into a player (R60) -/

/-- The blocks once a booking has its context in a player, before the wake and the late start (R60). -/
def seated (e : Env) (p : Fin 8) (bk : Bank) (k : Booking) (m : LateMark) (w : World) : World :=
  (({ w with plans := { w.plans with armSeq := satUp 4294967295 w.plans.armSeq } } : World).onOutcome bk k.id
    fun r => { r with progress := .armed }).onPlayer p fun _ =>
      armedPlayer bk ⟨k, civic (w.bank bk).date k.start, k.endPoint (w.bank bk).date⟩
        (e.lib.showRec k.showNo).length (satUp 4294967295 w.plans.armSeq) m

section
variable (w : World) (e : Env) (p : Fin 8) (bk : Bank) (k : Booking) (m : LateMark)

theorem armInto_eq : w.armInto e p bk k m = ((w.seated e p bk k m).wakeCause e .arming).lateStart e p := rfl

@[simp] theorem seated_player : (w.seated e p bk k m).player p =
    armedPlayer bk ⟨k, civic (w.bank bk).date k.start, k.endPoint (w.bank bk).date⟩
      (e.lib.showRec k.showNo).length (satUp 4294967295 w.plans.armSeq) m := by
  rw [seated, onPlayer_player, if_pos rfl]

@[simp] theorem seated_ctl : (w.seated e p bk k m).ctl = w.ctl := rfl

@[simp] theorem seated_armSeq :
    (w.seated e p bk k m).plans.armSeq = satUp 4294967295 w.plans.armSeq := onBank_armSeq _ _ _

@[simp] theorem seated_wait : (w.seated e p bk k m).plans.wait = w.plans.wait := onBank_wait _ _ _

theorem seated_find : ((w.seated e p bk k m).bank bk).find k.id =
    ((w.bank bk).find k.id).map fun x => { x with outcome := { x.outcome with progress := .armed } } := by
  have found := find_onOutcome (w := { w with plans := { w.plans with
    armSeq := satUp 4294967295 w.plans.armSeq } }) (bk := bk) (id := k.id) fun r => { r with progress := .armed }
  have same : ({ w with plans := { w.plans with armSeq := satUp 4294967295 w.plans.armSeq } } : World).bank bk
      = w.bank bk := by cases bk <;> rfl
  rw [same] at found
  exact found

/-- A booking that is not late starts nothing in the event of its arming. -/
theorem lateStart_none (v : World) (h : (v.player p).mark = .none) : v.lateStart e p = v := by
  rw [lateStart, h]

theorem armInto_none : w.armInto e p bk k .none = (w.seated e p bk k .none).wakeCause e .arming := by
  rw [armInto_eq]
  refine lateStart_none e p _ ?_
  rw [player, wakeCause_players, ← player, seated_player]
  rfl

theorem freedAtOnce_stays (v : World) (h : (v.player p).state ≠ .free) : v.freedAtOnce e p = v := if_neg h

/-- A timely booking armed: the player is ARMED, and nothing frees it. -/
theorem armInto_none_stays : (w.armInto e p bk k .none).freedAtOnce e p = w.armInto e p bk k .none := by
  refine freedAtOnce_stays e p _ ?_
  rw [armInto_none, player, wakeCause_players, ← player, seated_player]
  exact PlayerState.noConfusion

end

/-! ## The arm point (R50) -/

section
variable {w : World} {e : Env} {bk : Bank} {k : Booking} {rest : List Booking}
  (hb : w.activeBank = some bk)
include hb

theorem armFirst_eq (hk : (w.bank bk).armable e.now false = k :: rest) :
    w.armFirst e = w.armOne e bk k := by
  rw [armFirst, hb]
  dsimp only
  rw [hk]

theorem armDue_eq (hk : (w.bank bk).armable e.now false = k :: rest) : w.armDue e.now = true := by
  rw [armDue, hb, Option.any_some, hk]
  rfl

end

theorem onEntry_onEntry (w : World) (bk : Bank) (id : Nat) (f g : BankEntry → BankEntry)
    (hf : ∀ x, (f x).booking.id = x.booking.id) :
    (w.onEntry bk id f).onEntry bk id g = w.onEntry bk id fun x => g (f x) := by
  rw [onEntry, onEntry, onBank_onBank, onEntry]
  congr 1
  funext r
  simp only [Function.comp, BankRec.onEntry, List.map_map]
  congr 1
  refine List.map_congr_left fun x _ => ?_
  simp only [Function.comp]
  split
  · rw [if_pos (by rw [hf]; assumption)]
  · rfl

/-- A booking skipped at its arm point: the point acted on and the outcome written (R53). -/
theorem acted_skipLate (w : World) (e : Env) (bk : Bank) (id : Nat) :
    (w.acted bk id).skipLate e bk id = (w.onEntry bk id fun x => { x with
      armHeld := false, outcome := { x.outcome with progress := .skippedLate } }).raise e
        .bookingNotStarted := by
  rw [skipLate, acted, onOutcome, onEntry_onEntry]
  intro x
  rfl

theorem find_acted (w : World) (bk : Bank) (id : Nat) : ((w.acted bk id).bank bk).find id =
    ((w.bank bk).find id).map fun x => { x with armHeld := false } := find_onEntry fun _ => rfl

end World

/-- The arm point takes the first booking whose arm point is due (R50; log entry 2). -/
theorem exec_armPoint_after {s : State} {bk : Bank} {k : Booking} {rest : List Booking}
    (hh : s.held = false) (hr : s.reachOpen = true) (hb : s.world.activeBank = some bk)
    (hk : (s.world.bank bk).armable s.time.civic false = k :: rest) :
    ∃ t, exec .armPoint s = .next t ∧ s.After (s.world.armOne s.env bk k) t := by
  rw [exec_armPoint, ← World.armFirst_eq (e := s.env) hb hk]
  exact State.dueEvent_after _ _ hh (by rw [hr, World.armDue_eq (e := s.env) hb hk]; rfl)

section
variable {s : State} {bk : Bank} {k : Booking} {w : World} {t : State} {p : Fin 8}

/-- A timely booking armed at its arm point, once the links have chosen (R60, R180). -/
theorem State.After.armed (hd : s.world.ctl.state ≠ .parked)
    (after : s.After ((s.world.acted bk k.id).armInto s.env p bk k .none) t) :
    s.sameBase t ∧ t.world.plans.armSeq = satUp 4294967295 s.world.plans.armSeq
      ∧ { t.world.player p with counters := ⟨0, 0, 0, 0⟩ } = { Player.free with
          state := .armed
          ref := some (bk, k.id)
          copy := some ⟨k, civic (s.world.bank bk).date k.start, k.endPoint (s.world.bank bk).date⟩
          length := (s.lib.showRec k.showNo).length
          armSeq := satUp 4294967295 s.world.plans.armSeq }
      ∧ (∀ x, (s.world.bank bk).find k.id = some x → (t.world.bank bk).find k.id = some { x with
          armHeld := false, outcome := { x.outcome with progress := .armed } })
      ∧ t.world.ctl.state = .active
      ∧ (s.world.ctl.state = .dark →
        (t.world.notices.get NoticeKind.operatingState.no).pending = true) := by
  rw [World.armInto_none] at after
  have kept := after.1.kept
  have plans : t.world.plans = ((s.world.acted bk k.id).seated s.env p bk k .none).plans := by
    rw [kept.plans, World.wakeCause_plans]
  refine ⟨after.1.base, by rw [plans, World.seated_armSeq, World.acted_armSeq], ?_, fun x hx => ?_, ?_,
    fun hdark => kept.raised _ (World.wakeCause_pending hdark)⟩
  · rw [kept.player_eq p, World.player, World.wakeCause_players, ← World.player, World.seated_player,
      World.acted_date, World.acted_armSeq]
    rfl
  · have bank : t.world.bank bk = ((s.world.acted bk k.id).seated s.env p bk k .none).bank bk :=
      congrArg (Plans.bank · bk) plans
    rw [bank, World.seated_find, World.find_acted, hx]
    rfl
  · rw [kept.opState]
    exact World.wakeCause_active hd

end

end Sys2Proof.Machine
end

section
/-! SUPPORT. The late starts (R60, R67, R68): the replay, a JOIN, a RESTART, and an ON_CONDITION booking armed late. -/

namespace Sys2Proof.Machine

/-! ## The replay (R67) -/

/-- What a replay leaves of a player: the booking it holds, its claims' sequence, the hand-on list and the
counters. -/
structure Player.Replays (c d : Player) : Prop where
  copy : d.copy = c.copy
  ref : d.ref = c.ref
  armSeq : d.armSeq = c.armSeq
  hands : d.hands = c.hands
  counters : d.counters = c.counters

namespace Player
variable {c d f : Player}

theorem Replays.refl (c : Player) : c.Replays c := ⟨rfl, rfl, rfl, rfl, rfl⟩

theorem Replays.trans (h : c.Replays d) (k : d.Replays f) : c.Replays f :=
  ⟨k.copy.trans h.copy, k.ref.trans h.ref, k.armSeq.trans h.armSeq, k.hands.trans h.hands,
    k.counters.trans h.counters⟩

theorem walkFrom_replays (s : ShowRec) (i epoch : Nat) (c : Player) : c.Replays (c.walkFrom s i epoch) := by
  unfold walkFrom
  split <;> exact ⟨rfl, rfl, rfl, rfl, rfl⟩

theorem passTurn_replays (s : ShowRec) (sec : SectionRec) (g : GroupId) (c : Player) :
    c.Replays (c.passTurn s sec g) := by
  unfold passTurn walkFrom
  repeat' split
  all_goals exact ⟨rfl, rfl, rfl, rfl, rfl⟩

theorem advance_replays (s : ShowRec) (sec : SectionRec) (g : GroupId) (n : Nat) (c : Player) :
    c.Replays (c.advance s sec g n) := by
  unfold advance
  split
  · exact ⟨rfl, rfl, rfl, rfl, rfl⟩
  · exact passTurn_replays s sec g c

end Player

namespace Env
variable (e : Env)

/-- The looks and the play of a group that a replay has played. -/
theorem playGroup_looks (g : GroupId) (due : Nat) (group : List Cue) (c : Player) :
    c.playGroup g due (e.copyCues group) = { c with
      looks := group.foldl (fun looks q => looks.set q.part (some ⟨q.look, e.lib.looks.get q.look⟩)) c.looks
      play := some ⟨g, due⟩ } := by
  rw [Player.playGroup, playCues, copyCues, List.foldl_map]
  rfl

section
variable {e} {c : Player} {g : GroupId} {sec : SectionRec} {due : Nat}
  (h : e.walkAt c = some (g, sec, due))
include h

theorem replayOne_stands : e.replayOne c = Player.advance (e.showOf c) sec g
    (e.lib.group (e.showOf c) sec g.cue).length
    (c.playGroup g due (e.copyCues (e.lib.group (e.showOf c) sec g.cue))) := by
  unfold replayOne
  dsimp only
  rw [h]

theorem replayFor_due (n : Nat) (hd : due < e.now + 150) :
    e.replayFor (n + 1) c = e.replayFor n (e.replayOne c) := by
  rw [replayFor, h]
  exact if_pos (by simpa [Config.horizon] using hd)

end

theorem replayFor_stop {c : Player} (h : (e.walkAt c).any (fun a => a.2.2 < e.now + 150) = false) (n : Nat) :
    e.replayFor n c = c := by
  cases n with
  | zero => rfl
  | succ n => exact if_neg (by rw [Bool.not_eq_true]; exact h)

theorem replayOne_replays (c : Player) : c.Replays (e.replayOne c) := by
  cases h : e.walkAt c with
  | none =>
    have same : e.replayOne c = c := by
      unfold replayOne
      dsimp only
      rw [h]
    rw [same]
    exact Player.Replays.refl c
  | some a =>
    obtain ⟨g, sec, due⟩ := a
    have played (cues : List HandCue) : c.Replays (c.playGroup g due cues) := ⟨rfl, rfl, rfl, rfl, rfl⟩
    rw [replayOne_stands h]
    exact (played _).trans (Player.advance_replays _ _ _ _ _)

theorem replay_replays (c : Player) : c.Replays (e.replay c) := by
  unfold replay
  generalize e.now + 151 = n
  induction n generalizing c with
  | zero => exact Player.Replays.refl c
  | succ n ih =>
    unfold replayFor
    split
    · exact (e.replayOne_replays c).trans (ih _)
    · exact Player.Replays.refl c

/-- The replay of a walk from a section's first cue (R67). -/
def replayFrom (s : ShowRec) (i epoch : Nat) (c : Player) : Player := e.replay (c.walkFrom s i epoch)

theorem replayFrom_replays (s : ShowRec) (i epoch : Nat) (c : Player) :
    c.Replays (e.replayFrom s i epoch c) :=
  (Player.walkFrom_replays s i epoch c).trans (e.replay_replays _)

end Env

namespace World

/-! ## Claims after a replay -/

section
variable {w v : World} {e : Env} {p : Fin 8} {copy : BookingCopy}

/-- Claims depend on the zones' lists and on the player's sequence number alone. -/
theorem claimsWith_congr (hz : v.zones = w.zones) (hs : (v.player p).armSeq = (w.player p).armSeq)
    (z : Fin 64) : v.claimsWith p copy z = w.claimsWith p copy z := by
  unfold claimsWith
  rw [zone, zone, hz, hs]

end

section
variable {w : World} {p : Fin 8}

@[simp] theorem walkEnds_monitor (s : ShowRec) : (w.walkEnds s p).monitor = w.monitor := by
  unfold walkEnds
  dsimp only
  split
  · exact enterState_monitor _
  · rfl

/-- A walk that has not entered the CODA enters no state. -/
theorem walkEnds_stays {s : ShowRec} (h : ¬(w.player p).walk.any (Walk.inCoda s) = true) :
    w.walkEnds s p = w := if_neg fun hc => h hc.2

theorem walkEnds_copy (s : ShowRec) : ((w.walkEnds s p).player p).copy = (w.player p).copy := by
  rw [walkEnds_player]

/-- A RUNNING player whose walk has entered the CODA is ENDING. -/
theorem walkEnds_ending {s : ShowRec} (hs : (w.player p).state = .running)
    (h : (w.player p).walk.any (Walk.inCoda s) = true) : ((w.walkEnds s p).player p).state = .ending := by
  rw [walkEnds_player]
  exact if_pos ⟨hs, h⟩

end

section
variable {w : World} {e : Env} {p : Fin 8} {copy : BookingCopy} (hc : (w.player p).copy = some copy)
include hc

/-! ## The late start by mark and mode (R60) -/

theorem lateStart_join (hm : (w.player p).mark = .join) (hk : copy.booking.mode = .atTime) :
    w.lateStart e p = w.joinShow e p := by
  rw [lateStart]
  rw [hm, mode?_copy hc, hk]

theorem lateStart_restart (hm : (w.player p).mark = .restart) (hk : copy.booking.mode = .atTime) :
    w.lateStart e p = w.restartShow e p := by
  rw [lateStart]
  rw [hm, mode?_copy hc, hk]

theorem lateStart_wait {ch : Fin 8} {n : Nat} (hm : (w.player p).mark ≠ .none)
    (hk : copy.booking.mode = .onCondition ch n) : w.lateStart e p = w.waitLate e p := by
  rw [lateStart]
  cases h : (w.player p).mark with
  | none => exact absurd h hm
  | join => rw [mode?_copy hc, hk]
  | restart => rw [mode?_copy hc, hk]

/-! ## A JOIN (R67) -/

/-- A JOIN would reach the end of its show (R67). -/
def tooLate (w : World) (e : Env) (p : Fin 8) (copy : BookingCopy) : Prop :=
  ∃ n, (w.player p).length = some (.ticks n) ∧ copy.startPoint + n ≤ e.now + 150

theorem overLong_iff : (w.player p).overLong e.now = true ↔ w.tooLate e p copy := by
  unfold Player.overLong tooLate
  rw [startPoint_copy hc]
  split
  · next n hl =>
    rw [hl]
    simp [Config.horizon]
  · next hl => simpa using fun n hn => absurd hn (hl n)

theorem joinShow_tooLate (h : w.tooLate e p copy) :
    w.joinShow e p = w.endBooking e p .skippedLate false := if_pos ((overLong_iff hc).2 h)

/-- The blocks of a JOIN once it is RUNNING: the replay, the start tick, the claims (R67). -/
def joined (e : Env) (p : Fin 8) (copy : BookingCopy) (i : Nat) (w : World) : World :=
  (((w.onPlayer p fun _ => e.replayFrom (e.lib.showRec copy.booking.showNo) i copy.startPoint (w.player p)).setStart
    p copy.startPoint).sendClaims e p).enterState p .running

section
variable {i : Nat}

theorem joinShow_joined
    (hi : i = if (e.lib.showRec copy.booking.showNo).parts.head?.any (·.kind == .preroll) then 1 else 0)
    (h : ¬w.tooLate e p copy) : w.joinShow e p =
      (((w.joined e p copy i).walkEnds (e.lib.showRec copy.booking.showNo) p).checkStop e p).handAll e p := by
  have main : firstMain (e.showOf (w.player p)) = i := by
    rw [showOf_copy hc, hi]
    rfl
  have replayed : (w.onPlayer p fun c =>
      e.replay (c.walkFrom (e.showOf (w.player p)) (firstMain (e.showOf (w.player p))) c.startPoint))
      = w.onPlayer p fun _ =>
        e.replayFrom (e.lib.showRec copy.booking.showNo) i copy.startPoint (w.player p) := by
    rw [main, showOf_copy hc]
    refine onPlayer_congr _ _ ?_
    rw [startPoint_copy hc, Env.replayFrom]
  unfold joinShow
  dsimp only
  rw [if_neg (mt (overLong_iff hc).1 h), replayed, showOf_copy hc, startPoint_copy hc, joined]

omit hc in
/-- The player of a JOIN: the replay's, RUNNING from the start point. -/
theorem joined_player : { (w.joined e p copy i).player p with counters := (w.player p).counters } =
    { e.replayFrom (e.lib.showRec copy.booking.showNo) i copy.startPoint (w.player p) with
      state := .running, startTick := some copy.startPoint, counters := (w.player p).counters } := by
  rw [joined, enterState_player, ((Spared.refl _).sendClaims e p).player_eq p, setStart_player,
    onPlayer_player, if_pos rfl]

theorem joined_copy : ((w.joined e p copy i).player p).copy = some copy := by
  have same := congrArg Player.copy (w.joined_player (e := e) (p := p) (copy := copy) (i := i))
  exact same.trans ((Env.replayFrom_replays e _ _ _ _).copy.trans hc)

omit hc in
theorem joined_running : ((w.joined e p copy i).player p).state = .running := by
  have same := congrArg Player.state (w.joined_player (e := e) (p := p) (copy := copy) (i := i))
  exact same

omit hc in
theorem joined_walk : ((w.joined e p copy i).player p).walk =
    (e.replayFrom (e.lib.showRec copy.booking.showNo) i copy.startPoint (w.player p)).walk := by
  have same := congrArg Player.walk (w.joined_player (e := e) (p := p) (copy := copy) (i := i))
  exact same

omit hc in
theorem joined_monitor : (w.joined e p copy i).monitor = w.monitor := by
  rw [joined, enterState_monitor, ((Spared.refl _).sendClaims e p).monitor, setStart_monitor,
    onPlayer_monitor]

theorem joined_claims (z : Fin 64) : ((w.joined e p copy i).zone z).claims = w.claimsWith p copy z := by
  have replays := Env.replayFrom_replays e (e.lib.showRec copy.booking.showNo) i copy.startPoint (w.player p)
  rw [joined, zone, enterState_zones, ← zone, sendClaims_claims (copy := copy) (by
    rw [setStart_player, onPlayer_player, if_pos rfl]
    exact replays.copy.trans hc)]
  refine claimsWith_congr (by rw [setStart_zones, onPlayer_zones]) ?_ z
  rw [setStart_player, onPlayer_player, if_pos rfl]
  exact replays.armSeq

/-- A JOIN that has not entered the CODA ends gracefully where its stop condition is TRUE (R67, R76). -/
theorem joinShow_stops
    (hi : i = if (e.lib.showRec copy.booking.showNo).parts.head?.any (·.kind == .preroll) then 1 else 0)
    (h : ¬w.tooLate e p copy) (hs : w.stopTrue copy.booking)
    (hn : ¬((w.joined e p copy i).player p).walk.any
      (Walk.inCoda (e.lib.showRec copy.booking.showNo)) = true) : w.joinShow e p =
      (((w.joined e p copy i).walkEnds (e.lib.showRec copy.booking.showNo) p).endGracefully e p (e.now + 150)
        .stopped false).handAll e p := by
  rw [joinShow_joined hc hi h, walkEnds_stays hn, checkStop_true (joined_copy hc) joined_running]
  rwa [stopTrue, joined_monitor]

/-- Another JOIN hands on the groups that are due (R67). -/
theorem joinShow_runs
    (hi : i = if (e.lib.showRec copy.booking.showNo).parts.head?.any (·.kind == .preroll) then 1 else 0)
    (h : ¬w.tooLate e p copy) (hs : ¬w.stopTrue copy.booking ∨ ((w.joined e p copy i).player p).walk.any
      (Walk.inCoda (e.lib.showRec copy.booking.showNo)) = true) : w.joinShow e p =
      ((w.joined e p copy i).walkEnds (e.lib.showRec copy.booking.showNo) p).handAll e p := by
  rw [joinShow_joined hc hi h, checkStop_stays ((walkEnds_copy _).trans (joined_copy hc))]
  rintro ⟨running, stop⟩
  rcases hs with hs | hs
  · rw [stopTrue, walkEnds_monitor, joined_monitor] at stop
    exact hs stop
  · rw [walkEnds_ending joined_running hs] at running
    cases running

end

/-! ## An ON_CONDITION booking armed late (R68; log entry 12) -/

section
variable {ch : Fin 8} {n : Nat} (hm : copy.booking.mode = .onCondition ch n)
include hm

theorem readStart_eq : w.readStart e p =
    if (w.monitor.channels.get ch).value = .yes then w.mainStart e p else w := by
  split
  · next h => exact readStart_true hc hm h
  · next h => exact readStart_stays hc hm h

end

section
variable (hp : (e.lib.showRec copy.booking.showNo).parts.head?.any (·.kind == .preroll) = false)
include hp

theorem hasPreroll_false : hasPreroll (e.showOf (w.player p)) = false := by
  rw [showOf_copy hc]
  exact hp

/-- Without a PREROLL a booking whose start point is to come waits for it. -/
theorem waitLate_early (h : e.now < copy.startPoint) : w.waitLate e p = w := by
  unfold waitLate
  dsimp only
  rw [hasPreroll_false hc hp, startPoint_copy hc, if_neg Bool.false_ne_true, if_neg (Nat.not_le.2 h)]

theorem waitLate_bare (h : copy.startPoint ≤ e.now) :
    w.waitLate e p = ((w.enterState p .waiting).readStart e p).handAll e p := by
  unfold waitLate
  dsimp only
  rw [hasPreroll_false hc hp, startPoint_copy hc, if_neg Bool.false_ne_true, if_pos h,
    enterWaiting_bare hc hp]

end

section
variable (hp : (e.lib.showRec copy.booking.showNo).parts.head?.any (·.kind == .preroll) = true)
include hp

theorem hasPreroll_true : hasPreroll (e.showOf (w.player p)) = true := by
  rw [showOf_copy hc]
  exact hp

/-- The blocks of a late PREROLL once replayed: its claims, and WAITING (log entry 12). -/
def prerolled (e : Env) (p : Fin 8) (copy : BookingCopy) (w : World) : World :=
  ((w.onPlayer p fun _ => e.replayFrom (e.lib.showRec copy.booking.showNo) 0 copy.startPoint
    (w.player p)).sendClaims e p).enterState p .waiting

theorem waitLate_join (hj : (w.player p).mark = .join) :
    w.waitLate e p = ((w.prerolled e p copy).readStart e p).handAll e p := by
  have replayed : (w.onPlayer p fun c =>
      e.replay (c.walkFrom (e.showOf (w.player p)) 0 c.startPoint))
      = w.onPlayer p fun _ =>
        e.replayFrom (e.lib.showRec copy.booking.showNo) 0 copy.startPoint (w.player p) := by
    rw [showOf_copy hc]
    refine onPlayer_congr _ _ ?_
    rw [startPoint_copy hc, Env.replayFrom]
  unfold waitLate
  dsimp only
  rw [hasPreroll_true hc hp, if_pos rfl, hj, replayed, prerolled]

theorem waitLate_restart (hr : (w.player p).mark = .restart) :
    w.waitLate e p = ((w.enterWaiting e p (e.now + 150)).readStart e p).handAll e p := by
  unfold waitLate
  dsimp only
  rw [hasPreroll_true hc hp, if_pos rfl, hr]

end

theorem prerolled_copy : ((w.prerolled e p copy).player p).copy = some copy := by
  rw [prerolled, enterState_player, ((Spared.refl _).sendClaims e p).player_eq p, onPlayer_player, if_pos rfl]
  exact (Env.replayFrom_replays e _ _ _ _).copy.trans hc

omit hc in
theorem prerolled_monitor : (w.prerolled e p copy).monitor = w.monitor := by
  rw [prerolled, enterState_monitor, ((Spared.refl _).sendClaims e p).monitor, onPlayer_monitor]

theorem prerolled_claims (z : Fin 64) : ((w.prerolled e p copy).zone z).claims = w.claimsWith p copy z := by
  have replays := Env.replayFrom_replays e (e.lib.showRec copy.booking.showNo) 0 copy.startPoint (w.player p)
  rw [prerolled, zone, enterState_zones, ← zone, sendClaims_claims (copy := copy) (by
    rw [onPlayer_player, if_pos rfl]
    exact replays.copy.trans hc)]
  refine claimsWith_congr (onPlayer_zones ..) ?_ z
  rw [onPlayer_player, if_pos rfl]
  exact replays.armSeq

end
end World
end Sys2Proof.Machine
end

section
/-! SUPPORT. The arming of a booking from its arm point to its late start (R50 to R53, R60, R67, R68). -/

namespace Sys2Proof.Machine

theorem satUp_eq (n : Nat) : satUp 4294967295 n = if n < 4294967295 then n + 1 else n := rfl

section
variable {s : State} {bk : Bank} {k : Booking} {rest : List Booking}

/-- The first booking of an arming event as its bank holds it. -/
theorem armable_find {r : BankRec} {now : Nat} {all : Bool} (hn : (r.list.map (·.booking.id)).Nodup)
    (hk : r.armable now all = k :: rest) : ∃ x, r.find k.id = some x ∧ x.booking = k := by
  obtain ⟨x, hx, rfl, -⟩ := mem_armable.1 (hk ▸ List.mem_cons_self)
  exact ⟨x, find_of_mem hn hx, rfl⟩

/-- What the arm point does with no player FREE: the booking joins the wait list in its place (R51). -/
theorem exec_armPoint_waits (hh : s.held = false) (hr : s.reachOpen = true)
    (hb : s.world.activeBank = some bk)
    (hk : (s.world.bank bk).armable s.time.civic false = k :: rest)
    (hn : ((s.world.bank bk).list.map (·.booking.id)).Nodup) (hp : s.world.ctl.state ≠ .parked)
    (hm : s.world.late s.env bk k ≠ none) (hq : ∀ q, (s.world.player q).state ≠ .free) :
    ∃ t front back, exec .armPoint s = .next t ∧ s.sameBase t
      ∧ s.world.plans.wait = front ++ back ∧ t.world.plans.wait = front ++ k.id :: back
      ∧ (∀ y x, y ∈ front → (s.world.bank bk).find y = some x → k.before x.booking = false)
      ∧ (∀ y x, back.head? = some y → (s.world.bank bk).find y = some x → k.before x.booking = true)
      ∧ (∀ x, (s.world.bank bk).find k.id = some x → (t.world.bank bk).find k.id = some { x with
          armHeld := false, outcome := { x.outcome with progress := .waitlisted } })
      ∧ (t.world.notices.get NoticeKind.playerWait.no).pending = true := by
  obtain ⟨t, ht, after⟩ := exec_armPoint_after hh hr hb hk
  obtain ⟨m, hm⟩ := Option.ne_none_iff_exists'.1 hm
  obtain ⟨x, hx, hxk⟩ := armable_find hn hk
  have found : ((s.world.acted bk k.id).bank bk).find k.id = some { x with armHeld := false } := by
    rw [World.find_acted, hx]
    rfl
  obtain ⟨front, back, hw, hj, hf, hbk⟩ := World.joinWait_split (e := s.env) found hxk
  rw [World.armOne_waits hp hm hq, hj] at after
  rw [World.acted_wait] at hw
  have kept := after.1.kept
  have same {id : Nat} {z : BankEntry} (hz : (s.world.bank bk).find id = some z) :
      ∃ u, ((s.world.acted bk k.id).bank bk).find id = some u ∧ u.booking = z.booking := by
    have := s.world.acted_booking (bk := bk) k.id id
    rw [hz, Option.map_some] at this
    exact Option.map_eq_some_iff.1 this
  refine ⟨t, front, back, ht, after.1.base, hw, ?_, fun y z hy hz => ?_, fun y z hy hz => ?_,
    fun z hz => ?_, kept.raised _ (World.raise_pending _ _ .playerWait)⟩
  · rw [kept.plans]
    exact World.onBank_wait _ _ _
  · obtain ⟨u, hu, huz⟩ := same hz
    rw [← huz]
    exact hf y u hy hu
  · obtain ⟨u, hu, huz⟩ := same hz
    rw [← huz]
    exact hbk y u hy hu
  · cases hx.symm.trans hz
    have waits : ((((s.world.acted bk k.id).withWait (front ++ k.id :: back)).onOutcome bk k.id
        fun r => { r with progress := .waitlisted }).bank bk).find k.id = some { x with
          armHeld := false, outcome := { x.outcome with progress := .waitlisted } } := by
      have bank : ((s.world.acted bk k.id).withWait (front ++ k.id :: back)).bank bk
          = (s.world.acted bk k.id).bank bk := by cases bk <;> rfl
      rw [World.find_onOutcome, bank, found]
      rfl
    rw [World.bank, kept.plans]
    exact waits

end

namespace World
variable (w : World) (e : Env) (p : Fin 8) (bk : Bank) (k : Booking) (m : LateMark)

/-- The blocks that an arming in DARK wakes, but for the controller, the links and the notices. -/
theorem seated_woken (h : w.ctl.state = .dark) :
    let armed := (w.seated e p bk k m).wakeCause e .arming
    armed.plans = (w.seated e p bk k m).plans ∧ armed.players = (w.seated e p bk k m).players
      ∧ armed.zones = (w.seated e p bk k m).zones
      ∧ armed.ctl = { w.ctl with
        state := .active
        guard := 0
        asleep := Tab.fill 4 false
        lastChange := some ⟨e.now, .active, .arming⟩ }
      ∧ (armed.notices.get NoticeKind.operatingState.no).pending = true
      ∧ ∀ l, armed.link l = (w.link l).woken := by
  have dark : (w.seated e p bk k m).ctl.state = .dark := h
  exact ⟨wakeCause_plans .., wakeCause_players .., wakeCause_zones .., wakeCause_ctl dark,
    wakeCause_pending dark, fun l => wakeCause_link dark l⟩

end World

/-- Settles O24: the arming event's list, the judgement, the arm point by the judgement and the players, and the
late starts by mark and mode. -/
theorem bookingsArmed : Obligations.BookingsArmed := by
  refine ⟨fun r now all hn => ⟨fun k => mem_armable, ?_⟩, lateMark_cases,
    fun s bk k rest hh hr hb hk hn => ?_, fun w e p bk k m => ?_, fun w e p copy => ?_,
    fun c shown i epoch => ⟨fun sec => walkFrom_some c, walkFrom_none c⟩, fun e c => rfl,
    fun e c n => ⟨fun h => e.replayFor_stop h n, fun g sec due h => ?_⟩⟩
  · exact (armable_sorted hn).imp fun {a b} h => (Booking.before_iff a b).1 h
  · obtain ⟨t, ht, after⟩ := exec_armPoint_after hh hr hb hk
    refine ⟨fun hp => ⟨t, ht, ?_⟩, fun hp hm => ⟨t, ht, ?_⟩, fun p hp hm hf hq => ⟨t, ht, ?_⟩,
      fun hp hm hq => exec_armPoint_waits hh hr hb hk hn hp hm hq, fun m p hp hm hf hq => ⟨t, ht, ?_⟩⟩
    · rwa [World.armOne_parked hp] at after
    · rwa [World.armOne_skipped (e := s.env) hp hm, World.acted_skipLate] at after
    · rw [World.armOne_armed (e := s.env) hp hm hf hq, World.armInto_none_stays] at after
      exact after.armed hp
    · rwa [World.armOne_armed (e := s.env) hp hm hf hq] at after
  · refine ⟨World.armInto_eq w e p bk k m, fun hm => World.lateStart_none e p _ ?_,
      fun h => World.wakeCause_awake (w.seated e p bk k m) e _ h, w.seated_woken e p bk k m,
      World.freedAtOnce_stays e p w⟩
    change (((w.seated e p bk k m).wakeCause e .arming).player p).mark = .none
    rw [World.player, World.wakeCause_players, ← World.player, World.seated_player, hm]
    rfl
  · intro c shown preroll i claims tooLate stop hc
    refine ⟨fun hj hm hl => ?_, fun hj hm hl => ?_, fun hr hm sec hs => ?_, fun ch n hn hm => ?_⟩
    · have late : w.lateStart e p = w.endBooking e p .skippedLate false := by
        rw [World.lateStart_join hc hj hm, World.joinShow_tooLate hc hl]
      rw [late]
      exact ⟨rfl, World.endBooking_player .., World.endBooking_raises .., fun bk id x hr hx =>
        ⟨_, w.endBooking_find e p .skippedLate false hr hx, rfl, rfl, rfl⟩⟩
    · intro r v ended u
      have replays := Env.replayFrom_replays e shown i copy.startPoint c
      have coda : ended ↔ (v.player p).walk.any (Walk.inCoda shown) = true := by
        have walk : (v.player p).walk = r.walk := World.joined_walk
        rw [walk, inCoda_iff]
      rw [World.lateStart_join hc hj hm]
      exact ⟨fun hs hn => World.joinShow_stops hc rfl hl hs (mt coda.2 hn),
        fun h => World.joinShow_runs hc rfl hl (h.imp_right coda.1), World.joined_player, replays.hands,
        replays.counters, World.joined_claims hc,
        fun h => World.walkEnds_ending World.joined_running (coda.1 h),
        fun h => World.walkEnds_stays (mt coda.2 h)⟩
    · exact ⟨World.lateStart_restart hc hr hm, World.runFrom_player hc rfl hs, World.runFrom_claims hc rfl hs⟩
    · intro ready
      have read {v : World} (hv : (v.player p).copy = some copy) (hmon : v.monitor = w.monitor) :
          (v.readStart e p).handAll e p = ready v := by
        rw [World.readStart_eq hv hm, hmon]
      rw [World.lateStart_wait hc hn hm]
      refine ⟨fun hp h => World.waitLate_early hc hp h, fun hp h => ?_, fun hp hj => ⟨?_, ?_⟩,
        fun hp hr sec hs => ⟨?_, World.enterWaiting_player hc hp hs, World.enterWaiting_claims hc hp hs⟩⟩
      · rw [World.waitLate_bare hc hp h]
        exact read ((congrArg Player.copy (World.enterState_player _)).trans hc) (World.enterState_monitor _)
      · rw [World.waitLate_join hc hp hj]
        exact read (World.prerolled_copy hc) World.prerolled_monitor
      · exact World.prerolled_claims hc
      · rw [World.waitLate_restart hc hp hr]
        exact read (World.enterWaiting_copy hc hp hs) (World.enterWaiting_monitor hc hp hs)
  · have stands := Env.replayOne_stands h
    rw [Env.playGroup_looks] at stands
    refine ⟨Env.replayFor_due h n, fun hw => ?_, fun hw => ?_⟩
    · rw [stands, Player.advance, if_pos hw]
    · rw [stands, Player.advance, if_neg (Nat.not_lt.2 hw)]

end Sys2Proof.Machine
end

section
/-! SUPPORT. The dispatcher rid of a player (R85): no group record and no deferred item of it, and no entry but on its
way out; and what the dispatcher does for the other players leaves it so. -/

namespace Sys2Proof.Machine

/-- The player of a deferred item. -/
def Item.player : Item → Option (Fin 8)
  | .group p _ _ _ => some p
  | .single _ _ p _ _ => p

/-- An entry of the player is on its way out. -/
def Entry.leaves (p : Fin 8) (x : Entry) : Prop := x.player = some p → x.dropping = true

/-- The item is not the player's. -/
def Item.not (p : Fin 8) (i : Item) : Prop := i.player ≠ some p

namespace World

theorem kinds_leaves (p : Fin 8) : Kinds (Entry.leaves p) (Item.not p) where
  drop _ _ _ _ := fun _ => rfl
  single _ _ _ _ _ hq := fun hp => absurd hp hq
  group _ _ _ _ hq _ _ _ _ _ := fun hp => absurd hp hq

/-- The dispatcher holds nothing of the player `p` but entries on their way out, and the player is `c`. -/
structure Rid (p : Fin 8) (c : Player) (w : World) : Prop where
  player : w.player p = c
  groups : ∀ g ∈ w.groups, g.player ≠ p
  lists : ∀ l, w.Holds l (Entry.leaves p) (Item.not p)

namespace Rid
variable {p q : Fin 8} {c : Player} {w v : World}

theorem same (h : w.Rid p c) (hp : v.player p = w.player p) (hg : v.groups = w.groups)
    (hl : ∀ l, v.link l = w.link l) : v.Rid p c :=
  ⟨hp.trans h.player, hg ▸ h.groups, fun l => (h.lists l).same (hl l)⟩

theorem each {α : Type} (h : w.Rid p c) (xs : List α) (f : α → World → World)
    (hf : ∀ x ∈ xs, ∀ v : World, v.Rid p c → (f x v).Rid p c) : (w.each xs f).Rid p c := by
  induction xs generalizing w with
  | nil => exact h
  | cons x xs ih => exact ih (hf x List.mem_cons_self w h) fun y hy => hf y (List.mem_cons_of_mem _ hy)

/-! ## The parts of the blocks -/

theorem onLink (h : w.Rid p c) (m : Fin 4) (f : Link → Link) (hs : (f (w.link m)).stage = (w.link m).stage)
    (hd : (f (w.link m)).deferred = (w.link m).deferred) : (w.onLink m f).Rid p c :=
  ⟨h.player, h.groups, fun l => (h.lists l).onLink m f hs hd⟩

/-- A link's deferred list changed among the items of the others. -/
theorem onDeferred (h : w.Rid p c) (m : Fin 4) (f : Link → Link)
    (hs : (f (w.link m)).stage = (w.link m).stage)
    (hd : ∀ i ∈ (f (w.link m)).deferred, i.not p) : (w.onLink m f).Rid p c := by
  refine ⟨h.player, h.groups, fun l => ?_⟩
  by_cases hm : m = l
  · subst hm
    exact ⟨fun x hx => (h.lists m).stage x (by rwa [onLink_link, if_pos rfl, hs] at hx),
      fun i hi => hd i (by rwa [onLink_link, if_pos rfl] at hi)⟩
  · exact (h.lists l).same (by rw [onLink_link, if_neg hm])

theorem onZone (h : w.Rid p c) (z : Fin 64) (f : Zone → Zone) : (w.onZone z f).Rid p c :=
  h.same rfl rfl fun _ => rfl

theorem raise (h : w.Rid p c) (e : Env) (k : NoticeKind) : (w.raise e k).Rid p c :=
  h.same rfl rfl fun _ => rfl

theorem onPortions (h : w.Rid p c) (m : Fin 4) (q : Fin 8) (id : GroupId)
    (f : List Portion → List Portion) : (w.onPortions m q id f).Rid p c := by
  refine ⟨h.player, fun g hg => ?_, fun l => (h.lists l).onPortions m q id f⟩
  obtain ⟨x, hx, rfl⟩ := List.mem_map.1 hg
  split
  · exact h.groups x hx
  · exact h.groups x hx

/-- A count for another player. -/
theorem count (h : w.Rid p c) (hq : q ≠ p) (f : Counters → Counters) : (w.count q f).Rid p c := by
  unfold World.count
  split
  · exact h
  · exact h.same (by rw [onPlayer_player, if_neg hq]) rfl fun _ => rfl

/-- A take counted for another player, or for none. -/
theorem countTake (h : w.Rid p c) (e : Env) {q : Option (Fin 8)} (hq : q ≠ some p)
    (f : Counters → Counters) : (w.countTake e q f).Rid p c := by
  unfold World.countTake
  split
  · exact h
  · next r =>
    split
    · exact h
    · exact (h.count (fun hr => hq (congrArg some hr)) f).raise e _

/-! ## Entries and portions -/

theorem removeEntry (h : w.Rid p c) (m : Fin 4) (x : Entry) (stop : DropEnd) :
    (w.removeEntry m x stop).Rid p c := by
  refine ⟨?_, ?_, fun l => (h.lists l).removeEntry (kinds_leaves p) m x stop⟩
  · rw [← h.player]
    unfold World.removeEntry
    split <;> rfl
  · have same : (w.removeEntry m x stop).groups = w.groups := by
      unfold World.removeEntry
      split <;> rfl
    rw [same]
    exact h.groups

/-- An entry discarded: one of the player is dropping, and that is not counted. -/
theorem discardEntry (h : w.Rid p c) (e : Env) (m : Fin 4) {x : Entry} (hx : x.leaves p) :
    (w.discardEntry e m x).Rid p c := by
  unfold World.discardEntry
  split
  · exact h
  · next hd => exact (h.removeEntry m x _).countTake e (fun hp => hd (hx hp)) _

theorem addEntry (h : w.Rid p c) (e : Env) (m : Fin 4) {x : Entry} (hx : x.player ≠ some p) :
    (w.addEntry e m x).Rid p c := by
  refine ⟨?_, ?_, fun l => (h.lists l).addEntry e m x fun _ hp => absurd hp hx⟩
  · rw [← h.player]
    unfold World.addEntry
    dsimp only
    split <;> rfl
  · have same : (w.addEntry e m x).groups = w.groups := by
      unfold World.addEntry
      dsimp only
      split <;> rfl
    rw [same]
    exact h.groups

theorem withRef (h : w.Rid p c) (k : Nat → World → World)
    (hk : ∀ n v, World.Rid p c v → World.Rid p c (k n v)) : (w.withRef k).Rid p c :=
  hk _ _ (h.same rfl rfl fun _ => rfl)

/-- The entries that another player's newer member supersedes are its own. -/
theorem supersede (h : w.Rid p c) (e : Env) (m : Fin 4) (hq : q ≠ p) (a : Fin 16) (ref : Nat) :
    (w.supersede e m q a ref).Rid p c := by
  refine h.each _ _ fun x hx v hv => hv.discardEntry e m fun hp => ?_
  obtain ⟨-, test⟩ := List.mem_filter.1 hx
  simp only [Bool.and_eq_true, beq_iff_eq, hp, Option.some.injEq] at test
  obtain ⟨⟨⟨⟨mine, -⟩, -⟩, -⟩, -⟩ := test
  exact absurd mine.symm hq

theorem addMember (h : w.Rid p c) (e : Env) (m : Fin 4) (hq : q ≠ p) (id : GroupId) (due : Nat) (t : Fin 15)
    (lead : Nat) (s : EntryState) (x : Member) : (w.addMember e m q id due t lead s x).Rid p c :=
  h.withRef _ fun _ _ hv => (hv.addEntry e m (by simpa using hq)).supersede e m hq _ _

theorem makePortion (h : w.Rid p c) (e : Env) (m : Fin 4) (hq : q ≠ p) (id : GroupId) (due : Nat)
    (ms : List Member) (t : Fin 15) : (w.makePortion e m q id due ms t).Rid p c :=
  ((h.each ms (World.addMember e m q id due t (w.portionLead m ms) .queued) fun x _ _ hv =>
    hv.addMember e m hq id due t _ _ x).onLink m _ rfl rfl).onPortions m q id _

/-- An item of another player that joins a deferred list. -/
theorem insertItem (h : w.Rid p c) (m : Fin 4) {i : Item} (hi : i.not p) : (w.onLink m fun k =>
    { k with deferred := insertBy Item.before i k.deferred }).Rid p c := by
  refine h.onDeferred m _ rfl fun j hj => ?_
  rcases (Holds.mem_insertBy _ _ _ _).1 hj with rfl | hj
  · exact hi
  · exact (h.lists m).deferred j hj

theorem placePortion (h : w.Rid p c) (e : Env) (m : Fin 4) (hq : q ≠ p) (id : GroupId) (due : Nat)
    (ms : List Member) : (w.placePortion e m q id due ms).Rid p c := by
  have deferred : (World.placePortion.defer m q id due ms w).Rid p c :=
    (h.insertItem m (by simpa [Item.not, Item.player] using hq)).onPortions m q id _
  unfold World.placePortion
  split
  · exact h
  · dsimp only
    split
    · split
      · exact h.makePortion e m hq id due ms _
      · exact deferred
    · exact deferred

/-! ## The tests and retries after an event -/

theorem closeTag (h : w.Rid p c) (m : Fin 4) (t : Fin 15) : (w.closeTag m t).Rid p c := by
  unfold World.closeTag
  split
  · exact h
  · next hold _ =>
    dsimp only
    have removed : (if (hold.go == .pending &&
        !((w.link m).stage.filter (·.tag == tagNo t)).any Entry.keepsGo) = true
        then w.onLink m (Link.removeGo t) else w).Rid p c := by
      split
      · exact h.onLink m _ rfl rfl
      · exact h
    split
    · exact (removed.onLink m _ rfl rfl).onPortions _ _ _ _
    · exact removed

theorem makeHead (h : w.Rid p c) {e : Env} {m : Fin 4} (hv : w.makeHead e m = some v) : v.Rid p c := by
  have head (i : Item) (is : List Item) (hd : (w.link m).deferred = i :: is) :
      i.not p ∧ (w.onLink m fun k => { k with deferred := is }).Rid p c :=
    ⟨(h.lists m).deferred i (by rw [hd]; exact List.mem_cons_self),
      h.onDeferred m _ rfl fun j hj => (h.lists m).deferred j (by rw [hd]; exact List.mem_cons_of_mem _ hj)⟩
  unfold World.makeHead at hv
  dsimp only at hv
  split at hv
  · cases hv
  · next ref a q look due is hd =>
    obtain ⟨other, rest⟩ := head _ _ hd
    split at hv
    · cases hv
      exact rest.addEntry e m other
    · cases hv
  · next q id due ms is hd =>
    obtain ⟨other, rest⟩ := head _ _ hd
    have hq : q ≠ p := fun hq => other (congrArg some hq)
    split at hv
    · cases hv
    · split at hv
      · cases hv
        have judged : ((w.onLink m fun k => { k with deferred := is }).rejudge m q ms).2.Rid p c :=
          rest.each _ _ fun _ _ _ hv => hv.count hq _
        split
        · exact judged.onPortions _ _ _ _
        · exact judged.makePortion e m hq _ _ _ _
      · cases hv

theorem retryHead (h : w.Rid p c) (e : Env) (m : Fin 4) : (w.retryHead e m).1.Rid p c := by
  unfold World.retryHead
  split
  · split
    · next hv => exact h.makeHead hv
    · exact h.onLink m _ rfl rfl
  · exact h

theorem closeTags (h : w.Rid p c) (m : Fin 4) : (w.closeTags m).Rid p c :=
  h.each _ _ fun t _ _ hv => hv.closeTag m t

theorem retryLink (h : w.Rid p c) (e : Env) (m : Fin 4) (n : Nat) : (w.retryLink e m n).Rid p c := by
  induction n generalizing w with
  | zero => exact h.closeTags m
  | succ n ih =>
    unfold World.retryLink
    dsimp only
    split
    · exact ih ((h.closeTags m).retryHead e m)
    · exact (h.closeTags m).retryHead e m

theorem tidy (h : w.Rid p c) (e : Env) : (w.tidy e).Rid p c :=
  h.each _ _ fun m _ _ hv => hv.retryLink e m _

/-! ## Individual takes and rejoins -/

theorem dropItems (h : w.Rid p c) (m : Fin 4) (f : Item → Bool) : (w.dropItems m f).Rid p c := by
  refine (h.onDeferred m _ rfl fun i hi => (h.lists m).deferred i (List.mem_filter.1 hi).1).each _ _
    fun i _ v hv => ?_
  split
  · exact hv.onPortions _ _ _ _
  · exact hv.onZone _ _

theorem withdrawTake (h : w.Rid p c) (e : Env) (z : Fin 64) : (w.withdrawTake e z).Rid p c := by
  unfold World.withdrawTake
  split
  · exact h
  · exact ((h.each _ _ fun x _ _ hv => hv.removeEntry _ x _).dropItems _ _).tidy e

theorem makeTake (h : w.Rid p c) (e : Env) (z : Fin 64) {o : Option (Fin 8)} (ho : o ≠ some p)
    (look : LookCopy) (k : TakeKind) : (w.makeTake e z o look k).Rid p c := by
  unfold World.makeTake placeSingle
  refine (h.withdrawTake e z).withRef _ fun ref v hv => ?_
  dsimp only
  split
  · exact (hv.onZone z _).addEntry e _ ho
  · exact (hv.onZone z _).insertItem _ ho

theorem fallbackTake (h : w.Rid p c) (e : Env) (z : Fin 64) : (w.fallbackTake e z).Rid p c := by
  unfold World.fallbackTake
  split
  · exact h.makeTake e z (by simp) _ _
  · exact h

/-- A zone that joins the deferred portions of another player. -/
theorem joinDeferred (h : w.Rid p c) (m : Fin 4) (f : Item → Item) (hf : ∀ i, (f i).player = i.player) :
    (w.onLink m fun k => { k with deferred := k.deferred.map f }).Rid p c := by
  refine h.onDeferred m _ rfl fun i hi => ?_
  obtain ⟨j, hj, rfl⟩ := List.mem_map.1 hi
  rw [Item.not, hf]
  exact (h.lists m).deferred j hj

theorem rejoinGroup (h : w.Rid p c) (e : Env) (z : Fin 64) (hq : q ≠ p) (g : GroupRec) (look : LookCopy) :
    (w.rejoinGroup e z q g look).Rid p c := by
  unfold World.rejoinGroup
  dsimp only
  split
  · refine h.joinDeferred _ _ fun i => ?_
    cases i with
    | group => dsimp only; split <;> rfl
    | single => rfl
  · split
    · split
      · exact h.placePortion e _ hq _ _ _
      · split
        · exact h.addMember e _ hq _ _ _ _ _ _
        · exact h.countTake e (by simpa using hq) _
    · exact h.placePortion e _ hq _ _ _
  · exact h.placePortion e _ hq _ _ _

theorem rejoin (h : w.Rid p c) (e : Env) (z : Fin 64) (hq : q ≠ p) (part : Fin 16) :
    (w.rejoin e z q part).Rid p c := by
  refine tidy (h.each _ _ fun g _ v hv => ?_) e
  split
  · exact hv
  · exact hv.rejoinGroup e z hq g _

end Rid
end World
end Sys2Proof.Machine
end

section
/-! SUPPORT. What a player's end clears (R85): its takes withdrawn, its claims released; and the links' choice of their
next frames, which puts nothing of it back (R143). -/

namespace Sys2Proof.Machine
namespace World

namespace Rid
variable {p : Fin 8} {c : Player} {w v : World}

/-! ## Releases (R97, R98) -/

theorem rejoinOwner (h : w.Rid p c) (e : Env) {z : Fin 64} (hz : ∀ y ∈ (w.zone z).claims, y.player ≠ p) :
    (w.rejoinOwner e z).Rid p c := by
  unfold World.rejoinOwner
  split
  · exact h
  · next y hy => exact h.rejoin e z (hz y (List.mem_of_head? hy)) _

theorem gain (h : w.Rid p c) (e : Env) {z : Fin 64} (hz : ∀ y ∈ (w.zone z).claims, y.player ≠ p) :
    (w.gain e z).Rid p c := by
  have owner : w.owner z ≠ some p := by
    intro ho
    obtain ⟨y, hy, hp⟩ := Option.map_eq_some_iff.1 ho
    exact hz y (List.mem_of_head? hy) hp
  unfold World.gain
  split
  · split
    · next look _ =>
      refine rejoinOwner (h.makeTake e z owner look .catchUp) e ?_
      rw [((Kept.refl w).makeTake e z _ look .catchUp).claims z]
      exact hz
    · exact h.rejoinOwner e hz
  · exact h

theorem releaseZone (h : w.Rid p c) (e : Env) (z : Fin 64) : (w.releaseZone e p z).Rid p c := by
  have left := h.onZone z fun r => { r with claims := r.claims.filter (·.player != p) }
  unfold World.releaseZone
  dsimp only
  split
  · exact h
  · split
    · exact left
    · split
      · exact left.fallbackTake e z
      · refine left.gain e fun y hy => ?_
        rw [onZone_zone, if_pos rfl] at hy
        simpa using (List.mem_filter.1 hy).2

/-! ## The links' next frames (R143, R144) -/

theorem withMarks (h : w.Rid p c) (k : Controller) : ({ w with ctl := k } : World).Rid p c :=
  h.same rfl rfl fun _ => rfl

theorem enterLink (h : w.Rid p c) (e : Env) (l : Fin 4) (s : LinkState) : (w.enterLink e l s).Rid p c :=
  (h.onLink l _ rfl rfl).raise e _

theorem enterQuiescing (h : w.Rid p c) (e : Env) (l : Fin 4) : (w.enterQuiescing e l).Rid p c :=
  (h.enterLink e l _).onLink l _ rfl rfl

theorem comeUp (h : w.Rid p c) (e : Env) (l : Fin 4) : (w.comeUp e l).Rid p c := by
  unfold World.comeUp
  split
  · exact h.enterQuiescing e l
  · exact h.enterLink e l _

/-- An entry that its driver loses: one of the player is dropping, and that is not counted. -/
theorem loseEntry (h : w.Rid p c) (e : Env) (l : Fin 4) {x : Entry} (hx : x.leaves p) :
    (w.loseEntry e l x).Rid p c := by
  have ended (fin : EntryEnd) : (w.endEntry l x fin).Rid p c := by
    refine ⟨h.player, h.groups, fun m => ⟨fun y hy => ?_, fun i hi => ?_⟩⟩
    · rw [endEntry_link] at hy
      split at hy
      · exact (h.lists m).stage y (List.mem_filter.1 hy).1
      · exact (h.lists m).stage y hy
    · rw [endEntry_link] at hi
      split at hi
      · exact (h.lists m).deferred i hi
      · exact (h.lists m).deferred i hi
  unfold World.loseEntry
  split
  · exact ended _
  · next live =>
    refine (ended _).countTake e (fun hp => ?_) _
    have drop := hx hp
    unfold Entry.dropping at drop
    split at drop
    · next stop stage hs => exact live stop stage hs
    · cases drop

theorem onDriver (h : w.Rid p c) (l : Fin 4) (a : Fin 16) (f : Driver → Driver) :
    (w.onDriver l a f).Rid p c := h.onLink l _ rfl rfl

theorem loseEntries (h : w.Rid p c) (e : Env) (l : Fin 4) (a : Fin 16) : (w.loseEntries e l a).Rid p c :=
  h.each _ _ fun _ hx _ hv => hv.loseEntry e l ((h.lists l).stage _ (List.mem_filter.1 hx).1)

theorem dropDriver (h : w.Rid p c) (e : Env) (l : Fin 4) (s : DriverState) (a : Fin 16) :
    (w.dropDriver e l s a).Rid p c := by
  unfold World.dropDriver
  split
  · unfold World.loseDriver World.driverEntriesEnd
    exact (Rid.loseEntries ((h.onDriver l a _).onLink l _ rfl rfl) e l a).tidy e
  · exact h.onDriver l a _

theorem linkAsleep (h : w.Rid p c) (e : Env) (l : Fin 4) : (w.linkAsleep e l).Rid p c :=
  (h.enterLink e l _).withMarks _

theorem sendForce (h : w.Rid p c) (e : Env) (l : Fin 4) : (w.sendForce e l).Rid p c :=
  (Rid.each (Rid.onLink (h.onLink l _ rfl rfl) l _ rfl rfl) _ _ fun a _ _ hv =>
    hv.dropDriver e l .asleep a).linkAsleep e l

theorem sendWake (h : w.Rid p c) (e : Env) (l : Fin 4) : (w.sendWake e l).Rid p c :=
  Rid.enterLink (Rid.onLink (h.onLink l _ rfl rfl) l _ rfl rfl) e l _

theorem startTransfer (h : w.Rid p c) (l : Fin 4) (f : TxFrame) (a : Fin 16) :
    (w.startTransfer l f a).Rid p c := h.onLink l _ rfl rfl

theorem restartWake (h : w.Rid p c) {l : Fin 4} (hv : w.restartWake l = some v) : v.Rid p c := by
  unfold World.restartWake at hv
  split at hv
  · cases hv
    exact h.onLink l _ rfl rfl
  · cases hv

theorem sendGoOrPending (h : w.Rid p c) {l : Fin 4} (hv : w.sendGoOrPending l = some v) : v.Rid p c := by
  unfold World.sendGoOrPending at hv
  dsimp only at hv
  split at hv
  · cases hv
    exact h.onLink l _ rfl rfl
  · cases hv
    exact Rid.startTransfer (h.onLink l _ rfl rfl) l _ _
  · cases hv

theorem sendStage (h : w.Rid p c) {l : Fin 4} (hv : w.sendStage l = some v) : v.Rid p c := by
  obtain ⟨x, -, rfl⟩ := Option.map_eq_some_iff.1 hv
  exact h.startTransfer l _ _

theorem sendRefresh (h : w.Rid p c) {l : Fin 4} (hv : w.sendRefresh l = some v) : v.Rid p c := by
  obtain ⟨a, -, ha⟩ := List.exists_of_findSome?_eq_some hv
  split at ha
  · obtain ⟨x, -, rfl⟩ := Option.map_eq_some_iff.1 ha
    exact h.startTransfer l _ _
  · cases ha

theorem sendPoll (h : w.Rid p c) {l : Fin 4} (hv : w.sendPoll l = some v) : v.Rid p c := by
  obtain ⟨x, -, rfl⟩ := Option.map_eq_some_iff.1 hv
  exact h.startTransfer l _ _

theorem scanTurn (h : w.Rid p c) {l : Fin 4} (hv : w.scanTurn l = some v) : v.Rid p c := by
  unfold World.scanTurn at hv
  split at hv
  · cases hv
  · split at hv
    · cases hv
      exact h.onLink l _ rfl rfl
    · split at hv
      · cases hv
      · cases hv
        exact h.startTransfer l _ _

theorem calTurn (h : w.Rid p c) {l : Fin 4} (hv : w.calTurn l = some v) : v.Rid p c := by
  unfold World.calTurn at hv
  split at hv
  · cases hv
  · split at hv
    · cases hv
    · split at hv
      · cases hv
        exact Rid.startTransfer (h.onLink l _ rfl rfl) l _ _
      · cases hv
      · cases hv
        exact h.onLink l _ rfl rfl

theorem quiesceTurn (h : w.Rid p c) {l : Fin 4} (hv : w.quiesceTurn l = some v) : v.Rid p c := by
  obtain ⟨x, -, rfl⟩ := Option.map_eq_some_iff.1 hv
  exact Rid.startTransfer (h.onLink l _ rfl rfl) l _ _

/-- The first choice that exists is one of the choices. -/
theorem firstOf {cs : List (Option World)} (hc : ∀ o ∈ cs, ∀ v, o = some v → v.Rid p c)
    (hv : Machine.firstOf cs = some v) : v.Rid p c := by
  obtain ⟨o, ho, hv⟩ := List.exists_of_findSome?_eq_some hv
  exact hc o ho v hv

theorem chooseFrame (h : w.Rid p c) {e : Env} {l : Fin 4} (hv : w.chooseFrame e l = some v) :
    v.Rid p c := by
  unfold World.chooseFrame at hv
  dsimp only at hv
  split at hv
  · cases hv
  split at hv
  · cases hv
    exact h.sendForce e l
  split at hv
  · cases hv
    exact h.sendWake e l
  split at hv
  case h_1 =>
    refine firstOf ?_ hv
    simp only [List.forall_mem_cons]
    exact ⟨fun _ => h.restartWake, fun _ => h.sendGoOrPending, fun _ => h.sendStage,
      fun _ => h.sendRefresh, fun _ => h.sendPoll, by simp⟩
  case h_2 =>
    refine firstOf ?_ hv
    simp only [List.forall_mem_cons]
    exact ⟨fun _ => h.sendGoOrPending, fun _ => h.scanTurn, by simp⟩
  case h_3 =>
    refine firstOf ?_ hv
    simp only [List.forall_mem_cons]
    exact ⟨fun _ => h.sendGoOrPending, fun _ => h.sendStage, fun _ => h.calTurn, by simp⟩
  case h_4 =>
    refine firstOf ?_ hv
    simp only [List.forall_mem_cons]
    exact ⟨fun _ => h.sendGoOrPending, fun _ => h.sendStage, fun _ => h.quiesceTurn, by simp⟩
  case h_5 => cases hv

theorem choose (h : w.Rid p c) {e : Env} {l : Fin 4} (hv : w.choose e l = some v) : v.Rid p c := by
  unfold World.choose at hv
  split at hv
  · cases hv
    exact Rid.comeUp ((h.onLink l _ rfl rfl).raise e _) e l
  · split at hv
    · cases hv
      exact h.linkAsleep e l
    · exact h.chooseFrame hv

theorem pump (h : w.Rid p c) (e : Env) (l : Fin 4) : (w.pump e l).Rid p c := by
  unfold World.pump
  generalize 64 = n
  induction n generalizing w with
  | zero => exact h
  | succ n ih =>
    unfold World.pumpFor
    split
    · exact h
    · next hv => exact ih (h.choose hv)

/-- The dark test orders links to quiesce, and their lists stay (R155, R179). -/
theorem autoDark (h : w.Rid p c) (e : Env) : (w.autoDark e).Rid p c := by
  refine w.autoDark_induct e h h.withMarks fun k => ?_
  refine Rid.each (((h.withMarks k).withMarks _).raise e _) _ _ fun l _ v hv => ?_
  unfold World.quiesceOrder
  split
  · exact hv.enterQuiescing e l
  · exact hv

end Rid

/-! ## A player's takes withdrawn (R130) -/

section
variable (w : World) (e : Env) (p : Fin 8)

/-- One link's part of a player withdrawal. -/
def withdrawOn (l : Fin 4) (w : World) : World :=
  (w.eachEntry l (fun x => x.player == some p) (World.withdrawEntry l)).dropItems l fun i =>
    match i with
    | .group q _ _ _ => q == p
    | .single _ _ q _ _ => q == some p

theorem withdrawPlayer_eq : w.withdrawPlayer e p =
    ({ w.each (upTo 4) (withdrawOn p) with
      groups := (w.each (upTo 4) (withdrawOn p)).groups.filter (·.player != p) } : World).tidy e := rfl

end
end World
end Sys2Proof.Machine
end

section
/-! SUPPORT. What a player's end clears, put together (R85): unless the player is DRY, nothing of it is left in the
dispatcher and no zone of its map keeps its claim, while the player's counters stand. -/

namespace Sys2Proof.Machine
namespace World

section
variable (w : World) (e : Env) (p : Fin 8)

/-! ## One link's part of the withdrawal -/

theorem removeEntry_players (l : Fin 4) (x : Entry) (stop : DropEnd) :
    (w.removeEntry l x stop).players = w.players := by
  unfold removeEntry
  split <;> rfl

theorem dropItems_players (l : Fin 4) (f : Item → Bool) : (w.dropItems l f).players = w.players := by
  refine each_induct (fun v => v.players = w.players) _ (fun i v hv => ?_) _ _ rfl
  split <;> exact hv

theorem withdrawOn_players (l : Fin 4) : (w.withdrawOn p l).players = w.players := by
  unfold withdrawOn
  rw [dropItems_players]
  exact each_induct (fun v => v.players = w.players) _
    (fun x v hv => (v.removeEntry_players l x _).trans hv) _ _ rfl

theorem Holds.dropItems {P : Entry → Prop} {Q : Item → Prop} {w : World} {m : Fin 4} (h : w.Holds m P Q)
    (l : Fin 4) (f : Item → Bool) : (w.dropItems l f).Holds m P Q := by
  refine ⟨fun x hx => ?_, fun i hi => ?_⟩
  · rw [dropItems_link] at hx
    split at hx <;> exact h.stage x hx
  · rw [dropItems_link] at hi
    split at hi
    · exact h.deferred i (List.mem_filter.1 hi).1
    · exact h.deferred i hi

/-- A link that is rid of the player stays so while another is withdrawn from. -/
theorem Holds.withdrawOn {p q : Fin 8} {w : World} {m : Fin 4} (h : w.Holds m (Entry.leaves p) (Item.not p))
    (l : Fin 4) : (w.withdrawOn q l).Holds m (Entry.leaves p) (Item.not p) :=
  dropItems (h.each _ _ fun x _ _ hv => hv.removeEntry (kinds_leaves p) l x _) l _

/-- The withdrawal from a link leaves nothing of the player there but on its way out (R129, R130). -/
theorem withdrawOn_lists (l : Fin 4) : (w.withdrawOn p l).Holds l (Entry.leaves p) (Item.not p) := by
  unfold withdrawOn
  refine ⟨fun x hx hp => ?_, fun i hi hp => ?_⟩
  · rw [dropItems_link, if_pos rfl] at hx
    refine w.removeEach_dropping l .withdrawn (fun x => x.player == some p) _ (fun y hy hq => ?_) x hx
      (by simpa using hp)
    exact Or.inr (List.mem_filter.2 ⟨hy, hq⟩)
  · rw [dropItems_link, if_pos rfl] at hi
    obtain ⟨-, stays⟩ := List.mem_filter.1 hi
    cases i with
    | group q => exact absurd hp (by simpa [Item.player] using stays)
    | single ref a q => exact absurd hp (by simpa [Item.player] using stays)

theorem withdrawEach_lists (ls : List (Fin 4)) (m : Fin 4)
    (h : m ∈ ls ∨ w.Holds m (Entry.leaves p) (Item.not p)) :
    (w.each ls (withdrawOn p)).Holds m (Entry.leaves p) (Item.not p) := by
  induction ls generalizing w with
  | nil => exact h.resolve_left (List.not_mem_nil)
  | cons l ls ih =>
    refine ih _ ?_
    rcases h with h | h
    · rcases List.mem_cons.1 h with rfl | h
      · exact Or.inr (w.withdrawOn_lists p m)
      · exact Or.inl h
    · exact Or.inr (h.withdrawOn l)

theorem withdrawEach_players (ls : List (Fin 4)) : (w.each ls (withdrawOn p)).players = w.players :=
  each_induct (fun v => v.players = w.players) _ (fun l v hv => (v.withdrawOn_players p l).trans hv) _ _ rfl

/-! ## What is left of the player -/

/-- A player withdrawal rids the dispatcher of it, and counts nothing for it (R130). -/
theorem withdrawPlayer_rid : (w.withdrawPlayer e p).Rid p (w.player p) := by
  rw [withdrawPlayer_eq]
  have lists (m : Fin 4) := w.withdrawEach_lists p (upTo 4) m (Or.inl (List.mem_finRange m))
  have players := w.withdrawEach_players p (upTo 4)
  generalize w.each (upTo 4) (withdrawOn p) = v at lists players
  have rid : ({ v with groups := v.groups.filter (·.player != p) } : World).Rid p (w.player p) :=
    ⟨congrArg (Tab.get · p) players, fun g hg => by simpa using (List.mem_filter.1 hg).2,
      fun m => ⟨(lists m).stage, (lists m).deferred⟩⟩
  exact rid.tidy e

theorem cleared_rid (hd : (w.player p).dry = false) : (w.cleared e p).Rid p (w.player p) := by
  unfold cleared
  rw [hd]
  exact (w.withdrawPlayer_rid e p).each _ _ fun z _ _ hv => hv.releaseZone e z

/-- The counters stand as they were. -/
theorem cleared_player : (w.cleared e p).player p = w.player p := by
  cases hd : (w.player p).dry with
  | false => exact (w.cleared_rid e p hd).player
  | true => rw [cleared, if_pos hd]

theorem releaseZone_claims (z y : Fin 64) : ((w.releaseZone e p z).zone y).claims =
    if z = y then (w.zone y).claims.filter (·.player != p) else (w.zone y).claims := by
  have left : ((w.onZone z fun r => { r with claims := r.claims.filter (·.player != p) }).zone y).claims =
      if z = y then (w.zone y).claims.filter (·.player != p) else (w.zone y).claims := by
    rw [onZone_zone]
    split <;> rfl
  unfold releaseZone
  dsimp only
  split
  · next unclaimed =>
    split
    · next hz =>
      subst hz
      refine (List.filter_eq_self.2 fun y hy => ?_).symm
      simp only [Bool.not_eq_true', List.any_eq_false, beq_iff_eq] at unclaimed
      simpa using unclaimed y hy
    · rfl
  · split
    · exact left
    · split
      · rw [((Kept.refl _).fallbackTake e z).claims y, left]
      · rw [((Kept.refl _).gain e z).claims y, left]

/-- Claims once released are not taken back by the releases that follow. -/
theorem releaseEach_claims (zs : List (Fin 64)) (z : Fin 64)
    (h : z ∈ zs ∨ ∀ y ∈ (w.zone z).claims, y.player ≠ p) :
    ∀ y ∈ ((w.each zs (World.releaseZone e p)).zone z).claims, y.player ≠ p := by
  induction zs generalizing w with
  | nil => exact h.resolve_left List.not_mem_nil
  | cons x zs ih =>
    refine ih _ ?_
    rw [releaseZone_claims]
    split
    · refine Or.inr fun y hy => ?_
      simpa using (List.mem_filter.1 hy).2
    · next hx =>
      refine h.imp_left fun hm => ?_
      exact (List.mem_cons.1 hm).resolve_left (Ne.symm hx)

theorem cleared_claims (hd : (w.player p).dry = false) {z : Fin 64}
    (hz : (partOf (w.player p).zmap z).isSome = true) :
    ∀ y ∈ ((w.cleared e p).zone z).claims, y.player ≠ p := by
  unfold cleared
  rw [hd]
  exact releaseEach_claims _ e p _ z (Or.inl (mem_mapZones.2 hz))

variable (final : Progress) (abrupt : Bool)

theorem endBooking_zone (z : Fin 64) : (w.endBooking e p final abrupt).zone z = (w.cleared e p).zone z := by
  rw [endBooking_eq]
  simp [zone]

/-- A player's end, its player FREE, leaves nothing of it in the dispatcher. -/
theorem endBooking_rid (hd : (w.player p).dry = false) :
    (w.endBooking e p final abrupt).Rid p Player.free := by
  obtain ⟨-, groups, lists⟩ := w.cleared_rid e p hd
  refine ⟨w.endBooking_player e p final abrupt, ?_, fun l => (lists l).same ?_⟩
  · rw [endBooking_eq]
    simpa using groups
  · rw [endBooking_eq]
    simp [link]

end

end World
end Sys2Proof.Machine
end

section
/-! SUPPORT. A booking's end as its event leaves it (R84, R85), the wait list armed into the player that it frees
(R52, R53), and the points that end a booking. -/

namespace Sys2Proof.Machine
namespace World

/-! ## The wait list armed into a freed player (R52) -/

section
variable {w : World} {e : Env} {p : Fin 8}

theorem fillHead_none (h : (w.player p).state ≠ .free ∨ w.ctl.state = .parked ∨ w.plans.wait = []) :
    w.fillHead e p = none := by
  unfold fillHead
  split
  · rfl
  · next test =>
    obtain ⟨free, awake⟩ := not_or.1 test
    rw [(h.resolve_left free).resolve_left awake]

theorem fillFor_stays (h : (w.player p).state ≠ .free ∨ w.ctl.state = .parked ∨ w.plans.wait = [])
    (n : Nat) : w.fillFor e p n = w := by
  cases n with
  | zero => rfl
  | succ n =>
    rw [fillFor, fillHead_none h]

section
variable {id : Nat} {rest : List Nat} {bk : Bank} {x : BankEntry}
  (hs : (w.player p).state = .free) (hc : w.ctl.state ≠ .parked) (hw : w.plans.wait = id :: rest)
  (hb : w.activeBank = some bk) (hx : (w.bank bk).find id = some x)
include hs hc hw hb hx

/-- The head leaves the list as it is judged (R52, R53). -/
theorem fillHead_judged : w.fillHead e p =
    some ((w.withWait rest).fillJudged e p bk x.booking (w.late e bk x.booking)) := by
  have bank : (w.withWait rest).bank bk = w.bank bk := by cases bk <;> rfl
  have judged : (w.withWait rest).judgeLate e bk x.booking = w.late e bk x.booking := by
    rw [judgeLate, bank]
    rfl
  have taken : (w.withWait rest).fillWith e p bk id =
      (w.withWait rest).fillJudged e p bk x.booking (w.late e bk x.booking) := by
    rw [fillWith, bank, hx, ← judged]
  rw [fillHead, if_neg (not_or.2 ⟨not_not.2 hs, hc⟩), hw, hb, ← taken]
  rfl

theorem fillFor_judged (n : Nat) : w.fillFor e p (n + 1) =
    ((w.withWait rest).fillJudged e p bk x.booking (w.late e bk x.booking)).fillFor e p n := by
  rw [fillFor, fillHead_judged hs hc hw hb hx]

/-- A booking that is not late takes the freed player. -/
theorem freed_armed (ht : e.now + 150 ≤ civic (w.bank bk).date x.booking.start) :
    w.freed e p = (((w.withWait rest).seated e p bk x.booking .none).wakeCause e .arming).autoDark e := by
  have mark : w.late e bk x.booking = some .none := lateMark_timely ht
  have armed : (w.withWait rest).fillJudged e p bk x.booking (some .none)
      = ((w.withWait rest).seated e p bk x.booking .none).wakeCause e .arming := armInto_none ..
  rw [freed, hw, List.length_cons, fillFor_judged hs hc hw hb hx, mark, armed, fillFor_stays (Or.inl ?_)]
  rw [player, wakeCause_players, ← player, seated_player]
  exact PlayerState.noConfusion

end
end

/-! ## A booking's end leaves the others (R85) -/

/-- A report on another booking. -/
theorem find_reportOn_other {w : World} {p : Fin 8} {f : Report → Report} {bk : Bank} {id : Nat}
    (h : (w.player p).ref ≠ some (bk, id)) :
    ((w.reportOn p f).bank bk).find id = (w.bank bk).find id := by
  cases hr : (w.player p).ref with
  | none => rw [reportOn, hr]
  | some r =>
    obtain ⟨bj, j⟩ := r
    rw [reportOn_some hr, onOutcome, onEntry]
    by_cases hb : bj = bk
    · subst hb
      rw [onBank_bank, BankRec.find_onEntry (f := fun x => { x with outcome := f x.outcome }) fun _ => rfl]
      cases hx : (w.bank bj).find id with
      | none => rfl
      | some x =>
        have other : x.booking.id ≠ j := fun hj =>
          h (by rw [hr, ← hj, BankRec.find_id hx])
        rw [Option.map_some, if_neg other]
    · have other : bk = bj.other := by
        revert hb
        cases bk <;> cases bj <;> simp [Bank.other]
      rw [other, onBank_bank_other]

theorem activeBank_kept {w v : World} (h : w.plans.Kept v.plans) : v.activeBank = w.activeBank := by
  have a : v.plans.bankA.state = w.plans.bankA.state := h.state .a
  have b : v.plans.bankB.state = w.plans.bankB.state := h.state .b
  rw [activeBank, activeBank, a, b]

section
variable (w : World) (e : Env) (p : Fin 8) (final : Progress) (abrupt : Bool)

theorem endBooking_plansKept : w.plans.Kept (w.endBooking e p final abrupt).plans :=
  ((Moves.refl (bks := false) w).endBooking e p final abrupt).plansKept

theorem endBooking_opState : (w.endBooking e p final abrupt).ctl.state = w.ctl.state := by
  rw [endBooking_eq, ← (w.cleared_spared e p).opState]
  simp

theorem endBooking_find_other {bk : Bank} {id : Nat} (h : (w.player p).ref ≠ some (bk, id)) :
    ((w.endBooking e p final abrupt).bank bk).find id = (w.bank bk).find id := by
  have spared := w.cleared_spared e p
  have bank : (w.cleared e p).bank bk = w.bank bk := congrArg (Plans.bank · bk) spared.plans
  rw [endBooking_eq, ← bank]
  exact find_reportOn_other (by rwa [spared.ref p])

end
end World

/-! ## The events that end a booking -/

section
variable {s t : State} {p : Fin 8} {bk : Bank} {final : Progress} {abrupt : Bool}

/-- What a booking's end leaves once the links have chosen: its player FREE, its notice, its claims and takes gone but
for a DRY player's, and its outcome with the counters as they stood (R85). -/
theorem State.After.ended (after : s.After ((s.world.endBooking s.env p final abrupt).autoDark s.env) t)
    {id : Nat} {x : BankEntry} (hr : (s.world.player p).ref = some (bk, id))
    (hx : (s.world.bank bk).find id = some x) :
    t.world.player p = Player.free
      ∧ (t.world.notices.get (endNotice final).no).pending = true
      ∧ ((s.world.player p).dry = false → ∀ z, (partOf (s.world.player p).zmap z).isSome = true →
        ∀ y ∈ (t.world.zone z).claims, y.player ≠ p)
      ∧ ((s.world.player p).dry = false → t.world.Rid p Player.free)
      ∧ (t.world.bank bk).find id = some { x with outcome := ⟨final, abrupt, (s.world.player p).startTick,
        (s.world.player p).startTick.map fun _ => s.time.civic, (s.world.player p).counters⟩ } := by
  have kept := after.1.kept
  have free : ((s.world.endBooking s.env p final abrupt).autoDark s.env).player p = Player.free := by
    rw [World.player, World.autoDark_players]
    exact World.endBooking_player ..
  refine ⟨(kept.free p (by rw [free]; rfl)).trans free,
    kept.raised _ (World.autoDark_raised _ _ _ (World.endBooking_raises ..)), fun hd z hz => ?_,
    fun hd => ?_, ?_⟩
  · rw [kept.claims z, World.zone, World.autoDark_zones, ← World.zone, World.endBooking_zone]
    exact s.world.cleared_claims s.env p hd hz
  · rw [after.1.world]
    exact ((s.world.endBooking_rid s.env p final abrupt hd).autoDark s.env).each _ _ fun l _ _ hv =>
      hv.pump s.env l
  · have bank : t.world.bank bk = (s.world.endBooking s.env p final abrupt).bank bk := by
      rw [World.bank, kept.plans, World.autoDark_plans, World.bank]
    rw [bank, World.endBooking_find _ _ _ _ _ hr hx, World.cleared_player]
    rfl

/-- A point that ends a booking, with none waitlisted. -/
theorem State.pointEvent_ended {k : PointKind} (hh : s.held = false) (hr : s.reachOpen = true)
    (hw : s.world.plans.wait = []) (hk : s.env.firstPoint (s.world.player p) = some k)
    (ha : s.world.act s.env p k = s.world.finish s.env p final abrupt) :
    ∃ t, s.pointEvent p k (fun _ _ => true) = .next t
      ∧ s.After ((s.world.endBooking s.env p final abrupt).autoDark s.env) t := by
  rw [← World.finish_unwaited _ _ _ _ _ hw, ← ha]
  exact State.pointEvent_after hh hr hk

/-- A timely booking armed into the player that an ending frees, once the links have chosen (R52). -/
theorem State.After.refilled {id : Nat} {rest : List Nat} {x : BankEntry}
    (after : s.After (s.world.finish s.env p final abrupt) t) (hw : s.world.plans.wait = id :: rest)
    (hb : s.world.activeBank = some bk) (hx : (s.world.bank bk).find id = some x)
    (hr : (s.world.player p).ref ≠ some (bk, id)) (hc : s.world.ctl.state ≠ .parked)
    (ht : s.time.civic + 150 ≤ civic (s.world.bank bk).date x.booking.start) :
    (t.world.player p).state = .armed ∧ (t.world.player p).ref = some (bk, x.booking.id)
      ∧ (t.world.player p).copy.map (·.booking) = some x.booking ∧ t.world.plans.wait = rest := by
  have plans := s.world.endBooking_plansKept s.env p final abrupt
  have date : ((s.world.endBooking s.env p final abrupt).bank bk).date = (s.world.bank bk).date := plans.date bk
  have armed := World.freed_armed (e := s.env) (p := p) (by rw [World.endBooking_player]; rfl)
    (by rwa [World.endBooking_opState]) ((World.endBooking_wait ..).trans hw)
    ((World.activeBank_kept plans).trans hb)
    ((s.world.endBooking_find_other s.env p final abrupt hr).trans hx) (by rw [date]; exact ht)
  rw [World.finish, armed] at after
  have kept := after.1.kept
  refine ⟨?_, ?_, ?_, ?_⟩
  case _ | _ | _ =>
    rw [kept.player_eq p, World.player, World.autoDark_players, World.wakeCause_players, ← World.player,
      World.seated_player]
    rfl
  · rw [kept.plans, World.autoDark_plans, World.wakeCause_plans, World.seated_wait]
    rfl

end

/-- Settles O27: the ending points as one end of a booking, the wait list's head armed into the freed player, and the
wait list's turns. -/
theorem endingPointsRelease : Obligations.EndingPointsRelease := by
  refine ⟨fun s p bk id x hh hr hw => ?_, fun s p id rest bk k hh hr => ?_, fun w e p n => ⟨?_, ?_⟩⟩
  · intro c href hx ends
    have ended {i : Instr} {final : Progress} {abrupt : Bool}
        (h : ∃ t, exec i s = .next t
          ∧ s.After ((s.world.endBooking s.env p final abrupt).autoDark s.env) t) :
        ends i final abrupt (endNotice final) := by
      obtain ⟨t, ht, after⟩ := h
      obtain ⟨free, notice, claims, rid, found⟩ := after.ended href hx
      refine ⟨t, ht, after.1.base, free, notice, claims, fun hd => ?_, _, found, rfl, rfl, rfl, rfl, rfl, rfl⟩
      obtain ⟨-, groups, lists⟩ := rid hd
      exact ⟨groups, fun l => ⟨(lists l).stage, (lists l).deferred⟩⟩
    refine ⟨fun hk => ended (final := .notStarted) ?_, fun hk hs => ended (final := .notStarted) ?_,
      fun hk hs => ended (final := .endedAtTime) ?_, fun cause hk hc => ?_⟩
    · exact State.pointEvent_ended hh hr hw hk rfl
    · refine State.pointEvent_ended hh hr hw hk ?_
      rcases hs with hs | hs
      all_goals
        rw [World.act, hs]
    · refine State.pointEvent_ended hh hr hw hk ?_
      rw [World.act, hs]
    · have notice : endNotice cause.progress = .bookingEnded := by cases cause <;> rfl
      rw [← notice]
      exact ended (exec_releasePoint_unwaited hh hr hk hc hw)
  · intro c hk hw hb hx href hc ht
    obtain ⟨t, he, after⟩ := State.pointEvent_after hh hr hk
    obtain ⟨state, ref, copy, wait⟩ := State.After.refilled after hw hb hx href hc ht
    exact ⟨t, he, after.1.base, state, ref, copy, wait⟩
  · exact fun h => World.fillFor_stays h n
  · intro id rest bk x hs hc hw hb hx k d left
    rw [World.fillFor_judged hs hc hw hb hx]
    have judged : w.late e bk x.booking =
        lateMark e.now (civic d k.start) k (k.endPoint d) (e.lib.showRec k.showNo).length := rfl
    have same : x.booking.id = id := BankRec.find_id hx
    rw [judged]
    cases lateMark e.now (civic d k.start) k (k.endPoint d) (e.lib.showRec k.showNo).length with
    | none => rw [World.fillJudged, World.skipLate, same]; rfl
    | some m => rfl

end Sys2Proof.Machine
end

section
/-! SUPPORT. A group withdrawn from the dispatcher (R129, R130): neither its record nor a deferred item of it is left, and
no entry of it but on its way out; and a player's hands cut at a tick, each cut group so withdrawn (R65, R75). -/

namespace Sys2Proof.Machine

/-- An entry of the player's group is on its way out. -/
def Entry.leavesGroup (p : Fin 8) (id : GroupId) (x : Entry) : Prop :=
  x.player = some p → x.group = some id → x.dropping = true

/-- The item is not the player's group. -/
def Item.notGroup (p : Fin 8) (id : GroupId) (i : Item) : Prop := ∀ due ms, i ≠ .group p id due ms

namespace World

/-! ## The groups by player and identity -/

/-- The groups on record, each by its player and its identity. -/
def groupKeys (w : World) : List (Fin 8 × GroupId) := w.groups.map fun g => (g.player, g.id)

theorem groupKeys_congr {v w : World} (h : v.groups = w.groups) : v.groupKeys = w.groupKeys := by
  rw [groupKeys, h, groupKeys]

section
variable (w : World) (e : Env) (l : Fin 4) (p : Fin 8) (id : GroupId)

theorem onPortions_groupKeys (f : List Portion → List Portion) :
    (w.onPortions l p id f).groupKeys = w.groupKeys := by
  unfold groupKeys onPortions
  rw [List.map_map]
  refine List.map_congr_left fun g _ => ?_
  simp only [Function.comp_apply]
  split <;> rfl

theorem count_groups (f : Counters → Counters) : (w.count p f).groups = w.groups := by
  unfold count
  split <;> rfl

theorem countTake_groups (o : Option (Fin 8)) (f : Counters → Counters) :
    (w.countTake e o f).groups = w.groups := by
  unfold countTake
  split
  · rfl
  · split
    · rfl
    · exact w.count_groups _ f

theorem removeEntry_groups (x : Entry) (stop : DropEnd) : (w.removeEntry l x stop).groups = w.groups := by
  unfold removeEntry
  split <;> rfl

theorem discardEntry_groups (x : Entry) : (w.discardEntry e l x).groups = w.groups := by
  unfold discardEntry
  split
  · rfl
  · rw [countTake_groups, removeEntry_groups]

theorem addEntry_groups (x : Entry) : (w.addEntry e l x).groups = w.groups := by
  unfold addEntry
  dsimp only
  split <;> rfl

theorem addMember_groups (due : Nat) (t : Fin 15) (lead : Nat) (s : EntryState) (m : Member) :
    (w.addMember e l p id due t lead s m).groups = w.groups :=
  each_induct (fun v => v.groups = w.groups) _ (fun x v hv => (v.discardEntry_groups e l x).trans hv) _ _
    (addEntry_groups _ e l _)

theorem makePortion_groupKeys (due : Nat) (ms : List Member) (t : Fin 15) :
    (w.makePortion e l p id due ms t).groupKeys = w.groupKeys := by
  unfold makePortion
  rw [onPortions_groupKeys]
  exact each_induct (fun v => v.groupKeys = w.groupKeys) _
    (fun m v hv => (groupKeys_congr (v.addMember_groups e l p id due t _ _ m)).trans hv) _ _ rfl

/-- A tag freed marks its portion and no more. -/
theorem closeTag_groupKeys (t : Fin 15) : (w.closeTag l t).groupKeys = w.groupKeys := by
  unfold closeTag
  split
  · rfl
  · dsimp only
    split
    · rw [onPortions_groupKeys]
      split <;> rfl
    · split <;> rfl

theorem makeHead_groupKeys {v : World} (hv : w.makeHead e l = some v) : v.groupKeys = w.groupKeys := by
  unfold makeHead at hv
  dsimp only at hv
  split at hv
  · cases hv
  · split at hv
    · cases hv
      exact groupKeys_congr (addEntry_groups _ e l _)
    · cases hv
  · next q id due ms rest hd =>
    split at hv
    · cases hv
    · split at hv
      · cases hv
        have judged : ((w.onLink l fun k => { k with deferred := rest }).rejudge l q ms).2.groupKeys
            = w.groupKeys :=
          each_induct (fun v => v.groupKeys = w.groupKeys) _
            (fun _ v hv => (groupKeys_congr (v.count_groups q _)).trans hv) _ _ rfl
        split
        · exact (onPortions_groupKeys ..).trans judged
        · exact (makePortion_groupKeys ..).trans judged
      · cases hv

theorem closeTags_groupKeys : (w.closeTags l).groupKeys = w.groupKeys :=
  each_induct (fun v => v.groupKeys = w.groupKeys) _
    (fun t v hv => (v.closeTag_groupKeys l t).trans hv) _ _ rfl

theorem retryHead_groupKeys : (w.retryHead e l).1.groupKeys = w.groupKeys := by
  unfold retryHead
  split
  · split
    · next hv => exact w.makeHead_groupKeys e l hv
    · rfl
  · rfl

theorem retryLink_groupKeys (n : Nat) : (w.retryLink e l n).groupKeys = w.groupKeys := by
  induction n generalizing w with
  | zero => exact w.closeTags_groupKeys l
  | succ n ih =>
    have retried := (retryHead_groupKeys _ e l).trans (w.closeTags_groupKeys l)
    unfold retryLink
    dsimp only
    split
    · exact (ih _).trans retried
    · exact retried

/-- The tests and retries after an event record no group and forget none. -/
theorem tidy_groupKeys : (w.tidy e).groupKeys = w.groupKeys :=
  each_induct (fun v => v.groupKeys = w.groupKeys) _
    (fun l v hv => (v.retryLink_groupKeys e l _).trans hv) _ _ rfl

theorem mem_groupKeys : (p, id) ∈ w.groupKeys ↔ ∃ g ∈ w.groups, g.player = p ∧ g.id = id := by
  simp [groupKeys]

end

/-! ## A group withdrawn (R130) -/

theorem kinds_leavesGroup (p : Fin 8) (id : GroupId) :
    Kinds (Entry.leavesGroup p id) (Item.notGroup p id) where
  drop _ _ _ _ := fun _ _ => rfl
  single _ _ _ _ _ _ := fun _ hg => by cases hg
  group q j due ms hi _ _ _ _ _ := fun hp hj => by
    cases hp
    cases hj
    exact absurd rfl (hi due ms)

/-- The dispatcher holds nothing of the player's group but entries on their way out. -/
structure GroupGone (p : Fin 8) (id : GroupId) (w : World) : Prop where
  record : (p, id) ∉ w.groupKeys
  lists : ∀ l, w.Holds l (Entry.leavesGroup p id) (Item.notGroup p id)

/-- One link's part of a group withdrawal. -/
def withdrawGroupOn (p : Fin 8) (id : GroupId) (l : Fin 4) (w : World) : World :=
  (w.eachEntry l (fun x => x.player == some p && x.group == some id) (World.withdrawEntry l)).dropItems l
    fun i =>
      match i with
      | .group q j _ _ => q == p && j == id
      | .single .. => false

section
variable (w : World) (e : Env) (p : Fin 8) (id : GroupId)

theorem withdrawGroup_eq : w.withdrawGroup e p id =
    ({ w.each (upTo 4) (withdrawGroupOn p id) with
      groups := (w.each (upTo 4) (withdrawGroupOn p id)).groups.filter fun g =>
        !(g.player == p && g.id == id) } : World).tidy e := rfl

/-- The withdrawal from a link leaves nothing of the group there but on its way out (R129, R130). -/
theorem withdrawGroupOn_lists (l : Fin 4) :
    (w.withdrawGroupOn p id l).Holds l (Entry.leavesGroup p id) (Item.notGroup p id) := by
  unfold withdrawGroupOn
  refine ⟨fun x hx hp hg => ?_, fun i hi due ms hg => ?_⟩
  · rw [dropItems_link, if_pos rfl] at hx
    refine w.removeEach_dropping l .withdrawn (fun x => x.player == some p && x.group == some id) _
      (fun y hy hq => Or.inr (List.mem_filter.2 ⟨hy, hq⟩)) x hx (by simp [hp, hg])
  · rw [dropItems_link, if_pos rfl] at hi
    subst hg
    simpa using (List.mem_filter.1 hi).2

theorem withdrawGroupOn_groupKeys (l : Fin 4) : (w.withdrawGroupOn p id l).groupKeys = w.groupKeys := by
  have entries : (w.eachEntry l (fun x => x.player == some p && x.group == some id)
      (World.withdrawEntry l)).groupKeys = w.groupKeys :=
    each_induct (fun v => v.groupKeys = w.groupKeys) _
      (fun x v hv => (groupKeys_congr (v.removeEntry_groups l x _)).trans hv) _ _ rfl
  refine each_induct (fun v => v.groupKeys = w.groupKeys) _ (fun i v hv => ?_) _ _ entries
  cases i with
  | group => exact (onPortions_groupKeys ..).trans hv
  | single => exact hv

end

section
variable {w : World} {p q : Fin 8} {id j : GroupId}

/-- A link rid of a group stays so while any group is withdrawn from any link. -/
theorem Holds.withdrawGroupOn {m : Fin 4} (h : w.Holds m (Entry.leavesGroup p id) (Item.notGroup p id))
    (l : Fin 4) : (w.withdrawGroupOn q j l).Holds m (Entry.leavesGroup p id) (Item.notGroup p id) :=
  dropItems (h.each _ _ fun x _ _ hv => hv.removeEntry (kinds_leavesGroup p id) l x _) l _

theorem withdrawGroupEach_lists (ls : List (Fin 4)) (m : Fin 4)
    (h : m ∈ ls ∨ w.Holds m (Entry.leavesGroup p id) (Item.notGroup p id)) :
    (w.each ls (withdrawGroupOn p id)).Holds m (Entry.leavesGroup p id) (Item.notGroup p id) := by
  induction ls generalizing w with
  | nil => exact h.resolve_left List.not_mem_nil
  | cons l ls ih =>
    refine ih ?_
    rcases h with h | h
    · rcases List.mem_cons.1 h with rfl | h
      · exact Or.inr (w.withdrawGroupOn_lists p id m)
      · exact Or.inl h
    · exact Or.inr (h.withdrawGroupOn l)

theorem withdrawGroupEach_groupKeys (ls : List (Fin 4)) :
    (w.each ls (withdrawGroupOn p id)).groupKeys = w.groupKeys :=
  each_induct (fun v => v.groupKeys = w.groupKeys) _
    (fun l v hv => (v.withdrawGroupOn_groupKeys p id l).trans hv) _ _ rfl

/-- What a filter of the records leaves is among them. -/
theorem filter_groupKeys {f : GroupRec → Bool} {k : Fin 8 × GroupId}
    (h : k ∈ ({ w with groups := w.groups.filter f } : World).groupKeys) :
    k ∈ w.groupKeys ∧ ∃ g ∈ w.groups, f g = true ∧ (g.player, g.id) = k := by
  obtain ⟨g, hg, rfl⟩ := List.mem_map.1 h
  obtain ⟨mem, test⟩ := List.mem_filter.1 hg
  exact ⟨List.mem_map_of_mem mem, g, mem, test, rfl⟩

/-- A group withdrawal rids the dispatcher of the group (R130). -/
theorem withdrawGroup_gone (w : World) (e : Env) (p : Fin 8) (id : GroupId) :
    (w.withdrawGroup e p id).GroupGone p id := by
  rw [withdrawGroup_eq]
  have lists (m : Fin 4) := withdrawGroupEach_lists (w := w) (p := p) (id := id) (upTo 4) m
    (Or.inl (List.mem_finRange m))
  generalize w.each (upTo 4) (withdrawGroupOn p id) = v at lists
  have left (m : Fin 4) : ({ v with groups := v.groups.filter fun g => !(g.player == p && g.id == id) } :
      World).Holds m (Entry.leavesGroup p id) (Item.notGroup p id) := ⟨(lists m).stage, (lists m).deferred⟩
  refine ⟨fun hk => ?_, fun m => (left m).tidy (kinds_leavesGroup p id) e⟩
  rw [tidy_groupKeys] at hk
  obtain ⟨-, g, -, test, key⟩ := filter_groupKeys hk
  cases key
  simp at test

/-- A group once gone stays gone while another is withdrawn. -/
theorem GroupGone.withdrawGroup (h : w.GroupGone p id) (e : Env) : (w.withdrawGroup e q j).GroupGone p id := by
  rw [withdrawGroup_eq]
  have lists (m : Fin 4) := (h.lists m).each (upTo 4) (withdrawGroupOn q j) fun l _ _ hv =>
    hv.withdrawGroupOn l
  have keys := withdrawGroupEach_groupKeys (w := w) (p := q) (id := j) (upTo 4)
  generalize w.each (upTo 4) (withdrawGroupOn q j) = v at lists keys
  have left (m : Fin 4) : ({ v with groups := v.groups.filter fun g => !(g.player == q && g.id == j) } :
      World).Holds m (Entry.leavesGroup p id) (Item.notGroup p id) := ⟨(lists m).stage, (lists m).deferred⟩
  refine ⟨fun hk => h.record ?_, fun m => (left m).tidy (kinds_leavesGroup p id) e⟩
  rw [tidy_groupKeys] at hk
  rw [← keys]
  exact (filter_groupKeys hk).1

theorem GroupGone.same {v : World} (h : w.GroupGone p id) (hg : v.groups = w.groups)
    (hl : v.links = w.links) : v.GroupGone p id := by
  refine ⟨fun hk => h.record ?_, fun m => (h.lists m).same (congrArg (Tab.get · m) hl)⟩
  rwa [groupKeys_congr hg] at hk

/-- The parts of the dispatcher, each rid of the group. -/
theorem GroupGone.parts (h : w.GroupGone p id) : (∀ g ∈ w.groups, ¬(g.player = p ∧ g.id = id))
    ∧ ∀ l, (∀ x ∈ (w.link l).stage, x.player = some p → x.group = some id → x.dropping = true)
      ∧ ∀ due ms, Item.group p id due ms ∉ (w.link l).deferred :=
  ⟨fun g hg hk => h.record ((w.mem_groupKeys p id).2 ⟨g, hg, hk⟩),
    fun l => ⟨(h.lists l).stage, fun due ms hi => (h.lists l).deferred _ hi due ms rfl⟩⟩

theorem withdrawEach_gone (e : Env) (hs : List HandRec)
    (h : id ∈ hs.map (·.id) ∨ w.GroupGone p id) :
    (w.each hs fun r v => v.withdrawGroup e p r.id).GroupGone p id := by
  induction hs generalizing w with
  | nil => exact h.resolve_left List.not_mem_nil
  | cons r hs ih =>
    rw [each_cons]
    refine ih ?_
    rcases h with h | h
    · rcases List.mem_cons.1 h with rfl | h
      · exact Or.inr (w.withdrawGroup_gone e p _)
      · exact Or.inl h
    · exact Or.inr (h.withdrawGroup e)

/-! ## Hands cut (R65, R75) -/

/-- The groups of the cut hands are gone from the dispatcher. -/
theorem cutHands_gone (e : Env) (t : Nat) {h : HandRec} (hh : h ∈ (w.player p).hands) (ht : t ≤ h.due) :
    (w.cutHands e p t).GroupGone p h.id :=
  withdrawEach_gone e _ (Or.inl (List.mem_map_of_mem (List.mem_filter.2 ⟨hh, decide_eq_true ht⟩)))

end

section
variable (w : World) (e : Env) (p : Fin 8) (t : Nat)

/-- The cut hands leave the player's list, and their groups' withdrawal is the dispatcher's. -/
theorem cutHands_kept :
    (w.onPlayer p fun c => { c with hands := c.hands.filter fun h => h.due < t }).Kept (w.cutHands e p t) :=
  (Kept.refl _).each _ _ fun h _ hv => hv.withdrawGroup e p h.id

@[simp] theorem cutHands_bank (bk : Bank) : (w.cutHands e p t).bank bk = w.bank bk :=
  congrArg (Plans.bank · bk) (w.cutHands_kept e p t).plans

theorem cutHands_monitor : (w.cutHands e p t).monitor = w.monitor := (w.cutHands_kept e p t).monitor

theorem cutHands_claims (z : Fin 64) : ((w.cutHands e p t).zone z).claims = (w.zone z).claims :=
  (w.cutHands_kept e p t).claims z

end
end World
end Sys2Proof.Machine
end

section
/-! SUPPORT. The start of the main show (R65), with and without a PREROLL, and the start point (R64). -/

namespace Sys2Proof.Machine
namespace World

/-! ## The main show made ready, and begun (R65) -/

/-- The blocks before the main show's walk: with a PREROLL its later hands are cut, without one the zones are
claimed. -/
def mainReady (e : Env) (p : Fin 8) (preroll : Bool) (w : World) : World :=
  if preroll then w.cutHands e p (e.now + 150) else w.sendClaims e p

/-- The main show RUNNING from the MAIN EPOCH, 150 ticks after NOW, but for its stop condition. -/
def mainBegun (e : Env) (p : Fin 8) (preroll : Bool) (i : Nat) (sec : SectionRec) (w : World) : World :=
  (((w.mainReady e p preroll).onPlayer p fun d => { d with
    walk := some (.stands ⟨i, 0, sec.first⟩)
    epoch := some (e.now + 150)
    passes := some (if sec.passes = 0 then .endless else .left sec.passes) }).setStart p
      (e.now + 150)).enterState p .running

section
variable (w : World) (e : Env) (p : Fin 8) (preroll : Bool)

theorem mainReady_player : ∃ k, (w.mainReady e p preroll).player p = { w.player p with
    hands := if preroll then (w.player p).hands.filter (fun h => h.due < e.now + 150) else (w.player p).hands
    counters := k } := by
  cases preroll with
  | true => exact w.cutHands_player e p _
  | false => exact ⟨_, ((Spared.refl w).sendClaims e p).player_eq p⟩

theorem mainReady_bank (bk : Bank) : (w.mainReady e p preroll).bank bk = w.bank bk := by
  cases preroll with
  | true => exact w.cutHands_bank e p _ bk
  | false => exact congrArg (Plans.bank · bk) ((Spared.refl w).sendClaims e p).plans

theorem mainReady_monitor : (w.mainReady e p preroll).monitor = w.monitor := by
  cases preroll with
  | true => exact w.cutHands_monitor e p _
  | false => exact ((Spared.refl w).sendClaims e p).monitor

variable (i : Nat) (sec : SectionRec)

theorem mainBegun_player : { (w.mainBegun e p preroll i sec).player p with counters := (w.player p).counters } =
    { w.player p with
      state := .running
      startTick := some (e.now + 150)
      epoch := some (e.now + 150)
      walk := some (.stands ⟨i, 0, sec.first⟩)
      passes := some (if sec.passes = 0 then .endless else .left sec.passes)
      hands := if preroll then (w.player p).hands.filter (fun h => h.due < e.now + 150)
        else (w.player p).hands } := by
  obtain ⟨k, ready⟩ := w.mainReady_player e p preroll
  rw [mainBegun, enterState_player, setStart_player, onPlayer_player, if_pos rfl, ready]

theorem mainBegun_running : ((w.mainBegun e p preroll i sec).player p).state = .running :=
  (congrArg Player.state (w.mainBegun_player e p preroll i sec) :)

theorem mainBegun_copy : ((w.mainBegun e p preroll i sec).player p).copy = (w.player p).copy :=
  (congrArg Player.copy (w.mainBegun_player e p preroll i sec) :)

theorem mainBegun_monitor : (w.mainBegun e p preroll i sec).monitor = w.monitor := by
  rw [mainBegun, enterState_monitor, setStart_monitor]
  exact w.mainReady_monitor e p preroll

theorem mainBegun_find {bk : Bank} {id : Nat} {x : BankEntry} (hr : (w.player p).ref = some (bk, id))
    (hx : (w.bank bk).find id = some x) : ((w.mainBegun e p preroll i sec).bank bk).find id =
      some { x with outcome := { x.outcome with
        progress := .running, startTick := some (e.now + 150) } } := by
  obtain ⟨k, ready⟩ := w.mainReady_player e p preroll
  have ref : (((w.mainReady e p preroll).onPlayer p fun d => { d with
      walk := some (.stands ⟨i, 0, sec.first⟩)
      epoch := some (e.now + 150)
      passes := some (if sec.passes = 0 then .endless else .left sec.passes) }).player p).ref
        = some (bk, id) := by
    rw [onPlayer_player, if_pos rfl, ready]
    exact hr
  rw [mainBegun, find_enterState (by rw [setStart_player]; exact ref), find_setStart ref]
  change (((((w.mainReady e p preroll).bank bk).find id).map _).map _) = _
  rw [mainReady_bank, hx]
  rfl

/-- Only a show without a PREROLL claims its zones here (R65). -/
theorem mainBegun_claims {copy : BookingCopy} (hc : (w.player p).copy = some copy) (z : Fin 64) :
    ((w.mainBegun e p preroll i sec).zone z).claims =
      if preroll then (w.zone z).claims else w.claimsWith p copy z := by
  rw [mainBegun, zone, enterState_zones, setStart_zones, onPlayer_zones, ← zone]
  cases preroll with
  | true => exact w.cutHands_claims e p _ z
  | false => exact sendClaims_claims hc z

/-- The PREROLL's groups due from the MAIN EPOCH on are withdrawn (R65). -/
theorem mainBegun_gone {h : HandRec} (hh : h ∈ (w.player p).hands) (ht : e.now + 150 ≤ h.due) :
    (w.mainBegun e p true i sec).GroupGone p h.id := by
  refine (cutHands_gone e (e.now + 150) hh ht).same ?_ ?_
  all_goals
    simp only [mainBegun, enterState, setStart, reportOn_groups, reportOn_links, onPlayer_groups, onPlayer_links]
    rfl

end

/-! ## The main show started from any state -/

section
variable {w : World} {e : Env} {p : Fin 8} {copy : BookingCopy} {i : Nat} {sec : SectionRec} {preroll : Bool}
  (hc : (w.player p).copy = some copy)
  (hp : (e.lib.showRec copy.booking.showNo).parts.head?.any (·.kind == .preroll) = preroll)
  (hi : i = if preroll then 1 else 0)
  (hs : (e.lib.showRec copy.booking.showNo).parts[i]? = some sec)
include hc hp hi hs

theorem mainStart_eq : w.mainStart e p = (w.mainBegun e p preroll i sec).checkStop e p := by
  have shown : e.showOf (w.player p) = e.lib.showRec copy.booking.showNo := showOf_copy hc
  have pre : hasPreroll (e.lib.showRec copy.booking.showNo) = preroll := hp
  have first : firstMain (e.lib.showRec copy.booking.showNo) = i := by rw [firstMain, pre, hi]
  have walks : Player.walkFrom (e.lib.showRec copy.booking.showNo) i (e.now + Config.horizon) = _ :=
    funext fun d => walkFrom_some d hs
  rw [mainStart]
  rw [shown, pre, first, walks]
  rfl

theorem mainStart_runs (h : ¬w.stopTrue copy.booking) :
    w.mainStart e p = w.mainBegun e p preroll i sec := by
  rw [mainStart_eq hc hp hi hs, checkStop_stays ((mainBegun_copy ..).trans hc)]
  rw [stopTrue, mainBegun_monitor]
  exact fun stop => h stop.2

theorem mainStart_stops (h : w.stopTrue copy.booking) : w.mainStart e p =
    (w.mainBegun e p preroll i sec).endGracefully e p (e.now + 150) .stopped false := by
  rw [mainStart_eq hc hp hi hs, checkStop_true ((mainBegun_copy ..).trans hc) (mainBegun_running ..)]
  rw [stopTrue, mainBegun_monitor]
  exact h

end
end World

/-! ## The start point (R64) -/

/-- The start point as the player's first due point (R61). -/
theorem exec_startPoint_after {s : State} {p : Fin 8} (hh : s.held = false) (hr : s.reachOpen = true)
    (hk : s.env.firstPoint (s.world.player p) = some .start)
    (hf : s.env.claimsFirst (s.world.player p) = false) : ∃ t, exec (.startPoint p) s = .next t
      ∧ s.After ((s.world.beginShow s.env p).handReached s.env p) t := by
  rw [exec_startPoint]
  exact State.dueEvent_after _ _ hh (by simp [hr, hk, hf])

/-- An ON_CONDITION booking without a PREROLL claims no zone at its claim point (R64). -/
theorem Env.claimsFirst_bare {e : Env} {c : Player} {copy : BookingCopy} {ch : Fin 8} {n : Nat}
    (hc : c.copy = some copy) (hm : copy.booking.mode = .onCondition ch n)
    (hp : (e.lib.showRec copy.booking.showNo).parts.head?.any (·.kind == .preroll) = false) :
    e.claimsFirst c = false := by
  rw [← Bool.not_eq_true, e.claimsFirst_iff c (mode?_copy hc), hm, showOf_copy hc, hasPreroll, hp]
  simp

/-- A player with no walk holds no hand point. -/
theorem Env.firstPoint_unwalked {e : Env} {c : Player} (h : c.walk = none) : e.firstPoint c ≠ some .hand := by
  intro hk
  obtain ⟨t, point, -⟩ := e.firstPoint_some c hk
  have stands : c.walking = true ∧ ∃ g sec, e.walkAt c = some (g, sec, t) := by
    simpa using (e.mem_points c (t, .hand)).1 point
  obtain ⟨-, g, sec, walk⟩ := stands
  have := ((e.walkAt_iff c g sec t).1 walk).1
  rw [h] at this
  cases this

/-- Settles O26: the start point by the start condition, and the start of the main show with and without a
PREROLL. -/
theorem startPointTaken : Obligations.StartPointTaken := by
  refine ⟨fun s p copy ch n hh hr => ?_, fun s p copy ch n sec hh hr => ?_, fun w e p copy sec => ?_⟩
  · intro c hk hc hw hm hp hv
    obtain ⟨t, ht, after⟩ := exec_startPoint_after hh hr hk (Env.claimsFirst_bare hc hm hp)
    refine ⟨t, ht, ?_⟩
    have waits : s.world.beginShow s.env p = s.world.enterState p .waiting := by
      rw [World.beginShow_onCondition hc hm, World.enterWaiting_bare hc hp,
        World.readStart_stays (by rw [World.enterState_player]; exact hc) hm
          (by rw [World.enterState_monitor]; exact hv)]
    have stays : (s.world.enterState p .waiting).handReached s.env p = s.world.enterState p .waiting :=
      World.handReachFor_stop _ _ _ _ (Env.firstPoint_unwalked (by rw [World.enterState_player]; exact hw))
    rwa [waits, stays] at after
  · intro c shown hk hc hm hp hs hv stop w
    obtain ⟨t, ht, after⟩ := exec_startPoint_after hh hr hk (Env.claimsFirst_bare hc hm hp)
    have copied : ((s.world.enterState p .waiting).player p).copy = some copy := by
      rw [World.enterState_player]; exact hc
    have monitor : (s.world.enterState p .waiting).monitor = s.world.monitor := World.enterState_monitor _
    have starts : s.world.beginShow s.env p = (s.world.enterState p .waiting).mainStart s.env p := by
      rw [World.beginShow_onCondition hc hm, World.enterWaiting_bare hc hp,
        World.readStart_true copied hm (by rw [monitor]; exact hv)]
    rw [starts] at after
    have begun : w = (s.world.enterState p .waiting).mainBegun s.env p false 0 sec := rfl
    have stops : (s.world.enterState p .waiting).stopTrue copy.booking ↔ stop := by
      rw [World.stopTrue, monitor]
    refine ⟨t, ht, fun hn => ?_, fun hy => ?_, fun bk id x href hx => ?_, ?_, fun z => ?_⟩
    · rwa [World.mainStart_runs copied hp rfl hs (mt stops.1 hn)] at after
    · rwa [World.mainStart_stops copied hp rfl hs (stops.2 hy)] at after
    · rw [begun, World.mainBegun_find _ s.env p false 0 sec (by rw [World.enterState_player]; exact href)
        (by rw [World.find_enterState href, hx]; rfl)]
      rfl
    · have player := (s.world.enterState p .waiting).mainBegun_player s.env p false 0 sec
      rw [World.enterState_player] at player
      exact player
    · rw [begun, World.mainBegun_claims _ s.env p false 0 sec copied z, World.claimsWith, World.zone,
        World.enterState_zones, World.enterState_player]
      rfl
  · intro c T shown preroll i stop v hc hs
    have begun : v = w.mainBegun e p preroll i sec := rfl
    refine ⟨World.mainStart_runs hc rfl rfl hs, World.mainStart_stops hc rfl rfl hs,
      w.mainBegun_player e p preroll i sec, fun hp h hh ht => ?_, fun z => ?_,
      fun bk id x => w.mainBegun_find e p preroll i sec⟩
    · rw [begun, hp]
      exact (w.mainBegun_gone e p i sec hh ht).parts
    · rw [begun, World.mainBegun_claims w e p preroll i sec hc, World.claimsWith]
      cases preroll <;> cases partOf copy.booking.zmap z <;> simp [c]

end Sys2Proof.Machine
end

section
/-! SUPPORT. A graceful end (R74 to R76, R79) by the show's CODA, and the end cut (R75). -/

namespace Sys2Proof.Machine

/-! ## The cut of a walk (R75, R79) -/

theorem codaOf_some {s : ShowRec} {sec : SectionRec} (h : s.parts.getLast? = some sec) (hk : sec.kind = .coda) :
    codaOf s = some (s.parts.length - 1, sec) := by
  have filled : 0 < s.parts.length := List.length_pos_iff.2 (by rintro none; rw [none] at h; cases h)
  exact (codaOf_iff s _ sec).2 ⟨h, hk, by omega⟩

theorem codaOf_none {s : ShowRec} (h : ∀ sec, s.parts.getLast? = some sec → sec.kind ≠ .coda) :
    codaOf s = none := by
  refine Option.eq_none_iff_forall_ne_some.2 fun (i, coda) hc => ?_
  obtain ⟨last, kind, -⟩ := (codaOf_iff s i coda).1 hc
  exact h coda last kind

namespace Player
variable {shown : ShowRec} (c : Player) (t : Nat) (cause : EndCause)

/-- A show with a CODA walks it from the cut (R75). -/
theorem cutAt_coda (fresh : Bool) {sec : SectionRec} (h : shown.parts.getLast? = some sec)
    (hk : sec.kind = .coda) : c.cutAt shown t cause fresh = { c with
      walk := some (.stands ⟨shown.parts.length - 1, 0, sec.first⟩)
      epoch := some t
      passes := some (if sec.passes = 0 then .endless else .left sec.passes)
      latch := none
      cause := some cause
      release := some (t + sec.length) } := by
  rw [cutAt, codaOf_some h hk]
  dsimp only
  rw [walkFrom_some c (List.getLast?_eq_getElem? ▸ h)]

variable (hn : ∀ sec, shown.parts.getLast? = some sec → sec.kind ≠ .coda)
include hn

/-- A release point that the walk has already brought, no later than the cut, stands (R75). -/
theorem cutAt_kept {r : Nat} (hw : c.walk = some .past) (hr : c.release = some r) (ht : r ≤ t) :
    c.cutAt shown t cause false = { c with
      latch := none, cause := some .completed, release := some r } := by
  simp [cutAt, codaOf_none hn, hw, hr, Option.filter, ht]

/-- Any other cut without a CODA releases at the cut (R75, R79). -/
theorem cutAt_past {fresh : Bool}
    (h : fresh = true ∨ c.walk ≠ some .past ∨ ∀ r, c.release = some r → t < r) :
    c.cutAt shown t cause fresh = { c with
      latch := none, walk := some .past, cause := some cause, release := some t } := by
  have none : (if fresh = true ∨ c.walk ≠ some .past then none else c.release.filter (· ≤ t)) = none := by
    split
    · rfl
    · next kept =>
      obtain ⟨stale, past⟩ := not_or.1 kept
      have late := (h.resolve_left stale).resolve_left past
      exact Option.filter_eq_none_iff.2 fun r hr => by simpa using late r hr
  rw [cutAt, codaOf_none hn]
  dsimp only
  rw [none]

end Player

/-- A player that ends gracefully, the rest of it as it was: its hands before the cut, and its walk, epoch, passes,
cause and release point. -/
def Player.ending (c : Player) (t : Nat) (walk : Walk) (epoch : Option Nat) (passes : Option Passes)
    (why : EndCause) (release : Nat) : Player :=
  { c with
    state := .ending
    latch := none
    hands := c.hands.filter fun h => h.due < t
    walk := some walk
    epoch := epoch
    passes := passes
    cause := some why
    release := some release }

theorem Player.cutAt_ref (shown : ShowRec) (t : Nat) (cause : EndCause) (fresh : Bool) (c : Player) :
    (c.cutAt shown t cause fresh).ref = c.ref := by
  unfold cutAt walkFrom
  split
  · split <;> rfl
  · dsimp only
    split <;> rfl

namespace World

section
variable (w : World) (e : Env) (p : Fin 8) (t : Nat) (cause : EndCause) (fresh : Bool)

/-! ## What a graceful end leaves -/

theorem endGracefully_player : ∃ k, (w.endGracefully e p t cause fresh).player p =
    { Player.cutAt (e.showOf (w.player p)) t cause fresh { w.player p with
        hands := (w.player p).hands.filter fun h => h.due < t, counters := k } with state := .ending } := by
  obtain ⟨k, cut⟩ := w.cutHands_player e p t
  refine ⟨k, ?_⟩
  unfold endGracefully
  rw [enterState_player, onPlayer_player, if_pos rfl, cut]

/-- The claims stand until the release (R75). -/
theorem endGracefully_claims (z : Fin 64) :
    ((w.endGracefully e p t cause fresh).zone z).claims = (w.zone z).claims := by
  unfold endGracefully
  rw [zone, enterState_zones, onPlayer_zones, ← zone]
  exact w.cutHands_claims e p t z

theorem endGracefully_find {bk : Bank} {id : Nat} {x : BankEntry} (hr : (w.player p).ref = some (bk, id))
    (hx : (w.bank bk).find id = some x) : ((w.endGracefully e p t cause fresh).bank bk).find id =
      some { x with outcome := { x.outcome with progress := .ending } } := by
  obtain ⟨k, cut⟩ := w.cutHands_player e p t
  unfold endGracefully
  rw [find_enterState (by rw [onPlayer_player, if_pos rfl, Player.cutAt_ref, cut]; exact hr)]
  change (((w.cutHands e p t).bank bk).find id).map _ = _
  rw [cutHands_bank, hx]
  rfl

/-- The groups due from the cut on are withdrawn (R75). -/
theorem endGracefully_gone {h : HandRec} (hh : h ∈ (w.player p).hands) (ht : t ≤ h.due) :
    (w.endGracefully e p t cause fresh).GroupGone p h.id := by
  refine (cutHands_gone e t hh ht).same ?_ ?_
  all_goals
    simp only [endGracefully, enterState, reportOn_groups, reportOn_links, onPlayer_groups, onPlayer_links]

end

/-! ## The three ends, but for the counters -/

section
variable {w : World} {e : Env} {p : Fin 8} {t : Nat} {cause : EndCause}

theorem endGracefully_coda {fresh : Bool} {sec : SectionRec}
    (h : (e.showOf (w.player p)).parts.getLast? = some sec) (hk : sec.kind = .coda) :
    { (w.endGracefully e p t cause fresh).player p with counters := (w.player p).counters } =
      (w.player p).ending t (.stands ⟨(e.showOf (w.player p)).parts.length - 1, 0, sec.first⟩) (some t)
        (some (if sec.passes = 0 then .endless else .left sec.passes)) cause (t + sec.length) := by
  obtain ⟨k, player⟩ := w.endGracefully_player e p t cause fresh
  rw [player, Player.cutAt_coda _ _ _ _ h hk]
  rfl

variable (hn : ∀ sec, (e.showOf (w.player p)).parts.getLast? = some sec → sec.kind ≠ .coda)
include hn

theorem endGracefully_kept {r : Nat} (hw : (w.player p).walk = some .past)
    (hr : (w.player p).release = some r) (ht : r ≤ t) :
    { (w.endGracefully e p t cause false).player p with counters := (w.player p).counters } =
      (w.player p).ending t .past (w.player p).epoch (w.player p).passes .completed r := by
  obtain ⟨k, player⟩ := w.endGracefully_player e p t cause false
  rw [player, Player.cutAt_kept { w.player p with
    hands := (w.player p).hands.filter fun h => h.due < t, counters := k } t cause hn hw hr ht, Player.ending,
    ← hw]

theorem endGracefully_past {fresh : Bool} (h : fresh = true ∨ (w.player p).walk ≠ some .past
      ∨ ∀ r, (w.player p).release = some r → t < r) :
    { (w.endGracefully e p t cause fresh).player p with counters := (w.player p).counters } =
      (w.player p).ending t .past (w.player p).epoch (w.player p).passes cause t := by
  obtain ⟨k, player⟩ := w.endGracefully_player e p t cause fresh
  rw [player, Player.cutAt_past { w.player p with
    hands := (w.player p).hands.filter fun h => h.due < t, counters := k } t cause hn h]
  rfl

/-- Without a CODA the walk is past its end, and the release point is the cut or the one already held (R75). -/
theorem endGracefully_release : ((w.endGracefully e p t cause false).player p).walk = some .past
    ∧ (((w.endGracefully e p t cause false).player p).release,
        ((w.endGracefully e p t cause false).player p).cause) =
      (match (w.player p).walk, (w.player p).release with
        | some .past, some r => if r ≤ t then (some r, some .completed) else (some t, some cause)
        | _, _ => (some t, some cause)) := by
  have cut (h : (w.player p).walk ≠ some .past ∨ ∀ r, (w.player p).release = some r → t < r) :
      ((w.endGracefully e p t cause false).player p).walk = some .past
      ∧ (((w.endGracefully e p t cause false).player p).release,
        ((w.endGracefully e p t cause false).player p).cause) = (some t, some cause) := by
    have ended := endGracefully_past (cause := cause) (fresh := false) hn (Or.inr h)
    exact ⟨(congrArg Player.walk ended :),
      Prod.ext (congrArg Player.release ended :) (congrArg Player.cause ended :)⟩
  split
  · next r hw hr =>
    split
    · next ht =>
      have ended := endGracefully_kept (cause := cause) hn hw hr ht
      exact ⟨(congrArg Player.walk ended :),
        Prod.ext (congrArg Player.release ended :) (congrArg Player.cause ended :)⟩
    · next ht =>
      refine cut (Or.inr fun q hq => ?_)
      rw [hr] at hq
      cases hq
      omega
  · next other =>
    exact cut (or_iff_not_imp_left.2 fun hw r hr => (other r (not_not.1 hw) hr).elim)

end

/-- In every case the player ends, with its looks and its play as they were. -/
theorem endGracefully_ending (w : World) (e : Env) (p : Fin 8) (t : Nat) (cause : EndCause) (fresh : Bool) :
    ∃ walk epoch passes why release,
      { (w.endGracefully e p t cause fresh).player p with counters := (w.player p).counters } =
        (w.player p).ending t walk epoch passes why release := by
  by_cases coda : ∃ sec, (e.showOf (w.player p)).parts.getLast? = some sec ∧ sec.kind = .coda
  · obtain ⟨sec, hl, hk⟩ := coda
    exact ⟨_, _, _, _, _, endGracefully_coda hl hk⟩
  · have hn : ∀ sec, (e.showOf (w.player p)).parts.getLast? = some sec → sec.kind ≠ .coda :=
      fun sec hl hk => coda ⟨sec, hl, hk⟩
    by_cases kept : fresh = false ∧ (w.player p).walk = some .past ∧ ∃ r, (w.player p).release = some r ∧ r ≤ t
    · obtain ⟨rfl, hw, r, hr, ht⟩ := kept
      exact ⟨_, _, _, _, _, endGracefully_kept hn hw hr ht⟩
    · refine ⟨_, _, _, _, _, endGracefully_past hn ?_⟩
      simp only [not_and_or, not_exists, Bool.not_eq_false, Nat.not_le] at kept
      exact kept.imp_right (Or.imp_right fun h r hr => (h r).resolve_left (not_not.2 hr))

end World

/-- The end cut in RUNNING cuts the show at the later of its end point and 150 ticks after NOW (R75). -/
theorem World.act_endCut_running {w : World} {e : Env} {p : Fin 8} {stop : Nat}
    (hs : (w.player p).state = .running) (hp : (w.player p).copy.bind (·.endPoint) = some stop) :
    w.act e p .endCut =
      (w.endGracefully e p (max stop (e.now + 150)) .endedAtTime false).handReached e p := by
  simp only [act, hs, cutRunning, hp, Option.getD_some, Config.horizon]

/-- Settles O28: the end cut as the graceful end at its cut tick, and that end by the show's CODA. -/
theorem endCutBeginsEnding : Obligations.EndCutBeginsEnding := by
  refine ⟨fun s p stop hh hr => ?_, fun w e p T cause fresh => ?_⟩
  · intro c T hk hs hp
    obtain ⟨t, ht, after⟩ := State.pointEvent_after hh hr hk
    rw [World.act_endCut_running hs hp] at after
    obtain ⟨walk, epoch, passes, why, release, ended⟩ :=
      s.world.endGracefully_ending s.env p T .endedAtTime false
    refine ⟨s.world.endGracefully s.env p T .endedAtTime false, t, ht, after, (congrArg Player.state ended :),
      (congrArg Player.latch ended :), (congrArg Player.hands ended :), (congrArg Player.looks ended :),
      (congrArg Player.play ended :), fun sec hl hk => ?_, World.endGracefully_release⟩
    have coda := World.endGracefully_coda (cause := .endedAtTime) (fresh := false) (t := T) hl hk
    exact ⟨(congrArg Player.walk coda :), (congrArg Player.epoch coda :), (congrArg Player.release coda :),
      (congrArg Player.passes coda :), (congrArg Player.cause coda :)⟩
  · intro c shown v ends
    refine ⟨fun sec hl hk => World.endGracefully_coda hl hk, fun hn => ⟨fun r hf hw hr ht => ?_,
      fun h => World.endGracefully_past hn h⟩, fun h hh ht => (w.endGracefully_gone e p T cause fresh hh ht).parts,
      w.endGracefully_claims e p T cause fresh, fun bk id x => w.endGracefully_find e p T cause fresh⟩
    have kept := World.endGracefully_kept (cause := cause) hn hw hr ht
    rwa [← hf] at kept

end Sys2Proof.Machine
end

section
/-! SUPPORT. The requests on a player: HOLD, RESUME and SET_PASSES (R73, R82, R83). -/

namespace Sys2Proof.Machine

/-! ## The requests to an idle part -/

section
variable {s : State}

theorem exec_hold_idle (tag n : Nat) (hs : s.idle = true) : exec (.hold tag n) s =
    .next (State.replied 0x31 tag (s.change fun e => World.hold e n)) :=
  exec_request_idle s _ tag (.hold n) rfl hs

theorem exec_resume_idle (tag n : Nat) (hs : s.idle = true) : exec (.resume tag n) s =
    .next (State.replied 0x32 tag (s.change fun e => World.resume e n)) :=
  exec_request_idle s _ tag (.resume n) rfl hs

theorem exec_setPasses_idle (tag n passes : Nat) (hs : s.idle = true) : exec (.setPasses tag n passes) s =
    .next (State.replied 0x33 tag (s.change fun e => World.setPasses e n passes)) :=
  exec_request_idle s _ tag (.setPasses n passes) rfl hs

end

theorem forPlayer_none {w : World} {n : Nat} {k : Fin 8 → World × Answer} (h : 7 < n) :
    forPlayer w n k = (w, .badField 0) := by rw [forPlayer, index?_eq_none.2 h]

theorem forPlayer_val {w : World} {p : Fin 8} {k : Fin 8 → World × Answer} : forPlayer w p.val k = k p := by
  rw [forPlayer, index?_eq_some.2 rfl]

/-! ## The walk rolled back (R82) -/

theorem Player.rollBack_nil {c : Player} (h : c.hands = []) : c.rollBack = c := by rw [rollBack, h]

theorem Player.rollBack_cons {c : Player} {r : HandRec} {rest : List HandRec} (h : c.hands = r :: rest) :
    c.rollBack = { c with
      walk := some (.stands r.snap.walk)
      epoch := some r.snap.epoch
      passes := some r.snap.passes
      latch := r.snap.latch
      hands := []
      release := none } := by rw [rollBack, h]

namespace World

/-- Two changes of one player are one. -/
theorem onPlayer_onPlayer (w : World) (p : Fin 8) (f g : Player → Player) :
    (w.onPlayer p f).onPlayer p g = w.onPlayer p (g ∘ f) :=
  congrArg (fun t => { w with players := t }) (Tab.upd_upd _ _ _ _)

variable {w : World} {e : Env} {p : Fin 8}

/-! ## HOLD (R82) -/

theorem hold_wrongState (h : (w.player p).state ≠ .running) : w.hold e p.val = (w, .no .wrongState) := by
  rw [hold, forPlayer_val, if_pos h]

/-- A player put on hold: its takes withdrawn, its walk rolled back, the hold tick kept, and HELD. -/
def heldOn (e : Env) (p : Fin 8) (w : World) : World :=
  ((w.withdrawPlayer e p).onPlayer p fun c => { c.rollBack with holdTick := some e.now }).enterState p .held

theorem hold_taken (h : (w.player p).state = .running) : w.hold e p.val = (w.heldOn e p, .ok []) := by
  rw [hold, forPlayer_val, if_neg (not_not.2 h)]
  rfl

/-- HOLD leaves nothing of the player in the dispatcher, and its counters as they stood (R82, R130). -/
theorem heldOn_rid : (w.heldOn e p).Rid p
    { (w.player p).rollBack with holdTick := some e.now, state := .held } := by
  obtain ⟨player, groups, lists⟩ := w.withdrawPlayer_rid e p
  refine ⟨?_, ?_, fun l => (lists l).same ?_⟩
  · rw [heldOn, enterState_player, onPlayer_player, if_pos rfl, player]
  · simpa [heldOn, enterState] using groups
  · simp [heldOn, enterState, link]

theorem heldOn_find {bk : Bank} {id : Nat} {x : BankEntry} (hr : (w.player p).ref = some (bk, id))
    (hx : (w.bank bk).find id = some x) : ((w.heldOn e p).bank bk).find id =
      some { x with outcome := { x.outcome with progress := .held } } := by
  have rolled : (w.player p).rollBack.ref = (w.player p).ref := by
    unfold Player.rollBack
    split <;> rfl
  have bank : (w.withdrawPlayer e p).bank bk = w.bank bk :=
    congrArg (Plans.bank · bk) ((Kept.refl w).withdrawPlayer e p).plans
  have player := (w.withdrawPlayer_rid e p).player
  rw [heldOn]
  generalize w.withdrawPlayer e p = v at bank player
  rw [find_enterState (by rw [onPlayer_player, if_pos rfl, player]; exact rolled.trans hr)]
  change ((v.bank bk).find id).map _ = _
  rw [bank, hx]
  rfl

theorem heldOn_claims (z : Fin 64) : ((w.heldOn e p).zone z).claims = (w.zone z).claims := by
  rw [heldOn, zone, enterState_zones, onPlayer_zones, ← zone]
  exact ((Kept.refl w).withdrawPlayer e p).claims z

/-! ## RESUME (R83) -/

theorem resume_wrongState (h : (w.player p).state ≠ .held) : w.resume e p.val = (w, .no .wrongState) := by
  rw [resume, forPlayer_val, if_pos h]

/-- A civic tick as a RESUME shifts it: by NOW + 150 less the hold tick, and not before 0 (log entry 44). -/
def shiftBy (e : Env) (hold t : Nat) : Nat :=
  if hold ≤ e.now + 150 then t + (e.now + 150 - hold) else t - (hold - (e.now + 150))

theorem resume_taken {hold : Nat} (h : (w.player p).state = .held) (ht : (w.player p).holdTick = some hold) :
    w.resume e p.val = (((w.onPlayer p fun c => { c with
        state := .running
        epoch := c.epoch.map (shiftBy e hold)
        release := c.release.map (shiftBy e hold)
        holdTick := none }).reportOn p fun r => { r with progress := .running }).handAll e p, .ok []) := by
  have shift : (fun t => t + (e.now + Config.horizon) - (w.player p).holdTick.getD e.now) = shiftBy e hold := by
    funext t
    rw [ht, Option.getD_some, shiftBy, Config.horizon]
    split <;> omega
  rw [resume, forPlayer_val, if_neg (not_not.2 h)]
  dsimp only
  rw [enterState, onPlayer_onPlayer]
  refine congrArg (fun v => ((World.reportOn p _ v).handAll e p, Answer.ok [])) (w.onPlayer_congr p ?_)
  dsimp only [Function.comp]
  rw [shift]

/-! ## SET_PASSES (R73) -/

theorem setPasses_zero : w.setPasses e p.val 0 = (w, .badField 1) := by
  rw [setPasses, forPlayer_val, if_pos rfl]

theorem setPasses_wrongState {n : Nat} (hn : n ≠ 0) (h : e.takesPasses (w.player p) = false) :
    w.setPasses e p.val n = (w, .no .wrongState) := by
  rw [setPasses, forPlayer_val, if_neg hn, h]
  rfl

theorem setPasses_taken {n : Nat} (hn : n ≠ 0) (h : e.takesPasses (w.player p) = true) :
    w.setPasses e p.val n = (w.onPlayer p fun c => { c with
      latch := some n
      hands := c.hands.map fun h => { h with snap := { h.snap with latch := some n } } }, .ok []) := by
  rw [setPasses, forPlayer_val, if_neg hn, h]
  rfl

end World

/-- A SET_PASSES is taken while the play stands in the walk's section, a MAIN section of counted passes (R73). -/
theorem Env.takesPasses_iff (e : Env) (c : Player) : e.takesPasses c = true ↔
    (c.state = .running ∨ c.state = .held)
      ∧ ∃ q g sec, c.play = some q ∧ c.walk = some (.stands g) ∧ q.id.sec = g.sec
        ∧ (e.showOf c).parts[g.sec]? = some sec ∧ sec.kind = .main ∧ sec.passes ≠ 0 := by
  unfold takesPasses
  rw [Bool.and_eq_true, Bool.or_eq_true, beq_iff_eq, beq_iff_eq]
  refine and_congr_right fun _ => ?_
  split
  · next q g hq hg =>
    simp only [hq, hg, Option.some.injEq, Walk.stands.injEq, Bool.and_eq_true, beq_iff_eq, Option.any_eq_true,
      bne_iff_ne]
    constructor
    · rintro ⟨same, sec, hs, hk, hp⟩
      exact ⟨q, g, sec, rfl, rfl, same, hs, hk, hp⟩
    · rintro ⟨_, _, sec, rfl, rfl, same, hs, hk, hp⟩
      exact ⟨same, sec, hs, hk, hp⟩
  · next other =>
    exact iff_of_false Bool.false_ne_true fun ⟨q, g, _, hq, hg, _⟩ => other q g hq hg

/-- Settles O30: HOLD, RESUME and SET_PASSES, each refused and taken. -/
theorem holdResumeSetPasses : Obligations.HoldResumeSetPasses := by
  refine ⟨fun s tag n hs hn => ⟨?_, ?_, fun passes => ?_⟩, fun s tag p hs => ⟨fun h => ?_, fun h => ?_⟩,
    fun s tag p hs => ⟨fun h => ?_, fun hold h ht => ?_⟩, fun s tag n p hs => ⟨fun hn => ?_, fun hn h => ?_,
    fun hn h => ?_⟩⟩
  · exact State.exec_refused (exec_hold_idle tag n hs) (forPlayer_none hn)
  · exact State.exec_refused (exec_resume_idle tag n hs) (forPlayer_none hn)
  · exact State.exec_refused (exec_setPasses_idle tag n passes hs) (forPlayer_none hn)
  · exact State.exec_refused (exec_hold_idle tag p.val hs) (World.hold_wrongState h)
  · obtain ⟨t, ht, after⟩ := State.exec_accepted (exec_hold_idle tag p.val hs) (World.hold_taken h)
    have kept := after.1.kept
    have rid : t.world.Rid p
        { (s.world.player p).rollBack with holdTick := some s.env.now, state := .held } := by
      rw [after.1.world]
      exact World.heldOn_rid.each _ _ fun l _ _ hv => hv.pump s.env l
    refine ⟨t, ht, after.1.base, after.slot, ?_, fun bk id x hr hx => ?_, fun z => ?_, rid.groups,
      fun l => (rid.lists l).deferred, fun l => (rid.lists l).stage⟩
    · rw [rid.player]
      split
      · next hh => rw [Player.rollBack_nil hh]; rfl
      · next r rest hh => rw [Player.rollBack_cons hh]; rfl
    · rw [World.bank, kept.plans, ← World.bank]
      exact World.heldOn_find hr hx
    · rw [kept.claims z, World.heldOn_claims]
  · exact State.exec_refused (exec_resume_idle tag p.val hs) (World.resume_wrongState h)
  · exact State.exec_accepted (exec_resume_idle tag p.val hs) (World.resume_taken h ht)
  · subst hn
    exact State.exec_refused (exec_setPasses_idle tag p.val 0 hs) World.setPasses_zero
  · exact State.exec_refused (exec_setPasses_idle tag p.val n hs)
      (World.setPasses_wrongState hn (eq_false_of_ne_true (mt (s.env.takesPasses_iff _).1 h)))
  · exact State.exec_accepted (exec_setPasses_idle tag p.val n hs)
      (World.setPasses_taken hn ((s.env.takesPasses_iff _).2 h))

end Sys2Proof.Machine
end

section
/-! SUPPORT. The reads of a player and of a zone (R88, R111): each record's bytes as section 11.3 lists them. -/

namespace Sys2Proof.Machine

/-! ## Records in replies (section 11.3) -/

theorem LookCopy.bytes_eq (x : LookCopy) : x.bytes = [byteOf x.num.val, byteOf x.val.l0, byteOf x.val.l1,
    byteOf x.val.l2, byteOf x.val.l3] ++ bigEndian 2 x.val.fade := rfl

theorem heldLookBytes_eq (x : Option LookCopy) : heldLookBytes x = (match x with
    | none => List.replicate 8 0#8
    | some x => 1#8 :: ([byteOf x.num.val, byteOf x.val.l0, byteOf x.val.l1, byteOf x.val.l2,
        byteOf x.val.l3] ++ bigEndian 2 x.val.fade)) := by
  cases x <;> rfl

theorem walkBytes_eq (x : Option Walk) : walkBytes x = (match x with
    | none => List.replicate 5 0xFF#8
    | some .past => [0xFE#8, 0#8, 0#8, 0#8, 0#8]
    | some (.stands g) => byteOf g.sec :: bigEndian 2 g.pass ++ bigEndian 2 g.cue) := by
  rcases x with _ | g | _ <;> rfl

theorem passesByte_eq (x : Option Passes) : passesByte x = (match x with
    | some (.left n) => byteOf n
    | _ => 0#8) := by
  rcases x with _ | _ | n <;> rfl

theorem playBytes_eq (x : Option PlayPos) : playBytes x = (match x with
    | none => List.replicate 10 0xFF#8
    | some q => byteOf q.id.sec :: bigEndian 2 q.id.pass ++ bigEndian 2 q.id.cue ++ bigEndian 5 q.due) := by
  cases x <;> rfl

theorem Player.copyBytes_eq (c : Player) : c.copyBytes = (match c.copy with
    | none => List.replicate 5 0xFF#8
    | some k => [byteOf (k.booking.showNo.val + 1), byteOf k.booking.cls, byteOf k.booking.sub,
        k.booking.mode.code, c.mark.code]) := by
  unfold copyBytes booking?
  cases c.copy <;> rfl

theorem causeByte_eq (x : Option EndCause) : (x.map EndCause.code).getD 0xFF = (match x with
    | none => 0xFF#8
    | some x => x.code) := by
  cases x <;> rfl

theorem ownerByte_eq (r : Zone) : playerByte r.owner = (match r.claims with
    | [] => 0xFF#8
    | c :: _ => byteOf c.player.val) := by
  unfold Zone.owner
  cases r.claims <;> rfl

/-! ## GET_PLAYER and GET_ZONE (R88, R111) -/

namespace World
variable (w : World)

theorem getPlayer_reads (p : Fin 8) : w.getPlayer p.val = .ok ((w.player p).bytes p) := by
  rw [getPlayer, index?_eq_some.2 rfl]

theorem getPlayer_number {n : Nat} (h : 8 ≤ n) : w.getPlayer n = .badField 0 := by
  rw [getPlayer, index?_eq_none.2 h]

theorem getZone_reads (z : Fin 64) : w.getZone z.val = .ok (w.zoneBytes z) := by
  rw [getZone, index?_eq_some.2 rfl]

theorem getZone_number {n : Nat} (h : 64 ≤ n) : w.getZone n = .badField 0 := by
  rw [getZone, index?_eq_none.2 h]

end World

/-- Settles O32: the reads of a player and of a zone. -/
theorem playerAndZoneReads : Obligations.PlayerAndZoneReads := by
  intro s tag hs look held
  have holds : heldLookBytes = held := funext heldLookBytes_eq
  refine ⟨fun p => ?_, fun n hn => exec_read hs rfl rfl (congrArg _ (s.world.getPlayer_number hn)), fun z => ?_,
    fun n hn => exec_read hs rfl rfl (congrArg _ (s.world.getZone_number hn))⟩
  · refine exec_read hs rfl rfl (congrArg (Prod.mk s) ((s.world.getPlayer_reads p).trans (congrArg Answer.ok ?_)))
    simp only [Player.bytes, Player.copyBytes_eq, walkBytes_eq, passesByte_eq, playBytes_eq, causeByte_eq, holds,
      Counters.bytes, List.append_assoc] <;> rfl
  · refine exec_read hs rfl rfl (congrArg (Prod.mk s) ((s.world.getZone_reads z).trans (congrArg Answer.ok ?_)))
    simp only [World.zoneBytes, ownerByte_eq, holds, listBytes]
    rcases (s.world.zone z).take with _ | ⟨ref, _ | _⟩ <;> rfl

end Sys2Proof.Machine
end

section
/-! SUPPORT. The scan end (R164) hands on what each judgement finds (R168): the commands that end a scan, and one
channel judged. -/

namespace Sys2Proof.Machine

/-! ## The channels and their inputs (R164) -/

theorem Monitor.toConvert_nil {m : Monitor}
    (h : ∀ ch i, (m.channels.get ch).enabled = true → (m.channels.get ch).source ≠ .ain i) :
    m.toConvert = [] := by
  refine List.filter_eq_nil_iff.2 fun i _ used => ?_
  obtain ⟨ch, test⟩ := (Tab.any_iff _ _).1 used
  obtain ⟨on, source⟩ := Bool.and_eq_true_iff.1 test
  exact h ch i on (beq_iff_eq.1 source)

/-- Only an analog input has to be converted for a new reading (R164). -/
theorem Channel.fresh_iff (done : List (Fin 4)) (c : Channel) :
    c.fresh done = true ↔ ∀ i, c.source = .ain i → i ∈ done := by
  unfold fresh
  split
  · next i hi => simp [hi]
  · next other => exact iff_of_true rfl fun i hi => absurd hi (other i)

namespace World
variable {w : World} {e : Env}

/-! ## The scan end by its two commands -/

/-- The channels judged in their order, with the inputs read and converted in `m`. -/
def judged (e : Env) (m : Monitor) (done : List (Fin 4)) (w : World) : World :=
  ({ w with monitor := { m with scan := none } } : World).each (upTo 8) (World.judgeChannel e done)

theorem conversionEnd_last {i : Fin 4} {done : List (Fin 4)} (reading : Nat)
    (h : w.monitor.scan = some ⟨[i], done⟩) : w.conversionEnd e reading =
      w.judged e { w.monitor with ain := w.monitor.ain.set i (some (min 4095 reading)) } (done ++ [i]) := by
  unfold conversionEnd
  rw [h]
  rfl

theorem scanStart_unconverted (closed : Fin 4 → Bool) (hd : w.monitor.scanDue = true)
    (h : ∀ ch i, (w.monitor.channels.get ch).enabled = true → (w.monitor.channels.get ch).source ≠ .ain i) :
    w.scanStart e closed = w.judged e { w.monitor with
      scanDue := false, cin := Tab.ofFn 4 fun i => some (contactReading (closed i)) } [] := by
  have none : ({ w.monitor with
      scanDue := false, cin := Tab.ofFn 4 fun i => some (contactReading (closed i)) } : Monitor).toConvert = [] :=
    Monitor.toConvert_nil h
  unfold scanStart
  rw [hd]
  dsimp only [Bool.not_true]
  rw [none]
  rfl

/-! ## One channel judged (R164 to R168) -/

section
variable {ch : Fin 8} {done : List (Fin 4)}

/-- A channel is left as it is when it is not enabled, has no new reading, or has none at all (R164). -/
theorem judgeChannel_skips (h : (w.monitor.channels.get ch).enabled = false
      ∨ (w.monitor.channels.get ch).fresh done = false ∨ w.monitor.reading ch = none) :
    w.judgeChannel e done ch = w := by
  unfold judgeChannel
  split
  · rfl
  · next r hr =>
    refine if_neg fun test => ?_
    obtain ⟨on, fresh⟩ := Bool.and_eq_true_iff.1 test
    rcases h with h | h | h
    · exact absurd (h.symm.trans on) Bool.false_ne_true
    · exact absurd (h.symm.trans fresh) Bool.false_ne_true
    · cases hr.symm.trans h

variable {r : Nat} (on : (w.monitor.channels.get ch).enabled = true)
  (fresh : (w.monitor.channels.get ch).fresh done = true) (hr : w.monitor.reading ch = some r)
include on fresh hr

theorem judgeChannel_judges :
    w.judgeChannel e done ch = w.takeJudged e ch r ((w.monitor.channels.get ch).judge r) := by
  unfold judgeChannel
  rw [hr]
  exact if_pos (by rw [on, fresh]; rfl)

theorem judgeChannel_stays (h : ((w.monitor.channels.get ch).judge r).2 = false) :
    w.judgeChannel e done ch = w.setChannel ch ((w.monitor.channels.get ch).judge r).1 := by
  rw [judgeChannel_judges on fresh hr, takeJudged, h]
  rfl

/-- A changed value is a transition: counted, recorded and raised, and handed on where it is TRUE (R168). -/
theorem judgeChannel_turns (h : ((w.monitor.channels.get ch).judge r).2 = true) :
    w.judgeChannel e done ch = w.takeTurn e ch ((w.monitor.channels.get ch).judge r).1 r := by
  rw [judgeChannel_judges on fresh hr, takeJudged, h]
  rfl

end
end World
end Sys2Proof.Machine
end

section
/-! SUPPORT. A transition to TRUE taken by one player (R65, R76, R84, R169, R202). -/

namespace Sys2Proof.Machine

/-! ## The channel's roles -/

theorem Player.startsOn_iff (ch : Fin 8) (c : Player) :
    c.startsOn ch = true ↔ ∃ k n, c.copy = some k ∧ k.booking.mode = .onCondition ch n := by
  unfold startsOn mode? booking?
  cases c.copy with
  | none => simp
  | some k => cases hm : k.booking.mode <;> simp [hm]

theorem Player.stopsOn_iff (ch : Fin 8) (c : Player) :
    c.stopsOn ch = true ↔ ∃ k, c.copy = some k ∧ k.booking.stopCond = some ch := by
  unfold stopsOn booking?
  cases c.copy <;> simp

/-- A hand point of the same tick has brought the CODA where the newest record is of the section before it (R202; log
entry 37). -/
theorem Env.codaJustEntered_iff (e : Env) (c : Player) : e.codaJustEntered c = true ↔
    c.cause = some .completed
      ∧ (∃ h, c.hands.getLast? = some h ∧ h.due = e.now + 150 ∧ (e.showOf c).parts.length = h.id.sec + 2)
      ∧ ∃ sec, (e.showOf c).parts.getLast? = some sec ∧ sec.kind = .coda := by
  unfold codaJustEntered
  simp only [Bool.and_eq_true, beq_iff_eq, Option.any_eq_true, Prod.exists, codaOf_iff, Config.horizon]
  refine and_congr_right fun _ => ?_
  constructor
  · rintro ⟨h, hl, hd, i, sec, ⟨last, kind, hi⟩, rfl⟩
    exact ⟨⟨h, hl, hd, hi.symm⟩, sec, last, kind⟩
  · rintro ⟨⟨h, hl, hd, hn⟩, sec, last, kind⟩
    exact ⟨h, hl, hd, _, sec, ⟨last, kind, hn.symm⟩, rfl⟩

namespace World
variable {w : World} {e : Env} {ch p : Fin 8}

/-! ## One player's part of a transition (R169) -/

theorem roleOf_waiting (hs : (w.player p).state = .waiting) (h : (w.player p).startsOn ch = true) :
    w.roleOf e ch p = (w.mainStart e p).handAll e p := by
  rw [roleOf, hs]
  exact if_pos h

/-- A RUNNING player is stopped once its stop condition is TRUE, its passed hand points taken after (R76). -/
theorem roleOf_running (hs : (w.player p).state = .running) (h : (w.player p).stopsOn ch = true)
    (hv : (w.monitor.channels.get ch).value = .yes) :
    w.roleOf e ch p = (w.endGracefully e p (e.now + 150) .stopped false).handAll e p := by
  obtain ⟨k, hc, hk⟩ := (Player.stopsOn_iff ch _).1 h
  rw [roleOf, hs]
  dsimp only
  rw [if_pos h, checkStop_true hc hs ⟨ch, hk, hv⟩]

theorem roleOf_held (hs : (w.player p).state = .held) (h : (w.player p).stopsOn ch = true) :
    w.roleOf e ch p = w.finish e p .stopped true := by
  rw [roleOf, hs]
  exact if_pos h

theorem roleOf_ending (hs : (w.player p).state = .ending) (h : (w.player p).stopsOn ch = true)
    (hc : e.codaJustEntered (w.player p) = true) :
    w.roleOf e ch p = (w.endGracefully e p (e.now + 150) .stopped false).handAll e p := by
  rw [roleOf, hs]
  exact if_pos ⟨h, hc⟩

/-- A channel with no role for the player in its state does nothing to it (R169). -/
theorem roleOf_stays (hw : ¬((w.player p).state = .waiting ∧ (w.player p).startsOn ch = true))
    (hr : ¬(((w.player p).state = .running ∨ (w.player p).state = .held) ∧ (w.player p).stopsOn ch = true))
    (he : ¬((w.player p).state = .ending ∧ (w.player p).stopsOn ch = true
      ∧ e.codaJustEntered (w.player p) = true)) : w.roleOf e ch p = w := by
  unfold roleOf
  split
  · next hs => exact if_neg fun h => hw ⟨hs, h⟩
  · next hs => exact if_neg fun h => hr ⟨Or.inl hs, h⟩
  · next hs => exact if_neg fun h => hr ⟨Or.inr hs, h⟩
  · next hs => exact if_neg fun h => he ⟨hs, h⟩
  · rfl

theorem roleOf_free (hs : (w.player p).state = .free) : w.roleOf e ch p = w := by
  rw [roleOf, hs]

/-! ## A booking's end with none waitlisted (R85) -/

section
variable (w e p) (final : Progress) (abrupt : Bool) (hw : w.plans.wait = [])
include hw

theorem finish_player : (w.finish e p final abrupt).player p = Player.free := by
  rw [finish_unwaited _ _ _ _ _ hw, player, autoDark_players, ← player, endBooking_player]

theorem finish_bank (bk : Bank) : (w.finish e p final abrupt).bank bk = (w.endBooking e p final abrupt).bank bk := by
  rw [finish_unwaited _ _ _ _ _ hw, bank, autoDark_plans, ← bank]

theorem finish_wait : (w.finish e p final abrupt).plans.wait = [] := by
  rw [finish_unwaited _ _ _ _ _ hw, autoDark_plans, endBooking_wait, hw]

end
end World
end Sys2Proof.Machine
end

section
/-! SUPPORT. ALL_STOP (R81) and a wake by a condition (R180): a transition to TRUE over the players. -/

namespace Sys2Proof.Machine

/-- An outcome that ALL_STOP has written (R81). -/
def Report.allStopped (r : Report) : Prop := r.progress = .allStopped ∧ r.abrupt = true

namespace World

/-! ## A booking's end leaves the other players (R85) -/

section
variable {w : World} {p q : Fin 8} {final : Progress} {abrupt : Bool}

theorem releaseZone_free (e : Env) (z : Fin 64) (h : (w.player q).state = .free) :
    (w.releaseZone e p z).player q = w.player q := by
  unfold releaseZone
  dsimp only
  split
  · rfl
  · split
    · rfl
    · split
      · exact ((Kept.refl _).fallbackTake e z).free q h
      · exact ((Kept.refl _).gain e z).free q h

/-- A FREE player stays just as it is while another's takes and claims go. -/
theorem cleared_free (e : Env) (h : (w.player q).state = .free) : (w.cleared e p).player q = w.player q := by
  unfold cleared
  split
  · rfl
  · refine each_induct (fun v => v.player q = w.player q) _ (fun z v hv => ?_) _ _
      (((Kept.refl w).withdrawPlayer e p).free q h)
    exact (releaseZone_free e z (by rw [hv]; exact h)).trans hv

theorem endBooking_other (e : Env) (h : p ≠ q) :
    (w.endBooking e p final abrupt).player q = (w.cleared e p).player q := by
  rw [endBooking_eq, onPlayer_player, if_neg h, raise_player, reportOn_player]

end

/-! ## ALL_STOP taken by one player (R81) -/

section
variable {w : World} {e : Env} {p q : Fin 8} (hw : w.plans.wait = [])

/-- Every player of the list is not FREE and holds the booking that stands beside it. -/
def playing (w : World) (ps : List (Fin 8 × Option (Bank × Nat))) : Prop :=
  ∀ r ∈ ps, (w.player r.1).state ≠ .free ∧ (w.player r.1).ref = r.2

theorem allStop_plays {ref : Option (Bank × Nat)} (h : (w.player p).state ≠ .free)
    (hr : (w.player p).ref = ref) : w.allStop e (p, ref) = w.finish e p .allStopped true := if_pos ⟨h, hr⟩

include hw

theorem finish_other {final : Progress} {abrupt : Bool} (h : p ≠ q) :
    (w.finish e p final abrupt).player q = (w.cleared e p).player q := by
  rw [finish_unwaited _ _ _ _ _ hw, player, autoDark_players, ← player, endBooking_other e h]

/-- Another player's end leaves a player's state and booking. -/
theorem finish_playing {final : Progress} {abrupt : Bool} {ps : List (Fin 8 × Option (Bank × Nat))}
    (h : w.playing ps) (hp : p ∉ ps.map (·.1)) : (w.finish e p final abrupt).playing ps := by
  intro r hr
  have other : p ≠ r.1 := fun same => hp (same ▸ List.mem_map_of_mem hr)
  rw [finish_other hw other, (w.cleared_spared e p).player_eq r.1]
  exact h r hr

/-- Another player's end leaves a FREE player whole. -/
theorem finish_free {final : Progress} {abrupt : Bool} (h : p ≠ q) (hq : (w.player q).state = .free) :
    (w.finish e p final abrupt).player q = w.player q := by
  rw [finish_other hw h, cleared_free e hq]

/-- A player's end by ALL_STOP as a booking's record takes it: its own is written, another's stays. -/
theorem finish_allStopped {bk : Bank} {id : Nat} {x : BankEntry} (hx : (w.bank bk).find id = some x) :
    ∃ y, ((w.finish e p .allStopped true).bank bk).find id = some y ∧ y.booking = x.booking
      ∧ (x.outcome.allStopped ∨ (w.player p).ref = some (bk, id) → y.outcome.allStopped) := by
  rw [finish_bank _ _ _ _ _ hw]
  by_cases hr : (w.player p).ref = some (bk, id)
  · exact ⟨_, endBooking_find _ _ _ _ _ hr hx, rfl, fun _ => ⟨rfl, rfl⟩⟩
  · exact ⟨x, (endBooking_find_other _ _ _ _ _ hr).trans hx, rfl, fun h => h.resolve_right hr⟩

end

/-! ## ALL_STOP taken by the players in turn -/

/-- `v` is `w` once ALL_STOP has ended the players of the list: they are FREE, a player that was FREE is as it was,
and the bookings they held are ALL_STOPPED and abrupt (R81). -/
structure Stopped (ps : List (Fin 8 × Option (Bank × Nat))) (w v : World) : Prop where
  ended : ∀ r ∈ ps, v.player r.1 = Player.free
  free : ∀ q, (w.player q).state = .free → v.player q = w.player q
  found : ∀ bk id x, (w.bank bk).find id = some x → ∃ y, (v.bank bk).find id = some y
    ∧ y.booking = x.booking
    ∧ (x.outcome.allStopped ∨ (∃ r ∈ ps, r.2 = some (bk, id)) → y.outcome.allStopped)

theorem allStopEach_stopped (e : Env) (ps : List (Fin 8 × Option (Bank × Nat)))
    (hn : (ps.map (·.1)).Nodup) {w : World} (hw : w.plans.wait = []) (hp : w.playing ps) :
    w.Stopped ps (w.each ps (World.allStop e)) := by
  induction ps generalizing w with
  | nil => exact ⟨fun _ h => (List.not_mem_nil h).elim, fun _ _ => rfl, fun _ _ x hx => ⟨x, hx, rfl, by simp⟩⟩
  | cons r ps ih =>
    obtain ⟨p, ref⟩ := r
    obtain ⟨once, hn⟩ := List.nodup_cons.1 hn
    obtain ⟨plays, href⟩ := hp (p, ref) List.mem_cons_self
    rw [each_cons, allStop_plays plays href]
    have tail : w.playing ps := fun r hr => hp r (List.mem_cons_of_mem _ hr)
    have rest := ih hn (finish_wait w e p .allStopped true hw) (finish_playing hw tail once)
    have own := finish_player w e p .allStopped true hw
    refine ⟨fun r hr => ?_, fun q hq => ?_, fun bk id x hx => ?_⟩
    · rcases List.mem_cons.1 hr with rfl | hr
      · exact (rest.free p (by rw [own]; rfl)).trans own
      · exact rest.ended r hr
    · have other : p ≠ q := fun same => plays (same ▸ hq)
      have stays := finish_free (e := e) (final := .allStopped) (abrupt := true) hw other hq
      exact (rest.free q (by rw [stays]; exact hq)).trans stays
    · obtain ⟨y, hy, same, written⟩ := finish_allStopped (e := e) (p := p) hw hx
      obtain ⟨z, hz, kept, stopped⟩ := rest.found bk id y hy
      refine ⟨z, hz, kept.trans same, fun h => stopped ?_⟩
      rcases h with h | ⟨r, hr, hb⟩
      · exact Or.inl (written (Or.inl h))
      · rcases List.mem_cons.1 hr with rfl | hr
        · exact Or.inl (written (Or.inr (href.trans hb)))
        · exact Or.inr ⟨r, hr, hb⟩

/-! ## A transition to TRUE over the players (R81, R169, R180) -/

/-- The players that are not FREE, each with the booking it holds. -/
def bookedPlayers (w : World) : List (Fin 8 × Option (Bank × Nat)) :=
  ((upTo 8).filter fun p => (w.player p).state != .free).map fun p => (p, (w.player p).ref)

section
variable (w : World) (e : Env) (ch : Fin 8)

theorem turnTrue_allStop : w.turnTrue e ch true false = w.each w.bookedPlayers (World.allStop e) := rfl

theorem turnTrue_wake (stopAll : Bool) :
    w.turnTrue e ch stopAll true = (w.turnTrue e ch stopAll false).wakeCause e .condition := rfl

theorem mem_bookedPlayers (r : Fin 8 × Option (Bank × Nat)) :
    r ∈ w.bookedPlayers ↔ (w.player r.1).state ≠ .free ∧ (w.player r.1).ref = r.2 := by
  obtain ⟨p, ref⟩ := r
  simp [bookedPlayers]

/-- With none waitlisted ALL_STOP ends every player that is not FREE (R81). -/
theorem turnTrue_stopped (hw : w.plans.wait = []) :
    w.Stopped w.bookedPlayers (w.turnTrue e ch true false) := by
  refine allStopEach_stopped e _ ?_ hw fun r hr => (w.mem_bookedPlayers r).1 hr
  have firsts : w.bookedPlayers.map (·.1) = (upTo 8).filter fun p => (w.player p).state != .free := by
    rw [bookedPlayers, List.map_map]
    exact List.map_id _
  rw [firsts]
  exact (List.nodup_finRange 8).filter _

theorem each_same {α : Type} (xs : List α) (f : α → World → World) (h : ∀ x, f x w = w) : w.each xs f = w :=
  each_induct (fun v => v = w) f (fun x v hv => by rw [hv, h]) xs w rfl

variable (hf : ∀ q, (w.player q).state = .free)
include hf

theorem turnTrue_roles_free : w.turnTrue e ch false false = w :=
  w.each_same _ _ fun p => roleOf_free (hf p)

theorem turnTrue_allStop_free : w.turnTrue e ch true false = w := by
  have none : w.bookedPlayers = [] :=
    List.eq_nil_iff_forall_not_mem.2 fun r hr => ((w.mem_bookedPlayers r).1 hr).1 (hf r.1)
  rw [turnTrue_allStop, none, each_nil]

theorem turnTrue_wake_free : w.turnTrue e ch false true = w.wakeCause e .condition := by
  rw [turnTrue_wake, turnTrue_roles_free w e ch hf]

end
end World

/-- The reading of each contact (R162). -/
theorem contactReadings (c0 c1 c2 c3 : Bool) (i : Fin 4) : some (contactReading (contact c0 c1 c2 c3 i)) =
    if i = 0 then some (if c0 then 4095 else 0) else if i = 1 then some (if c1 then 4095 else 0)
    else if i = 2 then some (if c2 then 4095 else 0) else some (if c3 then 4095 else 0) := by
  unfold contactReading contact
  split_ifs <;> rfl

/-- Settles O46: the scan end's judgements, and a transition to TRUE by the players' states and by its part. -/
theorem transitionsToTrueAct : Obligations.TransitionsToTrueAct := by
  refine ⟨fun s hh => ⟨fun reading i done hscan => ?_, fun c0 c1 c2 c3 hd hc => ?_⟩, fun w e ch done => ?_,
    fun w e ch p => ?_⟩
  · have after := State.dueEvent_after (fun s => s.world.monitor.scan.isSome)
      (fun e w => w.conversionEnd e reading) hh (by rw [hscan]; rfl)
    rwa [World.conversionEnd_last reading hscan] at after
  · have after := State.dueEvent_after (fun s => s.world.monitor.scanDue)
      (fun e w => w.scanStart e (contact c0 c1 c2 c3)) hh hd
    rwa [World.scanStart_unconverted _ hd hc, funext (contactReadings c0 c1 c2 c3)] at after
  · intro c fresh reading
    have fresh_iff : c.fresh done = true ↔ fresh := Channel.fresh_iff done c
    have read : w.monitor.reading ch = reading := rfl
    refine ⟨fun h => World.judgeChannel_skips ?_, fun r on hf hr => ?_⟩
    · exact h.imp_right (Or.imp_left fun stale => eq_false_of_ne_true (mt fresh_iff.1 stale))
    · intro d turned
      have turns := World.judgeChannel_turns (e := e) on (fresh_iff.2 hf) (read.trans hr)
      refine ⟨World.judgeChannel_stays on (fresh_iff.2 hf) (read.trans hr), fun hj hv => (turns hj).trans ?_,
        fun hj hv => (turns hj).trans ?_⟩
      · exact if_neg hv
      · exact if_pos hv
  · intro c starts stops shown entered
    have starts_iff : c.startsOn ch = true ↔ starts := Player.startsOn_iff ch c
    have stops_iff : c.stopsOn ch = true ↔ stops := Player.stopsOn_iff ch c
    have entered_iff : e.codaJustEntered c = true ↔ entered := e.codaJustEntered_iff c
    refine ⟨fun hw hr he => ?_, fun hs hstop he => ?_, fun hs hstart => ?_, fun hs hstop hv => ?_,
      fun hs hstop hw => ⟨?_, fun bk id x hr hx => ?_⟩, rfl, fun _ => rfl, fun hw q => ?_, fun hf => ?_⟩
    · exact World.roleOf_stays (mt (And.imp_right starts_iff.1) hw) (mt (And.imp_right stops_iff.1) hr)
        (mt (And.imp_right (And.imp stops_iff.1 entered_iff.1)) he)
    · exact World.roleOf_ending hs (stops_iff.2 hstop) (entered_iff.2 he)
    · exact World.roleOf_waiting hs (starts_iff.2 hstart)
    · exact World.roleOf_running hs (stops_iff.2 hstop) hv
    · rw [World.roleOf_held hs (stops_iff.2 hstop), World.finish_player _ _ _ _ _ hw]
    · rw [World.roleOf_held hs (stops_iff.2 hstop), World.finish_bank _ _ _ _ _ hw]
      exact ⟨_, World.endBooking_find _ _ _ _ _ hr hx, rfl, rfl, rfl⟩
    · intro v
      have stopped := w.turnTrue_stopped e ch hw
      refine ⟨stopped.free q, fun hq => ?_⟩
      have plays : (q, (w.player q).ref) ∈ w.bookedPlayers := (w.mem_bookedPlayers _).2 ⟨hq, rfl⟩
      refine ⟨stopped.ended _ plays, fun bk id x hr hx => ?_⟩
      obtain ⟨y, hy, same, written⟩ := stopped.found bk id x hx
      obtain ⟨progress, abrupt⟩ := written (Or.inr ⟨_, plays, hr⟩)
      exact ⟨y, hy, same, progress, abrupt⟩
    · refine ⟨w.turnTrue_roles_free e ch hf, w.turnTrue_allStop_free e ch hf, fun hd => ?_, fun hd => ?_⟩
      · rw [World.turnTrue_wake_free w e ch hf, World.wakeCause_awake w e _ hd]
      · intro v
        have woken : v = w.wakeCause e .condition := w.turnTrue_wake_free e ch hf
        have ctl := World.wakeCause_ctl (e := e) (c := .condition) hd
        rw [woken, ctl]
        exact ⟨rfl, rfl, fun l => Tab.get_fill _ l, rfl, World.wakeCause_pending hd, fun l => by
          rw [World.wakeCause_link hd]; rfl⟩

end Sys2Proof.Machine
end

section
/-! SUPPORT. Claim lists in rank order (R91 to R93): every command keeps them so, being a chain of moves of the
blocks, an event of the port, a warm restart or a reset; and what rank order says of a list's length. -/

namespace Sys2Proof.Machine

namespace State

variable {s t : State}

/-- A chain of moves of the blocks keeps rank order. -/
theorem ranked.moves (h : s.ranked) {bks : Bool} (m : s.world.Moves bks t.world) : t.ranked := m.ranked h

/-- An event that leaves the zones keeps rank order. -/
theorem ranked.zones (h : s.ranked) (hz : t.world.zones = s.world.zones) : t.ranked := by
  intro z
  rw [World.zone, hz]
  exact h z

theorem ranked.withTime (h : s.ranked) (x : TimeBase) : ({ s with time := x } : State).ranked := h

theorem ranked.choose (h : s.ranked) : s.choose.ranked := h

theorem ranked.onWorld (h : s.ranked) {bks : Bool} {f : Env → World → World}
    (hf : ∀ e w, World.Moves bks w (f e w)) : (s.onWorld f).ranked := h.moves (hf s.env s.world)

theorem ranked.raise (h : s.ranked) (k : NoticeKind) : (s.raise k).ranked :=
  h.onWorld (bks := true) fun e w => (World.Moves.refl w).raise e k

theorem ranked.enterTime (h : s.ranked) (x : TimeState) : (s.enterTime x).ranked := h.moves (enterTime_moves x)

theorem ranked.settles (h : s.ranked) (k : s.Settles t) : t.ranked := h.moves k.moves

/-! ## The Time Base -/

theorem ranked.advance (h : s.ranked) : s.advance.ranked := by
  unfold State.advance
  split
  · exact h
  · split
    · exact h.moves (World.Moves.refl (bks := true) s.world).openReach
    · split
      · exact h.enterTime _
      · exact h.moves (((World.Moves.refl s.world).dayRoll _ _).pumpAll _).openReach

theorem ranked.tick (h : s.ranked) : s.tick.ranked := by
  have ticked : { s.settle with
      time := { s.settle.time with silence := satUp Config.counterMax s.settle.time.silence }
      world := s.settle.world.tick }.ranked :=
    (h.settles (State.settles s)).moves (World.Moves.refl s.settle.world).tick
  exact ticked.advance

theorem ranked.reach (h : s.ranked) : s.reach.ranked :=
  h.onWorld (bks := true) fun e w => ((World.Moves.refl w).openReach.reach e).pumpAll e

theorem ranked.stepForward (h : s.ranked) (n : Nat) : (s.stepForward n).ranked := by
  unfold State.stepForward
  by_cases hn : n = 0
  · rw [if_pos hn]
    exact h
  rw [if_neg hn]
  by_cases hd : s.time.tod + n < Config.ticksPerDay
  · rw [if_pos hd]
    exact (h.withTime _).reach
  rw [if_neg hd]
  have old := (h.withTime { s.time with tod := Config.ticksPerDay - 1 }).reach
  by_cases hl : s.time.date = lastDate
  · simp only [if_pos hl]
    exact old
  · simp only [if_neg hl]
    refine ranked.reach (ranked.onWorld (bks := true) ?_ fun e w => (World.Moves.refl w).dayRoll e _)
    exact old.withTime _

theorem ranked.stepBy (h : s.ranked) (d : Int) : (s.stepBy d).ranked := by
  unfold State.stepBy
  split
  · exact h.stepForward _
  · exact h

theorem ranked.pulse (h : s.ranked) : s.pulse.ranked := by
  have locked (x : TimeBase) (d : Int) (y : TimeBase → TimeBase) :
      (({ ({ s with time := x } : State).stepBy d with
        time := y (({ s with time := x } : State).stepBy d).time } : State).enterTime .locked).ranked :=
    (((h.withTime x).stepBy d).withTime _).enterTime _
  unfold State.pulse
  dsimp only
  split
  · split
    · exact (locked _ _ fun x => { x with faults := 0 }).raise _
    · exact locked _ _ fun x => { x with faults := 0 }
  · split
    · exact h
    · exact (locked _ _ fun x => { x with faults := 0 }).raise _

theorem ranked.putPulse (h : s.ranked) (on polarity : Nat) : (s.putPulse on polarity).1.ranked := by
  have met : s.meetHoldover.ranked := h.settles (meetsHoldover s)
  unfold State.putPulse
  split
  · exact h
  · exact h
  · dsimp only
    split
    · exact ranked.enterTime (by exact met) _
    · exact met

theorem ranked.trim (h : s.ranked) (d : Int) : (s.trim d).ranked := by
  have freed (x : TimeBase) : ({ s.stepBy d with time := x } : State).enterTime .free |>.ranked :=
    ranked.enterTime (s := { s.stepBy d with time := x }) (h.stepBy d) _
  unfold State.trim
  dsimp only
  split
  · exact (freed _).raise _
  · exact freed _

theorem ranked.jump (h : s.ranked) (d : Date) (tod : Nat) : (s.jump d tod).ranked := by
  have freed := (h.withTime { s.time with date := d, tod := tod, faults := 0, silence := 0 }).enterTime .free
  have dated {t : State} (ht : t.ranked) : (t.onWorld fun e w => (w.dateSet e d).pumpAll e).ranked :=
    ht.onWorld (bks := true) fun e w => ((World.Moves.refl w).dateSet e d).pumpAll e
  unfold State.jump
  extract_lets x u v
  have stepped : v.ranked := by
    by_cases same : s.time.date = d ∧ s.time.tod = tod
    · rw [show v = u from if_pos same]
      exact freed
    · rw [show v = u.raise .timeStepped from if_neg same]
      exact freed.raise _
  by_cases hd : s.time.date = d
  · rw [if_pos hd]
    exact stepped
  · rw [if_neg hd]
    exact dated stepped

theorem ranked.putTime (h : s.ranked) (year month day tod : Nat) :
    (s.putTime year month day tod).1.ranked := by
  have met : s.meet.ranked := h.settles (meets s)
  unfold State.putTime
  dsimp only
  repeat' split
  iterate 4 exact h
  unfold State.setTo
  dsimp only
  split
  · exact met
  · dsimp only
    split
    · exact met.trim _
    · exact met.jump _ _

/-! ## Requests (TABLE 0-6) -/

theorem ranked.change (h : s.ranked) {f : Env → World → World × Answer}
    (hf : ∀ e w, World.Moves true w (f e w).1) : (s.change f).1.ranked := by
  refine h.moves (bks := true) ?_
  unfold State.change
  dsimp only
  split
  · exact (hf s.env s.world).pumpAll _
  · exact hf s.env s.world

/-- Each request at its block (R190 step 3). -/
theorem ranked.serveRequest (h : s.ranked) (r : Request) : (serveRequest r s).1.ranked := by
  cases r with
  | setTime => exact h.putTime _ _ _ _
  | setPulse => exact h.putPulse _ _
  | openPlan => exact h.change fun _ w => (World.Moves.refl w).openPlan _ _
  | addBooking => exact h.change fun e w => (World.Moves.refl w).addBooking e _ _
  | sealPlan => exact h.change fun e w => (World.Moves.refl w).sealPlan e _
  | activatePlan => exact h.change fun e w => (World.Moves.refl w).activatePlan e _ _ _
  | clearPlan => exact h.change fun _ w => (World.Moves.refl w).clearPlan _
  | cancelBooking => exact h.change fun e w => (World.Moves.refl w).cancelBooking e _ _ _
  | amendEnd => exact h.change fun e w => (World.Moves.refl w).amendEnd e _ _ _ _
  | hold => exact h.change fun e w => (World.Moves.refl w).hold e _
  | resume => exact h.change fun e w => (World.Moves.refl w).resume e _
  | setPasses => exact h.change fun e w => (World.Moves.refl w).setPasses e _ _
  | putZone => exact h.change fun e w => (World.Moves.refl w).putZone e _ _ _ _
  | setLead => exact h.change fun _ w => (World.Moves.refl w).setLead _ _
  | enableLink => exact h.change fun e w => (World.Moves.refl w).enableLink e _
  | disableLink => exact h.change fun e w => (World.Moves.refl w).disableLink e _
  | scanLink => exact h.change fun e w => (World.Moves.refl w).scanLink e _
  | calibrateLink => exact h.change fun e w => (World.Moves.refl w).calibrateLink e _
  | putCondition => exact h.change fun _ w => (World.Moves.refl w).putCondition _ _
  | setReading => exact h.change fun _ w => (World.Moves.refl w).setReading _ _
  | setState => exact h.change fun e w => (World.Moves.refl w).setState e _ _
  | _ => exact h.zones rfl

theorem ranked.serve (h : s.ranked) (f : HostFrame) : (f.serve s).1.ranked := by
  unfold HostFrame.serve
  split
  · exact h
  · exact h
  · exact h.serveRequest _

/-! ## The port's events -/

theorem ranked.takeNext (h : s.ranked) : s.takeNext.ranked := by
  unfold State.takeNext
  split
  · next f rest _ _ => exact ranked.serve (s := { s with port := { s.port with queue := rest } }) h f
  · exact h

theorem ranked.whole (h : s.ranked) (f : HostFrame) : (s.whole f).ranked := by
  unfold State.whole
  dsimp only
  split
  · exact ranked.choose (ranked.takeNext (by exact h))
  · exact h

theorem ranked.arrive (h : s.ranked) (f : HostFrame) : (s.arrive f).ranked := by
  unfold State.arrive
  split
  · exact h
  · split
    · exact h.whole f
    · exact ranked.whole (by exact h) f

theorem ranked.hostByte (h : s.ranked) (x : RxByte) : (s.hostByte x).ranked := by
  unfold State.hostByte
  rcases rxByte s.port.rx x with ⟨rx, ev⟩
  cases ev with
  | nothing => exact h
  | failed => exact h
  | whole kind tag body => exact ranked.whole (s := { s with port := { s.port with rx := rx } }) h _

theorem ranked.hostBytes (h : s.ranked) (bytes : List RxByte) : (s.hostBytes bytes).ranked := by
  unfold State.hostBytes
  split
  · exact h
  · exact List.foldlRecOn bytes State.hostByte h fun t ht x _ => ht.hostByte x

/-- No claim stands after a warm restart (TABLE 5-4). -/
theorem warmRestart_claims (s : State) (z : Fin 64) : (s.warmRestart.world.zone z).claims = [] := by
  have warm : s.warmRestart.world.zone z = (s.closeReach.world.zone z).warm := Tab.get_map _ _ _
  rw [warm]
  rfl

/-- A zone without claims is in rank order. -/
theorem ranked_of_unclaimed (h : ∀ z, (s.world.zone z).claims = []) : s.ranked := fun z => by
  rw [h z]
  exact ⟨.nil, .nil⟩

theorem warmRestart_ranked (s : State) : s.warmRestart.ranked := ranked_of_unclaimed s.warmRestart_claims

/-- No claim stands after a cold start (TABLE 5-4). -/
theorem cold_ranked (high : Bool) : (State.cold high).ranked := ranked_of_unclaimed fun z => by
  have cold : (State.cold high).world.zone z = Zone.cold := Tab.get_fill _ _
  rw [cold]
  rfl

theorem ranked.hostFrameSent (h : s.ranked) : s.hostFrameSent.ranked := by
  unfold State.hostFrameSent
  dsimp only
  split
  · exact h
  · exact h
  · unfold State.noticeSent
    split <;> exact h
  · split
    · exact ranked.choose (warmRestart_ranked _)
    · exact ranked.takeNext (s := { s with port := { s.port with slot := none } }) h

theorem ranked.hostBreak (h : s.ranked) : s.hostBreak.ranked := by
  unfold State.hostBreak
  split
  · exact h
  · refine ranked.choose ?_
    split
    · exact warmRestart_ranked _
    · exact h

/-! ## Commands -/

theorem ranked.event (h : s.ranked) {f : State → State} (hf : (f s).ranked) (he : s.event f = .next t) :
    t.ranked := by
  cases he
  split
  · exact h
  · exact hf

theorem ranked.dueEvent (h : s.ranked) {due : State → Bool} {f : Env → World → World}
    (hf : ∀ e w, World.Moves true w (f e w)) (he : s.dueEvent due f = .next t) : t.ranked := by
  refine h.event ?_ he
  split
  · exact h.onWorld fun e w => (hf e w).pumpAll e
  · exact h

theorem ranked.pointEvent (h : s.ranked) {p : Fin 8} {k : PointKind} {ok : Env → Player → Bool}
    (he : s.pointEvent p k ok = .next t) : t.ranked :=
  ranked.dueEvent h (fun e w => (World.Moves.refl w).act e p k) he

theorem ranked.linkEvent (h : s.ranked) {l : Fin 4} {due : World → Bool} {f : Env → World → World}
    (hf : ∀ e w, World.Moves true w (f e w)) (he : s.linkEvent l due f = .next t) : t.ranked := by
  refine h.event ?_ he
  split
  · exact h.onWorld fun e w => (hf e w).keep ((World.Kept.refl _).pump e l)
  · exact h

/-- A link's event of the wires and the dispatcher, which leave every claim list. -/
theorem ranked.wireEvent (h : s.ranked) {l : Fin 4} {due : World → Bool} {f : Env → World → World}
    (hf : ∀ e w, World.Kept w (f e w)) (he : s.linkEvent l due f = .next t) : t.ranked :=
  h.linkEvent (fun e w => .kept (hf e w)) he

/-- Every command keeps rank order. -/
theorem ranked.exec (h : s.ranked) (c : Instr) (he : exec c s = .next t) : t.ranked := by
  have kept (w : World) := World.Kept.refl w
  have moves (w : World) := World.Moves.refl (bks := true) w
  cases hc : c.request with
  | some x =>
    rw [exec_request s c x.1 x.2 hc] at he
    exact h.event (h.arrive _) he
  | none =>
    cases c with
    | tickEvent => exact h.event h.tick he
    | pulse edge =>
      rw [exec_pulse] at he
      refine h.event ?_ he
      split
      · exact (h.settles (meets s)).pulse
      · exact h
    | pulseSilenceHoldover => exact h.event (h.settles (.holdover s)) he
    | coldStart high =>
      cases he
      exact cold_ranked high
    | resetAsserted =>
      cases he
      exact h
    | hostFrameReceived bytes => exact h.event (h.hostBytes bytes) he
    | badKindRequest kind tag body => exact h.event (h.arrive _) he
    | hostFrameSent => exact h.event h.hostFrameSent he
    | hostBreak => exact h.event h.hostBreak he
    | breakEnd => exact h.event (by exact h) he
    | armPoint =>
      exact h.dueEvent (fun e w => (moves w).armFirst e)
        ((exec_armPoint s).symm.trans he)
    | claimPoint p => exact h.pointEvent ((exec_claimPoint s p).symm.trans he)
    | startPoint p => exact h.pointEvent ((exec_startPoint s p).symm.trans he)
    | windowEnd p => exact h.pointEvent ((exec_windowEnd s p).symm.trans he)
    | endCut p => exact h.pointEvent ((exec_endCut s p).symm.trans he)
    | handPoint p => exact h.pointEvent ((exec_handPoint s p).symm.trans he)
    | duePoint p => exact h.pointEvent ((exec_duePoint s p).symm.trans he)
    | releasePoint p => exact h.pointEvent ((exec_releasePoint s p).symm.trans he)
    | sendTick l =>
      exact h.dueEvent (fun e w => (moves w).sendTicks e.now l)
        ((exec_sendTick s l).symm.trans he)
    | expiryPoint p =>
      refine h.dueEvent (fun e w => ?_) ((exec_expiryPoint s p).symm.trans he)
      split
      · exact moves w
      · exact .kept ((kept w).expire e _)
    | scanStart c0 c1 c2 c3 =>
      exact h.dueEvent (fun e w => (moves w).scanStart e _)
        ((exec_scanStart s c0 c1 c2 c3).symm.trans he)
    | conversionEnd reading =>
      exact h.dueEvent (fun e w => (moves w).conversionEnd e reading)
        ((exec_conversionEnd s reading).symm.trans he)
    | darkGuardExpiry =>
      exact h.dueEvent (fun e w => (moves w).guardExpiry e)
        ((exec_darkGuardExpiry s).symm.trans he)
    | linkFrameSent l =>
      exact h.wireEvent (fun e w => (kept w).frameSent e l)
        ((exec_linkFrameSent s l).symm.trans he)
    | driverReply l bytes trip =>
      exact h.linkEvent (fun e w => (moves w).driverReply e l bytes trip)
        ((exec_driverReply s l bytes trip).symm.trans he)
    | transferTimeout l =>
      exact h.wireEvent (fun e w => (kept w).timeout e l)
        ((exec_transferTimeout s l).symm.trans he)
    | backoffExpiry l a =>
      exact h.wireEvent (fun _ w => (kept w).backoffExpiry l a)
        ((exec_backoffExpiry s l a).symm.trans he)
    | errorAgeExpiry l =>
      exact h.wireEvent (fun _ w => (kept w).errorsAge l)
        ((exec_errorAgeExpiry s l).symm.trans he)
    | warmUpEnd l =>
      exact h.wireEvent (fun e w => (kept w).warmUpEnd e l)
        ((exec_warmUpEnd s l).symm.trans he)
    | lostDriverPollDue l a => exact h.wireEvent (fun _ w => kept w) ((exec_lostDriverPollDue s l a).symm.trans he)
    | refreshDue l a => exact h.wireEvent (fun _ w => kept w) ((exec_refreshDue s l a).symm.trans he)
    | faultRestEnd l =>
      exact h.wireEvent (fun e w => (kept w).restEnd e l)
        ((exec_faultRestEnd s l).symm.trans he)
    | quiesceWaitEnd l =>
      exact h.wireEvent (fun _ w => (kept w).quiesceEnd l)
        ((exec_quiesceWaitEnd s l).symm.trans he)
    | _ => cases hc

end State

/-! ## A ranked list -/

/-- A list with no player twice holds a claim of each of the eight players at most (R92). -/
theorem claimsRanked.length_le {cs : List Claim} (h : claimsRanked cs) : cs.length ≤ 8 := by
  have once : (cs.map (·.player)).Nodup := List.pairwise_map.mpr h.2
  simpa using once.length_le_card

/-- The owner of a zone is the player of its first claim (R92). -/
theorem World.owner_eq (w : World) (z : Fin 64) : w.owner z = (match (w.zone z).claims with
    | [] => none
    | c :: _ => some c.player) := by
  unfold World.owner Zone.owner
  cases (w.zone z).claims <;> rfl

/-- Settles O58: every command keeps rank order, and so does the part that idles; a list in rank order holds no
player twice. -/
theorem everyStepKeepsRanks : Obligations.EveryStepKeepsRanks := by
  intro s t h he
  have after : t.ranked := by
    cases hp : s.pending with
    | nil =>
      rw [step_idle s hp] at he
      cases he
      exact h
    | cons c rest =>
      rw [step_front s c rest hp] at he
      exact State.ranked.exec (s := { s with pending := rest }) h c he
  exact ⟨after, fun z => ⟨(after z).length_le, t.world.owner_eq z⟩⟩

end Sys2Proof.Machine
end

section
/-! SUPPORT. Rank (R91), and a claim and a release at the arbiter case by case (R93 to R97): the takes of a zone that
is deliverable, and what is left where none is made. -/

namespace Sys2Proof.Machine

/-! ## Rank (R91) -/

theorem Claim.above_iff (x y : Claim) : x.above y = true ↔
    (y.cls < x.cls ∨ (x.cls = y.cls ∧ (y.sub < x.sub ∨ (x.sub = y.sub
      ∧ (x.seq < y.seq ∨ (x.seq = y.seq ∧ x.player < y.player)))))) := by
  simp only [above, Bool.or_eq_true, Bool.and_eq_true, decide_eq_true_eq, beq_iff_eq]

theorem Claim.above_asymm (x y : Claim) : ¬(x.above y = true ∧ y.above x = true) := by
  rw [above_iff, above_iff, Fin.lt_def, Fin.lt_def]
  omega

theorem Claim.above_or {x y : Claim} (h : x.player ≠ y.player) : x.above y = true ∨ y.above x = true := by
  cases hx : x.above y with
  | true => exact .inl rfl
  | false => exact .inr (above_total h hx)

theorem mem_enterClaim (c x : Claim) (cs : List Claim) :
    x ∈ enterClaim c cs ↔ x = c ∨ (x ∈ cs ∧ x.player ≠ c.player) := by
  rw [enterClaim, mem_insertBy, List.mem_filter, bne_iff_ne]

/-- A claim list that a claim has entered is not empty, so its zone has an owner. -/
theorem enterClaim_owned (c : Claim) (cs : List Claim) : (enterClaim c cs).head?.map (·.player) ≠ none := by
  intro h
  have empty : enterClaim c cs = [] := by simpa using h
  have : c ∈ enterClaim c cs := (mem_enterClaim c c cs).2 (.inl rfl)
  rw [empty] at this
  cases this

namespace World

section
variable {w v : World} {e : Env} {z : Fin 64} {p : Fin 8} {c : Claim}

/-- The zone's claims with one entered. -/
def entered (z : Fin 64) (c : Claim) (w : World) : World :=
  w.onZone z fun r => { r with claims := enterClaim c r.claims }

/-- The zone's claims without a player's. -/
def left (z : Fin 64) (p : Fin 8) (w : World) : World :=
  w.onZone z fun r => { r with claims := r.claims.filter (·.player != p) }

/-- The first player of the claim list with the claim in it: the owner to be. -/
def ownerAfter (z : Fin 64) (c : Claim) (w : World) : Option (Fin 8) :=
  (enterClaim c (w.zone z).claims).head?.map (·.player)

/-! ## Takes (R98 to R101, R105 to R107) -/

/-- A change of claims leaves a zone deliverable or not. -/
theorem deliverable_congr (hc : (v.zone z).configured = (w.zone z).configured)
    (hd : v.driver (zoneLink z) (zoneAddr z) = w.driver (zoneLink z) (zoneAddr z)) :
    v.deliverable z = w.deliverable z := by rw [deliverable, deliverable, hc, hd]

theorem entered_deliverable : (w.entered z c).deliverable z = w.deliverable z := by
  refine deliverable_congr ?_ rfl
  rw [entered, onZone_zone, if_pos rfl]

theorem left_deliverable : (w.left z p).deliverable z = w.deliverable z := by
  refine deliverable_congr ?_ rfl
  rw [left, onZone_zone, if_pos rfl]

theorem gain_undelivered (h : w.deliverable z = false) : w.gain e z = w := by
  rw [gain, if_neg (by rw [h]; decide)]

theorem fallbackTake_undelivered (h : w.deliverable z = false) : w.fallbackTake e z = w := by
  rw [fallbackTake, if_neg (by rw [h]; decide)]

theorem restoreTake_undelivered (h : w.deliverable z = false) : w.restoreTake e z = w := by
  rw [restoreTake, if_neg (by rw [h]; decide)]

theorem gain_bare (h : w.deliverable z = true) (hl : w.ownerLook z = none) :
    w.gain e z = w.rejoinOwner e z := by rw [gain, if_pos h, hl]

theorem gain_look {x : LookCopy} (h : w.deliverable z = true) (hl : w.ownerLook z = some x) :
    w.gain e z = (w.makeTake e z (w.owner z) x .catchUp).rejoinOwner e z := by rw [gain, if_pos h, hl]

theorem fallbackTake_made (h : w.deliverable z = true) :
    w.fallbackTake e z = w.makeTake e z none (e.lib.copyLook (w.zone z).fallback) .fallback := by
  rw [fallbackTake, if_pos h]

theorem returnLook_look {x : LookCopy} (ho : w.owner z = some p) (hl : w.ownerLook z = some x) :
    w.returnLook e z = w.makeTake e z (some p) x .catchUp := by rw [returnLook, ho, hl]

theorem returnLook_committed {x : LookCopy} (ho : w.owner z = some p) (hl : w.ownerLook z = none)
    (hc : (w.zone z).committed = some x) : w.returnLook e z = w.makeTake e z (some p) x .catchUp := by
  rw [returnLook, ho, hl, hc]

theorem returnLook_fallback (h : w.owner z = none ∨ (w.ownerLook z = none ∧ (w.zone z).committed = none)) :
    w.returnLook e z = w.fallbackTake e z := by
  rcases h with h | ⟨hl, hc⟩
  · rw [returnLook, h]
  · rw [returnLook, hl, hc]
    cases w.owner z <;> rfl

theorem restoreTake_owned {x : LookCopy} (h : w.deliverable z = true) (ho : w.owner z = some p)
    (hc : (w.zone z).committed = some x) : w.restoreTake e z = w.makeTake e z (some p) x .catchUp := by
  rw [restoreTake, if_pos h, ho, hc]

theorem restoreTake_unowned {x : LookCopy} (h : w.deliverable z = true) (ho : w.owner z = none)
    (hc : (w.zone z).committed = some x) : w.restoreTake e z = w.makeTake e z none x .fallback := by
  rw [restoreTake, if_pos h, ho, hc]

theorem restoreTake_uncommitted (h : w.deliverable z = true) (hc : (w.zone z).committed = none) :
    w.restoreTake e z = w.returnLook e z := by
  rw [restoreTake, if_pos h, hc]
  cases w.owner z <;> rfl

theorem addEntry_zone (l : Fin 4) (x : Entry) (y : Fin 64) : (w.addEntry e l x).zone y = w.zone y := by
  unfold addEntry
  dsimp only
  split <;> rfl

/-- A take placed is the zone's individual take in flight (R101). -/
theorem placeSingle_take (q : Option (Fin 8)) (x : LookCopy) (k : TakeKind) :
    ((w.placeSingle e z q x k).zone z).take = some (w.nextRef, k) := by
  have named : (({ w with nextRef := w.nextRef + 1 } : World).onZone z fun r =>
      { r with take := some (w.nextRef, k) }).zone z = { w.zone z with take := some (w.nextRef, k) } := by
    rw [onZone_zone, if_pos rfl]
    rfl
  unfold placeSingle withRef
  dsimp only
  split
  · rw [addSingle, addEntry_zone, named]
  · rw [onLink_zone, named]

/-! ## A claim (R93 to R96) -/

theorem claim_standing (h : w.ownerAfter z c = w.owner z) :
    w.claim e z c = (w.entered z c).claimReaches e (zoneLink z) :=
  congrArg (World.claimReaches e (zoneLink z)) (if_pos h)

theorem claim_unowned (h : w.owner z = none) :
    w.claim e z c = ((w.entered z c).gain e z).claimReaches e (zoneLink z) := by
  unfold claim
  dsimp only
  rw [if_neg (by rw [h]; exact enterClaim_owned c _), h]
  rfl

theorem claim_preempts {old : Fin 8} (ho : w.owner z = some old) (h : w.ownerAfter z c ≠ some old) :
    w.claim e z c = (((((w.withdrawZone e old z).count old Counters.addPreempted).entered z c).gain e
      z).claimReaches e (zoneLink z)) := by
  unfold claim
  dsimp only
  rw [if_neg (by rw [ho]; exact h), ho]
  rfl

theorem claim_owner : (w.claim e z c).owner z = w.ownerAfter z c := by
  rw [owner, Zone.owner, claim_claims, if_pos rfl]
  rfl

/-- The player preempted is counted, unless it is FREE (R86, R95). -/
theorem count_live {f : Counters → Counters} (h : (w.player p).state ≠ .free) :
    w.count p f = w.onPlayer p fun q => { q with counters := f q.counters } := if_neg h

/-- A preemption on a zone that is not deliverable makes no take. -/
theorem claim_preempts_undelivered {old : Fin 8} (hd : w.deliverable z = false) (ho : w.owner z = some old)
    (hf : (w.player old).state ≠ .free) (h : w.ownerAfter z c ≠ some old) :
    w.claim e z c = (((w.withdrawZone e old z).onPlayer old fun q =>
      { q with counters := q.counters.addPreempted }).entered z c).claimReaches e (zoneLink z) := by
  have kept := (Kept.refl w).withdrawZone e old z
  have lists := (Lists.refl w).withdrawZone e old z
  rw [claim_preempts ho h, count_live (by rw [kept.state]; exact hf), gain_undelivered]
  rw [entered_deliverable, ← hd]
  refine deliverable_congr ?_ ?_
  · rw [onPlayer_zone]
    exact kept.configured z
  · rw [driver, onPlayer_link]
    exact lists.driver _ _

/-! ## A release (R97) -/

theorem onZone_same {f : Zone → Zone} (h : f (w.zone z) = w.zone z) : w.onZone z f = w := by
  have same : w.zones.upd z f = w.zones := by
    refine Tab.ext_get fun y => (Tab.get_upd _ _ _ _).trans ?_
    by_cases hz : z = y
    · subst hz
      exact (if_pos rfl).trans h
    · exact if_neg hz
  exact congrArg (fun t => ({ w with zones := t } : World)) same

theorem left_of_unclaimed (h : ∀ x ∈ (w.zone z).claims, x.player ≠ p) : w.left z p = w := by
  refine onZone_same ?_
  rw [List.filter_eq_self.2 fun x hx => by simpa using h x hx]

theorem releaseZone_unclaimed (h : ∀ x ∈ (w.zone z).claims, x.player ≠ p) : w.releaseZone e p z = w := by
  unfold releaseZone
  rw [if_pos (by simpa using h)]

theorem releaseZone_claimed (h : ∃ x ∈ (w.zone z).claims, x.player = p) :
    w.releaseZone e p z = if w.owner z ≠ some p then w.left z p
      else if ((w.left z p).zone z).claims.isEmpty then (w.left z p).fallbackTake e z
      else (w.left z p).gain e z := by
  unfold releaseZone
  rw [if_neg (by simpa using h)]
  rfl

theorem left_claims : ((w.left z p).zone z).claims = (w.zone z).claims.filter (·.player != p) := by
  rw [left, onZone_zone, if_pos rfl]

theorem owner_claims (h : w.owner z = some p) : ∃ x ∈ (w.zone z).claims, x.player = p := by
  obtain ⟨x, hx, hp⟩ := Option.map_eq_some_iff.1 h
  exact ⟨x, List.mem_of_mem_head? hx, hp⟩

theorem releaseZone_last (h : w.owner z = some p) (hl : (w.zone z).claims.filter (·.player != p) = []) :
    w.releaseZone e p z = (w.left z p).fallbackTake e z := by
  rw [releaseZone_claimed (owner_claims h), if_neg (not_not.2 h), left_claims, hl]
  rfl

theorem releaseZone_hands (h : w.owner z = some p) (hl : (w.zone z).claims.filter (·.player != p) ≠ []) :
    w.releaseZone e p z = (w.left z p).gain e z := by
  rw [releaseZone_claimed (owner_claims h), if_neg (not_not.2 h), left_claims,
    if_neg (by rw [List.isEmpty_iff]; exact hl)]

/-- A release by another than the owner, or on a zone that is not deliverable, makes no take. -/
theorem releaseZone_quiet (h : w.owner z ≠ some p ∨ w.deliverable z = false) :
    w.releaseZone e p z = w.left z p := by
  by_cases hc : ∃ x ∈ (w.zone z).claims, x.player = p
  · rw [releaseZone_claimed hc]
    by_cases ho : w.owner z = some p
    · have hd : (w.left z p).deliverable z = false :=
        left_deliverable.trans (h.resolve_left (not_not.2 ho))
      rw [if_neg (not_not.2 ho), fallbackTake_undelivered hd, gain_undelivered hd, ite_self]
    · rw [if_pos ho]
  · have unclaimed : ∀ x ∈ (w.zone z).claims, x.player ≠ p := fun x hx hp => hc ⟨x, hx, hp⟩
    rw [releaseZone_unclaimed unclaimed, left_of_unclaimed unclaimed]

end
end World

/-- Settles O37: rank as it is spelled out, a claim and a release where no take is made, and the takes of a zone that
is deliverable. -/
theorem claimsByRank : Obligations.ClaimsByRank := by
  refine ⟨⟨Claim.above_iff, Claim.above_asymm, fun _ _ => Claim.above_or, fun _ _ _ => Claim.above_trans,
    fun c cs h => ⟨claimsRanked_enter c cs h, fun x => mem_enterClaim c x cs⟩⟩, ?_, ?_⟩
  · intro w e z c
    refine ⟨fun y => ?_, World.claim_owner, World.claim_standing, fun hd ho => ?_, fun old hd ho hf h => ?_,
      fun p => ⟨fun y => ?_, World.releaseZone_unclaimed, World.releaseZone_quiet⟩⟩
    · rw [World.claim_claims]
      split
      · next h => rw [h, if_pos rfl]
      · next h => rw [if_neg (Ne.symm h)]
    · rw [World.claim_unowned ho, World.gain_undelivered (World.entered_deliverable.trans hd)]
      rfl
    · exact ⟨(World.Kept.refl w).withdrawZone e old z, World.claim_preempts_undelivered hd ho hf h⟩
    · rw [World.releaseZone_claims]
      split
      · next h => rw [h, if_pos rfl]
      · next h => rw [if_neg (Ne.symm h)]
  · intro w e z
    refine ⟨fun hd => ⟨World.gain_undelivered hd, World.fallbackTake_undelivered hd,
        World.restoreTake_undelivered hd⟩, fun hd => ?_, fun p x k => ?_, fun c ho => World.claim_unowned ho,
      fun c old ho h => World.claim_preempts ho h, fun p ho => ⟨World.releaseZone_last ho,
        World.releaseZone_hands ho⟩⟩
    · have fallback := World.fallbackTake_made (e := e) hd
      refine ⟨World.gain_bare hd, fun x => World.gain_look hd, fallback,
        fun p x ho hl => congrArg (World.rejoinOwner e z) (World.returnLook_look ho hl),
        fun p x ho hl hc => congrArg (World.rejoinOwner e z) (World.returnLook_committed ho hl hc),
        fun h => congrArg (World.rejoinOwner e z) ((World.returnLook_fallback h).trans fallback),
        fun p x ho hc => World.restoreTake_owned hd ho hc, fun x ho hc => World.restoreTake_unowned hd ho hc,
        fun p x ho hc hl => (World.restoreTake_uncommitted hd hc).trans (World.returnLook_look ho hl),
        fun h hc => (World.restoreTake_uncommitted hd hc).trans ((World.returnLook_fallback ?_).trans fallback)⟩
      exact h.imp_right fun hl => ⟨hl, hc⟩
    · rw [World.placeSingle_take]
      rfl

end Sys2Proof.Machine
end

section
/-! SUPPORT. The tests and retries after an event as an induction (R119, R130, R134): what the test of a tag and the
making of a deferred list's head keep, they keep. -/

namespace Sys2Proof.Machine
namespace World

/-- What the parts of the tests and retries keep. -/
structure TidyKeeps (P : World → Prop) : Prop where
  closeTag : ∀ l t w, P w → P (w.closeTag l t)
  makeHead : ∀ e l w v, P w → w.makeHead e l = some v → P v
  retried : ∀ l w, P w → P (w.onLink l fun k => { k with retry := false })

namespace TidyKeeps
variable {P : World → Prop} (k : TidyKeeps P) {w : World}
include k

theorem closeTags (h : P w) (l : Fin 4) : P (w.closeTags l) :=
  each_induct P _ (fun t v hv => k.closeTag l t v hv) _ w h

theorem retryHead (h : P w) (e : Env) (l : Fin 4) : P (w.retryHead e l).1 := by
  unfold World.retryHead
  split
  · split
    · next hv => exact k.makeHead e l w _ h hv
    · exact k.retried l w h
  · exact h

theorem retryLink (h : P w) (e : Env) (l : Fin 4) (n : Nat) : P (w.retryLink e l n) := by
  induction n generalizing w with
  | zero => exact k.closeTags h l
  | succ n ih =>
    have head := k.retryHead (k.closeTags h l) e l
    unfold World.retryLink
    dsimp only
    split
    · exact ih head
    · exact head

theorem tidy (h : P w) (e : Env) : P (w.tidy e) :=
  each_induct P _ (fun l _ hv => k.retryLink hv e l _) _ w h

end TidyKeeps

/-! ## The making of a head (R119) -/

/-- What the making of a deferred list's head comes to: the list's rest taken, an individual take's entry added; a
group item's undeliverable members counted, its portion done where none is left, or made of those that are. -/
theorem makeHead_cases {e : Env} {l : Fin 4} {w v : World} (hv : w.makeHead e l = some v) :
    (∃ ref a p look due rest, (w.link l).deferred = .single ref a p look due :: rest ∧ (w.link l).room 1 = true
      ∧ v = (w.onLink l fun k => { k with deferred := rest }).addSingle e l ref a p look due)
    ∨ ∃ p id due ms rest t, (w.link l).deferred = .group p id due ms :: rest ∧ (w.link l).freeTag = some t
      ∧ (w.link l).room ms.length = true
      ∧ v = (let judged := (w.onLink l fun k => { k with deferred := rest }).rejudge l p ms
        if judged.1.isEmpty then judged.2.dropDeferred l p id
        else judged.2.makePortion e l p id due judged.1 t) := by
  unfold makeHead at hv
  dsimp only at hv
  split at hv
  · cases hv
  · next ref a p look due rest hd =>
    split at hv
    · next hr =>
      cases hv
      exact .inl ⟨ref, a, p, look, due, rest, hd, hr, rfl⟩
    · cases hv
  · next p id due ms rest hd =>
    split at hv
    · cases hv
    · next t ht =>
      split at hv
      · next hr =>
        cases hv
        exact .inr ⟨p, id, due, ms, rest, t, hd, ht, hr, rfl⟩
      · cases hv

/-- A member judged so stands at an address of a deliverable zone. -/
theorem judge_member {w : World} {p : Fin 8} {z : Fin 64} (h : w.judge p z = .member) :
    w.owner z = some p ∧ w.deliverable z = true := by
  unfold judge at h
  split at h
  · cases h
  · next ho =>
    split at h
    · next hd => exact ⟨not_not.1 ho, hd⟩
    · cases h

theorem zoneLink_zoneAt (l : Fin 4) (a : Fin 16) : zoneLink (zoneAt l a) = l := by
  apply Fin.ext
  simp only [zoneLink, zoneAt]
  omega

theorem zoneAddr_zoneAt (l : Fin 4) (a : Fin 16) : zoneAddr (zoneAt l a) = a := by
  apply Fin.ext
  simp only [zoneAddr, zoneAt]
  omega

theorem zoneAt_zone (z : Fin 64) : zoneAt (zoneLink z) (zoneAddr z) = z := by
  apply Fin.ext
  simp only [zoneLink, zoneAddr, zoneAt]
  omega

theorem deliverable_zoneAt (w : World) (l : Fin 4) (a : Fin 16) :
    w.deliverable (zoneAt l a) = (w.configured l a && (w.driver l a).deliverable) := by
  rw [deliverable, zoneLink_zoneAt, zoneAddr_zoneAt]
  rfl

end World
end Sys2Proof.Machine
end

section
/-! SUPPORT. No TAKE or DROP pends for a driver that is not deliverable (R129, R131, R139): the dispatcher makes one
pend anew only where it makes a member of a group, whose driver is. -/

namespace Sys2Proof.Machine
namespace World

/-- The driver's zone is not deliverable, and nothing pends for it. -/
structure Unpended (l : Fin 4) (a : Fin 16) (w : World) : Prop where
  lost : w.deliverable (zoneAt l a) = false
  pending : ∀ i ∈ (w.link l).pending, i.addr ≠ a

namespace Unpended
variable {l : Fin 4} {a : Fin 16} {w v : World}

/-- What leaves the drivers and the zones' configuring, and makes nothing pend for the driver. -/
theorem keep (h : w.Unpended l a) (k : w.Kept v) (d : w.Lists v)
    (hp : ∀ i ∈ (v.link l).pending, i ∈ (w.link l).pending ∨ i.addr ≠ a) : v.Unpended l a where
  lost := by
    rw [← h.lost, deliverable_zoneAt, deliverable_zoneAt, d.driver, configured, configured, k.configured]
  pending i hi := (hp i hi).elim (h.pending i) id

theorem onLink (h : w.Unpended l a) (m : Fin 4) (f : Link → Link) (hd : (f (w.link m)).drivers = (w.link m).drivers)
    (hp : ∀ i ∈ (f (w.link m)).pending, i ∈ (w.link m).pending) : (w.onLink m f).Unpended l a where
  lost := by
    rw [← h.lost, deliverable_zoneAt, deliverable_zoneAt, driver, onLink_link]
    split
    · next e => subst e; rw [hd]; rfl
    · rfl
  pending i hi := by
    rw [onLink_link] at hi
    split at hi
    · next e => subst e; exact h.pending i (hp i hi)
    · exact h.pending i hi

theorem same (h : w.Unpended l a) (hz : v.zones = w.zones) (hl : v.links = w.links) : v.Unpended l a where
  lost := by
    rw [← h.lost]
    simp only [World.deliverable, zone, driver, link, hz, hl]
  pending i hi := h.pending i (by rw [link, ← hl]; exact hi)

theorem onPortions (h : w.Unpended l a) (m : Fin 4) (p : Fin 8) (id : GroupId)
    (f : List Portion → List Portion) : (w.onPortions m p id f).Unpended l a := h.same rfl rfl

theorem each {α : Type} (h : w.Unpended l a) (xs : List α) (f : α → World → World)
    (hf : ∀ x ∈ xs, ∀ v : World, v.Unpended l a → (f x v).Unpended l a) : (w.each xs f).Unpended l a := by
  induction xs generalizing w with
  | nil => exact h
  | cons x xs ih => exact ih (hf x List.mem_cons_self w h) fun y hy => hf y (List.mem_cons_of_mem _ hy)

theorem count (h : w.Unpended l a) (p : Fin 8) (f : Counters → Counters) : (w.count p f).Unpended l a := by
  unfold World.count
  split
  · exact h
  · exact h.same rfl rfl

theorem addEntry (h : w.Unpended l a) (e : Env) (m : Fin 4) (x : Entry) : (w.addEntry e m x).Unpended l a := by
  have listed := h.onLink m (fun k => { k with stage := insertBy Entry.before x k.stage }) rfl fun _ hi => hi
  unfold World.addEntry
  dsimp only
  split
  · exact listed.same rfl rfl
  · exact listed

/-- An entry for another driver leaves by its state. -/
theorem discardEntry (h : w.Unpended l a) (e : Env) (m : Fin 4) (x : Entry) (hx : m = l → x.addr ≠ a) :
    (w.discardEntry e m x).Unpended l a := by
  refine h.keep ((Kept.refl w).discardEntry e m x) ((Lists.refl w).discardEntry e m x) fun i hi => ?_
  have ended (fin : EntryEnd) (hi : i ∈ ((w.endEntry m x fin).link l).pending) : i ∈ (w.link l).pending := by
    rw [endEntry_link] at hi
    split at hi
    · exact (List.mem_filter.1 hi).1
    · exact hi
  have dropped (stop : DropEnd) (st : DropStage) (hi : i ∈ ((w.startDrop m x stop st).link l).pending) :
      i ∈ (w.link l).pending ∨ i.addr ≠ a := by
    rw [startDrop_link] at hi
    split at hi
    · next hm =>
      rcases List.mem_append.1 hi with hi | hi
      · exact .inl (List.mem_filter.1 hi).1
      · split at hi
        · rw [List.mem_singleton.1 hi]
          exact .inr (hx hm)
        · cases hi
    · exact .inl hi
  unfold World.discardEntry at hi
  split at hi
  · exact .inl hi
  · rw [countTake_link] at hi
    unfold World.removeEntry at hi
    split at hi
    · exact .inl (ended _ hi)
    · exact .inl (ended _ hi)
    · exact dropped _ _ hi
    · exact dropped _ _ hi
    · exact dropped _ _ hi
    · exact dropped _ _ hi
    · exact .inl hi

theorem addMember (h : w.Unpended l a) (e : Env) (m : Fin 4) (p : Fin 8) (id : GroupId) (due : Nat) (t : Fin 15)
    (lead : Nat) (s : EntryState) (x : Member) (hx : m = l → x.addr ≠ a) :
    (w.addMember e m p id due t lead s x).Unpended l a := by
  unfold World.addMember withRef supersede eachEntry
  refine each (addEntry (h.same (v := { w with nextRef := w.nextRef + 1 }) rfl rfl) e m _) _ _ fun y hy v hv => ?_
  refine hv.discardEntry e m y fun hm => ?_
  have at_ : y.addr = x.addr := by
    have test := (List.mem_filter.1 hy).2
    simp only [Bool.and_eq_true, beq_iff_eq] at test
    exact test.1.1.1.2
  rw [at_]
  exact hx hm

theorem makePortion (h : w.Unpended l a) (e : Env) (m : Fin 4) (p : Fin 8) (id : GroupId) (due : Nat)
    (ms : List Member) (t : Fin 15) (hx : ∀ x ∈ ms, m = l → x.addr ≠ a) :
    (w.makePortion e m p id due ms t).Unpended l a := by
  unfold World.makePortion
  refine onPortions (onLink (each h ms _ fun x mem v hv => ?_) m _ rfl fun _ hi => hi) m p id _
  exact hv.addMember e m p id due t _ _ x (hx x mem)

theorem closeTag (h : w.Unpended l a) (m : Fin 4) (t : Fin 15) : (w.closeTag m t).Unpended l a := by
  refine h.keep ((Kept.refl w).closeTag m t) ((Lists.refl w).closeTag m t) fun i hi => .inl ?_
  have same := congrArg Link.pending (((Tidied.refl w).closeTag m t).links l)
  exact same ▸ hi

theorem makeHead (h : w.Unpended l a) {e : Env} {m : Fin 4} (hv : w.makeHead e m = some v) : v.Unpended l a := by
  have taken (rest : List Item) := h.onLink m (fun k => { k with deferred := rest }) rfl fun _ hi => hi
  obtain ⟨ref, b, p, look, due, rest, -, -, rfl⟩ | ⟨p, id, due, ms, rest, t, -, -, -, rfl⟩ := makeHead_cases hv
  · exact (taken rest).addEntry e m _
  · have judged : ((w.onLink m fun k => { k with deferred := rest }).rejudge m p ms).2.Unpended l a :=
      (taken rest).each _ _ fun _ _ _ hv => hv.count p _
    dsimp only
    split
    · exact judged.same rfl rfl
    · refine judged.makePortion e m p id due _ t fun x hx hm hxa => ?_
      subst hm
      have member := (judge_member (by simpa using (List.mem_filter.1 hx).2)).2
      rw [hxa, (taken rest).lost] at member
      cases member

/-- The tests and retries make nothing pend for a driver that is not deliverable. -/
theorem tidyKeeps (l : Fin 4) (a : Fin 16) : TidyKeeps (Unpended l a) where
  closeTag m t _ h := h.closeTag m t
  makeHead _ _ _ _ h hv := h.makeHead hv
  retried m _ h := h.onLink m _ rfl fun _ hi => hi

theorem tidy (h : w.Unpended l a) (e : Env) : (w.tidy e).Unpended l a := (tidyKeeps l a).tidy h e

end Unpended
end World
end Sys2Proof.Machine
end

section
/-! SUPPORT. A driver's loss (R103, R132, R139): its record, the entries it ends with their reports and counts, and
what it leaves of the links. -/

namespace Sys2Proof.Machine

/-- A driver's record once moved to a lost state: set anew where it was READY or BUSY. -/
def Driver.lostTo (s : DriverState) (d : Driver) : Driver :=
  if d.deliverable then { d with state := s, credits := 4, occupied := 0, backoff := .clear, poll := 0 }
  else { d with state := s }

@[simp] theorem Driver.lostTo_state (s : DriverState) (d : Driver) : (d.lostTo s).state = s := by
  unfold lostTo
  split <;> rfl

theorem Driver.lostTo_deliverable {s : DriverState} (hr : s ≠ .ready) (hb : s ≠ .busy) (d : Driver) :
    (d.lostTo s).deliverable = false := by
  simp [deliverable, hr, hb]

namespace World

section
variable (w : World) (e : Env) (l : Fin 4)

/-! ## The entries that end (R132) -/

theorem loseEntry_pending (x : Entry) :
    ((w.loseEntry e l x).link l).pending = (w.link l).pending.filter (·.ref != x.ref) := by
  rw [loseEntry_link, if_pos rfl]
  rfl

theorem loseEach_pending (xs : List Entry) : ((w.each xs (World.loseEntry e l)).link l).pending =
    (w.link l).pending.filter fun i => !xs.any fun x => x.ref == i.ref := by
  induction xs generalizing w with
  | nil => simp
  | cons x xs ih =>
    rw [each_cons, ih, loseEntry_pending, List.filter_filter]
    refine List.filter_congr fun i _ => ?_
    rw [List.any_cons, Bool.not_or, Bool.and_comm, BEq.comm]
    rfl

/-- The GO list and the tags stay. -/
theorem loseEach_gos (xs : List Entry) :
    ((w.each xs (World.loseEntry e l)).link l).gos = (w.link l).gos
      ∧ ((w.each xs (World.loseEntry e l)).link l).tags = (w.link l).tags := by
  induction xs generalizing w with
  | nil => exact ⟨rfl, rfl⟩
  | cons x xs ih =>
    obtain ⟨gos, tags⟩ := ih (w.loseEntry e l x)
    rw [loseEntry_link, if_pos rfl] at gos tags
    exact ⟨gos, tags⟩

/-- The end of an entry is reported to its zone: the take in flight is not it any more (R102). -/
theorem loseEntry_take (x : Entry) (z : Fin 64) : ((w.loseEntry e l x).zone z).take =
    if zoneAt l x.addr = z ∧ (w.zone z).take.any (·.1 == x.ref) = true then none else (w.zone z).take := by
  have reported (fin : EntryEnd) : ((w.endEntry l x fin).zone z).take =
      if zoneAt l x.addr = z ∧ (w.zone z).take.any (·.1 == x.ref) = true then none else (w.zone z).take := by
    have at_ : (w.endEntry l x fin).zone z = _ := report_zone _ _ _ _ _ _
    rw [at_, onLink_zone]
    by_cases hz : zoneAt l x.addr = z
    · simp only [hz, if_true, true_and]
    · simp only [hz, if_false, false_and]
  unfold loseEntry
  split
  · exact reported _
  · rw [countTake_zone]
    exact reported _

/-- A take that is not in flight is not brought back. -/
theorem loseEach_take_ne (xs : List Entry) (z : Fin 64) (t : Nat × TakeKind) (h : (w.zone z).take ≠ some t) :
    ((w.each xs (World.loseEntry e l)).zone z).take ≠ some t := by
  refine each_induct (fun v => (v.zone z).take ≠ some t) _ (fun x v hv => ?_) xs w h
  rw [loseEntry_take]
  split
  · exact nofun
  · exact hv

/-- No entry that has ended is the take in flight of its zone. -/
theorem loseEach_take (xs : List Entry) {x : Entry} (hx : x ∈ xs) (n : TakeKind) :
    ((w.each xs (World.loseEntry e l)).zone (zoneAt l x.addr)).take ≠ some (x.ref, n) := by
  induction xs generalizing w with
  | nil => cases hx
  | cons y xs ih =>
    rcases List.mem_cons.1 hx with rfl | hx
    · refine loseEach_take_ne _ e l xs _ _ ?_
      rw [loseEntry_take]
      split
      · exact nofun
      · next h => exact fun ht => h ⟨rfl, by rw [ht]; simp⟩
    · exact ih _ hx

/-! ## The driver's record -/

variable (a b : Fin 16) (s : DriverState)

/-- The blocks with a driver's record set anew, and its frame and its pending TAKEs and DROPs gone; its entries are
still to end. -/
def disowned (l : Fin 4) (s : DriverState) (a : Fin 16) (w : World) : World :=
  (w.onDriver l a fun d =>
      { d with state := s, credits := 4, occupied := 0, backoff := .clear, poll := 0 }).onLink l fun k =>
    { k with
      transfer := k.transfer.filter (·.addr != a)
      pending := k.pending.filter (·.addr != a) }

theorem dropDriver_lost_already (h : (w.driver l a).deliverable = false) :
    w.dropDriver e l s a = w.onDriver l a fun d => { d with state := s } := if_neg (by rw [h]; decide)

theorem dropDriver_loses (h : (w.driver l a).deliverable = true) :
    w.dropDriver e l s a = ((w.disowned l s a).loseEntries e l a).tidy e := if_pos h

theorem onDriver_driver (f : Driver → Driver) (m : Fin 4) : (w.onDriver l a f).driver m b =
    if l = m ∧ a = b then f (w.driver m b) else w.driver m b := by
  rw [driver, onDriver, onLink_link]
  by_cases hm : l = m
  · subst hm
    rw [if_pos rfl, Tab.get_upd]
    simp only [true_and]
    rfl
  · rw [if_neg hm, if_neg fun h => hm h.1]
    rfl

theorem disowned_driver (m : Fin 4) : (w.disowned l s a).driver m b = if l = m ∧ a = b then
    { w.driver m b with state := s, credits := 4, occupied := 0, backoff := .clear, poll := 0 }
    else w.driver m b := by
  refine Eq.trans ?_ (w.onDriver_driver l a b (fun d =>
    { d with state := s, credits := 4, occupied := 0, backoff := .clear, poll := 0 }) m)
  rw [driver, disowned, onLink_link]
  split <;> rfl

/-- Every driver's record once one has been moved to a lost state. -/
theorem dropDriver_driver (m : Fin 4) : (w.dropDriver e l s a).driver m b =
    if l = m ∧ a = b then (w.driver m b).lostTo s else w.driver m b := by
  cases hd : (w.driver l a).deliverable with
  | false =>
    rw [dropDriver_lost_already w e l a s hd, onDriver_driver]
    split
    · next h =>
      obtain ⟨rfl, rfl⟩ := h
      rw [Driver.lostTo, if_neg (by rw [hd]; decide)]
    · rfl
  | true =>
    rw [dropDriver_loses w e l a s hd, (((Lists.refl _).loseEntries e l a).tidy e).driver, disowned_driver]
    split
    · next h =>
      obtain ⟨rfl, rfl⟩ := h
      rw [Driver.lostTo, if_pos hd]
    · rfl

end

/-! ## What a loss leaves of the links -/

/-- What the loss of drivers leaves of the links: all but the drivers, the dispatcher's lists, the pending list and
what is on the wire; a frame, or a GO, may be stopped. -/
structure Loses (w v : World) : Prop where
  links : ∀ l, { v.link l with
    drivers := (w.link l).drivers
    stage := (w.link l).stage
    gos := (w.link l).gos
    tags := (w.link l).tags
    deferred := (w.link l).deferred
    retry := (w.link l).retry
    pending := (w.link l).pending
    transfer := (w.link l).transfer
    bcast := (w.link l).bcast } = w.link l
  bcast : ∀ l, (v.link l).bcast = (w.link l).bcast ∨ ((v.link l).bcast = none ∧ ∃ t, (w.link l).bcast = some (.go t))
  transfer : ∀ l, (v.link l).transfer = (w.link l).transfer ∨ (v.link l).transfer = none

namespace Loses
variable {u v w : World}

theorem refl (w : World) : w.Loses w := ⟨fun _ => rfl, fun _ => .inl rfl, fun _ => .inl rfl⟩

theorem trans (h : u.Loses v) (k : v.Loses w) : u.Loses w where
  links l := by
    have a := h.links l
    have b := k.links l
    rw [← a, ← b]
  bcast l := by
    rcases k.bcast l with hb | ⟨hb, t, ht⟩
    · rw [hb]; exact h.bcast l
    · rcases h.bcast l with ha | ⟨ha, _⟩
      · exact .inr ⟨hb, t, ha ▸ ht⟩
      · rw [ha] at ht; cases ht
  transfer l := by
    rcases k.transfer l with hb | hb
    · rw [hb]; exact h.transfer l
    · exact .inr hb

theorem of_lists (h : w.Lists v) : w.Loses v where
  links l := by
    have a := h.links l
    rw [← a]
  bcast l := (h.wires l).bcast
  transfer l := (h.wires l).transfer.imp_right And.left

theorem onLink (w : World) (l : Fin 4) (f : Link → Link)
    (hf : { f (w.link l) with
      drivers := (w.link l).drivers
      stage := (w.link l).stage
      gos := (w.link l).gos
      tags := (w.link l).tags
      deferred := (w.link l).deferred
      retry := (w.link l).retry
      pending := (w.link l).pending
      transfer := (w.link l).transfer
      bcast := (w.link l).bcast } = w.link l)
    (hb : (f (w.link l)).bcast = (w.link l).bcast)
    (ht : (f (w.link l)).transfer = (w.link l).transfer ∨ (f (w.link l)).transfer = none) :
    w.Loses (w.onLink l f) := by
  refine ⟨fun m => ?_, fun m => ?_, fun m => ?_⟩ <;> rw [onLink_link] <;> split
  · next e => subst e; exact hf
  · rfl
  · next e => subst e; exact .inl hb
  · exact .inl rfl
  · next e => subst e; exact ht
  · exact .inl rfl

theorem dropDriver (w : World) (e : Env) (l : Fin 4) (s : DriverState) (a : Fin 16) :
    w.Loses (w.dropDriver e l s a) := by
  cases hd : (w.driver l a).deliverable with
  | false =>
    rw [dropDriver_lost_already w e l a s hd]
    exact onLink w l _ rfl rfl (.inl rfl)
  | true =>
    rw [dropDriver_loses w e l a s hd]
    refine trans ((onLink w l _ rfl rfl (.inl rfl)).trans (onLink _ l _ rfl rfl ?_))
      (of_lists (((Lists.refl _).loseEntries e l a).tidy e))
    generalize (World.link _ l).transfer = t
    cases t with
    | none => exact .inl rfl
    | some x =>
      dsimp only [Option.filter]
      split
      · exact .inl rfl
      · exact .inr rfl

theorem dropEach (w : World) (e : Env) (l : Fin 4) (s : DriverState) (as : List (Fin 16)) :
    w.Loses (w.each as (World.dropDriver e l s)) :=
  each_induct (w.Loses ·) _ (fun a v hv => hv.trans (dropDriver v e l s a)) as w (refl w)

theorem state (h : w.Loses v) (l : Fin 4) : (v.link l).state = (w.link l).state := by
  have a := congrArg Link.state (h.links l)
  exact a

theorem idle (h : w.Loses v) {l : Fin 4} (ht : (w.link l).transfer = none) : (v.link l).transfer = none :=
  (h.transfer l).elim (·.trans ht) id

end Loses

/-! ## Nothing pends for a lost driver -/

namespace Unpended
variable {l m : Fin 4} {a b : Fin 16} {w : World} {e : Env} {s : DriverState}

/-- A driver made lost is not deliverable any more. -/
theorem deliverable_dropDriver (hr : s ≠ .ready) (hb : s ≠ .busy)
    (h : m = l ∧ b = a ∨ w.deliverable (zoneAt l a) = false) :
    (w.dropDriver e m s b).deliverable (zoneAt l a) = false := by
  rw [deliverable_zoneAt, dropDriver_driver]
  split
  · rw [Driver.lostTo_deliverable hr hb, Bool.and_false]
  · next hn =>
    rw [← h.resolve_left hn, deliverable_zoneAt, configured, configured,
      ((Kept.refl w).dropDriver e m s b).configured]

theorem loseEntries (h : w.Unpended l a) (e : Env) (m : Fin 4) (b : Fin 16) :
    (w.loseEntries e m b).Unpended l a := by
  refine h.keep ((Kept.refl w).loseEntries e m b) ((Lists.refl w).loseEntries e m b) fun i hi => .inl ?_
  by_cases hm : m = l
  · subst hm
    rw [World.loseEntries, eachEntry, loseEach_pending] at hi
    exact (List.mem_filter.1 hi).1
  · rw [World.loseEntries, eachEntry, loseEach_other _ _ _ _ hm] at hi
    exact hi

theorem disowned_pending (hr : s ≠ .ready) (hb : s ≠ .busy) (h : m = l ∧ b = a ∨ w.Unpended l a) :
    (w.disowned m s b).Unpended l a := by
  refine ⟨?_, fun i hi => ?_⟩
  · rw [deliverable_zoneAt, disowned_driver]
    split
    · simp [Driver.deliverable, hr, hb]
    · next hn =>
      rw [← (h.resolve_left hn).lost, deliverable_zoneAt]
      rfl
  · rw [disowned, onLink_link, onDriver, onLink_link] at hi
    split at hi
    · obtain ⟨hi, test⟩ := List.mem_filter.1 hi
      rcases h with ⟨-, rfl⟩ | h
      · simpa using test
      · exact h.pending i hi
    · next hn => exact (h.resolve_left fun hm => hn hm.1).pending i hi

/-- Once a READY or BUSY driver is lost nothing pends for it, and the loss of any driver makes nothing pend for one
that is not deliverable. -/
theorem dropDriver (hr : s ≠ .ready) (hb : s ≠ .busy)
    (h : (m = l ∧ b = a ∧ (w.driver l a).deliverable = true) ∨ w.Unpended l a) :
    (w.dropDriver e m s b).Unpended l a := by
  cases hd : (w.driver m b).deliverable with
  | false =>
    have stays : w.Unpended l a := h.resolve_left fun ⟨hm, hb, ht⟩ => by
      subst hm hb
      rw [hd] at ht
      cases ht
    refine ⟨deliverable_dropDriver hr hb (.inr stays.lost), fun i hi => stays.pending i ?_⟩
    rw [dropDriver_lost_already w e m b s hd, onDriver, onLink_link] at hi
    split at hi <;> exact hi
  | true =>
    rw [dropDriver_loses w e m b s hd]
    exact ((disowned_pending hr hb (h.imp_left fun ⟨hm, hb, _⟩ => ⟨hm, hb⟩)).loseEntries e m b).tidy e

end Unpended
end World
end Sys2Proof.Machine
end

section
/-! SUPPORT. TRANSFER_TIMEOUT (R140, R142): an attempt repeated, and a transfer failed by the kind of its frame; and a
driver's loss in full. -/

namespace Sys2Proof.Machine
namespace World

section
variable {w : World} {e : Env} {l : Fin 4} {x : Transfer}

/-- A transfer whose attempt is repeated. -/
def repeats (l : Fin 4) (x : Transfer) (w : World) : World := w.onLink l fun k =>
  { k with transfer := some { x with attempt := x.attempt + 1, ticks := 0, onWire := true } }

/-- The transfer in flight ended. -/
def idled (l : Fin 4) (w : World) : World := w.onLink l fun k => { k with transfer := none }

theorem attemptFails_repeats (h : x.attempt < x.frame.limit) : w.attemptFails e l x = w.repeats l x := if_pos h

theorem attemptFails_fails (h : x.frame.limit ≤ x.attempt) : w.attemptFails e l x = w.transferFails e l x :=
  if_neg (Nat.not_lt.2 h)

theorem timeout_due (ht : (w.link l).transfer = some x) (hd : x.timedOut = true) :
    w.timeout e l = w.attemptFails e l x := by
  unfold timeout
  rw [ht]
  exact if_pos hd

theorem repeats_begun : w.Begun (w.repeats l x) := Begun.onLink w l _ rfl

theorem repeats_busy : ((w.repeats l x).link l).wireIdle = false := by
  rw [repeats, onLink_link, if_pos rfl]
  rfl

/-! ## A transfer failed, by its frame -/

theorem transferFails_poll {flush : Bool} (h : x.frame = .poll flush false) : w.transferFails e l x =
    (w.idled l).onDriver l x.addr fun d => { d with poll := 0 } := by
  unfold transferFails
  rw [h]
  rfl

theorem transferFails_sleep (h : x.frame = .sleep) : w.transferFails e l x = w.idled l := by
  unfold transferFails
  rw [h]
  rfl

theorem transferFails_scan {flush : Bool} (h : x.frame = .poll flush true) : w.transferFails e l x =
    (if flush then (w.idled l).dropDriver e l .absent x.addr
      else (w.idled l).driverFails e l x.addr).scanOn l x.addr := by
  unfold transferFails
  rw [h]
  rfl

/-- Every other frame. -/
theorem transferFails_driver (hp : ∀ flush scan, x.frame ≠ .poll flush scan) (hs : x.frame ≠ .sleep) :
    w.transferFails e l x = (w.idled l).driverFails e l x.addr := by
  unfold transferFails
  cases hf : x.frame with
  | poll flush scan => exact absurd hf (hp flush scan)
  | sleep => exact absurd hf hs
  | stage | take | drop | refresh | probe => rfl

theorem idled_transfer : ((w.idled l).link l).transfer = none := by
  rw [idled, onLink_link, if_pos rfl]

theorem idled_driver (a : Fin 16) : (w.idled l).driver l a = w.driver l a := by
  rw [driver, idled, onLink_link, if_pos rfl]
  rfl

/-- A lost driver's frame stays ended. -/
theorem dropDriver_idled {s : DriverState} {a : Fin 16} :
    (((w.idled l).dropDriver e l s a).link l).transfer = none :=
  (Loses.dropDriver (w.idled l) e l s a).idle idled_transfer

/-- The driver that a failed transfer leaves. -/
theorem dropDriver_idled_driver {s : DriverState} {a : Fin 16} :
    ((w.idled l).dropDriver e l s a).driver l a = (w.driver l a).lostTo s := by
  rw [dropDriver_driver, if_pos ⟨rfl, rfl⟩, idled_driver]

/-- A scan poll failed: the driver's state settled, and the scan past its address (R149). -/
theorem scanOn_after {a : Fin 16} (s : DriverState) :
    let v := ((w.idled l).dropDriver e l s a).scanOn l a
    (v.link l).transfer = none ∧ (v.driver l a).state = s
      ∧ (v.link l).scanPos = (w.link l).scanPos.map fun _ => a.val + 1 := by
  intro v
  have pos : (((w.idled l).dropDriver e l s a).link l).scanPos = ((w.idled l).link l).scanPos := by
    have fields := congrArg Link.scanPos ((Loses.dropDriver (w.idled l) e l s a).links l)
    exact fields
  have at_ : v.link l = { ((w.idled l).dropDriver e l s a).link l with
      scanPos := (((w.idled l).dropDriver e l s a).link l).scanPos.map fun _ => a.val + 1 } := by
    exact (onLink_link _ _ _ _).trans (if_pos rfl)
  refine ⟨by rw [at_]; exact dropDriver_idled, ?_, ?_⟩
  · rw [driver, at_]
    exact (congrArg Driver.state dropDriver_idled_driver).trans (Driver.lostTo_state _ _)
  · rw [at_, pos, idled, onLink_link, if_pos rfl]

/-! ## The loss in full (R103, R132, R139) -/

variable {a : Fin 16} {s : DriverState}

theorem disowned_other {m : Fin 4} (h : m ≠ l) : (w.disowned l s a).link m = w.link m := by
  rw [disowned, onLink_link, if_neg (Ne.symm h), onDriver, onLink_link, if_neg (Ne.symm h)]

theorem disowned_link : (w.disowned l s a).link l = { w.link l with
    drivers := (w.link l).drivers.upd a fun d =>
      { d with state := s, credits := 4, occupied := 0, backoff := .clear, poll := 0 }
    transfer := (w.link l).transfer.filter (·.addr != a)
    pending := (w.link l).pending.filter (·.addr != a) } := by
  rw [disowned, onLink_link, if_pos rfl, onDriver, onLink_link, if_pos rfl]

/-- The entries that a driver's loss ends. -/
theorem disowned_loseEntries : (w.disowned l s a).loseEntries e l a =
    (w.disowned l s a).each ((w.link l).stage.filter fun x => x.addr == a) (World.loseEntry e l) := by
  rw [loseEntries, eachEntry, disowned_link]

end

section
variable (w : World) (e : Env) (l : Fin 4) (a : Fin 16) (s : DriverState)

/-- What a driver's loss is, and what it leaves of the blocks before the tests and retries that follow it. -/
theorem dropDriver_full :
    let k := w.link l
    let v := w.dropDriver e l s a
    let theirs := k.stage.filter fun x => x.addr == a
    let settled := (w.disowned l s a).loseEntries e l a
    let lost (p : Fin 8) := theirs.countP fun x => x.player == some p && !x.dropping
    ((w.driver l a).deliverable = false → v = w.onDriver l a fun d => { d with state := s })
    ∧ ((w.driver l a).deliverable = true → v = settled.tidy e
      ∧ (w.undeferred → k.refsDistinct → w.Lost l (· == a) v))
    ∧ (∀ m, m ≠ l → settled.link m = w.link m)
    ∧ (settled.link l).stage = k.stage.filter (fun y => !theirs.any fun x => x.ref == y.ref)
    ∧ (settled.link l).deferred = k.deferred ∧ (settled.link l).gos = k.gos
    ∧ (settled.link l).tags = k.tags
    ∧ (settled.link l).pending =
      k.pending.filter (fun i => i.addr != a && !theirs.any fun x => x.ref == i.ref)
    ∧ (∀ z, (settled.zone z).committed = (w.zone z).committed)
    ∧ (∀ x ∈ theirs, ∀ n, (settled.zone (zoneAt l a)).take ≠ some (x.ref, n))
    ∧ (∀ p, (w.player p).state = .free → settled.player p = w.player p)
    ∧ ∀ p, (w.player p).state ≠ .free → (w.player p).counters.discarded ≤ 65535 →
      settled.player p = { w.player p with counters := { (w.player p).counters with
        discarded := min 65535 ((w.player p).counters.discarded + lost p) } }
      ∧ (0 < lost p → (settled.notices.get NoticeKind.lateTake.no).pending = true) := by
  intro k v theirs settled lost
  have ends : settled = (w.disowned l s a).each theirs (World.loseEntry e l) := disowned_loseEntries
  have at_ := disowned_link (w := w) (l := l) (a := a) (s := s)
  obtain ⟨gos, tags⟩ := loseEach_gos (w.disowned l s a) e l theirs
  refine ⟨dropDriver_lost_already w e l a s, fun h => ⟨dropDriver_loses w e l a s h, fun hd hn => ?_⟩,
    fun m hm => ?_, ?_, ?_, ?_, ?_, ?_, fun z => ?_, fun x hx n => ?_, fun p hp => ?_, fun p hp hc => ⟨?_, fun hl => ?_⟩⟩
  · rw [show v = w.loseDriver e l a s from if_pos h]
    exact w.loseDriver_lost e l a s hd hn
  · rw [ends, loseEach_other _ _ _ _ (Ne.symm hm), disowned_other hm]
  · rw [ends, loseEach_stage, at_]
  · rw [ends, loseEach_deferred, at_]
  · rw [ends, gos, at_]
  · rw [ends, tags, at_]
  · rw [ends, loseEach_pending, at_, List.filter_filter]
    exact List.filter_congr fun i _ => Bool.and_comm _ _
  · rw [ends, loseEach_committed]
    rfl
  · have addr : x.addr = a := by simpa using (List.mem_filter.1 hx).2
    rw [ends, ← addr]
    exact loseEach_take _ e l theirs hx n
  · rw [ends]
    exact loseEach_free _ e l theirs p hp
  · rw [ends]
    exact loseEach_player _ e l theirs p hp hc
  · rw [ends]
    refine loseEach_raised _ e l theirs p hp ?_
    obtain ⟨x, hx, test⟩ := List.countP_pos_iff.1 hl
    simp only [Bool.and_eq_true, beq_iff_eq, Bool.not_eq_true'] at test
    exact ⟨x, hx, test⟩

end
end World

theorem TxFrame.limit_eq (f : TxFrame) : (match f with
    | .poll _ scan => if scan then 1 else 0
    | .sleep => 0
    | _ => 3) = f.limit := by cases f <;> rfl

/-- Settles O40: the timeout by the attempt's number and its frame, and a driver's loss as it stands. -/
theorem timeoutRepeatsOrFails : Obligations.TimeoutRepeatsOrFails := by
  refine ⟨fun s l x hh ht => ?_, fun w e l a s => w.dropDriver_full e l a s⟩
  intro e limit ended repeated w
  have hl : limit = x.frame.limit := TxFrame.limit_eq x.frame
  have timed (hw : x.onWire = false) (ht2 : 2 ≤ x.ticks) : s.world.timeout s.env l = s.world.attemptFails s.env l x
      ∧ (s.world.link l).transfer.any Transfer.timedOut = true := by
    have due : x.timedOut = true := by simp [Transfer.timedOut, hw, ht2]
    exact ⟨World.timeout_due ht due, by rw [ht]; exact due⟩
  have kept := (World.Kept.refl s.world).transferFails s.env l x
  refine ⟨fun h => ?_, fun hw ht2 => ?_,
    fun flush => World.transferFails_poll, World.transferFails_sleep, fun hp hs => ?_, fun flush hf => ?_⟩
  · refine State.linkEvent_not_due l (fun w => (w.link l).transfer.any Transfer.timedOut)
      (fun e w => w.timeout e l) hh ?_
    rw [ht]
    rcases h with h | h
    · simp [Transfer.timedOut, h]
    · simp [Transfer.timedOut, Nat.not_le.2 h]
  · obtain ⟨fails, due⟩ := timed hw ht2
    refine ⟨fun hn => ⟨?_, fun ho hq => ?_⟩, fun hn => ?_⟩
    · obtain ⟨t, he, after⟩ := State.linkEvent_after l (fun w => (w.link l).transfer.any Transfer.timedOut)
        (fun e w => w.timeout e l) hh due
      rw [fails, World.attemptFails_repeats (hl ▸ hn)] at after
      exact ⟨t, he, after⟩
    · have begun := World.repeats_begun (w := s.world) (l := l) (x := x)
      have busy := World.pump_busy s.env World.repeats_busy ((begun.longOpOver l).trans ho)
        ((begun.quiesced l).trans hq)
      refine (State.linkEvent_due l (fun w => (w.link l).transfer.any Transfer.timedOut)
        (fun e w => w.timeout e l) hh due).trans ?_
      rw [State.onWorld_eq, fails, World.attemptFails_repeats (hl ▸ hn), busy]
      rfl
    · obtain ⟨t, he, after⟩ := State.linkEvent_after l (fun w => (w.link l).transfer.any Transfer.timedOut)
        (fun e w => w.timeout e l) hh due
      rw [fails, World.attemptFails_fails (hl ▸ hn)] at after
      exact ⟨t, he, after⟩
  · have fails : w = (ended.dropDriver s.env l .unresponsive x.addr).raise s.env .driverFault :=
      World.transferFails_driver hp hs
    have driver : w.driver l x.addr = (s.world.driver l x.addr).lostTo .unresponsive := by
      rw [fails]
      exact World.dropDriver_idled_driver
    refine ⟨kept, ?_, by rw [driver, Driver.lostTo_state], ?_, fun hd => ?_, fails⟩
    · rw [fails]
      exact World.dropDriver_idled
    · rw [fails]
      exact World.raise_pending _ _ .driverFault
    · rw [driver, Driver.lostTo, if_pos hd]
      refine ⟨rfl, rfl, rfl, ?_⟩
      rw [fails]
      refine (World.Unpended.dropDriver (l := l) (a := x.addr) (by decide) (by decide) (.inl ⟨rfl, rfl, ?_⟩)).pending
      exact (congrArg Driver.deliverable (World.idled_driver x.addr)).trans hd
  · have scanned := World.scanOn_after (w := s.world) (e := s.env) (l := l) (a := x.addr)
    have fails : w = _ := World.transferFails_scan hf
    cases flush with
    | true =>
      obtain ⟨idle, state, pos⟩ := scanned .absent
      refine ⟨kept, ?_, ?_, ?_, nofun, fails⟩ <;> rw [fails]
      exacts [idle, state, pos]
    | false =>
      obtain ⟨idle, state, pos⟩ := scanned .unresponsive
      refine ⟨kept, ?_, ?_, ?_, fun _ => ?_, fails⟩ <;> rw [fails]
      exacts [idle, state, pos, World.raise_pending _ _ .driverFault]

end Sys2Proof.Machine
end

section
/-! SUPPORT. The withdrawal of a zone's individual take (R101), as it stands before the tests and retries that follow
it, and what it leaves where nothing is deferred. -/

namespace Sys2Proof.Machine
namespace World

section
variable (w : World) (e : Env) (l : Fin 4)

/-- A removal brings no reference and leaves none twice. -/
theorem removeEntry_refs (x : Entry) (stop : DropEnd) (m : Fin 4) :
    List.Sublist (((w.removeEntry l x stop).link m).stage.map (·.ref)) ((w.link m).stage.map (·.ref)) := by
  have ended (fin : EntryEnd) :
      List.Sublist (((w.endEntry l x fin).link m).stage.map (·.ref)) ((w.link m).stage.map (·.ref)) := by
    rw [endEntry_link]
    split
    · exact List.filter_sublist.map _
    · exact List.Sublist.refl _
  have dropped (st : DropStage) :
      ((w.startDrop l x stop st).link m).stage.map (·.ref) = (w.link m).stage.map (·.ref) := by
    rw [startDrop_link]
    split
    · rw [List.map_map]
      refine List.map_congr_left fun y _ => ?_
      rw [Function.comp]
      split <;> rfl
    · rfl
  unfold removeEntry
  split
  · exact ended _
  · exact ended _
  · exact (dropped _).symm ▸ List.Sublist.refl _
  · exact (dropped _).symm ▸ List.Sublist.refl _
  · exact (dropped _).symm ▸ List.Sublist.refl _
  · exact (dropped _).symm ▸ List.Sublist.refl _
  · exact List.Sublist.refl _

/-- The entries of one reference withdrawn, and the deferred take of that reference. -/
def takeWithdrawn (l : Fin 4) (ref : Nat) (w : World) : World :=
  (w.eachEntry l (·.ref == ref) (World.withdrawEntry l)).dropItems l fun i =>
    match i with
    | .group .. => false
    | .single r _ _ _ _ => r == ref

theorem withdrawTake_none {z : Fin 64} (h : (w.zone z).take = none) : w.withdrawTake e z = w := by
  unfold withdrawTake
  rw [h]

theorem withdrawTake_some {z : Fin 64} {ref : Nat} {n : TakeKind} (h : (w.zone z).take = some (ref, n)) :
    w.withdrawTake e z = (w.takeWithdrawn (zoneLink z) ref).tidy e := by
  unfold withdrawTake
  rw [h]
  rfl

theorem withdrawEach_deferred (xs : List Entry) (m : Fin 4) :
    ((w.each xs (World.withdrawEntry l)).link m).deferred = (w.link m).deferred :=
  each_induct (fun v => (v.link m).deferred = (w.link m).deferred) _
    (fun x v hv => (v.removeEntry_deferred l x .withdrawn m).trans hv) xs w rfl

/-- What stands on a link that has nothing deferred has nothing deferred. -/
theorem takeWithdrawn_undeferred (ref : Nat) (h : w.undeferred) : (w.takeWithdrawn l ref).undeferred := by
  intro m
  have nothing : ((w.eachEntry l (·.ref == ref) (World.withdrawEntry l)).link m).deferred = [] :=
    (w.withdrawEach_deferred l _ m).trans (h m)
  rw [takeWithdrawn, dropItems_link]
  split
  · rw [nothing]
    rfl
  · exact nothing

theorem takeWithdrawn_refs (ref : Nat) (m : Fin 4) :
    List.Sublist (((w.takeWithdrawn l ref).link m).stage.map (·.ref)) ((w.link m).stage.map (·.ref)) := by
  have entries : List.Sublist
      (((w.eachEntry l (·.ref == ref) (World.withdrawEntry l)).link m).stage.map (·.ref))
      ((w.link m).stage.map (·.ref)) :=
    each_induct (fun v => List.Sublist ((v.link m).stage.map (·.ref)) ((w.link m).stage.map (·.ref))) _
      (fun x v hv => (v.removeEntry_refs l x .withdrawn m).trans hv) _ w (List.Sublist.refl _)
  rw [takeWithdrawn, dropItems_link]
  split <;> exact entries

theorem withdrawTake_undeferred (z : Fin 64) (h : w.undeferred) : (w.withdrawTake e z).undeferred := by
  cases ht : (w.zone z).take with
  | none => rw [withdrawTake_none w e ht]; exact h
  | some t =>
    have nothing := w.takeWithdrawn_undeferred (zoneLink z) t.1 h
    rw [withdrawTake_some w e ht]
    exact fun m => ((tidy_tidied _ e nothing).deferred m).trans (nothing m)

theorem withdrawTake_refsDistinct (z : Fin 64) (h : w.undeferred) (m : Fin 4) (hn : (w.link m).refsDistinct) :
    ((w.withdrawTake e z).link m).refsDistinct := by
  cases ht : (w.zone z).take with
  | none => rw [withdrawTake_none w e ht]; exact hn
  | some t =>
    have nothing := w.takeWithdrawn_undeferred (zoneLink z) t.1 h
    rw [withdrawTake_some w e ht, Link.refsDistinct, (tidy_tidied _ e nothing).stage m]
    exact hn.sublist (w.takeWithdrawn_refs _ _ m)

end

/-! ## A driver forgotten (R109) -/

section
variable {w : World} {e : Env} {z : Fin 64}

/-- The blocks with no frame in flight to a zone's driver. -/
def unsent (z : Fin 64) (w : World) : World := w.onLink (zoneLink z) fun k =>
  { k with transfer := k.transfer.filter (·.addr != zoneAddr z) }

theorem forgetDriver_eq : w.forgetDriver e z = (w.unsent z).dropDriver e (zoneLink z) .absent (zoneAddr z) := rfl

theorem unsent_driver (l : Fin 4) (a : Fin 16) : (w.unsent z).driver l a = w.driver l a := by
  rw [driver, unsent, onLink_link]
  split <;> rfl

theorem forgetDriver_kept : w.Kept (w.forgetDriver e z) :=
  ((Kept.refl w).onLink _ _ rfl fun h => h).dropDriver e _ _ _

theorem forgetDriver_driver : (w.forgetDriver e z).driver (zoneLink z) (zoneAddr z) =
    (w.driver (zoneLink z) (zoneAddr z)).lostTo .absent := by
  rw [forgetDriver_eq, dropDriver_driver, if_pos ⟨rfl, rfl⟩, unsent_driver]

theorem forgetDriver_transfer {x : Transfer} (h : ((w.forgetDriver e z).link (zoneLink z)).transfer = some x) :
    x.addr ≠ zoneAddr z := by
  rcases (Loses.dropDriver (w.unsent z) e (zoneLink z) .absent (zoneAddr z)).transfer (zoneLink z) with ht | ht
  · rw [forgetDriver_eq, ht, unsent, onLink_link, if_pos rfl] at h
    simpa using (Option.filter_eq_some_iff.1 h).2
  · rw [forgetDriver_eq, ht] at h
    cases h

theorem forgetDriver_unpended (h : (w.driver (zoneLink z) (zoneAddr z)).deliverable = true) :
    (w.forgetDriver e z).Unpended (zoneLink z) (zoneAddr z) := by
  rw [forgetDriver_eq]
  exact Unpended.dropDriver (by decide) (by decide) (.inl ⟨rfl, rfl, by rw [unsent_driver]; exact h⟩)

theorem forgetDriver_lost (h : (w.driver (zoneLink z) (zoneAddr z)).deliverable = true) (hd : w.undeferred)
    (hn : (w.link (zoneLink z)).refsDistinct) :
    w.Lost (zoneLink z) (· == zoneAddr z) (w.forgetDriver e z) := by
  have lists (m : Fin 4) : ((w.unsent z).link m).stage = (w.link m).stage
      ∧ ((w.unsent z).link m).deferred = (w.link m).deferred := by
    rw [unsent, onLink_link]
    split <;> exact ⟨rfl, rfl⟩
  have first : w.Lost (zoneLink z) (fun _ => false) (w.unsent z) :=
    .none (fun m => (lists m).1) (fun _ => rfl) (fun _ => rfl)
  have second : (w.unsent z).Lost (zoneLink z) (· == zoneAddr z) (w.forgetDriver e z) := by
    rw [forgetDriver_eq, dropDriver, if_pos (by rw [unsent_driver]; exact h)]
    exact loseDriver_lost _ e _ _ _ (fun m => (lists m).2.trans (hd m)) (first.refsDistinct hn)
  exact first.trans second ((Kept.refl w).onLink _ _ rfl fun h => h) ((Kept.refl _).dropDriver e _ _ _)

/-! ## The requests on zones (R108 to R110) -/

theorem onZone_onZone (w : World) (z : Fin 64) (f g : Zone → Zone) :
    (w.onZone z f).onZone z g = w.onZone z (g ∘ f) :=
  congrArg (fun t => { w with zones := t }) (Tab.upd_upd _ _ _ _)

theorem onZone_self (w : World) (z : Fin 64) (f : Zone → Zone) : (w.onZone z f).zone z = f (w.zone z) := by
  rw [onZone_zone, if_pos rfl]

variable {n lead : Nat} {look : Fin 256}

theorem forZone_none {m : Nat} {k : Fin 64 → World × Answer} (h : 64 ≤ m) : forZone w m k = (w, .badField 0) := by
  rw [forZone, index?_eq_none.2 h]

theorem forZone_val {k : Fin 64 → World × Answer} : forZone w z.val k = k z := by
  rw [forZone, index?_eq_some.2 rfl]

/-- A zone's fallback look and lead trim set (R108). -/
def zoneSet (z : Fin 64) (look : Fin 256) (lead : Nat) (w : World) : World :=
  w.onZone z fun r => { r with fallback := look, lead := lead }

theorem putZone_flag (h : 1 < n) : w.putZone e z.val n look.val lead = (w, .badField 1) := by
  rw [putZone, forZone_val, flag?_none h]

/-- Past the test of the configured value, the answer turns on the other fields and the zone. -/
theorem putZone_fields (h : n ≤ 1) : w.putZone e z.val n look.val lead =
    if 20 < lead then (w, .badField 3)
    else if !(n == 1) && (w.zone z).configured && !(w.zone z).claims.isEmpty then (w, .no .inUse)
    else ((w.zoneSet z look lead).configureZone e z (n == 1), .ok []) := by
  rw [putZone, forZone_val, flag?_le h, index?_eq_some.2 rfl]
  rfl

theorem putZone_lead (h : n ≤ 1) (hl : 20 < lead) : w.putZone e z.val n look.val lead = (w, .badField 3) := by
  rw [putZone_fields h, if_pos hl]

theorem putZone_inUse (hl : lead ≤ 20) (hc : (w.zone z).configured = true) (hu : (w.zone z).claims ≠ []) :
    w.putZone e z.val 0 look.val lead = (w, .no .inUse) := by
  rw [putZone_fields (Nat.zero_le 1), if_neg (Nat.not_lt.2 hl), if_pos (by simp [hc, hu])]

theorem putZone_taken (h : n ≤ 1) (hl : lead ≤ 20)
    (hu : n = 1 ∨ (w.zone z).configured = false ∨ (w.zone z).claims = []) :
    w.putZone e z.val n look.val lead = ((w.zoneSet z look lead).configureZone e z (n == 1), .ok []) := by
  rw [putZone_fields h, if_neg (Nat.not_lt.2 hl), if_neg]
  rcases hu with hu | hu | hu <;> simp [hu]

theorem configureZone_same {on : Bool} (h : (w.zone z).configured = on) : w.configureZone e z on = w := if_pos h

theorem configureZone_on (h : (w.zone z).configured = false) :
    w.configureZone e z true = (w.onZone z fun r => { r with configured := true }).pollNewDriver z := by
  rw [configureZone, if_neg (by rw [h]; decide), if_pos rfl]

theorem configureZone_off (h : (w.zone z).configured = true) : w.configureZone e z false =
    ((w.withdrawTake e z).forgetDriver e z).onZone z fun r => { r with configured := false, committed := none } := by
  rw [configureZone, if_neg (by rw [h]; decide), if_neg (by decide)]

theorem zoneSet_configured : ((w.zoneSet z look lead).zone z).configured = (w.zone z).configured := by
  rw [zoneSet, onZone_self]

theorem setLead_number {m : Nat} (h : 64 ≤ m) : w.setLead m lead = (w, .badField 0) := forZone_none h

theorem setLead_range (h : 20 < lead) : w.setLead z.val lead = (w, .badField 1) := by
  rw [setLead, forZone_val, if_pos h]

theorem setLead_taken (h : lead ≤ 20) :
    w.setLead z.val lead = (w.onZone z fun r => { r with lead := lead }, .ok []) := by
  rw [setLead, forZone_val, if_neg (Nat.not_lt.2 h)]

end
end World

section
variable {s : State}

theorem exec_putZone_idle (tag n configured fallback lead : Nat) (hs : s.idle = true) :
    exec (.putZone tag n configured fallback lead) s =
      .next (State.replied 0x38 tag (s.change fun e => World.putZone e n configured fallback lead)) :=
  exec_request_idle s _ tag (.putZone n configured fallback lead) rfl hs

theorem exec_setLead_idle (tag n lead : Nat) (hs : s.idle = true) : exec (.setLead tag n lead) s =
    .next (State.replied 0x3A tag (s.change fun _ => World.setLead n lead)) :=
  exec_request_idle s _ tag (.setLead n lead) rfl hs

end

/-- Settles O36: the requests' tests in their order, and a zone set, configured or unconfigured. -/
theorem zoneSettings : Obligations.ZoneSettings := by
  intro s tag z look n lead hs
  have put := exec_putZone_idle tag z.val n look.val lead hs
  have trim := exec_setLead_idle tag z.val lead hs
  refine ⟨fun m hm => ⟨?_, ?_⟩, fun hn => ?_, fun hn hl => ?_, fun hn hl hc hu => ?_, fun hl hn => ?_,
    fun hl hn hc => ?_, fun hl hn hc hu => ?_, fun hl => ?_, fun hl => ?_⟩
  · exact State.exec_refused (exec_putZone_idle tag m n look.val lead hs) (World.forZone_none hm)
  · exact State.exec_refused (exec_setLead_idle tag m lead hs) (World.setLead_number hm)
  · exact State.exec_refused put (World.putZone_flag hn)
  · exact State.exec_refused put (World.putZone_lead hn hl)
  · subst hn
    exact State.exec_refused put (World.putZone_inUse hl hc hu)
  · refine State.exec_accepted put ?_
    rcases hn with ⟨rfl, hc⟩ | ⟨rfl, hc⟩
    · rw [World.putZone_taken le_rfl hl (.inl rfl), show ((1 : Nat) == 1) = true from rfl,
        World.configureZone_same (World.zoneSet_configured.trans hc)]
      rfl
    · rw [World.putZone_taken (Nat.zero_le 1) hl (.inr (.inl hc)), show ((0 : Nat) == 1) = false from rfl,
        World.configureZone_same (World.zoneSet_configured.trans hc)]
      rfl
  · subst hn
    refine State.exec_accepted put ?_
    rw [World.putZone_taken le_rfl hl (.inl rfl),
      show ((1 : Nat) == 1) = true from rfl, World.configureZone_on (World.zoneSet_configured.trans hc),
      World.zoneSet, World.onZone_onZone]
    rfl
  · subst hn
    intro set v
    have lists := (World.Lists.refl set).withdrawTake s.env z
    have kept := (World.Kept.refl set).withdrawTake s.env z
    have driver : v.driver (zoneLink z) (zoneAddr z) =
        (s.world.driver (zoneLink z) (zoneAddr z)).lostTo .absent := by
      rw [World.forgetDriver_driver, lists.driver]
      rfl
    refine ⟨State.exec_accepted put ?_, kept.trans World.forgetDriver_kept, by rw [driver, Driver.lostTo_state],
      fun x => World.forgetDriver_transfer, fun hd => ?_, rfl⟩
    · rw [World.putZone_taken (Nat.zero_le 1) hl (.inr (.inr hu)), show ((0 : Nat) == 1) = false from rfl,
        World.configureZone_off (World.zoneSet_configured.trans hc)]
      rfl
    · have live : ((set.withdrawTake s.env z).driver (zoneLink z) (zoneAddr z)).deliverable = true := by
        rw [lists.driver]
        exact hd
      rw [driver, Driver.lostTo, if_pos hd]
      exact ⟨rfl, rfl, (World.forgetDriver_unpended live).pending, fun hu hn =>
        World.forgetDriver_lost live (World.withdrawTake_undeferred set s.env z hu)
          (World.withdrawTake_refsDistinct set s.env z hu _ hn)⟩
  · exact State.exec_refused trim (World.setLead_range hl)
  · exact State.exec_accepted trim (World.setLead_taken hl)

end Sys2Proof.Machine
end

section
/-! SUPPORT. Every configured driver of a link lost in its turn (R103, R132, R154, R155, R157): what is left of the
drivers, of what pends for them, and of their entries. -/

namespace Sys2Proof.Machine
namespace World

/-- `v` has the drivers, entries, zones and players of `w`. -/
structure Rosters (w v : World) : Prop where
  drivers : ∀ m, (v.link m).drivers = (w.link m).drivers
  stage : ∀ m, (v.link m).stage = (w.link m).stage
  deferred : ∀ m, (v.link m).deferred = (w.link m).deferred
  zones : v.zones = w.zones
  players : v.players = w.players

namespace Rosters
variable {u v w : World} {l : Fin 4}

theorem refl (w : World) : w.Rosters w := ⟨fun _ => rfl, fun _ => rfl, fun _ => rfl, rfl, rfl⟩

theorem trans (h : u.Rosters v) (k : v.Rosters w) : u.Rosters w :=
  ⟨fun m => (k.drivers m).trans (h.drivers m), fun m => (k.stage m).trans (h.stage m),
    fun m => (k.deferred m).trans (h.deferred m), k.zones.trans h.zones, k.players.trans h.players⟩

theorem onLink (w : World) (l : Fin 4) (f : Link → Link) (hd : (f (w.link l)).drivers = (w.link l).drivers)
    (hs : (f (w.link l)).stage = (w.link l).stage) (hf : (f (w.link l)).deferred = (w.link l).deferred) :
    w.Rosters (w.onLink l f) := by
  refine ⟨fun m => ?_, fun m => ?_, fun m => ?_, rfl, rfl⟩ <;> rw [onLink_link] <;> split
  · next e => subst e; exact hd
  · rfl
  · next e => subst e; exact hs
  · rfl
  · next e => subst e; exact hf
  · rfl

theorem raise (w : World) (e : Env) (n : NoticeKind) : w.Rosters (w.raise e n) :=
  ⟨fun _ => rfl, fun _ => rfl, fun _ => rfl, rfl, rfl⟩

theorem enterLink (w : World) (e : Env) (l : Fin 4) (s : LinkState) : w.Rosters (w.enterLink e l s) :=
  (onLink w l _ rfl rfl rfl).trans (raise _ e _)

theorem endLongOp (w : World) (e : Env) (l : Fin 4) (op : LongOp) : w.Rosters (w.endLongOp e l op) :=
  (onLink w l _ rfl rfl rfl).trans (raise _ e _)

theorem abandonLongOp (w : World) (e : Env) (l : Fin 4) : w.Rosters (w.abandonLongOp e l) := by
  unfold World.abandonLongOp
  dsimp only
  split
  · exact endLongOp w e l _
  · exact endLongOp w e l _
  · exact refl w

section
variable (h : w.Rosters v)
include h

theorem driver (m : Fin 4) (a : Fin 16) : v.driver m a = w.driver m a :=
  congrArg (fun t => Tab.get t a) (h.drivers m)

theorem zone (z : Fin 64) : v.zone z = w.zone z := congrArg (fun t => Tab.get t z) h.zones

theorem configured (m : Fin 4) (a : Fin 16) : v.configured m a = w.configured m a :=
  congrArg Zone.configured (h.zone (zoneAt m a))

theorem deliverable (z : Fin 64) : v.deliverable z = w.deliverable z := by
  rw [World.deliverable, h.zone, h.driver]
  rfl

theorem undeferred (hd : w.undeferred) : v.undeferred := fun m => (h.deferred m).trans (hd m)

theorem refsDistinct (hn : (w.link l).refsDistinct) : (v.link l).refsDistinct := by
  rw [Link.refsDistinct, h.stage]
  exact hn

theorem none_lost (l : Fin 4) : w.Lost l (fun _ => false) v :=
  .none h.stage (fun p => congrArg (fun t => Tab.get t p) h.players) fun z => congrArg Zone.committed (h.zone z)

end

section
variable {g : Fin 16 → Bool}

/-- Losses counted from the blocks before. -/
theorem lost_before (h : u.Rosters v) (hl : v.Lost l g w) : u.Lost l g w := by
  have player (p : Fin 8) : v.player p = u.player p := congrArg (fun t => Tab.get t p) h.players
  have stage := h.stage l
  refine ⟨by rw [hl.stage, stage], fun m hm => (hl.others m hm).trans (h.stage m),
    fun z => (hl.committed z).trans (congrArg Zone.committed (h.zone z)), fun p => ?_, fun p => ?_, fun p => ?_⟩
  · rw [← player p]
    exact hl.free p
  · rw [← player p, ← stage]
    exact hl.counted p
  · rw [← player p, ← stage]
    exact hl.raised p

/-- Losses counted to the blocks after. -/
theorem lost_after (h : v.Rosters w) (hl : u.Lost l g v) (hu : u.Kept v) (hv : v.Kept w) : u.Lost l g w := by
  simpa using hl.trans (h.none_lost l) hu hv

end

end Rosters

/-! ## The drivers lost -/

/-- The configured drivers of a link that are not ABSENT. -/
def present (l : Fin 4) (w : World) : List (Fin 16) :=
  (upTo 16).filter fun a => (w.zone (zoneAt l a)).configured && (w.driver l a).state != .absent

section
variable {w v : World} {e : Env} {l : Fin 4} {a : Fin 16} {s : DriverState}

theorem mem_present : a ∈ w.present l ↔
    (w.zone (zoneAt l a)).configured = true ∧ (w.driver l a).state ≠ .absent := by
  simp [present, upTo]

theorem present_nodup : (w.present l).Nodup := (List.nodup_finRange 16).filter _

theorem dropDrivers_eq : w.dropDrivers e l s = w.each (w.present l) (World.dropDriver e l s) := rfl

theorem Rosters.present (h : w.Rosters v) : v.present l = w.present l :=
  List.filter_congr fun a _ => by rw [h.zone, h.driver]

/-- The drivers of the list are in the lost state at the end, the others as they were. -/
theorem dropEach_state (as : List (Fin 16)) :
    ((w.each as (World.dropDriver e l s)).driver l a).state = if a ∈ as then s else (w.driver l a).state := by
  induction as generalizing w with
  | nil => rfl
  | cons b as ih =>
    rw [each_cons, ih, dropDriver_driver]
    by_cases hb : b = a
    · subst hb
      simp
    · simp [hb, Ne.symm hb]

theorem dropDrivers_state : ((w.dropDrivers e l s).driver l a).state =
    if (w.zone (zoneAt l a)).configured = true ∧ (w.driver l a).state ≠ .absent then s
    else (w.driver l a).state := by
  rw [dropDrivers_eq, dropEach_state]
  simp only [mem_present]

/-- A driver that is READY or BUSY is lost in its turn; from then on nothing pends for it. -/
theorem dropEach_unpended (hr : s ≠ .ready) (hb : s ≠ .busy) (as : List (Fin 16))
    (h : (a ∈ as ∧ (w.driver l a).deliverable = true) ∨ w.Unpended l a) :
    (w.each as (World.dropDriver e l s)).Unpended l a := by
  induction as generalizing w with
  | nil => exact h.resolve_left fun hm => by cases hm.1
  | cons b as ih =>
    rw [each_cons]
    refine ih ?_
    rcases h with ⟨hm, hd⟩ | h
    · by_cases hba : b = a
      · exact .inr (.dropDriver hr hb (.inl ⟨rfl, hba, hd⟩))
      · refine .inl ⟨(List.mem_cons.1 hm).resolve_left (Ne.symm hba), ?_⟩
        rw [dropDriver_other w e l b a s hba]
        exact hd
    · exact .inr (.dropDriver hr hb (.inr h))

/-- Nothing pends on a link whose drivers are all lost, where nothing did. -/
theorem dropDrivers_pending (hr : s ≠ .ready) (hb : s ≠ .busy) (h : (w.link l).pending = []) :
    ((w.dropDrivers e l s).link l).pending = [] := by
  refine List.eq_nil_iff_forall_not_mem.2 fun i hi => ?_
  refine (dropEach_unpended (e := e) (w := w) (a := i.addr) hr hb (w.present l) ?_).pending i hi rfl
  cases hd : w.deliverable (zoneAt l i.addr) with
  | false => exact .inr ⟨hd, by rw [h]; exact nofun⟩
  | true =>
    rw [deliverable_zoneAt, Bool.and_eq_true] at hd
    refine .inl ⟨mem_present.2 ⟨hd.1, fun ha => ?_⟩, hd.2⟩
    rw [Driver.deliverable, ha] at hd
    cases hd.2

/-- The entries of the READY and BUSY ones end. -/
theorem dropDrivers_lost (hd : w.undeferred) (hn : (w.link l).refsDistinct) :
    w.Lost l (fun a => (w.zone (zoneAt l a)).configured && (w.driver l a).deliverable) (w.dropDrivers e l s) := by
  rw [dropDrivers_eq]
  convert dropEach_lost w e l s (w.present l) present_nodup hd hn using 2
  next a =>
  rw [Bool.eq_iff_iff]
  simp only [Bool.and_eq_true, List.contains_iff_mem, mem_present]
  refine ⟨fun ⟨hc, hd⟩ => ⟨⟨hc, fun ha => ?_⟩, hd⟩, fun ⟨⟨hc, _⟩, hd⟩ => ⟨hc, hd⟩⟩
  rw [Driver.deliverable, ha] at hd
  cases hd

theorem dropDrivers_loses : w.Loses (w.dropDrivers e l s) := Loses.dropEach w e l s _

/-- The loss of the drivers, between changes that leave the rosters. -/
theorem Rosters.dropDrivers_lost {u : World} (h : w.Rosters v) (hd : w.undeferred)
    (hn : (w.link l).refsDistinct) (hu : (v.dropDrivers e l s).Rosters u) (hku : (v.dropDrivers e l s).Kept u) :
    w.Lost l (fun a => (w.zone (zoneAt l a)).configured && (w.driver l a).deliverable) u := by
  have lost := World.dropDrivers_lost (e := e) (s := s) (h.undeferred hd) (h.refsDistinct hn)
  simp only [h.zone, h.driver] at lost
  exact h.lost_before (hu.lost_after lost ((Kept.refl v).dropDrivers e l s) hku)

end
end World
end Sys2Proof.Machine
end

section
/-! SUPPORT. The requests on a link (R151 to R153, R157), and a link that goes OFF. -/

namespace Sys2Proof.Machine

/-- An operation that a block starts: the blocks as it leaves them, the links then choosing their frames (R143). -/
theorem State.exec_started {s : State} {i : Instr} {k tag : Nat} {f : Env → World → World × Answer} {w : World}
    (hi : exec i s = .next (State.replied k tag (s.change f))) (h : f s.env s.world = (w, .no .started)) :
    ∃ t, exec i s = .next t ∧ s.AfterReply w ⟨k, tag, .started, []⟩ t := by
  refine ⟨_, hi, ?_⟩
  have := State.change_after (s := s) k tag f (by rw [h]; exact Or.inr rfl)
  rwa [h] at this

namespace World

section
variable {w : World} {e : Env} {l : Fin 4}

/-! ## A link that goes OFF (R157) -/

/-- A long operation in progress recorded, and the wire and what was owed to it forgotten. -/
def silenced (e : Env) (l : Fin 4) (w : World) : World :=
  (w.abandonLongOp e l).onLink l fun k => { k.silent with pending := [], errors := [] }

theorem silenced_rosters : w.Rosters (w.silenced e l) :=
  (Rosters.abandonLongOp w e l).trans (.onLink _ l _ rfl rfl rfl)

/-- A link's record after the end of a long operation: only the operation's own fields change. -/
theorem abandonLongOp_link (m : Fin 4) : ∃ op pos cal, (w.abandonLongOp e l).link m =
    { w.link m with lastOp := op, scanPos := pos, cal := cal } := by
  have ended (op : LongOp) : ∃ o pos cal, (w.endLongOp e l op).link m =
      { w.link m with lastOp := o, scanPos := pos, cal := cal } := by
    have at_ : (w.endLongOp e l op).link m = _ := onLink_link w l m _
    rw [at_]
    split
    · exact ⟨_, _, _, rfl⟩
    · exact ⟨_, _, _, rfl⟩
  unfold abandonLongOp
  dsimp only
  split
  · exact ended _
  · exact ended _
  · exact ⟨_, _, _, rfl⟩

theorem silenced_link : ∃ op pos cal, (w.silenced e l).link l =
    { (w.link l).silent with lastOp := op, scanPos := pos, cal := cal, pending := [], errors := [] } := by
  obtain ⟨op, pos, cal, at_⟩ := abandonLongOp_link (w := w) (e := e) (l := l) l
  refine ⟨op, pos, cal, ?_⟩
  rw [silenced, onLink_link, if_pos rfl, at_]
  rfl

/-- The marks of a link in the controller cleared (R180, R186). -/
def unmarked (l : Fin 4) (w : World) : World := { w with ctl := { w.ctl with
  asleep := w.ctl.asleep.set l false, restartWake := w.ctl.restartWake.set l false } }

theorem linkOff_off (h : (w.link l).state = .off) : w.linkOff e l = w := if_pos h

theorem linkOff_on (h : (w.link l).state ≠ .off) : w.linkOff e l =
    (((w.silenced e l).dropDrivers e l .absent).enterLink e l .off).unmarked l := if_neg h

/-- A link's record on entering a state. -/
theorem enterLink_link (s : LinkState) : (w.enterLink e l s).link l =
    { w.link l with state := s, power := s.powered, timer := if s.timed then 0 else (w.link l).timer } :=
  (onLink_link w l l _).trans (if_pos rfl)

theorem linkOff_state : ((w.linkOff e l).link l).state = .off := by
  by_cases h : (w.link l).state = .off
  · rw [linkOff_off h, h]
  · rw [linkOff_on h]
    exact congrArg Link.state (enterLink_link (w := (w.silenced e l).dropDrivers e l .absent) (e := e) .off)

/-- The wire, the pending list and the recent errors of a link that has gone OFF. -/
theorem linkOff_wire (h : (w.link l).state ≠ .off) :
    let k := (w.linkOff e l).link l
    k.power = false ∧ k.transfer = none ∧ k.bcast = none ∧ k.pending = [] ∧ k.errors = [] := by
  obtain ⟨op, pos, cal, at_⟩ := silenced_link (w := w) (e := e) (l := l)
  have loses := dropDrivers_loses (w := w.silenced e l) (e := e) (l := l) (s := .absent)
  have last : ((w.linkOff e l).link l) = _ := (congrArg (fun v => World.link v l) (linkOff_on h)).trans
    (enterLink_link (w := (w.silenced e l).dropDrivers e l .absent) (e := e) .off)
  have bcast : (((w.silenced e l).dropDrivers e l .absent).link l).bcast = none := by
    rcases loses.bcast l with hb | hb
    · rw [hb, at_]
      rfl
    · exact hb.1
  have errors : (((w.silenced e l).dropDrivers e l .absent).link l).errors = [] := by
    have fields := congrArg Link.errors (loses.links l)
    exact fields.trans (by rw [at_])
  rw [last]
  exact ⟨rfl, loses.idle (by rw [at_]; rfl), bcast,
    dropDrivers_pending (by decide) (by decide) (by rw [at_]), errors⟩

theorem linkOff_raised (h : (w.link l).state ≠ .off) :
    ((w.linkOff e l).notices.get NoticeKind.linkState.no).pending = true := by
  rw [linkOff_on h]
  exact raise_pending _ e .linkState

theorem linkOff_driver (h : (w.link l).state ≠ .off) (a : Fin 16)
    (hc : (w.zone (zoneAt l a)).configured = true) : ((w.linkOff e l).driver l a).state = .absent := by
  have at_ : (w.linkOff e l).driver l a = ((w.silenced e l).dropDrivers e l .absent).driver l a := by
    rw [linkOff_on h]
    exact (Rosters.enterLink _ e l _).driver l a
  rw [at_, dropDrivers_state, silenced_rosters.zone]
  split
  · rfl
  · next hn => exact not_not.1 fun ha => hn ⟨hc, ha⟩

theorem linkOff_lost (h : (w.link l).state ≠ .off) (hd : w.undeferred) (hn : (w.link l).refsDistinct) :
    w.Lost l (fun a => (w.zone (zoneAt l a)).configured && (w.driver l a).deliverable) (w.linkOff e l) := by
  rw [linkOff_on h]
  have off := Rosters.enterLink ((w.silenced e l).dropDrivers e l .absent) e l .off
  exact silenced_rosters.dropDrivers_lost hd hn
    ⟨off.drivers, off.stage, off.deferred, off.zones, off.players⟩
    (((Kept.refl _).enterLink e l _).withMarks _ _)

theorem linkOff_enabled : ((w.linkOff e l).link l).enabled = (w.link l).enabled :=
  ((Kept.refl w).linkOff e l).enabled l

/-! ## The requests -/

variable {n : Nat} {k : Fin 4 → World × Answer}

theorem forLink_none (h : 4 ≤ n) : forLink w n k = (w, .badField 0) := by
  rw [forLink, index?_eq_none.2 h]

theorem forLink_val : forLink w l.val k = k l := by
  rw [forLink, index?_eq_some.2 rfl]

theorem linkClaimed_iff : w.linkClaimed l = true ↔ ∃ a, (w.zone (zoneAt l a)).claims ≠ [] := by
  simp [linkClaimed, upTo]

/-- The long operation's place and the link's state set together. -/
theorem enterLink_onLink (s : LinkState) (f : Link → Link) : (w.enterLink e l s).onLink l f =
    (w.onLink l fun k => f { k with
      state := s, power := s.powered, timer := if s.timed then 0 else k.timer }).raise e .linkState := by
  refine Eq.trans ?_ (congrArg (World.raise e .linkState) (onLink_onLink w l _ f))
  rfl

theorem enableLink_val : w.enableLink e l.val = (if w.ctl.state ≠ .parked ∧ (w.link l).state = .off then
      (w.onLink l fun k => { k with enabled := true, state := .warming, power := true, timer := 0 }).raise e .linkState
    else w.onLink l fun k => { k with enabled := true }, .ok []) := by
  have on : ((w.onLink l fun k => { k with enabled := true }).link l) = { w.link l with enabled := true } :=
    (onLink_link _ _ _ _).trans (if_pos rfl)
  rw [enableLink, forLink_val]
  refine congrArg (·, Answer.ok []) ?_
  by_cases hp : w.ctl.state = .parked
  · exact (if_pos hp).trans (if_neg fun h => h.1 hp).symm
  · refine (if_neg hp).trans ?_
    unfold warmUp
    rw [on]
    by_cases ho : (w.link l).state = .off
    · rw [if_pos ⟨rfl, ho⟩, if_pos ⟨hp, ho⟩]
      exact congrArg (World.raise e .linkState) (onLink_onLink w l _ _)
    · rw [if_neg fun h => ho h.2, if_neg fun h => ho h.2]

theorem disableLink_claimed (h : ∃ a, (w.zone (zoneAt l a)).claims ≠ []) :
    w.disableLink e l.val = (w, .no .inUse) := by
  rw [disableLink, forLink_val, if_pos (linkClaimed_iff.2 h)]

theorem disableLink_unclaimed (h : ¬∃ a, (w.zone (zoneAt l a)).claims ≠ []) :
    w.disableLink e l.val = ((w.onLink l fun k => { k with enabled := false }).linkOff e l, .ok []) := by
  rw [disableLink, forLink_val, if_neg (mt linkClaimed_iff.1 h)]

theorem scanLink_refused (h : (w.link l).state ≠ .up) : w.scanLink e l.val = (w, .no .linkBusy) := by
  rw [scanLink, forLink_val, if_pos h]

theorem scanLink_up (h : (w.link l).state = .up) : w.scanLink e l.val =
    ((w.onLink l fun k => { k with state := .scanning, power := true, scanPos := some 0 }).raise e .linkState,
      .no .started) := by
  rw [scanLink, forLink_val, if_neg (not_not.2 h), enterScan, enterLink_onLink]
  rfl

/-- What keeps a link from being calibrated (R153). -/
def calibrationBarred (w : World) (l : Fin 4) : Prop :=
  (w.link l).state ≠ .up ∨ (∃ a, (w.zone (zoneAt l a)).claims ≠ []) ∨ (w.link l).stage ≠ []
    ∨ (w.link l).gos ≠ [] ∨ (w.link l).deferred ≠ [] ∨ (w.link l).pending ≠ []

theorem calibrateLink_barred (h : w.calibrationBarred l) : w.calibrateLink e l.val = (w, .no .linkBusy) := by
  rw [calibrateLink, forLink_val]
  refine if_pos ?_
  simpa [calibrationBarred, linkClaimed_iff] using h

/-- The link's calibration begun. -/
def calibrationBegun (e : Env) (l : Fin 4) (w : World) : World :=
  (w.enterLink e l .calibrating).onLink l fun k => { k with cal := some ⟨0, 0, 0, 0, false⟩ }

theorem calibrationBegun_eq : w.calibrationBegun e l = (w.onLink l fun k =>
    { k with state := .calibrating, power := true, cal := some ⟨0, 0, 0, 0, false⟩ }).raise e .linkState := by
  rw [calibrationBegun, enterLink_onLink]
  rfl

/-- Past the tests, a link with no driver to measure is done at once. -/
theorem calibrateLink_free (h : ¬w.calibrationBarred l) : w.calibrateLink e l.val =
    (if (w.link l).answering = 0 then
      ((w.calibrationBegun e l).endLongOp e l ⟨false, .complete, 0⟩).comeUp e l
    else w.calibrationBegun e l, .no .started) := by
  rw [calibrateLink, forLink_val]
  refine if_neg ?_
  simpa [calibrationBarred, linkClaimed_iff] using h

end

/-- A link that has come up after the end of a long operation. -/
theorem comeUp_endLongOp (w : World) (e : Env) (l : Fin 4) (op : LongOp) :
    let v := (w.endLongOp e l op).comeUp e l
    (v.link l).lastOp = some op ∧ (v.notices.get NoticeKind.longOpDone.no).pending = true
      ∧ (v.link l).state = if w.ctl.state = .dark then .quiescing else .up := by
  intro v
  have done : ((w.endLongOp e l op).link l).lastOp = some op :=
    congrArg Link.lastOp ((onLink_link w l l _).trans (if_pos rfl))
  have raised : ((w.endLongOp e l op).notices.get NoticeKind.longOpDone.no).pending = true :=
    raise_pending _ e .longOpDone
  refine ⟨?_, ((Kept.refl _).comeUp e l).raised _ raised, ?_⟩
  all_goals
    simp only [v, comeUp]
    rw [show (w.endLongOp e l op).ctl.state = w.ctl.state from rfl]
    split
  · exact (congrArg Link.lastOp ((onLink_link _ l l _).trans (if_pos rfl))).trans
      ((congrArg Link.lastOp (enterLink_link .quiescing)).trans done)
  · exact (congrArg Link.lastOp (enterLink_link .up)).trans done
  · exact (congrArg Link.state ((onLink_link _ l l _).trans (if_pos rfl))).trans
      (congrArg Link.state (enterLink_link .quiescing))
  · exact congrArg Link.state (enterLink_link .up)

end World

section
variable {s : State}

theorem exec_enableLink_idle (tag n : Nat) (hs : s.idle = true) :
    exec (.enableLink tag n) s = .next (State.replied 0x40 tag (s.change fun e => World.enableLink e n)) :=
  exec_request_idle s _ tag (.enableLink n) rfl hs

theorem exec_disableLink_idle (tag n : Nat) (hs : s.idle = true) :
    exec (.disableLink tag n) s = .next (State.replied 0x41 tag (s.change fun e => World.disableLink e n)) :=
  exec_request_idle s _ tag (.disableLink n) rfl hs

theorem exec_scanLink_idle (tag n : Nat) (hs : s.idle = true) :
    exec (.scanLink tag n) s = .next (State.replied 0x42 tag (s.change fun e => World.scanLink e n)) :=
  exec_request_idle s _ tag (.scanLink n) rfl hs

theorem exec_calibrateLink_idle (tag n : Nat) (hs : s.idle = true) : exec (.calibrateLink tag n) s =
    .next (State.replied 0x43 tag (s.change fun e => World.calibrateLink e n)) :=
  exec_request_idle s _ tag (.calibrateLink n) rfl hs

end

/-- Settles O44: the requests' tests in their order, and the link as each leaves it. -/
theorem linkRequestsTaken : Obligations.LinkRequestsTaken := by
  intro s tag hs
  refine ⟨fun n hn => ?_, fun l => ?_⟩
  · exact ⟨State.exec_refused (exec_enableLink_idle tag n hs) (World.forLink_none hn),
      State.exec_refused (exec_disableLink_idle tag n hs) (World.forLink_none hn),
      State.exec_refused (exec_scanLink_idle tag n hs) (World.forLink_none hn),
      State.exec_refused (exec_calibrateLink_idle tag n hs) (World.forLink_none hn)⟩
  intro k claimed moved
  have off := exec_disableLink_idle tag l.val hs
  have scan := exec_scanLink_idle tag l.val hs
  have cal := exec_calibrateLink_idle tag l.val hs
  refine ⟨State.exec_accepted (exec_enableLink_idle tag l.val hs) World.enableLink_val,
    fun hc => State.exec_refused off (World.disableLink_claimed hc), fun hc => ?_,
    fun hu => State.exec_refused scan (World.scanLink_refused hu),
    fun hu => State.exec_started scan (World.scanLink_up hu), ?_⟩
  · intro w
    let disabled := s.world.onLink l fun k => { k with enabled := false }
    have at_ : disabled.link l = { k with enabled := false } := (World.onLink_link _ _ _ _).trans (if_pos rfl)
    have rosters : s.world.Rosters disabled := .onLink _ l _ rfl rfl rfl
    refine ⟨State.exec_accepted off (World.disableLink_unclaimed hc),
      World.linkOff_enabled.trans (congrArg Link.enabled at_), World.linkOff_state, fun ho => ?_,
      fun ho => World.linkOff_off (by rw [at_]; exact ho)⟩
    have on : (disabled.link l).state ≠ .off := by rw [at_]; exact ho
    obtain ⟨power, transfer, bcast, pending, errors⟩ := World.linkOff_wire (e := s.env) on
    refine ⟨power, transfer, bcast, pending, errors, World.linkOff_raised on, fun a hc =>
      World.linkOff_driver on a hc, ?_, fun hd hn => ?_⟩
    · have present := (rosters.trans (World.silenced_rosters (e := s.env) (l := l))).present (l := l)
      refine (World.linkOff_on on).trans ?_
      rw [World.dropDrivers_eq, present]
      rfl
    · have lost := World.linkOff_lost (e := s.env) on (rosters.undeferred hd) (rosters.refsDistinct hn)
      simp only [rosters.zone, rosters.driver] at lost
      exact rosters.lost_before lost
  · refine ⟨fun hb => State.exec_refused cal (World.calibrateLink_barred hb), fun hb ha => ?_, fun hb ha => ?_⟩
    · refine State.exec_started cal ((World.calibrateLink_free hb).trans ?_)
      rw [if_neg ha, World.calibrationBegun_eq]
      rfl
    · intro begun w
      obtain ⟨last, raised, state⟩ := World.comeUp_endLongOp (s.world.calibrationBegun s.env l) s.env l
        ⟨false, .complete, 0⟩
      have free := World.calibrateLink_free (e := s.env) hb
      rw [if_pos ha] at free
      exact ⟨State.exec_started cal free, last, raised, state⟩

end Sys2Proof.Machine
end

section
/-! SUPPORT. Line errors and the fault of a link (R141, R154), and a run of bytes that is not taken as a reply
(R140, R200). -/

namespace Sys2Proof.Machine
namespace World

section
variable {w : World} {e : Env} {l : Fin 4}

/-! ## A link faulted (R154) -/

/-- A long operation in progress recorded, the wire, what was owed to it and the recent errors forgotten. -/
def cutOff (e : Env) (l : Fin 4) (w : World) : World :=
  (w.abandonLongOp e l).onLink l fun k => { k.silent with errors := [] }

theorem cutOff_rosters : w.Rosters (w.cutOff e l) :=
  (Rosters.abandonLongOp w e l).trans (.onLink _ l _ rfl rfl rfl)

theorem cutOff_link : ∃ op pos cal, (w.cutOff e l).link l =
    { (w.link l).silent with lastOp := op, scanPos := pos, cal := cal, errors := [] } := by
  obtain ⟨op, pos, cal, at_⟩ := abandonLongOp_link (w := w) (e := e) (l := l) l
  refine ⟨op, pos, cal, ?_⟩
  rw [cutOff, onLink_link, if_pos rfl, at_]
  rfl

theorem linkFault_eq : w.linkFault e l =
    (((w.cutOff e l).dropDrivers e l .unresponsive).raise e .driverFault).enterLink e l .faulted := rfl

/-- The link's record once it has faulted. -/
theorem linkFault_link :
    let k := (w.linkFault e l).link l
    k.state = .faulted ∧ k.power = false ∧ k.timer = 0 ∧ k.errors = [] ∧ k.errorTotal = (w.link l).errorTotal
      ∧ k.transfer = none ∧ k.bcast = none := by
  obtain ⟨op, pos, cal, at_⟩ := cutOff_link (w := w) (e := e) (l := l)
  have loses := dropDrivers_loses (w := w.cutOff e l) (e := e) (l := l) (s := .unresponsive)
  have last : (w.linkFault e l).link l = _ :=
    enterLink_link (w := ((w.cutOff e l).dropDrivers e l .unresponsive).raise e .driverFault) (e := e) .faulted
  have errors := congrArg Link.errors (loses.links l)
  have total := congrArg Link.errorTotal (loses.links l)
  have bcast : (((w.cutOff e l).dropDrivers e l .unresponsive).link l).bcast = none := by
    rcases loses.bcast l with hb | hb
    · rw [hb, at_]
      rfl
    · exact hb.1
  rw [last]
  exact ⟨rfl, rfl, rfl, errors.trans (by rw [at_]), total.trans (by rw [at_]; rfl),
    loses.idle (by rw [at_]; rfl), bcast⟩

theorem linkFault_driver (a : Fin 16) (hc : (w.zone (zoneAt l a)).configured = true)
    (ha : (w.driver l a).state ≠ .absent) : ((w.linkFault e l).driver l a).state = .unresponsive := by
  have at_ : (w.linkFault e l).driver l a = ((w.cutOff e l).dropDrivers e l .unresponsive).driver l a :=
    ((Rosters.raise _ e _).trans (.enterLink _ e l _)).driver l a
  rw [at_, dropDrivers_state, cutOff_rosters.zone, cutOff_rosters.driver, if_pos ⟨hc, ha⟩]

theorem linkFault_raised : ((w.linkFault e l).notices.get NoticeKind.driverFault.no).pending = true
    ∧ ((w.linkFault e l).notices.get NoticeKind.linkState.no).pending = true :=
  ⟨((Kept.refl _).enterLink e l _).raised _ (raise_pending _ e .driverFault), raise_pending _ e .linkState⟩

theorem linkFault_lost (hd : w.undeferred) (hn : (w.link l).refsDistinct) :
    w.Lost l (fun a => (w.zone (zoneAt l a)).configured && (w.driver l a).deliverable) (w.linkFault e l) :=
  cutOff_rosters.dropDrivers_lost hd hn ((Rosters.raise _ e _).trans (.enterLink _ e l _))
    (((Kept.refl _).raise e _).enterLink e l _)

/-! ## A line error (R141) -/

/-- A line error counted, the errors of age 100 or more forgotten. -/
def errorCounted (l : Fin 4) (w : World) : World := w.onLink l fun k => { k with
  errorTotal := satUp 65535 k.errorTotal, errors := k.errors.filter (· < 100) ++ [0] }

theorem errorCounted_link : (w.errorCounted l).link l = { w.link l with
    errorTotal := satUp 65535 (w.link l).errorTotal, errors := (w.link l).errors.filter (· < 100) ++ [0] } :=
  (onLink_link _ _ _ _).trans (if_pos rfl)

theorem errorCounted_rosters : w.Rosters (w.errorCounted l) := .onLink _ l _ rfl rfl rfl

theorem errorCounted_length : ((w.errorCounted l).link l).errors.length = 16 ↔
    ((w.link l).errors.filter (· < 100)).length = 15 := by
  rw [errorCounted_link, List.length_append, List.length_singleton]
  omega

theorem lineError_fault (h : ((w.link l).errors.filter (· < 100)).length = 15) :
    w.lineError e l = (w.errorCounted l).linkFault e l := if_pos (errorCounted_length.2 h)

theorem lineError_few (h : ((w.link l).errors.filter (· < 100)).length ≠ 15) :
    w.lineError e l = w.errorCounted l := if_neg (mt errorCounted_length.1 h)

theorem lineError_few_transfer (h : ((w.link l).errors.filter (· < 100)).length ≠ 15) :
    ((w.lineError e l).link l).transfer = (w.link l).transfer := by
  rw [lineError_few h, errorCounted_link]

theorem badReply_idle (h : ((w.lineError e l).link l).transfer = none) : w.badReply e l = w.lineError e l := by
  unfold badReply
  dsimp only
  rw [h]

theorem badReply_flying {x : Transfer} (h : ((w.lineError e l).link l).transfer = some x) :
    w.badReply e l = (w.lineError e l).attemptFails e l x := by
  unfold badReply
  dsimp only
  rw [h]

/-- The sixteenth error within 100 tick events leaves no transfer for a reply to fail. -/
theorem badReply_fault (h : ((w.link l).errors.filter (· < 100)).length = 15) :
    w.badReply e l = w.lineError e l := by
  obtain ⟨-, -, -, -, -, idle, -⟩ := linkFault_link (w := w.errorCounted l) (e := e) (l := l)
  rw [← lineError_fault h] at idle
  exact badReply_idle idle

/-! ## A long operation cut short -/

theorem abandonLongOp_scanning (h : (w.link l).state = .scanning) :
    w.abandonLongOp e l = w.endLongOp e l ⟨true, .abandoned, (w.link l).answering⟩ := by
  unfold abandonLongOp
  dsimp only
  rw [h]

theorem abandonLongOp_calibrating {c : CalPos} (h : (w.link l).state = .calibrating)
    (hc : (w.link l).cal = some c) : w.abandonLongOp e l = w.endLongOp e l ⟨false, .abandoned, c.measured⟩ := by
  unfold abandonLongOp
  dsimp only
  rw [h, hc]

theorem abandonLongOp_other (hs : (w.link l).state ≠ .scanning) (hc : (w.link l).state ≠ .calibrating) :
    w.abandonLongOp e l = w := by
  unfold abandonLongOp
  dsimp only
  split
  · next h => exact absurd h hs
  · next h _ => exact absurd h hc
  · rfl

/-! ## Bytes that are no reply (R200) -/

variable {roundTrip : Nat} {bytes : List Byte}

/-- A link that hunts discards bytes without a start byte. -/
theorem driverReply_discarded (h : 0xC3#8 ∉ bytes) (hk : (w.link l).hunting = true ∨ bytes = []) :
    w.driverReply e l bytes roundTrip = w := by
  rcases hk with hk | rfl
  · exact hearFor_hunting _ _ h fun _ => hk
  · rfl

/-- A link that does not hunt finds no frame there, and hunts. -/
theorem driverReply_noStart (hr : (w.link l).state.receives = true) (h : 0xC3#8 ∉ bytes)
    (hk : (w.link l).hunting = false) (hb : bytes ≠ []) : w.driverReply e l bytes roundTrip = w.noFrame e l := by
  obtain ⟨x, rest, rfl⟩ := List.exists_cons_of_ne_nil hb
  obtain ⟨hx, hrest⟩ := not_or.1 (mt List.mem_cons.2 h)
  rw [driverReply, List.length_cons, hearFor, hr, hk, if_neg (by decide), if_neg (Ne.symm hx), if_neg (by decide)]
  exact hearFor_hunting _ _ hrest (noFrame_hunting w e l)

end
end World

/-- A frame's bytes and what follows it are the bytes that came. -/
theorem cutReply_append (poll : Bool) (got size : Nat) (bytes : List Byte) :
    (cutReply poll got size bytes).1 ++ (cutReply poll got size bytes).2 = bytes := by
  fun_induction cutReply poll got size bytes with
  | case1 => rfl
  | case2 => rfl
  | case3 => rfl
  | case4 => rfl
  | case5 _ _ _ _ _ _ _ _ ih => exact congrArg (_ :: _ :: ·) ih
  | case6 => rfl
  | case7 => rfl
  | case8 _ _ _ _ _ _ _ _ _ ih => exact congrArg (_ :: ·) ih

namespace World

/-- A start byte whose bytes form no reply: no frame is found, and what follows is discarded. -/
theorem driverReply_broken {w : World} {e : Env} {l : Fin 4} {roundTrip : Nat} {rest front back : List Byte}
    (hr : (w.link l).state.receives = true) (h : 0xC3#8 ∉ rest)
    (hc : cutReply (w.link l).polling 0 11 rest = (front, back))
    (hp : parseReply (w.link l).polling (0xC3#8 :: front) = none) :
    w.driverReply e l (0xC3#8 :: rest) roundTrip = w.noFrame e l := by
  have whole : front ++ back = rest := by
    have := cutReply_append (w.link l).polling 0 11 rest
    rwa [hc] at this
  have heard : w.hearFrame e l (0xC3#8 :: front) roundTrip = w.noFrame e l := by
    rw [hearFrame, hp]
  rw [driverReply, List.length_cons, hearFor, hr, if_neg (by decide), if_pos rfl, hc]
  dsimp only
  rw [heard]
  exact hearFor_hunting _ _ (fun hm => h (whole ▸ List.mem_append_right front hm)) (noFrame_hunting w e l)

end World

/-- When a reply is matched (R140). -/
theorem Transfer.matched_iff (x : Transfer) (r : DriverReply) : x.matched r = true ↔
    x.reported = true ∧ r.addr = x.addr ∧ x.frame.allows r.kind = true ∧ r.tag = x.frame.tag
      ∧ ∀ n, x.frame = .probe n → r.exchange = n := by
  unfold matched
  rw [eq_comm (a := r.addr)]
  cases x.frame <;> simp [TxFrame.tag, and_assoc]

end Sys2Proof.Machine
end

section
/-! SUPPORT. The durations of a link at their ends (R141, R146, R149, R154), and the FORCE at the end of the quiesce
wait (R155). -/

namespace Sys2Proof.Machine
namespace World

section
variable {w : World} {e : Env} {l : Fin 4}

theorem restEnd_due (hs : (w.link l).state = .faulted) (ht : 500 ≤ (w.link l).timer) : w.restEnd e l =
    (w.onLink l fun k => { k with state := .warming, power := true, timer := 0 }).raise e .linkState :=
  if_pos ⟨hs, ht⟩

theorem warmUpEnd_due (hs : (w.link l).state = .warming) (ht : 200 ≤ (w.link l).timer) : w.warmUpEnd e l =
    (w.onLink l fun k => { k with state := .scanning, power := true, scanPos := some 0 }).raise e .linkState := by
  rw [warmUpEnd, if_pos ⟨hs, ht⟩, enterScan, enterLink_onLink]
  rfl

/-- The FORCE owed. -/
def forceOwed (l : Fin 4) (w : World) : World := w.onLink l fun k => { k with forceOwed := true }

theorem forceOwed_link : (w.forceOwed l).link l = { w.link l with forceOwed := true } :=
  (onLink_link _ _ _ _).trans (if_pos rfl)

theorem quiesceEnd_due (hs : (w.link l).state = .quiescing) (ht : 100 ≤ (w.link l).timer)
    (hw : (w.link l).wakeOwed = false) : w.quiesceEnd l = w.forceOwed l :=
  if_pos ⟨hs, ht, by rw [hw]; rfl⟩

/-! ## The FORCE sent -/

/-- A quiescing link that owes a FORCE has nothing else to do. -/
theorem choose_forceOwed (hs : (w.link l).state = .quiescing) :
    (w.forceOwed l).choose e l = (w.forceOwed l).chooseFrame e l := by
  refine choose_eq e ?_ ?_
  · unfold longOpOver
    rw [forceOwed_link]
    dsimp only
    rw [hs]
  · rw [forceOwed_link, Link.quiesced]
    simp

/-- A busy wire keeps the FORCE waiting. -/
theorem pump_forceOwed_busy (hs : (w.link l).state = .quiescing) (hi : (w.link l).wireIdle = false) :
    (w.forceOwed l).pump e l = w.forceOwed l := by
  have busy : ((w.forceOwed l).link l).wireIdle = false := by
    rw [forceOwed_link]
    exact hi
  rw [pump, pumpFor, choose_forceOwed hs, chooseFrame_busy e busy]

/-- The FORCE on the wire, its drivers not yet asleep. -/
def forcing (l : Fin 4) (w : World) : World :=
  w.onLink l fun k => { k with forceOwed := false, bcast := some .force }

theorem forcing_link : (w.forcing l).link l = { w.link l with forceOwed := false, bcast := some .force } :=
  (onLink_link _ _ _ _).trans (if_pos rfl)

theorem forcing_rosters : w.Rosters (w.forcing l) := .onLink _ l _ rfl rfl rfl

/-- The link once it has sent FORCE. -/
def slept (e : Env) (l : Fin 4) (w : World) : World :=
  ((w.forcing l).dropDrivers e l .asleep).linkAsleep e l

theorem sendForce_forceOwed : (w.forceOwed l).sendForce e l = w.slept e l := by
  have begun : ((w.forceOwed l).onLink l fun k => { k with forceOwed := false }).startBroadcast l .force =
      w.forcing l := by
    rw [startBroadcast, forceOwed, onLink_onLink, onLink_onLink]
    rfl
  rw [sendForce, begun]
  rfl

theorem slept_link : (w.slept e l).link l =
    { ((w.forcing l).dropDrivers e l .asleep).link l with state := .asleep, power := true } :=
  enterLink_link (w := (w.forcing l).dropDrivers e l .asleep) (e := e) .asleep

theorem slept_bcast : ((w.slept e l).link l).bcast = some .force := by
  rw [slept_link]
  rcases (dropDrivers_loses (w := w.forcing l) (e := e) (l := l) (s := .asleep)).bcast l with hb | ⟨-, t, ht⟩
  · rw [hb, forcing_link]
  · rw [forcing_link] at ht
    cases ht

theorem slept_rosters : ((w.forcing l).dropDrivers e l .asleep).Rosters (w.slept e l) :=
  have moved := Rosters.enterLink ((w.forcing l).dropDrivers e l .asleep) e l .asleep
  ⟨moved.drivers, moved.stage, moved.deferred, moved.zones, moved.players⟩

theorem slept_driver (a : Fin 16) (hc : (w.zone (zoneAt l a)).configured = true)
    (ha : (w.driver l a).state ≠ .absent) : ((w.slept e l).driver l a).state = .asleep := by
  rw [slept_rosters.driver, dropDrivers_state, forcing_rosters.zone, forcing_rosters.driver, if_pos ⟨hc, ha⟩]

theorem slept_raised : ((w.slept e l).notices.get NoticeKind.linkState.no).pending = true :=
  raise_pending _ e .linkState

theorem slept_lost (hd : w.undeferred) (hn : (w.link l).refsDistinct) :
    w.Lost l (fun a => (w.zone (zoneAt l a)).configured && (w.driver l a).deliverable) (w.slept e l) :=
  forcing_rosters.dropDrivers_lost hd hn slept_rosters (((Kept.refl _).enterLink e l _).withMarks _ _)

/-- On an idle wire the FORCE goes out, and the link, asleep with its wire taken, does no more. -/
theorem pump_forceOwed_idle (hs : (w.link l).state = .quiescing) (hi : (w.link l).wireIdle = true) :
    (w.forceOwed l).pump e l = w.slept e l := by
  have first : (w.forceOwed l).choose e l = some (w.slept e l) := by
    rw [choose_forceOwed hs, ← sendForce_forceOwed]
    unfold chooseFrame
    rw [forceOwed_link]
    simp only [Link.wireIdle, Bool.and_eq_true, Option.isNone_iff_eq_none] at hi
    simp [hi]
  have state : ((w.slept e l).link l).state = .asleep := by rw [slept_link]
  have next : (w.slept e l).choose e l = none := by
    rw [choose_eq e, chooseFrame_busy e]
    · simp [Link.wireIdle, slept_bcast]
    · unfold longOpOver
      dsimp only
      rw [state]
    · simp [Link.quiesced, state]
  unfold pump pumpFor
  rw [first]
  dsimp only
  unfold pumpFor
  rw [next]

end
end World

/-- Settles O42: a line error and the fault it may bring, bytes that are no reply, and the durations at their ends. -/
theorem lineErrorsAndDurations : Obligations.LineErrorsAndDurations := by
  refine ⟨fun w e l => ?_, fun s l rt hh hr => ?_, fun s l hh => ?_⟩
  · intro errors total v counted silent present
    refine ⟨World.lineError_few, fun h => ?_,
      ⟨World.abandonLongOp_scanning, fun c => World.abandonLongOp_calibrating, World.abandonLongOp_other⟩, fun ht => ?_, fun x ht => ⟨World.badReply_fault, fun h => ?_⟩, fun x => ?_⟩
    · have fault : v = (w.errorCounted l).linkFault e l := World.lineError_fault h
      have rosters := World.errorCounted_rosters (w := w) (l := l)
      obtain ⟨state, power, timer, errs, tot, transfer, bcast⟩ :=
        World.linkFault_link (w := w.errorCounted l) (e := e) (l := l)
      obtain ⟨failed, moved⟩ := World.linkFault_raised (w := w.errorCounted l) (e := e) (l := l)
      rw [World.errorCounted_link] at tot
      rw [fault]
      refine ⟨((World.Kept.refl w).onLink l _ rfl fun h => h).linkFault e l, state, power, timer, errs, tot, transfer,
        bcast, fun a hc ha => World.linkFault_driver a hc (by rw [rosters.driver]; exact ha), failed, moved, ?_,
        fun hd hn => ?_⟩
      · rw [World.linkFault_eq, World.dropDrivers_eq, (rosters.trans World.cutOff_rosters).present]
        rfl
      · have lost := World.linkFault_lost (e := e) (rosters.undeferred hd) (rosters.refsDistinct hn)
        simp only [rosters.zone, rosters.driver] at lost
        exact rosters.lost_before lost
    · by_cases h : errors.length = 15
      · exact World.badReply_fault h
      · exact World.badReply_idle ((World.lineError_few_transfer h).trans ht)
    · exact World.badReply_flying ((World.lineError_few_transfer h).trans ht)
    · intro limit
      have hl : limit = x.frame.limit := TxFrame.limit_eq x.frame
      rw [hl]
      exact ⟨World.attemptFails_repeats, World.attemptFails_fails⟩
  · intro k broken after
    have taken (bytes : List Byte) {v : World} (hv : s.world.driverReply s.env l bytes rt = v) : after bytes v := by
      have event := State.linkEvent_after l (fun w => (w.link l).state.receives)
        (fun e w => w.driverReply e l bytes rt) hh hr
      rwa [hv] at event
    refine ⟨fun bytes h hk => taken _ (World.driverReply_discarded h hk),
      fun bytes h hk hb => taken _ (World.driverReply_noStart hr h hk hb),
      fun rest front back h hc hp => taken _ (World.driverReply_broken hr h hc hp),
      fun bytes r hp hm => taken _ (World.driverReply_unmatched rt hr hp ?_)⟩
    rw [Option.any_eq_false]
    exact fun x hx => Bool.eq_false_iff.2 (mt (Transfer.matched_iff x r).1 (hm x hx))
  · intro k moved
    refine ⟨fun a => ?_, fun h => ?_, fun h => ?_, fun hs ht => ?_, fun h => ?_, fun hs ht => ?_, fun h => ?_,
      fun hs ht hw hi => ?_, fun hs ht hw hi => ?_, fun h => ?_⟩
    · intro lapsed
      have due : ((s.world.driver l a).backoff == .lapsing
          || (s.world.link l).stage.any fun x => x.addr == a && x.backoff == .lapsing) = true ↔ lapsed := by
        simp [lapsed, k]
      rw [exec_backoffExpiry]
      exact ⟨fun h => State.linkEvent_after l _ _ hh (due.2 h),
        fun h => State.linkEvent_not_due l _ _ hh (Bool.eq_false_iff.2 (mt due.1 h))⟩
    · rw [exec_errorAgeExpiry]
      exact State.linkEvent_after l _ _ hh (by simpa using h)
    · rw [exec_errorAgeExpiry]
      exact State.linkEvent_not_due l _ _ hh (by simpa using h)
    · obtain ⟨t, run, after⟩ := State.linkEvent_after l
        (fun w => (w.link l).state == .faulted && 500 ≤ (w.link l).timer) (fun e w => w.restEnd e l) hh
        (by simpa using ⟨hs, ht⟩)
      rw [World.restEnd_due hs ht] at after
      exact ⟨t, run, after⟩
    · rw [exec_faultRestEnd]
      exact State.linkEvent_not_due l _ _ hh (by simpa using h)
    · obtain ⟨t, run, after⟩ := State.linkEvent_after l
        (fun w => (w.link l).state == .warming && 200 ≤ (w.link l).timer) (fun e w => w.warmUpEnd e l) hh
        (by simpa using ⟨hs, ht⟩)
      rw [World.warmUpEnd_due hs ht] at after
      exact ⟨t, run, after⟩
    · rw [exec_warmUpEnd]
      exact State.linkEvent_not_due l _ _ hh (by simpa using h)
    · rw [exec_quiesceWaitEnd, State.linkEvent_due l _ _ hh (by simpa [and_assoc] using ⟨hs, ht, hw⟩),
        State.onWorld_eq, World.quiesceEnd_due hs ht hw, World.pump_forceOwed_busy hs hi]
      rfl
    · obtain ⟨t, run, chosen, -⟩ := State.linkEvent_after l (fun w => (w.link l).state == .quiescing
        && 100 ≤ (w.link l).timer && !(w.link l).wakeOwed) (fun _ w => w.quiesceEnd l) hh
        (by simpa [and_assoc] using ⟨hs, ht, hw⟩)
      have world : t.world = s.world.slept s.env l := by
        rw [chosen.world, World.quiesceEnd_due hs ht hw]
        exact World.pump_forceOwed_idle hs hi
      have kept := ((World.Kept.refl s.world).quiesceEnd l).trans chosen.kept
      refine ⟨t, run, chosen.base, kept, ?_⟩
      rw [world]
      refine ⟨World.slept_bcast, by rw [World.slept_link], by rw [World.slept_link], Tab.get_set_self _ _ _,
        World.slept_driver, World.slept_raised, ?_, World.slept_lost⟩
      rw [World.slept, World.dropDrivers_eq, World.forcing_rosters.present]
      rfl
    · rw [exec_quiesceWaitEnd]
      exact State.linkEvent_not_due l _ _ hh (by simpa using h)

end Sys2Proof.Machine
end

section
/-! SUPPORT. A driver's reply as it is sent is read as itself (R187, R200). -/

namespace Sys2Proof.Machine

/-- Stuffing one byte is undone before the others. -/
theorem unstuff_stuffByte_append (x : Byte) (rest : List Byte) :
    unstuff (stuffByte x ++ rest) = (unstuff rest).map (x :: ·) := by
  unfold stuffByte
  split
  · next h =>
    subst h
    rfl
  · next h3 =>
    split
    · next h =>
      subst h
      rfl
    · next h4 =>
      cases rest with
      | nil => simp [unstuff, h3, h4]
      | cons y rest => simp [unstuff, h3, h4]

theorem unstuff_stuffed (bytes : List Byte) : unstuff (bytes.flatMap stuffByte) = some bytes := by
  induction bytes with
  | nil => rfl
  | cons x rest ih => rw [List.flatMap_cons, unstuff_stuffByte_append, ih]; rfl

/-- A frame on the wire whose content holds the fields of a reply is read as that reply. -/
theorem parseReply_wireFrame {poll : Bool} {content : List Byte} {a : Fin 16} {r : DriverReply}
    (h : replyFields poll (content.map (·.toNat)) = some (a.val + 1, r)) :
    parseReply poll (wireFrame content) = some { r with addr := a } := by
  have len : (content ++ checkBytes content).length - 2 = content.length := by
    rw [List.length_append]
    exact Nat.add_sub_cancel _ 2
  have found : index? 16 (a.val + 1 - 1) = some a := index?_eq_some.2 rfl
  unfold parseReply wireFrame
  dsimp only
  rw [if_neg (by decide), unstuff_stuffed, Option.bind_some, len, List.take_left, List.drop_left,
    if_neg (not_not.2 rfl), h, Option.bind_some]
  dsimp only
  rw [if_neg (Nat.succ_ne_zero _), found]
  rfl

theorem be2_halves {n : Nat} (h : n < 65536) : be2 (n / 256 % 256) (n % 256) = n := by
  rw [be2]
  omega

/-- A driver's reply whose fields fit their bytes is read as itself. -/
theorem parseReply_wire {poll : Bool} {r : DriverReply} (h : r.fits poll = true) :
    parseReply poll (r.wire poll) = some r := by
  obtain ⟨kind, a, tag, exchange, slots, flags, silence, latency⟩ := r
  simp only [DriverReply.fits, Bool.and_eq_true, decide_eq_true_eq] at h
  obtain ⟨⟨⟨⟨⟨⟨ht, hs⟩, hf⟩, hx⟩, hi⟩, hl⟩, hk⟩ := h
  have addr : a.val + 1 < 256 := by omega
  cases kind with
  | ack =>
    cases poll with
    | true =>
      have exch : exchange = 0 := by simpa using hk
      subst exch
      refine parseReply_wireFrame (r := ⟨.ack, 0, tag, 0, slots, flags, silence, latency⟩) ?_
      simp [replyFields, bigEndian, be2_halves, Nat.mod_eq_of_lt, *]
    | false =>
      obtain ⟨rfl, rfl, rfl⟩ : exchange = 0 ∧ silence = 0 ∧ latency = 0 := by simpa using hk
      refine parseReply_wireFrame (r := ⟨.ack, 0, tag, 0, slots, flags, 0, 0⟩) ?_
      simp [replyFields, Nat.mod_eq_of_lt, *]
  | retry =>
    obtain ⟨⟨rfl, rfl⟩, rfl⟩ : (exchange = 0 ∧ silence = 0) ∧ latency = 0 := by simpa using hk
    refine parseReply_wireFrame (r := ⟨.retry, 0, tag, 0, slots, flags, 0, 0⟩) ?_
    simp [replyFields, Nat.mod_eq_of_lt, *]
  | nak =>
    obtain ⟨⟨rfl, rfl⟩, rfl⟩ : (exchange = 0 ∧ silence = 0) ∧ latency = 0 := by simpa using hk
    refine parseReply_wireFrame (r := ⟨.nak, 0, tag, 0, slots, flags, 0, 0⟩) ?_
    simp [replyFields, Nat.mod_eq_of_lt, *]
  | echo =>
    have quiet : silence = 0 := by simpa using hk
    subst quiet
    refine parseReply_wireFrame (r := ⟨.echo, 0, tag, exchange, slots, flags, 0, latency⟩) ?_
    simp [replyFields, bigEndian, be2_halves, Nat.mod_eq_of_lt, *]

end Sys2Proof.Machine
end

section
/-! SUPPORT. The reply to an entry's STAGE, on the entry itself (R122), where nothing is deferred. -/

namespace Sys2Proof.Machine
namespace World

section
variable {w : World} {e : Env} {l : Fin 4} {ref : Nat} {x : Entry}

/-! ## An entry by its reference -/

theorem entryOf_ref (h : w.entryOf l ref = some x) : x.ref = ref := by
  simpa using List.find?_some h

/-- The entry of a reference in a list whose entries of that reference are changed. -/
theorem find?_ref_map {xs : List Entry} {f : Entry → Entry} (hf : ∀ y, (f y).ref = y.ref)
    (h : xs.find? (·.ref == ref) = some x) :
    (xs.map fun y => if y.ref = ref then f y else y).find? (·.ref == ref) = some (f x) := by
  induction xs with
  | nil => cases h
  | cons y xs ih =>
    by_cases hy : y.ref = ref
    · have found : y = x := by simpa [hy] using h
      subst found
      simp [hy, hf]
    · have later : xs.find? (·.ref == ref) = some x := by simpa [hy] using h
      simpa [hy] using ih later

theorem entryOf_onEntryOf {f : Entry → Entry} (hf : ∀ y, (f y).ref = y.ref) (h : w.entryOf l ref = some x) :
    (w.onEntryOf l ref f).entryOf l ref = some (f x) := by
  rw [entryOf, onEntryOf, onLink_link, if_pos rfl]
  exact find?_ref_map hf h

theorem entryOf_setEntry (s : EntryState) (h : w.entryOf l ref = some x) :
    (w.setEntry l ref s).entryOf l ref = some { x with state := s } := entryOf_onEntryOf (fun _ => rfl) h

theorem entryOf_startDrop {y : Entry} (stop : DropEnd) (stage : DropStage) (h : w.entryOf l x.ref = some y) :
    (w.startDrop l x stop stage).entryOf l x.ref = some { y with state := .dropping stop stage } := by
  rw [entryOf, startDrop_link, if_pos rfl]
  exact find?_ref_map (f := fun y => { y with state := .dropping stop stage }) (fun _ => rfl) h

/-- No entry of the reference is left by its end. -/
theorem endEntry_stage_ref (fin : EntryEnd) : ∀ z ∈ ((w.endEntry l x fin).link l).stage, z.ref ≠ x.ref := by
  intro z hz
  rw [endEntry_link, if_pos rfl] at hz
  simpa using (List.mem_filter.1 hz).2

theorem entryOf_endEntry (fin : EntryEnd) : (w.endEntry l x fin).entryOf l x.ref = none := by
  rw [entryOf, List.find?_eq_none]
  exact fun z hz => by simpa using endEntry_stage_ref fin z hz

/-! ## Nothing deferred -/

theorem undeferred_onLink {f : Link → Link} (h : w.undeferred) (hf : (f (w.link l)).deferred = (w.link l).deferred) :
    (w.onLink l f).undeferred := by
  intro m
  rw [onLink_link]
  split
  · next hm => subst hm; exact hf.trans (h l)
  · exact h m

theorem undeferred_setEntry (s : EntryState) (h : w.undeferred) : (w.setEntry l ref s).undeferred :=
  undeferred_onLink h rfl

theorem undeferred_startDrop (stop : DropEnd) (stage : DropStage) (h : w.undeferred) :
    (w.startDrop l x stop stage).undeferred := by
  intro m
  rw [startDrop_link]
  split <;> exact h m

theorem undeferred_endEntry (fin : EntryEnd) (h : w.undeferred) : (w.endEntry l x fin).undeferred := by
  intro m
  rw [endEntry_link]
  split <;> exact h m

theorem tidy_entryOf (h : w.undeferred) : (w.tidy e).entryOf l ref = w.entryOf l ref := by
  rw [entryOf, (tidy_tidied w e h).stage]
  rfl

theorem Tidied.pending {v : World} (h : w.Tidied v) (l : Fin 4) : (v.link l).pending = (w.link l).pending := by
  have fields := congrArg Link.pending (h.links l)
  exact fields

theorem tidy_pending (h : w.undeferred) : ((w.tidy e).link l).pending = (w.link l).pending :=
  (tidy_tidied w e h).pending l

/-! ## The replies (R122) -/

/-- The TAKE of an entry pends. -/
def pendTake (l : Fin 4) (x : Entry) (w : World) : World := w.onLink l fun k =>
  { k with pending := k.pending ++ [⟨true, x.addr, x.tag, x.ref⟩] }

theorem pendTake_mem : (⟨true, x.addr, x.tag, x.ref⟩ : PendingItem) ∈ ((w.pendTake l x).link l).pending := by
  rw [pendTake, onLink_link, if_pos rfl]
  exact List.mem_append_right _ List.mem_cons_self

theorem pendTake_entryOf : (w.pendTake l x).entryOf l ref = w.entryOf l ref := by
  rw [entryOf, pendTake, onLink_link, if_pos rfl]
  rfl

theorem undeferred_pendTake (h : w.undeferred) : (w.pendTake l x).undeferred := undeferred_onLink h rfl

theorem startDrop_mem (stop : DropEnd) : (⟨false, x.addr, x.tag, x.ref⟩ : PendingItem) ∈
    ((w.startDrop l x stop .dropPending).link l).pending := by
  rw [startDrop_link, if_pos rfl]
  exact List.mem_append_right _ List.mem_cons_self

theorem stageReply_ack (h : w.entryOf l ref = some x) :
    w.stageReply e l ref .ack = (w.entryStaged l x).tidy e := by
  rw [stageReply, h]

theorem stageReply_retry (h : w.entryOf l ref = some x) :
    w.stageReply e l ref .retry = (w.entryRetried l x).tidy e := by
  rw [stageReply, h]

theorem entryStaged_sent (h : x.state = .sent) : w.entryStaged l x =
    if x.group.isNone then (w.setEntry l x.ref .staged).pendTake l x else w.setEntry l x.ref .staged := by
  rw [entryStaged, h]
  rfl

theorem entryStaged_lateSent (h : x.state = .lateSent) : w.entryStaged l x =
    if w.owner (zoneAt l x.addr) = x.player then (w.setEntry l x.ref .lateStaged).pendTake l x
    else (w.setEntry l x.ref .lateStaged).startDrop l x .withdrawn .dropPending := by
  rw [entryStaged, h]
  rfl

theorem entryStaged_dropping {stop : DropEnd} {stage : DropStage} (h : x.state = .dropping stop stage) :
    w.entryStaged l x = w.startDrop l x stop .dropPending := by
  rw [entryStaged, h]

/-- A NAK ends the entry, whatever its state. -/
theorem stageReply_nak (h : w.entryOf l ref = some x) (hd : w.undeferred) :
    (w.stageReply e l ref .nak).entryOf l ref = none := by
  have hr := entryOf_ref h
  have lost : (w.loseEntry e l x).undeferred ∧ (w.loseEntry e l x).entryOf l ref = none := by
    subst hr
    unfold loseEntry
    split
    · exact ⟨undeferred_endEntry _ hd, entryOf_endEntry _⟩
    · refine ⟨fun m => ?_, ?_⟩
      · rw [countTake_link]
        exact undeferred_endEntry _ hd m
      · rw [entryOf, countTake_link]
        exact entryOf_endEntry _
  rw [stageReply, h]
  exact (tidy_entryOf lost.1).trans lost.2

/-- A RETRY puts a SENT or LATE-SENT entry back. -/
theorem stageReply_retry_back {put back : EntryState} (h : w.entryOf l ref = some x) (hd : w.undeferred)
    (hs : x.state = put) (hb : (put = .sent ∧ back = .queued) ∨ (put = .lateSent ∧ back = .late)) :
    (w.stageReply e l ref .retry).entryOf l ref = some { x with state := back, backoff := .raised } := by
  have retried : w.entryRetried l x = w.onEntryOf l ref fun x => { x with state := back, backoff := .raised } := by
    rw [← entryOf_ref h, entryRetried, hs]
    rcases hb with ⟨rfl, rfl⟩ | ⟨rfl, rfl⟩ <;> rfl
  have quiet : (w.onEntryOf l ref fun x => { x with state := back, backoff := .raised }).undeferred :=
    undeferred_onLink hd rfl
  rw [stageReply_retry h, retried, tidy_entryOf quiet]
  exact entryOf_onEntryOf (fun _ => rfl) h

theorem stageReply_retry_dropping {stop : DropEnd} {stage : DropStage} (h : w.entryOf l ref = some x)
    (hd : w.undeferred) (hs : x.state = .dropping stop stage) :
    (w.stageReply e l ref .retry).entryOf l ref = none := by
  rw [stageReply_retry h, entryRetried, hs, ← entryOf_ref h]
  exact (tidy_entryOf (undeferred_endEntry _ hd)).trans (entryOf_endEntry _)

/-- An ACK makes a SENT entry STAGED; the TAKE of an individual one pends. -/
theorem stageReply_ack_sent (h : w.entryOf l ref = some x) (hd : w.undeferred) (hs : x.state = .sent) :
    (w.stageReply e l ref .ack).entryOf l ref = some { x with state := .staged }
    ∧ (x.group = none →
      (⟨true, x.addr, x.tag, ref⟩ : PendingItem) ∈ ((w.stageReply e l ref .ack).link l).pending) := by
  obtain rfl := entryOf_ref h
  have set := undeferred_setEntry (l := l) (ref := x.ref) .staged hd
  rw [stageReply_ack h, entryStaged_sent hs]
  split
  · rw [tidy_entryOf (undeferred_pendTake set), tidy_pending (undeferred_pendTake set), pendTake_entryOf]
    exact ⟨entryOf_setEntry _ h, fun _ => pendTake_mem⟩
  · next hg =>
    rw [tidy_entryOf set]
    exact ⟨entryOf_setEntry _ h, fun hn => absurd (by rw [hn]; rfl) hg⟩

/-- An ACK stages a LATE-SENT entry of the zone's owner, and drops another's. -/
theorem stageReply_ack_lateSent (h : w.entryOf l ref = some x) (hd : w.undeferred) (hs : x.state = .lateSent) :
    (w.owner (zoneAt l x.addr) = x.player →
      (w.stageReply e l ref .ack).entryOf l ref = some { x with state := .lateStaged }
      ∧ (⟨true, x.addr, x.tag, ref⟩ : PendingItem) ∈ ((w.stageReply e l ref .ack).link l).pending)
    ∧ (w.owner (zoneAt l x.addr) ≠ x.player →
      (w.stageReply e l ref .ack).entryOf l ref = some { x with state := .dropping .withdrawn .dropPending }
      ∧ (⟨false, x.addr, x.tag, ref⟩ : PendingItem) ∈ ((w.stageReply e l ref .ack).link l).pending) := by
  obtain rfl := entryOf_ref h
  have set := undeferred_setEntry (l := l) (ref := x.ref) .lateStaged hd
  rw [stageReply_ack h, entryStaged_lateSent hs]
  refine ⟨fun ho => ?_, fun ho => ?_⟩
  · rw [if_pos ho, tidy_entryOf (undeferred_pendTake set), tidy_pending (undeferred_pendTake set), pendTake_entryOf]
    exact ⟨entryOf_setEntry _ h, pendTake_mem⟩
  · have dropped := undeferred_startDrop (l := l) (x := x) .withdrawn .dropPending set
    rw [if_neg ho, tidy_entryOf dropped, tidy_pending dropped]
    have entry := entryOf_startDrop .withdrawn .dropPending (entryOf_setEntry .lateStaged h)
    exact ⟨entry, startDrop_mem _⟩

/-- An ACK makes the DROP of a DROPPING entry pend. -/
theorem stageReply_ack_dropping {stop : DropEnd} {stage : DropStage} (h : w.entryOf l ref = some x)
    (hd : w.undeferred) (hs : x.state = .dropping stop stage) :
    (w.stageReply e l ref .ack).entryOf l ref = some { x with state := .dropping stop .dropPending }
    ∧ (⟨false, x.addr, x.tag, ref⟩ : PendingItem) ∈ ((w.stageReply e l ref .ack).link l).pending := by
  obtain rfl := entryOf_ref h
  have dropped := undeferred_startDrop (l := l) (x := x) stop .dropPending hd
  rw [stageReply_ack h, entryStaged_dropping hs, tidy_entryOf dropped, tidy_pending dropped]
  exact ⟨entryOf_startDrop _ _ h, startDrop_mem _⟩

/-! ## A DROP ended (R131) -/

theorem dropEnded_dropping {stop : DropEnd} {stage : DropStage} (h : w.entryOf l ref = some x)
    (hd : w.undeferred) (hs : x.state = .dropping stop stage) :
    (∀ z ∈ ((w.dropEnded e l ref).link l).stage, z.ref ≠ ref)
    ∧ ∀ z, ((w.dropEnded e l ref).zone z).committed = (w.zone z).committed := by
  have tidied := tidy_tidied (w.endEntry l x stop.toEnd) e (undeferred_endEntry _ hd)
  rw [dropEnded, h]
  dsimp only
  rw [hs]
  dsimp only
  refine ⟨?_, fun z => ?_⟩
  · rw [tidied.stage, ← entryOf_ref h]
    exact endEntry_stage_ref _
  · rw [tidied.zone]
    exact w.endEntry_committed l x _ (toEnd_ne _) z

end
end World

/-- What the reply to an entry's STAGE makes of the entry (R122). -/
theorem stageReply_entry (w : World) (e : Env) (l : Fin 4) (ref : Nat) (x : Entry) (h : w.entryOf l ref = some x)
    (hd : ∀ m, (w.link m).deferred = []) :
    let v (k : ReplyKind) := w.stageReply e l ref k
    let into (k : ReplyKind) (s : EntryState) := (v k).entryOf l ref =
      some { x with state := s, backoff := if k = .retry then .raised else x.backoff }
    let gone (k : ReplyKind) := (v k).entryOf l ref = none
    (x.state = .sent → into .ack .staged ∧ into .retry .queued ∧ gone .nak
      ∧ (x.group = none → (⟨true, x.addr, x.tag, ref⟩ : PendingItem) ∈ ((v .ack).link l).pending))
    ∧ (x.state = .lateSent → into .retry .late ∧ gone .nak
      ∧ (w.owner (zoneAt l x.addr) = x.player → into .ack .lateStaged
        ∧ (⟨true, x.addr, x.tag, ref⟩ : PendingItem) ∈ ((v .ack).link l).pending)
      ∧ (w.owner (zoneAt l x.addr) ≠ x.player → into .ack (.dropping .withdrawn .dropPending)
        ∧ (⟨false, x.addr, x.tag, ref⟩ : PendingItem) ∈ ((v .ack).link l).pending))
    ∧ (∀ stop, x.state = .dropping stop .awaitingReply →
      into .ack (.dropping stop .dropPending) ∧ gone .retry ∧ gone .nak
      ∧ (⟨false, x.addr, x.tag, ref⟩ : PendingItem) ∈ ((v .ack).link l).pending) := by
  intro v into gone
  have nak : gone .nak := World.stageReply_nak h hd
  refine ⟨fun hs => ?_, fun hs => ?_, fun stop hs => ?_⟩
  · obtain ⟨staged, take⟩ := World.stageReply_ack_sent (e := e) h hd hs
    exact ⟨staged, World.stageReply_retry_back h hd hs (.inl ⟨rfl, rfl⟩), nak, take⟩
  · obtain ⟨own, other⟩ := World.stageReply_ack_lateSent (e := e) h hd hs
    exact ⟨World.stageReply_retry_back h hd hs (.inr ⟨rfl, rfl⟩), nak, own, other⟩
  · obtain ⟨dropping, drop⟩ := World.stageReply_ack_dropping (e := e) h hd hs
    exact ⟨dropping, World.stageReply_retry_dropping h hd hs, nak, drop⟩

end Sys2Proof.Machine
end

section
/-! SUPPORT. A matched reply taken (R140, R145 to R152): the blocks once its transfer has ended, a POLL's status and
flush, and a calibration that goes on after an ECHO. -/

namespace Sys2Proof.Machine

/-- What is set from a value is what is set from the same value. -/
theorem Tab.upd_congr {α : Type} {n : Nat} (t : Tab α n) (i : Fin n) {f g : α → α}
    (h : f (t.get i) = g (t.get i)) : t.upd i f = t.upd i g := by
  rw [Tab.upd, Tab.upd, h]

namespace World

section
variable {w v : World} {e : Env} {l : Fin 4} {x : Transfer} {r : DriverReply} {roundTrip : Nat}

theorem onLink_congr {f g : Link → Link} (h : f (w.link l) = g (w.link l)) : w.onLink l f = w.onLink l g :=
  congrArg (fun t => { w with links := t }) (Tab.upd_congr _ _ h)

theorem onDriver_congr {a : Fin 16} {f g : Driver → Driver} (h : f (w.driver l a) = g (w.driver l a)) :
    w.onDriver l a f = w.onDriver l a g :=
  onLink_congr (congrArg (fun t => { w.link l with drivers := t }) (Tab.upd_congr _ _ h))

theorem onDriver_self (a : Fin 16) (f : Driver → Driver) : (w.onDriver l a f).driver l a = f (w.driver l a) := by
  rw [onDriver_driver, if_pos ⟨rfl, rfl⟩]

/-- The blocks with the transfer that a reply answers ended, and the reply's slots and flags recorded (R140). -/
def answered (l : Fin 4) (x : Transfer) (r : DriverReply) (w : World) : World :=
  (w.onLink l fun k => { k with transfer := none, hunting := false }).onDriver l x.addr fun d =>
    { d with slotsFree := some r.slotsFree, flags := some r.flags }

theorem answered_link : (w.answered l x r).link l = { w.link l with
    transfer := none
    hunting := false
    drivers := (w.link l).drivers.upd x.addr fun d =>
      { d with slotsFree := some r.slotsFree, flags := some r.flags } } := by
  rw [answered, onDriver, onLink_link, if_pos rfl, onLink_link, if_pos rfl]

theorem answered_driver : (w.answered l x r).driver l x.addr =
    { w.driver l x.addr with slotsFree := some r.slotsFree, flags := some r.flags } := by
  rw [answered, onDriver_self, driver, onLink_link, if_pos rfl]
  rfl

theorem answered_other {m : Fin 4} : ((w.answered l x r).link m).stage = (w.link m).stage
    ∧ ((w.answered l x r).link m).deferred = (w.link m).deferred := by
  rw [answered, onDriver, onLink_link, onLink_link]
  split <;> exact ⟨rfl, rfl⟩

/-- A matched reply is taken by its frame; then comes its fell-back report (R147). -/
theorem replyTaken_frames : (w.frames l).replyTaken e l x r roundTrip =
    if r.flags % 2 = 1 && x.frame.reportsFellBack then
      (((w.answered l x r).takeReply e l x r roundTrip).restoreTake e (zoneAt l x.addr)).raise e .driverFault
    else (w.answered l x r).takeReply e l x r roundTrip := by
  have ended : (w.frames l).onLink l (fun k => { k with transfer := none }) =
      w.onLink l fun k => { k with transfer := none, hunting := false } := by
    rw [frames, onLink_onLink]
    rfl
  unfold replyTaken
  rw [ended]
  rfl

/-! ## A POLL's ACK (R149, R150) -/

/-- The scan moved past the address of its poll, where it was a scan's. -/
def scanned (l : Fin 4) (a : Fin 16) (scan : Bool) (w : World) : World :=
  w.onLink l fun k => { k with scanPos := if scan then k.scanPos.map fun _ => a.val + 1 else k.scanPos }

/-- The status of a POLL's reply recorded. -/
def known (l : Fin 4) (a : Fin 16) (scan : Bool) (r : DriverReply) (w : World) : World :=
  (w.scanned l a scan).onDriver l a (Driver.status r)

/-- The driver's record flushed: a lost one is READY again. -/
def flushed (d : Driver) : Driver :=
  { d with credits := 4, occupied := 0, backoff := .clear, state := if d.lost then .ready else d.state }

theorem known_eq (a : Fin 16) (scan : Bool) :
    (if scan = true then (w.onDriver l a (Driver.status r)).scanOn l a else w.onDriver l a (Driver.status r)) =
      w.known l a scan r := by
  cases scan
  · exact (onLink_onLink w l id fun k => { k with drivers := k.drivers.upd a (Driver.status r) }).symm
  · rw [known, scanned, scanOn, onDriver, onDriver, onLink_onLink, onLink_onLink]
    rfl

theorem known_driver (a : Fin 16) (scan : Bool) :
    (w.known l a scan r).driver l a = Driver.status r (w.driver l a) := by
  rw [known, onDriver_self, driver, scanned, onLink_link, if_pos rfl]
  rfl

theorem known_scanPos (a : Fin 16) (scan : Bool) : ((w.known l a scan r).link l).scanPos =
    if scan then (w.link l).scanPos.map fun _ => a.val + 1 else (w.link l).scanPos := by
  rw [known, onDriver, onLink_link, if_pos rfl, scanned, onLink_link, if_pos rfl]

theorem pollTaken_plain (scan : Bool) : w.pollTaken e l x false scan r = w.known l x.addr scan r := by
  rw [← known_eq]
  rfl

/-- A flush: a lost driver then returns. -/
theorem pollTaken_flush (scan : Bool) : w.pollTaken e l x true scan r =
    if (w.driver l x.addr).lost then
      ((w.known l x.addr scan r).onDriver l x.addr flushed).returnTake e (zoneAt l x.addr)
    else (w.known l x.addr scan r).onDriver l x.addr flushed := by
  have same : (w.known l x.addr scan r).onDriver l x.addr (fun d =>
      { d with credits := 4, occupied := 0, backoff := .clear
               state := if (w.driver l x.addr).lost then .ready else d.state }) =
      (w.known l x.addr scan r).onDriver l x.addr flushed := by
    refine onDriver_congr ?_
    rw [known_driver]
    rfl
  rw [← same, ← known_eq]
  rfl

theorem pollTaken_driver (flush scan : Bool) : (w.pollTaken e l x flush scan r).driver l x.addr =
    if flush then flushed (Driver.status r (w.driver l x.addr)) else Driver.status r (w.driver l x.addr) := by
  cases flush
  · rw [pollTaken_plain, known_driver]
    rfl
  · rw [pollTaken_flush, if_pos rfl, ← known_driver x.addr scan]
    split
    · rw [((Lists.refl _).returnTake e _).driver, onDriver_self]
    · rw [onDriver_self]

theorem pollTaken_scanPos (flush scan : Bool) : ((w.pollTaken e l x flush scan r).link l).scanPos =
    if scan then (w.link l).scanPos.map fun _ => x.addr.val + 1 else (w.link l).scanPos := by
  have kept : (((w.known l x.addr scan r).onDriver l x.addr flushed).link l).scanPos =
      ((w.known l x.addr scan r).link l).scanPos := by
    rw [onDriver, onLink_link, if_pos rfl]
  cases flush
  · rw [pollTaken_plain, known_scanPos]
  · rw [pollTaken_flush, ← known_scanPos x.addr scan (r := r), ← kept]
    split
    · have fields := congrArg Link.scanPos
        (((Lists.refl ((w.known l x.addr scan r).onDriver l x.addr flushed)).returnTake e (zoneAt l x.addr)).links l)
      exact fields
    · rfl

/-! ## A STAGE's reply (R145, R146) -/

/-- The driver's record after the reply to a STAGE. -/
def creditMoved (k : ReplyKind) (d : Driver) : Driver :=
  match k with
  | .ack => { d with occupied := d.occupied + 1 }
  | .retry => { d with credits := d.credits + 1, state := .busy, backoff := .raised }
  | _ => { d with credits := d.credits + 1 }

theorem stageTaken_eq (a : Fin 16) (ref : Nat) (k : ReplyKind) : w.stageTaken e l a ref k =
    (w.onDriver l a (creditMoved k)).stageReply e l ref k := rfl

theorem stageTaken_driver (a : Fin 16) (ref : Nat) (k : ReplyKind) :
    (w.stageTaken e l a ref k).driver l a = creditMoved k (w.driver l a) := by
  rw [stageTaken_eq, ((Lists.refl _).stageReply e l ref k).driver, onDriver_self]

/-! ## An ECHO of a calibration (R152) -/

/-- The latency of an ECHO recorded. -/
def timed (l : Fin 4) (a : Fin 16) (latency : Nat) (w : World) : World :=
  w.onDriver l a fun d => { d with latency := some latency }

theorem timed_link (a : Fin 16) (latency : Nat) : (w.timed l a latency).link l =
    { w.link l with drivers := (w.link l).drivers.upd a fun d => { d with latency := some latency } } := by
  rw [timed, onDriver, onLink_link, if_pos rfl]

theorem echoTaken_probing {a : Fin 16} {latency : Nat} {c : CalPos} (hs : (w.link l).state = .calibrating)
    (hc : (w.link l).cal = some c) (hp : c.probing = true) : w.echoTaken l a latency roundTrip =
    if c.count < 7 then (w.timed l a latency).onLink l fun k =>
      { k with cal := some ⟨c.addr, c.count + 1, c.sum + roundTrip, c.measured, false⟩ }
    else ((w.timed l a latency).onZone (zoneAt l a) fun z =>
        { z with lead := measuredLead (c.sum + roundTrip) latency }).onLink l fun k =>
      { k with cal := some ⟨c.addr + 1, 0, 0, c.measured + 1, false⟩ } := by
  have at_ := timed_link (w := w) (l := l) a latency
  rw [timed] at at_
  unfold echoTaken
  dsimp only
  rw [at_]
  dsimp only
  rw [hs, hc]
  dsimp only
  rw [hp]
  rfl

end

/-! ## A calibration goes on (R143, R152, R153) -/

section
variable {w v : World} {e : Env} {l : Fin 4} {c : CalPos} {a : Fin 16}

/-- A link that has nothing to do after one act. -/
theorem pump_once (h : w.choose e l = some v) (hv : v.choose e l = none) : w.pump e l = v := by
  unfold pump pumpFor
  rw [h]
  dsimp only
  unfold pumpFor
  rw [hv]

theorem pump_none (h : w.choose e l = none) : w.pump e l = w := by
  unfold pump pumpFor
  rw [h]

/-- A link with its wire taken and no long operation at its end does nothing. -/
theorem choose_taken (h : (w.link l).wireIdle = false) (ho : w.longOpOver l = none)
    (hq : (w.link l).quiesced = false) : w.choose e l = none := by
  rw [choose_eq e ho hq, chooseFrame_busy e h]

/-- A calibration whose address has a READY driver. -/
structure CalibratesAt (l : Fin 4) (a : Fin 16) (w : World) : Prop where
  state : (w.link l).state = .calibrating
  at_ : ∃ c, (w.link l).cal = some c ∧ c.addr = a.val
  ready : (w.driver l a).state = .ready

namespace CalibratesAt
variable (h : w.CalibratesAt l a)
include h

theorem longOpOver : w.longOpOver l = none := by
  obtain ⟨c, hc, ha⟩ := h.at_
  have left : (w.link l).calLeft c = true := by
    refine List.any_eq_true.2 ⟨a, List.mem_finRange a, ?_⟩
    have live : (w.driver l a).deliverable = true := by rw [Driver.deliverable, h.ready]; rfl
    simpa [ha] using (show ((w.link l).drivers.get a).deliverable = true from live)
  unfold World.longOpOver
  dsimp only
  rw [h.state, hc]
  exact if_pos left

theorem quiesced : (w.link l).quiesced = false := by
  rw [Link.quiesced, h.state]
  rfl

/-- What an act that leaves the calibration where it stands, but for a PROBE begun, leaves to do. -/
theorem probed {p : Bool} (hc : (w.link l).cal = some c) (hv : (v.link l).cal = some { c with probing := p })
    (hs : (v.link l).state = .calibrating) (hd : (v.link l).drivers = (w.link l).drivers)
    (hi : (v.link l).wireIdle = false) :
    v.choose e l = none ∧ ∃ p, (v.link l).cal = some { c with probing := p } := by
  obtain ⟨c', hc', ha⟩ := h.at_
  obtain rfl : c' = c := Option.some.inj (hc'.symm.trans hc)
  have stands : v.CalibratesAt l a := ⟨hs, ⟨_, hv, ha⟩, by rw [driver, hd]; exact h.ready⟩
  exact ⟨choose_taken hi stands.longOpOver stands.quiesced, p, hv⟩

/-- A frame begun. -/
theorem takes (hc : (w.link l).cal = some c) (t : Takes l w v) :
    v.choose e l = none ∧ ∃ p, (v.link l).cal = some { c with probing := p } := by
  have cal := congrArg Link.cal (t.begun.links l)
  have state := congrArg Link.state (t.begun.links l)
  have drivers := congrArg Link.drivers (t.begun.links l)
  exact h.probed (p := c.probing) hc (cal.trans hc) (state.trans h.state) drivers t.busy

/-- The next PROBE. -/
theorem turn (hc : (w.link l).cal = some c) (hv : w.calTurn l = some v) :
    v.choose e l = none ∧ ∃ p, (v.link l).cal = some { c with probing := p } := by
  obtain ⟨c', hc', ha⟩ := h.at_
  obtain rfl : c' = c := Option.some.inj (hc'.symm.trans hc)
  unfold calTurn at hv
  rw [hc] at hv
  dsimp only at hv
  rw [index?_eq_some.2 ha.symm] at hv
  dsimp only at hv
  rw [h.ready] at hv
  obtain rfl := Option.some.inj hv
  have at_ : ((w.onLink l fun k => { k with cal := some { c' with probing := true } }).startTransfer l
      (.probe c'.count) a).link l = { w.link l with
        cal := some { c' with probing := true }, transfer := some ⟨.probe c'.count, a, 0, 0, true, false⟩ } := by
    rw [startTransfer, onLink_link, if_pos rfl, onLink_link, if_pos rfl]
  exact h.probed (p := true) hc (by rw [at_]) (by rw [at_]; exact h.state) (by rw [at_]) (by rw [at_]; rfl)

end CalibratesAt

/-- A FORCE or a WAKE sent takes the wire, and the link is then asleep or warming up. -/
theorem choose_broadcasting (hi : (v.link l).bcast.isSome = true)
    (hs : (v.link l).state = .asleep ∨ (v.link l).state = .warming) : v.choose e l = none := by
  refine choose_taken ?_ ?_ ?_
  · rw [Link.wireIdle, Bool.and_eq_false_iff]
    exact .inr (by simpa using hi)
  · unfold World.longOpOver
    dsimp only
    rcases hs with hs | hs <;> rw [hs]
  · rcases hs with hs | hs <;> rw [Link.quiesced, hs] <;> rfl

theorem sendForce_eq : w.sendForce e l = w.slept e l := by
  rw [sendForce, startBroadcast, onLink_onLink]
  rfl

theorem slept_cal : ((w.slept e l).link l).cal = (w.link l).cal := by
  have fields := congrArg Link.cal
    ((dropDrivers_loses (w := w.forcing l) (e := e) (l := l) (s := .asleep)).links l)
  rw [slept_link]
  exact fields.trans (by rw [forcing_link])

theorem sendWake_link : (w.sendWake e l).link l =
    { w.link l with wakeOwed := false, bcast := some .wake, state := .warming, power := true, timer := 0 } := by
  refine (enterLink_link .warming).trans ?_
  rw [startBroadcast, onLink_link, if_pos rfl, onLink_link, if_pos rfl]
  rfl

/-- What the link does next leaves a calibration where it stands, but for a PROBE begun. -/
theorem CalibratesAt.pump (h : w.CalibratesAt l a) (hc : (w.link l).cal = some c) :
    ∃ p, ((w.pump e l).link l).cal = some { c with probing := p } := by
  have once : ∀ v, w.choose e l = some v →
      v.choose e l = none ∧ ∃ p, (v.link l).cal = some { c with probing := p } := by
    intro v hv
    rw [choose_eq e h.longOpOver h.quiesced] at hv
    unfold chooseFrame at hv
    dsimp only at hv
    split at hv
    · cases hv
    · split at hv
      · obtain rfl := Option.some.inj hv
        rw [sendForce_eq]
        exact ⟨choose_broadcasting (by rw [slept_bcast]; rfl) (.inl (by rw [slept_link])), c.probing,
          slept_cal.trans hc⟩
      · split at hv
        · obtain rfl := Option.some.inj hv
          exact ⟨choose_broadcasting (by rw [sendWake_link]; rfl) (.inr (by rw [sendWake_link])), c.probing,
            by rw [sendWake_link]; exact hc⟩
        · rw [h.state] at hv
          obtain ⟨o, ho, hov⟩ := List.exists_of_findSome?_eq_some hv
          obtain rfl : o = some v := hov
          simp only [List.mem_cons, List.not_mem_nil, or_false] at ho
          rcases ho with ho | ho | ho
          · exact h.takes hc (sendGoOrPending_takes ho.symm)
          · exact h.takes hc (sendStage_takes ho.symm)
          · exact h.turn hc ho.symm
  cases hv : w.choose e l with
  | none =>
    rw [pump_none hv]
    exact ⟨c.probing, hc⟩
  | some v =>
    obtain ⟨stop, cal⟩ := once v hv
    rw [pump_once hv stop]
    exact cal

end
end World
end Sys2Proof.Machine
end

section
/-! SUPPORT. The replies taken, by the frames they answer (R145 to R152). -/

namespace Sys2Proof.Machine

/-- A reply that its frame allows is matched (R140). -/
theorem Transfer.matched_of_allowed {x : Transfer} {r : DriverReply} (hx : x.reported = true) (ha : r.addr = x.addr)
    (ht : r.tag = x.frame.tag)
    (h : match x.frame with
      | .stage .. => r.kind ≠ .echo
      | .take .. => r.kind = .ack ∨ r.kind = .nak
      | .drop .. => r.kind = .ack ∨ r.kind = .nak
      | .probe n => r.kind = .echo ∧ r.exchange = n
      | _ => r.kind = .ack) : x.matched r = true := by
  rw [Transfer.matched_iff]
  refine ⟨hx, ha, ?_, ht, fun n hn => ?_⟩
  · revert h
    cases x.frame <;> cases r.kind <;> simp [TxFrame.allows]
  · rw [hn] at h
    exact h.2

namespace World

section
variable {w : World} {e : Env} {l : Fin 4} {x : Transfer} {r : DriverReply} {roundTrip : Nat}

/-- A reply without a fell-back flag, or to a flush POLL. -/
theorem replyTaken_plain (h : r.flags % 2 = 0 ∨ ∃ scan, x.frame = .poll true scan) :
    (w.frames l).replyTaken e l x r roundTrip = (w.answered l x r).takeReply e l x r roundTrip := by
  refine replyTaken_frames.trans (if_neg ?_)
  rcases h with h | ⟨scan, h⟩
  · simp [h]
  · simp [h, TxFrame.reportsFellBack]

/-- A fell-back flag reported. -/
theorem replyTaken_fellBack (h : r.flags % 2 = 1) (hp : ∀ scan, x.frame ≠ .poll true scan) :
    (w.frames l).replyTaken e l x r roundTrip =
      (((w.answered l x r).takeReply e l x r roundTrip).restoreTake e (zoneAt l x.addr)).raise e .driverFault := by
  have reports : x.frame.reportsFellBack = true := by
    cases hx : x.frame with
    | poll flush scan =>
      cases flush with
      | false => rfl
      | true => exact absurd hx (hp scan)
    | stage | take | drop | refresh | sleep | probe => rfl
  exact replyTaken_frames.trans (if_pos (by simp [h, reports]))

theorem takeReply_refresh {look : LookVal} (h : x.frame = .refresh look) : w.takeReply e l x r roundTrip = w := by
  rw [takeReply, h]

theorem takeReply_take {ref tag : Nat} (h : x.frame = .take ref tag) :
    w.takeReply e l x r roundTrip = w.onDriver l x.addr Driver.slotFreed := by
  rw [takeReply, h]

theorem takeReply_drop {ref tag : Nat} (h : x.frame = .drop ref tag) : w.takeReply e l x r roundTrip =
    (w.onDriver l x.addr Driver.slotFreed).dropEnded e l ref := by
  rw [takeReply, h]

theorem takeReply_stage {ref tag hold : Nat} {look : LookVal} (h : x.frame = .stage ref tag look hold) :
    w.takeReply e l x r roundTrip = w.stageTaken e l x.addr ref r.kind := by
  rw [takeReply, h]

theorem takeReply_poll {flush scan : Bool} (h : x.frame = .poll flush scan) :
    w.takeReply e l x r roundTrip = w.pollTaken e l x flush scan r := by
  rw [takeReply, h]

theorem takeReply_sleep (h : x.frame = .sleep) :
    w.takeReply e l x r roundTrip = w.dropDriver e l .asleep x.addr := by
  rw [takeReply, h]

theorem takeReply_probe {n : Nat} (h : x.frame = .probe n) :
    w.takeReply e l x r roundTrip = w.echoTaken l x.addr r.latency roundTrip := by
  rw [takeReply, h]

/-- The stage lists and the deferred lists are not the drivers'. -/
theorem onDriver_lists {a : Fin 16} {f : Driver → Driver} (m : Fin 4) :
    ((w.onDriver l a f).link m).stage = (w.link m).stage
      ∧ ((w.onDriver l a f).link m).deferred = (w.link m).deferred := by
  rw [onDriver, onLink_link]
  split <;> exact ⟨rfl, rfl⟩

/-- A calibration's PROBE answered, with repeats left: what the link does next leaves it at its address. -/
theorem echoTaken_goes_on {c : CalPos} {a : Fin 16} {latency : Nat} (hs : (w.link l).state = .calibrating)
    (hc : (w.link l).cal = some c) (hp : c.probing = true) (hn : c.count < 7) (ha : c.addr = a.val)
    (hd : (w.driver l a).state = .ready) :
    ∃ p, (((w.echoTaken l a latency roundTrip).pump e l).link l).cal =
      some ⟨c.addr, c.count + 1, c.sum + roundTrip, c.measured, p⟩ := by
  have at_ : (w.echoTaken l a latency roundTrip).link l = { w.link l with
      drivers := (w.link l).drivers.upd a fun d => { d with latency := some latency }
      cal := some ⟨c.addr, c.count + 1, c.sum + roundTrip, c.measured, false⟩ } := by
    rw [echoTaken_probing hs hc hp, if_pos hn, onLink_link, if_pos rfl, timed_link]
  have ready : ((w.echoTaken l a latency roundTrip).driver l a).state = .ready := by
    rw [driver, at_]
    exact (congrArg Driver.state (Tab.get_upd_self _ _ _)).trans hd
  have stands : (w.echoTaken l a latency roundTrip).CalibratesAt l a :=
    ⟨by rw [at_]; exact hs,
      ⟨⟨c.addr, c.count + 1, c.sum + roundTrip, c.measured, false⟩, by rw [at_], ha⟩, ready⟩
  exact stands.pump (c := ⟨c.addr, c.count + 1, c.sum + roundTrip, c.measured, false⟩) (by rw [at_])

end
end World

/-- Settles O41: a matched reply taken by the rule of its frame, and what the reply to an entry's STAGE makes of the
entry. -/
theorem driverRepliesTaken : Obligations.DriverRepliesTaken := by
  refine ⟨fun s l x r rt hh hr ht hx ha htag => ?_, fun w e l ref x h hd => stageReply_entry w e l ref x h hd⟩
  intro poll ev after v w allowed hfit hallow
  have at_ : v.link l = _ := World.answered_link
  have driver : v.driver l x.addr = _ := World.answered_driver
  have polling : (s.world.link l).polling = poll := by rw [Link.polling, ht]; rfl
  have heard : s.world.driverReply s.env l (r.wire poll) rt = (s.world.frames l).replyTaken s.env l x r rt :=
    World.driverReply_matched rt hr (by rw [polling]; exact parseReply_wire hfit) ht
      (Transfer.matched_of_allowed hx ha htag hallow)
  have taken {u : World} (hu : (s.world.frames l).replyTaken s.env l x r rt = u) : after u := by
    obtain ⟨t, run, chosen⟩ := State.linkEvent_after l (fun w => (w.link l).state.receives)
      (fun e w => w.driverReply e l (r.wire poll) rt) hh hr
    rw [heard, hu] at chosen
    exact ⟨t, run, chosen⟩
  refine ⟨fun hf => taken (World.replyTaken_plain hf),
    fun hf hp => ⟨taken (World.replyTaken_fellBack hf hp), World.raise_pending _ _ .driverFault⟩,
    fun look hf => World.takeReply_refresh hf,
    ⟨fun ref tag hf => World.takeReply_take hf, fun ref tag hf => ?_⟩, fun ref tag look hold hf => ?_,
    fun flush scan hf => ?_, fun hf => ?_, fun n c hf hs hc hp => ?_⟩
  · let freed := v.onDriver l x.addr Driver.slotFreed
    have eq : w = freed.dropEnded s.env l ref := World.takeReply_drop hf
    have lists (m : Fin 4) := World.onDriver_lists (w := v) (l := l) (a := x.addr) (f := Driver.slotFreed) m
    have others (m : Fin 4) : (v.link m).stage = (s.world.link m).stage
      ∧ (v.link m).deferred = (s.world.link m).deferred := World.answered_other
    refine ⟨eq ▸ (World.Kept.refl freed).dropEnded s.env l ref,
      by rw [eq, ((World.Lists.refl freed).dropEnded s.env l ref).driver]; rfl, fun y stop stage hy hst hd => ?_⟩
    have entry : freed.entryOf l ref = some y := by
      rw [World.entryOf, (lists l).1, (others l).1]
      exact hy
    obtain ⟨gone, committed⟩ := World.dropEnded_dropping (e := s.env) entry
      (fun m => (lists m).2.trans ((others m).2.trans (hd m))) hst
    rw [eq]
    exact ⟨gone, committed _⟩
  · have eq : w = v.stageTaken s.env l x.addr ref r.kind := World.takeReply_stage hf
    rw [eq]
    exact ⟨(World.Kept.refl v).stageTaken s.env l _ _ _, rfl, World.stageTaken_driver _ _ _⟩
  · have eq : w = v.pollTaken s.env l x flush scan r := World.takeReply_poll hf
    have lost : (v.driver l x.addr).lost = (s.world.driver l x.addr).lost := by rw [driver]; rfl
    rw [eq]
    refine ⟨(World.Kept.refl v).pollTaken s.env l x flush scan r, ?_, World.pollTaken_driver _ _, ?_, ?_, ?_⟩
    · rw [World.pollTaken_scanPos, at_]
    · rintro rfl
      exact World.pollTaken_plain scan
    · rintro rfl hl
      rw [World.pollTaken_flush, lost, hl]
      rfl
    · rintro rfl hl
      rw [World.pollTaken_flush, lost, hl]
      rfl
  · have eq : w = v.dropDriver s.env l .asleep x.addr := World.takeReply_sleep hf
    refine ⟨eq ▸ (World.Kept.refl v).dropDriver s.env l _ _, ?_, eq⟩
    rw [eq, World.dropDriver_driver, if_pos ⟨rfl, rfl⟩, Driver.lostTo_state]
  · have eq : w = v.echoTaken l x.addr r.latency rt := World.takeReply_probe hf
    have state : (v.link l).state = .calibrating := by rw [at_]; exact hs
    have cal : (v.link l).cal = some c := by rw [at_]; exact hc
    have echoed := World.echoTaken_probing (a := x.addr) (latency := r.latency) (roundTrip := rt) state cal hp
    refine ⟨fun hn => ⟨?_, fun hf0 hca hd t hev => ?_⟩, fun hn => ?_⟩
    · rw [eq, echoed, if_pos hn]
      rfl
    · obtain ⟨t', run, chosen, -⟩ := taken (World.replyTaken_plain (.inl hf0))
      obtain rfl : t' = t := Host.Outcome.next.inj (run.symm.trans hev)
      have ready : (v.driver l x.addr).state = .ready := by rw [driver]; exact hd
      have goes := World.echoTaken_goes_on (e := s.env) (latency := r.latency) (roundTrip := rt)
        state cal hp hn hca ready
      rw [← eq] at goes
      rw [chosen.world]
      exact goes
    · rw [eq, echoed, if_neg (Nat.not_lt.2 hn)]
      rfl

end Sys2Proof.Machine
end


section
/-! SUPPORT. Entries removed from a link, one after another (R126, R127, R129, R130): what a run of removals leaves of
the link's lists. -/

namespace Sys2Proof.Machine

/-- A link's record once an entry has left it by its state, or has gone DROPPING (R129). -/
def Link.removed (stop : DropEnd) (k : Link) (x : Entry) : Link :=
  let out (st : DropStage) : Link := { k.stopFrame x.ref with
    pending := k.pending.filter (·.ref != x.ref) ++ if st = .dropPending then [⟨false, x.addr, x.tag, x.ref⟩] else []
    stage := k.stage.map fun y => if y.ref = x.ref then { y with state := .dropping stop st } else y }
  match x.state with
  | .queued => { k.stopFrame x.ref with stage := k.stage.filter (·.ref != x.ref), retry := true }
  | .late => { k.stopFrame x.ref with stage := k.stage.filter (·.ref != x.ref), retry := true }
  | .sent => out .awaitingReply
  | .lateSent => out .awaitingReply
  | .staged => out .dropPending
  | .lateStaged => out .dropPending
  | .dropping .. => k

/-- What is left of a link by the removal of several entries. -/
def Link.removedAll (stop : DropEnd) (k : Link) (xs : List Entry) : Link := xs.foldl (Link.removed stop) k

namespace Link
variable {k : Link} {x y z : Entry} {stop : DropEnd} {xs : List Entry}

theorem removed_ended (h : x.state = .queued ∨ x.state = .late) : k.removed stop x =
    { k.stopFrame x.ref with stage := k.stage.filter (·.ref != x.ref), retry := true } := by
  unfold removed
  rcases h with h | h <;> rw [h]

/-- The link's record with an entry gone DROPPING. -/
def stopped (stop : DropEnd) (st : DropStage) (k : Link) (x : Entry) : Link :=
  { k.stopFrame x.ref with
    pending := k.pending.filter (·.ref != x.ref) ++ if st = .dropPending then [⟨false, x.addr, x.tag, x.ref⟩] else []
    stage := k.stage.map fun y => if y.ref = x.ref then { y with state := .dropping stop st } else y }

theorem removed_sent (h : x.state = .sent ∨ x.state = .lateSent) :
    k.removed stop x = k.stopped stop .awaitingReply x := by
  unfold removed
  rcases h with h | h <;> rw [h] <;> rfl

theorem removed_staged (h : x.state = .staged ∨ x.state = .lateStaged) :
    k.removed stop x = k.stopped stop .dropPending x := by
  unfold removed
  rcases h with h | h <;> rw [h] <;> rfl

theorem removed_dropping (h : x.dropping = true) : k.removed stop x = k := by
  unfold Entry.dropping at h
  unfold removed
  split at h
  · next hs => rw [hs]
  · cases h

/-- A removal, by the entry's state. -/
theorem removed_cases (stop : DropEnd) (k : Link) (x : Entry) :
    (x.dropping = true ∧ k.removed stop x = k)
    ∨ (x.dropping = false ∧ k.removed stop x =
      { k.stopFrame x.ref with stage := k.stage.filter (·.ref != x.ref), retry := true })
    ∨ (x.dropping = false ∧ ∃ st, k.removed stop x = k.stopped stop st x) := by
  cases hs : x.state with
  | queued => exact .inr (.inl ⟨by rw [Entry.dropping, hs], removed_ended (.inl hs)⟩)
  | late => exact .inr (.inl ⟨by rw [Entry.dropping, hs], removed_ended (.inr hs)⟩)
  | sent => exact .inr (.inr ⟨by rw [Entry.dropping, hs], _, removed_sent (.inl hs)⟩)
  | lateSent => exact .inr (.inr ⟨by rw [Entry.dropping, hs], _, removed_sent (.inr hs)⟩)
  | staged => exact .inr (.inr ⟨by rw [Entry.dropping, hs], _, removed_staged (.inl hs)⟩)
  | lateStaged => exact .inr (.inr ⟨by rw [Entry.dropping, hs], _, removed_staged (.inr hs)⟩)
  | dropping a b =>
    have out : x.dropping = true := by rw [Entry.dropping, hs]
    exact .inl ⟨out, removed_dropping out⟩

/-- Lists that a removal does not touch. -/
theorem removed_lists (stop : DropEnd) (k : Link) (x : Entry) : (k.removed stop x).gos = k.gos
    ∧ (k.removed stop x).tags = k.tags ∧ (k.removed stop x).deferred = k.deferred := by
  rcases removed_cases stop k x with ⟨-, h⟩ | ⟨-, h⟩ | ⟨-, st, h⟩ <;> rw [h] <;> exact ⟨rfl, rfl, rfl⟩

/-- An entry with another reference stays, and so does every entry when one on its way out is removed. -/
theorem removed_stays (hy : y ∈ k.stage) (h : x.dropping = false → x.ref ≠ y.ref) : y ∈ (k.removed stop x).stage := by
  rcases removed_cases stop k x with ⟨-, e⟩ | ⟨hd, e⟩ | ⟨hd, st, e⟩
  · rw [e]
    exact hy
  · rw [e]
    exact List.mem_filter.2 ⟨hy, by simpa using Ne.symm (h hd)⟩
  · rw [e]
    exact List.mem_map.2 ⟨y, hy, if_neg (Ne.symm (h hd))⟩

/-- No reference is new. -/
theorem removed_ref (hy : y ∈ (k.removed stop x).stage) : ∃ z ∈ k.stage, z.ref = y.ref := by
  rcases removed_cases stop k x with ⟨-, e⟩ | ⟨-, e⟩ | ⟨-, st, e⟩
  · rw [e] at hy
    exact ⟨y, hy, rfl⟩
  · rw [e] at hy
    exact ⟨y, (List.mem_filter.1 hy).1, rfl⟩
  · rw [e] at hy
    obtain ⟨z, hz, rfl⟩ := List.mem_map.1 hy
    refine ⟨z, hz, ?_⟩
    split <;> rfl

theorem removed_gone (h : x.state = .queued ∨ x.state = .late) (hy : y ∈ (k.removed stop x).stage) : y.ref ≠ x.ref := by
  rw [removed_ended h] at hy
  simpa using (List.mem_filter.1 hy).2

theorem stopped_mem {st : DropStage} (hz : z ∈ k.stage) (h : z.ref = x.ref) :
    { z with state := .dropping stop st } ∈ (k.stopped stop st x).stage :=
  List.mem_map.2 ⟨z, hz, if_pos h⟩

/-! ## A run of removals -/

theorem removedAll_cons : k.removedAll stop (x :: xs) = (k.removed stop x).removedAll stop xs := rfl

theorem removedAll_lists : (k.removedAll stop xs).gos = k.gos ∧ (k.removedAll stop xs).tags = k.tags
    ∧ (k.removedAll stop xs).deferred = k.deferred := by
  induction xs generalizing k with
  | nil => exact ⟨rfl, rfl, rfl⟩
  | cons x xs ih =>
    obtain ⟨gos, tags, deferred⟩ := removed_lists stop k x
    rw [removedAll_cons]
    exact ⟨ih.1.trans gos, ih.2.1.trans tags, ih.2.2.trans deferred⟩

theorem removedAll_stays (hy : y ∈ k.stage) (h : ∀ x ∈ xs, x.dropping = false → x.ref ≠ y.ref) :
    y ∈ (k.removedAll stop xs).stage := by
  induction xs generalizing k with
  | nil => exact hy
  | cons x xs ih =>
    rw [removedAll_cons]
    exact ih (removed_stays hy (h x List.mem_cons_self)) fun z hz => h z (List.mem_cons_of_mem _ hz)

theorem removedAll_ref (hy : y ∈ (k.removedAll stop xs).stage) : ∃ z ∈ k.stage, z.ref = y.ref := by
  induction xs generalizing k with
  | nil => exact ⟨y, hy, rfl⟩
  | cons x xs ih =>
    rw [removedAll_cons] at hy
    obtain ⟨z, hz, hr⟩ := ih hy
    obtain ⟨u, hu, hzu⟩ := removed_ref hz
    exact ⟨u, hu, hzu.trans hr⟩

/-- A QUEUED or LATE entry of the run is gone. -/
theorem removedAll_gone (hx : x ∈ xs) (h : x.state = .queued ∨ x.state = .late) :
    ∀ y ∈ (k.removedAll stop xs).stage, y.ref ≠ x.ref := by
  induction xs generalizing k with
  | nil => cases hx
  | cons z xs ih =>
    intro y hy
    rw [removedAll_cons] at hy
    rcases List.mem_cons.1 hx with rfl | hx
    · obtain ⟨u, hu, hr⟩ := removedAll_ref hy
      exact hr ▸ removed_gone h hu
    · exact ih hx y hy

/-- An entry of the run that goes DROPPING is on its way out at the end, where it is the only one of its reference. -/
theorem removedAll_stopped {st : DropStage} (hs : ∀ k : Link, k.removed stop x = k.stopped stop st x)
    (h : (x ∈ k.stage ∧ x ∈ xs) ∨ { x with state := .dropping stop st } ∈ k.stage)
    (only : ∀ y ∈ xs, y.ref = x.ref → y = x) :
    { x with state := .dropping stop st } ∈ (k.removedAll stop xs).stage := by
  induction xs generalizing k with
  | nil => exact h.resolve_left fun hx => nomatch hx.2
  | cons y xs ih =>
    rw [removedAll_cons]
    refine ih ?_ fun z hz => only z (List.mem_cons_of_mem _ hz)
    by_cases hy : y.ref = x.ref
    · obtain rfl := only y List.mem_cons_self hy
      rw [hs]
      rcases h with ⟨hk, -⟩ | hk
      · exact .inr (stopped_mem hk rfl)
      · exact .inr (stopped_mem (z := { y with state := .dropping stop st }) hk rfl)
    · rcases h with ⟨hk, hm⟩ | hk
      · exact .inl ⟨removed_stays hk fun _ => hy,
          (List.mem_cons.1 hm).resolve_left fun e => hy (congrArg Entry.ref e.symm)⟩
      · exact .inr (removed_stays hk fun _ => hy)

/-- The DROP of a STAGED or LATE-STAGED entry of the run pends. -/
theorem removedAll_pending (h : x.state = .staged ∨ x.state = .lateStaged)
    (hx : x ∈ xs ∨ (⟨false, x.addr, x.tag, x.ref⟩ : PendingItem) ∈ k.pending)
    (only : ∀ y ∈ xs, y.ref = x.ref → y = x) :
    (⟨false, x.addr, x.tag, x.ref⟩ : PendingItem) ∈ (k.removedAll stop xs).pending := by
  induction xs generalizing k with
  | nil => exact hx.resolve_left nofun
  | cons y xs ih =>
    rw [removedAll_cons]
    refine ih ?_ fun z hz => only z (List.mem_cons_of_mem _ hz)
    by_cases hy : y.ref = x.ref
    · obtain rfl := only y List.mem_cons_self hy
      rw [removed_staged h]
      exact .inr (List.mem_append_right _ List.mem_cons_self)
    · rcases hx with hx | hx
      · exact .inl ((List.mem_cons.1 hx).resolve_left fun e => hy (congrArg Entry.ref e.symm))
      · refine .inr ?_
        have kept : (⟨false, x.addr, x.tag, x.ref⟩ : PendingItem) ∈ k.pending.filter (·.ref != y.ref) :=
          List.mem_filter.2 ⟨hx, by simpa using Ne.symm hy⟩
        rcases removed_cases stop k y with ⟨-, e⟩ | ⟨-, e⟩ | ⟨-, st, e⟩
        · rw [e]; exact hx
        · rw [e]; exact kept
        · rw [e]; exact List.mem_append_left _ kept

/-- What a run of removals makes of one of its entries, the only one of its reference. -/
theorem removedAll_entry (hx : x ∈ k.stage) (hm : x ∈ xs) (only : ∀ y ∈ xs, y.ref = x.ref → y = x) :
    (x.state = .queued ∨ x.state = .late → ∀ y ∈ (k.removedAll stop xs).stage, y.ref ≠ x.ref)
    ∧ (x.state = .sent ∨ x.state = .lateSent →
      { x with state := .dropping stop .awaitingReply } ∈ (k.removedAll stop xs).stage)
    ∧ (x.state = .staged ∨ x.state = .lateStaged →
      { x with state := .dropping stop .dropPending } ∈ (k.removedAll stop xs).stage
      ∧ ⟨false, x.addr, x.tag, x.ref⟩ ∈ (k.removedAll stop xs).pending) :=
  ⟨removedAll_gone hm, fun h => removedAll_stopped (fun _ => removed_sent h) (.inl ⟨hx, hm⟩) only,
    fun h => ⟨removedAll_stopped (fun _ => removed_staged h) (.inl ⟨hx, hm⟩) only,
      removedAll_pending h (.inl hm) only⟩⟩

end Link

namespace World

section
variable {w : World} {e : Env} {l m : Fin 4} {x : Entry} {stop : DropEnd}

theorem removeEntry_link : (w.removeEntry l x stop).link l = (w.link l).removed stop x := by
  unfold removeEntry Link.removed
  cases x.state with
  | queued | late => exact (endEntry_link _ _ _ _ _).trans (if_pos rfl)
  | sent | lateSent | staged | lateStaged => exact (startDrop_link _ _ _ _ _ _).trans (if_pos rfl)
  | dropping => rfl

theorem discardEntry_link : (w.discardEntry e l x).link l = (w.link l).removed .discarded x := by
  unfold discardEntry
  split
  · next h => rw [Link.removed_dropping h]
  · rw [countTake_link, removeEntry_link]

theorem discardEntry_other (h : l ≠ m) : (w.discardEntry e l x).link m = w.link m := by
  unfold discardEntry
  split
  · rfl
  · rw [countTake_link, removeEntry_other _ _ _ _ _ h]

theorem removeEach_link (xs : List Entry) : (w.each xs fun x v => v.removeEntry l x stop).link l =
    (w.link l).removedAll stop xs := by
  induction xs generalizing w with
  | nil => rfl
  | cons x xs ih => rw [each_cons, ih, removeEntry_link, Link.removedAll_cons]

theorem discardEach_link (xs : List Entry) : (w.each xs (World.discardEntry e l)).link l =
    (w.link l).removedAll .discarded xs := by
  induction xs generalizing w with
  | nil => rfl
  | cons x xs ih => rw [each_cons, ih, discardEntry_link, Link.removedAll_cons]

theorem withdrawEach_link (xs : List Entry) : (w.each xs (World.withdrawEntry l)).link l =
    (w.link l).removedAll .withdrawn xs := removeEach_link xs

theorem withdrawEach_other (h : l ≠ m) (xs : List Entry) : (w.each xs (World.withdrawEntry l)).link m = w.link m :=
  each_induct (fun v => v.link m = w.link m) _
    (fun x v hv => (v.removeEntry_other l x .withdrawn m h).trans hv) xs w rfl

theorem discardEach_other (h : l ≠ m) (xs : List Entry) : (w.each xs (World.discardEntry e l)).link m = w.link m :=
  each_induct (fun v => v.link m = w.link m) _ (fun _ _ hv => (discardEntry_other h).trans hv) xs w rfl

end

/-! ## Takes counted discarded (R126, R127, R135) -/

/-- `v` is `w` with `n` takes more counted in the player's discarded takes, with LATE_TAKE. -/
structure Discards (p : Fin 8) (n : Nat) (w v : World) : Prop where
  free : (w.player p).state = .free → v.player p = w.player p
  counted : (w.player p).state ≠ .free → (w.player p).counters.discarded ≤ 65535 →
    v.player p = { w.player p with counters := { (w.player p).counters with
      discarded := min 65535 ((w.player p).counters.discarded + n) } }
  state : (v.player p).state = (w.player p).state
  raised : (w.player p).state ≠ .free → 0 < n → (v.notices.get NoticeKind.lateTake.no).pending = true
  stays : (w.notices.get NoticeKind.lateTake.no).pending = true → (v.notices.get NoticeKind.lateTake.no).pending = true

namespace Discards
variable {p : Fin 8} {n m : Nat} {u v w : World}

theorem none (hp : v.player p = w.player p) (hr : (w.notices.get NoticeKind.lateTake.no).pending = true →
    (v.notices.get NoticeKind.lateTake.no).pending = true) : w.Discards p 0 v where
  free _ := hp
  counted _ hc := by rw [hp, Nat.add_zero, Nat.min_eq_right hc]
  state := by rw [hp]
  raised _ h := absurd h (Nat.lt_irrefl 0)
  stays := hr

theorem trans (h : u.Discards p n v) (k : v.Discards p m w) : u.Discards p (n + m) w where
  free hf := (k.free (by rw [h.free hf]; exact hf)).trans (h.free hf)
  counted hf hc := by
    have a := h.counted hf hc
    have b := k.counted (by rw [h.state]; exact hf) (by rw [a]; exact Nat.min_le_left _ _)
    rw [b, a]
    simp only
    congr 2
    omega
  state := k.state.trans h.state
  raised hf hn := by
    by_cases hm : 0 < m
    · exact k.raised (by rw [h.state]; exact hf) hm
    · exact k.stays (h.raised hf (by omega))
  stays hr := k.stays (h.stays hr)

theorem each {α : Type} (xs : List α) (f : α → World → World) (c : α → Bool)
    (hf : ∀ x v, Discards p (if c x = true then 1 else 0) v (f x v)) (w : World) :
    w.Discards p (xs.countP c) (w.each xs f) := by
  induction xs generalizing w with
  | nil => exact none rfl id
  | cons x xs ih =>
    have all := (hf x w).trans (ih (f x w))
    rw [each_cons]
    convert all using 1
    rw [List.countP_cons, Nat.add_comm]

theorem countTake (w : World) (e : Env) (o : Option (Fin 8)) :
    w.Discards p (if o == some p then 1 else 0) (w.countTake e o Counters.addDiscarded) := by
  have kept := (Kept.refl w).countTake e o Counters.addDiscarded
  have at_ := countTake_player w e o Counters.addDiscarded p
  by_cases ho : o = some p
  · subst ho
    rw [beq_self_eq_true, if_pos rfl]
    refine ⟨fun hf => at_.trans (if_neg fun h => h.2 hf), fun hf hc => ?_, kept.state p, fun hf _ => ?_,
      kept.raised _⟩
    · rw [at_, if_pos ⟨rfl, hf⟩, Counters.addDiscarded, satUp_min hc]
    · rw [World.countTake, if_neg hf]
      exact raise_pending _ e .lateTake
  · rw [if_neg (by simpa using ho)]
    exact none (at_.trans (if_neg fun h => ho h.1)) (kept.raised _)

theorem discardEntry (w : World) (e : Env) (l : Fin 4) (x : Entry) :
    w.Discards p (if x.player == some p && !x.dropping then 1 else 0) (w.discardEntry e l x) := by
  unfold World.discardEntry
  cases hd : x.dropping with
  | true =>
    rw [if_pos rfl, if_neg (by simp)]
    exact none rfl id
  | false =>
    have removed : w.Discards p 0 (w.removeEntry l x .discarded) :=
      none (congrArg (Tab.get · p) (w.removeEntry_players l x .discarded))
        (((Kept.refl w).removeEntry l x .discarded).raised _)
    simpa using removed.trans (countTake (w.removeEntry l x .discarded) e x.player)

theorem discardEach (w : World) (e : Env) (l : Fin 4) (xs : List Entry) :
    w.Discards p (xs.countP fun x => x.player == some p && !x.dropping) (w.each xs (World.discardEntry e l)) :=
  each xs _ _ (fun x v => discardEntry v e l x) w

end Discards
end World
end Sys2Proof.Machine
end

section
/-! SUPPORT. An entry withdrawn (R129), the late entries that a new member supersedes (R127), an entry that joins the
stage list (R136), the tests of a tag (R130, R134), and an individual take placed (R128). -/

namespace Sys2Proof.Machine
namespace World

section
variable (w : World) (e : Env) (l : Fin 4)

/-! ## Withdrawal of an entry (R129) -/

/-- The take of an ended entry is in flight no more. -/
theorem endEntry_take (x : Entry) (fin : EntryEnd) (n : TakeKind) :
    ((w.endEntry l x fin).zone (zoneAt l x.addr)).take ≠ some (x.ref, n) := by
  have at_ : ((w.endEntry l x fin).zone (zoneAt l x.addr)).take =
      if (w.zone (zoneAt l x.addr)).take.any (·.1 == x.ref) then none else (w.zone (zoneAt l x.addr)).take :=
    (congrArg Zone.take (report_zone _ _ _ _ _ _)).trans (by rw [if_pos rfl]; rfl)
  rw [at_]
  split
  · exact nofun
  · next h => exact fun ht => h (by rw [ht]; simp)

theorem withdrawEntry_ended {x : Entry} (h : x.state = .queued ∨ x.state = .late) :
    w.withdrawEntry l x = w.endEntry l x .withdrawn := by
  unfold withdrawEntry removeEntry
  rcases h with h | h <;> rw [h] <;> rfl

/-- What the withdrawal of an entry does, by its state. -/
theorem withdrawEntry_entry (x : Entry) :
    let v := w.withdrawEntry l x
    let stopped (stage : DropStage) := (v.link l).stage = (w.link l).stage.map fun y =>
      if y.ref = x.ref then { y with state := .dropping .withdrawn stage } else y
    (x.state = .queued ∨ x.state = .late →
      (v.link l).stage = (w.link l).stage.filter (·.ref != x.ref)
      ∧ (v.zone (zoneAt l x.addr)).committed = (w.zone (zoneAt l x.addr)).committed
      ∧ ∀ k, (v.zone (zoneAt l x.addr)).take ≠ some (x.ref, k))
    ∧ (x.state = .sent ∨ x.state = .lateSent → stopped .awaitingReply)
    ∧ (x.state = .staged ∨ x.state = .lateStaged → stopped .dropPending
      ∧ (v.link l).pending =
        (w.link l).pending.filter (·.ref != x.ref) ++ [⟨false, x.addr, x.tag, x.ref⟩])
    ∧ (x.dropping = true → v = w) := by
  intro v stopped
  have link : v.link l = (w.link l).removed .withdrawn x := removeEntry_link
  refine ⟨fun h => ⟨?_, w.removeEntry_committed l x .withdrawn _, fun k => ?_⟩, fun h => ?_, fun h => ⟨?_, ?_⟩,
    fun h => ?_⟩
  · rw [link, Link.removed_ended h]
  · rw [show v = w.endEntry l x .withdrawn from w.withdrawEntry_ended l h]
    exact w.endEntry_take l x _ k
  · show (v.link l).stage = _
    rw [link, Link.removed_sent h, Link.stopped]
  · show (v.link l).stage = _
    rw [link, Link.removed_staged h, Link.stopped]
  · rw [link, Link.removed_staged h, Link.stopped, if_pos rfl]
  · show w.removeEntry l x .withdrawn = w
    unfold Entry.dropping at h
    unfold removeEntry
    split at h
    · next hs => rw [hs]
    · cases h

/-! ## Superseding (R127) -/

/-- The player's late entries of groups at an address, but for one of the reference. -/
def superseded (p : Fin 8) (a : Fin 16) (ref : Nat) (x : Entry) : Bool :=
  x.player == some p && x.addr == a && x.ref != ref && x.group.isSome
    && (x.state == .late || x.state == .lateSent || x.state == .lateStaged)

theorem superseded_iff {p : Fin 8} {a : Fin 16} {ref : Nat} {x : Entry} : superseded p a ref x = true ↔
    x.player = some p ∧ x.addr = a ∧ x.ref ≠ ref ∧ x.group.isSome = true
      ∧ (x.state = .late ∨ x.state = .lateSent ∨ x.state = .lateStaged) := by
  simp only [superseded, Bool.and_eq_true, Bool.or_eq_true, beq_iff_eq, bne_iff_ne, ne_eq]
  tauto

theorem superseded_undropped {p : Fin 8} {a : Fin 16} {ref : Nat} {x : Entry} (h : superseded p a ref x = true) :
    x.dropping = false := by
  obtain ⟨-, -, -, -, hs | hs | hs⟩ := superseded_iff.1 h <;> rw [Entry.dropping, hs]

theorem supersede_eq (p : Fin 8) (a : Fin 16) (ref : Nat) : w.supersede e l p a ref =
    w.each ((w.link l).stage.filter (superseded p a ref)) (World.discardEntry e l) := rfl

theorem supersede_entries (p : Fin 8) (a : Fin 16) (ref : Nat) :
    let v := w.supersede e l p a ref
    let older (x : Entry) := x.player = some p ∧ x.addr = a ∧ x.ref ≠ ref ∧ x.group.isSome = true
      ∧ (x.state = .late ∨ x.state = .lateSent ∨ x.state = .lateStaged)
    (∀ y ∈ (v.link l).stage, ¬older y)
    ∧ (∀ y ∈ (w.link l).stage, (∀ x ∈ (w.link l).stage, older x → x.ref ≠ y.ref) → y ∈ (v.link l).stage)
    ∧ ((w.player p).state ≠ .free → (w.player p).counters.discarded ≤ 65535 →
      (v.player p).counters.discarded = min 65535 ((w.player p).counters.discarded
        + (w.link l).stage.countP fun x => decide (older x))
      ∧ ((∃ x ∈ (w.link l).stage, older x) →
        (v.notices.get NoticeKind.lateTake.no).pending = true)) := by
  intro v older
  let late := (w.link l).stage.filter (superseded p a ref)
  have link : v.link l = (w.link l).removedAll .discarded late := discardEach_link late
  have discards : w.Discards p _ v := Discards.discardEach w e l late
  have count : late.countP (fun x => x.player == some p && !x.dropping) =
      (w.link l).stage.countP fun x => decide (older x) := by
    rw [List.countP_filter]
    refine congrArg (fun f => List.countP f (w.link l).stage) (funext fun x => ?_)
    rw [Bool.eq_iff_iff, decide_eq_true_eq]
    refine ⟨fun h => superseded_iff.1 (Bool.and_eq_true_iff.1 h).2, fun h => ?_⟩
    have sup := superseded_iff.2 h
    rw [sup, superseded_undropped sup, h.1]
    simp
  rw [count] at discards
  refine ⟨fun y hy hold => ?_, fun y hy hr => ?_,
    fun hf hc => ⟨by rw [discards.counted hf hc], fun ⟨x, hx, hold⟩ => ?_⟩⟩
  · rw [link, ← removeEach_link] at hy
    have out := w.removeEach_dropping l .discarded (superseded p a ref) late
      (fun y hy hq => .inr (List.mem_filter.2 ⟨hy, hq⟩)) y hy (superseded_iff.2 hold)
    rw [superseded_undropped (superseded_iff.2 hold)] at out
    cases out
  · rw [link]
    exact Link.removedAll_stays hy fun x hx _ => by
      obtain ⟨hx, test⟩ := List.mem_filter.1 hx
      exact hr x hx (superseded_iff.1 test)
  · exact discards.raised hf (List.countP_pos_iff.2 ⟨x, hx, decide_eq_true hold⟩)

/-! ## An entry that joins (R136) -/

theorem length_insertBy {α : Type} (before : α → α → Bool) (x : α) (xs : List α) :
    (insertBy before x xs).length = xs.length + 1 := by
  induction xs with
  | nil => rfl
  | cons y ys ih =>
    unfold insertBy
    split
    · rfl
    · rw [List.length_cons, ih, List.length_cons]

/-- The blocks with an entry in its place in the stage list. -/
def listed (l : Fin 4) (x : Entry) (w : World) : World :=
  w.onLink l fun k => { k with stage := insertBy Entry.before x k.stage }

theorem listed_link (x : Entry) : (w.listed l x).link l =
    { w.link l with stage := insertBy Entry.before x (w.link l).stage } :=
  (onLink_link _ _ _ _).trans (if_pos rfl)

theorem addEntry_full {x : Entry} (h : (w.link l).stage.length = 47) :
    w.addEntry e l x = (w.listed l x).raise e .queueFull := by
  refine if_pos ?_
  have at_ := w.listed_link l x
  rw [listed] at at_
  rw [at_]
  exact (length_insertBy _ _ _).trans (congrArg (· + 1) h)

theorem addEntry_room {x : Entry} (h : (w.link l).stage.length ≠ 47) : w.addEntry e l x = w.listed l x := by
  refine if_neg fun hf => h ?_
  have at_ := w.listed_link l x
  rw [listed] at at_
  rw [at_] at hf
  exact Nat.succ_injective ((length_insertBy _ _ _).symm.trans hf)

/-- The links with an entry that has joined. -/
theorem addEntry_link (x : Entry) (m : Fin 4) : (w.addEntry e l x).link m = (w.listed l x).link m := by
  by_cases h : (w.link l).stage.length = 47
  · rw [addEntry_full w e l h]
    rfl
  · rw [addEntry_room w e l h]

/-! ## An individual take (R128) -/

theorem room_iff {k : Link} {n : Nat} : k.room n = true ↔ k.stage.length + n ≤ 48 := decide_eq_true_iff

/-- The take in flight named for a zone, with its reference used up. -/
def named (z : Fin 64) (k : TakeKind) (w : World) : World :=
  ({ w with nextRef := w.nextRef + 1 } : World).onZone z fun r => { r with take := some (w.nextRef, k) }

theorem placeSingle_room {z : Fin 64} (p : Option (Fin 8)) (look : LookCopy) (k : TakeKind)
    (h : (w.link (zoneLink z)).stage.length < 48) (hd : (w.link (zoneLink z)).deferred = []) :
    w.placeSingle e z p look k = (w.named z k).addEntry e (zoneLink z)
      ⟨w.nextRef, zoneAddr z, p, none, 0, look, 0, e.now, .queued, .clear⟩ := by
  have room : (w.link (zoneLink z)).room 1 = true := room_iff.2 h
  unfold placeSingle withRef
  refine if_pos ?_
  rw [Bool.and_eq_true]
  exact ⟨room, by rw [List.isEmpty_iff]; exact hd⟩

theorem placeSingle_full {z : Fin 64} (p : Option (Fin 8)) (look : LookCopy) (k : TakeKind)
    (h : ¬((w.link (zoneLink z)).stage.length < 48 ∧ (w.link (zoneLink z)).deferred = [])) :
    w.placeSingle e z p look k = (w.named z k).onLink (zoneLink z) fun j =>
      { j with deferred := insertBy Item.before (.single w.nextRef (zoneAddr z) p look e.now) j.deferred } := by
  unfold placeSingle withRef
  refine if_neg fun hr => h ?_
  rw [Bool.and_eq_true] at hr
  exact ⟨room_iff.1 hr.1, List.isEmpty_iff.1 hr.2⟩

/-- An individual take placed where the link has room, else deferred. -/
theorem placeSingle_placed (z : Fin 64) (p : Option (Fin 8)) (look : LookCopy) (k : TakeKind) :
    let l := zoneLink z
    let v := w.placeSingle e z p look k
    (v.zone z).take = some (w.nextRef, k)
    ∧ ((w.link l).stage.length < 48 → (w.link l).deferred = [] →
      (v.link l).deferred = []
      ∧ (v.link l).stage = insertBy Entry.before
        ⟨w.nextRef, zoneAddr z, p, none, 0, look, 0, e.now, .queued, .clear⟩ (w.link l).stage)
    ∧ (¬((w.link l).stage.length < 48 ∧ (w.link l).deferred = []) →
      (v.link l).stage = (w.link l).stage
      ∧ (v.link l).deferred = insertBy Item.before (.single w.nextRef (zoneAddr z) p look e.now)
        (w.link l).deferred) := by
  intro l v
  refine ⟨?_, fun h hd => ?_, fun h => ?_⟩
  · exact placeSingle_take p look k
  · rw [show v = _ from w.placeSingle_room e p look k h hd, addEntry_link, listed_link]
    exact ⟨hd, rfl⟩
  · rw [show v = _ from w.placeSingle_full e p look k h, onLink_link, if_pos rfl]
    exact ⟨rfl, rfl⟩

/-! ## The tests of a tag (R130, R134) -/

theorem keepsGo_iff (x : Entry) : x.keepsGo = true ↔ ∀ stop, x.state ≠ .dropping stop .awaitingReply
    ∧ x.state ≠ .dropping stop .dropSent := by
  unfold Entry.keepsGo
  cases x.state with
  | dropping stop st => cases st <;> simp
  | queued | sent | staged | late | lateSent | lateStaged => simp

/-- A tag freed, its portion DONE. -/
def tagFreed (l : Fin 4) (t : Fin 15) (h : TagHold) (v : World) : World :=
  (v.onLink l fun k => { k with
    tags := k.tags.set t none, gos := k.gos.filter (·.tag != t), retry := true }).onPortions l h.player h.id
      (List.map fun q => if q = .held t then .done else q)

variable {w l} in
theorem closeTag_free {t : Fin 15} (h : (w.link l).tags.get t = none) : w.closeTag l t = w := by
  unfold closeTag
  rw [h]

variable {w l} in
/-- The tests of a tag in use. -/
theorem closeTag_used {t : Fin 15} {h : TagHold} (ht : (w.link l).tags.get t = some h) :
    let carried := (w.link l).stage.filter fun x => x.tag == t.val + 1
    let gone := h.go = .pending ∧ ∀ x ∈ carried, x.keepsGo = false
    (gone → carried = [] → w.closeTag l t = (w.onLink l (Link.removeGo t)).tagFreed l t h)
    ∧ (gone → carried ≠ [] → w.closeTag l t = w.onLink l (Link.removeGo t))
    ∧ (¬gone → h.go ≠ .pending → carried = [] → w.closeTag l t = w.tagFreed l t h)
    ∧ (¬gone → h.go = .pending ∨ carried ≠ [] → w.closeTag l t = w) := by
  intro carried gone
  have test : (h.go == .pending && !carried.any Entry.keepsGo) = true ↔ gone := by
    simp [gone]
  have whole : w.closeTag l t =
      let u := if (h.go == .pending && !carried.any Entry.keepsGo) = true then w.onLink l (Link.removeGo t) else w
      if (carried.isEmpty && ((h.go == .pending && !carried.any Entry.keepsGo) || h.go != .pending)) = true then
        u.tagFreed l t h else u := by
    unfold closeTag
    rw [ht]
    rfl
  rw [whole]
  dsimp only
  refine ⟨fun hg hc => ?_, fun hg hc => ?_, fun hg hp hc => ?_, fun hg hp => ?_⟩
  · rw [if_pos (test.2 hg), test.2 hg, hc]
    rfl
  · rw [if_pos (test.2 hg), if_neg]
    simp [List.isEmpty_iff, hc]
  · rw [if_neg (mt test.1 hg), hc]
    simp [hp]
  · rw [if_neg (mt test.1 hg), Bool.eq_false_iff.2 (mt test.1 hg), if_neg]
    simp only [Bool.false_or, Bool.and_eq_true, List.isEmpty_iff, bne_iff_ne, ne_eq, not_and, not_not]
    exact fun hc => hp.resolve_right (not_not.2 hc)

end
end World
end Sys2Proof.Machine
end

section
/-! SUPPORT. Members, portions and groups placed (R116 to R120, R127, R133), and a deferred list's head made (R119). -/

namespace Sys2Proof.Machine
namespace World

/-- The first element of a table's indices that passes a test. -/
theorem find?_upTo {n : Nat} {f : Fin n → Bool} {t : Fin n} (ht : f t = true) (hb : ∀ u < t, f u = false) :
    (upTo n).find? f = some t := by
  rw [List.find?_eq_some_iff_getElem]
  refine ⟨ht, t.val, by rw [List.length_finRange]; exact t.isLt, List.getElem_finRange _, fun j hj => ?_⟩
  rw [List.getElem_finRange]
  simpa using hb ⟨j, hj.trans t.isLt⟩ hj

theorem freeTag_some {k : Link} {t : Fin 15} (ht : k.tags.get t = none) (hb : ∀ u < t, k.tags.get u ≠ none) :
    k.freeTag = some t :=
  find?_upTo (by rw [ht]; rfl) fun u hu => Bool.eq_false_iff.2 fun hn => hb u hu (Option.isNone_iff_eq_none.1 hn)

theorem freeTag_none {k : Link} (h : ∀ t, k.tags.get t ≠ none) : k.freeTag = none :=
  List.find?_eq_none.2 fun t _ => by simpa [Option.isNone_iff_eq_none] using h t

/-! ## Members (R117, R127) -/

section
variable {w : World} {e : Env} {l : Fin 4} {p : Fin 8} {id : GroupId} {due lead : Nat} {t : Fin 15} {st : EntryState}

/-- The entry of a member (R117). -/
def memberEntry (w : World) (l : Fin 4) (p : Fin 8) (id : GroupId) (due : Nat) (t : Fin 15) (lead : Nat)
    (st : EntryState) (m : Member) : Entry :=
  ⟨w.nextRef, m.addr, some p, some id, t.val + 1, m.look, lead - (w.zone (zoneAt l m.addr)).lead, due, st, .clear⟩

theorem addMember_eq (m : Member) : w.addMember e l p id due t lead st m =
    (({ w with nextRef := w.nextRef + 1 } : World).addEntry e l (w.memberEntry l p id due t lead st m)).supersede
      e l p m.addr w.nextRef := rfl

/-- The player has no late entry on the link. -/
def Unlate (l : Fin 4) (p : Fin 8) (w : World) : Prop := ∀ x ∈ (w.link l).stage, x.player = some p →
  x.state ≠ .late ∧ x.state ≠ .lateSent ∧ x.state ≠ .lateStaged

/-- A member supersedes nothing of a player with no late entry. -/
theorem addMember_unlate (h : w.Unlate l p) (m : Member) : w.addMember e l p id due t lead st m =
    ({ w with nextRef := w.nextRef + 1 } : World).addEntry e l (w.memberEntry l p id due t lead st m) := by
  rw [addMember_eq, supersede_eq]
  have nothing : (((({ w with nextRef := w.nextRef + 1 } : World).addEntry e l
      (w.memberEntry l p id due t lead st m)).link l).stage.filter (superseded p m.addr w.nextRef)) = [] := by
    rw [addEntry_link, listed_link, List.filter_eq_nil_iff]
    intro x hx hs
    obtain ⟨hp, -, hr, -, hst⟩ := superseded_iff.1 hs
    rcases (Holds.mem_insertBy _ _ _ _).1 hx with rfl | hx
    · exact hr rfl
    · obtain ⟨late, lateSent, lateStaged⟩ := h x hx hp
      rcases hst with hst | hst | hst
      · exact late hst
      · exact lateSent hst
      · exact lateStaged hst
  rw [nothing]
  rfl

theorem addMember_link (h : w.Unlate l p) (m : Member) : (w.addMember e l p id due t lead st m).link l =
    { w.link l with stage := insertBy Entry.before (w.memberEntry l p id due t lead st m) (w.link l).stage } := by
  rw [addMember_unlate h, addEntry_link, listed_link]
  rfl

theorem addMember_zone (h : w.Unlate l p) (m : Member) (z : Fin 64) :
    (w.addMember e l p id due t lead st m).zone z = w.zone z := by
  rw [addMember_unlate h, addEntry_zone]
  rfl

/-- What the members of a portion leave of the blocks, for a player with no late entry on the link. -/
structure Joined (l : Fin 4) (p : Fin 8) (id : GroupId) (due : Nat) (t : Fin 15) (lead : Nat) (ms : List Member)
    (w v : World) : Prop where
  zone : ∀ z, v.zone z = w.zone z
  link : { v.link l with stage := (w.link l).stage } = w.link l
  length : (v.link l).stage.length = (w.link l).stage.length + ms.length
  stays : ∀ x ∈ (w.link l).stage, x ∈ (v.link l).stage
  entry : ∀ m ∈ ms, ∃ x ∈ (v.link l).stage, x.addr = m.addr ∧ x.player = some p ∧ x.group = some id
    ∧ x.tag = t.val + 1 ∧ x.look = m.look ∧ x.due = due ∧ x.state = .queued
    ∧ x.hold = lead - (w.zone (zoneAt l m.addr)).lead

theorem addMembers_joined (h : w.Unlate l p) (ms : List Member) :
    Joined l p id due t lead ms w (w.each ms (World.addMember e l p id due t lead .queued)) := by
  induction ms generalizing w with
  | nil => exact ⟨fun _ => rfl, rfl, rfl, fun _ hx => hx, fun _ hm => nomatch hm⟩
  | cons m ms ih =>
    have link := addMember_link (e := e) (id := id) (due := due) (t := t) (lead := lead) (st := .queued) h m
    have zone := addMember_zone (e := e) (id := id) (due := due) (t := t) (lead := lead) (st := .queued) h m
    have stage := congrArg Link.stage link
    have unlate : (w.addMember e l p id due t lead .queued m).Unlate l p := by
      intro x hx hp
      rw [stage] at hx
      rcases (Holds.mem_insertBy _ _ _ _).1 hx with rfl | hx
      · exact ⟨nofun, nofun, nofun⟩
      · exact h x hx hp
    have rest := ih unlate
    rw [each_cons]
    refine ⟨fun z => (rest.zone z).trans (zone z), ?_, ?_, fun x hx => rest.stays x ?_, fun n hn => ?_⟩
    · have r := rest.link
      rw [link] at r
      exact congrArg (fun k : Link => { k with stage := (w.link l).stage }) r
    · rw [rest.length, stage, length_insertBy, List.length_cons]
      omega
    · rw [stage]
      exact (Holds.mem_insertBy _ _ _ _).2 (.inr hx)
    · rcases List.mem_cons.1 hn with rfl | hn
      · refine ⟨w.memberEntry l p id due t lead .queued n, rest.stays _ ?_, rfl, rfl, rfl, rfl, rfl, rfl, rfl, rfl⟩
        rw [stage]
        exact (Holds.mem_insertBy _ _ _ _).2 (.inl rfl)
      · obtain ⟨x, hx, fields⟩ := rest.entry n hn
        rw [zone] at fields
        exact ⟨x, hx, fields⟩

/-! ## Portions (R118) -/

/-- A portion is made where the link has a free tag, room and nothing deferred. -/
theorem placePortion_made {ms : List Member} (hm : ms ≠ []) (ht : (w.link l).freeTag = some t)
    (hd : (w.link l).deferred = []) (hl : (w.link l).stage.length + ms.length ≤ 48) :
    w.placePortion e l p id due ms = w.makePortion e l p id due ms t := by
  unfold placePortion
  rw [if_neg (by simpa using hm)]
  dsimp only
  rw [ht]
  refine if_pos ?_
  rw [hd]
  simpa using hl

/-- The blocks with a portion deferred. -/
def portionDeferred (l : Fin 4) (p : Fin 8) (id : GroupId) (due : Nat) (ms : List Member) (w : World) : World :=
  (w.onLink l fun k => { k with deferred := insertBy Item.before (.group p id due ms) k.deferred }).onPortions
    l p id (putPortion .deferred)

theorem placePortion_deferred {ms : List Member} (hm : ms ≠ []) (h : (∀ t, (w.link l).tags.get t ≠ none)
    ∨ (w.link l).deferred ≠ [] ∨ 48 < (w.link l).stage.length + ms.length) :
    w.placePortion e l p id due ms = w.portionDeferred l p id due ms := by
  unfold placePortion
  rw [if_neg (by simpa using hm)]
  dsimp only
  split
  · next t ht =>
    refine if_neg ?_
    rcases h with h | h | h
    · rw [freeTag_none h] at ht
      cases ht
    · simp [h]
    · simp only [Bool.and_eq_true, decide_eq_true_eq, not_and, Nat.not_le]
      exact fun _ => h
  · rfl

theorem portionDeferred_link (ms : List Member) : (w.portionDeferred l p id due ms).link l =
    { w.link l with deferred := insertBy Item.before (.group p id due ms) (w.link l).deferred } := by
  have at_ : (w.portionDeferred l p id due ms).link l = _ := onLink_link w l l _
  exact at_.trans (if_pos rfl)

/-- The GO entry of a portion. -/
def portionGo (e : Env) (p : Fin 8) (id : GroupId) (due lead : Nat) (t : Fin 15) : GoEntry :=
  ⟨t, p, id, due, lead, due - lead, due ≤ e.now + lead, false⟩

theorem makePortion_link (ms : List Member) : (w.makePortion e l p id due ms t).link l =
    (let k := (w.each ms (World.addMember e l p id due t (w.portionLead l ms) .queued)).link l
    { k with
      gos := insertBy GoEntry.before (portionGo e p id due (w.portionLead l ms) t) k.gos
      tags := k.tags.set t (some ⟨p, id, .pending⟩) }) := by
  have at_ : (w.makePortion e l p id due ms t).link l = _ := onLink_link _ l l _
  exact at_.trans (if_pos rfl)

/-- A portion placed: made where the link has a tag, no deferred item and room, else deferred. -/
theorem placePortion_placed (w : World) (e : Env) (l : Fin 4) (p : Fin 8) (id : GroupId) (due : Nat)
    (ms : List Member) (hm : ms ≠ []) :
    let v := w.placePortion e l p id due ms
    let lead := ms.foldl (fun n m => max n (w.zone (zoneAt l m.addr)).lead) 0
    (∀ t : Fin 15, (w.link l).tags.get t = none → (∀ u < t, (w.link l).tags.get u ≠ none) →
      (w.link l).deferred = [] → (w.link l).stage.length + ms.length ≤ 48 →
      (∀ x ∈ (w.link l).stage, x.player = some p →
        x.state ≠ .late ∧ x.state ≠ .lateSent ∧ x.state ≠ .lateStaged) →
      (v.link l).tags.get t = some ⟨p, id, .pending⟩
      ∧ (∀ u, u ≠ t → (v.link l).tags.get u = (w.link l).tags.get u)
      ∧ (v.link l).gos = insertBy GoEntry.before
        ⟨t, p, id, due, lead, due - lead, due ≤ e.now + lead, false⟩ (w.link l).gos
      ∧ (v.link l).stage.length = (w.link l).stage.length + ms.length
      ∧ (∀ x, x ∈ (w.link l).stage → x ∈ (v.link l).stage)
      ∧ ∀ m ∈ ms, ∃ x ∈ (v.link l).stage, x.addr = m.addr ∧ x.player = some p ∧ x.group = some id
        ∧ x.tag = t.val + 1 ∧ x.look = m.look ∧ x.due = due ∧ x.state = .queued
        ∧ x.hold = lead - (w.zone (zoneAt l m.addr)).lead)
    ∧ ((∀ t, (w.link l).tags.get t ≠ none) ∨ (w.link l).deferred ≠ []
        ∨ 48 < (w.link l).stage.length + ms.length →
      (v.link l).stage = (w.link l).stage ∧ (v.link l).gos = (w.link l).gos
      ∧ (v.link l).deferred = insertBy Item.before (.group p id due ms) (w.link l).deferred) := by
  intro v lead
  refine ⟨fun t ht hb hd hl unlate => ?_, fun h => ?_⟩
  · have made : v = w.makePortion e l p id due ms t := placePortion_made hm (freeTag_some ht hb) hd hl
    have joined := addMembers_joined (e := e) (id := id) (due := due) (t := t) (lead := lead) unlate ms
    have tags := congrArg Link.tags joined.link
    have gos := congrArg Link.gos joined.link
    rw [made, makePortion_link]
    refine ⟨Tab.get_set_self _ _ _, fun u hu => (Tab.get_set_ne _ _ (Ne.symm hu)).trans (congrArg (Tab.get · u) tags),
      congrArg (insertBy GoEntry.before (portionGo e p id due lead t)) gos, joined.length, joined.stays, joined.entry⟩
  · rw [show v = _ from placePortion_deferred hm h, portionDeferred_link]
    exact ⟨rfl, rfl, rfl⟩

/-! ## A zone rejoined to a group (R133) -/

/-- A deferred item of the group with one member more, where it has none of the address. -/
def itemJoined (p : Fin 8) (id : GroupId) (a : Fin 16) (look : LookCopy) (i : Item) : Item :=
  match i with
  | .group q j due ms => if q = p ∧ j = id ∧ (∀ m ∈ ms, m.addr ≠ a) then .group q j due (ms ++ [⟨a, look⟩]) else i
  | i => i

section
variable {z : Fin 64} {g : GroupRec} {look : LookCopy}

theorem rejoinGroup_fresh (h : (g.portions.get (zoneLink z)).getLast? = none
      ∨ (g.portions.get (zoneLink z)).getLast? = some .vacant
      ∨ (g.portions.get (zoneLink z)).getLast? = some .done) :
    w.rejoinGroup e z p g look = w.placePortion e (zoneLink z) p g.id g.due [⟨zoneAddr z, look⟩] := by
  unfold rejoinGroup
  dsimp only
  rcases h with h | h | h <;> rw [h]

theorem rejoinGroup_deferred (h : (g.portions.get (zoneLink z)).getLast? = some .deferred) :
    w.rejoinGroup e z p g look = w.onLink (zoneLink z) fun k => { k with
      deferred := k.deferred.map (itemJoined p g.id (zoneAddr z) look) } := by
  unfold rejoinGroup
  dsimp only
  rw [h]
  refine congrArg (fun f => w.onLink (zoneLink z) f) (funext fun k => ?_)
  refine congrArg (fun d => { k with deferred := d }) (List.map_congr_left fun i _ => ?_)
  cases i with
  | single => rfl
  | group q id due ms =>
    have test : (!ms.any (·.addr == zoneAddr z)) = true ↔ ∀ m ∈ ms, m.addr ≠ zoneAddr z := by simp
    simp only [itemJoined, test]

/-- A portion under a tag: a new one once its GO is removed, else one more entry where the list has room. -/
theorem rejoinGroup_held {h : TagHold} (hg : (g.portions.get (zoneLink z)).getLast? = some (.held t))
    (ht : (w.link (zoneLink z)).tags.get t = some h) :
    (h.go = .removed →
      w.rejoinGroup e z p g look = w.placePortion e (zoneLink z) p g.id g.due [⟨zoneAddr z, look⟩])
    ∧ ∀ o, (w.link (zoneLink z)).gos.find? (fun x => x.tag == t) = some o → h.go ≠ .removed →
      w.rejoinGroup e z p g look =
        if (w.link (zoneLink z)).room 1 then
          w.addMember e (zoneLink z) p g.id g.due t o.lead (if h.go = .pending then .queued else .late)
            ⟨zoneAddr z, look⟩
        else w.countTake e (some p) Counters.addDiscarded := by
  unfold rejoinGroup
  dsimp only
  rw [hg]
  dsimp only
  rw [ht]
  refine ⟨fun hr => ?_, fun o ho hr => ?_⟩
  · split
    · next heq _ =>
      obtain rfl := Option.some.inj heq
      rw [if_pos hr]
    · rfl
  · rw [ho]
    dsimp only
    rw [if_neg hr]

end

/-! ## A group handed on (R116, R117, R120) -/

theorem judge_shadowed {z : Fin 64} : w.judge p z = .shadowed ↔ w.owner z ≠ some p := by
  unfold judge
  split
  · next h => exact ⟨fun _ => h, fun _ => rfl⟩
  · next h => split <;> exact ⟨nofun, fun hn => absurd hn h⟩

theorem judge_undeliverable {z : Fin 64} :
    w.judge p z = .undeliverable ↔ w.owner z = some p ∧ w.deliverable z = false := by
  unfold judge
  split
  · next h => exact ⟨nofun, fun hn => absurd hn.1 h⟩
  · next h =>
    split
    · next hd => exact ⟨nofun, fun hn => by rw [hd] at hn; cases hn.2⟩
    · next hd => exact ⟨fun _ => ⟨not_not.1 h, Bool.eq_false_iff.2 hd⟩, fun _ => rfl⟩

theorem judge_member_iff {z : Fin 64} : w.judge p z = .member ↔ w.owner z = some p ∧ w.deliverable z = true := by
  refine ⟨judge_member, fun ⟨ho, hd⟩ => ?_⟩
  unfold judge
  rw [if_neg (not_not.2 ho), if_pos hd]

theorem mem_membersOn {cues : List CueItem} {m : Member} : m ∈ w.membersOn l p cues ↔
    ∃ z ∈ groupZones cues, zoneLink z.1 = l ∧ w.judge p z.1 = .member ∧ m = ⟨zoneAddr z.1, z.2⟩ := by
  simp only [membersOn, List.mem_map, List.mem_filter, Bool.and_eq_true, beq_iff_eq]
  refine exists_congr fun z => ?_
  rw [eq_comm (b := m)]
  tauto

/-- Takes counted undeliverable, one for each element of a list. -/
theorem countUndeliverable_player {α : Type} (xs : List α) (hf : (w.player p).state ≠ .free)
    (hc : (w.player p).counters.undeliverable ≤ 65535) :
    ((w.each xs fun _ v => v.count p Counters.addUndeliverable).player p) = { w.player p with
      counters := { (w.player p).counters with
        undeliverable := min 65535 ((w.player p).counters.undeliverable + xs.length) } } := by
  induction xs generalizing w with
  | nil =>
    rw [List.length_nil, Nat.add_zero, Nat.min_eq_right hc]
    rfl
  | cons x xs ih =>
    have one : (w.count p Counters.addUndeliverable).player p = { w.player p with
        counters := { (w.player p).counters with
          undeliverable := min 65535 ((w.player p).counters.undeliverable + 1) } } := by
      rw [count, if_neg hf, ← satUp_min hc]
      exact Tab.get_upd_self _ _ _
    have full : ((w.count p Counters.addUndeliverable).player p).counters.undeliverable ≤ 65535 := by
      rw [one]
      exact Nat.min_le_left _ _
    rw [each_cons, ih (by rw [one]; exact hf) full, one, List.length_cons]
    simp only
    congr 2
    omega

theorem countUndeliverable_groups {α : Type} (xs : List α) :
    (w.each xs fun _ v => v.count p Counters.addUndeliverable).groups = w.groups :=
  each_induct (fun v => v.groups = w.groups) _ (fun _ v hv => (v.count_groups p _).trans hv) xs w rfl

/-! ## A deferred list's head (R119) -/

/-- The blocks with what follows the head of a deferred list. -/
def beheaded (l : Fin 4) (rest : List Item) (w : World) : World := w.onLink l fun k => { k with deferred := rest }

theorem beheaded_judge (rest : List Item) (z : Fin 64) : (w.beheaded l rest).judge p z = w.judge p z := by
  have driver (m : Fin 4) (a : Fin 16) : (w.beheaded l rest).driver m a = w.driver m a := by
    rw [World.driver, beheaded, onLink_link]
    split <;> rfl
  have live : (w.beheaded l rest).deliverable z = w.deliverable z := by
    rw [World.deliverable, driver]
    rfl
  unfold judge
  rw [live]
  rfl

theorem makeHead_none (h : (w.link l).deferred = []) : w.makeHead e l = none := by
  unfold makeHead
  dsimp only
  rw [h]

theorem makeHead_single {ref : Nat} {a : Fin 16} {q : Option (Fin 8)} {look : LookCopy} {rest : List Item}
    (h : (w.link l).deferred = .single ref a q look due :: rest) : w.makeHead e l =
    if (w.link l).room 1 then some ((w.beheaded l rest).addEntry e l
      ⟨ref, a, q, none, 0, look, 0, due, .queued, .clear⟩) else none := by
  unfold makeHead
  dsimp only
  rw [h]
  rfl

theorem makeHead_group_none {ms : List Member} {rest : List Item}
    (h : (w.link l).deferred = .group p id due ms :: rest)
    (hn : (∀ t, (w.link l).tags.get t ≠ none) ∨ 48 < (w.link l).stage.length + ms.length) :
    w.makeHead e l = none := by
  unfold makeHead
  dsimp only
  rw [h]
  dsimp only
  rcases hn with hn | hn
  · rw [freeTag_none hn]
  · split
    · rfl
    · rw [if_neg]
      rw [room_iff]
      exact Nat.not_le.2 hn

/-- The head's members judged again: those that are members still, and the blocks with the undeliverable counted. -/
theorem makeHead_group {ms : List Member} {rest : List Item} (h : (w.link l).deferred = .group p id due ms :: rest)
    (ht : (w.link l).freeTag = some t) (hl : (w.link l).stage.length + ms.length ≤ 48) :
    let still := ms.filter fun m => w.judge p (zoneAt l m.addr) == .member
    let counted := (w.beheaded l rest).each
      (ms.filter fun m => w.judge p (zoneAt l m.addr) == .undeliverable) fun _ v =>
        v.count p Counters.addUndeliverable
    w.makeHead e l = some (if still.isEmpty then counted.dropDeferred l p id
      else counted.makePortion e l p id due still t) := by
  intro still counted
  have judged : (w.beheaded l rest).rejudge l p ms = (still, counted) := by
    simp only [rejudge, beheaded_judge, still, counted]
  unfold makeHead
  dsimp only
  rw [h]
  dsimp only
  rw [ht]
  dsimp only
  rw [if_pos (room_iff.2 hl)]
  rw [beheaded] at judged
  rw [judged]

/-! ## The retries (R119) -/

theorem retryHead_quiet (h : (w.link l).retry ≠ true) : w.retryHead e l = (w, false) := if_neg h

theorem retryHead_stuck (h : (w.link l).retry = true) (hm : w.makeHead e l = none) :
    w.retryHead e l = (w.onLink l fun k => { k with retry := false }, false) := by
  rw [retryHead, if_pos h, hm]

theorem retryHead_made {v : World} (h : (w.link l).retry = true) (hm : w.makeHead e l = some v) :
    w.retryHead e l = (v, true) := by
  rw [retryHead, if_pos h, hm]

theorem retryLink_quiet (n : Nat) (h : ((w.closeTags l).link l).retry ≠ true) :
    w.retryLink e l (n + 1) = w.closeTags l := by
  rw [retryLink, retryHead_quiet h, if_neg Bool.false_ne_true]

theorem retryLink_stuck (n : Nat) (h : ((w.closeTags l).link l).retry = true)
    (hm : (w.closeTags l).makeHead e l = none) :
    w.retryLink e l (n + 1) = (w.closeTags l).onLink l fun k => { k with retry := false } := by
  rw [retryLink, retryHead_stuck h hm, if_neg Bool.false_ne_true]

theorem retryLink_made {v : World} (n : Nat) (h : ((w.closeTags l).link l).retry = true)
    (hm : (w.closeTags l).makeHead e l = some v) : w.retryLink e l (n + 1) = v.retryLink e l n := by
  rw [retryLink, retryHead_made h hm, if_pos rfl]

end
end World
end Sys2Proof.Machine
end

section
/-! SUPPORT. What the tests and retries after an event leave (R119, R130, R134): zones, GO lists, group records and
retry marks. -/

namespace Sys2Proof.Machine
namespace World

/-- What one of several steps brings about, and all of them keep. -/
theorem each_reaches {α : Type} {P : World → Prop} {f : α → World → World} {xs : List α} {x : α} (hx : x ∈ xs)
    (made : ∀ v, P (f x v)) (kept : ∀ y v, P v → P (f y v)) (w : World) : P (w.each xs f) := by
  induction xs generalizing w with
  | nil => cases hx
  | cons y xs ih =>
    rw [each_cons]
    rcases List.mem_cons.1 hx with rfl | hx
    · exact each_induct P f kept xs _ (made w)
    · exact ih hx _

/-! ## The zones, as reports of ends leave them (R102) -/

/-- No look committed, and no take in flight but as it was. -/
structure Reported (w v : World) : Prop where
  committed : ∀ z, (v.zone z).committed = (w.zone z).committed
  take : ∀ z, (v.zone z).take = (w.zone z).take ∨ (v.zone z).take = none

namespace Reported
variable {u v w : World}

theorem refl (w : World) : w.Reported w := ⟨fun _ => rfl, fun _ => .inl rfl⟩

theorem trans (h : u.Reported v) (k : v.Reported w) : u.Reported w where
  committed z := (k.committed z).trans (h.committed z)
  take z := by
    rcases k.take z with a | a
    · rw [a]
      exact h.take z
    · exact .inr a

theorem of_zones (h : ∀ z, v.zone z = w.zone z) : w.Reported v :=
  ⟨fun z => by rw [h z], fun z => .inl (by rw [h z])⟩

theorem each {α : Type} (h : u.Reported w) (xs : List α) (f : α → World → World)
    (hf : ∀ x v, World.Reported v (f x v)) : u.Reported (w.each xs f) :=
  each_induct (u.Reported ·) f (fun x v hv => hv.trans (hf x v)) xs w h

theorem report (w : World) (z : Fin 64) (ref : Nat) {fin : EntryEnd} (look : LookCopy) (h : fin ≠ .taken) :
    w.Reported (w.report z ref fin look) := by
  refine ⟨fun y => ?_, fun y => ?_⟩ <;> rw [report_zone] <;> split
  · rfl
  · rfl
  · dsimp only
    split
    · exact .inr rfl
    · exact .inl rfl
  · exact .inl rfl

theorem endEntry (w : World) (l : Fin 4) (x : Entry) {fin : EntryEnd} (h : fin ≠ .taken) :
    w.Reported (w.endEntry l x fin) := by
  have left : w.Reported (w.onLink l fun k =>
      { k.stopFrame x.ref with stage := k.stage.filter (·.ref != x.ref), retry := true }) := of_zones fun _ => rfl
  exact left.trans (report _ _ _ _ h)

theorem removeEntry (w : World) (l : Fin 4) (x : Entry) (stop : DropEnd) : w.Reported (w.removeEntry l x stop) := by
  unfold World.removeEntry
  cases x.state with
  | queued | late => exact endEntry w l x (toEnd_ne stop)
  | sent | lateSent | staged | lateStaged | dropping => exact of_zones fun _ => rfl

theorem discardEntry (w : World) (e : Env) (l : Fin 4) (x : Entry) : w.Reported (w.discardEntry e l x) := by
  unfold World.discardEntry
  split
  · exact refl w
  · exact (removeEntry w l x _).trans (of_zones fun z => countTake_zone _ e _ _ z)

theorem addMember (w : World) (e : Env) (l : Fin 4) (p : Fin 8) (id : GroupId) (due : Nat) (t : Fin 15) (lead : Nat)
    (st : EntryState) (m : Member) : w.Reported (w.addMember e l p id due t lead st m) := by
  rw [addMember_eq, supersede_eq]
  have joined : w.Reported (({ w with nextRef := w.nextRef + 1 } : World).addEntry e l
      (w.memberEntry l p id due t lead st m)) := of_zones fun z => addEntry_zone l _ z
  exact joined.each _ _ fun x v => discardEntry v e l x

theorem count (w : World) (p : Fin 8) (f : Counters → Counters) : w.Reported (w.count p f) := by
  unfold World.count
  split
  · exact refl w
  · exact of_zones fun _ => rfl

theorem dropItems (w : World) (l : Fin 4) (f : Item → Bool) : w.Reported (w.dropItems l f) := by
  have left : w.Reported (w.onLink l fun k => { k with deferred := k.deferred.filter fun i => !f i }) :=
    of_zones fun _ => rfl
  refine left.each _ _ fun i v => ?_
  cases i with
  | group => exact of_zones fun _ => rfl
  | single => exact report _ _ _ _ (by decide)

theorem tidyKeeps (w : World) : TidyKeeps (w.Reported ·) where
  closeTag l t v h := h.trans (of_zones ((Tidied.refl v).closeTag l t).zone)
  makeHead e l u v h hv := by
    obtain ⟨ref, b, p, look, due, rest, -, -, rfl⟩ | ⟨p, id, due, ms, rest, t, -, -, -, rfl⟩ := makeHead_cases hv
    · exact h.trans (of_zones fun z => addEntry_zone l _ z)
    · have taken : w.Reported (u.onLink l fun k => { k with deferred := rest }) := h.trans (of_zones fun _ => rfl)
      have judged : w.Reported ((u.onLink l fun k => { k with deferred := rest }).rejudge l p ms).2 :=
        taken.each _ _ fun _ v => count v p Counters.addUndeliverable
      dsimp only
      split
      · exact judged.trans (of_zones fun _ => rfl)
      · exact (judged.each _ _ fun m v => addMember v e l p id due t _ _ m).trans (of_zones fun _ => rfl)
  retried l v h := h.trans (of_zones fun _ => rfl)

theorem tidy (h : u.Reported w) (e : Env) : u.Reported (w.tidy e) := (tidyKeeps u).tidy h e

end Reported

/-! ## The lists of a link as members join it -/

section
variable {w v : World} {e : Env} {l m : Fin 4} {p : Fin 8} {id : GroupId} {due : Nat} {t : Fin 15} {lead : Nat}
  {st : EntryState}

theorem addMember_lists (x : Member) : ((w.addMember e l p id due t lead st x).link l).gos = (w.link l).gos
    ∧ ((w.addMember e l p id due t lead st x).link l).tags = (w.link l).tags
    ∧ ((w.addMember e l p id due t lead st x).link l).deferred = (w.link l).deferred := by
  rw [addMember_eq, supersede_eq, discardEach_link]
  obtain ⟨gos, tags, deferred⟩ := Link.removedAll_lists (stop := .discarded)
    (k := (({ w with nextRef := w.nextRef + 1 } : World).addEntry e l (w.memberEntry l p id due t lead st x)).link l)
    (xs := (((({ w with nextRef := w.nextRef + 1 } : World).addEntry e l
      (w.memberEntry l p id due t lead st x)).link l).stage.filter (superseded p x.addr w.nextRef)))
  rw [gos, tags, deferred, addEntry_link, listed_link]
  exact ⟨rfl, rfl, rfl⟩

theorem addMember_other (h : l ≠ m) (x : Member) : (w.addMember e l p id due t lead st x).link m = w.link m := by
  rw [addMember_eq, supersede_eq, discardEach_other h, addEntry_link, listed, onLink_link, if_neg h]
  rfl

theorem addMembers_lists (xs : List Member) :
    ((w.each xs (World.addMember e l p id due t lead st)).link l).gos = (w.link l).gos
    ∧ ((w.each xs (World.addMember e l p id due t lead st)).link l).tags = (w.link l).tags
    ∧ ((w.each xs (World.addMember e l p id due t lead st)).link l).deferred = (w.link l).deferred := by
  refine each_induct (fun v => (v.link l).gos = (w.link l).gos ∧ (v.link l).tags = (w.link l).tags
    ∧ (v.link l).deferred = (w.link l).deferred) _ (fun x v hv => ?_) xs w ⟨rfl, rfl, rfl⟩
  obtain ⟨gos, tags, deferred⟩ := addMember_lists (w := v) (e := e) (l := l) (p := p) (id := id) (due := due) (t := t)
    (lead := lead) (st := st) x
  exact ⟨gos.trans hv.1, tags.trans hv.2.1, deferred.trans hv.2.2⟩

theorem addMembers_other (h : l ≠ m) (xs : List Member) :
    (w.each xs (World.addMember e l p id due t lead st)).link m = w.link m :=
  each_link w xs _ m fun x _ => addMember_other h x

theorem makePortion_other (h : l ≠ m) (xs : List Member) : (w.makePortion e l p id due xs t).link m = w.link m := by
  have at_ : (w.makePortion e l p id due xs t).link m = _ := onLink_link _ l m _
  rw [at_, if_neg h, addMembers_other h]

theorem countEach_link {α : Type} (xs : List α) (f : Counters → Counters) :
    (w.each xs fun _ v => v.count p f).link m = w.link m :=
  each_link w xs _ m fun _ _ => by
    unfold count
    split <;> rfl

/-- A head made: its item leaves the deferred list, the GO list gains at most the GO of its group, and the other links
are as they were. -/
theorem makeHead_lists (hv : w.makeHead e l = some v) : (∀ m, l ≠ m → v.link m = w.link m)
    ∧ ∃ i, (w.link l).deferred = i :: (v.link l).deferred
      ∧ ((v.link l).gos = (w.link l).gos ∨ ∃ p id due ms o, i = .group p id due ms ∧ o.player = p ∧ o.id = id
        ∧ (v.link l).gos = insertBy GoEntry.before o (w.link l).gos) := by
  obtain ⟨ref, b, p, look, due, rest, hd, -, rfl⟩ | ⟨p, id, due, ms, rest, t, hd, -, -, rfl⟩ := makeHead_cases hv
  · refine ⟨fun m hm => ?_, .single ref b p look due, hd.trans (congrArg _ ?_), .inl ?_⟩
    · rw [addSingle, addEntry_link, listed, onLink_link, if_neg hm, onLink_link, if_neg hm]
    · rw [addSingle, addEntry_link, listed_link, onLink_link, if_pos rfl]
    · rw [addSingle, addEntry_link, listed_link, onLink_link, if_pos rfl]
  · have judged (m : Fin 4) : ((w.onLink l fun k => { k with deferred := rest }).rejudge l p ms).2.link m =
        (w.onLink l fun k => { k with deferred := rest }).link m := countEach_link _ _
    clear hv
    generalize (w.onLink l fun k => { k with deferred := rest }).rejudge l p ms = r at judged ⊢
    dsimp only
    split
    · have dropped (m : Fin 4) : (r.2.dropDeferred l p id).link m =
          (w.onLink l fun k => { k with deferred := rest }).link m := judged m
      refine ⟨fun m hm => ?_, .group p id due ms, hd.trans (congrArg _ ?_), .inl ?_⟩
      · rw [dropped, onLink_link, if_neg hm]
      · rw [dropped, onLink_link, if_pos rfl]
      · rw [dropped, onLink_link, if_pos rfl]
    · obtain ⟨gos, -, deferred⟩ := addMembers_lists (e := e) (l := l) (p := p) (id := id) (due := due) (t := t)
        (lead := r.2.portionLead l r.1) (st := .queued) (w := r.2) r.1
      refine ⟨fun m hm => ?_, .group p id due ms, hd.trans (congrArg _ ?_),
        .inr ⟨p, id, due, ms, portionGo e p id due (r.2.portionLead l r.1) t, rfl, rfl, rfl, ?_⟩⟩
      · rw [makePortion_other hm, judged, onLink_link, if_neg hm]
      · rw [makePortion_link]
        dsimp only
        rw [deferred, judged, onLink_link, if_pos rfl]
      · rw [makePortion_link]
        dsimp only
        rw [gos, judged, onLink_link, if_pos rfl]

/-! ## The retry mark (R119) -/

theorem closeTags_deferred : ((w.closeTags l).link m).deferred = (w.link m).deferred :=
  ((Tidied.refl w).closeTags l).deferred m

/-- The retries end with none owed. -/
theorem retryLink_settles (n : Nat) (h : (w.link l).deferred.length < n) :
    ((w.retryLink e l n).link l).retry = false := by
  induction n generalizing w with
  | zero => exact absurd h (Nat.not_lt_zero _)
  | succ n ih =>
    cases hr : ((w.closeTags l).link l).retry with
    | false =>
      rw [retryLink_quiet n (by rw [hr]; decide)]
      exact hr
    | true =>
      cases hm : (w.closeTags l).makeHead e l with
      | none =>
        rw [retryLink_stuck n hr hm, onLink_link, if_pos rfl]
      | some v =>
        rw [retryLink_made n hr hm]
        obtain ⟨-, i, hd, -⟩ := makeHead_lists hm
        rw [closeTags_deferred] at hd
        rw [hd, List.length_cons] at h
        exact ih (Nat.lt_of_succ_lt_succ h)

/-! ## The GOs of a group gone (R126, R130) -/

/-- No GO of the player's group waits on the link, and no deferred item of it. -/
structure GosSent (l : Fin 4) (p : Fin 8) (id : GroupId) (w : World) : Prop where
  gos : ∀ x ∈ (w.link l).gos, x.player = p → x.id = id → x.sent = true
  deferred : ∀ i ∈ (w.link l).deferred, i.notGroup p id

theorem GosSent.onLink {l m : Fin 4} (h : w.GosSent l p id) (f : Link → Link)
    (hg : ∀ x ∈ (f (w.link m)).gos, x ∈ (w.link m).gos)
    (hd : (f (w.link m)).deferred = (w.link m).deferred) : (w.onLink m f).GosSent l p id := by
  refine ⟨fun x hx => ?_, fun i hi => ?_⟩
  · rw [onLink_link] at hx
    split at hx
    · next e => subst e; exact h.gos x (hg x hx)
    · exact h.gos x hx
  · rw [onLink_link] at hi
    split at hi
    · next e => subst e; exact h.deferred i (hd ▸ hi)
    · exact h.deferred i hi

theorem GosSent.same {l : Fin 4} (h : w.GosSent l p id) (hl : v.link l = w.link l) : v.GosSent l p id :=
  ⟨fun x hx => h.gos x (hl ▸ hx), fun i hi => h.deferred i (hl ▸ hi)⟩

theorem GosSent.tidyKeeps (l : Fin 4) (p : Fin 8) (id : GroupId) : TidyKeeps (GosSent l p id) where
  closeTag m t w h := by
    have removed : (w.onLink m (Link.removeGo t)).GosSent l p id :=
      h.onLink _ (fun x hx => (List.mem_filter.1 hx).1) rfl
    have free {u : World} (hu : u.GosSent l p id) (k : TagHold) : (u.tagFreed m t k).GosSent l p id :=
      GosSent.same (w := u.onLink m fun k => { k with
        tags := k.tags.set t none, gos := k.gos.filter (·.tag != t), retry := true })
        (hu.onLink _ (fun x hx => (List.mem_filter.1 hx).1) rfl) rfl
    cases ht : (w.link m).tags.get t with
    | none =>
      rw [closeTag_free ht]
      exact h
    | some k =>
      obtain ⟨a, b, c, d⟩ := closeTag_used ht
      by_cases hg : k.go = .pending
        ∧ ∀ x ∈ (w.link m).stage.filter fun x => x.tag == t.val + 1, x.keepsGo = false
      · by_cases hc : ((w.link m).stage.filter fun x => x.tag == t.val + 1) = []
        · rw [a hg hc]
          exact free removed k
        · rw [b hg hc]
          exact removed
      · by_cases hp : k.go = .pending ∨ ((w.link m).stage.filter fun x => x.tag == t.val + 1) ≠ []
        · rw [d hg hp]
          exact h
        · rw [not_or, not_not] at hp
          rw [c hg hp.1 hp.2]
          exact free h k
  makeHead e m w v h hv := by
    obtain ⟨other, i, hd, hg⟩ := makeHead_lists hv
    by_cases hm : m = l
    · subst hm
      refine ⟨fun x hx hp hi => ?_, fun j hj => h.deferred j (by rw [hd]; exact List.mem_cons_of_mem _ hj)⟩
      rcases hg with hg | ⟨q, j, due, ms, o, rfl, rfl, rfl, hg⟩
      · exact h.gos x (hg ▸ hx) hp hi
      · rw [hg] at hx
        rcases (Holds.mem_insertBy _ _ _ _).1 hx with rfl | hx
        · refine absurd ?_ (h.deferred _ (by rw [hd]; exact List.mem_cons_self) due ms)
          rw [hp, hi]
        · exact h.gos x hx hp hi
    · exact h.same (other l hm)
  retried m w h := h.onLink _ (fun _ hx => hx) rfl

/-! ## The records by what a portion's change leaves of them -/

/-- The groups' records but for their portions. -/
def records (w : World) : List (Fin 8 × GroupId × Nat) := w.groups.map fun g => (g.player, g.id, g.due)

theorem records_congr (h : v.groups = w.groups) : v.records = w.records := by rw [records, h, records]

theorem onPortions_records (f : List Portion → List Portion) : (w.onPortions l p id f).records = w.records := by
  unfold records onPortions
  rw [List.map_map]
  refine List.map_congr_left fun g _ => ?_
  rw [Function.comp_apply]
  split <;> rfl

theorem recordsKept (c : List (Fin 8 × GroupId × Nat)) : TidyKeeps (fun w => w.records = c) where
  closeTag l t w h := by
    cases ht : (w.link l).tags.get t with
    | none =>
      rw [closeTag_free ht]
      exact h
    | some k =>
      have free {u : World} (hu : u.records = c) : (u.tagFreed l t k).records = c :=
        (onPortions_records _).trans hu
      obtain ⟨a, b, c', d⟩ := closeTag_used ht
      by_cases hg : k.go = .pending
        ∧ ∀ x ∈ (w.link l).stage.filter fun x => x.tag == t.val + 1, x.keepsGo = false
      · by_cases hc : ((w.link l).stage.filter fun x => x.tag == t.val + 1) = []
        · rw [a hg hc]
          exact free (u := w.onLink l (Link.removeGo t)) h
        · rw [b hg hc]
          exact h
      · by_cases hp : k.go = .pending ∨ ((w.link l).stage.filter fun x => x.tag == t.val + 1) ≠ []
        · rw [d hg hp]
          exact h
        · rw [not_or, not_not] at hp
          rw [c' hg hp.1 hp.2]
          exact free h
  makeHead e l w v h hv := by
    obtain ⟨ref, b, p, look, due, rest, -, -, rfl⟩ | ⟨p, id, due, ms, rest, t, -, -, -, rfl⟩ := makeHead_cases hv
    · exact (records_congr (addEntry_groups _ e l _)).trans h
    · have judged : ((w.onLink l fun k => { k with deferred := rest }).rejudge l p ms).2.records = c :=
        each_induct (fun v => v.records = c) _
          (fun _ v hv => (records_congr (v.count_groups p _)).trans hv) _ _ h
      dsimp only
      split
      · exact (onPortions_records _).trans judged
      · refine (onPortions_records _).trans ?_
        exact each_induct (fun v => v.records = c) _
          (fun m v hv => (records_congr (v.addMember_groups e l p id due t _ _ m)).trans hv) _ _ judged
  retried _ _ h := h

end
end World
end Sys2Proof.Machine
end

section
/-! SUPPORT. A player's takes for a zone withdrawn (R94), and a zone's individual take in flight (R101, R130). -/

namespace Sys2Proof.Machine

/-- What a run of removals over the entries of one kind makes of an entry that is the only one of its reference. -/
theorem Link.removedAll_filter {k : Link} {stop : DropEnd} {f : Entry → Bool} {x : Entry} (hx : x ∈ k.stage)
    (only : ∀ y ∈ k.stage, y.ref = x.ref → y = x) :
    (f x = false → x ∈ (k.removedAll stop (k.stage.filter f)).stage)
    ∧ (f x = true → (x.state = .queued ∨ x.state = .late →
        ∀ y ∈ (k.removedAll stop (k.stage.filter f)).stage, y.ref ≠ x.ref)
      ∧ (x.state = .sent ∨ x.state = .lateSent →
        { x with state := .dropping stop .awaitingReply } ∈ (k.removedAll stop (k.stage.filter f)).stage)
      ∧ (x.state = .staged ∨ x.state = .lateStaged →
        { x with state := .dropping stop .dropPending } ∈ (k.removedAll stop (k.stage.filter f)).stage
        ∧ ⟨false, x.addr, x.tag, x.ref⟩ ∈ (k.removedAll stop (k.stage.filter f)).pending)) := by
  refine ⟨fun hf => removedAll_stays hx fun y hy _ hr => ?_, fun hf => removedAll_entry hx
    (List.mem_filter.2 ⟨hx, hf⟩) fun y hy => only y (List.mem_filter.1 hy).1⟩
  obtain ⟨hy, test⟩ := List.mem_filter.1 hy
  rw [only y hy hr, hf] at test
  cases test

namespace World

section
variable {w v : World} {e : Env} {l m : Fin 4} {p : Fin 8} {a : Fin 16} {z : Fin 64}

theorem Tidied.players (h : w.Tidied v) : v.players = w.players := by
  have fields := congrArg World.players h.rest
  exact fields

theorem withdrawEntries_players (xs : List Entry) : (w.each xs (World.withdrawEntry l)).players = w.players :=
  each_induct (fun v => v.players = w.players) _
    (fun x v hv => (v.removeEntry_players l x .withdrawn).trans hv) xs w rfl

theorem withdrawEach_reported (xs : List Entry) : w.Reported (w.each xs (World.withdrawEntry l)) :=
  (Reported.refl w).each _ _ fun x v => Reported.removeEntry v l x .withdrawn

/-- A run of withdrawals over the entries of one kind leaves none of the kind but on its way out. -/
theorem withdrawEach_dropping (f : Entry → Bool) :
    ∀ y ∈ ((w.eachEntry l f (World.withdrawEntry l)).link l).stage, f y = true → y.dropping = true :=
  w.removeEach_dropping l .withdrawn f _ fun _ hy hf => .inr (List.mem_filter.2 ⟨hy, hf⟩)

theorem eachWithdrawn_link (f : Entry → Bool) : (w.eachEntry l f (World.withdrawEntry l)).link l =
    (w.link l).removedAll .withdrawn ((w.link l).stage.filter f) := withdrawEach_link _

/-! ## Deferred items dropped -/

/-- A dropped individual item is in flight no more. -/
theorem dropItems_take {f : Item → Bool} {ref : Nat} {q : Option (Fin 8)} {look : LookCopy} {due : Nat}
    (h : Item.single ref a q look due ∈ (w.link l).deferred) (hf : f (.single ref a q look due) = true)
    (n : TakeKind) : ((w.dropItems l f).zone (zoneAt l a)).take ≠ some (ref, n) := by
  refine each_reaches (P := fun v => (v.zone (zoneAt l a)).take ≠ some (ref, n)) (List.mem_filter.2 ⟨h, hf⟩)
    (fun v => ?_) (fun i v hv => ?_) _
  · rw [report_zone, if_pos rfl]
    dsimp only
    split
    · exact nofun
    · next ht => exact fun hs => ht (by rw [hs]; simp)
  · have reported : v.Reported (match i with
        | .group q id _ _ => v.dropDeferred l q id
        | .single ref a _ look _ => v.report (zoneAt l a) ref .withdrawn look) := by
      cases i with
      | group => exact .of_zones fun _ => rfl
      | single => exact Reported.report _ _ _ _ (by decide)
    rcases reported.take (zoneAt l a) with ht | ht
    · exact fun hs => hv (ht.symm.trans hs)
    · exact fun hs => nomatch ht.symm.trans hs

/-- No record of the player's group has a portion deferred on the link. -/
def Undeferring (l : Fin 4) (p : Fin 8) (id : GroupId) (w : World) : Prop :=
  ∀ g ∈ w.groups, g.player = p → g.id = id → Portion.deferred ∉ g.portions.get l

theorem dropDeferred_mem {id : GroupId} {g : GroupRec} (hg : g ∈ (w.dropDeferred l p id).groups) :
    ∃ o ∈ w.groups, g.player = o.player ∧ g.id = o.id
      ∧ (Portion.deferred ∈ g.portions.get l → Portion.deferred ∈ o.portions.get l ∧ ¬(o.player = p ∧ o.id = id)) := by
  obtain ⟨o, ho, rfl⟩ := List.mem_map.1 hg
  refine ⟨o, ho, ?_⟩
  split
  · next hk =>
    refine ⟨rfl, rfl, fun hd => ?_⟩
    dsimp only at hd
    rw [Tab.get_upd_self] at hd
    obtain ⟨q, hq, he⟩ := List.mem_map.1 hd
    split at he
    · cases he
    · next hn => exact absurd he hn
  · next hk => exact ⟨rfl, rfl, fun hd => ⟨hd, hk⟩⟩

theorem Undeferring.dropDeferred {q : Fin 8} {id j : GroupId} (h : w.Undeferring l p id) :
    (w.dropDeferred l q j).Undeferring l p id := by
  intro g hg hp hi hd
  obtain ⟨o, ho, player, ident, deferred⟩ := dropDeferred_mem hg
  exact h o ho (player ▸ hp) (ident ▸ hi) (deferred hd).1

theorem dropDeferred_undeferring {id : GroupId} : (w.dropDeferred l p id).Undeferring l p id := by
  intro g hg hp hi hd
  obtain ⟨o, ho, player, ident, deferred⟩ := dropDeferred_mem hg
  exact (deferred hd).2 ⟨player ▸ hp, ident ▸ hi⟩

/-- The items dropped keep a group without a deferred portion so. -/
theorem Undeferring.dropItems {id : GroupId} (h : w.Undeferring l p id) (f : Item → Bool) :
    (w.dropItems l f).Undeferring l p id := by
  refine each_induct (Undeferring l p id) _ (fun i v hv => ?_) _ _ h
  cases i with
  | group => exact hv.dropDeferred
  | single => exact hv

/-- A dropped group item's portion is DONE. -/
theorem dropItems_undeferring {f : Item → Bool} {id : GroupId} {due : Nat} {ms : List Member}
    (h : Item.group p id due ms ∈ (w.link l).deferred) (hf : f (.group p id due ms) = true) :
    (w.dropItems l f).Undeferring l p id := by
  refine each_reaches (List.mem_filter.2 ⟨h, hf⟩) (fun v => dropDeferred_undeferring) (fun i v hv => ?_) _
  cases i with
  | group => exact hv.dropDeferred
  | single => exact hv

/-! ## Withdrawal of a player's takes for a zone -/

/-- The item rid of the player's members and individual takes for an address; none where nothing is left of it. -/
def itemWithout (p : Fin 8) (a : Fin 16) (i : Item) : Option Item :=
  match i with
  | .group q id due ms =>
    if q = p then
      if ms.filter (fun m => m.addr != a) = [] then none else some (.group q id due (ms.filter fun m => m.addr != a))
    else some i
  | .single _ b q _ _ => if q = some p ∧ b = a then none else some i

/-- The item with no member of the player's for the address. -/
def memberless (p : Fin 8) (a : Fin 16) (i : Item) : Item :=
  match i with
  | .group q id due ms => if q = p then .group q id due (ms.filter (·.addr != a)) else i
  | .single .. => i

/-- A group item of the player with no member left. -/
def emptied (p : Fin 8) (i : Item) : Bool :=
  match i with
  | .group q _ _ ms => q == p && ms.isEmpty
  | .single .. => false

/-- An individual item of the player for the address. -/
def singleAt (p : Fin 8) (a : Fin 16) (i : Item) : Bool :=
  match i with
  | .group .. => false
  | .single _ b q _ _ => q == some p && b == a

theorem itemsWithout (xs : List Item) : (((xs.map (memberless p a)).filter fun i => !emptied p i).filter fun i =>
    !singleAt p a i) = xs.filterMap (itemWithout p a) := by
  induction xs with
  | nil => rfl
  | cons i xs ih =>
    rw [List.map_cons, List.filterMap_cons, ← ih]
    cases i with
    | single ref b q look due =>
      by_cases h : q = some p ∧ b = a
      · simp [memberless, emptied, singleAt, itemWithout, h]
      · have test : (q == some p && b == a) = false := by simpa using h
        simp [memberless, emptied, singleAt, itemWithout, h, test]
    | group q id due ms =>
      by_cases hq : q = p
      · subst hq
        by_cases hm : ms.filter (fun m => m.addr != a) = []
        · simp [memberless, emptied, itemWithout, hm]
        · have test : (ms.filter fun m => m.addr != a).isEmpty = false := by simpa [List.isEmpty_iff] using hm
          simp only [memberless, itemWithout, if_pos, if_neg hm, List.filter_cons]
          simp [emptied, singleAt, test]
      · simp [memberless, emptied, singleAt, itemWithout, hq]

/-- The player's entries and deferred takes for a zone withdrawn, before the tests and retries that follow. -/
def zoneWithdrawn (p : Fin 8) (z : Fin 64) (w : World) : World :=
  ((w.eachEntry (zoneLink z) (fun x => x.player == some p && x.addr == zoneAddr z)
    (World.withdrawEntry (zoneLink z))).dropMembers (zoneLink z) p (zoneAddr z)).dropItems (zoneLink z)
      (singleAt p (zoneAddr z))

theorem withdrawZone_eq : w.withdrawZone e p z = (w.zoneWithdrawn p z).tidy e := rfl

/-- The members for a driver gone from the player's items. -/
def memberlessOn (l : Fin 4) (p : Fin 8) (a : Fin 16) (w : World) : World :=
  w.onLink l fun k => { k with deferred := k.deferred.map (memberless p a) }

theorem dropMembers_eq : w.dropMembers l p a = (w.memberlessOn l p a).dropItems l (emptied p) := rfl

theorem dropMembers_link : (w.dropMembers l p a).link l = { w.link l with
    deferred := ((w.link l).deferred.map (memberless p a)).filter fun i => !emptied p i } := by
  rw [dropMembers_eq, dropItems_link, if_pos rfl, memberlessOn, onLink_link, if_pos rfl]

theorem dropMembers_other (h : l ≠ m) : (w.dropMembers l p a).link m = w.link m := by
  rw [dropMembers_eq, dropItems_link, if_neg h, memberlessOn, onLink_link, if_neg h]

theorem zoneWithdrawn_link : (w.zoneWithdrawn p z).link (zoneLink z) =
    { (w.link (zoneLink z)).removedAll .withdrawn ((w.link (zoneLink z)).stage.filter fun x =>
        x.player == some p && x.addr == zoneAddr z) with
      deferred := (w.link (zoneLink z)).deferred.filterMap (itemWithout p (zoneAddr z)) } := by
  rw [zoneWithdrawn, dropItems_link, if_pos rfl, dropMembers_link, eachWithdrawn_link, ← itemsWithout]
  rw [Link.removedAll_lists.2.2]

theorem zoneWithdrawn_other (h : zoneLink z ≠ m) : (w.zoneWithdrawn p z).link m = w.link m := by
  rw [zoneWithdrawn, dropItems_link, if_neg h, dropMembers_other h]
  exact withdrawEach_other h _

theorem zoneWithdrawn_players : (w.zoneWithdrawn p z).players = w.players := by
  rw [zoneWithdrawn, dropItems_players, dropMembers_eq, dropItems_players]
  exact withdrawEntries_players _

theorem zoneWithdrawn_reported : w.Reported (w.zoneWithdrawn p z) := by
  have members (u : World) : u.Reported (u.memberlessOn (zoneLink z) p (zoneAddr z)) := .of_zones fun _ => rfl
  exact (((withdrawEach_reported _).trans (members _)).trans (Reported.dropItems _ _ _)).trans
    (Reported.dropItems _ _ _)

theorem zoneWithdrawn_undeferred (h : w.undeferred) : (w.zoneWithdrawn p z).undeferred := by
  intro m
  by_cases hm : zoneLink z = m
  · subst hm
    rw [zoneWithdrawn_link]
    dsimp only
    rw [h]
    rfl
  · rw [zoneWithdrawn_other hm]
    exact h m

/-- An entry of the player for the address is on its way out. -/
def leavesZone (p : Fin 8) (a : Fin 16) (x : Entry) : Prop :=
  x.player = some p → x.addr = a → x.dropping = true

/-- The item has nothing of the player for the address. -/
def notZone (p : Fin 8) (a : Fin 16) (i : Item) : Prop :=
  (∀ id due ms, i = .group p id due ms → ∀ m ∈ ms, m.addr ≠ a)
    ∧ ∀ ref look due, i ≠ .single ref a (some p) look due

theorem kinds_leavesZone (p : Fin 8) (a : Fin 16) : Kinds (leavesZone p a) (notZone p a) where
  drop _ _ _ _ := fun _ _ => rfl
  single ref b q look due hi := fun hp hb => by
    cases hp
    cases hb
    exact absurd rfl (hi.2 ref look due)
  group q id due ms hi m hm _ _ _ := fun hp hb => by
    cases hp
    exact absurd hb (hi.1 id due ms rfl m hm)

theorem itemWithout_notZone {i j : Item} (h : itemWithout p a i = some j) : notZone p a j := by
  cases i with
  | single ref b q look due =>
    by_cases hs : q = some p ∧ b = a
    · simp [itemWithout, hs] at h
    · rw [itemWithout, if_neg hs] at h
      cases h
      exact ⟨nofun, fun _ _ _ hi => by cases hi; exact hs ⟨rfl, rfl⟩⟩
  | group q id due ms =>
    by_cases hq : q = p
    · rw [itemWithout, if_pos hq] at h
      split at h
      · cases h
      · cases h
        refine ⟨fun _ _ _ hi m hm => ?_, nofun⟩
        cases hi
        simpa using (List.mem_filter.1 hm).2
    · rw [itemWithout, if_neg hq] at h
      cases h
      exact ⟨fun _ _ _ hi => by cases hi; exact absurd rfl hq, nofun⟩

/-- Nothing of the player is left for the zone but entries on their way out. -/
theorem zoneWithdrawn_holds : (w.zoneWithdrawn p z).Holds (zoneLink z) (leavesZone p (zoneAddr z))
    (notZone p (zoneAddr z)) := by
  refine ⟨fun x hx hp ha => ?_, fun i hi => ?_⟩
  · rw [zoneWithdrawn_link] at hx
    refine withdrawEach_dropping (w := w) (l := zoneLink z) (fun x => x.player == some p && x.addr == zoneAddr z) x ?_
      (by simp [hp, ha])
    rw [eachWithdrawn_link]
    exact hx
  · rw [zoneWithdrawn_link] at hi
    obtain ⟨j, -, hj⟩ := List.mem_filterMap.1 hi
    exact itemWithout_notZone hj

/-- The deferred takes of the player for the zone, reported and DONE. -/
theorem zoneWithdrawn_items :
    (∀ id due ms, Item.group p id due ms ∈ (w.link (zoneLink z)).deferred → (∀ m ∈ ms, m.addr = zoneAddr z) →
      (w.zoneWithdrawn p z).Undeferring (zoneLink z) p id)
    ∧ ∀ ref look due, Item.single ref (zoneAddr z) (some p) look due ∈ (w.link (zoneLink z)).deferred →
      ∀ n, ((w.zoneWithdrawn p z).zone z).take ≠ some (ref, n) := by
  let entries := w.eachEntry (zoneLink z) (fun x => x.player == some p && x.addr == zoneAddr z)
    (World.withdrawEntry (zoneLink z))
  have deferred : (entries.link (zoneLink z)).deferred = (w.link (zoneLink z)).deferred := by
    rw [eachWithdrawn_link, Link.removedAll_lists.2.2]
  have mapped : ((entries.memberlessOn (zoneLink z) p (zoneAddr z)).link (zoneLink z)).deferred =
      (w.link (zoneLink z)).deferred.map (memberless p (zoneAddr z)) := by
    rw [memberlessOn, onLink_link, if_pos rfl]
    exact congrArg (List.map _) deferred
  refine ⟨fun id due ms hi hm => ?_, fun ref look due hi n => ?_⟩
  · have gone : ms.filter (fun m => m.addr != zoneAddr z) = [] :=
      List.filter_eq_nil_iff.2 fun m hmem => by simp [hm m hmem]
    have item : Item.group p id due [] ∈
        ((entries.memberlessOn (zoneLink z) p (zoneAddr z)).link (zoneLink z)).deferred := by
      rw [mapped]
      exact List.mem_map.2 ⟨_, hi, by rw [memberless, if_pos rfl, gone]⟩
    exact (dropItems_undeferring item (f := emptied p) (by simp [emptied])).dropItems _
  · have item : Item.single ref (zoneAddr z) (some p) look due ∈
        ((entries.dropMembers (zoneLink z) p (zoneAddr z)).link (zoneLink z)).deferred := by
      rw [dropMembers_link, deferred]
      exact List.mem_filter.2 ⟨List.mem_map.2 ⟨_, hi, rfl⟩, rfl⟩
    have taken := dropItems_take item (f := singleAt p (zoneAddr z)) (by simp [singleAt]) n
    rw [zoneAt_zone] at taken
    exact taken

/-! ## Withdrawal of an individual take in flight -/

/-- An individual item of the reference. -/
def singleOf (ref : Nat) (i : Item) : Bool :=
  match i with
  | .group .. => false
  | .single r _ _ _ _ => r == ref

theorem takeWithdrawn_eq (ref : Nat) : w.takeWithdrawn l ref =
    (w.eachEntry l (·.ref == ref) (World.withdrawEntry l)).dropItems l (singleOf ref) := rfl

theorem takeWithdrawn_link (ref : Nat) : (w.takeWithdrawn l ref).link l =
    { (w.link l).removedAll .withdrawn ((w.link l).stage.filter (·.ref == ref)) with
      deferred := (w.link l).deferred.filter fun i => !singleOf ref i } := by
  rw [takeWithdrawn_eq, dropItems_link, if_pos rfl, eachWithdrawn_link, Link.removedAll_lists.2.2]

theorem takeWithdrawn_other (ref : Nat) (h : l ≠ m) : (w.takeWithdrawn l ref).link m = w.link m := by
  rw [takeWithdrawn_eq, dropItems_link, if_neg h]
  exact withdrawEach_other h _

theorem takeWithdrawn_players (ref : Nat) : (w.takeWithdrawn l ref).players = w.players := by
  rw [takeWithdrawn_eq, dropItems_players]
  exact withdrawEntries_players _

theorem takeWithdrawn_reported (ref : Nat) : w.Reported (w.takeWithdrawn l ref) :=
  (withdrawEach_reported _).trans (Reported.dropItems _ _ _)

/-- An individual entry of the reference is on its way out. -/
def leavesRef (ref : Nat) (x : Entry) : Prop := x.group = none → x.ref = ref → x.dropping = true

/-- The item is not the individual one of the reference. -/
def notRef (ref : Nat) (i : Item) : Prop := ∀ a q look due, i ≠ .single ref a q look due

theorem kinds_leavesRef (ref : Nat) : Kinds (leavesRef ref) (notRef ref) where
  drop _ _ _ _ := fun _ _ => rfl
  single r a q look due hi := fun _ hr => by
    cases hr
    exact absurd rfl (hi a q look due)
  group _ _ _ _ _ _ _ _ _ _ := fun hg => nomatch hg

theorem takeWithdrawn_holds (ref : Nat) :
    (w.takeWithdrawn l ref).Holds l (leavesRef ref) (notRef ref) := by
  refine ⟨fun x hx _ hr => ?_, fun i hi a q look due hs => ?_⟩
  · rw [takeWithdrawn_link] at hx
    refine withdrawEach_dropping (w := w) (l := l) (·.ref == ref) x ?_ (by simp [hr])
    rw [eachWithdrawn_link]
    exact hx
  · rw [takeWithdrawn_link] at hi
    subst hs
    simpa [singleOf] using (List.mem_filter.1 hi).2

/-- The withdrawal ends the take in flight where it was QUEUED, LATE or deferred. -/
theorem takeWithdrawn_take {ref : Nat} {n : TakeKind} (ht : (w.zone z).take = some (ref, n))
    (h : (∃ x ∈ (w.link (zoneLink z)).stage, x.ref = ref ∧ x.addr = zoneAddr z
        ∧ (x.state = .queued ∨ x.state = .late))
      ∨ ∃ q look due, Item.single ref (zoneAddr z) q look due ∈ (w.link (zoneLink z)).deferred) :
    ((w.takeWithdrawn (zoneLink z) ref).zone z).take = none := by
  have whole := (takeWithdrawn_reported (w := w) (l := zoneLink z) ref).take z
  refine whole.resolve_left fun hs => ?_
  rw [ht] at hs
  revert hs
  rcases h with ⟨x, hx, hr, ha, hst⟩ | ⟨q, look, due, hi⟩
  · have ended : ((w.eachEntry (zoneLink z) (·.ref == ref) (World.withdrawEntry (zoneLink z))).zone z).take ≠
        some (ref, n) := by
      refine each_reaches (P := fun v => (v.zone z).take ≠ some (ref, n))
        (List.mem_filter.2 ⟨hx, by simpa using hr⟩) (fun v => ?_) (fun y v hv => ?_) w
      · rw [v.withdrawEntry_ended _ hst, ← hr]
        have at_ := v.endEntry_take (zoneLink z) x .withdrawn n
        rwa [ha, zoneAt_zone] at at_
      · rcases (Reported.removeEntry v (zoneLink z) y .withdrawn).take z with h | h
        · exact fun hs => hv (h.symm.trans hs)
        · exact fun hs => nomatch h.symm.trans hs
    rcases (Reported.dropItems (w.eachEntry (zoneLink z) (·.ref == ref) (World.withdrawEntry (zoneLink z)))
        (zoneLink z) (singleOf ref)).take z with h | h
    · exact fun hs => ended (h.symm.trans hs)
    · exact fun hs => nomatch h.symm.trans hs
  · have item : Item.single ref (zoneAddr z) q look due ∈
        ((w.eachEntry (zoneLink z) (·.ref == ref) (World.withdrawEntry (zoneLink z))).link (zoneLink z)).deferred := by
      rw [eachWithdrawn_link, Link.removedAll_lists.2.2]
      exact hi
    have gone := dropItems_take item (f := singleOf ref) (by simp [singleOf]) n
    rw [zoneAt_zone] at gone
    exact gone

end
end World
end Sys2Proof.Machine
end

section
/-! SUPPORT. A group past its expiry (R126): its GOs, entries and deferred items on each link, the takes so lost, and
its record. -/

namespace Sys2Proof.Machine

/-! ## One link's part, on the link -/

namespace Link
variable {k : Link} {stop : DropEnd} {xs : List Entry}

/-- A run of removals over the entries of one kind leaves none of the kind but on its way out. -/
theorem removedAll_dropping {f : Entry → Bool} (h : ∀ y ∈ k.stage, f y = true → y.dropping = true ∨ y ∈ xs) :
    ∀ y ∈ (k.removedAll stop xs).stage, f y = true → y.dropping = true := by
  induction xs generalizing k with
  | nil => exact fun y hy hf => (h y hy hf).resolve_right nofun
  | cons x xs ih =>
    refine ih fun y hy hf => ?_
    rcases removed_cases stop k x with ⟨hx, e⟩ | ⟨-, e⟩ | ⟨-, st, e⟩
    · rw [e] at hy
      rcases h y hy hf with hd | hm
      · exact .inl hd
      · rcases List.mem_cons.1 hm with rfl | hm
        · exact .inl hx
        · exact .inr hm
    · rw [e] at hy
      obtain ⟨hy, hr⟩ := List.mem_filter.1 hy
      refine (h y hy hf).imp_right fun hm => (List.mem_cons.1 hm).resolve_left ?_
      rintro rfl
      simp at hr
    · rw [e] at hy
      obtain ⟨z, hz, rfl⟩ := List.mem_map.1 hy
      by_cases hr : z.ref = x.ref
      · rw [if_pos hr]
        exact .inl rfl
      · rw [if_neg hr] at hf ⊢
        exact (h z hz hf).imp_right fun hm => (List.mem_cons.1 hm).resolve_left fun e => hr (congrArg Entry.ref e)

/-- Several GOs removed. -/
def removedGos (k : Link) (gs : List GoEntry) : Link := gs.foldl (fun k x => k.removeGo x.tag) k

variable {gs : List GoEntry}

theorem removedGos_lists : (k.removedGos gs).stage = k.stage ∧ (k.removedGos gs).deferred = k.deferred := by
  induction gs generalizing k with
  | nil => exact ⟨rfl, rfl⟩
  | cons x gs ih => exact ih (k := k.removeGo x.tag)

theorem removedGos_gos {x : GoEntry} (hx : x ∈ (k.removedGos gs).gos) : x ∈ k.gos ∧ ∀ o ∈ gs, x.tag ≠ o.tag := by
  induction gs generalizing k with
  | nil => exact ⟨hx, nofun⟩
  | cons o gs ih =>
    obtain ⟨hk, tags⟩ := ih (k := k.removeGo o.tag) hx
    obtain ⟨hk, tag⟩ := List.mem_filter.1 hk
    refine ⟨hk, fun u hu => ?_⟩
    rcases List.mem_cons.1 hu with rfl | hu
    · simpa using tag
    · exact tags u hu

/-- A removed GO's tag says so from then on. -/
theorem removedGos_tag {o : GoEntry} (h : o ∈ gs ∨ ∀ u, k.tags.get o.tag = some u → u.go = .removed) :
    ∀ u, (k.removedGos gs).tags.get o.tag = some u → u.go = .removed := by
  induction gs generalizing k with
  | nil => exact h.resolve_left nofun
  | cons x gs ih =>
    refine ih (k := k.removeGo x.tag) ?_
    have at_ : (k.removeGo x.tag).tags = k.tags.upd x.tag (Option.map fun u => { u with go := .removed }) := rfl
    by_cases ht : x.tag = o.tag
    · refine .inr fun u hu => ?_
      rw [at_, ht, Tab.get_upd_self] at hu
      obtain ⟨v, -, rfl⟩ := Option.map_eq_some_iff.1 hu
      rfl
    · rcases h with h | h
      · exact .inl ((List.mem_cons.1 h).resolve_left fun e => ht (congrArg GoEntry.tag e.symm))
      · refine .inr fun u hu => h u ?_
        rwa [at_, Tab.get_upd_ne _ _ ht] at hu

end Link

/-- A GO of the group that waits. -/
def GroupRec.waits (g : GroupRec) (x : GoEntry) : Bool := x.player == g.player && x.id == g.id && !x.sent

/-- An entry of the group. -/
def GroupRec.has (g : GroupRec) (x : Entry) : Bool := x.player == some g.player && x.group == some g.id

/-- A deferred item of the group. -/
def GroupRec.defers (g : GroupRec) (i : Item) : Bool :=
  match i with
  | .group p id _ _ => p == g.player && id == g.id
  | .single .. => false

/-- The members of a deferred item. -/
def Item.members (i : Item) : List Member :=
  match i with
  | .group _ _ _ ms => ms
  | .single .. => []

/-- A link's record without the group's waiting GOs. -/
def Link.unwaited (g : GroupRec) (k : Link) : Link := k.removedGos (k.gos.filter g.waits)

/-- A link's record rid of an expired group. -/
def Link.expired (g : GroupRec) (k : Link) : Link :=
  { (k.unwaited g).removedAll .discarded (k.stage.filter g.has) with
    deferred := k.deferred.filter fun i => !g.defers i }

namespace World

section
variable {w v : World} {e : Env} {l m : Fin 4} {g : GroupRec}

/-- Each link is changed once, in its turn. -/
theorem each_link_once {f : Fin 4 → World → World} {F : Link → Link} (own : ∀ l v, (f l v).link l = F (v.link l))
    (other : ∀ l m v, l ≠ m → (f l v).link m = World.link v m) {ls : List (Fin 4)} (hn : ls.Nodup) (w : World)
    (m : Fin 4) : (w.each ls f).link m = if m ∈ ls then F (w.link m) else w.link m := by
  induction ls generalizing w with
  | nil => rfl
  | cons l ls ih =>
    obtain ⟨hl, hn⟩ := List.nodup_cons.1 hn
    rw [each_cons, ih hn]
    by_cases hm : l = m
    · subst hm
      rw [if_neg hl, if_pos List.mem_cons_self, own]
    · rw [other l m w hm]
      simp [Ne.symm hm]

/-- The waiting GOs of the group removed from a link. -/
def unwait (g : GroupRec) (l : Fin 4) (w : World) : World :=
  w.each ((w.link l).gos.filter g.waits) fun x v => v.onLink l (Link.removeGo x.tag)

theorem unwaitEach_link (xs : List GoEntry) : (w.each xs fun x v => v.onLink l (Link.removeGo x.tag)).link l =
    (w.link l).removedGos xs := by
  induction xs generalizing w with
  | nil => rfl
  | cons x xs ih =>
    rw [each_cons, ih, onLink_link, if_pos rfl]
    rfl

theorem unwait_link : (w.unwait g l).link l = (w.link l).unwaited g := unwaitEach_link _

theorem unwait_other (h : l ≠ m) : (w.unwait g l).link m = w.link m :=
  each_link w _ _ m fun _ _ => (onLink_link _ _ _ _).trans (if_neg h)

theorem unwait_same : (w.unwait g l).players = w.players ∧ (w.unwait g l).groups = w.groups
    ∧ (w.unwait g l).notices = w.notices :=
  each_induct (fun v => v.players = w.players ∧ v.groups = w.groups ∧ v.notices = w.notices)
    (fun (x : GoEntry) v => v.onLink l (Link.removeGo x.tag)) (fun _ _ hv => hv) _ w ⟨rfl, rfl, rfl⟩

/-- The entries of the group discarded on a link. -/
def discardGroup (e : Env) (g : GroupRec) (l : Fin 4) (w : World) : World :=
  w.eachEntry l g.has (World.discardEntry e l)

/-- The members of the group's deferred items. -/
def waiting (w : World) (g : GroupRec) (l : Fin 4) : List Member :=
  ((w.link l).deferred.filter g.defers).flatMap Item.members

/-- The deferred items of the group dropped on a link, their members counted. -/
def dropGroup (e : Env) (g : GroupRec) (l : Fin 4) (w : World) : World :=
  (w.dropItems l g.defers).each (w.waiting g l) fun _ v => v.countTake e (some g.player) Counters.addDiscarded

theorem expireOn_eq : w.expireOn e g l = ((w.unwait g l).discardGroup e g l).dropGroup e g l := rfl

theorem discardGroup_link : (w.discardGroup e g l).link l =
    (w.link l).removedAll .discarded ((w.link l).stage.filter g.has) := discardEach_link _

theorem discardGroup_other (h : l ≠ m) : (w.discardGroup e g l).link m = w.link m := discardEach_other h _

theorem dropGroup_link : (w.dropGroup e g l).link m = (w.dropItems l g.defers).link m :=
  each_link _ _ _ m fun _ v => countTake_link v e _ _ m

theorem expireOn_link : (w.expireOn e g l).link l = (w.link l).expired g := by
  rw [expireOn_eq, dropGroup_link, dropItems_link, if_pos rfl, discardGroup_link, unwait_link,
    Link.removedAll_lists.2.2]
  unfold Link.expired
  rw [Link.unwaited, Link.removedGos_lists.1, Link.removedGos_lists.2]

theorem expireOn_other (h : l ≠ m) : (w.expireOn e g l).link m = w.link m := by
  rw [expireOn_eq, dropGroup_link, dropItems_link, if_neg h, discardGroup_other h, unwait_other h]

/-- The blocks once every link is rid of the group, before its record goes. -/
def expiredOn (e : Env) (g : GroupRec) (w : World) : World := w.each (upTo 4) (World.expireOn e g)

theorem expiredOn_link (m : Fin 4) : (w.expiredOn e g).link m = (w.link m).expired g :=
  (each_link_once (f := World.expireOn e g) (F := Link.expired g) (fun _ _ => expireOn_link)
    (fun _ _ _ h => expireOn_other h) (List.nodup_finRange 4) w m).trans (if_pos (List.mem_finRange m))

/-! ## The takes lost -/

/-- The takes of the group that its expiry loses on a link. -/
def lostOn (w : World) (g : GroupRec) (l : Fin 4) : Nat :=
  ((w.link l).stage.countP fun x => g.has x && !x.dropping) + (w.waiting g l).length

theorem lostOn_congr (h : v.link l = w.link l) : v.lostOn g l = w.lostOn g l := by
  rw [lostOn, waiting, h]
  rfl

theorem expireOn_discards : w.Discards g.player (w.lostOn g l) (w.expireOn e g l) := by
  obtain ⟨players, -, notices⟩ := unwait_same (w := w) (g := g) (l := l)
  have gos : w.Discards g.player 0 (w.unwait g l) :=
    .none (congrArg (Tab.get · g.player) players) (by rw [notices]; exact id)
  have entries := Discards.discardEach (p := g.player) (w.unwait g l) e l (((w.unwait g l).link l).stage.filter g.has)
  have items : ((w.unwait g l).discardGroup e g l).Discards g.player 0
      (((w.unwait g l).discardGroup e g l).dropItems l g.defers) :=
    .none (congrArg (Tab.get · g.player) (dropItems_players ..)) (((Kept.refl _).dropItems l _).raised _)
  have members := Discards.each (p := g.player) (((w.unwait g l).discardGroup e g l).waiting g l)
    (fun _ v => v.countTake e (some g.player) Counters.addDiscarded) (fun _ => true)
    (fun _ v => by simpa using Discards.countTake (p := g.player) v e (some g.player))
    (((w.unwait g l).discardGroup e g l).dropItems l g.defers)
  have stage : ((w.unwait g l).link l).stage = (w.link l).stage := by
    rw [unwait_link, Link.unwaited, Link.removedGos_lists.1]
  have waits : ((w.unwait g l).discardGroup e g l).waiting g l = w.waiting g l := by
    rw [waiting, discardGroup_link, Link.removedAll_lists.2.2, unwait_link, Link.unwaited, Link.removedGos_lists.2]
    rfl
  have count : ((w.link l).stage.filter g.has).countP (fun x => x.player == some g.player && !x.dropping) =
      (w.link l).stage.countP fun x => g.has x && !x.dropping := by
    rw [List.countP_filter]
    refine List.countP_congr fun x _ => ?_
    simp only [GroupRec.has, Bool.and_eq_true]
    tauto
  have all := ((gos.trans entries).trans items).trans members
  rw [stage, count, waits, List.countP_true] at all
  rw [Nat.zero_add, Nat.add_zero] at all
  rw [expireOn_eq, dropGroup, waits]
  exact all

theorem expiredOn_discards : w.Discards g.player (w.lostOn g 0 + w.lostOn g 1 + w.lostOn g 2 + w.lostOn g 3)
    (w.expiredOn e g) := by
  have first := expireOn_discards (w := w) (e := e) (g := g) (l := 0)
  have second := expireOn_discards (w := w.expireOn e g 0) (e := e) (g := g) (l := 1)
  have third := expireOn_discards (w := (w.expireOn e g 0).expireOn e g 1) (e := e) (g := g) (l := 2)
  have fourth := expireOn_discards (w := ((w.expireOn e g 0).expireOn e g 1).expireOn e g 2) (e := e) (g := g) (l := 3)
  rw [lostOn_congr (expireOn_other (by decide))] at second
  rw [lostOn_congr ((expireOn_other (by decide)).trans (expireOn_other (by decide)))] at third
  rw [lostOn_congr ((expireOn_other (by decide)).trans
    ((expireOn_other (by decide)).trans (expireOn_other (by decide))))] at fourth
  have turns : w.expiredOn e g =
      (((w.expireOn e g 0).expireOn e g 1).expireOn e g 2).expireOn e g 3 := by
    rw [expiredOn, show upTo 4 = [0, 1, 2, 3] from rfl, each_cons, each_cons, each_cons, each_cons, each_nil]
  rw [turns]
  exact ((first.trans second).trans third).trans fourth

/-! ## The record -/

theorem dropItems_records (f : Item → Bool) : (w.dropItems l f).records = w.records := by
  refine each_induct (fun v => v.records = w.records) _ (fun i v hv => ?_) _ _ rfl
  cases i with
  | group => exact (onPortions_records _).trans hv
  | single => exact hv

theorem expireOn_records : (w.expireOn e g l).records = w.records := by
  have entries : ((w.unwait g l).discardGroup e g l).groups = w.groups :=
    each_induct (fun v => v.groups = w.groups) _ (fun x v hv => (v.discardEntry_groups e l x).trans hv) _ _
      unwait_same.2.1
  have items := (dropItems_records (w := (w.unwait g l).discardGroup e g l) (l := l) g.defers).trans
    (records_congr entries)
  rw [expireOn_eq]
  exact each_induct (fun v => v.records = w.records) _
    (fun _ v hv => (records_congr (v.countTake_groups e _ _)).trans hv) _ _ items

theorem expiredOn_records : (w.expiredOn e g).records = w.records :=
  each_induct (fun v => v.records = w.records) _ (fun _ _ hv => expireOn_records.trans hv) _ w rfl

/-- The blocks without the group's record. -/
def unrecorded (g : GroupRec) (w : World) : World :=
  { w with groups := w.groups.filter fun x => !(x.player == g.player && x.id == g.id) }

theorem expire_eq : w.expire e g = ((w.expiredOn e g).unrecorded g).tidy e := rfl

theorem unrecorded_records : (w.unrecorded g).records =
    w.records.filter fun x => !(x.1 == g.player && x.2.1 == g.id) := by
  rw [records, records, List.filter_map]
  rfl

theorem expire_records : (w.expire e g).records = (w.unrecorded g).records := by
  rw [expire_eq, (recordsKept ((w.expiredOn e g).unrecorded g).records).tidy rfl e, unrecorded_records,
    unrecorded_records, expiredOn_records]

/-! ## What is left of the group -/

theorem expiredOn_holds (m : Fin 4) : (w.expiredOn e g).Holds m (Entry.leavesGroup g.player g.id)
    (Item.notGroup g.player g.id) := by
  have stage : ((w.link m).unwaited g).stage = (w.link m).stage := Link.removedGos_lists.1
  refine ⟨fun x hx hp hi => ?_, fun i hi due ms hg => ?_⟩
  · rw [expiredOn_link] at hx
    refine Link.removedAll_dropping (stop := .discarded) (k := (w.link m).unwaited g) (f := g.has)
      (xs := (w.link m).stage.filter g.has) (fun y hy hf => .inr (List.mem_filter.2 ⟨stage ▸ hy, hf⟩)) x hx ?_
    simp [GroupRec.has, hp, hi]
  · rw [expiredOn_link] at hi
    subst hg
    simpa [GroupRec.defers] using (List.mem_filter.1 hi).2

theorem expiredOn_gos (m : Fin 4) : (w.expiredOn e g).GosSent m g.player g.id := by
  refine ⟨fun x hx hp hi => ?_, (expiredOn_holds m).deferred⟩
  rw [expiredOn_link, Link.expired] at hx
  dsimp only at hx
  rw [Link.removedAll_lists.1] at hx
  obtain ⟨hx, tags⟩ := Link.removedGos_gos hx
  by_contra hs
  exact tags x (List.mem_filter.2 ⟨hx, by simp [GroupRec.waits, hp, hi, hs]⟩) rfl

theorem expire_holds (m : Fin 4) : (w.expire e g).Holds m (Entry.leavesGroup g.player g.id)
    (Item.notGroup g.player g.id) := by
  have left := expiredOn_holds (w := w) (e := e) (g := g) m
  rw [expire_eq]
  generalize w.expiredOn e g = v at left
  exact (left.same (v := v.unrecorded g) rfl).tidy (kinds_leavesGroup _ _) e

theorem expire_gos (m : Fin 4) : (w.expire e g).GosSent m g.player g.id := by
  have left := expiredOn_gos (w := w) (e := e) (g := g) m
  rw [expire_eq]
  generalize w.expiredOn e g = v at left
  exact (GosSent.tidyKeeps m g.player g.id).tidy (left.same (v := v.unrecorded g) rfl) e

/-- With nothing of others deferred the tests and retries count nothing. -/
theorem expire_player (h : ∀ l, ∀ i ∈ (w.link l).deferred, g.defers i = true) (p : Fin 8) :
    (w.expire e g).player p = (w.expiredOn e g).player p := by
  have nothing : (w.expiredOn e g).undeferred := fun m => by
    rw [expiredOn_link, Link.expired]
    exact List.filter_eq_nil_iff.2 fun i hi => by simp [h m i hi]
  rw [expire_eq]
  generalize w.expiredOn e g = v at nothing
  exact (tidy_tidied (v.unrecorded g) e nothing).player p

end
end World
end Sys2Proof.Machine
end

section
/-! SUPPORT. The dispatcher's points (R123, R126): the send tick and the expiry point, and when they do nothing. -/

namespace Sys2Proof.Machine
namespace World

section
variable {w : World} {e : Env} {l : Fin 4} {p : Fin 8} {g : GroupRec} {now : Nat}

theorem sendTick_due : (w.link l).gos.any (Link.sendTickDue now) = true ↔
    ∃ g ∈ (w.link l).gos, g.ready = false ∧ g.send ≤ now := by
  simp [Link.sendTickDue]

/-! ## The oldest group past its expiry -/

theorem expired_iff : g.expired now = true ↔ g.due + 51 ≤ now := decide_eq_true_iff

theorem oldestExpired_first {front rest : List GroupRec} (hg : w.groups = front ++ g :: rest) (hp : g.player = p)
    (hd : g.due + 51 ≤ now) (hf : ∀ x ∈ front, x.player = p → now < x.due + 51) :
    w.oldestExpired now p = some g := by
  rw [oldestExpired, hg, List.find?_append, List.find?_eq_none.2, Option.none_or]
  · exact List.find?_cons_of_pos (by simp [hp, expired_iff.2 hd])
  · intro x hx test
    rw [Bool.and_eq_true, beq_iff_eq, expired_iff] at test
    exact Nat.not_le.2 (hf x hx test.1) test.2

theorem oldestExpired_none (h : ∀ x ∈ w.groups, x.player = p → now < x.due + 51) :
    w.oldestExpired now p = none := by
  refine List.find?_eq_none.2 fun x hx test => ?_
  rw [Bool.and_eq_true, beq_iff_eq, expired_iff] at test
  exact Nat.not_le.2 (h x hx test.1) test.2

/-! ## The expiry, as the claim counts it -/

/-- The members that a deferred item holds for the group. -/
def membersFor (g : GroupRec) (i : Item) : List Member :=
  match i with
  | .group q id _ ms => if q = g.player ∧ id = g.id then ms else []
  | .single .. => []

theorem waiting_eq : w.waiting g l = (w.link l).deferred.flatMap (membersFor g) := by
  rw [waiting]
  induction (w.link l).deferred with
  | nil => rfl
  | cons i is ih =>
    rw [List.flatMap_cons, ← ih]
    cases i with
    | single => rfl
    | group q id due ms =>
      by_cases h : q = g.player ∧ id = g.id <;> simp [GroupRec.defers, membersFor, Item.members, h]

/-- An entry of the group not on its way out. -/
def mineOf (g : GroupRec) (x : Entry) : Prop :=
  x.player = some g.player ∧ x.group = some g.id ∧ x.dropping = false

theorem has_iff {x : Entry} : g.has x = true ↔ x.player = some g.player ∧ x.group = some g.id := by
  simp [GroupRec.has]

theorem lostOn_eq (mine : Entry → Bool) (h : ∀ x, mine x = true ↔ mineOf g x) :
    w.lostOn g l = (w.link l).stage.countP mine + ((w.link l).deferred.flatMap (membersFor g)).length := by
  rw [lostOn, waiting_eq]
  refine congrArg (· + _) (List.countP_congr fun x _ => ?_)
  rw [h, Bool.and_eq_true, has_iff, Bool.not_eq_true', and_assoc]
  rfl

/-- The takes that the expiry loses, of all links. -/
def lost (w : World) (g : GroupRec) : Nat := w.lostOn g 0 + w.lostOn g 1 + w.lostOn g 2 + w.lostOn g 3

theorem expiredOn_counters (hf : (w.player g.player).state ≠ .free)
    (hc : (w.player g.player).counters.discarded ≤ 65535) :
    ((w.expiredOn e g).player g.player).counters = { (w.player g.player).counters with
      discarded := min 65535 ((w.player g.player).counters.discarded + w.lost g) } :=
  congrArg Player.counters (expiredOn_discards.counted hf hc)

theorem expire_raised (hf : (w.player g.player).state ≠ .free) (h : 0 < w.lost g) :
    ((w.expire e g).notices.get NoticeKind.lateTake.no).pending = true := by
  have raised := (expiredOn_discards (e := e)).raised hf h
  rw [expire_eq]
  generalize w.expiredOn e g = v at raised
  exact ((Kept.refl (v.unrecorded g)).tidy e).raised _ raised

/-- What the expiry makes of a link: its own entries by their state, the others kept, its waiting GOs REMOVED. -/
theorem expiredOn_entries :
    (∀ x ∈ (w.link l).stage, mineOf g x → (∀ y ∈ (w.link l).stage, y.ref = x.ref → y = x) →
      (x.state = .queued ∨ x.state = .late → ∀ y ∈ ((w.expiredOn e g).link l).stage, y.ref ≠ x.ref)
      ∧ (x.state = .sent ∨ x.state = .lateSent →
        { x with state := .dropping .discarded .awaitingReply } ∈ ((w.expiredOn e g).link l).stage)
      ∧ (x.state = .staged ∨ x.state = .lateStaged →
        { x with state := .dropping .discarded .dropPending } ∈ ((w.expiredOn e g).link l).stage
        ∧ ⟨false, x.addr, x.tag, x.ref⟩ ∈ ((w.expiredOn e g).link l).pending))
    ∧ (∀ y ∈ (w.link l).stage, ¬mineOf g y → (∀ x ∈ (w.link l).stage, mineOf g x → x.ref ≠ y.ref) →
      y ∈ ((w.expiredOn e g).link l).stage)
    ∧ ∀ o ∈ (w.link l).gos, o.player = g.player → o.id = g.id → o.sent = false →
      ∀ h, ((w.expiredOn e g).link l).tags.get o.tag = some h → h.go = .removed := by
  have stage : ((w.link l).unwaited g).stage = (w.link l).stage := Link.removedGos_lists.1
  rw [expiredOn_link]
  refine ⟨fun x hx hm only => ?_, fun y hy _ hr => ?_, fun o ho hp hi hs => ?_⟩
  · exact Link.removedAll_entry (stage ▸ hx) (List.mem_filter.2 ⟨hx, has_iff.2 ⟨hm.1, hm.2.1⟩⟩)
      fun y hy => only y (List.mem_filter.1 hy).1
  · refine Link.removedAll_stays (stage ▸ hy) fun x hx hd => ?_
    obtain ⟨hx, test⟩ := List.mem_filter.1 hx
    obtain ⟨player, group⟩ := has_iff.1 test
    exact hr x hx ⟨player, group, hd⟩
  · unfold Link.expired
    rw [Link.removedAll_lists.2.1]
    exact Link.removedGos_tag (.inl (List.mem_filter.2 ⟨ho, by simp [GroupRec.waits, hp, hi, hs]⟩))

end
end World

/-! ## The commands -/

section
variable {s : State} {l : Fin 4} {p : Fin 8}

/-- A due event whose change of the blocks is known. -/
theorem State.dueEvent_after_eq (due : State → Bool) (f : Env → World → World) {w : World} (h : s.held = false)
    (hd : due s = true) (hw : f s.env s.world = w) : ∃ t, s.dueEvent due f = .next t ∧ s.After w t :=
  hw ▸ State.dueEvent_after due f h hd

theorem exec_sendTick_due (hh : s.held = false) (h : s.reachOpen = true
      ∧ ∃ g ∈ (s.world.link l).gos, g.ready = false ∧ g.send ≤ s.time.civic) :
    ∃ t, exec (.sendTick l) s = .next t
      ∧ s.After (s.world.onLink l fun k => { k with gos := k.gos.map fun g =>
        { g with ready := g.ready || g.send ≤ s.time.civic } }) t := by
  rw [exec_sendTick, ← World.sendTicks_eq]
  refine State.dueEvent_after _ _ hh ?_
  rw [Bool.and_eq_true]
  exact ⟨h.1, World.sendTick_due.2 h.2⟩

theorem exec_sendTick_not_due (hh : s.held = false) (h : ¬(s.reachOpen = true
      ∧ ∃ g ∈ (s.world.link l).gos, g.ready = false ∧ g.send ≤ s.time.civic)) :
    exec (.sendTick l) s = .next s.choose := by
  rw [exec_sendTick]
  refine State.dueEvent_not_due _ _ hh (eq_false_of_ne_true fun hd => h ?_)
  rw [Bool.and_eq_true] at hd
  exact ⟨hd.1, World.sendTick_due.1 hd.2⟩

theorem exec_expiryPoint_due {g : GroupRec} (hh : s.held = false) (hr : s.reachOpen = true)
    (hg : s.world.oldestExpired s.env.now p = some g) :
    ∃ t, exec (.expiryPoint p) s = .next t ∧ s.After (s.world.expire s.env g) t := by
  rw [exec_expiryPoint]
  exact State.dueEvent_after_eq _ _ hh (by simp [hr, hg]) (by simp only [hg])

theorem exec_expiryPoint_not_due (hh : s.held = false)
    (h : s.reachOpen = false ∨ s.world.oldestExpired s.env.now p = none) :
    exec (.expiryPoint p) s = .next s.choose := by
  rw [exec_expiryPoint]
  refine State.dueEvent_not_due _ _ hh ?_
  rcases h with h | h <;> simp [h]

end
end Sys2Proof.Machine
end

section
/-! The dispatcher's portions sent, expired, rejoined, withdrawn and retried: obligation O38. -/

namespace Sys2Proof.Machine
namespace World

section
variable {w : World} {e : Env} {p : Fin 8} {z : Fin 64}

/-- The withdrawal of a player's takes for a zone, with nothing deferred: its own entries by their state. -/
theorem withdrawZone_entries (hu : w.undeferred) :
    let v := w.withdrawZone e p z
    let theirs (x : Entry) := x.player = some p ∧ x.addr = zoneAddr z
    v.players = w.players ∧ (∀ m, m ≠ zoneLink z → (v.link m).stage = (w.link m).stage)
      ∧ ∀ x ∈ (w.link (zoneLink z)).stage, (∀ y ∈ (w.link (zoneLink z)).stage, y.ref = x.ref → y = x) →
        (¬theirs x → x ∈ (v.link (zoneLink z)).stage)
        ∧ (theirs x →
          (x.state = .queued ∨ x.state = .late → ∀ y ∈ (v.link (zoneLink z)).stage, y.ref ≠ x.ref)
          ∧ (x.state = .sent ∨ x.state = .lateSent →
            { x with state := .dropping .withdrawn .awaitingReply } ∈ (v.link (zoneLink z)).stage)
          ∧ (x.state = .staged ∨ x.state = .lateStaged →
            { x with state := .dropping .withdrawn .dropPending } ∈ (v.link (zoneLink z)).stage
            ∧ ⟨false, x.addr, x.tag, x.ref⟩ ∈ (v.link (zoneLink z)).pending)) := by
  intro v theirs
  have tidied : (w.zoneWithdrawn p z).Tidied v := tidy_tidied _ e (zoneWithdrawn_undeferred hu)
  refine ⟨tidied.players.trans zoneWithdrawn_players, fun m hm => ?_, fun x hx only => ?_⟩
  · rw [tidied.stage, zoneWithdrawn_other hm.symm]
  · have entry := Link.removedAll_filter (stop := .withdrawn) (f := fun x => x.player == some p && x.addr == zoneAddr z)
      hx only
    have test : (x.player == some p && x.addr == zoneAddr z) = true ↔ theirs x := by simp [theirs]
    rw [tidied.stage, tidied.pending, zoneWithdrawn_link]
    rw [← Bool.not_eq_true] at entry
    rwa [test] at entry

/-- The withdrawal of a zone's take in flight, with nothing deferred: its own entries by their state. -/
theorem withdrawTake_entries {ref : Nat} {n : TakeKind} (ht : (w.zone z).take = some (ref, n)) (hu : w.undeferred) :
    let v := w.withdrawTake e z
    v.players = w.players ∧ (∀ m, m ≠ zoneLink z → (v.link m).stage = (w.link m).stage)
      ∧ ∀ x ∈ (w.link (zoneLink z)).stage, (∀ y ∈ (w.link (zoneLink z)).stage, y.ref = x.ref → y = x) →
        (x.ref ≠ ref → x ∈ (v.link (zoneLink z)).stage)
        ∧ (x.ref = ref →
          (x.state = .queued ∨ x.state = .late → ∀ y ∈ (v.link (zoneLink z)).stage, y.ref ≠ ref)
          ∧ (x.state = .sent ∨ x.state = .lateSent →
            { x with state := .dropping .withdrawn .awaitingReply } ∈ (v.link (zoneLink z)).stage)
          ∧ (x.state = .staged ∨ x.state = .lateStaged →
            { x with state := .dropping .withdrawn .dropPending } ∈ (v.link (zoneLink z)).stage
            ∧ ⟨false, x.addr, x.tag, x.ref⟩ ∈ (v.link (zoneLink z)).pending)) := by
  intro v
  have tidied : (w.takeWithdrawn (zoneLink z) ref).Tidied v := by
    rw [show v = _ from withdrawTake_some w e ht]
    exact tidy_tidied _ e (takeWithdrawn_undeferred w _ ref hu)
  refine ⟨tidied.players.trans (takeWithdrawn_players ref), fun m hm => ?_, fun x hx only => ?_⟩
  · rw [tidied.stage, takeWithdrawn_other ref hm.symm]
  · obtain ⟨others, own⟩ := Link.removedAll_filter (stop := .withdrawn) (f := (·.ref == ref)) hx only
    rw [tidied.stage, tidied.pending, takeWithdrawn_link]
    refine ⟨fun hr => others (by simpa using hr), ?_⟩
    rintro rfl
    exact own (by simp)

end

section
variable (w : World) (e : Env)

/-- A group handed on: its undeliverable takes counted, its portions placed, or all of it lost past its expiry. -/
theorem takeGroup_placed (p : Fin 8) (id : GroupId) (due : Nat) (cues : List CueItem) :
    let zones := groupZones cues
    let counted := w.each (zones.filter fun z => w.judge p z.1 == .undeliverable) fun _ v =>
      v.count p Counters.addUndeliverable
    (∀ z, (w.judge p z = .shadowed ↔ w.owner z ≠ some p)
      ∧ (w.judge p z = .undeliverable ↔ w.owner z = some p ∧ w.deliverable z = false)
      ∧ (w.judge p z = .member ↔ w.owner z = some p ∧ w.deliverable z = true))
    ∧ (∀ l m, m ∈ w.membersOn l p cues ↔ ∃ z ∈ zones, zoneLink z.1 = l ∧ w.judge p z.1 = .member
      ∧ m = ⟨zoneAddr z.1, z.2⟩)
    ∧ ((w.player p).state ≠ .free → (w.player p).counters.undeliverable ≤ 65535 →
      (counted.player p).counters = { (w.player p).counters with
        undeliverable := min 65535 ((w.player p).counters.undeliverable
          + zones.countP fun z => w.judge p z.1 == .undeliverable) })
    ∧ (e.now < due + 51 → w.takeGroup e p id due cues =
      ((({ counted with
          groups := w.groups ++ [(⟨p, id, due, cues, Tab.fill 4 [.vacant]⟩ : GroupRec)] } : World).each (upTo 4)
        fun l v => v.placePortion e l p id due (v.membersOn l p cues)).tidy e))
    ∧ (due + 51 ≤ e.now → w.takeGroup e p id due cues =
      counted.each (zones.filter fun z => w.judge p z.1 == .member) fun _ v =>
        v.countTake e (some p) Counters.addDiscarded) := by
  intro zones counted
  have groups : counted.groups = w.groups := countUndeliverable_groups _
  refine ⟨fun z => ⟨judge_shadowed, judge_undeliverable, judge_member_iff⟩, fun l m => mem_membersOn,
    fun hf hc => ?_, fun h => ?_, fun h => if_pos h⟩
  · rw [List.countP_eq_length_filter]
    exact congrArg Player.counters (countUndeliverable_player _ hf hc)
  · rw [← groups]
    exact if_neg (Nat.not_le.2 h)

/-- A rejoin of a portion under a tag whose GO is listed. -/
theorem rejoinGroup_listed (z : Fin 64) (p : Fin 8) (g : GroupRec) (look : LookCopy) {t : Fin 15} {h : TagHold}
    {o : GoEntry} (hg : (g.portions.get (zoneLink z)).getLast? = some (.held t))
    (ht : (w.link (zoneLink z)).tags.get t = some h)
    (ho : (w.link (zoneLink z)).gos.find? (fun x => x.tag == t) = some o) :
    let l := zoneLink z
    let k := w.link l
    let v := w.rejoinGroup e z p g look
    (h.go ≠ .removed → 48 ≤ k.stage.length → v = w.countTake e (some p) Counters.addDiscarded)
    ∧ (h.go ≠ .removed → k.stage.length < 48 →
      (∀ x ∈ k.stage, x.player = some p → x.state ≠ .late ∧ x.state ≠ .lateSent ∧ x.state ≠ .lateStaged) →
      (v.link l).stage = insertBy Entry.before ⟨w.nextRef, zoneAddr z, some p, some g.id, t.val + 1,
          look, o.lead - (w.zone z).lead, g.due, if h.go = .pending then .queued else .late, .clear⟩ k.stage
      ∧ (v.link l).deferred = k.deferred ∧ (v.link l).gos = k.gos) := by
  intro l k v
  have held := (rejoinGroup_held (e := e) (p := p) (look := look) hg ht).2 o ho
  refine ⟨fun hr full => ?_, fun hr room unlate => ?_⟩
  · rw [show v = _ from held hr, if_neg]
    rw [room_iff]
    exact Nat.not_le.2 (Nat.lt_succ_of_le full)
  · rw [show v = _ from held hr, if_pos (room_iff.2 room), addMember_link unlate, memberEntry, zoneAt_zone]
    exact ⟨rfl, rfl, rfl⟩

/-- The withdrawal of a player's takes for a zone. -/
theorem withdrawZone_withdrawn (p : Fin 8) (z : Fin 64) :
    let l := zoneLink z
    let a := zoneAddr z
    let v := w.withdrawZone e p z
    (∀ y ∈ (v.link l).stage, y.player = some p ∧ y.addr = a → y.dropping = true)
    ∧ (∀ id due ms, Item.group p id due ms ∈ (v.link l).deferred → ∀ m ∈ ms, m.addr ≠ a)
    ∧ (∀ ref look due, Item.single ref a (some p) look due ∉ (v.link l).deferred)
    ∧ ∀ y, (v.zone y).committed = (w.zone y).committed := by
  intro l a v
  have left : v.Holds l (leavesZone p a) (notZone p a) := zoneWithdrawn_holds.tidy (kinds_leavesZone p a) e
  refine ⟨fun y hy ht => left.stage y hy ht.1 ht.2, fun id due ms hi => (left.deferred _ hi).1 id due ms rfl,
    fun ref look due hi => (left.deferred _ hi).2 ref look due rfl, ?_⟩
  exact (zoneWithdrawn_reported.trans ((Reported.refl _).tidy e)).committed

/-- The withdrawal of a zone's individual take in flight. -/
theorem withdrawTake_withdrawn (z : Fin 64) {ref : Nat} {n : TakeKind} (ht : (w.zone z).take = some (ref, n)) :
    let l := zoneLink z
    let v := w.withdrawTake e z
    (∀ y ∈ (v.link l).stage, y.group = none → y.ref = ref → y.dropping = true)
    ∧ (∀ a q look due, Item.single ref a q look due ∉ (v.link l).deferred)
    ∧ ((∃ x ∈ (w.link l).stage, x.ref = ref ∧ x.addr = zoneAddr z ∧ (x.state = .queued ∨ x.state = .late))
        ∨ (∃ q look due, Item.single ref (zoneAddr z) q look due ∈ (w.link l).deferred) →
      (v.zone z).take = none)
    ∧ ∀ y, (v.zone y).committed = (w.zone y).committed := by
  intro l v
  have tidied : v = (w.takeWithdrawn l ref).tidy e := withdrawTake_some w e ht
  have left : v.Holds l (leavesRef ref) (notRef ref) :=
    tidied ▸ (takeWithdrawn_holds ref).tidy (kinds_leavesRef ref) e
  have reported : (w.takeWithdrawn l ref).Reported v := tidied ▸ (Reported.refl _).tidy e
  refine ⟨left.stage, fun a q look due hi => left.deferred _ hi a q look due rfl, fun h => ?_,
    ((takeWithdrawn_reported ref).trans reported).committed⟩
  have none := takeWithdrawn_take ht h
  rcases reported.take z with hk | hk
  · exact hk.trans none
  · exact hk

/-- The tests of a tag, with what they do written out. -/
theorem closeTag_tests (l : Fin 4) (t : Fin 15) :
    let carried := (w.link l).stage.filter fun x => x.tag == t.val + 1
    let keeps (x : Entry) := ∀ stop, x.state ≠ .dropping stop .awaitingReply
      ∧ x.state ≠ .dropping stop .dropSent
    let removed := w.onLink l (Link.removeGo t)
    ((w.link l).tags.get t = none → w.closeTag l t = w)
    ∧ ∀ h, (w.link l).tags.get t = some h →
      let gone := h.go = .pending ∧ ∀ x ∈ carried, ¬keeps x
      (gone → carried = [] → w.closeTag l t = removed.tagFreed l t h)
      ∧ (gone → carried ≠ [] → w.closeTag l t = removed)
      ∧ (¬gone → h.go ≠ .pending → carried = [] → w.closeTag l t = w.tagFreed l t h)
      ∧ (¬gone → h.go = .pending ∨ carried ≠ [] → w.closeTag l t = w) := by
  intro carried keeps removed
  refine ⟨closeTag_free, fun h ht => ?_⟩
  have used := closeTag_used ht
  simp only [← Bool.not_eq_true, keepsGo_iff] at used
  exact used

/-- The head of a deferred list made where it fits. -/
theorem makeHead_made (l : Fin 4) :
    let k := w.link l
    (k.deferred = [] → w.makeHead e l = none)
    ∧ (∀ ref a p look due rest, k.deferred = .single ref a p look due :: rest →
      (48 ≤ k.stage.length → w.makeHead e l = none)
      ∧ (k.stage.length < 48 → w.makeHead e l = some ((w.beheaded l rest).addEntry e l
        ⟨ref, a, p, none, 0, look, 0, due, .queued, .clear⟩)))
    ∧ ∀ p id due ms rest, k.deferred = .group p id due ms :: rest →
      ((∀ t, k.tags.get t ≠ none) ∨ 48 < k.stage.length + ms.length → w.makeHead e l = none)
      ∧ ∀ t, k.tags.get t = none → (∀ u < t, k.tags.get u ≠ none) → k.stage.length + ms.length ≤ 48 →
        let still := ms.filter fun m => w.judge p (zoneAt l m.addr) == .member
        let counted := (w.beheaded l rest).each
          (ms.filter fun m => w.judge p (zoneAt l m.addr) == .undeliverable) fun _ v =>
            v.count p Counters.addUndeliverable
        (still ≠ [] → w.makeHead e l = some (counted.makePortion e l p id due still t))
        ∧ (still = [] → w.makeHead e l = some (counted.dropDeferred l p id)) := by
  intro k
  refine ⟨makeHead_none, fun ref a p look due rest hd => ⟨fun full => ?_, fun room => ?_⟩,
    fun p id due ms rest hd => ⟨makeHead_group_none hd, fun t ht hb room => ?_⟩⟩
  · rw [makeHead_single hd, if_neg]
    rw [room_iff]
    exact Nat.not_le.2 (Nat.lt_succ_of_le full)
  · rw [makeHead_single hd, if_pos (room_iff.2 room)]
  · intro still counted
    have made : w.makeHead e l = some (if still.isEmpty then counted.dropDeferred l p id
        else counted.makePortion e l p id due still t) := makeHead_group hd (freeTag_some ht hb) room
    refine ⟨fun hs => ?_, fun hs => ?_⟩
    · rw [made, if_neg (mt List.isEmpty_iff.1 hs)]
    · rw [made, if_pos (List.isEmpty_iff.2 hs)]

end

/-! ## The expiry -/

theorem dropping_stages {x : Entry} (h : x.dropping = true) : ∃ stop stage, x.state = .dropping stop stage := by
  unfold Entry.dropping at h
  split at h
  · next hs => exact ⟨_, _, hs⟩
  · cases h

end World

/-- Settles O38: the dispatcher's steps are equations of the model or follow from what they do to one link's lists;
an expiry and a withdrawal are runs of removals on a link's own lists, and the tests and retries that follow keep what
they leave. -/
theorem portionsSentAndExpired : Obligations.PortionsSentAndExpired := by
  refine ⟨fun w e => ⟨w.placeSingle_placed e, w.placePortion_placed e⟩,
    fun s hh => ⟨fun l => ⟨exec_sendTick_due hh, exec_sendTick_not_due hh⟩, fun p => ⟨?_, ?_⟩⟩,
    World.takeGroup_placed, ?_, fun _ _ _ _ _ => rfl, fun w l x => w.withdrawEntry_entry l x,
    fun w e p id => (w.withdrawGroup_gone e p id).parts, ?_, ?_, World.supersede_entries,
    fun _ _ _ _ _ _ _ _ _ _ => rfl, fun w e l x => ⟨w.addEntry_full e l, w.addEntry_room e l⟩,
    World.closeTag_tests, World.makeHead_made, fun _ _ _ _ _ _ _ _ => rfl, ?_⟩
  · rintro front rest g hr hg rfl hd hf
    intro w settled mine waiting lost n
    have lostAt (l : Fin 4) : lost l = s.world.lostOn g l :=
      (World.lostOn_eq (fun x => decide (mine x)) fun x => decide_eq_true_iff (p := mine x)).symm
    have total : n = s.world.lost g := by
      simp only [n, lostAt, World.lost]
    refine ⟨exec_expiryPoint_due hh hr (World.oldestExpired_first hg rfl hd hf), (World.Kept.refl _).expire _ g, rfl,
      fun hf hc => ?_, ?_, fun only => ?_, fun l => ?_, ?_, fun l => ⟨?_, ?_⟩⟩
    · rw [total]
      exact ⟨World.expiredOn_counters hf hc, World.expire_raised hf⟩
    · exact World.expiredOn_discards.free
    · refine World.expire_player (fun l i hi => ?_) _
      obtain ⟨due, ms, rfl⟩ := only l i hi
      simp [GroupRec.defers]
    · obtain ⟨own, others, gos⟩ := World.expiredOn_entries (w := s.world) (e := s.env) (g := g) (l := l)
      exact ⟨own, others, gos, fun due ms hi => (World.expire_gos l).deferred _ hi due ms rfl⟩
    · exact World.expire_records (w := s.world) (e := s.env) (g := g)
    · exact (World.expire_gos l).gos
    · exact fun x hx hp hi => World.dropping_stages ((World.expire_holds l).stage x hx hp hi)
  · exact fun h => exec_expiryPoint_not_due hh (h.imp_right World.oldestExpired_none)
  · refine fun w e z p g look => ⟨World.rejoinGroup_deferred, fun t h hg ht hr =>
      (World.rejoinGroup_held hg ht).1 hr, fun t h o => w.rejoinGroup_listed e z p g look, World.rejoinGroup_fresh⟩
  · intro w e p z l a k v theirs settled
    obtain ⟨entries, groups, singles, committed⟩ := w.withdrawZone_withdrawn e p z
    obtain ⟨undeferring, taken⟩ := World.zoneWithdrawn_items (w := w) (p := p) (z := z)
    exact ⟨World.withdrawZone_eq, congrArg Link.deferred World.zoneWithdrawn_link, undeferring, taken, entries,
      groups, singles, committed, World.withdrawZone_entries⟩
  · intro w e z l k v
    refine ⟨World.withdrawTake_none w e, fun ref n ht => ?_⟩
    obtain ⟨entries, items, taken, committed⟩ := w.withdrawTake_withdrawn e z ht
    exact ⟨entries, items, taken, committed, World.withdrawTake_entries ht⟩
  · intro w e l n closed owed
    exact ⟨rfl, World.retryLink_quiet n, World.retryLink_stuck n, fun v => World.retryLink_made n,
      World.retryLink_settles _ (Nat.lt_succ_self _)⟩

end Sys2Proof.Machine
end

section
/-! SUPPORT. The frame an idle wire is given (R143, R144), order by order: the GO or the pending item, the STAGE, the
refresh and the poll, and the turns of a scan, a calibration and a quiescing. -/

namespace Sys2Proof.Machine

/-! ## What a rule asks of a driver, an entry or an address -/

/-- READY or BUSY. -/
def Driver.awake (d : Driver) : Prop := d.state = .ready ∨ d.state = .busy

theorem Driver.deliverable_iff {d : Driver} : d.deliverable = true ↔ d.awake := by
  simp [deliverable, awake]

theorem Driver.refreshDue_iff {d : Driver} : d.refreshDue = true ↔
    d.state = .ready ∧ ∃ r, d.refresh = some r ∧ r ≤ d.quiet := by
  cases hr : d.refresh <;> simp [refreshDue, hr]

theorem Link.answering_eq_zero {k : Link} : k.answering = 0 ↔ ∀ a, ¬(k.drivers.get a).awake := by
  have some_ := Tab.any_iff k.drivers Driver.deliverable
  rw [Link.answering, List.countP_eq_zero]
  constructor
  · intro h a ha
    obtain ⟨d, hd, live⟩ := List.any_eq_true.1 (some_.2 ⟨a, Driver.deliverable_iff.2 ha⟩)
    exact h d hd live
  · intro h d hd live
    obtain ⟨a, ha⟩ := some_.1 (List.any_eq_true.2 ⟨d, hd, live⟩)
    exact h a (Driver.deliverable_iff.1 ha)

theorem Link.calLeft_iff {k : Link} {c : CalPos} : k.calLeft c = true ↔
    ∃ a : Fin 16, c.addr ≤ a.val ∧ (k.drivers.get a).awake := by
  simp [Link.calLeft, Driver.deliverable_iff]

theorem Link.quiesced_iff {k : Link} : k.quiesced = true ↔ k.state = .quiescing
    ∧ (∀ a, ¬(k.drivers.get a).awake) ∧ k.forceOwed = false ∧ k.wakeOwed = false := by
  rw [← Link.answering_eq_zero]
  simp [Link.quiesced, and_assoc]

/-- A GO that may be broadcast (R123, R143). -/
def GoEntry.waits (g : GoEntry) : Prop := g.ready = true ∧ g.sent = false

/-- An entry whose STAGE may be sent (R121, R143). -/
def Link.stageable (k : Link) (x : Entry) : Prop := (x.state = .queued ∨ x.state = .late) ∧ x.backoff = .clear
  ∧ (x.tag = 0 → ∀ y ∈ k.stage, y.tag = 0 → y.addr = x.addr → y.ref ≠ x.ref →
    y.state ≠ .sent ∧ y.state ≠ .staged ∧ y.dropping = false)
  ∧ (k.drivers.get x.addr).state = .ready ∧ 0 < (k.drivers.get x.addr).credits

theorem Link.eligible_iff {k : Link} {x : Entry} : k.eligible x = true ↔
    (x.state = .queued ∨ x.state = .late) ∧ x.backoff = .clear
      ∧ (x.tag = 0 → ∀ y ∈ k.stage, y.tag = 0 → y.addr = x.addr → y.ref ≠ x.ref →
        y.state ≠ .sent ∧ y.state ≠ .staged ∧ y.dropping = false) := by
  simp only [Link.eligible, Bool.and_eq_true, Bool.or_eq_true, beq_iff_eq, bne_iff_ne, ne_eq, Bool.not_eq_true',
    List.any_eq_false, not_and, not_or, Bool.not_eq_true, and_assoc, imp_iff_not_or]

/-- A first element that passes a test is found. -/
theorem find?_first {α : Type} {f : α → Bool} {P : α → Prop} (hf : ∀ x, f x = true ↔ P x)
    {front rest : List α} {x : α} (hx : P x) (hb : ∀ y ∈ front, ¬P y) :
    (front ++ x :: rest).find? f = some x := by
  rw [List.find?_eq_some_iff_append]
  exact ⟨(hf x).2 hx, front, rest, rfl, fun y hy => by simpa using mt (hf y).1 (hb y hy)⟩

theorem find?_none {α : Type} {f : α → Bool} {P : α → Prop} (hf : ∀ x, f x = true ↔ P x) {xs : List α}
    (hb : ∀ y ∈ xs, ¬P y) : xs.find? f = none := by
  rw [List.find?_eq_none]
  exact fun y hy => mt (hf y).1 (hb y hy)

/-- The test of an entry whose STAGE goes next. -/
theorem Link.stageable_iff {k : Link} {x : Entry} : (k.eligible x && (k.drivers.get x.addr).state == .ready
    && 0 < (k.drivers.get x.addr).credits) = true ↔ k.stageable x := by
  simp [Link.eligible_iff, Link.stageable, and_assoc]

theorem Link.nextStage_first {k : Link} {front rest : List Entry} {x : Entry} (hk : k.stage = front ++ x :: rest)
    (hx : k.stageable x) (hb : ∀ y ∈ front, ¬k.stageable y) : k.nextStage = some x := by
  rw [Link.nextStage, hk]
  exact find?_first (fun _ => Link.stageable_iff) hx hb

theorem Link.nextStage_none {k : Link} (h : ∀ y ∈ k.stage, ¬k.stageable y) : k.nextStage = none :=
  find?_none (fun _ => Link.stageable_iff) h

namespace World

/-- The first index that is given a value, with none before it. -/
theorem findSome?_upTo {α : Type} {n : Nat} {f : Fin n → Option α} {t : Fin n} {x : α} (ht : f t = some x)
    (hb : ∀ u < t, f u = none) : (upTo n).findSome? f = some x := by
  have found : (upTo n).find? (fun u => (f u).isSome) = some t :=
    find?_upTo (by rw [ht]; rfl) fun u hu => by rw [hb u hu]; rfl
  obtain ⟨-, front, rest, split, before⟩ := List.find?_eq_some_iff_append.1 found
  rw [split, List.findSome?_append, List.findSome?_cons, ht, List.findSome?_eq_none_iff.2]
  · rfl
  · exact fun u hu => by simpa using before u hu

section
variable {w : World} {e : Env} {l : Fin 4} {a : Fin 16}

theorem not_restartWake (h : w.ctl.restartWake.get l ≠ true) : w.restartWake l = none := if_neg h

/-! ## A GO, and what pends (orders 1 and 2) -/

theorem sendGoOrPending_go {front rest : List GoEntry} {g : GoEntry} (hk : (w.link l).gos = front ++ g :: rest)
    (hg : g.waits) (hb : ∀ x ∈ front, ¬x.waits) : w.sendGoOrPending l = some (w.startBroadcast l (.go g.tag)) := by
  have found : (w.link l).gos.find? (fun g => g.ready && !g.sent) = some g := by
    rw [hk]
    exact find?_first (fun x => by simp [GoEntry.waits]) hg hb
  unfold sendGoOrPending
  dsimp only
  rw [found]

/-- No GO waits. -/
def noGo (l : Fin 4) (w : World) : Prop := ∀ g ∈ (w.link l).gos, ¬g.waits

theorem noGo_find (h : w.noGo l) : (w.link l).gos.find? (fun g => g.ready && !g.sent) = none :=
  find?_none (fun x => by simp [GoEntry.waits]) h

theorem sendGoOrPending_pending {i : PendingItem} {rest : List PendingItem} (h : w.noGo l)
    (hp : (w.link l).pending = i :: rest) : w.sendGoOrPending l =
      some ((w.onLink l fun k => { k with pending := rest }).startTransfer l
        (if i.isTake then .take i.ref i.tag else .drop i.ref i.tag) i.addr) := by
  unfold sendGoOrPending
  dsimp only
  rw [noGo_find h, hp]

theorem sendGoOrPending_none (h : w.noGo l) (hp : (w.link l).pending = []) : w.sendGoOrPending l = none := by
  unfold sendGoOrPending
  dsimp only
  rw [noGo_find h, hp]

/-! ## A STAGE (order 3) -/

theorem sendStage_next {x : Entry} (h : (w.link l).nextStage = some x) :
    w.sendStage l = some (w.startTransfer l (.stage x.ref x.tag x.look.val x.hold) x.addr) := by
  rw [sendStage, h]
  rfl

theorem sendStage_none (h : (w.link l).nextStage = none) : w.sendStage l = none := by
  rw [sendStage, h]
  rfl

/-! ## A refresh and the poll of a lost driver (orders 4 and 5) -/

/-- A driver whose zone's look may be refreshed (R148). -/
def refreshable (w : World) (l : Fin 4) (a : Fin 16) : Prop :=
  (w.driver l a).refreshDue = true ∧ (w.zone (zoneAt l a)).committed ≠ none

theorem refreshable_iff : w.refreshable l a ↔ (w.driver l a).state = .ready
    ∧ (∃ r, (w.driver l a).refresh = some r ∧ r ≤ (w.driver l a).quiet)
    ∧ (w.zone (zoneAt l a)).committed ≠ none := by
  rw [refreshable, Driver.refreshDue_iff, and_assoc]

/-- What a refresh of an address would be. -/
theorem refresh_none (h : ¬w.refreshable l a) : (if (w.driver l a).refreshDue then
    (w.zone (zoneAt l a)).committed.map fun look => w.startTransfer l (.refresh look.val) a else none) = none := by
  split
  · next hd => rw [not_not.1 fun hc => h ⟨hd, hc⟩]; rfl
  · rfl

theorem sendRefresh_first {look : LookCopy} (h : w.refreshable l a) (hb : ∀ b < a, ¬w.refreshable l b)
    (hl : (w.zone (zoneAt l a)).committed = some look) :
    w.sendRefresh l = some (w.startTransfer l (.refresh look.val) a) :=
  findSome?_upTo (by rw [if_pos h.1, hl]; rfl) fun b hlt => refresh_none (hb b hlt)

theorem sendRefresh_none (h : ∀ a, ¬w.refreshable l a) : w.sendRefresh l = none :=
  List.findSome?_eq_none_iff.2 fun a _ => refresh_none (h a)

theorem lostPollDue_iff : w.lostPollDue l a = true ↔ (w.zone (zoneAt l a)).configured = true
    ∧ ((w.driver l a).state = .unresponsive ∨ (w.driver l a).state = .absent) ∧ 100 ≤ (w.driver l a).poll := by
  simp [lostPollDue, configured, and_assoc]

theorem sendPoll_first (h : w.lostPollDue l a = true) (hb : ∀ b < a, w.lostPollDue l b = false) :
    w.sendPoll l = some (w.startTransfer l (.poll true false) a) := by
  rw [sendPoll, find?_upTo h hb]
  rfl

theorem sendPoll_none (h : ∀ a, w.lostPollDue l a ≠ true) : w.sendPoll l = none := by
  rw [sendPoll, List.find?_eq_none.2 fun a _ => h a]
  rfl

/-! ## A scan's turn (R149) -/

/-- An address that a scan has still to poll. -/
def toScan (w : World) (l : Fin 4) (a : Fin 16) : Prop :=
  (w.link l).scanPos.getD 0 ≤ a.val ∧ (w.zone (zoneAt l a)).configured = true

theorem scanAddr_test : (decide ((w.link l).scanPos.getD 0 ≤ a.val) && w.configured l a) = true ↔ w.toScan l a := by
  simp [toScan, configured]

theorem scanAddr_first (h : w.toScan l a) (hb : ∀ b < a, ¬w.toScan l b) : w.scanAddr l = some a :=
  find?_upTo (scanAddr_test.2 h) fun b hlt => by simpa using mt scanAddr_test.1 (hb b hlt)

theorem scanAddr_none : w.scanAddr l = none ↔ ∀ a, ¬w.toScan l a := by
  rw [scanAddr, List.find?_eq_none]
  exact ⟨fun h a => mt scanAddr_test.2 (h a (List.mem_finRange a)), fun h a _ => mt scanAddr_test.1 (h a)⟩

theorem scanTurn_moves (h : w.scanAddr l = some a) (hp : (w.link l).scanPos ≠ some a.val) :
    w.scanTurn l = some (w.onLink l fun k => { k with scanPos := some a.val }) := by
  rw [scanTurn, h]
  exact if_pos hp

theorem scanTurn_waits (h : w.scanAddr l = some a) (hp : (w.link l).scanPos = some a.val)
    (hb : (w.driver l a).state = .busy) : w.scanTurn l = none := by
  rw [scanTurn, h]
  exact (if_neg (not_not.2 hp)).trans (if_pos hb)

theorem scanTurn_polls (h : w.scanAddr l = some a) (hp : (w.link l).scanPos = some a.val)
    (hb : (w.driver l a).state ≠ .busy) :
    w.scanTurn l = some (w.startTransfer l (.poll (w.driver l a).lost true) a) := by
  rw [scanTurn, h]
  exact (if_neg (not_not.2 hp)).trans (if_neg hb)

/-! ## A calibration's turn (R152, R153) -/

section
variable {c : CalPos} (hc : (w.link l).cal = some c) (ha : c.addr = a.val)
include hc ha

theorem calTurn_probes (h : (w.driver l a).state = .ready) : w.calTurn l =
    some ((w.onLink l fun k => { k with cal := some { c with probing := true } }).startTransfer l
      (.probe c.count) a) := by
  simp only [calTurn, hc, index?_eq_some.2 ha.symm, h]

theorem calTurn_waits (h : (w.driver l a).state = .busy) : w.calTurn l = none := by
  simp only [calTurn, hc, index?_eq_some.2 ha.symm, h]

theorem calTurn_passes (h : ¬(w.driver l a).awake) : w.calTurn l =
    some (w.onLink l fun k => { k with cal := some ⟨c.addr + 1, 0, 0, c.measured, false⟩ }) := by
  simp only [calTurn, hc, index?_eq_some.2 ha.symm]
  cases hs : (w.driver l a).state with
  | ready => exact absurd (.inl hs) h
  | busy => exact absurd (.inr hs) h
  | absent | unresponsive | asleep => rfl

end

/-! ## A quiescing link's turn (R155) -/

/-- A driver whose one SLEEP may be sent. -/
def sleepable (w : World) (l : Fin 4) (a : Fin 16) : Prop :=
  (w.driver l a).awake ∧ (w.driver l a).sleepTried = false ∧ ∀ x ∈ (w.link l).stage, x.addr ≠ a

theorem quiesceTurn_test : (((w.link l).drivers.get a).deliverable && !((w.link l).drivers.get a).sleepTried
    && !(w.link l).stage.any (·.addr == a)) = true ↔ w.sleepable l a := by
  simp [sleepable, Driver.deliverable_iff, driver, and_assoc]

theorem quiesceTurn_first (h : w.sleepable l a) (hb : ∀ b < a, ¬w.sleepable l b) : w.quiesceTurn l =
    some ((w.onDriver l a fun d => { d with sleepTried := true }).startTransfer l .sleep a) :=
  congrArg (Option.map _) (find?_upTo (quiesceTurn_test.2 h) fun b hlt => by
    simpa using mt quiesceTurn_test.1 (hb b hlt))

theorem quiesceTurn_none (h : ∀ a, ¬w.sleepable l a) : w.quiesceTurn l = none :=
  congrArg (Option.map _) (List.find?_eq_none.2 fun a _ => mt quiesceTurn_test.1 (h a))

end
end World

end Sys2Proof.Machine
end

section
/-! SUPPORT. What a link does next (R143, R144): the ends of scans, calibrations and quiescings, a FORCE or a WAKE
owed, and the choice of a frame in each state. -/

namespace Sys2Proof.Machine
namespace World

section
variable {w v : World} {e : Env} {l : Fin 4} {a : Fin 16}

/-! ## Long operations at their ends (R149, R153) -/

theorem longOpOver_scanning (hs : (w.link l).state = .scanning) : w.longOpOver l =
    if (w.scanAddr l).isNone then some ⟨true, .complete, (w.link l).answering⟩ else none := by
  simp only [longOpOver, hs]

theorem longOpOver_calibrating {c : CalPos} (hs : (w.link l).state = .calibrating) (hc : (w.link l).cal = some c) :
    w.longOpOver l = if (w.link l).calLeft c then none else some ⟨false, .complete, c.measured⟩ := by
  simp only [longOpOver, hs, hc]

theorem longOpOver_other (hs : (w.link l).state ≠ .scanning) (hc : (w.link l).state ≠ .calibrating) :
    w.longOpOver l = none := by
  cases h : (w.link l).state with
  | scanning => exact absurd h hs
  | calibrating => exact absurd h hc
  | off | warming | up | quiescing | asleep | faulted => simp only [longOpOver, h]

/-- A scan has an address left, and a calibration a READY or BUSY driver. -/
def goesOn (l : Fin 4) (w : World) : Prop := ((w.link l).state = .scanning → ∃ a, w.toScan l a)
  ∧ ((w.link l).state = .calibrating → ∀ c, (w.link l).cal = some c →
    ∃ a : Fin 16, c.addr ≤ a.val ∧ (w.driver l a).awake)

theorem longOpOver_none (h : w.goesOn l) : w.longOpOver l = none := by
  by_cases hs : (w.link l).state = .scanning
  · obtain ⟨a, ha⟩ := h.1 hs
    rw [longOpOver_scanning hs, if_neg]
    rw [Option.isNone_iff_eq_none, scanAddr_none]
    exact fun hn => hn a ha
  by_cases hc : (w.link l).state = .calibrating
  · cases hp : (w.link l).cal with
    | none => simp only [longOpOver, hc, hp]
    | some c => rw [longOpOver_calibrating hc hp, if_pos (Link.calLeft_iff.2 (h.2 hc c hp))]
  exact longOpOver_other hs hc

theorem choose_over {op : LongOp} (h : w.longOpOver l = some op) :
    w.choose e l = some ((w.endLongOp e l op).comeUp e l) := by
  rw [choose, h]

theorem choose_scanned (hs : (w.link l).state = .scanning) (h : ∀ a, ¬w.toScan l a) : w.choose e l =
    some ((w.endLongOp e l ⟨true, .complete, (w.link l).answering⟩).comeUp e l) :=
  choose_over (by rw [longOpOver_scanning hs, scanAddr_none.2 h]; rfl)

theorem choose_calibrated {c : CalPos} (hs : (w.link l).state = .calibrating) (hc : (w.link l).cal = some c)
    (h : ∀ a : Fin 16, c.addr ≤ a.val → ¬(w.driver l a).awake) :
    w.choose e l = some ((w.endLongOp e l ⟨false, .complete, c.measured⟩).comeUp e l) := by
  refine choose_over ((longOpOver_calibrating hs hc).trans (if_neg fun hl => ?_))
  obtain ⟨a, hle, ha⟩ := Link.calLeft_iff.1 hl
  exact h a hle ha

theorem choose_quiesced (h : (w.link l).quiesced = true) : w.choose e l = some (w.linkAsleep e l) := by
  have state := (Link.quiesced_iff.1 h).1
  rw [choose, longOpOver_other (by rw [state]; decide) (by rw [state]; decide)]
  exact if_pos h

/-! ## What is owed goes first (R155, R156) -/

/-- Nothing is on the link's wire. -/
def silent (l : Fin 4) (w : World) : Prop := (w.link l).transfer = none ∧ (w.link l).bcast = none

theorem silent_iff : w.silent l ↔ (w.link l).wireIdle = true := by simp [silent, Link.wireIdle]

theorem chooseFrame_force (h : w.silent l) (hf : (w.link l).forceOwed = true) :
    w.chooseFrame e l = some (w.slept e l) := by
  rw [← sendForce_eq]
  simp [chooseFrame, h.1, h.2, hf]

theorem chooseFrame_wake (h : w.silent l) (hf : (w.link l).forceOwed = false) (hw : (w.link l).wakeOwed = true) :
    w.chooseFrame e l = some (w.sendWake e l) := by
  simp [chooseFrame, h.1, h.2, hf, hw]

/-! ## A link free to be given a frame -/

/-- Nothing of the link is at its end, its wire is idle, and it owes neither a FORCE nor a WAKE. -/
structure Free (l : Fin 4) (w : World) : Prop where
  longOp : w.longOpOver l = none
  quiesced : (w.link l).quiesced = false
  silent : w.silent l
  force : (w.link l).forceOwed = false
  wake : (w.link l).wakeOwed = false

/-- The orders of R143 and R144 that a state allows. -/
def orders (l : Fin 4) (w : World) : LinkState → List (Option World)
  | .up => [w.restartWake l, w.sendGoOrPending l, w.sendStage l, w.sendRefresh l, w.sendPoll l]
  | .scanning => [w.sendGoOrPending l, w.scanTurn l]
  | .calibrating => [w.sendGoOrPending l, w.sendStage l, w.calTurn l]
  | .quiescing => [w.sendGoOrPending l, w.sendStage l, w.quiesceTurn l]
  | _ => []

theorem firstOf_some (v : World) (cs : List (Option World)) : firstOf (some v :: cs) = some v := rfl

theorem firstOf_none (cs : List (Option World)) : firstOf (none :: cs) = firstOf cs := rfl

theorem firstOf_one (c : Option World) : firstOf [c] = c := by cases c <;> rfl

namespace Free
variable (h : w.Free l)
include h

/-- The first of its state's orders that gives a frame. -/
theorem choose : w.choose e l = firstOf (w.orders l (w.link l).state) := by
  rw [choose_eq e h.longOp h.quiesced]
  simp only [chooseFrame, h.silent.1, h.silent.2, h.force, h.wake]
  cases (w.link l).state <;> rfl

/-- The state sends GOs and what pends first: UP, but for a restart's WAKE, SCANNING, CALIBRATING or QUIESCING. -/
theorem choose_goOrPending (hs : (w.link l).state = .up ∧ w.ctl.restartWake.get l ≠ true
      ∨ (w.link l).state = .scanning ∨ (w.link l).state = .calibrating ∨ (w.link l).state = .quiescing)
    (hv : w.sendGoOrPending l = some v) : w.choose e l = some v := by
  rw [h.choose]
  rcases hs with ⟨hs, hr⟩ | hs | hs | hs <;> rw [hs, orders, hv]
  · rw [not_restartWake hr]
    rfl
  · rfl
  · rfl
  · rfl

/-- A STAGE goes next, where the state sends one: UP, CALIBRATING or QUIESCING. -/
theorem choose_stage (hs : (w.link l).state = .up ∧ w.ctl.restartWake.get l ≠ true
      ∨ (w.link l).state = .calibrating ∨ (w.link l).state = .quiescing)
    (hg : w.sendGoOrPending l = none) (hv : w.sendStage l = some v) : w.choose e l = some v := by
  rw [h.choose]
  rcases hs with ⟨hs, hr⟩ | hs | hs <;> rw [hs, orders, hg, hv]
  · rw [not_restartWake hr]
    rfl
  · rfl
  · rfl

theorem choose_restartWake (hs : (w.link l).state = .up) (hr : w.ctl.restartWake.get l = true) :
    w.choose e l = some (w.startBroadcast l .wake) := by
  rw [h.choose, hs, orders, show w.restartWake l = some (w.startBroadcast l .wake) from if_pos hr, firstOf_some]

theorem choose_up (hs : (w.link l).state = .up) (hr : w.ctl.restartWake.get l ≠ true)
    (hg : w.sendGoOrPending l = none) (hst : w.sendStage l = none) :
    w.choose e l = firstOf [w.sendRefresh l, w.sendPoll l] := by
  rw [h.choose, hs, orders, not_restartWake hr, hg, hst, firstOf_none, firstOf_none, firstOf_none]

theorem choose_scanning (hs : (w.link l).state = .scanning) (hg : w.sendGoOrPending l = none) :
    w.choose e l = w.scanTurn l := by
  rw [h.choose, hs, orders, hg, firstOf_none, firstOf_one]

theorem choose_calibrating (hs : (w.link l).state = .calibrating) (hg : w.sendGoOrPending l = none)
    (hst : w.sendStage l = none) : w.choose e l = w.calTurn l := by
  rw [h.choose, hs, orders, hg, hst, firstOf_none, firstOf_none, firstOf_one]

theorem choose_quiescing (hs : (w.link l).state = .quiescing) (hg : w.sendGoOrPending l = none)
    (hst : w.sendStage l = none) : w.choose e l = w.quiesceTurn l := by
  rw [h.choose, hs, orders, hg, hst, firstOf_none, firstOf_none, firstOf_one]

theorem choose_resting (hs : (w.link l).state = .off ∨ (w.link l).state = .warming ∨ (w.link l).state = .asleep
    ∨ (w.link l).state = .faulted) : w.choose e l = none := by
  rw [h.choose]
  rcases hs with hs | hs | hs | hs <;> rw [hs] <;> rfl

/-! ### UP, with nothing to deliver (R148, R150) -/

section
variable (hs : (w.link l).state = .up) (hr : w.ctl.restartWake.get l ≠ true) (hg : w.sendGoOrPending l = none)
  (hst : w.sendStage l = none)
include hs hr hg hst

theorem choose_refresh {look : LookCopy} (ha : w.refreshable l a) (hb : ∀ b < a, ¬w.refreshable l b)
    (hl : (w.zone (zoneAt l a)).committed = some look) :
    w.choose e l = some (w.startTransfer l (.refresh look.val) a) := by
  rw [h.choose_up hs hr hg hst, sendRefresh_first ha hb hl, firstOf_some]

theorem choose_poll (hf : ∀ a, ¬w.refreshable l a) (ha : w.lostPollDue l a = true)
    (hb : ∀ b < a, w.lostPollDue l b = false) : w.choose e l = some (w.startTransfer l (.poll true false) a) := by
  rw [h.choose_up hs hr hg hst, sendRefresh_none hf, firstOf_none, firstOf_one, sendPoll_first ha hb]

theorem choose_nothing (hf : ∀ a, ¬w.refreshable l a) (hp : ∀ a, w.lostPollDue l a ≠ true) :
    w.choose e l = none := by
  rw [h.choose_up hs hr hg hst, sendRefresh_none hf, firstOf_none, firstOf_one, sendPoll_none hp]

end

end Free

/-! ## The acts in turn -/

theorem pumpFor_none (n : Nat) (h : w.choose e l = none) : w.pumpFor e l n = w := by
  cases n with
  | zero => rfl
  | succ n => rw [pumpFor, h]

theorem pumpFor_some (n : Nat) (h : w.choose e l = some v) : w.pumpFor e l (n + 1) = v.pumpFor e l n := by
  rw [pumpFor, h]

end
end World
end Sys2Proof.Machine
end

section
/-! SUPPORT. The commands that give an idle wire its next frame (R148 to R150): a refresh, the poll of a lost driver,
and the end of the warm-up, with a scan's first poll or its end at once. -/

namespace Sys2Proof.Machine
namespace World

section
variable {w v : World} {e : Env} {l : Fin 4} {a : Fin 16}

/-- A frame begun is all that the link then does. -/
theorem pumpFor_sends {f : TxFrame} (n : Nat) (h : w.choose e l = some (w.startTransfer l f a))
    (ho : w.longOpOver l = none) (hq : (w.link l).quiesced = false) :
    w.pumpFor e l (n + 1) = w.startTransfer l f a := by
  have t := startTransfer_takes w l f a
  rw [pumpFor_some n h]
  exact pumpFor_none n (choose_taken t.busy ((t.begun.longOpOver l).trans ho) ((t.begun.quiesced l).trans hq))

/-- A calm link begins at most one frame, however often it may act. -/
theorem pumpFor_begun (n : Nat) (hc : w.calm l = true) : w.Begun (w.pumpFor e l n) := by
  cases n with
  | zero => exact Begun.refl w
  | succ n =>
    cases hv : w.choose e l with
    | none =>
      rw [pumpFor_none _ hv]
      exact Begun.refl w
    | some v =>
      have t := choose_takes hc hv
      simp only [calm, Bool.and_eq_true, Option.isNone_iff_eq_none, Bool.not_eq_true'] at hc
      obtain ⟨⟨longOp, quiesced⟩, -⟩ := hc
      rw [pumpFor_some n hv, pumpFor_none n]
      · exact t.begun
      · exact choose_taken t.busy ((t.begun.longOpOver l).trans longOp) ((t.begun.quiesced l).trans quiesced)

/-! ## A scan's first poll (R149) -/

/-- A scanning link with an idle wire and nothing to deliver, whose scan comes next to the address `a`. -/
structure ScansTo (l : Fin 4) (a : Fin 16) (w : World) : Prop where
  state : (w.link l).state = .scanning
  silent : w.silent l
  force : (w.link l).forceOwed = false
  wake : (w.link l).wakeOwed = false
  noGo : w.noGo l
  pending : (w.link l).pending = []
  left : w.toScan l a
  first : ∀ b < a, ¬w.toScan l b
  driver : (w.driver l a).state ≠ .busy

namespace ScansTo
variable (h : w.ScansTo l a)
include h

theorem free : w.Free l where
  longOp := longOpOver_none ⟨fun _ => ⟨a, h.left⟩, fun hc => by rw [h.state] at hc; cases hc⟩
  quiesced := by rw [Link.quiesced, h.state]; rfl
  silent := h.silent
  force := h.force
  wake := h.wake

theorem choose : w.choose e l = w.scanTurn l :=
  h.free.choose_scanning h.state (sendGoOrPending_none h.noGo h.pending)

/-- The poll of the address. -/
theorem polls (n : Nat) (hp : (w.link l).scanPos = some a.val) :
    w.pumpFor e l (n + 1) = w.startTransfer l (.poll (w.driver l a).lost true) a :=
  pumpFor_sends n (h.choose.trans (scanTurn_polls (scanAddr_first h.left h.first) hp h.driver)) h.free.longOp
    h.free.quiesced

/-- The scan moved on to the address. -/
theorem moved : (w.onLink l fun k => { k with scanPos := some a.val }).ScansTo l a := by
  have at_ : (w.onLink l fun k => { k with scanPos := some a.val }).link l =
      { w.link l with scanPos := some a.val } := (onLink_link _ _ _ _).trans (if_pos rfl)
  refine ⟨?_, ?_, ?_, ?_, ?_, ?_, ⟨?_, h.left.2⟩, fun b hb ht => ?_, ?_⟩
  · rw [at_]; exact h.state
  · rw [World.silent, at_]; exact h.silent
  · rw [at_]; exact h.force
  · rw [at_]; exact h.wake
  · rw [World.noGo, at_]; exact h.noGo
  · rw [at_]; exact h.pending
  · rw [at_]; exact Nat.le_refl _
  · have le := ht.1
    rw [at_] at le
    exact absurd hb (Nat.not_lt.2 le)
  · rw [World.driver, at_]; exact h.driver

/-- The link comes to the address and polls it. -/
theorem pump : ((w.pump e l).link l).state = .scanning ∧ ((w.pump e l).link l).scanPos = some a.val
    ∧ ((w.pump e l).link l).transfer = some ⟨.poll (w.driver l a).lost true, a, 0, 0, true, false⟩ := by
  by_cases hp : (w.link l).scanPos = some a.val
  · rw [World.pump, h.polls 63 hp, startTransfer, onLink_link, if_pos rfl]
    exact ⟨h.state, hp, rfl⟩
  · have step : w.choose e l = some (w.onLink l fun k => { k with scanPos := some a.val }) :=
      h.choose.trans (scanTurn_moves (scanAddr_first h.left h.first) hp)
    rw [World.pump, pumpFor_some 63 step, h.moved.polls 62, startTransfer, onLink_link, if_pos rfl, World.driver,
      onLink_link, if_pos rfl]
    · exact ⟨h.state, rfl, rfl⟩
    · rw [onLink_link, if_pos rfl]

end ScansTo

theorem calm_up (hs : (w.link l).state = .up) (ho : (w.link l).owesNothing = true) : w.calm l = true := by
  have none_ : w.longOpOver l = none := longOpOver_other (by rw [hs]; decide) (by rw [hs]; decide)
  simp [calm, none_, Link.quiesced, Link.calm, hs, ho]

/-- A link that a long operation's end brings UP. -/
theorem ended_up (h : w.ctl.state ≠ .dark) (op : LongOp) : ((w.endLongOp e l op).comeUp e l).link l =
    { w.link l with lastOp := some op, scanPos := none, cal := none, state := .up, power := true } := by
  rw [comeUp, if_neg (show (w.endLongOp e l op).ctl.state ≠ .dark from h), enterLink_link, endLongOp, raise_link,
    onLink_link, if_pos rfl]
  rfl

/-! ## The end of the warm-up (R149) -/

section
variable (hs : (w.link l).state = .warming) (ht : 200 ≤ (w.link l).timer)
include hs ht

theorem warmUpEnd_link : (w.warmUpEnd e l).link l =
    { w.link l with state := .scanning, power := true, scanPos := some 0 } := by
  rw [warmUpEnd_due hs ht]
  exact (onLink_link _ _ _ _).trans (if_pos rfl)

theorem warmUpEnd_zone (z : Fin 64) : (w.warmUpEnd e l).zone z = w.zone z := by
  rw [warmUpEnd_due hs ht]
  rfl

theorem warmUpEnd_driver : (w.warmUpEnd e l).driver l a = w.driver l a := by
  rw [World.driver, warmUpEnd_link hs ht]
  rfl

theorem warmUpEnd_toScan : (w.warmUpEnd e l).toScan l a ↔ (w.zone (zoneAt l a)).configured = true := by
  rw [toScan, warmUpEnd_link hs ht, warmUpEnd_zone hs ht]
  exact and_iff_right (Nat.zero_le _)

/-- A link that is warmed up and has nothing to deliver scans from its first configured address. -/
theorem warmUpEnd_scans (hi : w.silent l) (hf : (w.link l).forceOwed = false) (hw : (w.link l).wakeOwed = false)
    (hg : w.noGo l) (hp : (w.link l).pending = []) (ha : (w.zone (zoneAt l a)).configured = true)
    (hb : ∀ b < a, (w.zone (zoneAt l b)).configured = false) (hd : (w.driver l a).state ≠ .busy) :
    (w.warmUpEnd e l).ScansTo l a := by
  have at_ := warmUpEnd_link (e := e) hs ht
  refine ⟨?_, ?_, ?_, ?_, ?_, ?_, (warmUpEnd_toScan hs ht).2 ha, fun b hlt hto => ?_, ?_⟩
  · rw [at_]
  · rw [silent, at_]; exact hi
  · rw [at_]; exact hf
  · rw [at_]; exact hw
  · rw [noGo, at_]; exact hg
  · rw [at_]; exact hp
  · exact Bool.eq_false_iff.1 (hb b hlt) ((warmUpEnd_toScan hs ht).1 hto)
  · rw [warmUpEnd_driver hs ht]; exact hd

/-- Where no address is configured the scan ends at once, and the link is UP. -/
theorem warmUpEnd_ends (ho : (w.link l).owesNothing = true)
    (hc : ∀ a, (w.zone (zoneAt l a)).configured = false) (ha : w.ctl.state = .active) :
    let v := (w.warmUpEnd e l).pump e l
    (v.link l).state = .up ∧ (v.link l).lastOp = some ⟨true, .complete, (w.link l).answering⟩
      ∧ (v.notices.get NoticeKind.longOpDone.no).pending = true := by
  intro v
  have at_ := warmUpEnd_link (e := e) hs ht
  have ended : (w.warmUpEnd e l).choose e l =
      some (((w.warmUpEnd e l).endLongOp e l ⟨true, .complete, (w.link l).answering⟩).comeUp e l) := by
    rw [choose_scanned (by rw [at_]) fun a hto => Bool.eq_false_iff.1 (hc a) ((warmUpEnd_toScan hs ht).1 hto), at_]
    rfl
  have active : (w.warmUpEnd e l).ctl.state ≠ .dark := by
    rw [warmUpEnd_due hs ht]
    exact fun hd => nomatch ha.symm.trans hd
  obtain ⟨-, raised, -⟩ := comeUp_endLongOp (w.warmUpEnd e l) e l ⟨true, .complete, (w.link l).answering⟩
  have link := ended_up (e := e) (l := l) active ⟨true, .complete, (w.link l).answering⟩
  generalize ((w.warmUpEnd e l).endLongOp e l ⟨true, .complete, (w.link l).answering⟩).comeUp e l = u at *
  have begun : u.Begun v := by
    rw [show v = u.pumpFor e l 63 from pumpFor_some 63 ended]
    exact pumpFor_begun 63 (calm_up (by rw [link]) (by rw [link, at_]; exact ho))
  have state := congrArg Link.state (begun.links l)
  have lastOp := congrArg Link.lastOp (begun.links l)
  have notices : v.notices = u.notices := by have rest := congrArg World.notices begun.rest; exact rest
  exact ⟨state.trans (by rw [link]), lastOp.trans (by rw [link]), by rw [notices]; exact raised⟩

end

/-- The WAKE sent on a wake order, spelled out. -/
theorem sendWake_eq : w.sendWake e l = (w.onLink l fun k => { k with
    wakeOwed := false, bcast := some .wake }).enterLink e l .warming := by
  rw [sendWake, startBroadcast, onLink_onLink]
  rfl

end
end World

/-! ## The commands -/

section
variable {s : State} {l : Fin 4} {a : Fin 16} {f : TxFrame}

/-- An event of an UP link that brings nothing about but the frame it sends. -/
theorem State.linkEvent_sends (due : World → Bool) (hh : s.held = false) (hd : due s.world = true)
    (hf : s.world.Free l) (hc : s.world.choose s.env l = some (s.world.startTransfer l f a)) :
    s.linkEvent l due (fun _ w => w) = .next { s with world := s.world.startTransfer l f a }.choose := by
  rw [State.linkEvent_due l due _ hh hd, State.onWorld_eq, World.pump, World.pumpFor_sends 63 hc hf.longOp hf.quiesced]

/-- The end of the warm-up, once it is due. -/
theorem State.exec_warmUpEnd_after (hh : s.held = false) (hs : (s.world.link l).state = .warming)
    (ht : 200 ≤ (s.world.link l).timer) : ∃ t, exec (.warmUpEnd l) s = .next t
      ∧ State.AfterOn l s (s.world.warmUpEnd s.env l) t := by
  rw [exec_warmUpEnd]
  exact State.linkEvent_after l _ _ hh (by simpa using ⟨hs, ht⟩)

end

/-- Settles O43: what a link sends next, by the state it is in, and the commands that bring it to send. -/
theorem pollsAndRefreshesSent : Obligations.PollsAndRefreshesSent := by
  refine ⟨fun w e l => ?_, fun s l hh => ?_⟩
  · intro k acts sends moved asleep ended toScan awake goesOn quiesced idle readyGo stageable refreshable pollable
      sleepable
    have calm (hq : ¬quiesced) : (w.link l).quiesced = false := Bool.eq_false_iff.2 (mt Link.quiesced_iff.1 hq)
    have owing (h : k.forceOwed = true ∨ k.wakeOwed = true) : (w.link l).quiesced = false := by
      refine calm fun ⟨_, _, hf, hw⟩ => ?_
      rcases h with h | h
      · rw [hf] at h; cases h
      · rw [hw] at h; cases h
    refine ⟨World.choose_scanned, fun c => World.choose_calibrated,
      fun h => World.choose_quiesced (Link.quiesced_iff.2 h),
      fun hg hq hi => ?_, fun hg hi hf => ?_, fun hg hi hf hw => ?_, fun hg hq hi hf hw => ?_,
      fun n => ⟨World.pumpFor_none n, fun v => World.pumpFor_some n⟩, rfl⟩
    · refine World.choose_taken (Bool.eq_false_iff.2 (mt World.silent_iff.2 hi)) (World.longOpOver_none hg) (calm hq)
    · refine (World.choose_eq e (World.longOpOver_none hg) (owing (.inl hf))).trans (World.chooseFrame_force hi hf)
    · refine (World.choose_eq e (World.longOpOver_none hg) (owing (.inr hw))).trans
        ((World.chooseFrame_wake hi hf hw).trans (congrArg some World.sendWake_eq))
    · intro marked noGo noStage
      have free : w.Free l := ⟨World.longOpOver_none hg, calm hq, hi, hf, hw⟩
      refine ⟨free.choose_restartWake, fun hs => ⟨fun front g rest hk hgo hb => ?_, fun i rest hgo hp => ?_⟩,
        fun hgo hp => ?_, free.choose_resting⟩
      · exact free.choose_goOrPending hs (World.sendGoOrPending_go hk hgo hb)
      · exact free.choose_goOrPending hs (World.sendGoOrPending_pending hgo hp)
      · have go : w.sendGoOrPending l = none := World.sendGoOrPending_none hgo hp
        have stage (h : noStage) : w.sendStage l = none := World.sendStage_none (Link.nextStage_none h)
        refine ⟨fun hs front x rest hk hx hb => ?_,
          fun hs hm hn => ⟨fun a look ha hb hl => ?_, fun hr => ⟨fun a ha hb => ?_, fun hl => ?_⟩⟩,
          fun a hs ha hb => ?_, fun c a hs hn hc ha => ?_, fun hs hn => ?_⟩
        · exact free.choose_stage hs go (World.sendStage_next (Link.nextStage_first hk hx hb))
        · exact free.choose_refresh hs hm go (stage hn) (World.refreshable_iff.2 ha)
            (fun b hlt => mt World.refreshable_iff.1 (hb b hlt)) hl
        · exact free.choose_poll hs hm go (stage hn) (fun a => mt World.refreshable_iff.1 (hr a))
            (World.lostPollDue_iff.2 ha) fun b hlt => Bool.eq_false_iff.2 (mt World.lostPollDue_iff.1 (hb b hlt))
        · exact free.choose_nothing hs hm go (stage hn) (fun a => mt World.refreshable_iff.1 (hr a))
            fun a => mt World.lostPollDue_iff.1 (hl a)
        · have turn : w.scanAddr l = some a := World.scanAddr_first ha hb
          have chosen := free.choose_scanning (e := e) hs go
          exact ⟨fun hp => chosen.trans (World.scanTurn_moves turn hp),
            fun hp hd => chosen.trans (World.scanTurn_waits turn hp hd),
            fun hp hd => chosen.trans (World.scanTurn_polls turn hp hd)⟩
        · have chosen := free.choose_calibrating (e := e) hs go (stage hn)
          exact ⟨fun hd => chosen.trans (World.calTurn_probes hc ha hd),
            fun hd => chosen.trans (World.calTurn_waits hc ha hd),
            fun hd => chosen.trans (World.calTurn_passes hc ha hd)⟩
        · have chosen := free.choose_quiescing (e := e) hs go (stage hn)
          exact ⟨fun a ha hb => chosen.trans (World.quiesceTurn_first ha hb),
            fun h => chosen.trans (World.quiesceTurn_none h)⟩
  · intro k quiet sends refreshable
    have due {i : Bool} (hs : k.state = .up) (hi : i = true) : (k.state == .up && i) = true := by
      rw [hs, hi]
      rfl
    have idle (hs : k.state ≠ .up) (i : Bool) : (k.state == .up && i) = false := by
      rw [beq_eq_false_iff_ne.2 hs]
      rfl
    have noGo (hq : quiet) : s.world.noGo l := by
      obtain ⟨-, -, -, gos, -⟩ := hq
      rintro g hg ⟨ready, unsent⟩
      have sent := gos g hg ready
      rw [unsent] at sent
      cases sent
    have owes (hq : quiet) : k.forceOwed = false ∧ k.wakeOwed = false := by
      obtain ⟨-, owing, -⟩ := hq
      simp only [Link.owesNothing, Bool.and_eq_true, Bool.not_eq_true'] at owing
      exact owing.symm
    have free (hs : k.state = .up) (hq : quiet) : s.world.Free l := by
      obtain ⟨force, wake⟩ := owes hq
      exact ⟨World.longOpOver_other (by rw [hs]; decide) (by rw [hs]; decide), by rw [Link.quiesced, hs]; rfl,
        World.silent_iff.2 hq.1, force, wake⟩
    have unmarked (hq : quiet) : s.world.ctl.restartWake.get l ≠ true := by
      obtain ⟨-, -, mark, -⟩ := hq
      rw [mark]
      decide
    have go (hq : quiet) : s.world.sendGoOrPending l = none := by
      have ⟨_, _, _, _, pending⟩ := hq
      exact World.sendGoOrPending_none (noGo hq) pending
    refine ⟨fun a => Driver.refreshDue_iff, fun a => World.lostPollDue_iff, fun a look hs hq hn ha hb hl => ?_,
      fun a hs hq hn hr ha hb => ?_, fun a hs ha => ?_, fun a hs ha => ?_, fun a hs => ⟨?_, ?_⟩,
      fun hs ht hq => ⟨fun a ha hb hd => ?_, fun hc ha => ?_⟩⟩
    · exact (exec_refreshDue s l a).trans (State.linkEvent_sends _ hh (due hs ha.1) (free hs hq)
        ((free hs hq).choose_refresh hs (unmarked hq) (go hq) (World.sendStage_none hn) ha hb hl))
    · exact (exec_lostDriverPollDue s l a).trans (State.linkEvent_sends _ hh (due hs ha) (free hs hq)
        ((free hs hq).choose_poll hs (unmarked hq) (go hq) (World.sendStage_none hn) hr ha hb))
    · rw [exec_refreshDue]
      exact State.linkEvent_after l _ _ hh (due hs ha)
    · rw [exec_lostDriverPollDue]
      exact State.linkEvent_after l _ _ hh (due hs ha)
    · rw [exec_refreshDue]
      exact State.linkEvent_not_due l _ _ hh (idle hs _)
    · rw [exec_lostDriverPollDue]
      exact State.linkEvent_not_due l _ _ hh (idle hs _)
    · obtain ⟨t, run, chosen, -⟩ := State.exec_warmUpEnd_after hh hs ht
      obtain ⟨force, wake⟩ := owes hq
      have ⟨idle, _, _, _, pending⟩ := hq
      have scans := World.warmUpEnd_scans (e := s.env) hs ht (World.silent_iff.2 idle) force wake (noGo hq) pending
        ha hb hd
      refine ⟨t, run, ?_⟩
      rw [chosen.world, ← World.warmUpEnd_driver (e := s.env) hs ht]
      exact scans.pump
    · obtain ⟨t, run, chosen, -⟩ := State.exec_warmUpEnd_after hh hs ht
      obtain ⟨-, owing, -⟩ := hq
      refine ⟨t, run, ?_⟩
      rw [chosen.world]
      exact World.warmUpEnd_ends hs ht owing hc ha

end Sys2Proof.Machine
end

section
/-! SUPPORT. A GO sent (R124, R145): what its sending makes of each of its entries, and of the link's lists, the
drivers and the zones. -/

namespace Sys2Proof.Machine

/-- An entry that a GO's sending takes: a STAGED one, or a DROPPING one whose DROP still pends. -/
def Entry.goTakes (x : Entry) : Bool :=
  match x.state with
  | .staged => true
  | .dropping _ .dropPending => true
  | _ => false

theorem Entry.goTakes_iff {x : Entry} : x.goTakes = true ↔
    x.state = .staged ∨ ∃ stop, x.state = .dropping stop .dropPending := by
  unfold Entry.goTakes
  cases x.state with
  | dropping stop st => cases st <;> simp
  | queued | sent | staged | late | lateSent | lateStaged => simp

/-- An entry whose look has not reached its driver, or waits there for the GO. -/
def Entry.early (x : Entry) : Prop := x.state = .queued ∨ x.state = .sent ∨ x.state = .staged

namespace World

/-- What one of several steps brings about from what they keep till then, and all of them keep after it. -/
theorem each_reaches_from {α : Type} {P Q : World → Prop} {f : α → World → World} {xs : List α} {x : α} (hx : x ∈ xs)
    (till : ∀ y ∈ xs, ∀ v, Q v → Q (f y v)) (made : ∀ v, Q v → P (f x v)) (kept : ∀ y ∈ xs, ∀ v, P v → P (f y v))
    (w : World) (hw : Q w) : P (w.each xs f) := by
  have after (ys : List α) (hys : ∀ y ∈ ys, y ∈ xs) (v : World) (hv : P v) : P (v.each ys f) := by
    induction ys generalizing v with
    | nil => exact hv
    | cons y ys ih =>
      exact ih (fun z hz => hys z (List.mem_cons_of_mem _ hz)) _ (kept y (hys y List.mem_cons_self) v hv)
  have before (ys : List α) (hys : ∀ y ∈ ys, y ∈ xs) (hy : x ∈ ys) (v : World) (hv : Q v) : P (v.each ys f) := by
    induction ys generalizing v with
    | nil => cases hy
    | cons y ys ih =>
      have rest : ∀ z ∈ ys, z ∈ xs := fun z hz => hys z (List.mem_cons_of_mem _ hz)
      rcases List.mem_cons.1 hy with rfl | hy
      · exact after ys rest _ (made v hv)
      · exact ih rest hy _ (till y (hys y List.mem_cons_self) v hv)
  exact before xs (fun _ h => h) hx w hw

/-! ## One entry of the GO -/

/-- An entry of a sent GO settled by its state (R124), its slot free and its credit back where it is taken (R145). -/
def goSettle (l : Fin 4) (x : Entry) (w : World) : World :=
  match x.state with
  | .staged => (w.endEntry l x .taken).onDriver l x.addr Driver.slotFreed
  | .queued => w.setEntry l x.ref .late
  | .sent => w.setEntry l x.ref .lateSent
  | .dropping _ .dropPending => (w.endEntry l x .taken).onDriver l x.addr Driver.slotFreed
  | _ => w

section
variable {w : World} {l m : Fin 4} {x y z : Entry}

theorem goSettle_taken (h : x.goTakes = true) :
    w.goSettle l x = (w.endEntry l x .taken).onDriver l x.addr Driver.slotFreed := by
  rcases Entry.goTakes_iff.1 h with h | ⟨stop, h⟩ <;> rw [goSettle, h]

theorem goSettle_queued (h : x.state = .queued) : w.goSettle l x = w.setEntry l x.ref .late := by
  rw [goSettle, h]

theorem goSettle_sent (h : x.state = .sent) : w.goSettle l x = w.setEntry l x.ref .lateSent := by
  rw [goSettle, h]

theorem goSettle_other (hq : x.state ≠ .queued) (hs : x.state ≠ .sent) (ht : x.goTakes ≠ true) :
    w.goSettle l x = w := by
  rw [Ne, Entry.goTakes_iff, not_or, not_exists] at ht
  unfold goSettle
  split
  · next h => exact absurd h ht.1
  · next h => exact absurd h hq
  · next h => exact absurd h hs
  · next stop h => exact absurd h (ht.2 stop)
  · rfl

/-- An entry of the GO settled, in the three ways there are. -/
theorem goSettle_cases (w : World) (l : Fin 4) (x : Entry) :
    (x.goTakes = true ∧ w.goSettle l x = (w.endEntry l x .taken).onDriver l x.addr Driver.slotFreed)
    ∨ (x.goTakes = false ∧ (x.state = .queued ∨ x.state = .sent)
      ∧ ∃ s, (s = .late ∨ s = .lateSent) ∧ w.goSettle l x = w.setEntry l x.ref s)
    ∨ (x.goTakes = false ∧ ¬x.early ∧ w.goSettle l x = w) := by
  cases ht : x.goTakes with
  | true => exact .inl ⟨rfl, goSettle_taken ht⟩
  | false =>
    by_cases hq : x.state = .queued
    · exact .inr (.inl ⟨rfl, .inl hq, _, .inl rfl, goSettle_queued hq⟩)
    by_cases hs : x.state = .sent
    · exact .inr (.inl ⟨rfl, .inr hs, _, .inr rfl, goSettle_sent hs⟩)
    refine .inr (.inr ⟨rfl, ?_, goSettle_other hq hs (by rw [ht]; decide)⟩)
    rintro (h | h | h)
    · exact hq h
    · exact hs h
    · rw [Entry.goTakes_iff.2 (.inl h)] at ht
      cases ht

/-- The links with an entry taken. -/
theorem goTaken_link : ((w.endEntry l x .taken).onDriver l x.addr Driver.slotFreed).link m = if l = m then
    { (w.link m).stopFrame x.ref with
      stage := (w.link m).stage.filter (·.ref != x.ref)
      retry := true
      drivers := (w.link m).drivers.upd x.addr Driver.slotFreed } else w.link m := by
  rw [onDriver, onLink_link, endEntry_link]
  split <;> rfl

/-- What the settling of an entry leaves of the links: all but the stage list, the pending list, the frame in flight,
the retry mark and the drivers. -/
theorem goSettle_link (w : World) (l m : Fin 4) (x : Entry) : ∃ stage pending transfer retry drivers,
    (w.goSettle l x).link m = { w.link m with
      stage := stage, pending := pending, transfer := transfer, retry := retry, drivers := drivers } := by
  rcases goSettle_cases w l x with ⟨-, h⟩ | ⟨-, -, s, -, h⟩ | ⟨-, -, h⟩ <;> rw [h]
  · rw [goTaken_link]
    split
    · exact ⟨_, _, _, _, _, rfl⟩
    · exact ⟨_, _, _, _, _, rfl⟩
  · rw [setEntry_link]
    split
    · exact ⟨_, _, _, _, _, rfl⟩
    · exact ⟨_, _, _, _, _, rfl⟩
  · exact ⟨_, _, _, _, _, rfl⟩

theorem goSettle_players : (w.goSettle l x).players = w.players := by
  rcases goSettle_cases w l x with ⟨-, h⟩ | ⟨-, -, s, -, h⟩ | ⟨-, -, h⟩ <;> rw [h]
  · rfl
  · rfl

theorem goSettle_driver {a : Fin 16} : (w.goSettle l x).driver m a =
    if m = l ∧ x.addr = a ∧ x.goTakes = true then (w.driver m a).slotFreed else w.driver m a := by
  rcases goSettle_cases w l x with ⟨ht, h⟩ | ⟨ht, -, s, -, h⟩ | ⟨ht, -, h⟩ <;> rw [h, ht]
  · rw [onDriver_driver, ((Lists.refl w).endEntry l x .taken).driver]
    simp only [eq_comm (a := m), and_true]
  · rw [((Lists.refl w).setEntry l x.ref s).driver]
    simp
  · simp

/-- An entry of another reference stays as it is. -/
theorem goSettle_stays (hy : y ∈ (w.link l).stage) (h : y.ref ≠ x.ref) : y ∈ ((w.goSettle l x).link l).stage := by
  rcases goSettle_cases w l x with ⟨-, e⟩ | ⟨-, -, s, -, e⟩ | ⟨-, -, e⟩ <;> rw [e]
  · rw [goTaken_link, if_pos rfl]
    exact List.mem_filter.2 ⟨hy, by simpa using h⟩
  · rw [setEntry_link, if_pos rfl]
    exact List.mem_map.2 ⟨y, hy, if_neg h⟩
  · exact hy

/-- An entry of the list after is one of the list before, unless its reference is one that has been settled; then it
is early no more. -/
theorem goSettle_stage (hy : y ∈ ((w.goSettle l x).link l).stage) :
    (y ∈ (w.link l).stage ∧ (y.ref ≠ x.ref ∨ ¬x.early)) ∨ ¬y.early := by
  rcases goSettle_cases w l x with ⟨-, e⟩ | ⟨-, -, s, hs, e⟩ | ⟨-, he, e⟩ <;> rw [e] at hy
  · rw [goTaken_link, if_pos rfl] at hy
    obtain ⟨hy, hr⟩ := List.mem_filter.1 hy
    exact .inl ⟨hy, .inl (by simpa using hr)⟩
  · rw [setEntry_link, if_pos rfl] at hy
    obtain ⟨z, hz, rfl⟩ := List.mem_map.1 hy
    by_cases hr : z.ref = x.ref
    · rw [if_pos hr]
      refine .inr ?_
      rcases hs with rfl | rfl <;> simp [Entry.early]
    · rw [if_neg hr]
      exact .inl ⟨hz, .inl hr⟩
  · exact .inl ⟨hy, .inr he⟩

/-- No reference is new. -/
theorem goSettle_ref (hy : y ∈ ((w.goSettle l x).link l).stage) : ∃ z ∈ (w.link l).stage, z.ref = y.ref := by
  rcases goSettle_cases w l x with ⟨-, e⟩ | ⟨-, -, s, -, e⟩ | ⟨-, -, e⟩ <;> rw [e] at hy
  · rw [goTaken_link, if_pos rfl] at hy
    exact ⟨y, (List.mem_filter.1 hy).1, rfl⟩
  · rw [setEntry_link, if_pos rfl] at hy
    obtain ⟨z, hz, rfl⟩ := List.mem_map.1 hy
    refine ⟨z, hz, ?_⟩
    split <;> rfl
  · exact ⟨y, hy, rfl⟩

/-- Nothing comes to pend. -/
theorem goSettle_pending {i : PendingItem} (hi : i ∈ ((w.goSettle l x).link l).pending) : i ∈ (w.link l).pending := by
  rcases goSettle_cases w l x with ⟨-, e⟩ | ⟨-, -, s, -, e⟩ | ⟨-, -, e⟩ <;> rw [e] at hi
  · rw [goTaken_link, if_pos rfl] at hi
    exact (List.mem_filter.1 hi).1
  · rw [setEntry_link, if_pos rfl] at hi
    exact hi
  · exact hi

/-- The reference of an entry taken stands in neither list. -/
theorem goTaken_gone (h : x.goTakes = true) : (∀ y ∈ ((w.goSettle l x).link l).stage, y.ref ≠ x.ref)
    ∧ ∀ i ∈ ((w.goSettle l x).link l).pending, i.ref ≠ x.ref := by
  rw [goSettle_taken h, goTaken_link, if_pos rfl]
  exact ⟨fun y hy => by simpa using (List.mem_filter.1 hy).2, fun i hi => by simpa using (List.mem_filter.1 hi).2⟩

theorem endEntry_taken_committed (w : World) (l : Fin 4) (x : Entry) :
    ((w.endEntry l x .taken).zone (zoneAt l x.addr)).committed = some x.look :=
  congrArg Zone.committed ((report_zone _ _ _ _ _ _).trans (if_pos rfl))

theorem zoneAt_inj {l : Fin 4} {a b : Fin 16} (h : zoneAt l a = zoneAt l b) : a = b := by
  rw [← zoneAddr_zoneAt l a, h, zoneAddr_zoneAt]

/-- A zone at another address keeps its look, and so does one whose entry is not taken. -/
theorem goSettle_committed {a : Fin 16} (h : x.goTakes = true → x.addr ≠ a) :
    ((w.goSettle l x).zone (zoneAt l a)).committed = (w.zone (zoneAt l a)).committed := by
  rcases goSettle_cases w l x with ⟨ht, e⟩ | ⟨-, -, s, -, e⟩ | ⟨-, -, e⟩ <;> rw [e]
  · exact congrArg Zone.committed ((report_zone _ _ _ _ _ _).trans (if_neg fun hz => h ht (zoneAt_inj hz)))
  · rfl

/-! ## The entries of the GO in turn -/

variable {xs : List Entry}

theorem goSettleEach_link (w : World) (l m : Fin 4) (xs : List Entry) : ∃ stage pending transfer retry drivers,
    (w.each xs (World.goSettle l)).link m = { w.link m with
      stage := stage, pending := pending, transfer := transfer, retry := retry, drivers := drivers } := by
  refine each_induct (fun v => ∃ stage pending transfer retry drivers, v.link m = { w.link m with
    stage := stage, pending := pending, transfer := transfer, retry := retry, drivers := drivers }) _
    (fun x v ⟨_, _, _, _, _, hv⟩ => ?_) xs w ⟨_, _, _, _, _, rfl⟩
  obtain ⟨stage, pending, transfer, retry, drivers, h⟩ := goSettle_link v l m x
  exact ⟨stage, pending, transfer, retry, drivers, by rw [h, hv]⟩

theorem goSettleEach_players : (w.each xs (World.goSettle l)).players = w.players :=
  each_induct (fun v => v.players = w.players) _ (fun _ _ hv => goSettle_players.trans hv) xs w rfl

/-- Each entry taken frees a slot of its driver, and gives a credit back (R145). -/
theorem goSettleEach_driver {a : Fin 16} : (w.each xs (World.goSettle l)).driver m a = if m = l then
    { w.driver m a with
      credits := (w.driver m a).credits + xs.countP fun x => x.addr == a && x.goTakes
      occupied := (w.driver m a).occupied - xs.countP fun x => x.addr == a && x.goTakes } else w.driver m a := by
  induction xs generalizing w with
  | nil => simp
  | cons x xs ih =>
    rw [each_cons, ih, goSettle_driver]
    by_cases hm : m = l
    · by_cases hx : x.addr = a ∧ x.goTakes = true
      · have test : (x.addr == a && x.goTakes) = true := by simpa using hx
        rw [if_pos hm, if_pos hm, if_pos ⟨hm, hx⟩, List.countP_cons_of_pos (l := xs) test]
        simp only [Driver.slotFreed]
        congr 1 <;> omega
      · have test : ¬(x.addr == a && x.goTakes) = true := by simpa using hx
        rw [if_pos hm, if_pos hm, if_neg fun h => hx h.2, List.countP_cons_of_neg (l := xs) test]
    · rw [if_neg hm, if_neg hm, if_neg fun h => hm h.1]

/-- Once each early entry has had its turn, none is early. -/
theorem goSettleEach_early (q : Entry → Prop) (h : ∀ y ∈ (w.link l).stage, q y → y.early → y ∈ xs) :
    ∀ y ∈ ((w.each xs (World.goSettle l)).link l).stage, q y → ¬y.early := by
  induction xs generalizing w with
  | nil => exact fun y hy hq he => nomatch h y hy hq he
  | cons x xs ih =>
    refine ih fun y hy hq he => ?_
    rcases goSettle_stage hy with ⟨hy, hr⟩ | hn
    · rcases List.mem_cons.1 (h y hy hq he) with rfl | hm
      · exact absurd he (hr.resolve_left fun hn => hn rfl)
      · exact hm
    · exact absurd he hn

/-- An entry stays whose reference no step settles. -/
theorem goSettleEach_stays (hx : x ∈ (w.link l).stage)
    (h : ∀ y ∈ xs, y.ref = x.ref → ∀ v : World, v.goSettle l y = v) :
    x ∈ ((w.each xs (World.goSettle l)).link l).stage := by
  induction xs generalizing w with
  | nil => exact hx
  | cons y xs ih =>
    rw [each_cons]
    refine ih ?_ fun z hz => h z (List.mem_cons_of_mem _ hz)
    by_cases hr : y.ref = x.ref
    · rw [h y List.mem_cons_self hr]
      exact hx
    · exact goSettle_stays hx (Ne.symm hr)

/-- An entry that its turn only moves to another state, and that has its reference alone, is in that state. -/
theorem goSettleEach_moved {s : EntryState} (hs : ∀ v : World, v.goSettle l x = v.setEntry l x.ref s)
    (hx : x ∈ (w.link l).stage) (hm : x ∈ xs) (only : ∀ y ∈ xs, y.ref = x.ref → y = x) :
    { x with state := s } ∈ ((w.each xs (World.goSettle l)).link l).stage := by
  have made (v : World) (y : Entry) (hr : y.ref = x.ref) (hy : y ∈ (v.link l).stage) :
      { y with state := s } ∈ ((v.goSettle l x).link l).stage := by
    rw [hs, setEntry_link, if_pos rfl]
    exact List.mem_map.2 ⟨y, hy, if_pos hr⟩
  have step (y : Entry) (hy : y ∈ xs) (v : World) (z : Entry) (hr : z.ref = x.ref) (hz : z ∈ (v.link l).stage) :
      z ∈ ((v.goSettle l y).link l).stage ∨ { z with state := s } ∈ ((v.goSettle l y).link l).stage := by
    by_cases he : y.ref = x.ref
    · obtain rfl := only y hy he
      exact .inr (made v z hr hz)
    · exact .inl (goSettle_stays hz fun h => he (h.symm.trans hr))
  have kept (y : Entry) (hy : y ∈ xs) (v : World) (h : { x with state := s } ∈ (v.link l).stage) :
      { x with state := s } ∈ ((v.goSettle l y).link l).stage := (step y hy v { x with state := s } rfl h).elim id id
  refine each_reaches_from (Q := fun v => x ∈ (v.link l).stage ∨ { x with state := s } ∈ (v.link l).stage)
    (P := fun v => { x with state := s } ∈ (v.link l).stage) hm (fun y hy v h => ?_) (fun v h => ?_) kept w (.inl hx)
  · exact h.elim (step y hy v x rfl) fun h => .inr (kept y hy v h)
  · exact h.elim (made v x rfl) (kept x hm v)

/-- An entry taken is gone from both lists. -/
theorem goSettleEach_gone (h : x.goTakes = true) (hm : x ∈ xs) :
    (∀ y ∈ ((w.each xs (World.goSettle l)).link l).stage, y.ref ≠ x.ref)
    ∧ ∀ i ∈ ((w.each xs (World.goSettle l)).link l).pending, i.ref ≠ x.ref := by
  refine each_reaches (P := fun v => (∀ y ∈ (v.link l).stage, y.ref ≠ x.ref)
    ∧ ∀ i ∈ (v.link l).pending, i.ref ≠ x.ref) hm (fun v => goTaken_gone h) (fun y v ⟨stage, pending⟩ => ?_) w
  refine ⟨fun z hz => ?_, fun i hi => pending i (goSettle_pending hi)⟩
  obtain ⟨u, hu, hr⟩ := goSettle_ref hz
  exact hr ▸ stage u hu

/-- The look of an entry taken is committed, where it is the only one of the GO at its address. -/
theorem goSettleEach_committed (h : x.goTakes = true) (hm : x ∈ xs) (only : ∀ y ∈ xs, y.addr = x.addr → y = x) :
    ((w.each xs (World.goSettle l)).zone (zoneAt l x.addr)).committed = some x.look := by
  have made (v : World) : ((v.goSettle l x).zone (zoneAt l x.addr)).committed = some x.look := by
    rw [goSettle_taken h]
    exact endEntry_taken_committed v l x
  refine each_reaches_from (Q := fun _ => True) (P := fun v => (v.zone (zoneAt l x.addr)).committed = some x.look) hm
    (fun _ _ _ _ => trivial) (fun v _ => made v) (fun y hy v hv => ?_) w trivial
  by_cases ha : y.addr = x.addr
  · obtain rfl := only y hy ha
    exact made v
  · exact (goSettle_committed fun _ => ha).trans hv

end
end World
end Sys2Proof.Machine
end

section
/-! SUPPORT. A GO's sending as one event (R124, R143, R145): its entries settled, and the tests that follow where
nothing is deferred. -/

namespace Sys2Proof.Machine
namespace World

/-! ## The tests of the tags, with nothing deferred -/

/-- What the tests of the tags and the retry marks keep, the tests and retries keep where nothing is deferred. -/
theorem tidyKeeps_undeferred {P : World → Prop} (tested : ∀ l t w, P w → P (w.closeTag l t))
    (retried : ∀ l w, P w → P (w.onLink l fun k => { k with retry := false })) :
    TidyKeeps fun w => w.undeferred ∧ P w where
  closeTag l t w h := ⟨fun m => (((Tidied.refl w).closeTag l t).deferred m).trans (h.1 m), tested l t w h.2⟩
  makeHead e l w v h hv := by
    obtain ⟨-, i, hd, -⟩ := makeHead_lists hv
    rw [h.1 l] at hd
    cases hd
  retried l w h := ⟨undeferred_onLink h.1 rfl, retried l w h.2⟩

/-- The GO of a tag has been sent. -/
structure GoOut (l : Fin 4) (t : Fin 15) (w : World) : Prop where
  gos : ∀ x ∈ (w.link l).gos, x.tag = t → x.sent = true
  tags : ∀ h, (w.link l).tags.get t = some h → h.go = .sent

namespace GoOut
variable {w v : World} {l m : Fin 4} {t u : Fin 15}

theorem same (h : w.GoOut l t) (hg : (v.link l).gos = (w.link l).gos) (ht : (v.link l).tags = (w.link l).tags) :
    v.GoOut l t := ⟨fun x hx => h.gos x (hg ▸ hx), fun k hk => h.tags k (ht ▸ hk)⟩

/-- GOs that leave the list, and a change of the tags that keeps or frees the GO's own. -/
theorem onLink (h : w.GoOut l t) (f : Link → Link) (hg : ∀ x ∈ (f (w.link m)).gos, x ∈ (w.link m).gos)
    (ht : m = l → (f (w.link m)).tags.get t = (w.link m).tags.get t ∨ (f (w.link m)).tags.get t = none) :
    (w.onLink m f).GoOut l t := by
  by_cases hm : m = l
  · subst hm
    refine ⟨fun x hx => ?_, fun k hk => ?_⟩
    · rw [onLink_link, if_pos rfl] at hx
      exact h.gos x (hg x hx)
    · rw [onLink_link, if_pos rfl] at hk
      rcases ht rfl with ht | ht <;> rw [ht] at hk
      · exact h.tags k hk
      · cases hk
  · have link : (w.onLink m f).link l = w.link l := (onLink_link _ _ _ _).trans (if_neg hm)
    exact h.same (by rw [link]) (by rw [link])

theorem tagFreed (h : w.GoOut l t) (k : TagHold) : (w.tagFreed m u k).GoOut l t := by
  refine same (w := w.onLink m fun j => { j with
    tags := j.tags.set u none, gos := j.gos.filter (·.tag != u), retry := true })
    (h.onLink _ (fun x hx => (List.mem_filter.1 hx).1) fun _ => ?_) rfl rfl
  by_cases hu : u = t
  · subst hu
    exact .inr (Tab.get_set_self _ _ _)
  · exact .inl (Tab.get_set_ne _ _ hu)

/-- The GO of a tag that is still pending is another one. -/
theorem removeGo (h : w.GoOut l t) {k : TagHold} (hk : (w.link m).tags.get u = some k) (hp : k.go = .pending) :
    (w.onLink m (Link.removeGo u)).GoOut l t := by
  refine h.onLink _ (fun x hx => (List.mem_filter.1 hx).1) fun hm => .inl (Tab.get_upd_ne _ _ fun hu => ?_)
  subst hm hu
  have sent := h.tags k hk
  rw [hp] at sent
  cases sent

theorem closeTag (h : w.GoOut l t) : (w.closeTag m u).GoOut l t := by
  cases hk : (w.link m).tags.get u with
  | none =>
    rw [closeTag_free hk]
    exact h
  | some k =>
    obtain ⟨removeFree, removed, freed, kept⟩ := closeTag_used hk
    by_cases hg : k.go = .pending ∧ ∀ x ∈ (w.link m).stage.filter fun x => x.tag == u.val + 1, x.keepsGo = false
    · by_cases hc : ((w.link m).stage.filter fun x => x.tag == u.val + 1) = []
      · rw [removeFree hg hc]
        exact (h.removeGo hk hg.1).tagFreed k
      · rw [removed hg hc]
        exact h.removeGo hk hg.1
    · by_cases hp : k.go = .pending ∨ ((w.link m).stage.filter fun x => x.tag == u.val + 1) ≠ []
      · rw [kept hg hp]
        exact h
      · rw [not_or, not_not] at hp
        rw [freed hg hp.1 hp.2]
        exact h.tagFreed k

theorem tidy (h : w.GoOut l t) (hd : w.undeferred) (e : Env) : (w.tidy e).GoOut l t :=
  ((tidyKeeps_undeferred (P := GoOut l t) (fun _ _ _ h => h.closeTag)
    fun _ _ h => h.onLink _ (fun _ hx => hx) fun _ => .inl rfl).tidy ⟨hd, h⟩ e).2

end GoOut

/-! ## The event (R124) -/

/-- The GO of a tag marked sent. -/
def goMarked (l : Fin 4) (t : Fin 15) (w : World) : World := w.onLink l fun k => { k with
  gos := k.gos.map fun g => if g.tag = t then { g with sent := true } else g
  tags := k.tags.upd t (Option.map fun h => { h with go := .sent }) }

/-- The entries of a GO. -/
def goEntries (w : World) (l : Fin 4) (t : Fin 15) : List Entry := (w.link l).stage.filter (·.tag == tagNo t)

/-- The GO sent and its entries settled, as it stands before the tests that follow. -/
def goSettled (l : Fin 4) (t : Fin 15) (w : World) : World :=
  (w.goMarked l t).each (w.goEntries l t) (World.goSettle l)

section
variable {w : World} {e : Env} {l m : Fin 4} {t : Fin 15} {x : Entry}

theorem mem_goEntries : x ∈ w.goEntries l t ↔ x ∈ (w.link l).stage ∧ x.tag = t.val + 1 := by
  simp [goEntries]

theorem goMarked_link : (w.goMarked l t).link l = { w.link l with
    gos := (w.link l).gos.map fun g => if g.tag = t then { g with sent := true } else g
    tags := (w.link l).tags.upd t (Option.map fun h => { h with go := .sent }) } :=
  (onLink_link _ _ _ _).trans (if_pos rfl)

theorem goMarked_stage : ((w.goMarked l t).link l).stage = (w.link l).stage := by rw [goMarked_link]

theorem goSent_eq : w.goSent e l t = (w.goSettled l t).tidy e := by
  have entries : (w.goMarked l t).goEntries l t = w.goEntries l t := by rw [goEntries, goMarked_stage, goEntries]
  rw [goSettled, ← entries]
  rfl

theorem goMarked_out : (w.goMarked l t).GoOut l t := by
  refine ⟨fun x hx ht => ?_, fun h hh => ?_⟩
  · rw [goMarked_link] at hx
    obtain ⟨g, -, rfl⟩ := List.mem_map.1 hx
    by_cases hg : g.tag = t
    · rw [if_pos hg]
    · rw [if_neg hg] at ht
      exact absurd ht hg
  · rw [goMarked_link] at hh
    obtain ⟨k, -, rfl⟩ := Option.map_eq_some_iff.1 ((Tab.get_upd_self _ _ _).symm.trans hh)
    rfl

theorem goSettled_out : (w.goSettled l t).GoOut l t := by
  obtain ⟨_, _, _, _, _, at_⟩ := goSettleEach_link (w.goMarked l t) l l (w.goEntries l t)
  exact goMarked_out.same (by rw [goSettled, at_]) (by rw [goSettled, at_])

theorem goSettled_undeferred (hd : w.undeferred) : (w.goSettled l t).undeferred := by
  intro m
  obtain ⟨_, _, _, _, _, at_⟩ := goSettleEach_link (w.goMarked l t) l m (w.goEntries l t)
  rw [goSettled, at_]
  exact undeferred_onLink hd rfl m

/-- Every driver of the link has the slots and the credits of its entries taken (R145). -/
theorem goSent_driver (a : Fin 16) : (w.goSent e l t).driver m a = if m = l then { w.driver m a with
    credits := (w.driver m a).credits
      + (w.link l).stage.countP fun x => x.tag == t.val + 1 && x.addr == a && x.goTakes
    occupied := (w.driver m a).occupied
      - (w.link l).stage.countP fun x => x.tag == t.val + 1 && x.addr == a && x.goTakes } else w.driver m a := by
  have marked : (w.goMarked l t).driver m a = w.driver m a :=
    ((Rosters.onLink w l _ rfl rfl rfl : w.Rosters (w.goMarked l t)).driver m a)
  simp only [Bool.and_assoc]
  rw [goSent_eq, ((Lists.refl _).tidy e).driver, goSettled, goSettleEach_driver, marked, goEntries, countP_filter_and]

/-- The link's broadcasts, once it has none, are none. -/
theorem goSent_bcast (hb : (w.link l).bcast = none) : ((w.goSent e l t).link l).bcast = none := by
  have settled : ((w.goSettled l t).link l).bcast = none := by
    obtain ⟨_, _, _, _, _, at_⟩ := goSettleEach_link (w.goMarked l t) l l (w.goEntries l t)
    rw [goSettled, at_, goMarked_link]
    exact hb
  rw [goSent_eq]
  rcases (((Lists.refl (w.goSettled l t)).tidy e).wires l).bcast with h | ⟨h, -⟩
  · exact h.trans settled
  · exact h

/-! ### With nothing deferred -/

section
variable (hd : w.undeferred)
include hd

theorem goSent_tidied : (w.goSettled l t).Tidied (w.goSent e l t) := by
  rw [goSent_eq]
  exact tidy_tidied _ e (goSettled_undeferred hd)

theorem goSent_stage : ((w.goSent e l t).link l).stage = ((w.goSettled l t).link l).stage :=
  (goSent_tidied hd).stage l

theorem goSent_players : (w.goSent e l t).players = w.players :=
  (goSent_tidied hd).players.trans (goSettleEach_players (w := w.goMarked l t))

theorem goSent_out : (w.goSent e l t).GoOut l t := by
  rw [goSent_eq]
  exact goSettled_out.tidy (goSettled_undeferred hd) e

/-- No entry of the GO is QUEUED, SENT or STAGED. -/
theorem goSent_early : ∀ x ∈ ((w.goSent e l t).link l).stage, x.tag = t.val + 1 → ¬x.early := by
  rw [goSent_stage hd]
  refine goSettleEach_early (fun x => x.tag = t.val + 1) fun y hy ht _ => mem_goEntries.2 ⟨?_, ht⟩
  rw [← goMarked_stage (t := t)]
  exact hy

theorem goSent_committed (h : x.goTakes = true) (hx : x ∈ (w.link l).stage) (ht : x.tag = t.val + 1)
    (only : ∀ y ∈ (w.link l).stage, y.tag = t.val + 1 → y.addr = x.addr → y = x) :
    ((w.goSent e l t).zone (zoneAt l x.addr)).committed = some x.look := by
  rw [(goSent_tidied hd).zone]
  exact goSettleEach_committed h (mem_goEntries.2 ⟨hx, ht⟩) fun y hy =>
    only y (mem_goEntries.1 hy).1 (mem_goEntries.1 hy).2

theorem goSent_gone (h : x.goTakes = true) (hx : x ∈ (w.link l).stage) (ht : x.tag = t.val + 1) :
    (∀ y ∈ ((w.goSent e l t).link l).stage, y.ref ≠ x.ref)
    ∧ ∀ i ∈ ((w.goSent e l t).link l).pending, i.ref ≠ x.ref := by
  rw [goSent_stage hd, (goSent_tidied hd).pending]
  exact goSettleEach_gone h (mem_goEntries.2 ⟨hx, ht⟩)

section
variable (hx : x ∈ (w.link l).stage) (only : ∀ y ∈ (w.link l).stage, y.ref = x.ref → y = x)
include hx only

/-- An entry of another tag stays, and so does one that the GO neither takes nor makes late. -/
theorem goSent_stays (h : x.tag = t.val + 1 → x.state ≠ .queued ∧ x.state ≠ .sent ∧ x.goTakes ≠ true) :
    x ∈ ((w.goSent e l t).link l).stage := by
  rw [goSent_stage hd]
  refine goSettleEach_stays (by rw [goMarked_stage]; exact hx) fun y hy hr v => ?_
  obtain ⟨hy, ht⟩ := mem_goEntries.1 hy
  obtain rfl := only y hy hr
  obtain ⟨hq, hs, hn⟩ := h ht
  exact goSettle_other hq hs hn

theorem goSent_moved {s : EntryState} (ht : x.tag = t.val + 1)
    (hs : ∀ v : World, v.goSettle l x = v.setEntry l x.ref s) :
    { x with state := s } ∈ ((w.goSent e l t).link l).stage := by
  rw [goSent_stage hd]
  exact goSettleEach_moved hs (by rw [goMarked_stage]; exact hx) (mem_goEntries.2 ⟨hx, ht⟩) fun y hy =>
    only y (mem_goEntries.1 hy).1

end
end
end
end World
end Sys2Proof.Machine
end

section
/-! SUPPORT. The end of a frame's sending (R143): a broadcast leaves the wire, an addressed frame waits for its reply,
and its first sending is reported to the dispatcher (R121, R125, R131). -/

namespace Sys2Proof.Machine
namespace World

section
variable {w v : World} {e : Env} {l : Fin 4} {x : Transfer} {ref : Nat} {y : Entry}

/-! ## A broadcast -/

/-- The broadcast off the wire. -/
def broadcastEnded (l : Fin 4) (w : World) : World := w.onLink l fun k => { k with bcast := none }

theorem broadcastEnded_link : (w.broadcastEnded l).link l = { w.link l with bcast := none } :=
  (onLink_link _ _ _ _).trans (if_pos rfl)

theorem frameSent_force (h : (w.link l).bcast = some .force) : w.frameSent e l = w.broadcastEnded l := by
  simp only [frameSent, h]
  rfl

theorem frameSent_wake (h : (w.link l).bcast = some .wake) : w.frameSent e l = (w.broadcastEnded l).wakeSent l := by
  simp only [frameSent, h]
  rfl

theorem frameSent_go {t : Fin 15} (h : (w.link l).bcast = some (.go t)) :
    w.frameSent e l = (w.broadcastEnded l).goSent e l t := by
  simp only [frameSent, h]
  rfl

theorem wakeSent_warming (h : (w.link l).state = .warming) : w.wakeSent l = w := if_pos h

theorem wakeSent_other (h : (w.link l).state ≠ .warming) : w.wakeSent l =
    { w with ctl := { w.ctl with restartWake := w.ctl.restartWake.set l false } } := if_neg h

/-! ## An addressed frame -/

/-- The frame sent waits for its reply, and its driver has been spoken to (R140, R148). -/
def awaiting (l : Fin 4) (x : Transfer) (w : World) : World :=
  (w.onLink l fun k => { k with
    transfer := some { x with onWire := false, ticks := 0, reported := true } }).onDriver l x.addr
      fun d => { d with quiet := 0 }

theorem awaiting_rest (m : Fin 4) : ((w.awaiting l x).link m).stage = (w.link m).stage
    ∧ ((w.awaiting l x).link m).deferred = (w.link m).deferred := by
  rw [awaiting, onDriver, onLink_link, onLink_link]
  split <;> exact ⟨rfl, rfl⟩

theorem awaiting_entryOf : (w.awaiting l x).entryOf l ref = w.entryOf l ref := by
  rw [entryOf, (awaiting_rest l).1]
  rfl

theorem awaiting_undeferred (h : w.undeferred) : (w.awaiting l x).undeferred := fun m => (awaiting_rest m).2.trans (h m)

section
variable (hb : (w.link l).bcast = none) (ht : (w.link l).transfer = some x) (hw : x.onWire = true)
include hb ht hw

theorem frameSent_repeat (h : x.reported = true) : w.frameSent e l = w.awaiting l x := by
  simp only [frameSent, hb, ht, hw, h]
  rfl

theorem frameSent_first (h : x.reported = false) : w.frameSent e l = (w.awaiting l x).reportSent e l x.frame := by
  simp only [frameSent, hb, ht, hw, h]
  rfl

end

theorem reportSent_unreported (h : x.frame.ref? = none) : w.reportSent e l x.frame = w := by
  unfold reportSent
  cases hf : x.frame with
  | stage | take | drop => rw [hf] at h; cases h
  | refresh | poll | probe | sleep => rfl

theorem reportSent_gone (h : x.frame.ref? = some ref) (hn : w.entryOf l ref = none) :
    w.reportSent e l x.frame = w := by
  unfold reportSent
  cases hf : x.frame <;> rw [hf] at h <;> cases h
  · simp only [stageSent, hn]
  · simp only [takeSent, hn]
  · simp only [dropSent, hn]

theorem stageSent_entry (h : w.entryOf l ref = some y) : w.stageSent l ref =
    (w.setEntry l ref (if y.state = .late then .lateSent else .sent)).onDriver l y.addr fun d =>
      { d with credits := d.credits - 1 } := by
  simp only [stageSent, h]

/-- An entry's TAKE sent: the entry ended, and a group's take counted late (R125, R128). -/
def tookEntry (e : Env) (l : Fin 4) (y : Entry) (w : World) : World :=
  if y.group.isSome then (w.endEntry l y .taken).countTake e y.player Counters.addLate else w.endEntry l y .taken

theorem takeSent_entry (h : w.entryOf l ref = some y) : w.takeSent e l ref = (w.tookEntry e l y).tidy e := by
  simp only [takeSent, h]
  rfl

theorem tookEntry_link (m : Fin 4) : (w.tookEntry e l y).link m = (w.endEntry l y .taken).link m := by
  unfold tookEntry
  split
  · exact countTake_link _ _ _ _ _
  · rfl

theorem tookEntry_zone (z : Fin 64) : (w.tookEntry e l y).zone z = (w.endEntry l y .taken).zone z := by
  unfold tookEntry
  split
  · exact countTake_zone _ _ _ _ _
  · rfl

/-- What a TAKE sent leaves of its entry, where nothing is deferred. -/
theorem takeSent_settles (h : w.entryOf l ref = some y) (hd : w.undeferred) :
    ((w.takeSent e l ref).zone (zoneAt l y.addr)).committed = some y.look
    ∧ (∀ z ∈ ((w.takeSent e l ref).link l).stage, z.ref ≠ ref)
    ∧ ∀ p, y.group.isSome = true → y.player = some p → (w.player p).state ≠ .free →
      ((w.takeSent e l ref).player p).counters = (w.player p).counters.addLate
      ∧ ((w.takeSent e l ref).notices.get NoticeKind.lateTake.no).pending = true := by
  have quiet : (w.tookEntry e l y).undeferred := fun m => by
    rw [tookEntry_link]
    exact undeferred_endEntry .taken hd m
  have tidied := tidy_tidied _ e quiet
  rw [takeSent_entry h]
  refine ⟨?_, ?_, fun p hg hp hf => ⟨?_, ((Kept.refl _).tidy e).raised _ ?_⟩⟩
  · rw [tidied.zone, tookEntry_zone, endEntry_taken_committed]
  · rw [tidied.stage, tookEntry_link, ← entryOf_ref h]
    exact endEntry_stage_ref .taken
  · rw [tidied.player, tookEntry, if_pos hg, countTake_player, if_pos ⟨hp, hf⟩]
    rfl
  · rw [tookEntry, if_pos hg, hp, countTake, endEntry_player, if_neg hf]
    exact raise_pending _ e .lateTake

/-- A DROP sent, where nothing is deferred (R131). -/
theorem dropSent_settles {stop : DropEnd} {stage : DropStage} (h : w.entryOf l ref = some y)
    (hs : y.state = .dropping stop stage) (hd : w.undeferred) :
    ∀ z ∈ ((w.dropSent e l ref).link l).stage, z.ref = ref → z.state = .dropping stop .dropSent := by
  have sent : w.dropSent e l ref = (w.setEntry l ref (.dropping stop .dropSent)).tidy e := by
    simp only [dropSent, h, hs]
  intro z hz hr
  rw [sent, (tidy_tidied _ e (undeferred_setEntry _ hd)).stage, setEntry_link, if_pos rfl] at hz
  obtain ⟨u, -, rfl⟩ := List.mem_map.1 hz
  by_cases hu : u.ref = ref
  · rw [if_pos hu]
  · rw [if_neg hu] at hr
    exact absurd hr hu

/-! ## The link then waits -/

/-- A link that waits for the reply to a frame it has sent, with no long operation and no quiescing at its end. -/
structure Waits (l : Fin 4) (w : World) : Prop where
  goesOn : w.goesOn l
  quiesced : (w.link l).quiesced = false
  transfer : ∃ x, (w.link l).transfer = some x ∧ x.reported = true

theorem goesOn_iff : w.longOpOver l = none ↔ w.goesOn l := by
  refine ⟨fun h => ⟨fun hs => ?_, fun hs c hc => ?_⟩, longOpOver_none⟩
  · rw [longOpOver_scanning hs] at h
    split at h
    · cases h
    · next hn =>
      rw [Option.isNone_iff_eq_none, scanAddr_none] at hn
      simpa using hn
  · rw [longOpOver_calibrating hs hc] at h
    split at h
    · next hl => exact Link.calLeft_iff.1 hl
    · cases h

namespace Waits

/-- What a link waits by: its state, where its scan or its calibration stands, what it owes, and its drivers' states. -/
theorem congr (h : w.Waits l) (hs : (v.link l).state = (w.link l).state) (hp : (v.link l).scanPos = (w.link l).scanPos)
    (hc : (v.link l).cal = (w.link l).cal) (hf : (v.link l).forceOwed = (w.link l).forceOwed)
    (hw : (v.link l).wakeOwed = (w.link l).wakeOwed) (ht : ∃ x, (v.link l).transfer = some x ∧ x.reported = true)
    (hz : ∀ z, (v.zone z).configured = (w.zone z).configured)
    (hd : ∀ a, (v.driver l a).state = (w.driver l a).state) : v.Waits l where
  goesOn := by
    have going := h.goesOn
    simp only [World.goesOn, toScan, Driver.awake] at going ⊢
    simp only [hs, hp, hc, hz, hd]
    exact going
  quiesced := by
    have awake (a : Fin 16) : ((v.link l).drivers.get a).awake ↔ ((w.link l).drivers.get a).awake := by
      rw [Driver.awake, Driver.awake, show ((v.link l).drivers.get a).state = _ from hd a]
      rfl
    refine Bool.eq_false_iff.2 fun hq => Bool.eq_false_iff.1 h.quiesced ?_
    rw [Link.quiesced_iff] at hq ⊢
    simp only [hs, hf, hw, awake] at hq
    exact hq
  transfer := ht

theorem lists (h : w.Waits l) (hl : w.Lists v) (hk : w.Kept v) : v.Waits l := by
  obtain ⟨x, ht, hr⟩ := h.transfer
  have pos := congrArg Link.scanPos (hl.links l)
  have cal := congrArg Link.cal (hl.links l)
  have force := congrArg Link.forceOwed (hl.links l)
  have wake := congrArg Link.wakeOwed (hl.links l)
  refine h.congr (hl.state l) pos cal force wake ⟨x, ?_, hr⟩ hk.configured fun a => by rw [hl.driver]
  rcases (hl.wires l).transfer with hx | ⟨-, hx⟩
  · exact hx.trans ht
  · rw [hx x ht] at hr
    cases hr

theorem onDriver (h : w.Waits l) (a : Fin 16) (f : Driver → Driver) (hf : ∀ d, (f d).state = d.state) :
    (w.onDriver l a f).Waits l := by
  have at_ : (w.onDriver l a f).link l = { w.link l with drivers := (w.link l).drivers.upd a f } :=
    (onLink_link _ _ _ _).trans (if_pos rfl)
  refine h.congr (by rw [at_]) (by rw [at_]) (by rw [at_]) (by rw [at_]) (by rw [at_])
    (by rw [at_]; exact h.transfer) (fun _ => rfl) fun b => ?_
  rw [onDriver_driver]
  split
  · exact hf _
  · rfl

theorem awaiting (ho : w.longOpOver l = none) (hq : (w.link l).quiesced = false) : (w.awaiting l x).Waits l := by
  have begun : w.Begun (w.onLink l fun k => { k with
      transfer := some { x with onWire := false, ticks := 0, reported := true } }) := Begun.onLink w l _ rfl
  refine Waits.onDriver ⟨goesOn_iff.1 ((begun.longOpOver l).trans ho), (begun.quiesced l).trans hq, ?_⟩ _ _ fun _ => rfl
  rw [onLink_link, if_pos rfl]
  exact ⟨_, rfl, rfl⟩

theorem reportSent (h : w.Waits l) (f : TxFrame) : (w.reportSent e l f).Waits l := by
  cases f with
  | stage ref =>
    cases hx : w.entryOf l ref with
    | none => simpa only [World.reportSent, stageSent, hx] using h
    | some y =>
      show (w.stageSent l ref).Waits l
      rw [stageSent_entry hx]
      exact (h.lists ((Lists.refl w).setEntry l _ _) ((Kept.refl w).setEntry l _ _)).onDriver _ _ fun _ => rfl
  | take ref => exact h.lists ((Lists.refl w).takeSent e l ref) ((Kept.refl w).takeSent e l ref)
  | drop ref => exact h.lists ((Lists.refl w).dropSent e l ref) ((Kept.refl w).dropSent e l ref)
  | refresh | poll | probe | sleep => exact h

theorem pump (h : w.Waits l) : w.pump e l = w := by
  obtain ⟨x, ht, -⟩ := h.transfer
  exact pump_busy e (by rw [Link.wireIdle, ht]; rfl) (goesOn_iff.2 h.goesOn) h.quiesced

end Waits

end
end World

/-! ## The command -/

section
variable {s : State} {l : Fin 4}

theorem Link.sending_iff {k : Link} : k.sending = true ↔
    k.bcast ≠ none ∨ ∃ x, k.transfer = some x ∧ x.onWire = true := by
  simp [Link.sending, Option.isSome_iff_ne_none, Option.any_eq_true]

theorem exec_linkFrameSent_idle (hh : s.held = false) (h : (s.world.link l).sending = false) :
    exec (.linkFrameSent l) s = .next s.choose := by
  rw [exec_linkFrameSent]
  exact State.linkEvent_not_due l _ _ hh h

theorem exec_linkFrameSent_after {w : World} (hh : s.held = false) (h : (s.world.link l).sending = true)
    (hw : s.world.frameSent s.env l = w) : ∃ t, exec (.linkFrameSent l) s = .next t ∧ State.AfterOn l s w t := by
  subst hw
  rw [exec_linkFrameSent]
  exact State.linkEvent_after l _ _ hh h

/-- A link that then waits for a reply sends nothing more. -/
theorem exec_linkFrameSent_waits (hh : s.held = false) (h : (s.world.link l).sending = true)
    (hw : (s.world.frameSent s.env l).Waits l) :
    exec (.linkFrameSent l) s = .next { s with world := s.world.frameSent s.env l }.choose := by
  rw [exec_linkFrameSent, State.linkEvent_due l _ _ hh h, State.onWorld_eq, hw.pump]

end

/-- Settles O39: a broadcast off the wire, with a GO's entries settled, and an addressed frame that waits for its
reply, its first sending reported to the dispatcher. -/
theorem frameSentIsReported : Obligations.FrameSentIsReported := by
  intro s l hh k e
  have sending (h : k.bcast ≠ none) : (s.world.link l).sending = true := Link.sending_iff.2 (.inl h)
  refine ⟨fun hb hx => ?_, fun h => exec_linkFrameSent_after hh (Link.sending_iff.2 h) rfl, ?_, fun x hb ht hw => ?_⟩
  · refine exec_linkFrameSent_idle hh (Bool.eq_false_iff.2 (mt Link.sending_iff.1 ?_))
    rintro (h | ⟨x, ht, hw⟩)
    · exact h hb
    · rw [hx x ht] at hw
      cases hw
  · intro sent
    have at_ : sent.link l = { k with bcast := none } := World.broadcastEnded_link
    refine ⟨fun hb => ?_, fun hb hs => ?_, fun hb hs => ?_, fun g hb => ?_⟩
    · exact exec_linkFrameSent_after hh (sending (by rw [hb]; nofun)) (World.frameSent_force hb)
    · exact exec_linkFrameSent_after hh (sending (by rw [hb]; nofun))
        ((World.frameSent_wake hb).trans (World.wakeSent_warming (by rw [World.broadcastEnded_link]; exact hs)))
    · exact exec_linkFrameSent_after hh (sending (by rw [hb]; nofun))
        ((World.frameSent_wake hb).trans (World.wakeSent_other (by rw [World.broadcastEnded_link]; exact hs)))
    · intro w taken freed
      have takes {x : Entry} : taken x ↔ x.goTakes = true := Entry.goTakes_iff.symm
      have stage : (sent.link l).stage = k.stage := by rw [at_]
      have driver (m : Fin 4) (a : Fin 16) : sent.driver m a = s.world.driver m a :=
        (World.Rosters.onLink s.world l _ rfl rfl rfl : s.world.Rosters sent).driver m a
      refine ⟨exec_linkFrameSent_after hh (sending (by rw [hb]; nofun)) (World.frameSent_go hb),
        ((World.Kept.refl s.world).onLink l _ rfl fun h => h).goSent s.env l g, fun m a => ?_, fun hd => ?_⟩
      · rw [World.goSent_driver, stage, driver]
        split
        · next hm => subst hm; rfl
        · rfl
      · have quiet : sent.undeferred := World.undeferred_onLink hd rfl
        have out : w.GoOut l g := World.goSent_out quiet
        refine ⟨World.goSent_players quiet, World.goSent_bcast (by rw [at_]), out.gos, out.tags, fun x hx ht => ?_,
          fun x hx ht hk only => ?_, fun x hx only => ?_⟩
        · have late := World.goSent_early quiet x hx ht
          simp only [Entry.early, not_or] at late
          exact late
        · rw [← stage] at hx only
          exact World.goSent_committed quiet (takes.1 hk) hx ht only
        · rw [← stage] at hx only
          refine ⟨fun ht => World.goSent_stays quiet hx only fun h => absurd h ht, fun ht => ⟨fun hq => ?_,
            fun hs => ?_, fun hk => World.goSent_gone quiet (takes.1 hk) hx ht, fun hq hs hk => ?_⟩⟩
          · exact World.goSent_moved quiet hx only ht fun v => World.goSettle_queued hq
          · exact World.goSent_moved quiet hx only ht fun v => World.goSettle_sent hs
          · exact World.goSent_stays quiet hx only fun _ => ⟨hq, hs, mt takes.2 hk⟩
  · intro w v
    have again (h : x.reported = true) : w = v := World.frameSent_repeat hb ht hw h
    have first (h : x.reported = false) : w = v.reportSent s.env l x.frame := World.frameSent_first hb ht hw h
    have quiet (hd : ∀ m, (s.world.link m).deferred = []) : v.undeferred := World.awaiting_undeferred hd
    refine ⟨fun ho hq => ?_, fun h => ?_, fun ref hr hf hn => ?_, fun ref tag look hold y hr hf hy => ?_,
      fun ref tag y hr hf hy => ?_, fun ref tag y stop stage hr hf hy hs => ?_⟩
    · have waits : v.Waits l := World.Waits.awaiting ho hq
      have sent : w.Waits l := by
        cases hr : x.reported with
        | true => rw [again hr]; exact waits
        | false => rw [first hr]; exact waits.reportSent x.frame
      exact exec_linkFrameSent_waits hh (Link.sending_iff.2 (.inr ⟨x, ht, hw⟩)) sent
    · cases hr : x.reported with
      | true => exact again hr
      | false => exact (first hr).trans (World.reportSent_unreported (h.resolve_left (by rw [hr]; decide)))
    · exact (first hr).trans (World.reportSent_gone hf (World.awaiting_entryOf.trans hn))
    · have entry : v.entryOf l ref = some y := World.awaiting_entryOf.trans hy
      exact (first hr).trans (by rw [hf]; exact World.stageSent_entry entry)
    · have entry : v.entryOf l ref = some y := World.awaiting_entryOf.trans hy
      have eq : w = v.takeSent s.env l ref := (first hr).trans (by rw [hf]; rfl)
      refine ⟨eq, eq ▸ (World.Kept.refl v).takeSent s.env l ref, fun hd => ?_⟩
      rw [eq]
      exact World.takeSent_settles entry (quiet hd)
    · have entry : v.entryOf l ref = some y := World.awaiting_entryOf.trans hy
      have eq : w = v.dropSent s.env l ref := (first hr).trans (by rw [hf]; rfl)
      refine ⟨eq, eq ▸ (World.Kept.refl v).dropSent s.env l ref, fun hd => ?_⟩
      rw [eq]
      exact World.dropSent_settles entry hs (quiet hd)

end Sys2Proof.Machine
end
